-- ==== Sys2Proof/Word.lean ====
section
/-! DEFINITION. The plain numbers and names of the IX48: bytes, clock values, bin numbers, columns, handovers, ports. -/
namespace Sys2Proof

/-- A byte on a link (R137). -/
abbrev Byte := BitVec 8

/-- A byte that a controller presents, with the level of END beside it (R137). -/
abbrev BusByte := Byte × Bool

/-- A value of the 16-bit seconds count, which continues from 65535 to 0 (R55). -/
abbrev Seconds := BitVec 16

/-- A bin number, 1 to 16,777,215; 0 is no bin number (00 0.7). -/
abbrev BinNo := BitVec 24

/-- A gauge input or reading: 0 to 6 bins, or 7 for a fault (Table 7-1). -/
abbrev Reading := BitVec 3

/-- An interchange column number (00 0.7). -/
abbrev ColIx := Fin 8

/-- A handover number (00 0.7). -/
abbrev HNum := Fin 32

/-- A region port: 0 to 3 stand for P0 to P3 (00 0.7). -/
abbrev Region := Fin 4

/-- A bin heading, in counterclockwise quarter turns from +y (00 0.7). -/
abbrev Heading := Fin 4

/-- A set of region ports as the links carry it: bit `i` for port `i` (Table 9-10). -/
abbrev RegionSet := BitVec 4

/-- One of the five ports: a region port, or the supervisor port PS. -/
inductive Port where
  | region (r : Region)
  | ps
  deriving DecidableEq, Repr

/-- The origin of a record: a region port, or `ps` for SUPERVISOR (R36, Table 9-10). -/
abbrev Origin := Port

/-- The place of a port among the five link units and pending sets. -/
def Port.ix : Port → Fin 5
  | .region r => r.castSucc
  | .ps => 4

/-- The eight columns in ascending interchange number. -/
def ColIx.all : List ColIx := [0, 1, 2, 3, 4, 5, 6, 7]

/-- The thirty-two handover numbers, ascending. -/
def HNum.all : List HNum :=
  [0, 1, 2, 3, 4, 5, 6, 7, 8, 9, 10, 11, 12, 13, 14, 15,
   16, 17, 18, 19, 20, 21, 22, 23, 24, 25, 26, 27, 28, 29, 30, 31]

/-- The four region ports, ascending. -/
def Region.all : List Region := [0, 1, 2, 3]

/-- The five ports, PS last. -/
def Port.all : List Port := [.region 0, .region 1, .region 2, .region 3, .ps]

end Sys2Proof
end

