-- ==== Sys2Proof/Syntax.lean ====
section
/-! DEFINITION. The commands of the IX48: one constructor for each row of spec/opcode_table.json. -/
namespace Sys2Proof

/-- The steps of the part (95_what_each_step_holds.md). A request is taken from the intake queue of its port
(R140), so a request's fields are the bytes of the frame that stands oldest there and its operand is the port. -/
inductive Instr where
  /-- Power-on (R34). -/
  | powerOn
  /-- The RESET input is asserted (R34). -/
  | resetInput
  /-- The RESET input is released (R55). -/
  | resetRelease
  /-- The controller of `p` presents a byte, with the level of END, between frames (R137). -/
  | frameBegin (p : Port) (b : Byte) (endLevel : Bool)
  /-- Bytes of a controller frame, each with its level of END, are taken one after another (R138). -/
  | controllerFrame (p : Port) (bytes : List BusByte)
  /-- TURN falls after the last check byte of a frame of the IX48 (R142). -/
  | turnFalls (p : Port)
  /-- TURN rises for the oldest answer (R143). -/
  | sendAnswer (p : Port)
  /-- TURN rises for the next valid notice (R153). -/
  | sendNotice (p : Port)
  /-- A request whose kind names no request is taken (R141). -/
  | requestOfUnknownKind (p : Port)
  | book (p : Port)
  | cancel (p : Port)
  | claim (p : Port)
  | landed (p : Port)
  | lifted (p : Port)
  | release (p : Port)
  | regionRestart (p : Port)
  | queryHandover (p : Port)
  | queryColumn (p : Port)
  | queryStatus (p : Port)
  | queryError (p : Port)
  | clearErrors (p : Port)
  | configureColumn (p : Port)
  | configurePort (p : Port)
  | configureLimits (p : Port)
  | configureLoad (p : Port)
  | configureNotices (p : Port)
  | setMode (p : Port)
  | force (p : Port)
  | fence (p : Port)
  | restore (p : Port)
  | amend (p : Port)
  | reinitialize (p : Port)
  /-- A 100 ms tick, with the levels of the eight gauge inputs at it (R55, R107). -/
  | interchangeTick (gauges : Vector Reading 8)
  /-- The filter count of a column has reached 0 (R109). -/
  | gaugeReadingChange (c : ColIx)
  /-- The grant timer of a column has reached 0 (R87). -/
  | grantTimeout (c : ColIx)
  /-- The settle timer of a column has reached 0 (R111). -/
  | settleExpiry (c : ColIx)
  /-- The seconds count advances by one (R56). -/
  | secondsAdvance
  /-- The booking timer of a record has reached 0 (R45). -/
  | bookingExpiry (h : HNum)
  /-- A charging record meets its warning deadline (R101). -/
  | exposureWarning (h : HNum)
  /-- A charging record meets its expiry deadline (R102). -/
  | exposureExpiry (h : HNum)
  /-- Occupancy is sampled for the trend (R133). -/
  | trendSample
  deriving DecidableEq, Repr

end Sys2Proof
end

