-- ==== Sys2Proof/Decode.lean ====
section
/-! DEFINITION. The table of commands gives no row any bits, so no word spells a command. -/
namespace Sys2Proof

/-- The command that a word spells by the bits of spec/opcode_table.json: none, since no row has bits. The
byte layouts of Chapter 9 belong to the frames, which the requests read when they are taken. -/
def decodeTableWord (_nbits _w : Nat) : Option Instr := none

end Sys2Proof
end

