-- ==== Sys2Proof/Config.lean ====
section
/-! DEFINITION. What is fixed for one part: the capacities the spec gives, and the values the spec does not state. -/
namespace Sys2Proof.Config

/-- Frames an intake queue holds (R136). -/
def intakeRoom : Nat := 4

/-- Answers an answer queue holds (R136). -/
def answerRoom : Nat := 4

/-- Claims a wait list holds, and region claims among them (R73). -/
def waitRoom : Nat := 6
@[inherit_doc waitRoom] def regionRoom : Nat := 4

/-- The greatest arrival stamp (R69). -/
def maxStamp : Nat := 4294967295

/-- The longest frame body (R138). -/
def maxBody : Nat := 64

/-- DESIGN CHOICE (entry 8), a free value: the code of the outcome byte in the LIFTED answer on a SHIFT, for
MOVING (`true`) and HANDED_BACK (`false`). R84 names the two outcomes and Table 9-10 gives them no code. -/
opaque liftedOutcome : Bool → Byte

/-- DESIGN CHOICE (entry 11), a free value: whether AMEND finds a bin listed twice before it looks for bins held
elsewhere. R117 states both duplicate tests and no order between them. -/
opaque amendRepeatsFirst : Bool

/-- DESIGN CHOICE (entry 12), free values: what a CONFIGURE COLUMN that names no column, or a CONFIGURE PORT that
names no region port, carries as "the configuration as it stands after the request" (R2, R8): the seven one-byte items
of Table 1-2 and the four of Table 1-3 (R148), each of any value. -/
opaque configOfNoColumn : Vector Byte 7
@[inherit_doc configOfNoColumn] opaque configOfNoPort : Vector Byte 4

end Sys2Proof.Config
end

