-- ==== Sys2Proof/Machine/State.lean ====
section
/-! DEFINITION. The state of the IX48 as plain data, and its value after reset. -/
namespace Sys2Proof.Machine

/-! ### Handover records (Chapters 3 and 6) -/

/-- A column class, and a bin class (R1, R36). -/
inductive BinClass where
  | ambient | chilled
  deriving DecidableEq, Repr

/-- A robot: the pair of its port and its number (00 0.7). -/
structure Robot where
  port : Region
  number : Byte
  deriving DecidableEq, Repr

/-- The states of a record in use or CLOSING (R39). FREE is the absence of the record, see `State.records`. -/
inductive HandState where
  | booked | landing | stored | lifting | shifting | moving | doubt | closing
  deriving DecidableEq, Repr

/-- The due of a record (R57): an absolute seconds value, or one of the two statuses without a value. -/
inductive Due where
  | pending (t : Seconds) | passed | unknown
  deriving DecidableEq, Repr

/-- The four operations of a grant (Table 5-1). -/
inductive OpKind where
  | deposit | lift | shift | holding
  deriving DecidableEq, Repr

/-- What is doubted of a record in DOUBT: the operation and its robot (R87). -/
structure Doubt where
  op : OpKind
  robot : Robot
  deriving DecidableEq, Repr

/-- The budget fields of a CHILLED record and its deadlines (R96). -/
structure Budget where
  remaining : Nat
  since : Option Seconds
  warned : Bool
  expired : Bool
  expiryAt : Option Seconds
  warnAt : Option Seconds
  deriving DecidableEq, Repr

/-- Why a record is CLOSING (Table 3-4). -/
inductive Reason where
  | delivered | withdrawn | handedBack | removed
  deriving DecidableEq, Repr

/-- What a CLOSING record holds: its reason and the ports still to be told (R49). -/
structure Closing where
  reason : Reason
  waiting : RegionSet
  deriving DecidableEq, Repr

/-- The follower of a record: the robot and the stamp of the claim it was (R92). -/
structure Follower where
  robot : Robot
  stamp : Nat
  deriving DecidableEq, Repr

/-- A handover record that is not FREE (Table 3-1). A record is CHILLED exactly when it carries the budget fields
(R96), so `budget` gives its class. -/
structure Handover where
  state : HandState
  bin : BinNo
  origin : Origin
  dest : Region
  urgency : Nat
  due : Due
  heading : Heading
  column : Option ColIx
  target : Option ColIx
  bookingTimer : Option Nat
  holder : Option Robot
  doubt : Option Doubt
  budget : Option Budget
  closing : Option Closing
  follower : Option Follower
  deriving DecidableEq, Repr

/-! ### Claims and grants (Chapter 5) -/

inductive ClaimKind where
  | deposit | lift | holding
  deriving DecidableEq, Repr

/-- A claim (Table 5-1). In a wait list it is WAITING, or BLOCKED when `blocked` is set; in a grant it is GRANTED. -/
structure Claim where
  robot : Robot
  kind : ClaimKind
  handover : HNum
  stamp : Nat
  blocked : Bool
  deriving DecidableEq, Repr

/-- The operation of a grant; a SHIFT names the record that is shifted, whose target is a field of that record. -/
inductive Operation where
  | deposit | lift | shift (k : HNum) | holding
  deriving DecidableEq, Repr

/-- A grant slot that is taken (R77). The timer is absent until it is started (R78). -/
structure Grant where
  claim : Claim
  op : Operation
  noticeSent : Bool
  timer : Option Nat
  deriving DecidableEq, Repr

/-! ### Column records (Chapters 1, 2 and 7) -/

inductive GaugeMode where
  | off | watch | check
  deriving DecidableEq, Repr

/-- The configuration of a column (Table 1-2). -/
structure ColumnConfig where
  enabled : Bool
  cls : BinClass
  depth : Nat
  reach : RegionSet
  gaugeMode : GaugeMode
  rise : Bool
  fall : Bool
  deriving DecidableEq, Repr

/-- The states of a column (R20). -/
inductive ColState where
  | unknown | opened | granted | settling | fenced | disabled
  deriving DecidableEq, Repr

inductive FenceCause where
  | grantTimeout | gaugeMismatch | gaugeUnexpected | gaugeFault | supervisor
  deriving DecidableEq, Repr

/-- A column record (Table 2-1), with the wait list and grant slot the Claim Arbiter keeps for it and the gauge
fields the Gauge Monitor keeps for it (R107, R111). The inbound set is held in ascending order. -/
structure Column where
  cfg : ColumnConfig
  state : ColState
  fencePending : Bool
  cause : Option FenceCause
  stack : List HNum
  inbound : List HNum
  waitList : List Claim
  grant : Option Grant
  reading : Reading
  candidate : Reading
  filterCount : Option Nat
  settleTimer : Option Nat
  deriving DecidableEq, Repr

/-! ### Limits, load, ports, links, notices, errors -/

/-- The part-wide limits (R145). -/
structure Limits where
  booking : Nat
  grant : Nat
  digReserve : Nat
  warn : Nat
  filterSteps : Nat
  settleExp : Nat
  deriving DecidableEq, Repr

inductive Mode where
  | run | hold | drain | freeze
  deriving DecidableEq, Repr

inductive Forcing where
  | automatic | forcedOn | forcedOff
  deriving DecidableEq, Repr

inductive Trend where
  | steady | rising | falling
  deriving DecidableEq, Repr

/-- One of the two setpoints (R124). -/
structure Setpoint where
  onLevel : Nat
  offLevel : Nat
  on : Bool
  forcing : Forcing
  deriving DecidableEq, Repr

/-- The Load Monitor (Table 8-1); the samples stand oldest first. -/
structure LoadMonitor where
  mode : Mode
  holdLevel : Nat
  high : Setpoint
  full : Setpoint
  highLevel : Nat
  trendStep : Nat
  samples : Vector Nat 7
  trend : Trend
  deriving DecidableEq, Repr

inductive FieldOrder where
  | lowFirst | highFirst
  deriving DecidableEq, Repr

/-- The configuration of a region port (Table 1-3). -/
structure PortConfig where
  enabled : Bool
  rotation : Fin 4
  mirror : Bool
  order : FieldOrder
  deriving DecidableEq, Repr

inductive RxState where
  | betweenFrames | receiving | discarding
  deriving DecidableEq, Repr

inductive BusOwner where
  | controller | ix48 | turning
  deriving DecidableEq, Repr

/-- A checked request frame: its kind and its body (Table 9-5). -/
structure Frame where
  kind : Byte
  body : List Byte
  deriving DecidableEq, Repr

/-- The frame in sending: its bytes and how many have been sent. -/
structure Sending where
  bytes : List Byte
  sent : Nat
  deriving DecidableEq, Repr

/-- A link unit (Table 9-1). `frame` is the frame in reception and its length the count of bytes taken; an answer
is held as its body, translated when it was made (R9). `prepared` is what Table 9-1 leaves to PACE: the edge before the
next one set PACE low for a turn (R137, R142; entry 7). -/
structure LinkUnit where
  rx : RxState
  frame : List Byte
  intake : List Frame
  answers : List (List Byte)
  bus : BusOwner
  sending : Option Sending
  window : Bool
  prepared : Bool
  deriving DecidableEq, Repr

/-- The kinds of notice (Table 10-1), in the order of their codes. -/
inductive NoticeKind where
  | reset | grant | ready | moved | dismissed | withdrawn | warn | expired | delivered | handedBack
  | fence | load | gauge | error
  deriving DecidableEq, Repr

/-- An item of a pending set (R149): its kind with its subject and, where the kind has one, its snapshot. -/
inductive Notice where
  | reset
  | grant (c : ColIx)
  | ready (h : HNum)
  | moved (h : HNum)
  | dismissed (h : HNum) (robot cause : Byte)
  | withdrawn (h : HNum) (bin : BinNo) (cause : Byte)
  | warn (h : HNum)
  | expired (h : HNum)
  | delivered (h : HNum)
  | handedBack (h : HNum) (bin : BinNo) (holder : Robot)
  | fence (c : ColIx)
  | load
  | gauge (c : ColIx)
  | error (g : Fin 8)
  deriving DecidableEq, Repr

/-- The kinds of error (Table 11-1), in the order of their codes. -/
inductive ErrorKind where
  | badCheck | truncated | overlong | unknownKind | badLength | notGranted | staleReport | grantTimeout
  | gaugeMismatch | gaugeUnexpected | gaugeFault | handedBack | expired
  deriving DecidableEq, Repr

/-- A captured record (Table 11-2); a field its kind does not fill is absent. -/
structure Capture where
  kind : ErrorKind
  port : Option Port
  robot : Option Byte
  handover : Option HNum
  column : Option ColIx
  time : Seconds
  reading : Option Reading
  stackLen : Option Nat
  deriving DecidableEq, Repr

/-- An error group (R158); its captured flag is set exactly when it holds a captured record. -/
structure ErrorGroup where
  captured : Option Capture
  multi : Bool
  deriving DecidableEq, Repr

/-- Everything the spec gives the part, and three fields of the model's own: `advanceDue` and `trendDue` (entry 5)
and the queue of waiting commands. A FREE handover record has its state and no other field (R36), so it is `none`. -/
structure State where
  columns : Vector Column 8
  records : Vector (Option Handover) 32
  stampCounter : Nat
  limits : Limits
  load : LoadMonitor
  clock : Seconds
  tickCount : Nat
  ports : Vector PortConfig 4
  links : Vector LinkUnit 5
  levels : Vector Nat 14
  pendingSets : Vector (List Notice) 5
  groups : Vector ErrorGroup 8
  resetAsserted : Bool
  advanceDue : Bool
  trendDue : Bool
  pending : List Instr
  deriving DecidableEq, Repr

/-- No step of the IX48 stops the part: a request it cannot serve is answered with a result code, and an error is
captured (Chapter 11). So there is no fault to raise; no meaning raises one. -/
inductive Fault where
  deriving DecidableEq, Repr

/-- Why a command is refused. -/
inductive Refusal where
  /-- The command has no meaning in the model yet: raised by an arm of `exec` only. Safe: the run stops. -/
  | notModelled (mnemonic : String)
  deriving DecidableEq, Repr

/-! ### The state after reset -/

/-- The configuration of a column after power-on: Table 1-2. -/
def ColumnConfig.initial (c : ColIx) : ColumnConfig where
  enabled := true
  cls := if c.val < 4 then .ambient else .chilled
  depth := 6
  reach := 15
  gaugeMode := .check
  rise := true
  fall := true

/-- A column record after power-on: R1, R34, R123. -/
def Column.initial (c : ColIx) : Column where
  cfg := .initial c
  state := .unknown
  fencePending := false
  cause := none
  stack := []
  inbound := []
  waitList := []
  grant := none
  reading := 0
  candidate := 0
  filterCount := none
  settleTimer := none

/-- The limits after power-on: R145. -/
def Limits.initial : Limits where
  booking := 300
  grant := 45
  digReserve := 2
  warn := 60
  filterSteps := 2
  settleExp := 2

/-- The Load Monitor after power-on: Table 8-1. -/
def LoadMonitor.initial : LoadMonitor where
  mode := .run
  holdLevel := 4
  high := { onLevel := 36, offLevel := 32, on := false, forcing := .automatic }
  full := { onLevel := 44, offLevel := 40, on := false, forcing := .automatic }
  highLevel := 3
  trendStep := 3
  samples := Vector.replicate 7 0
  trend := .steady

/-- The configuration of a region port after power-on: Table 1-3. -/
def PortConfig.initial : PortConfig where
  enabled := true
  rotation := 0
  mirror := false
  order := .lowFirst

/-- A link unit after power-on: Table 9-1. A RESET notice is pending then and PACE is low before the first edge, so
TURN may rise at that edge and RESET is the first frame that is sent (R143, R156; entry 28). -/
def LinkUnit.initial : LinkUnit where
  rx := .betweenFrames
  frame := []
  intake := []
  answers := []
  bus := .controller
  sending := none
  window := false
  prepared := true

/-- The levels after power-on, by kind code: Table 10-1. -/
def defaultLevels : Vector Nat 14 := #v[7, 7, 5, 4, 6, 6, 6, 7, 2, 7, 6, 3, 2, 5]

/-- The machine right after power-on with RESET released: every block at its power-on value (R34, R54, R55, R94,
R123, R124, R136, R151, R156, R158). The level of the RESET pin is the model's choice (entry 14). -/
def State.reset : State where
  columns := Vector.ofFn Column.initial
  records := Vector.replicate 32 none
  stampCounter := 0
  limits := .initial
  load := .initial
  clock := 0
  tickCount := 0
  ports := Vector.replicate 4 .initial
  links := Vector.replicate 5 .initial
  levels := defaultLevels
  pendingSets := Vector.replicate 5 [.reset]
  groups := Vector.replicate 8 { captured := none, multi := false }
  resetAsserted := false
  advanceDue := false
  trendDue := false
  pending := []

end Sys2Proof.Machine
end

