-- ==== Sys2Proof/Machine/Operands.lean ====
section
/-! DEFINITION. The operands of requests, answers and notices: code values, byte order, frames of reference, clamps. -/
namespace Sys2Proof.Machine

/-! ### Code values (Tables 9-8, 9-10, 10-1, 11-1) -/

/-- One byte holding a number. -/
def byte (n : Nat) : Byte := BitVec.ofNat 8 n

/-- A flag: 0 off or no, 1 on or yes. -/
def flagCode (b : Bool) : Byte := if b then 1 else 0

/-- An absent single-byte item (R148). -/
def absentByte : Byte := 0xFF

def portCode : Port → Byte
  | .region r => byte r.val
  | .ps => 4

def BinClass.code : BinClass → Byte
  | .ambient => 0
  | .chilled => 1

def GaugeMode.code : GaugeMode → Byte
  | .off => 0
  | .watch => 1
  | .check => 2

def Mode.code : Mode → Byte
  | .run => 0
  | .hold => 1
  | .drain => 2
  | .freeze => 3

def FieldOrder.code : FieldOrder → Byte
  | .lowFirst => 0
  | .highFirst => 1

def Forcing.code : Forcing → Byte
  | .automatic => 0
  | .forcedOn => 1
  | .forcedOff => 2

def Trend.code : Trend → Byte
  | .steady => 0
  | .rising => 1
  | .falling => 2

def ColState.code : ColState → Byte
  | .unknown => 0
  | .opened => 1
  | .granted => 2
  | .settling => 3
  | .fenced => 4
  | .disabled => 5

def FenceCause.code : FenceCause → Byte
  | .grantTimeout => 0
  | .gaugeMismatch => 1
  | .gaugeUnexpected => 2
  | .gaugeFault => 3
  | .supervisor => 4

/-- The state code of a record; FREE, the absence of a record, has code 0. -/
def HandState.code : HandState → Byte
  | .booked => 1
  | .landing => 2
  | .stored => 3
  | .lifting => 4
  | .shifting => 5
  | .moving => 6
  | .doubt => 7
  | .closing => 8

def OpKind.code : OpKind → Byte
  | .deposit => 0
  | .lift => 1
  | .shift => 2
  | .holding => 3

def Operation.kind : Operation → OpKind
  | .deposit => .deposit
  | .lift => .lift
  | .shift _ => .shift
  | .holding => .holding

def ClaimKind.code : ClaimKind → Byte
  | .deposit => 0
  | .lift => 1
  | .holding => 2

/-- The due status codes. -/
def Due.code : Due → Byte
  | .pending _ => 0
  | .passed => 1
  | .unknown => 2

/-- The closing reason codes; the table gives no reason the code 2. -/
def Reason.code : Reason → Byte
  | .delivered => 0
  | .withdrawn => 1
  | .handedBack => 3
  | .removed => 4

def ErrorKind.code : ErrorKind → Byte
  | .badCheck => 0
  | .truncated => 1
  | .overlong => 2
  | .unknownKind => 3
  | .badLength => 4
  | .notGranted => 5
  | .staleReport => 6
  | .grantTimeout => 7
  | .gaugeMismatch => 8
  | .gaugeUnexpected => 9
  | .gaugeFault => 10
  | .handedBack => 11
  | .expired => 12

/-- The place of a notice kind among the fourteen levels: its code (Table 9-10). -/
def NoticeKind.ix : NoticeKind → Fin 14
  | .reset => 0
  | .grant => 1
  | .ready => 2
  | .moved => 3
  | .dismissed => 4
  | .withdrawn => 5
  | .warn => 6
  | .expired => 7
  | .delivered => 8
  | .handedBack => 9
  | .fence => 10
  | .load => 11
  | .gauge => 12
  | .error => 13

/-- The result codes of an answer (Table 9-8). -/
inductive Result where
  | ok | queued | late | full | gated | duplicate | noRecord | noRegion | notYours | badState | stale | fenced
  | busy | notGranted | inProgress | notPermitted | badField | unknown | mismatch | doubt
  deriving DecidableEq, Repr

def Result.code : Result → Byte
  | .ok => 0x00
  | .queued => 0x01
  | .late => 0x02
  | .full => 0x10
  | .gated => 0x11
  | .duplicate => 0x12
  | .noRecord => 0x13
  | .noRegion => 0x14
  | .notYours => 0x15
  | .badState => 0x16
  | .stale => 0x17
  | .fenced => 0x18
  | .busy => 0x19
  | .notGranted => 0x1A
  | .inProgress => 0x1B
  | .notPermitted => 0x1C
  | .badField => 0x1D
  | .unknown => 0x1E
  | .mismatch => 0x1F
  | .doubt => 0x20

/-! ### Requests (Table 9-3) -/

/-- The request kinds of Table 9-3. -/
inductive RequestKind where
  | book | cancel | claim | landed | lifted | release | regionRestart
  | queryHandover | queryColumn | queryStatus | queryError | clearErrors
  | configureColumn | configurePort | configureLimits | configureLoad | configureNotices
  | setMode | force | fence | restore | amend | reinitialize
  deriving DecidableEq, Repr

def RequestKind.code : RequestKind → Byte
  | .book => 0x11
  | .cancel => 0x12
  | .claim => 0x13
  | .landed => 0x14
  | .lifted => 0x15
  | .release => 0x16
  | .regionRestart => 0x17
  | .queryHandover => 0x20
  | .queryColumn => 0x21
  | .queryStatus => 0x22
  | .queryError => 0x23
  | .clearErrors => 0x24
  | .configureColumn => 0x30
  | .configurePort => 0x31
  | .configureLimits => 0x32
  | .configureLoad => 0x33
  | .configureNotices => 0x34
  | .setMode => 0x35
  | .force => 0x36
  | .fence => 0x37
  | .restore => 0x38
  | .amend => 0x39
  | .reinitialize => 0x3A

/-- Every request kind, in the order of Table 9-3. -/
def RequestKind.all : List RequestKind :=
  [.book, .cancel, .claim, .landed, .lifted, .release, .regionRestart, .queryHandover, .queryColumn, .queryStatus,
   .queryError, .clearErrors, .configureColumn, .configurePort, .configureLimits, .configureLoad, .configureNotices,
   .setMode, .force, .fence, .restore, .amend, .reinitialize]

/-- Whether a kind byte names a request (R141, stage 1). -/
def namesRequest (k : Byte) : Bool := RequestKind.all.any fun r => r.code == k

/-- Whether a body has the length Table 9-3 gives for the kind; an AMEND body must agree with its count byte
(R141, stage 2). -/
def RequestKind.lengthOk (k : RequestKind) (body : List Byte) : Bool :=
  match k with
  | .book => body.length == 11
  | .cancel => body.length == 2
  | .claim => body.length == 4
  | .landed | .lifted | .release => body.length == 3
  | .regionRestart => body.length == 1
  | .queryHandover => body.length == 5
  | .queryColumn => body.length == 2
  | .queryStatus => body.length == 1
  | .queryError | .clearErrors => body.length == 2
  | .configureColumn => body.length == 9
  | .configurePort => body.length == 6
  | .configureLimits => body.length == 9
  | .configureLoad => body.length == 7
  | .configureNotices | .setMode | .force => body.length == 3
  | .fence | .restore => body.length == 2
  | .amend =>
    match body with
    | _ :: _ :: n :: _ => body.length == 3 + 10 * n.toNat
    | _ => false
  | .reinitialize => body.length == 1

/-- Whether Table 9-3 permits the kind from the port (R141, stage 3). A region port may send CLEAR ERRORS for its
own LINK group alone, whose code is its port code; any other group byte, one above 7 too, is not that group
(entry 22). -/
def RequestKind.permitted (k : RequestKind) (p : Port) (body : List Byte) : Bool :=
  match k, p with
  | .book, p | .cancel, p | .claim, p | .landed, p | .lifted, p | .release, p | .regionRestart, p => p != .ps
  | .queryHandover, _ | .queryColumn, _ | .queryStatus, _ | .queryError, _ => true
  | .clearErrors, .ps => true
  | .clearErrors, .region r => body[1]? == some (byte r.val)
  | .configureColumn, p | .configurePort, p | .configureLimits, p | .configureLoad, p | .configureNotices, p
  | .setMode, p | .force, p | .fence, p | .restore, p | .amend, p | .reinitialize, p => p == .ps

/-- The four QUERY requests, which a disabled region port may still send (R10). -/
def RequestKind.isQuery : RequestKind → Bool
  | .queryHandover | .queryColumn | .queryStatus | .queryError => true
  | _ => false

/-! ### Byte order (R14) -/

def put16 (o : FieldOrder) (v : BitVec 16) : List Byte :=
  let hi := v.extractLsb' 8 8
  let lo := v.extractLsb' 0 8
  match o with
  | .lowFirst => [lo, hi]
  | .highFirst => [hi, lo]

def put24 (o : FieldOrder) (v : BitVec 24) : List Byte :=
  let b2 := v.extractLsb' 16 8
  let b1 := v.extractLsb' 8 8
  let b0 := v.extractLsb' 0 8
  match o with
  | .lowFirst => [b0, b1, b2]
  | .highFirst => [b2, b1, b0]

def get16 (o : FieldOrder) (x y : Byte) : BitVec 16 :=
  match o with
  | .lowFirst => y ++ x
  | .highFirst => x ++ y

def get24 (o : FieldOrder) (x y z : Byte) : BitVec 24 :=
  match o with
  | .lowFirst => z ++ y ++ x
  | .highFirst => x ++ y ++ z

/-- A 2-byte count, such as a budget or a timer. -/
def putNat16 (o : FieldOrder) (n : Nat) : List Byte := put16 o (BitVec.ofNat 16 n)

/-! ### Frames of reference (R11 to R13) -/

/-- A point of a grid `w` wide and `h` high. -/
structure GridPoint where
  x : Nat
  y : Nat
  w : Nat
  h : Nat
  deriving DecidableEq, Repr

/-- A quarter turn: (x, y) goes to (H − 1 − y, x), and width and height exchange (R11). -/
def GridPoint.turn (g : GridPoint) : GridPoint := ⟨g.h - 1 - g.y, g.x, g.h, g.w⟩

/-- An inverse turn: (x, y) goes to (y, W − 1 − x) (R12). -/
def GridPoint.unturn (g : GridPoint) : GridPoint := ⟨g.y, g.w - 1 - g.x, g.h, g.w⟩

/-- `n` turns, one after the other. -/
def GridPoint.turns : Nat → GridPoint → GridPoint
  | 0, g => g
  | n + 1, g => GridPoint.turns n g.turn

/-- `n` inverse turns, one after the other. -/
def GridPoint.unturns : Nat → GridPoint → GridPoint
  | 0, g => g
  | n + 1, g => GridPoint.unturns n g.unturn

/-- The local number of an interchange column in a port's frame (R11). -/
def PortConfig.toLocal (f : PortConfig) (c : ColIx) : Nat :=
  let x := c.val % 4
  let g : GridPoint := ⟨if f.mirror then 3 - x else x, c.val / 4, 4, 2⟩
  let g := g.turns f.rotation.val
  g.y * g.w + g.x

/-- The interchange column of a local number, none when the number is above 7 (R12). -/
def PortConfig.fromLocal (f : PortConfig) (l : Nat) : Option ColIx :=
  if l > 7 then none
  else
    let w := if f.rotation.val % 2 = 0 then 4 else 2
    let g : GridPoint := ⟨l % w, l / w, w, 8 / w⟩
    let g := g.unturns f.rotation.val
    let x := if f.mirror then 3 - g.x else g.x
    let n := g.y * 4 + x
    if h : n < 8 then some ⟨n, h⟩ else none

/-- The local heading of an interchange heading (R13). -/
def PortConfig.headingToLocal (f : PortConfig) (h : Heading) : Heading :=
  (if f.mirror then -h else h) + f.rotation

/-- The interchange heading of a local heading (R13). -/
def PortConfig.headingFromLocal (f : PortConfig) (h : Heading) : Heading :=
  if f.mirror then -(h - f.rotation) else h - f.rotation

/-- The frame and field order of a port; PS uses the interchange frame and LOW-FIRST (1.3). -/
def State.view (s : State) : Port → PortConfig
  | .region r => s.ports[r]
  | .ps => .initial

/-- A column byte as sent to a port; an absent column is FFh and is not translated (R11). -/
def PortConfig.columnByte (f : PortConfig) : Option ColIx → Byte
  | some c => byte (f.toLocal c)
  | none => absentByte

def PortConfig.headingByte (f : PortConfig) (h : Heading) : Byte := byte (f.headingToLocal h).val

/-! ### Reading fields (R144) -/

/-- A byte below `n`, as a code or an identity. -/
def Byte.below (n : Nat) (b : Byte) : Option (Fin n) :=
  if h : b.toNat < n then some ⟨b.toNat, h⟩ else none

def flagOf (b : Byte) : Option Bool :=
  if b = 0 then some false else if b = 1 then some true else none

def binClassOf (b : Byte) : Option BinClass :=
  if b = 0 then some .ambient else if b = 1 then some .chilled else none

def gaugeModeOf (b : Byte) : Option GaugeMode :=
  if b = 0 then some .off else if b = 1 then some .watch else if b = 2 then some .check else none

def modeOf (b : Byte) : Option Mode :=
  if b = 0 then some .run else if b = 1 then some .hold else if b = 2 then some .drain
  else if b = 3 then some .freeze else none

def fieldOrderOf (b : Byte) : Option FieldOrder :=
  if b = 0 then some .lowFirst else if b = 1 then some .highFirst else none

/-- A reach set byte; one with any of its four upper bits set names no set (R144). -/
def reachOf (b : Byte) : Option RegionSet :=
  if b.toNat < 16 then some (b.extractLsb' 0 4) else none

/-- A quantity clamped to its range (R144, Table 9-4). -/
def clamp (lo hi n : Nat) : Nat := if n < lo then lo else if hi < n then hi else n

/-- A due_in field: above 4095 it is taken as 4094 (R40, R57). -/
def clampDueIn (n : Nat) : Nat := if 4095 < n then 4094 else n

/-- The stored due of a clamped due_in field (R57). -/
def dueOf (now : Seconds) (dueIn : Nat) : Due :=
  if dueIn = 4095 then .unknown
  else if dueIn = 0 then .passed
  else .pending (now + BitVec.ofNat 16 dueIn)

/-- The budget fields of a clamped budget: none makes the record AMBIENT (R42, R103). -/
def budgetOf (n : Nat) : Option Budget :=
  if n = 0 then none
  else some { remaining := n, since := none, warned := false, expired := false, expiryAt := none, warnAt := none }

def Handover.cls (r : Handover) : BinClass := if r.budget.isSome then .chilled else .ambient

/-! ### Sets of region ports -/

def RegionSet.has (s : RegionSet) (r : Region) : Bool := s.getLsbD r.val

def RegionSet.single (r : Region) : RegionSet := BitVec.twoPow 4 r.val

def RegionSet.without (s : RegionSet) (r : Region) : RegionSet := s &&& ~~~(RegionSet.single r)

/-- The members of a set, ascending. -/
def RegionSet.members (s : RegionSet) : List Region := Region.all.filter (RegionSet.has s)

/-! ### The check of a frame (R139) -/

/-- One bit of the CRC register's shift, generator x^16 + x^12 + x^5 + 1. -/
def crcShift (c : BitVec 16) : BitVec 16 := if c.msb then (c <<< 1) ^^^ 0x1021 else c <<< 1

/-- One byte, most significant bit first. -/
def crcByte (c : BitVec 16) (b : Byte) : BitVec 16 :=
  crcShift (crcShift (crcShift (crcShift (crcShift (crcShift (crcShift (crcShift (c ^^^ (b ++ (0 : Byte))))))))))

/-- The check over the kind, length and body bytes, from FFFFh and with no final inversion. -/
def crc (bytes : List Byte) : BitVec 16 := bytes.foldl crcByte 0xFFFF

/-- A frame of the IX48: envelope, body and check, the check high byte first (Table 9-5, R139). -/
def frameBytes (kind : Byte) (body : List Byte) : List Byte :=
  let front := kind :: byte body.length :: body
  front ++ put16 .highFirst (crc front)

/-- The kinds of the frames the IX48 sends (Table 9-3). -/
def answerKind : Byte := 0x80
@[inherit_doc answerKind] def noticeKindByte : Byte := 0x81

end Sys2Proof.Machine
end

