-- ==== Sys2Proof/Machine/Flags.lean ====
section
/-! DEFINITION. The values the part derives from its state: free room, occupancy, gates, setpoints, trend, exposure, the pins ALERT, TURN and PACE. -/
namespace Sys2Proof.Machine

/-! ### Reading the state -/

def State.col (s : State) (c : ColIx) : Column := s.columns[c]

/-- The record of a handover number; `none` is FREE. -/
def State.hand (s : State) (h : HNum) : Option Handover := s.records[h]

def State.link (s : State) (p : Port) : LinkUnit := s.links[p.ix]

def State.pendingSet (s : State) (p : Port) : List Notice := s.pendingSets[p.ix]

def State.group (s : State) (g : Fin 8) : ErrorGroup := s.groups[g]

def State.level (s : State) (k : NoticeKind) : Nat := s.levels[k.ix]

/-! ### Columns: free room and occupancy (R18, R19, R63) -/

/-- Stack length plus inbound count. -/
def Column.height (c : Column) : Nat := c.stack.length + c.inbound.length

def Column.freeRoom (c : Column) : Nat := c.cfg.depth - c.stack.length - c.inbound.length

/-- OPEN, GRANTED or SETTLING: the states that admit bookings and dig targets (Table 2-3). -/
def Column.inService (c : Column) : Bool :=
  match c.state with
  | .opened | .granted | .settling => true
  | .unknown | .fenced | .disabled => false

/-- Whether the column counts in occupancy: neither UNKNOWN nor DISABLED (R19). -/
def Column.counted (c : Column) : Bool :=
  match c.state with
  | .unknown | .disabled => false
  | .opened | .granted | .settling | .fenced => true

/-- Occupancy (R19). -/
def State.occupancy (s : State) : Nat :=
  (ColIx.all.map fun c => if (s.col c).counted then (s.col c).height else 0).sum

/-- The in-service free room (R63). -/
def State.inServiceRoom (s : State) : Nat :=
  (ColIx.all.map fun c => if (s.col c).inService then (s.col c).freeRoom else 0).sum

/-- The reported reading: 0 in gauge mode OFF (R109). -/
def Column.reported (c : Column) : Reading :=
  match c.cfg.gaugeMode with
  | .off => 0
  | .watch | .check => c.reading

/-- Whether a claim is a region claim (R68). -/
def Claim.isRegion (cl : Claim) : Bool :=
  match cl.kind with
  | .deposit | .lift => true
  | .holding => false

def Column.regionClaims (c : Column) : Nat := (c.waitList.filter Claim.isRegion).length

/-! ### Gates (R125) -/

def LoadMonitor.modeDepositGate (l : LoadMonitor) : Nat :=
  match l.mode with
  | .run => 1
  | .hold => l.holdLevel
  | .drain | .freeze => 8

def LoadMonitor.liftGate (l : LoadMonitor) : Nat :=
  match l.mode with
  | .run | .hold | .drain => 1
  | .freeze => 8

def LoadMonitor.setpointGate (l : LoadMonitor) : Nat :=
  if l.full.on then 8 else if l.high.on then l.highLevel else 1

/-- The effective deposit gate. -/
def LoadMonitor.depositGate (l : LoadMonitor) : Nat := max l.modeDepositGate l.setpointGate

/-! ### Setpoints and trend (R130, R133, R134) -/

/-- An AUTOMATIC setpoint judged on an occupancy value; a forced one keeps its state (R130). -/
def Setpoint.judge (occ : Nat) (p : Setpoint) : Setpoint :=
  match p.forcing with
  | .automatic =>
    if p.on then { p with on := !(decide (occ ≤ p.offLevel)) }
    else { p with on := decide (p.onLevel ≤ occ) }
  | .forcedOn | .forcedOff => p

/-- Both setpoints judged on an occupancy value. -/
def LoadMonitor.judge (occ : Nat) (l : LoadMonitor) : LoadMonitor :=
  { l with high := l.high.judge occ, full := l.full.judge occ }

/-- The trend of the present samples and step (R134). -/
def LoadMonitor.trendNow (l : LoadMonitor) : Trend :=
  let newest := l.samples[6]
  let oldest := l.samples[0]
  if oldest + l.trendStep ≤ newest then .rising
  else if newest + l.trendStep ≤ oldest then .falling
  else .steady

def LoadMonitor.judgeTrend (l : LoadMonitor) : LoadMonitor := { l with trend := l.trendNow }

/-- A sample joins the ring as the newest and the oldest leaves it (R133). -/
def LoadMonitor.sample (occ : Nat) (l : LoadMonitor) : LoadMonitor :=
  let v := l.samples
  { l with samples := #v[v[1], v[2], v[3], v[4], v[5], v[6], occ] }

/-! ### Exposure (R98, R105) -/

/-- Whether a column's configured class is AMBIENT. -/
def State.inAmbient (s : State) : Option ColIx → Bool
  | some c => (s.col c).cfg.cls == .ambient
  | none => false

/-- The charging condition of Table 6-1, of a record whose expired field is clear. -/
def State.chargeCond (s : State) (r : Handover) : Bool :=
  match r.state with
  | .booked | .closing => false
  | .landing => r.holder.isSome
  | .stored | .lifting | .shifting => s.inAmbient r.column
  | .moving => true
  | .doubt =>
    match r.doubt with
    | some d =>
      match d.op with
      | .deposit => false
      | .holding => true
      | .lift | .shift => s.inAmbient r.column
    | none => false

/-- The elapsed charging time, (now − since) mod 65536 (R100). -/
def elapsed (now since : Seconds) : Nat := (now - since).toNat

/-- The live remaining budget (R105). -/
def Budget.live (b : Budget) (now : Seconds) : Nat :=
  match b.since with
  | some t => b.remaining - elapsed now t
  | none => b.remaining

/-- A remaining-budget item: 65535 for an AMBIENT record (R83, Table 10-3). -/
def Handover.liveBudget (r : Handover) (now : Seconds) : Nat :=
  match r.budget with
  | some b => b.live now
  | none => 65535

/-- Whether a record charges and its warning falls due at this value of the clock (R101). -/
def Handover.warningDue (r : Handover) (now : Seconds) : Bool :=
  match r.budget with
  | some b => b.since.isSome && b.warnAt == some now
  | none => false

/-- Whether a record charges and its expiry falls due at this value of the clock (R102). -/
def Handover.expiryDue (r : Handover) (now : Seconds) : Bool :=
  match r.budget with
  | some b => b.since.isSome && b.expiryAt == some now
  | none => false

/-! ### Events that are due (entries 4 and 5) -/

/-- A warning or an expiry is due at the present second (R101, R102). -/
def State.exposureDue (s : State) : Bool :=
  HNum.all.any fun h =>
    match s.hand h with
    | some r => r.warningDue s.clock || r.expiryDue s.clock
    | none => false

/-- A warning, an expiry or the trend sample of the present second is due. Each is taken at the advance that reached
it (R101, R102, R133), so the events that are not of that advance come after it; among themselves, and with the booking
expiries of the same advance, they come in any order (R56, R104; entry 4). -/
def State.advanceEventDue (s : State) : Bool := s.exposureDue || s.trendDue

/-- A grant timer, settle timer or filter count of the column has reached 0. -/
def Column.timerDue (c : Column) : Bool :=
  c.settleTimer == some 0 || c.filterCount == some 0 ||
    match c.grant with
    | some g => g.timer == some 0
    | none => false

/-- A booking timer has reached 0. -/
def State.bookingDue (s : State) : Bool :=
  HNum.all.any fun h =>
    match s.hand h with
    | some r => r.bookingTimer == some 0
    | none => false

/-- Some event that a tick or an advance made due has yet to be taken. -/
def State.timeEventDue (s : State) : Bool :=
  s.advanceDue || s.advanceEventDue || s.bookingDue || ColIx.all.any fun c => (s.col c).timerDue

/-! ### Pins -/

/-- ALERT is asserted while some group holds a capture (R161). -/
def State.alert (s : State) : Bool := s.groups.toList.any fun g => g.captured.isSome

/-- TURN is high from its rise until it falls, that is while a frame is in sending (R142). -/
def LinkUnit.turn (u : LinkUnit) : Bool := u.sending.isSome

/-- PACE for the next edge (R137): high inside a controller frame; between frames high while the intake queue has room
and the edge before did not set it low for a turn (R142). It is low while the IX48 has the bus, on the turning edges,
and while RESET is asserted (R136). -/
def State.pace (s : State) (p : Port) : Bool :=
  let u := s.link p
  !s.resetAsserted && u.bus == .controller &&
    (u.rx != .betweenFrames || !u.prepared && decide (u.intake.length < Config.intakeRoom))

/-- The next edge is one for which PACE was set low for a turn, so TURN may rise at it (R142), for whatever is ready to
be sent at that edge (R143; entry 29). -/
def State.mayTurn (s : State) (p : Port) : Bool :=
  let u := s.link p
  !s.resetAsserted && u.rx == .betweenFrames && u.bus == .controller && u.prepared

/-- The link unit has an answer waiting or a notice pending (R142). -/
def State.hasWaiting (s : State) (p : Port) : Bool := !(s.link p).answers.isEmpty || !(s.pendingSet p).isEmpty

end Sys2Proof.Machine
end

