-- ==== Sys2Proof/Machine/Ops.lean ====
section
/-! DEFINITION. The primitive updates of the state, the posting of notices, the capture of errors, and a step in progress. -/
namespace Sys2Proof.Machine

/-! ### Updates of one field -/

def State.modCol (s : State) (c : ColIx) (f : Column → Column) : State :=
  { s with columns := s.columns.set c.val (f (s.col c)) c.isLt }

def State.setHand (s : State) (h : HNum) (r : Option Handover) : State :=
  { s with records := s.records.set h.val r h.isLt }

/-- Changes a record that is not FREE. -/
def State.modHand (s : State) (h : HNum) (f : Handover → Handover) : State := s.setHand h ((s.hand h).map f)

def State.modLink (s : State) (p : Port) (f : LinkUnit → LinkUnit) : State :=
  { s with links := s.links.set p.ix.val (f (s.link p)) p.ix.isLt }

def State.modPending (s : State) (p : Port) (f : List Notice → List Notice) : State :=
  { s with pendingSets := s.pendingSets.set p.ix.val (f (s.pendingSet p)) p.ix.isLt }

def State.modGroup (s : State) (g : Fin 8) (f : ErrorGroup → ErrorGroup) : State :=
  { s with groups := s.groups.set g.val (f (s.group g)) g.isLt }

def State.setStamp (s : State) (n : Nat) : State := { s with stampCounter := n }

def State.setLoad (s : State) (l : LoadMonitor) : State := { s with load := l }

/-! ### Notices: posting (R149, R150) -/

def Notice.kind : Notice → NoticeKind
  | .reset => .reset
  | .grant _ => .grant
  | .ready _ => .ready
  | .moved _ => .moved
  | .dismissed .. => .dismissed
  | .withdrawn .. => .withdrawn
  | .warn _ => .warn
  | .expired _ => .expired
  | .delivered _ => .delivered
  | .handedBack .. => .handedBack
  | .fence _ => .fence
  | .load => .load
  | .gauge _ => .gauge
  | .error _ => .error

/-- The subject of an item: a column, a handover number or an error group, by kind, or none. -/
def Notice.subject : Notice → Option Nat
  | .reset | .load => none
  | .grant c | .fence c | .gauge c => some c.val
  | .ready h | .moved h | .dismissed h _ _ | .withdrawn h _ _ | .warn h | .expired h | .delivered h
  | .handedBack h _ _ => some h.val
  | .error g => some g.val

/-- Two items of the same kind and subject. -/
def Notice.same (a b : Notice) : Bool := a.kind == b.kind && a.subject == b.subject

/-- An item joins a pending set: it takes the place and replaces the snapshot of an item of the same kind and
subject, or stands as the newest (R150). -/
def joinSet (n : Notice) (items : List Notice) : List Notice :=
  if items.any (Notice.same n) then items.map fun m => if n.same m then n else m else items ++ [n]

/-- Posts a notice at one port; a kind of level 0 is not posted (R150). -/
def State.post (s : State) (p : Port) (n : Notice) : State :=
  if s.level n.kind = 0 then s else s.modPending p (joinSet n)

/-- Posts a notice at each port named. -/
def State.postAll (s : State) (ports : List Port) (n : Notice) : State :=
  ports.foldl (fun s p => s.post p n) s

/-- The members of a set of region ports, as ports. -/
def regionPorts (rs : RegionSet) : List Port := (RegionSet.members rs).map .region

/-- The enabled region ports, to which LOAD is posted (R135). -/
def State.enabledRegions (s : State) : List Port :=
  (Region.all.filter fun r => (s.ports[r]).enabled).map .region

/-! ### Error capture (R159) -/

/-- The group of a port's link errors (R158). -/
def linkGroup : Port → Fin 8
  | .region r => r.castLE (by decide)
  | .ps => 4

def ErrorKind.group (k : ErrorKind) (p : Port) : Fin 8 :=
  match k with
  | .badCheck | .truncated | .overlong | .unknownKind | .badLength => linkGroup p
  | .notGranted | .staleReport => 5
  | .grantTimeout | .gaugeMismatch | .gaugeUnexpected | .gaugeFault | .handedBack => 6
  | .expired => 7

/-- An error is taken: it fills its clear group and posts ERROR to PS, or sets MULTI (R159). -/
def State.capture (s : State) (g : Fin 8) (e : Capture) : State :=
  match (s.group g).captured with
  | none => (s.modGroup g fun _ => { captured := some e, multi := false }).post .ps (.error g)
  | some _ => s.modGroup g fun x => { x with multi := true }

/-- The capture of a kind at the present second, its other fields absent. -/
def State.errorNow (s : State) (k : ErrorKind) : Capture where
  kind := k
  port := none
  robot := none
  handover := none
  column := none
  time := s.clock
  reading := none
  stackLen := none

/-- A LINK group's capture: port and time (Table 11-1). -/
def State.captureLink (s : State) (p : Port) (k : ErrorKind) : State :=
  s.capture (linkGroup p) { s.errorNow k with port := some p }

/-- A PROTOCOL capture: port, robot, handover and time (Table 11-1). -/
def State.captureReport (s : State) (k : ErrorKind) (rb : Robot) (h : HNum) : State :=
  s.capture 5 { s.errorNow k with port := some (.region rb.port), robot := some rb.number, handover := some h }

/-- A COLUMN capture: the column with its reported reading and stack length, and for some kinds the robot and the
handover (Table 11-1). -/
def State.captureColumn (s : State) (k : ErrorKind) (c : ColIx) (who : Option (Robot × HNum)) : State :=
  s.capture 6 { s.errorNow k with
    port := who.map fun w => .region w.1.port
    robot := who.map fun w => w.1.number
    handover := who.map fun w => w.2
    column := some c
    reading := some (s.col c).reported
    stackLen := some (s.col c).stack.length }

/-! ### A step in progress -/

/-- The state in the middle of a step, with the columns in which the step has started a selection (R76). The
selections are made at the end of the step (R28; entry 6). -/
structure Work where
  st : State
  sel : List ColIx
  deriving DecidableEq, Repr

def State.begin (s : State) : Work := { st := s, sel := [] }

/-- An update of the state within a step. -/
def Work.up (w : Work) (f : State → State) : Work := { w with st := f w.st }

/-- Starts selection in one column. -/
def Work.start (w : Work) (c : ColIx) : Work := { w with sel := c :: w.sel }

/-- Starts selection in every OPEN column. -/
def Work.startAll (w : Work) : Work := { w with sel := ColIx.all ++ w.sel }

/-! ### Load changes (R127, R132, R134, R135) -/

/-- The Load Monitor takes a new value: LOAD is posted to every enabled region port when a setpoint state or the
trend changed, and a fall of a gate starts selection in every OPEN column. -/
def Work.setLoad (w : Work) (l : LoadMonitor) : Work :=
  let old := w.st.load
  let w := w.up (·.setLoad l)
  let w :=
    if old.high.on != l.high.on || old.full.on != l.full.on || old.trend != l.trend then
      w.up fun s => s.postAll s.enabledRegions .load
    else w
  if l.depositGate < old.depositGate || l.liftGate < old.liftGate then w.startAll else w

/-- The occupancy is handed to the Load Monitor, which judges its AUTOMATIC setpoints (R19, R130). -/
def Work.handOccupancy (w : Work) : Work := w.setLoad (w.st.load.judge w.st.occupancy)

/-! ### Wait lists (R69, R73, R76) -/

/-- A claim joins a list at its place by stamp. -/
def insertClaim (cl : Claim) : List Claim → List Claim
  | [] => [cl]
  | x :: xs => if cl.stamp < x.stamp then cl :: x :: xs else x :: insertClaim cl xs

/-- A claim joins a column's wait list, which starts selection there. -/
def Work.join (w : Work) (c : ColIx) (cl : Claim) : Work :=
  (w.up (·.modCol c fun k => { k with waitList := insertClaim cl k.waitList })).start c

/-- The claims for which `p` holds leave a column's wait list; a list falling from 6 claims to 5 starts selection
in every OPEN column. -/
def Work.leave (w : Work) (c : ColIx) (p : Claim → Bool) : Work :=
  let old := (w.st.col c).waitList
  let new := old.filter fun cl => !p cl
  let w := w.up (·.modCol c fun k => { k with waitList := new })
  if Config.waitRoom ≤ old.length && new.length < Config.waitRoom then w.startAll else w

/-- Every stamp in the part: of claims waiting, granted, and of followers. -/
def State.stamps (s : State) : List Nat :=
  (ColIx.all.flatMap fun c =>
    let k := s.col c
    k.waitList.map (·.stamp) ++ (match k.grant with | some g => [g.claim.stamp] | none => [])) ++
  HNum.all.flatMap fun h =>
    match s.hand h with
    | some r => (match r.follower with | some f => [f.stamp] | none => [])
    | none => []

/-- The new stamp of an old one when all are renumbered: how many are older (R69). -/
def rankOf (stamps : List Nat) (n : Nat) : Nat := (stamps.filter (· < n)).length

def Claim.restamp (f : Nat → Nat) (cl : Claim) : Claim := { cl with stamp := f cl.stamp }

def Column.restamp (f : Nat → Nat) (k : Column) : Column :=
  { k with
    waitList := k.waitList.map (Claim.restamp f)
    grant := k.grant.map fun g => { g with claim := g.claim.restamp f } }

def Handover.restamp (f : Nat → Nat) (r : Handover) : Handover :=
  { r with follower := r.follower.map fun x => { x with stamp := f x.stamp } }

/-- Every claim and follower is given a new stamp from 0 upward in its order of age, and the counter goes on from
their number (R69). -/
def State.renumber (s : State) : State :=
  let stamps := s.stamps
  let f := rankOf stamps
  let s := ColIx.all.foldl (fun s c => s.modCol c (Column.restamp f)) s
  let s := HNum.all.foldl (fun s h => s.modHand h (Handover.restamp f)) s
  s.setStamp stamps.length

/-- The stamp counter advances after a new claim has taken its value (R69). -/
def State.advanceStamp (s : State) : State :=
  if Config.maxStamp ≤ s.stampCounter then s.renumber else s.setStamp (s.stampCounter + 1)

/-- A new claim takes the next stamp and joins a wait list as WAITING (R69, R71). -/
def Work.joinNew (w : Work) (c : ColIx) (rb : Robot) (kind : ClaimKind) (h : HNum) : Work :=
  (w.join c { robot := rb, kind := kind, handover := h, stamp := w.st.stampCounter, blocked := false }).up
    State.advanceStamp

/-- The column whose wait list holds a claim for the record. -/
def State.waitColumn (s : State) (h : HNum) : Option ColIx :=
  ColIx.all.find? fun c => (s.col c).waitList.any fun cl => cl.handover == h

/-! ### Stacks and inbound sets (R15, R16, R18) -/

/-- A number joins a set held in ascending order. -/
def insertHand (h : HNum) : List HNum → List HNum
  | [] => [h]
  | x :: xs => if h < x then h :: x :: xs else if h = x then x :: xs else x :: insertHand h xs

/-- A record joins a column's inbound set. -/
def State.joinInbound (s : State) (c : ColIx) (h : HNum) : State :=
  s.modCol c fun k => { k with inbound := insertHand h k.inbound }

/-- A record leaves a column's inbound set other than at a landing: the column's free room rises, which starts
selection in every OPEN column (R16, R18). -/
def Work.leaveInbound (w : Work) (c : ColIx) (h : HNum) : Work :=
  (w.up (·.modCol c fun k => { k with inbound := k.inbound.filter (· != h) })).startAll

/-- A landing: the record leaves the inbound set and stands on top of the same column's stack (R15). -/
def State.land (s : State) (c : ColIx) (h : HNum) : State :=
  s.modCol c fun k => { k with inbound := k.inbound.filter (· != h), stack := k.stack ++ [h] }

/-- The top entry leaves a column's stack: its free room rises (R15, R18). -/
def Work.liftTop (w : Work) (c : ColIx) : Work :=
  (w.up (·.modCol c fun k => { k with stack := k.stack.dropLast })).startAll

/-- A record's place held in its target column is dropped (R86, R89, R118). -/
def Work.dropTarget (w : Work) (h : HNum) : Work :=
  match w.st.hand h with
  | some r =>
    match r.target with
    | some t => (w.leaveInbound t h).up (·.modHand h fun r => { r with target := none })
    | none => w
  | none => w

end Sys2Proof.Machine
end

