-- ==== Sys2Proof/Machine/Exposure.lean ====
section
/-! DEFINITION. The Exposure Unit: charging, warning and expiry (Chapter 6). -/
namespace Sys2Proof.Machine

/-- A record's urgency is raised to `u` when it is lower; a raise starts selection in the column whose wait list
holds a claim for the record (R37, R101, R102). -/
def Work.raiseUrgency (w : Work) (h : HNum) (u : Nat) : Work :=
  match w.st.hand h with
  | none => w
  | some r =>
    if r.urgency < u then
      let w := w.up (·.setHand h (some { r with urgency := u }))
      match w.st.waitColumn h with
      | some c => w.start c
      | none => w
    else w

/-- The warning: warned is set, the urgency is raised to 6, WARN is posted to the destination (R101). -/
def Work.takeWarning (w : Work) (h : HNum) : Work :=
  match w.st.hand h with
  | none => w
  | some r =>
    let w := w.up (·.modHand h fun r => { r with
      budget := r.budget.map fun b => { b with warned := true, warnAt := none } })
    (w.raiseUrgency h 6).up (·.post (.region r.dest) (.warn h))

/-- The budget of a record that starts charging now (R99). -/
def Budget.started (b : Budget) (now : Seconds) (threshold : Nat) : Budget :=
  { b with
    since := some now
    expiryAt := some (now + BitVec.ofNat 16 b.remaining)
    warnAt :=
      if !b.warned && decide (threshold < b.remaining) then some (now + BitVec.ofNat 16 (b.remaining - threshold))
      else none }

/-- The budget of a record that stops charging now (R100). -/
def Budget.stopped (b : Budget) (now : Seconds) : Budget :=
  { b with remaining := b.live now, since := none, expiryAt := none, warnAt := none }

/-- After an event that changed a record's state, column field or holder, its charging starts, stops, goes on or
stays off (R99). A record whose expired field is set does not charge (R98). -/
def Work.judgeCharging (w : Work) (h : HNum) : Work :=
  match w.st.hand h with
  | none => w
  | some r =>
    match r.budget with
    | none => w
    | some b =>
      let charges := !b.expired && w.st.chargeCond r
      match b.since, charges with
      | none, true =>
        let started := b.started w.st.clock w.st.limits.warn
        let w := w.up (·.setHand h (some { r with budget := some started }))
        if !b.warned && decide (b.remaining ≤ w.st.limits.warn) then w.takeWarning h else w
      | some _, false => w.up (·.setHand h (some { r with budget := some (b.stopped w.st.clock) }))
      | _, _ => w

/-- An update of a record's state, column, holder or doubt, and the comparison of charging that follows it. -/
def Work.change (w : Work) (h : HNum) (f : Handover → Handover) : Work :=
  (w.up (·.modHand h f)).judgeCharging h

end Sys2Proof.Machine
end

