-- ==== Sys2Proof/Machine/Placement.lean ====
section
/-! DEFINITION. The Placement Unit: the order of dues, the score and the candidate sets (Chapter 4). -/
namespace Sys2Proof.Machine

/-- "a is earlier than b" (R59). -/
def Due.earlier : Due → Due → Bool
  | .passed, .passed => false
  | .passed, .pending _ => true
  | .passed, .unknown => true
  | .pending _, .passed => false
  | .pending a, .pending b => decide (1 ≤ (b - a).toNat) && decide ((b - a).toNat ≤ 32767)
  | .pending _, .unknown => true
  | .unknown, _ => false

/-- How many records of the list have a due earlier than `d`. -/
def State.blocking (s : State) (hs : List HNum) (d : Due) : Nat :=
  (hs.filter fun h =>
    match s.hand h with
    | some r => r.due.earlier d
    | none => false).length

/-- The placement score of a column for a bin with due `d` and class `k` (R60). -/
def State.score (s : State) (d : Due) (k : BinClass) (c : ColIx) : Nat :=
  let col := s.col c
  16 * s.blocking (col.stack ++ col.inbound) d + 4 * col.height +
    64 * (if col.cfg.cls = k then 0 else 1) + 2 * col.waitList.length

/-- The candidate with the lowest score; the earlier of the list among equals, the list being ascending (R61). -/
def State.best (s : State) (d : Due) (k : BinClass) (cands : List ColIx) : Option ColIx :=
  cands.foldl (fun best c =>
    match best with
    | none => some c
    | some b => if s.score d k c < s.score d k b then some c else some b) none

/-- The port is in the reach set; SUPERVISOR is no region port and is in none. -/
def Column.reaches (c : Column) : Port → Bool
  | .region r => RegionSet.has c.cfg.reach r
  | .ps => false

/-- The booking candidate set for an origin and a destination (R62), and the re-placement set of a BOOKED record
(R66). -/
def State.bookingSet (s : State) (origin : Port) (dest : Region) : List ColIx :=
  ColIx.all.filter fun c =>
    let col := s.col c
    col.inService && col.reaches origin && col.reaches (.region dest) && decide (1 ≤ col.freeRoom)

/-- The dig-target set for a record with destination `dest`, lifted from `source` by a robot of `port` (R65). -/
def State.digSet (s : State) (port dest : Region) (source : ColIx) : List ColIx :=
  ColIx.all.filter fun c =>
    let col := s.col c
    col.inService && c != source && col.reaches (.region port) && col.reaches (.region dest) &&
      decide (1 ≤ col.freeRoom) && decide (col.waitList.length < Config.waitRoom)

/-- The re-placement set of a MOVING record (R67). -/
def State.movingSet (s : State) (port dest : Region) : List ColIx :=
  ColIx.all.filter fun c =>
    let col := s.col c
    col.inService && col.reaches (.region port) && col.reaches (.region dest) &&
      decide (1 ≤ col.freeRoom) && decide (col.waitList.length < Config.waitRoom)

/-- The consultation for a dig target of a record (R61, R65). -/
def State.digTarget (s : State) (k : Handover) (port : Region) (source : ColIx) : Option ColIx :=
  s.best k.due k.cls (s.digSet port k.dest source)

/-- A dig is possible for a LIFT claim of `port` at column `c`: the top record is STORED and has a dig target
(R65, R74). -/
def State.digPossible (s : State) (c : ColIx) (port : Region) : Bool :=
  match (s.col c).stack.getLast? with
  | none => false
  | some top =>
    match s.hand top with
    | some k => k.state == .stored && !(s.digSet port k.dest c).isEmpty
    | none => false

end Sys2Proof.Machine
end

