-- ==== Sys2Proof/Machine/Fencing.lean ====
section
/-! DEFINITION. Records that end, and the entry of a column into FENCED with its effects on records and claims (R28 to R32, R49, R50, R85). -/
namespace Sys2Proof.Machine

/-! ### CLOSING (R49, R50) -/

/-- The fields that are absent in CLOSING become absent (R49). -/
def Handover.closed (r : Handover) : Handover :=
  { r with column := none, target := none, bookingTimer := none, holder := none, doubt := none, follower := none }

/-- A record enters CLOSING and `n` is its ending notice; a kind of level 0 is owed to no port, and with no port to
wait for the record goes FREE in the same step (R49). -/
def Work.close (w : Work) (h : HNum) (reason : Reason) (ports : RegionSet) (n : Notice) : Work :=
  let waiting := if w.st.level n.kind = 0 then 0 else ports
  let w := w.change h fun r => { r with state := .closing, closing := some ⟨reason, waiting⟩ }
  if waiting = 0 then w.up (·.setHand h none)
  else w.up fun s => (s.modHand h Handover.closed).postAll (regionPorts waiting) n

/-- A port leaves a CLOSING record's waiting set, and the record goes FREE when the set becomes empty (R50). -/
def State.releaseWaiting (s : State) (p : Region) (h : HNum) : State :=
  match s.hand h with
  | none => s
  | some r =>
    match r.closing with
    | none => s
    | some cl =>
      if RegionSet.has cl.waiting p then
        let left := RegionSet.without cl.waiting p
        if left = 0 then s.setHand h none
        else s.setHand h (some { r with closing := some { cl with waiting := left } })
      else s

/-- The ports of a region origin; SUPERVISOR is none (Table 3-4). -/
def originSet : Origin → RegionSet
  | .region r => RegionSet.single r
  | .ps => 0

/-- The cause codes of a WITHDRAWN snapshot (Table 10-4). -/
def withdrawnLimit : Byte := 0
@[inherit_doc withdrawnLimit] def withdrawnFenced : Byte := 1
@[inherit_doc withdrawnLimit] def withdrawnRemoved : Byte := 2

/-- The cause codes of a DISMISSED snapshot (Table 10-4). -/
def dismissedFenced : Byte := 0
@[inherit_doc dismissedFenced] def dismissedNoRoom : Byte := 1
@[inherit_doc dismissedFenced] def dismissedRestated : Byte := 2

/-- A record is withdrawn: CLOSING, reason WITHDRAWN, owed to its origin (R29, R45). -/
def Work.withdraw (w : Work) (h : HNum) (cause : Byte) : Work :=
  match w.st.hand h with
  | none => w
  | some r => w.close h .withdrawn (originSet r.origin) (.withdrawn h r.bin cause)

/-- A moving bin is handed back: CLOSING, reason HANDED_BACK, owed to the holding port and the destination, with a
COLUMN capture naming column `c` (R30, R85, R86). Any follower is removed without a notice (R92). -/
def Work.handBack (w : Work) (h : HNum) (c : ColIx) (rb : Robot) : Work :=
  match w.st.hand h with
  | none => w
  | some r =>
    (w.close h .handedBack (RegionSet.single rb.port ||| RegionSet.single r.dest) (.handedBack h r.bin rb)).up
      (·.captureColumn .handedBack c (some (rb, h)))

/-- A robot is dismissed: DISMISSED, subject the record, with the robot and the cause (R93). -/
def State.dismiss (s : State) (h : HNum) (rb : Robot) (cause : Byte) : State :=
  s.post (.region rb.port) (.dismissed h rb.number cause)

/-! ### Re-placement (R29 to R31) -/

/-- A BOOKED record of fenced column `c` moves to the best booking candidate, or is withdrawn (R29). -/
def Work.replaceBooked (w : Work) (c : ColIx) (h : HNum) : Work :=
  match w.st.hand h with
  | none => w
  | some r =>
    match w.st.best r.due r.cls (w.st.bookingSet r.origin r.dest) with
    | some d =>
      (((w.leaveInbound c h).up (·.joinInbound d h)).change h fun r => { r with column := some d }).up
        (·.post r.origin (.moved h))
    | none => (w.leaveInbound c h).withdraw h withdrawnFenced

/-- A MOVING record of fenced column `c` moves with its HOLDING claim to the best column of the MOVING set, or is
handed back (R30). -/
def Work.replaceMoving (w : Work) (c : ColIx) (h : HNum) : Work :=
  match w.st.hand h with
  | none => w
  | some r =>
    match r.holder with
    | none => w
    | some rb =>
      let holding := (w.st.col c).waitList.find? fun cl => cl.handover == h
      match w.st.best r.due r.cls (w.st.movingSet rb.port r.dest) with
      | some d =>
        let w := ((w.leaveInbound c h).leave c fun cl => cl.handover == h).up (·.joinInbound d h)
        let w := w.change h fun r => { r with column := some d }
        match holding with
        | some cl => w.join d cl
        | none => w
      | none => ((w.leave c fun cl => cl.handover == h).leaveInbound c h).handBack h c rb

/-- A SHIFTING record whose target `c` is fenced gets a new target, or holds none (R31). -/
def Work.newTarget (w : Work) (c : ColIx) (h : HNum) : Work :=
  match w.st.hand h with
  | none => w
  | some r =>
    match r.column with
    | none => w
    | some source =>
      match (w.st.col source).grant with
      | none => w
      | some g =>
        match w.st.digTarget r g.claim.robot.port source with
        | some d =>
          ((w.leaveInbound c h).up (·.joinInbound d h)).up (·.modHand h fun r => { r with target := some d })
        | none => (w.leaveInbound c h).up (·.modHand h fun r => { r with target := none })

/-- The inbound records of a column in one state, ascending. -/
def State.inboundIn (s : State) (c : ColIx) (st : HandState) : List HNum :=
  (s.col c).inbound.filter fun h =>
    match s.hand h with
    | some r => r.state == st
    | none => false

/-- The SHIFTING records of other columns whose target is `c`, ascending. -/
def State.shiftingInto (s : State) (c : ColIx) : List HNum :=
  HNum.all.filter fun h =>
    match s.hand h with
    | some r => r.state == .shifting && r.target == some c && r.column != some c
    | none => false

/-- The error kind of a fence cause; SUPERVISOR makes no capture (Table 7-4). -/
def FenceCause.errorKind : FenceCause → Option ErrorKind
  | .grantTimeout => some .grantTimeout
  | .gaugeMismatch => some .gaugeMismatch
  | .gaugeUnexpected => some .gaugeUnexpected
  | .gaugeFault => some .gaugeFault
  | .supervisor => none

/-- FENCE is posted to every port of the column's reach set and to PS (R27, R28). -/
def State.postFence (s : State) (c : ColIx) : State :=
  s.postAll (regionPorts (s.col c).cfg.reach ++ [.ps]) (.fence c)

/-- Every DEPOSIT and LIFT claim of the column's wait list is dismissed (R28, step 2), in the order of the list, the
oldest stamp first (entry 25). -/
def Work.dismissRegion (w : Work) (c : ColIx) : Work :=
  let gone := (w.st.col c).waitList.filter Claim.isRegion
  (w.leave c Claim.isRegion).up fun s =>
    gone.foldl (fun s cl => s.dismiss cl.handover cl.robot dismissedFenced) s

/-- A column enters FENCED, its grant having ended: the seven steps of R28 in their order, and the occupancy they
leave (R19, R130). `who` names the grant of a timeout. -/
def Work.enterFenced (w : Work) (c : ColIx) (cause : FenceCause) (who : Option (Robot × HNum)) : Work :=
  let w := w.up (·.modCol c fun k =>
    { k with state := .fenced, cause := some cause, fencePending := false, settleTimer := none })
  let w :=
    match cause.errorKind with
    | some e => w.up (·.captureColumn e c who)
    | none => w
  let w := w.dismissRegion c
  let w := (w.st.inboundIn c .booked).foldl (fun w h => w.replaceBooked c h) w
  let w := (w.st.inboundIn c .moving).foldl (fun w h => w.replaceMoving c h) w
  let w := (w.st.shiftingInto c).foldl (fun w h => w.newTarget c h) w
  (w.up (·.postFence c)).handOccupancy

end Sys2Proof.Machine
end

