-- ==== Sys2Proof/Machine/Selection.lean ====
section
/-! DEFINITION. The Claim Arbiter's selection and grant, and the end of a grant (R22, R74 to R79). -/
namespace Sys2Proof.Machine

/-- The grant's record: the claim's own, or the record a SHIFT moves (R77). -/
def Grant.record (g : Grant) : HNum :=
  match g.op with
  | .shift k => k
  | .deposit | .lift | .holding => g.claim.handover

/-- The ticks of a grant timer that starts now: ten times the grant limit (R79). -/
def State.grantTicks (s : State) : Nat := 10 * s.limits.grant

/-- The timer of a grant starts, unless it has started (R78). -/
def Grant.startTimer (ticks : Nat) (g : Grant) : Grant :=
  match g.timer with
  | none => { g with timer := some ticks }
  | some _ => g

/-- The notice of a grant counts as sent, and its timer starts: at the send of its GRANT item, at a removal that acts as
its sending (R78, R152), and at the grant itself when the level of GRANT is 0 and no item is posted. A level set to 0
and a grant made then leave the same grant in either order (R152; entry 10). -/
def Grant.noticed (ticks : Nat) (g : Grant) : Grant := { g.startTimer ticks with noticeSent := true }

/-- A GRANT item for the column leaves a port's pending set, by its sending or by a removal that acts as its sending
(R78, R152; entry 10): the notice of the grant it serves, if any, counts as sent and the timer starts. -/
def State.grantNoticed (s : State) (p : Port) (c : ColIx) : State :=
  match (s.col c).grant with
  | none => s
  | some g =>
    if Port.region g.claim.robot.port = p then
      s.modCol c fun k => { k with grant := some (g.noticed s.grantTicks) }
    else s

/-! ### Eligibility (R74) -/

def State.onTop (s : State) (c : ColIx) (h : HNum) : Bool := (s.col c).stack.getLast? == some h

/-- The urgency of the record a claim is for. -/
def State.urgencyOf (s : State) (h : HNum) : Nat :=
  match s.hand h with
  | some r => r.urgency
  | none => 0

/-- The bin of a LIFT claim is on top, or a dig is possible. -/
def State.reachable (s : State) (c : ColIx) (cl : Claim) : Bool :=
  s.onTop c cl.handover || s.digPossible c cl.robot.port

/-- A LIFT claim is marked BLOCKED or WAITING by its dig, whatever its gate; every other claim is WAITING. -/
def State.mark (s : State) (c : ColIx) (cl : Claim) : Claim :=
  match cl.kind with
  | .lift => { cl with blocked := !s.reachable c cl }
  | .deposit | .holding => { cl with blocked := false }

def State.eligible (s : State) (c : ColIx) (cl : Claim) : Bool :=
  match cl.kind with
  | .deposit => decide (s.load.depositGate ≤ s.urgencyOf cl.handover)
  | .lift => decide (s.load.liftGate ≤ s.urgencyOf cl.handover) && s.reachable c cl
  | .holding => true

/-- The urgency a claim counts with: a HOLDING claim counts as 7 (R75). -/
def State.rank (s : State) (cl : Claim) : Nat :=
  match cl.kind with
  | .holding => 7
  | .deposit | .lift => s.urgencyOf cl.handover

/-- The highest urgency first, then the oldest stamp (R75). -/
def State.preferred (s : State) (a b : Claim) : Bool :=
  s.rank b < s.rank a || s.rank a == s.rank b && a.stamp < b.stamp

def State.choose (s : State) (cls : List Claim) : Option Claim :=
  cls.foldl (fun best cl =>
    match best with
    | none => some cl
    | some b => if s.preferred cl b then some cl else some b) none

/-! ### The grant (R77, R78) -/

/-- The chosen claim leaves the wait list for the grant slot, the column goes to GRANTED, the moved record's
charging is compared, and GRANT is posted (R77); with the kind at level 0 nothing is posted, and the grant counts as
noticed at once (R78, R152; entry 10). -/
def Work.giveGrant (w : Work) (c : ColIx) (cl : Claim) (op : Operation) : Work :=
  let g : Grant := { claim := { cl with blocked := false }, op := op, noticeSent := false, timer := none }
  let g := if w.st.level .grant = 0 then g.noticed w.st.grantTicks else g
  let w := w.leave c (· == cl)
  let w := w.up (·.modCol c fun k => { k with state := .granted, grant := some g })
  (w.judgeCharging g.record).up (·.post (.region cl.robot.port) (.grant c))

/-- A column is granted to a claim; the operation is decided by Table 5-4. -/
def Work.grantTo (w : Work) (c : ColIx) (cl : Claim) : Work :=
  match cl.kind with
  | .deposit =>
    (w.up (·.modHand cl.handover fun r => { r with state := .landing, bookingTimer := none })).giveGrant c cl .deposit
  | .holding => (w.up (·.modHand cl.handover fun r => { r with state := .landing })).giveGrant c cl .holding
  | .lift =>
    if w.st.onTop c cl.handover then
      (w.up (·.modHand cl.handover fun r => { r with state := .lifting })).giveGrant c cl .lift
    else
      match (w.st.col c).stack.getLast? with
      | none => w
      | some k =>
        match w.st.hand k with
        | none => w
        | some r =>
          match w.st.digTarget r cl.robot.port c with
          | none => w
          | some t =>
            let w := w.up (·.modHand k fun r => { r with state := .shifting, target := some t })
            ((w.up (·.joinInbound t k)).handOccupancy).giveGrant c cl (.shift k)

/-- A selection at one column: nothing unless it is OPEN with a claim waiting; the marks are made, and the most
urgent, oldest eligible claim is granted (R74, R75). -/
def Work.select (w : Work) (c : ColIx) : Work :=
  let col := w.st.col c
  if col.state = .opened ∧ col.waitList ≠ [] then
    let marked := col.waitList.map (w.st.mark c)
    let chosen := w.st.choose (marked.filter (w.st.eligible c))
    let w := w.up (·.modCol c fun k => { k with waitList := marked })
    match chosen with
    | some cl => w.grantTo c cl
    | none => w
  else w

/-- One round of the selections that have been started, in ascending column number (R76). -/
def Work.round (w : Work) : Work :=
  ColIx.all.foldl (fun v c => if c ∈ w.sel then v.select c else v) { w with sel := [] }

/-- Rounds until no selection is left to make. A round starts another only through a grant it makes, and eight
grants leave no column OPEN, so nine rounds are enough. -/
def Work.rounds : Nat → Work → Work
  | 0, w => w
  | n + 1, w => if w.sel = [] then w else Work.rounds n w.round

/-- The end of a step: the selections it started are made. -/
def Work.finish (w : Work) : State := (Work.rounds 9 w).st

/-! ### The end of a grant (R22, R111) -/

/-- The ticks of a settle timer that starts now (R108, R111). -/
def State.settleTicks (s : State) : Nat := 2 ^ s.limits.settleExp

/-- A column enters service after a completion or an AMEND: SETTLING with its timer in WATCH and CHECK, OPEN with a
selection in OFF (R22, R27). -/
def Work.settleOrOpen (w : Work) (c : ColIx) : Work :=
  match (w.st.col c).cfg.gaugeMode with
  | .watch | .check =>
    w.up fun s => s.modCol c fun k => { k with state := .settling, settleTimer := some s.settleTicks }
  | .off => (w.up (·.modCol c fun k => { k with state := .opened })).start c

/-- A completion ends the column's grant: to FENCED when fence pending is set, otherwise to SETTLING or OPEN (R22). -/
def Work.completeGrant (w : Work) (c : ColIx) : Work :=
  let w := w.up (·.modCol c fun k => { k with grant := none })
  if (w.st.col c).fencePending then w.enterFenced c .supervisor none else w.settleOrOpen c

end Sys2Proof.Machine
end

