-- ==== Sys2Proof/Machine/Notices.lean ====
section
/-! DEFINITION. The Notice Unit: removal, choice, validity and content of notices (Chapter 10). -/
namespace Sys2Proof.Machine

/-! ### What the leaving of an item does (R50, R78, R152, R155) -/

/-- The effect on the part of an item's sending, or of a removal that acts as its sending: a GRANT item starts the
timer of the grant it serves, an ending item takes its port out of the record's waiting set, and the other kinds
change nothing. -/
def State.noticeGone (s : State) (p : Port) (n : Notice) : State :=
  match n, p with
  | .grant c, p => s.grantNoticed p c
  | .withdrawn h _ _, .region r | .delivered h, .region r | .handedBack h _ _, .region r => s.releaseWaiting r h
  | _, _ => s

/-- Removes the items of a port's set for which `f` holds, each with the effect of its sending (R52, R152). -/
def State.removeItems (s : State) (p : Port) (f : Notice → Bool) : State :=
  ((s.pendingSet p).filter f).foldl (fun s n => s.noticeGone p n) (s.modPending p (·.filter fun n => !f n))

/-! ### Validity at send (Table 10-2) -/

def State.inUse (s : State) (h : HNum) : Bool :=
  match s.hand h with
  | some r => r.state != .closing
  | none => false

/-- The record is CLOSING and the port is in its waiting set. -/
def State.owes (s : State) (p : Port) (h : HNum) : Bool :=
  match s.hand h, p with
  | some r, .region x =>
    match r.closing with
    | some cl => r.state == .closing && RegionSet.has cl.waiting x
    | none => false
  | _, _ => false

def State.valid (s : State) (p : Port) : Notice → Bool
  | .reset | .dismissed .. | .fence _ | .load | .gauge _ => true
  | .grant c =>
    match (s.col c).grant with
    | some g => Port.region g.claim.robot.port == p
    | none => false
  | .ready h =>
    match s.hand h with
    | some r => r.state == .stored && Port.region r.dest == p
    | none => false
  | .moved h | .expired h => s.inUse h
  | .warn h =>
    s.inUse h &&
      match s.hand h with
      | some r => (match r.budget with | some b => b.warned | none => false)
      | none => false
  | .withdrawn h _ _ | .delivered h | .handedBack h _ _ => s.owes p h
  | .error g => (s.group g).captured.isSome

/-! ### Choice (R153) -/

/-- The item whose kind has the highest level, and among equals the earliest. -/
def State.firstItem (s : State) (items : List Notice) : Option Notice :=
  items.foldl (fun best n =>
    match best with
    | none => some n
    | some b => if s.level b.kind < s.level n.kind then some n else some b) none

/-- The next notice of a port, with the items that remain after it: invalid items are dropped on the way. `fuel`
bounds the drops; the length of the set is enough. -/
def State.nextNotice (s : State) (p : Port) : Nat → List Notice → Option Notice × List Notice
  | 0, items => (none, items)
  | fuel + 1, items =>
    match s.firstItem items with
    | none => (none, items)
    | some n =>
      let rest := items.erase n
      if s.valid p n then (some n, rest) else s.nextNotice p fuel rest

/-! ### Content at send (R154, Table 10-3) -/

/-- The subject byte in the receiving port's frame (R153). -/
def PortConfig.subjectByte (f : PortConfig) : Notice → Byte
  | .reset | .load => absentByte
  | .grant c | .fence c | .gauge c => f.columnByte (some c)
  | .ready h | .moved h | .dismissed h _ _ | .withdrawn h _ _ | .warn h | .expired h | .delivered h
  | .handedBack h _ _ => byte h.val
  | .error g => byte g.val

/-- A bin's position from the top of its column's stack, 0 for the top (R71, Table 10-3). -/
def State.position (s : State) (r : Handover) (h : HNum) : Nat :=
  match r.column with
  | some c => ((s.col c).stack.reverse.findIdx (· == h))
  | none => 0

/-- The content of a GRANT notice: robot, the grant's record, operation, target and shifted bin (R78). -/
def State.grantContent (s : State) (f : PortConfig) (g : Grant) : List Byte :=
  let moved := s.hand g.record
  let shifted : Option Handover :=
    match g.op with
    | .shift _ => moved
    | .deposit | .lift | .holding => none
  [g.claim.robot.number, byte g.record.val, g.op.kind.code, f.columnByte (shifted.bind (·.target))] ++
    (match shifted with
     | some r => put24 f.order r.bin
     | none => [absentByte, absentByte, absentByte])

/-- The content of a notice about a record, absent items all ones should the number be FREE. -/
def State.recordContent (s : State) (h : HNum) (content : Handover → List Byte) : List Byte :=
  match s.hand h with
  | some r => content r
  | none => []

def State.content (s : State) (f : PortConfig) : Notice → List Byte
  | .reset => put16 f.order s.clock
  | .grant c =>
    match (s.col c).grant with
    | some g => s.grantContent f g
    | none => []
  | .ready h => s.recordContent h fun r =>
      put24 f.order r.bin ++
        [f.columnByte r.column, byte (s.position r h), f.headingByte r.heading, byte r.urgency]
  | .moved h => s.recordContent h fun r => [f.columnByte r.column, r.state.code]
  | .dismissed _ robot cause => [robot, cause]
  | .withdrawn _ bin cause => put24 f.order bin ++ [cause]
  | .warn h => s.recordContent h fun r => putNat16 f.order (r.liveBudget s.clock) ++ [f.columnByte r.column]
  | .expired h => s.recordContent h fun r => put24 f.order r.bin ++ [f.columnByte r.column]
  | .delivered h => s.recordContent h fun r =>
      put24 f.order r.bin ++ [byte r.dest.val] ++ putNat16 f.order (r.liveBudget s.clock)
  | .handedBack _ bin rb => put24 f.order bin ++ [byte rb.port.val, rb.number]
  | .fence c =>
    let k := s.col c
    [k.state.code, (match k.cause with | some x => x.code | none => absentByte), flagCode k.fencePending]
  | .load =>
    [flagCode s.load.high.on, flagCode s.load.full.on, s.load.trend.code, byte s.occupancy]
  | .gauge c => [byte (s.col c).reported.toNat, byte (s.col c).stack.length]
  | .error g =>
    match (s.group g).captured with
    | some e => [e.kind.code, flagCode (s.group g).multi]
    | none => []

/-- The body of a notice as the port receives it (Table 9-8). -/
def State.noticeBody (s : State) (p : Port) (n : Notice) : List Byte :=
  let f := s.view p
  byte n.kind.ix.val :: f.subjectByte n :: s.content f n

end Sys2Proof.Machine
end

