-- ==== Sys2Proof/Machine/Links.lean ====
section
/-! DEFINITION. The link units: reception, the taking of requests, and the frames of the IX48 (Chapter 9). -/
namespace Sys2Proof.Machine

/-! ### Reception (R137, R138) -/

/-- The declared length of a frame in reception, once its length byte is there. -/
def declared (frame : List Byte) : Option Nat := frame[1]?.map BitVec.toNat

/-- The frame ends in error: the link unit is between frames again and the frame is dropped. -/
def LinkUnit.dropFrame (u : LinkUnit) : LinkUnit := { u with rx := .betweenFrames, frame := [] }

/-- A complete frame that came with END: its check decides between BAD_CHECK and the intake queue. -/
def LinkUnit.judgeFrame (u : LinkUnit) (frame : List Byte) : LinkUnit × Option ErrorKind :=
  let n := frame.length - 2
  let front := frame.take n
  if frame.drop n = put16 .highFirst (crc front) then
    match front with
    | kind :: _ :: body => ({ u.dropFrame with intake := u.intake ++ [{ kind := kind, body := body }] }, none)
    | _ => (u.dropFrame, some .truncated)
  else (u.dropFrame, some .badCheck)

/-- A byte taken into a frame, after which the frame in reception is `frame`: the cases of R138 in their order. -/
def LinkUnit.extend (u : LinkUnit) (frame : List Byte) (endLevel : Bool) : LinkUnit × Option ErrorKind :=
  match declared frame with
  | none => if endLevel then (u.dropFrame, some .truncated) else ({ u with rx := .receiving, frame := frame }, none)
  | some len =>
    if Config.maxBody < len then
      if endLevel then (u.dropFrame, some .overlong) else ({ u with rx := .discarding, frame := frame }, none)
    else if frame.length < len + 4 then
      if endLevel then (u.dropFrame, some .truncated) else ({ u with rx := .receiving, frame := frame }, none)
    else if endLevel then u.judgeFrame frame
    else ({ u with rx := .receiving, frame := frame }, none)

/-- A frame in reception holds all its 2 + L + 2 bytes. -/
def frameComplete (frame : List Byte) : Bool :=
  match declared frame with
  | some len => decide (len + 4 ≤ frame.length)
  | none => false

/-- A byte is taken, with the level of END (R137, R138). The answer is the link unit after it and the error that is
taken with it, if any. -/
def LinkUnit.takeByte (u : LinkUnit) (b : Byte) (endLevel : Bool) : LinkUnit × Option ErrorKind :=
  let u := { u with window := false }
  match u.rx with
  | .betweenFrames => if b = 0 ∧ endLevel = false then (u, none) else u.extend [b] endLevel
  | .receiving =>
    if frameComplete u.frame then
      if endLevel then (u.dropFrame, some .overlong) else ({ u with rx := .discarding }, none)
    else u.extend (u.frame ++ [b]) endLevel
  | .discarding => if endLevel then (u.dropFrame, some .overlong) else (u, none)

/-- The link unit takes its new value, and an error is captured in the port's LINK group (R138). -/
def State.received (s : State) (p : Port) (x : LinkUnit × Option ErrorKind) : State :=
  let s := s.modLink p fun _ => x.1
  match x.2 with
  | some e => s.captureLink p e
  | none => s

/-! ### The edges of a link (R137, R142, Table 9-2) -/

/-- The end of an edge at which TURN was low and not falling, and whose next edge is neither a turning edge nor the
window: between frames, PACE is set low for a turn when an answer is waiting or a notice is pending (R142). -/
def State.setPace (s : State) (p : Port) : State :=
  s.modLink p fun u => { u with prepared := u.rx == .betweenFrames && s.hasWaiting p }

/-- An edge at which PACE is high: the byte presented is taken. -/
def State.byteEdge (s : State) (p : Port) (b : Byte) (endLevel : Bool) : State :=
  (s.received p ((s.link p).takeByte b endLevel)).setPace p

/-- The turning edge after a rise, which gives the bus to the IX48, the turning edge after the edge of the fall, which
gives it to the controller, and an edge at which the IX48 drives a byte. -/
def LinkUnit.ownEdge (u : LinkUnit) : LinkUnit :=
  match u.bus with
  | .turning => { u with bus := if u.sending.isSome then .ix48 else .controller }
  | .ix48 => { u with sending := u.sending.map fun x => { x with sent := min (x.sent + 1) (max x.sent x.bytes.length) } }
  | .controller => u

/-- An edge at which PACE is low and TURN neither rises nor falls: one of the IX48's own edges, or one at which the
controller's byte is not taken. The window clears; at an edge prepared for a turn at which nothing remains to send, the
invalid items have been dropped (R142, R143). -/
def State.heldEdge (s : State) (p : Port) : State :=
  if (s.link p).bus = .controller then
    let items := s.pendingSet p
    let s := if s.mayTurn p then s.modPending p fun _ => (s.nextNotice p items.length items).2 else s
    (s.modLink p fun u => { u with window := false }).setPace p
  else s.modLink p LinkUnit.ownEdge

/-- What the port sends if TURN rises at the next edge: its oldest answer, or its next valid notice (R143). -/
def State.something (s : State) (p : Port) : Bool :=
  !(s.link p).answers.isEmpty || (s.nextNotice p (s.pendingSet p).length (s.pendingSet p)).1.isSome

/-- TURN rises at the next edge. -/
def State.riseDue (s : State) (p : Port) : Bool := s.mayTurn p && s.something p

/-- TURN falls at the next edge: the last check byte has been driven. -/
def State.fallDue (s : State) (p : Port) : Bool :=
  let u := s.link p
  !s.resetAsserted && u.bus == .ix48 &&
    match u.sending with
    | some x => decide (x.bytes.length ≤ x.sent)
    | none => false

/-- An edge at which the controller of the port presents the fill byte with END low. An edge at which TURN rises or
falls has a command of its own, and inside a controller frame the bytes come by CONTROLLER FRAME: until that command
comes the controller gives no edge (entry 2). -/
def State.fillEdge (s : State) (p : Port) : State :=
  if s.riseDue p || s.fallDue p || (s.link p).rx != .betweenFrames then s
  else if s.pace p then s.byteEdge p 0 false else s.heldEdge p

/-- What an idle step does: one LCLK edge on every port, none while RESET is asserted (entry 2). -/
def State.lclkEdge (s : State) : State :=
  if s.resetAsserted then s else Port.all.foldl State.fillEdge s

/-! ### The edges a command takes (entry 7) -/

/-- Edges pass with PACE low until it is high: the second turning edge after a fall, or an edge prepared for a turn at
which nothing remains to send. -/
def State.awaitPace (p : Port) : Nat → State → State
  | 0, s => s
  | n + 1, s =>
    if s.pace p || s.riseDue p || (s.link p).turn then s else State.awaitPace p n (s.heldEdge p)

/-- The controller presents a byte until it is taken; none when it cannot be: TURN is high or rises first, or the
intake queue is full. -/
def State.presentByte (s : State) (p : Port) (b : Byte) (endLevel : Bool) : Option State :=
  let s := s.awaitPace p 2
  if s.pace p then some (s.byteEdge p b endLevel) else none

/-- Bytes are presented one after another; the first that cannot be taken is not, and none after it. -/
def State.takeBytes (p : Port) : List BusByte → State → State
  | [], s => s
  | (b, endLevel) :: bs, s =>
    match s.presentByte p b endLevel with
    | some t => State.takeBytes p bs t
    | none => s

/-- Edges pass with the fill byte until PACE has been set low for a turn: the second turning edge after a fall, the
window, or an edge that does so. -/
def State.awaitTurn (p : Port) : Nat → State → State
  | 0, s => s
  | n + 1, s => if s.mayTurn p || (s.link p).turn then s else State.awaitTurn p n (s.fillEdge p)

/-- The edges of a frame of the IX48 pass until TURN falls: the turning edge, and one for each byte still to drive. -/
def State.awaitFall (p : Port) : Nat → State → State
  | 0, s => s
  | n + 1, s => if s.fallDue p then s else State.awaitFall p n (s.modLink p LinkUnit.ownEdge)

/-! ### Sending (R142, R143) -/

/-- TURN rises for a frame, whose bytes are then fixed; the edge after the rise is a turning edge. -/
def LinkUnit.raise (u : LinkUnit) (bytes : List Byte) : LinkUnit :=
  { u with bus := .turning, sending := some { bytes := bytes, sent := 0 }, window := false, prepared := false }

/-- TURN falls: the frame is sent, this edge and the next are turning edges, and the edge after them is reserved to the
controller. -/
def LinkUnit.fall (u : LinkUnit) : LinkUnit :=
  { u with bus := .turning, sending := none, window := true, prepared := false }

/-! ### Taking requests (R140, R141) -/

/-- The owner's part of a step: the step in progress, and the result and data of the answer. -/
structure Reply where
  work : Work
  result : Result
  data : List Byte
  deriving DecidableEq, Repr

/-- A refusal that changes nothing. -/
def State.refuse (s : State) (r : Result) (data : List Byte) : Reply := { work := s.begin, result := r, data := data }

/-- The request of a port that may be taken now: the oldest of its intake queue, while its answer queue has room
(R140) and no event of the present advance is due (entry 4). -/
def State.oldestRequest (s : State) (p : Port) : Option Frame :=
  if s.advanceEventDue || decide (Config.answerRoom ≤ (s.link p).answers.length) then none else (s.link p).intake.head?

/-- The oldest frame leaves the intake queue. -/
def State.dropRequest (s : State) (p : Port) : State := s.modLink p fun u => { u with intake := u.intake.tail }

/-- The request number of an answer: the first body byte, or 00h (R141). -/
def requestNumber (f : Frame) : Byte := f.body.headD 0

/-- An answer joins the port's answer queue as its newest (R140, R148). -/
def State.pushAnswer (s : State) (p : Port) (f : Frame) (r : Result) (data : List Byte) : State :=
  s.modLink p fun u => { u with answers := u.answers ++ [requestNumber f :: r.code :: data] }

/-- The end of a request: its selections are made and its one answer joins the queue. The data of the answer is as the
owner's part of the step leaves it, before the selections (entry 27). -/
def Reply.answer (y : Reply) (p : Port) (f : Frame) : State := (y.work.finish).pushAnswer p f y.result y.data

/-- The port is a disabled region port. -/
def State.portOff (s : State) : Port → Bool
  | .region r => !(s.ports[r]).enabled
  | .ps => false

/-- The stages of R141 after the kind: length, permission, disabled port; then the owner. An answer NOT_PERMITTED
carries no data, also to a CONFIGURE COLUMN or a CONFIGURE PORT from a region port (entry 9). -/
def State.judgeRequest (s : State) (k : RequestKind) (p : Port) (f : Frame) (owner : State → Reply) : Reply :=
  if !k.lengthOk f.body then
    (s.captureLink p .badLength).refuse .badField [f.kind, byte f.body.length]
  else if !k.permitted p f.body then s.refuse .notPermitted []
  else if s.portOff p && !k.isQuery then s.refuse .noRegion []
  else owner s

/-- The taking of a request of kind `k`: when the oldest request of the port that may be taken is of that kind, it
leaves the queue, is judged, handled by its owner and answered, in one step (R140, R141). Otherwise no such step
arises and nothing changes (entry 1). -/
def State.takeRequest (s : State) (k : RequestKind) (p : Port) (owner : List Byte → State → Reply) : State :=
  match s.oldestRequest p with
  | none => s
  | some f =>
    if f.kind = k.code then ((s.dropRequest p).judgeRequest k p f (owner f.body)).answer p f else s

/-- The owner of a request that only region ports may send. -/
def regionOwner (p : Port) (owner : Region → List Byte → State → Reply) (body : List Byte) (s : State) : Reply :=
  match p with
  | .region r => owner r body s
  | .ps => s.refuse .notPermitted []

end Sys2Proof.Machine
end

