-- ==== Sys2Proof/Machine/Booking.lean ====
section
/-! DEFINITION. BOOK, CANCEL and REGION RESTART (Chapter 3). -/
namespace Sys2Proof.Machine

/-- The lowest-numbered FREE record (R38). -/
def State.lowestFree (s : State) : Option HNum := HNum.all.find? fun h => (s.hand h).isNone

/-- The record in use that holds a bin (R38). -/
def State.binHolder (s : State) (bin : BinNo) : Option HNum :=
  HNum.all.find? fun h =>
    match s.hand h with
    | some r => r.state != .closing && r.bin == bin
    | none => false

/-- The fields of a BOOK after decoding, translation and clamping (R40). -/
structure BookRequest where
  bin : BinNo
  dest : Region
  urgency : Nat
  heading : Heading
  dueIn : Nat
  budget : Nat
  deriving DecidableEq, Repr

/-- The fields of a BOOK body, none when one is refused BAD_FIELD (R40, R41 test 3, R144). -/
def decodeBook (f : PortConfig) (r : Region) (body : List Byte) : Option BookRequest :=
  match body with
  | [_, b0, b1, b2, dst, urg, hd, d0, d1, g0, g1] =>
    match Byte.below 4 dst, Byte.below 4 hd with
    | some dest, some heading =>
      let bin := get24 f.order b0 b1 b2
      if bin = 0 ∨ dest = r then none
      else some {
        bin := bin
        dest := dest
        urgency := clamp 1 5 urg.toNat
        heading := f.headingFromLocal heading
        dueIn := clampDueIn (get16 f.order d0 d1).toNat
        budget := clamp 0 3600 (get16 f.order g0 g1).toNat }
    | _, _ => none
  | _ => none

/-- The record a BOOK fills (R42). -/
def State.bookedRecord (s : State) (r : Region) (q : BookRequest) (c : ColIx) : Handover where
  state := .booked
  bin := q.bin
  origin := .region r
  dest := q.dest
  urgency := q.urgency
  due := dueOf s.clock q.dueIn
  heading := q.heading
  column := some c
  target := none
  bookingTimer := some s.limits.booking
  holder := none
  doubt := none
  budget := budgetOf q.budget
  closing := none
  follower := none

/-- BOOK at the Handover Table: tests 3 to 7 of R41 in their order, and the booking of R42. -/
def bookOwner (r : Region) (body : List Byte) (s : State) : Reply :=
  let f := s.ports[r]
  match decodeBook f r body with
  | none => s.refuse .badField []
  | some q =>
    match s.binHolder q.bin with
    | some h => s.refuse .duplicate [byte h.val]
    | none =>
      match s.lowestFree with
      | none => s.refuse .noRecord []
      | some h =>
        if q.urgency < s.load.depositGate then s.refuse .gated [byte s.load.depositGate, byte q.urgency]
        else
          let cands := s.bookingSet (.region r) q.dest
          let room := s.inServiceRoom
          let cls := if q.budget = 0 then BinClass.ambient else .chilled
          match s.best (dueOf s.clock q.dueIn) cls cands with
          | none => s.refuse .full [0, byte room]
          | some c =>
            if room < s.limits.digReserve + 1 then s.refuse .full [byte cands.length, byte room]
            else
              let s' := (s.setHand h (some (s.bookedRecord r q c))).joinInbound c h
              { work := s'.begin.handOccupancy, result := .ok,
                data := [byte h.val, f.columnByte (some c), byte (s'.col c).height] }

/-- CANCEL at the Handover Table (R47). -/
def cancelOwner (r : Region) (body : List Byte) (s : State) : Reply :=
  match Byte.below 32 (body.getD 1 0) with
  | none => s.refuse .badField []
  | some h =>
    match s.hand h with
    | none => s.refuse .stale []
    | some x =>
      if x.origin ≠ .region r then s.refuse .notYours []
      else
        match x.state, x.column with
        | .landing, _ => s.refuse .inProgress []
        | .booked, some c =>
          let w := s.begin.leave c fun cl => cl.handover == h
          let w := (w.leaveInbound c h).up (·.setHand h none)
          { work := w.handOccupancy, result := .ok, data := byte h.val :: put24 (s.ports[r]).order x.bin }
        | _, _ => s.refuse .badState []

/-- The DEPOSIT and LIFT claims of a port (R52). -/
def regionClaimOf (r : Region) (cl : Claim) : Bool := cl.isRegion && cl.robot.port == r

/-- How many records are FREE. -/
def State.freeCount (s : State) : Nat := (HNum.all.filter fun h => (s.hand h).isNone).length

/-- How many DEPOSIT and LIFT claims of a port wait. -/
def State.waitingOf (s : State) (r : Region) : Nat :=
  (ColIx.all.map fun c => ((s.col c).waitList.filter (regionClaimOf r)).length).sum

/-- The followers of a port's robots are removed without a notice (R92). -/
def State.dropFollowers (s : State) (r : Region) : State :=
  HNum.all.foldl (fun s h => s.modHand h fun x =>
    match x.follower with
    | some f => if f.robot.port = r then { x with follower := none } else x
    | none => x) s

/-- REGION RESTART at the Handover Table: the three steps of R52. -/
def restartOwner (r : Region) (_body : List Byte) (s : State) : Reply :=
  let w := ColIx.all.foldl (fun w c => w.leave c (regionClaimOf r)) s.begin
  let w := w.up fun s => (s.dropFollowers r).removeItems (.region r) fun _ => true
  let w := w.up fun s => HNum.all.foldl (fun s h => s.releaseWaiting r h) s
  { work := w, result := .ok, data := [byte (s.waitingOf r), byte (w.st.freeCount - s.freeCount)] }

/-- BOOK (R41, R42). -/
def execBook (p : Port) (s : State) : Host.Outcome State Fault Refusal :=
  .next (s.takeRequest .book p (regionOwner p bookOwner))

/-- CANCEL (R47). -/
def execCancel (p : Port) (s : State) : Host.Outcome State Fault Refusal :=
  .next (s.takeRequest .cancel p (regionOwner p cancelOwner))

/-- REGION RESTART (R52). -/
def execRegionRestart (p : Port) (s : State) : Host.Outcome State Fault Refusal :=
  .next (s.takeRequest .regionRestart p (regionOwner p restartOwner))

end Sys2Proof.Machine
end

