-- ==== Sys2Proof/Machine/Claims.lean ====
section
/-! DEFINITION. CLAIM, and the search for claims and grants (Chapter 5). -/
namespace Sys2Proof.Machine

/-- The claim in a column's grant slot. -/
def Column.grantClaim (c : Column) : List Claim :=
  match c.grant with
  | some g => [g.claim]
  | none => []

/-- Every claim of a column, waiting or granted. -/
def Column.claims (c : Column) : List Claim := c.waitList ++ c.grantClaim

/-- A robot has a claim in the part, or is the robot of a follower (R70, test 5). -/
def State.robotBusy (s : State) (rb : Robot) : Bool :=
  (ColIx.all.any fun c => (s.col c).claims.any fun cl => cl.robot == rb) ||
  HNum.all.any fun h =>
    match s.hand h with
    | some r => (match r.follower with | some f => f.robot == rb | none => false)
    | none => false

/-- A record has a claim, waiting or granted (R70, test 5). -/
def State.recordClaimed (s : State) (h : HNum) : Bool :=
  ColIx.all.any fun c => (s.col c).claims.any fun cl => cl.handover == h

/-- A CLAIM after decoding. -/
structure ClaimRequest where
  robot : Byte
  lift : Bool
  handover : HNum
  deriving DecidableEq, Repr

/-- The fields of a CLAIM body, none when one is refused BAD_FIELD (R70, test 2). -/
def decodeClaim (body : List Byte) : Option ClaimRequest :=
  match body with
  | [_, robot, op, h] =>
    match Byte.below 32 h with
    | some h =>
      if op = 0 then some { robot := robot, lift := false, handover := h }
      else if op = 1 then some { robot := robot, lift := true, handover := h }
      else none
    | none => none
  | _ => none

/-- The kind of the claim a CLAIM makes. -/
def ClaimRequest.kind (q : ClaimRequest) : ClaimKind := if q.lift then .lift else .deposit

/-- Tests 3 and 4 of R70: what the record must be for the operation, by origin or destination and by state. -/
def ClaimRequest.recordTest (q : ClaimRequest) (r : Region) (x : Handover) : Option Result :=
  if x.state = .closing then some .stale
  else if q.lift then
    if x.dest ≠ r then some .notYours else if x.state ≠ .stored then some .badState else none
  else
    if x.origin ≠ .region r then some .notYours else if x.state ≠ .booked then some .badState else none

/-- CLAIM at the Claim Arbiter: tests 3 to 7 of R70 in their order, and the joining of R71. -/
def claimOwner (r : Region) (body : List Byte) (s : State) : Reply :=
  match decodeClaim body with
  | none => s.refuse .badField []
  | some q =>
    match s.hand q.handover with
    | none => s.refuse .stale []
    | some x =>
      match q.recordTest r x, x.column with
      | some why, _ => s.refuse why []
      | none, none => s.refuse .badState []
      | none, some c =>
        let rb : Robot := ⟨r, q.robot⟩
        let col := s.col c
        if s.robotBusy rb || s.recordClaimed q.handover then s.refuse .duplicate []
        else if col.state = .unknown ∨ col.state = .fenced then s.refuse .fenced []
        else if Config.waitRoom ≤ col.waitList.length ∨ Config.regionRoom ≤ col.regionClaims then s.refuse .busy []
        else
          let w := s.begin.joinNew c rb q.kind q.handover
          let f := s.ports[r]
          { work := w, result := .queued,
            data := [byte q.handover.val, f.columnByte (some c)] ++
              (if q.lift then [byte (s.position x q.handover)] else []) ++
              [byte (w.st.col c).waitList.length] }

/-- CLAIM (R70, R71). -/
def execClaim (p : Port) (s : State) : Host.Outcome State Fault Refusal :=
  .next (s.takeRequest .claim p (regionOwner p claimOwner))

end Sys2Proof.Machine
end

