-- ==== Sys2Proof/Machine/Reports.lean ====
section
/-! DEFINITION. The completion reports LANDED, LIFTED and RELEASE, on time and late (R80 to R92). -/
namespace Sys2Proof.Machine

/-! ### The tests of a report (R80) -/

/-- A report that reached a grant or a doubt: the column concerned, the operation, and the grant when on time. -/
structure Matched where
  column : ColIx
  op : OpKind
  grant : Option Grant
  deriving DecidableEq, Repr

/-- The column whose grant has a claim of the robot and whose grant's record is `h` (R80, test 4). -/
def State.grantOf (s : State) (rb : Robot) (h : HNum) : Option (ColIx × Grant) :=
  ColIx.all.findSome? fun c =>
    match (s.col c).grant with
    | some g => if g.claim.robot = rb ∧ g.record = h then some (c, g) else none
    | none => none

/-- Tests 4 and 5 of R80: the report is on time, or late, or matches nothing. -/
def State.matchReport (s : State) (rb : Robot) (h : HNum) (x : Handover) : Option Matched :=
  match s.grantOf rb h with
  | some (c, g) => some { column := c, op := g.op.kind, grant := some g }
  | none =>
    match x.state, x.doubt, x.column with
    | .doubt, some d, some c => if d.robot = rb then some { column := c, op := d.op, grant := none } else none
    | _, _, _ => none

/-- The result of a report that is taken: OK on time, LATE for a doubt (R80, R88). -/
def Matched.result (m : Matched) : Result := if m.grant.isSome then .ok else .late

/-- The tests of R80 in their order, and then the report's own rule `apply`, which answers none when the report does
not fit the operation (BAD_STATE). -/
def reportOwner (apply : State → Region → Robot → HNum → Handover → Matched → Option (Work × List Byte))
    (r : Region) (body : List Byte) (s : State) : Reply :=
  let rb : Robot := ⟨r, body.getD 1 0⟩
  match Byte.below 32 (body.getD 2 0) with
  | none => s.refuse .badField []
  | some h =>
    match s.hand h with
    | none => (s.captureReport .staleReport rb h).refuse .stale []
    | some x =>
      if x.state = .closing then (s.captureReport .staleReport rb h).refuse .stale []
      else
        match s.matchReport rb h x with
        | none => (s.captureReport .notGranted rb h).refuse .notGranted []
        | some m =>
          match apply s r rb h x m with
          | none => s.refuse .badState []
          | some (w, data) => { work := w, result := m.result, data := data }

/-- An on-time report ends its grant (R22); a late one finds none. -/
def Work.endGrant (w : Work) (m : Matched) : Work := if m.grant.isSome then w.completeGrant m.column else w

/-! ### LANDED (R81, R82, R88) -/

/-- The follower of a landed record becomes a LIFT claim at its column or is dismissed (R92). -/
def Work.settleFollower (w : Work) (c : ColIx) (h : HNum) : Work :=
  match w.st.hand h with
  | none => w
  | some r =>
    match r.follower with
    | none => w
    | some f =>
      let col := w.st.col c
      let w := w.up (·.setHand h (some { r with follower := none }))
      if col.state = .fenced then w.up (·.dismiss h f.robot dismissedFenced)
      else if Config.waitRoom ≤ col.waitList.length ∨ Config.regionRoom ≤ col.regionClaims then
        w.up (·.dismiss h f.robot dismissedNoRoom)
      else w.join c { robot := f.robot, kind := .lift, handover := h, stamp := f.stamp, blocked := false }

/-- A deposit has landed: STORED on top of the stack, READY to the destination (R81, R88). -/
def landDeposit (s : State) (c : ColIx) (h : HNum) (x : Handover) : Work :=
  let w := (s.begin.up (·.land c h)).up (·.modHand h fun r => { r with state := .stored, doubt := none })
  (w.up (·.post (.region x.dest) (.ready h))).judgeCharging h

/-- A shifted bin has landed: STORED on top, its holder absent, MOVED to the destination, its follower decided (R82,
R88). -/
def landHolding (s : State) (c : ColIx) (h : HNum) (x : Handover) : Work :=
  let w := (s.begin.up (·.land c h)).up (·.modHand h fun r =>
    { r with state := .stored, doubt := none, holder := none })
  ((w.up (·.post (.region x.dest) (.moved h))).settleFollower c h).judgeCharging h

/-- LANDED fits a deposit and a holding landing. -/
def applyLanded (s : State) (r : Region) (_rb : Robot) (h : HNum) (x : Handover) (m : Matched) :
    Option (Work × List Byte) :=
  let done (w : Work) : Option (Work × List Byte) :=
    some (w.endGrant m,
      [byte h.val, (s.ports[r]).columnByte (some m.column), byte (w.st.col m.column).stack.length])
  match m.op with
  | .deposit => done (landDeposit s m.column h x)
  | .holding => done (landHolding s m.column h x)
  | .lift | .shift => none

/-! ### LIFTED (R83 to R85, R88) -/

/-- A bin is lifted for good: it leaves the stack, and the record goes to CLOSING, DELIVERED (R83). -/
def liftLift (s : State) (c : ColIx) (h : HNum) (x : Handover) : Work :=
  let w := (s.begin.liftTop c).handOccupancy
  w.close h .delivered (originSet x.origin) (.delivered h)

/-- The column that receives a shifted record `k`, lifted from `s` by a robot of `port`, and the step after it: the
target that is held when its wait list has room or it is FENCED, or else a fresh target, into whose inbound set `k`
goes (R85). -/
def Work.receiveShift (w : Work) (k : HNum) (x : Handover) (source : ColIx) (port : Region) : Work × Option ColIx :=
  let fresh (w : Work) : Work × Option ColIx :=
    match w.st.digTarget x port source with
    | some d => (w.up (·.joinInbound d k), some d)
    | none => (w, none)
  match x.target with
  | some t =>
    if (w.st.col t).waitList.length < Config.waitRoom ∨ (w.st.col t).state = .fenced then (w, some t)
    else fresh (w.leaveInbound t k)
  | none => fresh w

/-- The record's own LIFT claim leaves the column's wait list and becomes its follower (R84 step 2, R92). -/
def Work.makeFollower (w : Work) (c : ColIx) (k : HNum) : Work :=
  match (w.st.col c).waitList.find? fun cl => cl.handover == k && cl.kind == .lift with
  | none => w
  | some cl =>
    (w.leave c (· == cl)).up (·.modHand k fun r => { r with follower := some { robot := cl.robot, stamp := cl.stamp } })

/-- LIFTED on a SHIFT (R84, R85, R88): `k` leaves the top of its source, its claim becomes its follower, and it goes
MOVING to the receiving column with a HOLDING claim, which takes the stamp of the claim that ends or, in a late
report, the next one; with no receiving column it is handed back. In a late report the robot may have made another claim
since its timeout, and then it has two (entry 26). -/
def liftShift (s : State) (source : ColIx) (k : HNum) (rb : Robot) (x : Handover) (g : Option Grant) : Work :=
  let w := (s.begin.liftTop source).makeFollower source k
  let (w, found) := w.receiveShift k x source rb.port
  let w :=
    match found with
    | none => w.handBack k source rb
    | some d =>
      let w := w.change k fun r =>
        { r with state := .moving, holder := some rb, doubt := none, column := some d, target := none }
      let w :=
        match g with
        | some g => w.join d { robot := rb, kind := .holding, handover := k, stamp := g.claim.stamp, blocked := false }
        | none => w.joinNew d rb .holding k
      if (w.st.col d).state = ColState.fenced then w.replaceMoving d k else w
  w.handOccupancy

/-- The column byte of the LIFTED answer on a SHIFT, and the outcome after it: FFh and HANDED_BACK when the record is
no longer MOVING (R84). The outcome's code is free (entry 8). -/
def shiftAnswer (s : State) (f : PortConfig) (k : HNum) : List Byte :=
  match s.hand k with
  | some r =>
    if r.state = .moving then [f.columnByte r.column, Config.liftedOutcome true]
    else [absentByte, Config.liftedOutcome false]
  | none => [absentByte, Config.liftedOutcome false]

/-- LIFTED fits a lift and a shift. -/
def applyLifted (s : State) (r : Region) (rb : Robot) (h : HNum) (x : Handover) (m : Matched) :
    Option (Work × List Byte) :=
  let f := s.ports[r]
  match m.op with
  | .lift =>
    some ((liftLift s m.column h x).endGrant m,
      byte h.val :: put24 f.order x.bin ++ f.headingByte x.heading :: putNat16 f.order (x.liveBudget s.clock))
  | .shift =>
    let w := liftShift s m.column h rb x m.grant
    some (w.endGrant m, byte h.val :: put24 f.order x.bin ++ shiftAnswer w.st f h)
  | .deposit | .holding => none

/-! ### RELEASE (R86, R89) -/

/-- A deposit is released: BOOKED again with a fresh booking timer (R44, R86). -/
def Work.rebook (w : Work) (h : HNum) : Work :=
  w.change h fun r => { r with state := .booked, doubt := none, bookingTimer := some w.st.limits.booking }

/-- A lift or a shift is released: STORED in place, a target dropped (R86, R89). -/
def Work.putBack (w : Work) (h : HNum) : Work :=
  (w.dropTarget h).change h fun r => { r with state := .stored, doubt := none }

/-- A holding landing is released to MOVING, its holder kept (R86, R89). -/
def Work.setMoving (w : Work) (h : HNum) : Work :=
  w.change h fun r => { r with state := .moving, doubt := none }

/-- An on-time RELEASE of a holding landing: the HOLDING claim returns to the column's wait list, or, when that is
full, record and claim go to the best column of the MOVING set, or the bin is handed back (R86). -/
def Work.releaseHolding (w : Work) (c : ColIx) (h : HNum) (x : Handover) (cl : Claim) : Work :=
  if (w.st.col c).waitList.length < Config.waitRoom then (w.setMoving h).join c cl
  else
    match w.st.best x.due x.cls (w.st.movingSet cl.robot.port x.dest) with
    | some d =>
      let w := ((w.setMoving h).leaveInbound c h).up (·.joinInbound d h)
      (w.change h fun r => { r with column := some d }).join d cl
    | none => (w.leaveInbound c h).handBack h c cl.robot

/-- A late RELEASE of a holding landing: MOVING with a new HOLDING claim in the fenced column, and re-placed at once
(R89, R32). A robot that has claimed again since its timeout then has two claims (entry 26). -/
def Work.lateReleaseHolding (w : Work) (c : ColIx) (h : HNum) (rb : Robot) : Work :=
  ((w.setMoving h).joinNew c rb .holding h).replaceMoving c h

/-- The state of a record as an answer gives it; FREE is 0. -/
def State.stateByte (s : State) (h : HNum) : Byte :=
  match s.hand h with
  | some r => r.state.code
  | none => 0

/-- RELEASE fits all four operations. The answer's state is that after the reversal; a re-placement that R32 makes
at once after a late RELEASE comes after it. -/
def applyRelease (s : State) (_r : Region) (rb : Robot) (h : HNum) (x : Handover) (m : Matched) :
    Option (Work × List Byte) :=
  let c := m.column
  match m.op, m.grant with
  | .deposit, some _ =>
    let w := s.begin.rebook h
    some (w.endGrant m, [byte h.val, w.st.stateByte h])
  | .deposit, none =>
    let w := s.begin.rebook h
    some ((w.replaceBooked c h).handOccupancy, [byte h.val, w.st.stateByte h])
  | .lift, _ =>
    let w := s.begin.putBack h
    some (w.endGrant m, [byte h.val, w.st.stateByte h])
  | .shift, _ =>
    let w := (s.begin.putBack h).handOccupancy
    some (w.endGrant m, [byte h.val, w.st.stateByte h])
  | .holding, some g =>
    let w := (s.begin.releaseHolding c h x g.claim).handOccupancy
    some (w.endGrant m, [byte h.val, w.st.stateByte h])
  | .holding, none =>
    let w := s.begin.lateReleaseHolding c h rb
    some (w.handOccupancy, [byte h.val, HandState.moving.code])

/-- LANDED (R81, R82, R88). -/
def execLanded (p : Port) (s : State) : Host.Outcome State Fault Refusal :=
  .next (s.takeRequest .landed p (regionOwner p (reportOwner applyLanded)))

/-- LIFTED (R83 to R85, R88). -/
def execLifted (p : Port) (s : State) : Host.Outcome State Fault Refusal :=
  .next (s.takeRequest .lifted p (regionOwner p (reportOwner applyLifted)))

/-- RELEASE (R86, R89). -/
def execRelease (p : Port) (s : State) : Host.Outcome State Fault Refusal :=
  .next (s.takeRequest .release p (regionOwner p (reportOwner applyRelease)))

end Sys2Proof.Machine
end

