-- ==== Sys2Proof/Machine/Amend.lean ====
section
/-! DEFINITION. AMEND: the re-inventory of a column (R116 to R120). -/
namespace Sys2Proof.Machine

/-- An entry of an AMEND after decoding and clamping (Table 7-5). -/
structure AmendEntry where
  bin : BinNo
  dest : Region
  urgency : Nat
  heading : Heading
  dueIn : Nat
  budget : Nat
  deriving DecidableEq, Repr

/-- An entry's ten bytes; none when a field is refused BAD_FIELD. The supervisor sends LOW-FIRST and interchange
headings (R13, R14). -/
def decodeEntry (bs : List Byte) : Option AmendEntry :=
  match bs with
  | [b0, b1, b2, dst, urg, hd, d0, d1, g0, g1] =>
    match Byte.below 4 dst, Byte.below 4 hd with
    | some dest, some heading =>
      let bin := get24 .lowFirst b0 b1 b2
      if bin = 0 then none
      else some {
        bin := bin
        dest := dest
        urgency := clamp 1 7 urg.toNat
        heading := heading
        dueIn := clampDueIn (get16 .lowFirst d0 d1).toNat
        budget := clamp 0 3600 (get16 .lowFirst g0 g1).toNat }
    | _, _ => none
  | _ => none

/-- The entries of a body, bottom entry first: the position of the first refused entry, or the list (R116, test 3). -/
def decodeEntries : Nat → Nat → List Byte → Except Nat (List AmendEntry)
  | 0, _, _ => .ok []
  | n + 1, pos, bs =>
    match decodeEntry (bs.take 10) with
    | none => .error pos
    | some e =>
      match decodeEntries n (pos + 1) (bs.drop 10) with
      | .error p => .error p
      | .ok es => .ok (e :: es)

/-- The record in use of this column that holds a bin: one whose column field names the column (R117). -/
def State.ownHolder (s : State) (c : ColIx) (bin : BinNo) : Option HNum :=
  match s.binHolder bin with
  | some h =>
    match s.hand h with
    | some r => if r.column = some c then some h else none
    | none => none
  | none => none

/-- The record in use that holds a bin and is not a record of this column (R117, test 2). -/
def State.otherHolder (s : State) (c : ColIx) (bin : BinNo) : Option HNum :=
  match s.binHolder bin with
  | some h =>
    match s.hand h with
    | some r => if r.column = some c then none else some h
    | none => none
  | none => none

/-- The position of the first entry whose destination is the region origin of the record that holds its bin (R116,
test 4). -/
def State.selfHanded (s : State) (c : ColIx) (es : List AmendEntry) : Option Nat :=
  es.findIdx? fun e =>
    match s.ownHolder c e.bin with
    | some h =>
      match s.hand h with
      | some r => r.origin == .region e.dest
      | none => false
    | none => false

/-- The position of the second appearance of a bin listed twice, the first such position. -/
def repeatedAt (es : List AmendEntry) : Option Nat :=
  (List.range es.length).find? fun i =>
    match es[i]? with
    | some e => (es.take i).any fun x => x.bin == e.bin
    | none => false

/-- The first entry whose bin a record of another column holds: its position and that record. -/
def State.heldElsewhere (s : State) (c : ColIx) (es : List AmendEntry) : Option (Nat × HNum) :=
  (List.range es.length).findSome? fun i =>
    match es[i]? with
    | some e => (s.otherHolder c e.bin).map fun h => (i, h)
    | none => none

/-- The data of a DUPLICATE refusal, if there is one; which of the two tests comes first is free (entry 11). -/
def State.amendDuplicate (s : State) (c : ColIx) (es : List AmendEntry) : Option (List Byte) :=
  let twice := (repeatedAt es).map fun i => [byte i, absentByte]
  let held := (s.heldElsewhere c es).map fun x => [byte x.1, byte x.2.val]
  if Config.amendRepeatsFirst then twice.or held else held.or twice

/-- A record's bin is in the list. -/
def State.isListed (s : State) (es : List AmendEntry) (h : HNum) : Bool :=
  match s.hand h with
  | some r => es.any fun e => e.bin == r.bin
  | none => false

/-- The stack records that the AMEND ends. -/
def State.unlisted (s : State) (c : ColIx) (es : List AmendEntry) : List HNum :=
  (s.col c).stack.filter fun h => !s.isListed es h

/-- The inbound DOUBT records of the column's own. -/
def State.inboundDoubts (s : State) (c : ColIx) : List HNum :=
  (s.col c).inbound.filter fun h =>
    match s.hand h with
    | some r => r.state == .doubt && r.column == some c
    | none => false

/-- The inbound entries that would remain: own DOUBT records not listed, and DOUBT records of other columns from a
SHIFT whose target is this column (R117, test 4). -/
def State.remaining (s : State) (c : ColIx) (es : List AmendEntry) : Nat :=
  ((s.inboundDoubts c).filter fun h => !s.isListed es h).length +
    (HNum.all.filter fun h =>
      match s.hand h with
      | some r => r.state == .doubt && r.target == some c && r.column != some c
      | none => false).length

/-- How many entries need a new record. -/
def State.needed (s : State) (c : ColIx) (es : List AmendEntry) : Nat :=
  (es.filter fun e => (s.ownHolder c e.bin).isNone).length

/-- How many records are available: the FREE ones, and those the AMEND ends when none waits for its notice (R117,
test 3). -/
def State.available (s : State) (c : ColIx) (es : List AmendEntry) : Nat :=
  s.freeCount + if s.level .withdrawn = 0 then (s.unlisted c es).length else 0

/-- A record restated by its entry (R103, R118): its number, bin, origin and follower are kept. -/
def Handover.restated (r : Handover) (c : ColIx) (now : Seconds) (e : AmendEntry) : Handover :=
  { r with
    state := .stored
    dest := e.dest
    urgency := e.urgency
    heading := e.heading
    due := dueOf now e.dueIn
    budget := budgetOf e.budget
    column := some c
    bookingTimer := none
    holder := none
    doubt := none }

/-- A record made for an entry whose bin the part did not know (R120, step 1). -/
def AmendEntry.newRecord (e : AmendEntry) (c : ColIx) (now : Seconds) : Handover where
  state := .stored
  bin := e.bin
  origin := .ps
  dest := e.dest
  urgency := e.urgency
  due := dueOf now e.dueIn
  heading := e.heading
  column := some c
  target := none
  bookingTimer := none
  holder := none
  doubt := none
  budget := budgetOf e.budget
  closing := none
  follower := none

/-- One stack record under the list: restated when its bin is listed, REMOVED when it is not; a target held is
dropped in either case (R118). -/
def Work.amendStack (w : Work) (c : ColIx) (es : List AmendEntry) (h : HNum) : Work :=
  match w.st.hand h with
  | none => w
  | some r =>
    let w := w.dropTarget h
    match es.find? fun e => e.bin == r.bin with
    | some e => w.up fun s => s.modHand h fun r => r.restated c s.clock e
    | none =>
      let w := (w.up (·.modCol c fun k => { k with stack := k.stack.filter (· != h) })).startAll
      w.close h .removed (RegionSet.single r.dest) (.withdrawn h r.bin withdrawnRemoved)

/-- A restated record's follower becomes a LIFT claim at the column, or is dismissed when the destination changed
(R119). -/
def Work.amendFollower (w : Work) (c : ColIx) (h : HNum) : Work :=
  match w.st.hand h with
  | none => w
  | some r =>
    match r.follower with
    | none => w
    | some f =>
      let w := w.up (·.setHand h (some { r with follower := none }))
      if f.robot.port = r.dest then
        w.join c { robot := f.robot, kind := .lift, handover := h, stamp := f.stamp, blocked := false }
      else w.up (·.dismiss h f.robot dismissedRestated)

/-- An inbound DOUBT record of the column under the list (R119): restated, to stand in the stack where the list puts
it, or released as the RELEASE of its operation would release it. The new HOLDING claim of a doubted holding landing may
be its robot's second (entry 26). -/
def Work.amendInbound (w : Work) (c : ColIx) (es : List AmendEntry) (h : HNum) : Work :=
  match w.st.hand h with
  | none => w
  | some r =>
    match es.find? fun e => e.bin == r.bin with
    | some e =>
      let w := w.up fun s => s.modCol c fun k => { k with inbound := k.inbound.filter (· != h) }
      (w.up fun s => s.modHand h fun r => r.restated c s.clock e).amendFollower c h
    | none =>
      match r.doubt, r.holder with
      | some d, holder =>
        if d.op = .holding then
          match holder with
          | some rb => (w.setMoving h).joinNew c rb .holding h
          | none => w.setMoving h
        else (w.rebook h).up (·.post r.origin (.moved h))
      | none, _ => w

/-- Each entry whose bin has no record of this column is given the lowest FREE record, in list order (R120, step 1). -/
def State.amendCreate (s : State) (c : ColIx) (e : AmendEntry) : State :=
  match s.ownHolder c e.bin with
  | some _ => s
  | none =>
    match s.lowestFree with
    | some h => s.setHand h (some (e.newRecord c s.clock))
    | none => s

/-- The records of the list, bottom to top. -/
def State.listStack (s : State) (c : ColIx) (es : List AmendEntry) : List HNum :=
  es.filterMap fun e => s.ownHolder c e.bin

/-- READY is posted to the destination of a record (R120, step 5). -/
def State.postReady (s : State) (h : HNum) : State :=
  match s.hand h with
  | some r => s.post (.region r.dest) (.ready h)
  | none => s

/-- An accepted AMEND: R118, R119 and the seven steps of R120. Where a step does one thing to each record of a stack, it
goes from bottom to top: the settling of the old stack with its WITHDRAWN items (R118), the charging of the new one with
its WARN items (R103, R120 step 3), and the READY items of step 5 (entry 25). -/
def amendApply (s : State) (c : ColIx) (es : List AmendEntry) : Work :=
  let wasFenced := (s.col c).state == .fenced
  let w := (s.col c).stack.foldl (fun w h => w.amendStack c es h) s.begin
  let w := (s.inboundDoubts c).foldl (fun w h => w.amendInbound c es h) w
  let w := es.foldl (fun w e => w.up (·.amendCreate c e)) w
  let stack := w.st.listStack c es
  let w := w.up (·.modCol c fun k => { k with stack := stack, cause := none })
  let w := stack.foldl (fun w h => w.judgeCharging h) w
  let w := w.settleOrOpen c
  let w := if wasFenced then w.up (·.postFence c) else w
  let w := w.up fun s => stack.foldl State.postReady s
  w.handOccupancy.startAll

/-- The tests of R117 in their order, and the AMEND that passes them. The new state in its answer is SETTLING or OPEN,
the state that step 4 of R120 gives the column, although in OFF the selection of step 7 may grant it in the same step
(entry 27). -/
def amendJudged (s : State) (c : ColIx) (es : List AmendEntry) : Reply :=
  let k := s.col c
  if k.state ≠ .unknown ∧ k.state ≠ .fenced then s.refuse .badState [k.state.code]
  else
    match s.amendDuplicate c es with
    | some data => s.refuse .duplicate data
    | none =>
      if s.available c es < s.needed c es then s.refuse .noRecord [byte (s.needed c es), byte (s.available c es)]
      else if k.cfg.depth < es.length + s.remaining c es then
        s.refuse .full [byte es.length, byte (s.remaining c es)]
      else
        let w := amendApply s c es
        let stack := (w.st.col c).stack
        let restated := es.length - s.needed c es
        let doubts := s.inboundDoubts c
        { work := w, result := .ok,
          data := [byte c.val, (w.st.col c).state.code, byte stack.length] ++ stack.map (fun h => byte h.val) ++
            [byte restated, byte (s.needed c es), byte (s.unlisted c es).length,
             byte (doubts.filter fun h => !s.isListed es h).length] }

/-- AMEND at the Column Store: tests 2 to 4 of R116, and then R117. -/
def amendOwner (body : List Byte) (s : State) : Reply :=
  let count := (body.getD 2 0).toNat
  match Byte.below 8 (body.getD 1 0) with
  | none => s.refuse .badField []
  | some c =>
    if (s.col c).cfg.depth < count then s.refuse .badField []
    else
      match decodeEntries count 0 (body.drop 3) with
      | .error i => s.refuse .badField [byte i]
      | .ok es =>
        match s.selfHanded c es with
        | some i => s.refuse .badField [byte i]
        | none => amendJudged s c es

/-- AMEND (R116 to R120). -/
def execAmend (p : Port) (s : State) : Host.Outcome State Fault Refusal :=
  .next (s.takeRequest .amend p amendOwner)

end Sys2Proof.Machine
end

