-- ==== Sys2Proof/Machine/Queries.lean ====
section
/-! DEFINITION. The four QUERY requests and CLEAR ERRORS (R35, R53, R95, R146, R147, R160). -/
namespace Sys2Proof.Machine

/-! ### Items of an answer (R148) -/

/-- An item that may be absent: all ones in its size. -/
def optByte {α : Type} (f : α → Byte) : Option α → Byte
  | some x => f x
  | none => absentByte

def optNat16 (o : FieldOrder) : Option Nat → List Byte
  | some n => putNat16 o n
  | none => [absentByte, absentByte]

/-- A set of region ports as a byte (Table 9-10). -/
def setByte (s : RegionSet) : Byte := s.setWidth 8

/-! ### QUERY HANDOVER (R53, R95, Table 3-5) -/

/-- A record's claim: in a wait list with its place there, or in a grant slot. -/
inductive ClaimPlace where
  | waiting (c : ColIx) (place : Nat) (cl : Claim)
  | granted (c : ColIx) (g : Grant)
  deriving DecidableEq, Repr

def State.claimPlace (s : State) (h : HNum) : Option ClaimPlace :=
  ColIx.all.findSome? fun c =>
    let k := s.col c
    match k.grant with
    | some g => if g.claim.handover = h then some (.granted c g) else waitPlace c k
    | none => waitPlace c k
where
  waitPlace (c : ColIx) (k : Column) : Option ClaimPlace :=
    (k.waitList.find? fun cl => cl.handover == h).map fun cl =>
      .waiting c (k.waitList.findIdx fun x => x.handover == h) cl

/-- Items 25 to 35 for a claim. -/
def State.claimItems (s : State) (f : PortConfig) : ClaimPlace → List Byte
  | .waiting c place cl =>
    [1, byte cl.robot.port.val, cl.robot.number, cl.kind.code, if cl.blocked then 1 else 0, f.columnByte (some c),
     byte place, absentByte, absentByte, absentByte, absentByte, absentByte]
  | .granted c g =>
    let target : Option ColIx :=
      match g.op with
      | .shift k => (s.hand k).bind (·.target)
      | .deposit | .lift | .holding => none
    [1, byte g.claim.robot.port.val, g.claim.robot.number, g.claim.kind.code, 2, f.columnByte (some c), absentByte,
     g.op.kind.code, f.columnByte target, flagCode g.noticeSent] ++ optNat16 f.order g.timer

/-- Items 25 to 35 for a follower: its port and robot, the rest all ones. -/
def followerItems (x : Follower) : List Byte :=
  [2, byte x.robot.port.val, x.robot.number] ++ List.replicate 9 absentByte

/-- Items 25 to 35: the follower, or else the claim, or neither (R95). DESIGN CHOICE (entry 30): a MOVING or LANDING
record that has a follower beside its HOLDING claim has the follower given; R95 sets the follower against the dig grant
alone. -/
def State.relationItems (s : State) (f : PortConfig) (h : HNum) (r : Handover) : List Byte :=
  match r.follower, s.claimPlace h with
  | some y, _ => followerItems y
  | none, some x => s.claimItems f x
  | none, none => 0 :: List.replicate 11 absentByte

/-- Items 1 to 24. -/
def State.recordItems (s : State) (f : PortConfig) (h : HNum) (r : Handover) : List Byte :=
  [r.state.code, byte h.val] ++ put24 f.order r.bin ++
  [r.cls.code, portCode r.origin, byte r.dest.val, byte r.urgency, r.due.code] ++
  (match r.due with
   | .pending t => put16 f.order (t - s.clock)
   | .passed | .unknown => [absentByte, absentByte]) ++
  [f.headingByte r.heading, f.columnByte r.column, f.columnByte r.target] ++
  optNat16 f.order r.bookingTimer ++
  [optByte (fun x => byte x.port.val) r.holder, optByte Robot.number r.holder,
   optByte (fun d => d.op.code) r.doubt, optByte (fun d => byte d.robot.port.val) r.doubt,
   optByte (fun d => d.robot.number) r.doubt] ++
  putNat16 f.order (r.liveBudget s.clock) ++
  (match r.budget.bind (·.since) with
   | some t => put16 f.order t
   | none => [absentByte, absentByte]) ++
  [optByte (fun b => flagCode b.warned) r.budget, optByte (fun b => flagCode b.expired) r.budget,
   optByte (fun x => x.reason.code) r.closing, optByte (fun x => setByte x.waiting) r.closing]

/-- The answer data of a record: 42 bytes, or the state byte alone when it is FREE (R53). -/
def State.handoverData (s : State) (f : PortConfig) (h : HNum) : List Byte :=
  match s.hand h with
  | none => [0]
  | some r => s.recordItems f h r ++ s.relationItems f h r

/-- The lowest-numbered CLOSING record that holds a bin (R53). -/
def State.closingHolder (s : State) (bin : BinNo) : Option HNum :=
  HNum.all.find? fun h =>
    match s.hand h with
    | some r => r.state == .closing && r.bin == bin
    | none => false

/-- QUERY HANDOVER (R53). -/
def queryHandoverOwner (p : Port) (body : List Byte) (s : State) : Reply :=
  let f := s.view p
  let v := get24 f.order (body.getD 2 0) (body.getD 3 0) (body.getD 4 0)
  let selector := body.getD 1 0
  if selector = 0 then
    if h : v.toNat < 32 then s.refuse .ok (s.handoverData f ⟨v.toNat, h⟩) else s.refuse .badField []
  else if selector = 1 then
    if v = 0 then s.refuse .badField []
    else
      match s.binHolder v, s.closingHolder v with
      | some h, _ => s.refuse .ok (s.handoverData f h)
      | none, some h => s.refuse .ok (s.handoverData f h)
      | none, none => s.refuse .stale []
  else s.refuse .badField []

/-! ### QUERY COLUMN (R35) -/

/-- A column's configuration as an answer gives it: Table 1-2 in order; the reach set is not translated. -/
def ColumnConfig.bytes (g : ColumnConfig) : List Byte :=
  [flagCode g.enabled, g.cls.code, byte g.depth, setByte g.reach, g.gaugeMode.code, flagCode g.rise, flagCode g.fall]

/-- An entry of a stack or inbound set: handover number, bin number and record state. -/
def State.entryBytes (s : State) (o : FieldOrder) (h : HNum) : List Byte :=
  match s.hand h with
  | some r => byte h.val :: put24 o r.bin ++ [r.state.code]
  | none => [byte h.val, absentByte, absentByte, absentByte, 0]

/-- The answer data of QUERY COLUMN, in the order of R35. -/
def State.columnData (s : State) (f : PortConfig) (c : ColIx) : List Byte :=
  let k := s.col c
  [f.columnByte (some c), k.state.code, optByte FenceCause.code k.cause, flagCode k.fencePending] ++ k.cfg.bytes ++
  byte k.stack.length :: k.stack.flatMap (s.entryBytes f.order) ++
  byte k.inbound.length :: k.inbound.flatMap (s.entryBytes f.order) ++
  [byte k.freeRoom, byte k.waitList.length, byte k.regionClaims, byte k.reported.toNat]

/-- QUERY COLUMN (R35); the column number is read in the asking port's frame (R12). -/
def queryColumnOwner (p : Port) (body : List Byte) (s : State) : Reply :=
  let f := s.view p
  match f.fromLocal (body.getD 1 0).toNat with
  | none => s.refuse .badField []
  | some c => s.refuse .ok (s.columnData f c)

/-! ### QUERY STATUS (R146) -/

def Setpoint.bytes (p : Setpoint) : List Byte := [byte p.onLevel, byte p.offLevel, flagCode p.on, p.forcing.code]

/-- The six values of CONFIGURE LIMITS (R145). -/
def Limits.bytes (o : FieldOrder) (l : Limits) : List Byte :=
  putNat16 o l.booking ++ [byte l.grant, byte l.digReserve] ++ putNat16 o l.warn ++ [byte l.filterSteps, byte l.settleExp]

/-- Mode, hold level and the three gates. -/
def LoadMonitor.gateBytes (l : LoadMonitor) : List Byte :=
  [l.mode.code, byte l.holdLevel, byte l.modeDepositGate, byte l.liftGate, byte l.depositGate]

/-- One bit for each group that holds a capture. -/
def State.capturedByte (s : State) : Byte :=
  ((List.finRange 8).map fun g => if (s.group g).captured.isSome then byte (2 ^ g.val) else 0).foldl (· ||| ·) 0

/-- The eight items of R146 in their order. -/
def State.statusData (s : State) (o : FieldOrder) : List Byte :=
  put16 o s.clock ++ s.load.gateBytes ++ s.load.high.bytes ++ s.load.full.bytes ++
  [byte s.load.highLevel, byte s.load.trendStep, s.load.trend.code] ++
  byte s.occupancy :: s.load.samples.toList.map byte ++
  byte s.inServiceRoom :: s.limits.bytes o ++ [s.capturedByte]

/-- QUERY STATUS (R146). -/
def queryStatusOwner (p : Port) (_body : List Byte) (s : State) : Reply :=
  s.refuse .ok (s.statusData (s.view p).order)

/-! ### QUERY ERROR and CLEAR ERRORS (R147, R160, Table 11-2) -/

/-- The nine bytes of a captured record. -/
def Capture.bytes (f : PortConfig) (e : Capture) : List Byte :=
  [e.kind.code, optByte portCode e.port, optByte id e.robot, optByte (fun h => byte h.val) e.handover,
   f.columnByte e.column] ++ put16 f.order e.time ++
  [optByte (fun r => byte r.toNat) e.reading, optByte byte e.stackLen]

def ErrorGroup.flags (g : ErrorGroup) : List Byte := [flagCode g.captured.isSome, flagCode g.multi]

/-- QUERY ERROR (R147). -/
def queryErrorOwner (p : Port) (body : List Byte) (s : State) : Reply :=
  match Byte.below 8 (body.getD 1 0) with
  | none => s.refuse .badField []
  | some g =>
    let x := s.group g
    s.refuse .ok (x.flags ++
      match x.captured with
      | some e => e.bytes (s.view p)
      | none => [])

/-- CLEAR ERRORS empties one group (R160). -/
def clearErrorsOwner (body : List Byte) (s : State) : Reply :=
  match Byte.below 8 (body.getD 1 0) with
  | none => s.refuse .badField []
  | some g =>
    (s.modGroup g fun _ => { captured := none, multi := false }).refuse .ok (byte g.val :: (s.group g).flags)

/-- QUERY HANDOVER (R53, R95). -/
def execQueryHandover (p : Port) (s : State) : Host.Outcome State Fault Refusal :=
  .next (s.takeRequest .queryHandover p (queryHandoverOwner p))

/-- QUERY COLUMN (R35). -/
def execQueryColumn (p : Port) (s : State) : Host.Outcome State Fault Refusal :=
  .next (s.takeRequest .queryColumn p (queryColumnOwner p))

/-- QUERY STATUS (R146). -/
def execQueryStatus (p : Port) (s : State) : Host.Outcome State Fault Refusal :=
  .next (s.takeRequest .queryStatus p (queryStatusOwner p))

/-- QUERY ERROR (R147). -/
def execQueryError (p : Port) (s : State) : Host.Outcome State Fault Refusal :=
  .next (s.takeRequest .queryError p (queryErrorOwner p))

/-- CLEAR ERRORS (R160). -/
def execClearErrors (p : Port) (s : State) : Host.Outcome State Fault Refusal :=
  .next (s.takeRequest .clearErrors p clearErrorsOwner)

end Sys2Proof.Machine
end

