-- ==== Sys2Proof/Machine/Configure.lean ====
section
/-! DEFINITION. The configuration requests, SET MODE and FORCE (R2 to R8, R126, R129, R131, R145, R151). -/
namespace Sys2Proof.Machine

/-! ### CONFIGURE COLUMN (R2 to R6, R33) -/

/-- The configuration a body carries after its column, the depth clamped; none when a flag or code field names no
value (R2, steps 2 and 3). -/
def decodeColumnConfig (body : List Byte) : Option ColumnConfig :=
  match body with
  | [_, _, en, cls, depth, reach, gauge, rise, fall] =>
    match flagOf en, binClassOf cls, reachOf reach, gaugeModeOf gauge, flagOf rise, flagOf fall with
    | some en, some cls, some reach, some gauge, some rise, some fall =>
      some { enabled := en, cls := cls, depth := clamp 2 6 depth.toNat, reach := reach, gaugeMode := gauge,
             rise := rise, fall := fall }
    | _, _, _, _, _, _ => none
  | _ => none

/-- The port of the granted or doubted robot of a SHIFT, for a record that is shifted or doubted (R5). -/
def State.shiftPort (s : State) (h : HNum) (r : Handover) : Option Region :=
  match r.state, r.doubt with
  | .doubt, some d => if d.op = .shift then some d.robot.port else none
  | .shifting, _ =>
    ColIx.all.findSome? fun c =>
      match (s.col c).grant with
      | some g => if g.op = .shift h then some g.claim.robot.port else none
      | none => none
  | _, _ => none

/-- A region port that a record of the stack or inbound set needs: its origin, its destination, and, for an inbound
record, its holder's port (R5). -/
def Handover.needs (r : Handover) (inbound : Bool) (p : Region) : Bool :=
  r.origin == .region p || r.dest == p ||
    inbound && (match r.holder with | some rb => rb.port == p | none => false)

/-- A change of the reach set that removes the ports for which `gone` holds fails its condition (R5). -/
def State.reachHeld (s : State) (c : ColIx) (gone : Region → Bool) : Bool :=
  let k := s.col c
  let needed (inbound : Bool) (h : HNum) : Bool :=
    match s.hand h with
    | some r => Region.all.any fun p => gone p && r.needs inbound p
    | none => false
  k.state == .granted || !k.waitList.isEmpty || k.stack.any (needed false) || k.inbound.any (needed true) ||
    HNum.all.any fun h =>
      match s.hand h with
      | some r => r.target == some c && (match s.shiftPort h r with | some p => gone p | none => false)
      | none => false

/-- Every change of a new configuration meets its condition (R3 to R6). -/
def State.changesAllowed (s : State) (c : ColIx) (new : ColumnConfig) : Bool :=
  let k := s.col c
  let old := k.cfg
  (new.enabled || !old.enabled ||
    (k.state == .opened || k.state == .fenced) && k.height == 0 && k.waitList.isEmpty) &&
  (new.depth == old.depth || decide (k.height ≤ new.depth)) &&
  (new.cls == old.cls || k.height == 0) &&
  (new.reach == old.reach ||
    !s.reachHeld c fun p => RegionSet.has old.reach p && !RegionSet.has new.reach p) &&
  (new.gaugeMode == old.gaugeMode || k.state != .granted && k.state != .settling)

/-- The column state after a change of the enabled field (R3, R33). -/
def Column.reconfigured (k : Column) (new : ColumnConfig) : Column :=
  if k.cfg.enabled && !new.enabled then
    { k with cfg := new, state := .disabled, cause := none, fencePending := false }
  else if !k.cfg.enabled && new.enabled then { k with cfg := new, state := .unknown }
  else { k with cfg := new }

/-- Every change is applied at once: a raised depth and an added port start selection in every OPEN column (R4, R76),
and an OPEN column changed into CHECK while its reading is 7 is fenced (R6). -/
def configureColumn (s : State) (c : ColIx) (new : ColumnConfig) : Work :=
  let old := (s.col c).cfg
  let w := s.begin.up (·.modCol c fun k => k.reconfigured new)
  let w := if old.depth < new.depth then w.startAll else w
  let w := if Region.all.any fun p => RegionSet.has new.reach p && !RegionSet.has old.reach p then w.startAll else w
  let w := if old.enabled != new.enabled then w.handOccupancy else w
  let k := w.st.col c
  if old.gaugeMode != .check && new.gaugeMode == .check && k.state == .opened && k.reading == 7 then
    w.enterFenced c .gaugeFault none
  else w

/-- CONFIGURE COLUMN at the Column Store (R2). The answer carries the configuration as it stands after the request;
for a number that names no column its seven bytes are free values (entry 12). -/
def configureColumnOwner (body : List Byte) (s : State) : Reply :=
  match Byte.below 8 (body.getD 1 0) with
  | none => s.refuse .badField Config.configOfNoColumn.toList
  | some c =>
    match decodeColumnConfig body with
    | none => s.refuse .badField (s.col c).cfg.bytes
    | some new =>
      if s.changesAllowed c new then
        { work := configureColumn s c new, result := .ok, data := new.bytes }
      else s.refuse .badState (s.col c).cfg.bytes

/-! ### CONFIGURE PORT (R8) -/

def PortConfig.bytes (f : PortConfig) : List Byte :=
  [flagCode f.enabled, byte f.rotation.val, flagCode f.mirror, f.order.code]

/-- The configuration a body carries after its port, the rotation clamped (R8, steps 2 and 3). -/
def decodePortConfig (body : List Byte) : Option PortConfig :=
  match body with
  | [_, _, en, rot, mirror, order] =>
    match flagOf en, flagOf mirror, fieldOrderOf order with
    | some en, some mirror, some order =>
      some { enabled := en, rotation := Fin.ofNat 4 (clamp 0 3 rot.toNat), mirror := mirror, order := order }
    | _, _, _ => none
  | _ => none

/-- The port has a claim in the part, or is the origin or destination of a record that is not FREE (R8, step 4). -/
def State.portBusy (s : State) (r : Region) : Bool :=
  (ColIx.all.any fun c => (s.col c).claims.any fun cl => cl.robot.port == r) ||
  HNum.all.any fun h =>
    match s.hand h with
    | some x => x.origin == .region r || x.dest == r
    | none => false

def State.setPort (s : State) (r : Region) (f : PortConfig) : State :=
  { s with ports := s.ports.set r.val f r.isLt }

/-- CONFIGURE PORT (R8); for a port field that names no region port the four bytes of the configuration carried are
free values (entry 12). -/
def configurePortOwner (body : List Byte) (s : State) : Reply :=
  match Byte.below 4 (body.getD 1 0) with
  | none => s.refuse .badField Config.configOfNoPort.toList
  | some r =>
    match decodePortConfig body with
    | none => s.refuse .badField (s.ports[r]).bytes
    | some new =>
      if new ≠ s.ports[r] ∧ s.portBusy r = true then s.refuse .badState (s.ports[r]).bytes
      else (s.setPort r new).refuse .ok new.bytes

/-! ### CONFIGURE LIMITS (R145) -/

/-- The six values of a body, clamped by Table 9-4. -/
def decodeLimits (o : FieldOrder) (body : List Byte) : Option Limits :=
  match body with
  | [_, b0, b1, g, d, w0, w1, f, e] =>
    some {
      booking := clamp 30 900 (get16 o b0 b1).toNat
      grant := clamp 10 120 g.toNat
      digReserve := clamp 0 8 d.toNat
      warn := clamp 10 600 (get16 o w0 w1).toNat
      filterSteps := clamp 1 8 f.toNat
      settleExp := clamp 1 4 e.toNat }
  | _ => none

def State.setLimits (s : State) (l : Limits) : State := { s with limits := l }

/-- CONFIGURE LIMITS: the clamped values replace the stored ones, all six together. -/
def configureLimitsOwner (body : List Byte) (s : State) : Reply :=
  match decodeLimits .lowFirst body with
  | none => s.refuse .badField []
  | some l => (s.setLimits l).refuse .ok (l.bytes .lowFirst)

/-! ### CONFIGURE LOAD (R129) -/

/-- A setpoint takes clamped levels: the on-level to 1 to 48, the off-level to 48 and then below the on-level. -/
def Setpoint.withLevels (p : Setpoint) (on off : Byte) : Setpoint :=
  let hi := clamp 1 48 on.toNat
  let lo := clamp 0 48 off.toNat
  { p with onLevel := hi, offLevel := if hi ≤ lo then hi - 1 else lo }

/-- The levels, high level and trend step of a body, clamped, in a Load Monitor. -/
def decodeLoad (l : LoadMonitor) (body : List Byte) : Option LoadMonitor :=
  match body with
  | [_, hOn, hOff, fOn, fOff, highLevel, step] =>
    some { l with
      high := l.high.withLevels hOn hOff
      full := l.full.withLevels fOn fOff
      highLevel := clamp 2 7 highLevel.toNat
      trendStep := clamp 1 8 step.toNat }
  | _ => none

/-- CONFIGURE LOAD: AUTOMATIC setpoints are judged on the present occupancy with their new levels, and the trend on
the present samples with the new step. The answer is from before the selections that the step starts (entry 27). -/
def configureLoadOwner (body : List Byte) (s : State) : Reply :=
  match decodeLoad s.load body with
  | none => s.refuse .badField []
  | some l =>
    let l := (l.judge s.occupancy).judgeTrend
    { work := s.begin.setLoad l, result := .ok,
      data := [byte l.high.onLevel, byte l.high.offLevel, byte l.full.onLevel, byte l.full.offLevel, byte l.highLevel,
        byte l.trendStep, flagCode l.high.on, l.high.forcing.code, flagCode l.full.on, l.full.forcing.code,
        l.trend.code] }

/-! ### CONFIGURE NOTICES (R151, R152) -/

/-- The kind whose code is given. -/
def noticeKindOf (b : Byte) : Option NoticeKind :=
  ([.reset, .grant, .ready, .moved, .dismissed, .withdrawn, .warn, .expired, .delivered, .handedBack, .fence, .load,
    .gauge, .error] : List NoticeKind)[b.toNat]?

def State.setLevel (s : State) (k : NoticeKind) (n : Nat) : State :=
  { s with levels := s.levels.set k.ix.val n k.ix.isLt }

/-- Every item of a kind leaves every pending set, with the effect of its sending (R152). -/
def State.removeKind (s : State) (k : NoticeKind) : State :=
  Port.all.foldl (fun s p => s.removeItems p fun n => n.kind == k) s

/-- How many items of a kind are pending on all ports. -/
def State.pendingOf (s : State) (k : NoticeKind) : Nat :=
  (Port.all.map fun p => ((s.pendingSet p).filter fun n => n.kind == k).length).sum

/-- CONFIGURE NOTICES: RESET keeps its level 7; a level of 0 removes the kind's items. -/
def configureNoticesOwner (body : List Byte) (s : State) : Reply :=
  match noticeKindOf (body.getD 1 0) with
  | none => s.refuse .badField []
  | some .reset => s.refuse .ok [0, 7, 0]
  | some k =>
    let level := clamp 0 7 (body.getD 2 0).toNat
    let set := s.setLevel k level
    if level = 0 then (set.removeKind k).refuse .ok [byte k.ix.val, 0, byte (s.pendingOf k)]
    else set.refuse .ok [byte k.ix.val, byte level, 0]

/-! ### SET MODE and FORCE (R126, R131) -/

/-- SET MODE: mode and hold level are replaced, and the gates follow. The answer gives the effective deposit gate of the
new mode and the setpoints as they stand before the selections that the step starts (entry 27). -/
def setModeOwner (body : List Byte) (s : State) : Reply :=
  match modeOf (body.getD 1 0) with
  | none => s.refuse .badField []
  | some m =>
    let l := { s.load with mode := m, holdLevel := clamp 2 7 (body.getD 2 0).toNat }
    { work := s.begin.setLoad l, result := .ok, data := l.gateBytes }

/-- A setpoint under one action of FORCE: ON, OFF, or AUTOMATIC judged on the present occupancy. -/
def Setpoint.forced (p : Setpoint) (occ : Nat) (action : Byte) : Option Setpoint :=
  if action = 0 then some { p with forcing := .forcedOn, on := true }
  else if action = 1 then some { p with forcing := .forcedOff, on := false }
  else if action = 2 then some (Setpoint.judge occ { p with forcing := .automatic })
  else none

/-- FORCE: the named setpoint is forced or returned to AUTOMATIC; the answer is from before the selections that the step
starts (entry 27). -/
def forceOwner (body : List Byte) (s : State) : Reply :=
  let action := body.getD 2 0
  let done (p : Setpoint) (l : LoadMonitor) : Reply :=
    { work := s.begin.setLoad l, result := .ok, data := [flagCode p.on, p.forcing.code, byte l.depositGate] }
  if body.getD 1 0 = 0 then
    match s.load.high.forced s.occupancy action with
    | some p => done p { s.load with high := p }
    | none => s.refuse .badField []
  else if body.getD 1 0 = 1 then
    match s.load.full.forced s.occupancy action with
    | some p => done p { s.load with full := p }
    | none => s.refuse .badField []
  else s.refuse .badField []

/-- CONFIGURE COLUMN (R2 to R6, R33). -/
def execConfigureColumn (p : Port) (s : State) : Host.Outcome State Fault Refusal :=
  .next (s.takeRequest .configureColumn p configureColumnOwner)

/-- CONFIGURE PORT (R8). -/
def execConfigurePort (p : Port) (s : State) : Host.Outcome State Fault Refusal :=
  .next (s.takeRequest .configurePort p configurePortOwner)

/-- CONFIGURE LIMITS (R145). -/
def execConfigureLimits (p : Port) (s : State) : Host.Outcome State Fault Refusal :=
  .next (s.takeRequest .configureLimits p configureLimitsOwner)

/-- CONFIGURE LOAD (R129). -/
def execConfigureLoad (p : Port) (s : State) : Host.Outcome State Fault Refusal :=
  .next (s.takeRequest .configureLoad p configureLoadOwner)

/-- CONFIGURE NOTICES (R151, R152). -/
def execConfigureNotices (p : Port) (s : State) : Host.Outcome State Fault Refusal :=
  .next (s.takeRequest .configureNotices p configureNoticesOwner)

/-- SET MODE (R126). -/
def execSetMode (p : Port) (s : State) : Host.Outcome State Fault Refusal :=
  .next (s.takeRequest .setMode p setModeOwner)

/-- FORCE (R131). -/
def execForce (p : Port) (s : State) : Host.Outcome State Fault Refusal :=
  .next (s.takeRequest .force p forceOwner)

end Sys2Proof.Machine
end

