-- ==== Sys2Proof/Machine/Signals.lean ====
section
/-! DEFINITION. Power, RESET, and the steps of the link units: frames in, answers and notices out. -/
namespace Sys2Proof.Machine

/-- POWER ON: every block at its power-on value; the queue of commands is the model's and stays (R34, R54, R55, R94,
R123, R124, R136, R151, R156, R158). The RESET pin is taken as released (entry 14). -/
def execPowerOn (s : State) : Host.Outcome State Fault Refusal := .next { State.reset with pending := s.pending }

/-- RESET INPUT: the part returns to its power-on state and RESET is asserted (R34, R136). -/
def execResetInput (s : State) : Host.Outcome State Fault Refusal :=
  .next { State.reset with resetAsserted := true, pending := s.pending }

/-- RESET RELEASE: bytes are taken, TURN and PACE driven, and ticks counted from here on (R55, R136). -/
def execResetRelease (s : State) : Host.Outcome State Fault Refusal := .next { s with resetAsserted := false }

/-- FRAME BEGIN: between frames, the controller presents a byte until it is taken; other than a fill byte with END low
it begins a frame (R137). -/
def execFrameBegin (p : Port) (b : Byte) (endLevel : Bool) (s : State) : Host.Outcome State Fault Refusal :=
  .next (if (s.link p).rx = .betweenFrames then (s.presentByte p b endLevel).getD s else s)

/-- CONTROLLER FRAME: bytes of a controller frame are taken one after another, and the frame is judged at END (R138).
Without END the frame goes on. With the link unit between frames the first of them begins the frame. -/
def execControllerFrame (p : Port) (bytes : List BusByte) (s : State) : Host.Outcome State Fault Refusal :=
  .next (State.takeBytes p bytes s)

/-- TURN FALLS at the edge after the last check byte of the frame in sending (R142). -/
def execTurnFalls (p : Port) (s : State) : Host.Outcome State Fault Refusal :=
  .next <|
    match (s.link p).sending with
    | some x =>
      let t := s.awaitFall p (x.bytes.length + 1)
      if t.fallDue p then t.modLink p LinkUnit.fall else s
    | none => s

/-- SEND ANSWER: at an edge prepared for a turn, TURN rises for the oldest answer, which leaves the queue (R142,
R143). An answer that became ready after the edge was prepared for another item is sent at that edge (entry 29). -/
def execSendAnswer (p : Port) (s : State) : Host.Outcome State Fault Refusal :=
  .next <|
    let t := s.awaitTurn p 2
    match t.mayTurn p, (t.link p).answers with
    | true, a :: rest => t.modLink p fun u => { u.raise (frameBytes answerKind a) with answers := rest }
    | _, _ => s

/-- SEND NOTICE: at an edge prepared for a turn and with no answer waiting, the next valid notice leaves the pending
set, composed and with the effects of its sending; with none left TURN does not rise (R142, R143, R153). A notice that
became ready after the edge was prepared for another item is sent at that edge (entry 29). -/
def execSendNotice (p : Port) (s : State) : Host.Outcome State Fault Refusal :=
  .next <|
    let t := s.awaitTurn p 2
    if t.mayTurn p && (t.link p).answers.isEmpty then
      let items := t.pendingSet p
      match t.nextNotice p items.length items with
      | (none, _) => t.heldEdge p
      | (some n, rest) =>
        let body := t.noticeBody p n
        ((t.modPending p fun _ => rest).noticeGone p n).modLink p (·.raise (frameBytes noticeKindByte body))
    else s

/-- REQUEST OF UNKNOWN KIND: a request whose kind names no request is taken, captured and answered UNKNOWN with the
kind byte (R141, stage 1). -/
def execRequestOfUnknownKind (p : Port) (s : State) : Host.Outcome State Fault Refusal :=
  .next <|
    match s.oldestRequest p with
    | none => s
    | some f =>
      if namesRequest f.kind then s
      else (((s.dropRequest p).captureLink p .unknownKind).refuse .unknown [f.kind]).answer p f


end Sys2Proof.Machine
end

