-- ==== Sys2Proof/Machine/Supervise.lean ====
section
/-! DEFINITION. FENCE, RESTORE and REINITIALIZE (R26, R114, R122). -/
namespace Sys2Proof.Machine

/-- FENCE at the Column Store: the column's state decides (R26). -/
def fenceOwner (body : List Byte) (s : State) : Reply :=
  match Byte.below 8 (body.getD 1 0) with
  | none => s.refuse .badField []
  | some c =>
    match (s.col c).state with
    | .opened | .settling => { work := s.begin.enterFenced c .supervisor none, result := .ok, data := [] }
    | .granted => (s.modCol c fun k => { k with fencePending := true }).refuse .ok []
    | .fenced => s.refuse .ok []
    | .unknown | .disabled => s.refuse .badState []

/-- The lowest DOUBT record whose column field names the column (R114, test 3). -/
def State.doubtAt (s : State) (c : ColIx) : Option HNum :=
  HNum.all.find? fun h =>
    match s.hand h with
    | some r => r.state == .doubt && r.column == some c
    | none => false

/-- The reading equals the stack length. -/
def Column.readingMatches (k : Column) : Bool := k.reading.toNat == k.stack.length

/-- RESTORE at the Column Store: tests 2 to 4 of R114 in their order, and the return to OPEN (R27). The answer gives
state OPEN, from before the selections that the step starts (entry 27). -/
def restoreOwner (body : List Byte) (s : State) : Reply :=
  match Byte.below 8 (body.getD 1 0) with
  | none => s.refuse .badField []
  | some c =>
    let k := s.col c
    if k.state ≠ .fenced then s.refuse .badState [k.state.code]
    else
      match s.doubtAt c with
      | some h => s.refuse .doubt [byte h.val]
      | none =>
        let seen := [byte k.reported.toNat, byte k.stack.length]
        if k.cfg.gaugeMode = .check ∧ k.readingMatches = false then s.refuse .mismatch seen
        else
          let w := s.begin.up fun s => (s.modCol c fun k => { k with state := .opened, cause := none }).postFence c
          { work := w.startAll, result := .ok,
            data := [ColState.opened.code, byte k.stack.length, byte k.reported.toNat] }

/-- A column record under REINITIALIZE: configuration and gauge fields are kept (R34, R122). -/
def Column.reinitialized (k : Column) : Column :=
  { k with
    state := if k.cfg.enabled then .unknown else .disabled
    fencePending := false
    cause := none
    stack := []
    inbound := []
    waitList := []
    grant := none
    settleTimer := none }

/-- The bins, claims, grants and pending items that REINITIALIZE forgets, and the RESET item on every port (R54, R94,
R122, R157). -/
def State.forget (s : State) : State :=
  { s with
    columns := s.columns.map Column.reinitialized
    records := Vector.replicate 32 none
    stampCounter := 0
    pendingSets := Vector.replicate 5 [.reset] }

/-- REINITIALIZE (R122); the occupancy of 0 is handed to the Load Monitor after the sets are emptied (R135). -/
def reinitializeOwner (_body : List Byte) (s : State) : Reply :=
  { work := s.forget.begin.handOccupancy, result := .ok, data := [] }

/-- FENCE (R26). -/
def execFence (p : Port) (s : State) : Host.Outcome State Fault Refusal :=
  .next (s.takeRequest .fence p fenceOwner)

/-- RESTORE (R114). -/
def execRestore (p : Port) (s : State) : Host.Outcome State Fault Refusal :=
  .next (s.takeRequest .restore p restoreOwner)

/-- REINITIALIZE (R122). -/
def execReinitialize (p : Port) (s : State) : Host.Outcome State Fault Refusal :=
  .next (s.takeRequest .reinitialize p reinitializeOwner)

end Sys2Proof.Machine
end

