-- ==== Sys2Proof/Machine/Timers.lean ====
section
/-! DEFINITION. The timed events: ticks, seconds, timeouts, expiries, gauge readings and trend samples. -/
namespace Sys2Proof.Machine

/-! ### The 100 ms tick (R55, R56, R79, R107, R111) -/

/-- A sample of the gauge input and the filter (R107). A count that reaches 0 makes the change of reading due
(entry 5). -/
def Column.sampleGauge (k : Column) (steps : Nat) (x : Reading) : Column :=
  if x ≠ k.candidate then
    { k with candidate := x, filterCount := if x ≠ k.reading then some steps else none }
  else { k with filterCount := k.filterCount.map (· - 1) }

/-- A tick at one column: the filter, the settle timer and a started grant timer. -/
def Column.tick (k : Column) (steps : Nat) (x : Reading) : Column :=
  { k.sampleGauge steps x with
    settleTimer := k.settleTimer.map (· - 1)
    grant := k.grant.map fun g => { g with timer := g.timer.map (· - 1) } }

/-- A tick at the clock: the tenth makes the advance of the seconds count due (R55, entry 5). -/
def State.countTick (s : State) : State :=
  if 9 ≤ s.tickCount then { s with tickCount := 0, advanceDue := true } else { s with tickCount := s.tickCount + 1 }

/-- INTERCHANGE TICK. No tick comes while RESET is asserted (R55), nor before the events are taken that the last
tick or advance made due (entry 5). -/
def State.tick (s : State) (gauges : Vector Reading 8) : State :=
  if s.resetAsserted || s.timeEventDue then s
  else
    { s with columns := Vector.ofFn fun c : Fin 8 => (s.col c).tick s.limits.filterSteps gauges[c] }.countTick

/-! ### The advance of the seconds count (R44, R56, R58) -/

/-- An advance at one record: a due equal to the new count passes, and the booking timer of a BOOKED record falls. -/
def Handover.advance (r : Handover) (now : Seconds) : Handover :=
  { r with
    due := if r.due = .pending now then .passed else r.due
    bookingTimer := if r.state = .booked then r.bookingTimer.map (· - 1) else r.bookingTimer }

/-- A multiple of 10 (R133). -/
def sampleSecond (now : Seconds) : Bool := now.toNat % 10 == 0

/-- SECONDS ADVANCE, which the tenth tick made due (R55, R56). -/
def State.advance (s : State) : State :=
  if s.advanceDue && !s.advanceEventDue then
    let now := s.clock + 1
    { s with
      clock := now
      advanceDue := false
      trendDue := sampleSecond now
      records := s.records.map fun r => r.map (·.advance now) }
  else s

/-! ### Columns: gauge, settle, grant (R25, R87, R109 to R113) -/

/-- A change of reading in CHECK (R25): OPEN is fenced, SETTLING is fenced by a change to 7, and every other state
keeps the reading. -/
def Work.judgeReading (w : Work) (c : ColIx) (new : Reading) : Work :=
  match (w.st.col c).state with
  | .opened => w.enterFenced c (if new = 7 then .gaugeFault else .gaugeUnexpected) none
  | .settling => if new = 7 then w.enterFenced c .gaugeFault none else w
  | .unknown | .granted | .fenced | .disabled => w

/-- A change of reading in WATCH (R110): a rise or a fall that is enabled posts GAUGE to PS while the column is in
service. -/
def Work.reportReading (w : Work) (c : ColIx) (old new : Reading) : Work :=
  let k := w.st.col c
  if k.inService && (if old < new then k.cfg.rise else k.cfg.fall) then w.up (·.post .ps (.gauge c)) else w

/-- GAUGE READING CHANGE: the filter count has reached 0 and the candidate becomes the reading (R107, R109). -/
def State.readingChange (s : State) (c : ColIx) : State :=
  let k := s.col c
  if k.filterCount = some 0 ∧ s.advanceEventDue = false then
    let w := s.begin.up (·.modCol c fun k => { k with reading := k.candidate, filterCount := none })
    let w :=
      match k.cfg.gaugeMode with
      | .off => w
      | .watch => w.reportReading c k.reading k.candidate
      | .check => w.judgeReading c k.candidate
    w.finish
  else s

/-- SETTLE EXPIRY: the settle timer has reached 0 (R24, R111). -/
def State.settleExpiry (s : State) (c : ColIx) : State :=
  let k := s.col c
  if k.settleTimer = some 0 ∧ s.advanceEventDue = false then
    let w := s.begin.up (·.modCol c fun k => { k with settleTimer := none })
    let opened := (w.up (·.modCol c fun k => { k with state := .opened })).start c
    let matching := k.reading.toNat == k.stack.length
    let w :=
      match k.cfg.gaugeMode with
      | .off => opened
      | .watch => if matching then opened else opened.up (·.post .ps (.gauge c))
      | .check =>
        if matching then opened
        else w.enterFenced c (if k.reading = 7 then .gaugeFault else .gaugeMismatch) none
    w.finish
  else s

/-- GRANT TIMEOUT: the grant timer has reached 0; the grant's record goes to DOUBT and the column is fenced (R23,
R87). -/
def State.grantTimeout (s : State) (c : ColIx) : State :=
  match (s.col c).grant with
  | none => s
  | some g =>
    if g.timer = some 0 ∧ s.advanceEventDue = false then
      let h := g.record
      let rb := g.claim.robot
      let w := s.begin.up (·.modCol c fun k => { k with grant := none })
      let w := w.change h fun r => { r with state := .doubt, doubt := some { op := g.op.kind, robot := rb } }
      (w.enterFenced c .grantTimeout (some (rb, h))).finish
    else s

/-! ### Records: booking and exposure (R45, R101, R102) -/

/-- BOOKING EXPIRY: the booking timer has reached 0; the three steps of R45. It comes in any order with the other
events of its advance (R56, R104). -/
def State.bookingExpiry (s : State) (h : HNum) : State :=
  match s.hand h with
  | none => s
  | some r =>
    match r.state, r.bookingTimer, r.column with
    | .booked, some 0, some c =>
      let w := s.begin.leave c fun cl => cl.handover == h
      let w := (w.leaveInbound c h).handOccupancy
      (w.withdraw h withdrawnLimit).finish
    | _, _, _ => s

/-- EXPOSURE WARNING: the warning deadline of a charging record is met (R101). -/
def State.exposureWarning (s : State) (h : HNum) : State :=
  match s.hand h with
  | none => s
  | some r => if r.warningDue s.clock then (s.begin.takeWarning h).finish else s

/-- The budget of a record that expires: 0 is stored, nothing is subtracted (R102). -/
def Budget.expiredNow (b : Budget) : Budget :=
  { b with remaining := 0, expired := true, since := none, expiryAt := none, warnAt := none }

/-- The robot of a DWELL capture: of the holder or the doubted robot (Table 11-1). -/
def Handover.robotNumber (r : Handover) : Option Byte :=
  match r.holder, r.doubt with
  | some rb, _ => some rb.number
  | none, some d => some d.robot.number
  | none, none => none

/-- EXPOSURE EXPIRY: the expiry deadline of a charging record is met (R102). -/
def State.exposureExpiry (s : State) (h : HNum) : State :=
  match s.hand h with
  | none => s
  | some r =>
    if r.expiryDue s.clock then
      let e : Capture := { s.errorNow .expired with
        port := some (.region r.dest), robot := r.robotNumber, handover := some h, column := r.column }
      let w := s.begin.up (·.modHand h fun r => { r with budget := r.budget.map Budget.expiredNow })
      let w := w.raiseUrgency h 7
      (w.up fun s => (s.capture 7 e).postAll [.region r.dest, .ps] (.expired h)).finish
    else s

/-! ### The trend (R133, R134) -/

/-- TREND SAMPLE: the occupancy as it stands at the advance joins the ring, and the trend is judged at once. Of the
events that change occupancy only those of the same advance can come before it, and then it holds the new value
(R133; entry 4). -/
def State.trendSample (s : State) : State :=
  if s.trendDue then
    let w := s.begin.setLoad (s.load.sample s.occupancy).judgeTrend
    { w.finish with trendDue := false }
  else s

/-- INTERCHANGE TICK (R55, R56, R107). -/
def execInterchangeTick (gauges : Vector Reading 8) (s : State) : Host.Outcome State Fault Refusal :=
  .next (s.tick gauges)

/-- GAUGE READING CHANGE (R109 to R113). -/
def execGaugeReadingChange (c : ColIx) (s : State) : Host.Outcome State Fault Refusal := .next (s.readingChange c)

/-- GRANT TIMEOUT (R23, R87). -/
def execGrantTimeout (c : ColIx) (s : State) : Host.Outcome State Fault Refusal := .next (s.grantTimeout c)

/-- SETTLE EXPIRY (R24, R111). -/
def execSettleExpiry (c : ColIx) (s : State) : Host.Outcome State Fault Refusal := .next (s.settleExpiry c)

/-- SECONDS ADVANCE (R55 to R58). -/
def execSecondsAdvance (s : State) : Host.Outcome State Fault Refusal := .next s.advance

/-- BOOKING EXPIRY (R45). -/
def execBookingExpiry (h : HNum) (s : State) : Host.Outcome State Fault Refusal := .next (s.bookingExpiry h)

/-- EXPOSURE WARNING (R101). -/
def execExposureWarning (h : HNum) (s : State) : Host.Outcome State Fault Refusal := .next (s.exposureWarning h)

/-- EXPOSURE EXPIRY (R102). -/
def execExposureExpiry (h : HNum) (s : State) : Host.Outcome State Fault Refusal := .next (s.exposureExpiry h)

/-- TREND SAMPLE (R133). -/
def execTrendSample (s : State) : Host.Outcome State Fault Refusal := .next s.trendSample

end Sys2Proof.Machine
end

