-- ==== Sys2Proof/Machine/Dispatch.lean ====
section
/-! DEFINITION. One arm for each command: its meaning. -/
namespace Sys2Proof.Machine

def exec (i : Instr) (s : State) : Host.Outcome State Fault Refusal :=
  match i with
  | .powerOn => Sys2Proof.Machine.execPowerOn s
  | .resetInput => Sys2Proof.Machine.execResetInput s
  | .resetRelease => Sys2Proof.Machine.execResetRelease s
  | .frameBegin p b e => Sys2Proof.Machine.execFrameBegin p b e s
  | .controllerFrame p bytes => Sys2Proof.Machine.execControllerFrame p bytes s
  | .turnFalls p => Sys2Proof.Machine.execTurnFalls p s
  | .sendAnswer p => Sys2Proof.Machine.execSendAnswer p s
  | .sendNotice p => Sys2Proof.Machine.execSendNotice p s
  | .requestOfUnknownKind p => Sys2Proof.Machine.execRequestOfUnknownKind p s
  | .book p => Sys2Proof.Machine.execBook p s
  | .cancel p => Sys2Proof.Machine.execCancel p s
  | .claim p => Sys2Proof.Machine.execClaim p s
  | .landed p => Sys2Proof.Machine.execLanded p s
  | .lifted p => Sys2Proof.Machine.execLifted p s
  | .release p => Sys2Proof.Machine.execRelease p s
  | .regionRestart p => Sys2Proof.Machine.execRegionRestart p s
  | .queryHandover p => Sys2Proof.Machine.execQueryHandover p s
  | .queryColumn p => Sys2Proof.Machine.execQueryColumn p s
  | .queryStatus p => Sys2Proof.Machine.execQueryStatus p s
  | .queryError p => Sys2Proof.Machine.execQueryError p s
  | .clearErrors p => Sys2Proof.Machine.execClearErrors p s
  | .configureColumn p => Sys2Proof.Machine.execConfigureColumn p s
  | .configurePort p => Sys2Proof.Machine.execConfigurePort p s
  | .configureLimits p => Sys2Proof.Machine.execConfigureLimits p s
  | .configureLoad p => Sys2Proof.Machine.execConfigureLoad p s
  | .configureNotices p => Sys2Proof.Machine.execConfigureNotices p s
  | .setMode p => Sys2Proof.Machine.execSetMode p s
  | .force p => Sys2Proof.Machine.execForce p s
  | .fence p => Sys2Proof.Machine.execFence p s
  | .restore p => Sys2Proof.Machine.execRestore p s
  | .amend p => Sys2Proof.Machine.execAmend p s
  | .reinitialize p => Sys2Proof.Machine.execReinitialize p s
  | .interchangeTick gauges => Sys2Proof.Machine.execInterchangeTick gauges s
  | .gaugeReadingChange c => Sys2Proof.Machine.execGaugeReadingChange c s
  | .grantTimeout c => Sys2Proof.Machine.execGrantTimeout c s
  | .settleExpiry c => Sys2Proof.Machine.execSettleExpiry c s
  | .secondsAdvance => Sys2Proof.Machine.execSecondsAdvance s
  | .bookingExpiry h => Sys2Proof.Machine.execBookingExpiry h s
  | .exposureWarning h => Sys2Proof.Machine.execExposureWarning h s
  | .exposureExpiry h => Sys2Proof.Machine.execExposureExpiry h s
  | .trendSample => Sys2Proof.Machine.execTrendSample s

end Sys2Proof.Machine
end

