-- ==== Sys2Proof/Machine/Step.lean ====
section
/-! DEFINITION. One step: the command at the front of the queue, or one idle LCLK edge. -/
namespace Sys2Proof.Machine

/-- The command at the front of the queue is executed with the queue's rest. On an empty queue nothing is commanded:
one LCLK edge passes on every port (entry 2). -/
def step (s : State) : Host.Outcome State Fault Refusal :=
  match s.pending with
  | [] => .next s.lclkEdge
  | c :: rest => exec c { s with pending := rest }

/-- The command that a word spells at the front of the queue; no word spells one (spec/opcode_table.json gives no
row any bits), so the state is unchanged. -/
def State.withFetchWord (s : State) (nbits w : Nat) : State :=
  match Sys2Proof.decodeTableWord nbits w with
  | some c => { s with pending := c :: s.pending }
  | none => s

end Sys2Proof.Machine
end

