-- ==== Sys2Proof/Safety.lean ====
section
/-! DEFINITION. The terms of the claims: when a request may be taken, and the laws of the device that every step keeps. -/
namespace Sys2Proof.Machine

/-! ### Requests -/

/-- The command that takes a request of kind `k` from port `p`. -/
def RequestKind.command (k : RequestKind) (p : Port) : Instr :=
  match k with
  | .book => .book p
  | .cancel => .cancel p
  | .claim => .claim p
  | .landed => .landed p
  | .lifted => .lifted p
  | .release => .release p
  | .regionRestart => .regionRestart p
  | .queryHandover => .queryHandover p
  | .queryColumn => .queryColumn p
  | .queryStatus => .queryStatus p
  | .queryError => .queryError p
  | .clearErrors => .clearErrors p
  | .configureColumn => .configureColumn p
  | .configurePort => .configurePort p
  | .configureLimits => .configureLimits p
  | .configureLoad => .configureLoad p
  | .configureNotices => .configureNotices p
  | .setMode => .setMode p
  | .force => .force p
  | .fence => .fence p
  | .restore => .restore p
  | .amend => .amend p
  | .reinitialize => .reinitialize p

/-- Port `p` offers a request of kind byte `kind` that may be taken now: it is the oldest of the intake queue, the
answer queue has room (R140), and no event of the present advance is due (entry 4). -/
abbrev State.offersFrame (s : State) (p : Port) (f : Frame) : Prop :=
  s.advanceEventDue = false ∧ (s.link p).answers.length < Config.answerRoom ∧ (s.link p).intake.head? = some f

/-- Port `p` offers a request of kind `k` with this body. -/
abbrev State.offers (s : State) (p : Port) (k : RequestKind) (body : List Byte) : Prop :=
  s.offersFrame p { kind := k.code, body := body }

/-- An enabled region port. -/
abbrev State.regionOn (s : State) (r : Region) : Prop := (s.ports[r]).enabled = true

/-- The answer to a request of kind `k` joins the answer queue of `p` (R140, R148). -/
def State.answered (t : State) (p : Port) (k : RequestKind) (body : List Byte) (result : Result) (data : List Byte) :
    State :=
  t.pushAnswer p { kind := k.code, body := body } result data

/-- The body of a BOOK from a port with field order `o` (Table 9-6). -/
def bookBody (o : FieldOrder) (n : Byte) (bin : BinNo) (dest urgency heading : Byte) (dueIn budget : BitVec 16) :
    List Byte :=
  n :: put24 o bin ++ [dest, urgency, heading] ++ put16 o dueIn ++ put16 o budget

/-- Ten bytes of an AMEND entry (Table 9-6). -/
def entryBody (bin : BinNo) (dest : Region) (urgency : Byte) (heading : Heading) (dueIn budget : BitVec 16) :
    List Byte :=
  put24 .lowFirst bin ++ [byte dest.val, urgency, byte heading.val] ++ put16 .lowFirst dueIn ++ put16 .lowFirst budget

/-- The due a due_in field stands for at `now` (R57): 4095 is UNKNOWN, 0 is PASSED, and a field above 4095 counts as
4094. -/
def statedDue (now : Seconds) (dueIn : BitVec 16) : Due :=
  if dueIn = 4095 then .unknown
  else if dueIn = 0 then .passed
  else .pending (now + (if 4095 < dueIn then 4094 else dueIn))

/-- The budget fields a budget field stands for (R40, R42): none for 0, and at most 3600. -/
def statedBudget (budget : BitVec 16) : Option Budget :=
  if budget = 0 then none
  else some { remaining := min budget.toNat 3600, since := none, warned := false, expired := false, expiryAt := none,
              warnAt := none }

/-- The class that goes with a budget field. -/
def statedClass (budget : BitVec 16) : BinClass := if budget = 0 then .ambient else .chilled

/-- A record in use holds the bin (R38). -/
abbrev State.holdsBin (s : State) (h : HNum) (bin : BinNo) : Prop :=
  ∃ x ∈ s.hand h, x.state ≠ .closing ∧ x.bin = bin

/-- `c` has the lowest score of the candidates, and the lowest number among equals (R61). -/
abbrev State.wins (s : State) (d : Due) (k : BinClass) (cands : List ColIx) (c : ColIx) : Prop :=
  c ∈ cands ∧ ∀ e ∈ cands, s.score d k c < s.score d k e ∨ s.score d k c = s.score d k e ∧ c ≤ e

/-- `g` is the grant of column `c` to robot `rb` with grant's record `h`, and no other column has such a grant. -/
abbrev State.grantedTo (s : State) (c : ColIx) (g : Grant) (rb : Robot) (h : HNum) : Prop :=
  (s.col c).grant = some g ∧ g.claim.robot = rb ∧ g.record = h ∧
    ∀ c', ∀ g' ∈ (s.col c').grant, g'.claim.robot = rb → g'.record = h → c' = c

/-- No column has a grant to robot `rb` with grant's record `h`. -/
abbrev State.noGrantTo (s : State) (rb : Robot) (h : HNum) : Prop :=
  ∀ c, ∀ g ∈ (s.col c).grant, g.claim.robot = rb → g.record ≠ h

/-- The bytes of a whole frame as the controller presents them, END with the last (R138). -/
def withEnd : List Byte → List BusByte
  | [] => []
  | [b] => [(b, true)]
  | b :: bs => (b, false) :: withEnd bs

/-- The end of an edge between frames at which TURN neither rises nor falls: PACE is set low for a turn at the next edge
when an answer is waiting or a notice is pending (R142). -/
def State.edgeEnds (s : State) (p : Port) : State :=
  s.modLink p fun u => { u with prepared := decide (u.answers ≠ [] ∨ s.pendingSet p ≠ []) }

/-- The port has a frame to send: an answer, or a notice that is valid now (R143). -/
abbrev State.hasFrame (s : State) (p : Port) : Prop :=
  (s.link p).answers ≠ [] ∨ ∃ n ∈ s.pendingSet p, s.valid p n = true

/-- What R138 makes of the bytes of a whole controller frame, END with the last: the error, or the checked frame. -/
def frameVerdict (bytes : List Byte) : Except ErrorKind Frame :=
  match bytes with
  | kind :: len :: rest =>
    if 64 < len.toNat then .error .overlong
    else if rest.length < len.toNat + 2 then .error .truncated
    else if len.toNat + 2 < rest.length then .error .overlong
    else if rest.drop len.toNat = put16 .highFirst (crc (kind :: len :: rest.take len.toNat)) then
      .ok { kind := kind, body := rest.take len.toNat }
    else .error .badCheck
  | _ => .error .truncated

/-- A record under the REGION RESTART of `r` (R52, R92): a follower of its robots goes, the port leaves the waiting
set, and the record is FREE when that empties it. -/
def Handover.restarted (r : Region) (x : Handover) : Option Handover :=
  let x := { x with follower := x.follower.filter fun f => f.robot.port != r }
  match x.closing with
  | some cl =>
    if RegionSet.has cl.waiting r then
      if RegionSet.without cl.waiting r = 0 then none
      else some { x with closing := some { cl with waiting := RegionSet.without cl.waiting r } }
    else some x
  | none => some x

/-- No column is OPEN with a claim waiting, so that a selection has nothing to do (R75). -/
abbrev State.quiet (s : State) : Prop := ∀ c : ColIx, (s.col c).state = .opened → (s.col c).waitList = []

/-! ### Laws of the device -/

/-- A pending set never holds two items with the same kind and subject (R149). -/
def noticesDistinct (items : List Notice) : Prop := items.Pairwise fun a b => a.same b = false

def State.NoticesDistinct (s : State) : Prop := ∀ p : Port, noticesDistinct (s.pendingSet p)

/-- The parts of a column record that depend on its state: a grant exactly while GRANTED (R20), a cause exactly while
FENCED (Table 2-1), fence pending only while GRANTED (R26), a settle timer only while SETTLING (R111), and DISABLED
exactly while the enabled field is no (R3, R33). -/
structure Column.Controlled (k : Column) : Prop where
  grant : k.grant.isSome = true ↔ k.state = .granted
  cause : k.cause.isSome = true ↔ k.state = .fenced
  fencePending : k.fencePending = true → k.state = .granted
  settle : k.settleTimer.isSome = true → k.state = .settling
  enabled : k.cfg.enabled = false ↔ k.state = .disabled

def State.ColumnsControlled (s : State) : Prop := ∀ c : ColIx, (s.col c).Controlled

/-- A wait list stands in ascending arrival stamp (R73), and an inbound set, held ascending, holds no number twice
(R16). -/
structure Column.Ordered (k : Column) : Prop where
  waits : k.waitList.Pairwise fun a b => a.stamp ≤ b.stamp
  inbound : k.inbound.Pairwise fun a b => a < b

def State.ColumnsOrdered (s : State) : Prop := ∀ c : ColIx, (s.col c).Ordered

/-- The ranges of a record: urgency within 1 to 7 (R37), remaining budget within 0 to 3600 (R96). -/
structure Handover.InRange (r : Handover) : Prop where
  urgency : 1 ≤ r.urgency ∧ r.urgency ≤ 7
  budget : ∀ b, r.budget = some b → b.remaining ≤ 3600

def State.RecordsInRange (s : State) : Prop := ∀ h r, s.hand h = some r → r.InRange

/-- The budget of a record that goes on: still CHILLED or still AMBIENT, the remaining budget not increased, and
warned and expired not cleared (R96). -/
def budgetContinues : Option Budget → Option Budget → Prop
  | none, none => True
  | some a, some b =>
    b.remaining ≤ a.remaining ∧ (a.warned = true → b.warned = true) ∧ (a.expired = true → b.expired = true)
  | _, _ => False

/-- A record goes on as `new`: the bin, origin, destination and heading stand, the due stands or has passed (R57,
R58), the urgency has not decreased (R37), and the budget goes on (R96). -/
structure Handover.Continues (old new : Handover) : Prop where
  bin : new.bin = old.bin
  origin : new.origin = old.origin
  dest : new.dest = old.dest
  heading : new.heading = old.heading
  due : new.due = old.due ∨ new.due = .passed ∧ ∃ t, old.due = .pending t
  urgency : old.urgency ≤ new.urgency
  budget : budgetContinues old.budget new.budget

/-- Every record of `t` that is not FREE is a record of `s` that goes on: none is new. -/
def State.RecordsContinue (s t : State) : Prop :=
  ∀ h new, t.hand h = some new → ∃ old, s.hand h = some old ∧ old.Continues new

/-- Every captured record of `s` stands in `t` (R159). -/
def State.CapturesStand (s t : State) : Prop :=
  ∀ g e, (s.group g).captured = some e → (t.group g).captured = some e

/-- MULTI is set only in a group that holds a captured record (R158, R159). -/
def State.MultiCaptured (s : State) : Prop := ∀ g, (s.group g).multi = true → (s.group g).captured.isSome = true

/-! ### Where records and claims stand (R15 to R18, R38, R68, R73) -/

/-- The record stands in a stack: STORED, LIFTING, SHIFTING, or DOUBT from a lift or a shift (R17). -/
def Handover.stacked (x : Handover) : Bool :=
  match x.state, x.doubt with
  | .stored, _ | .lifting, _ | .shifting, _ => true
  | .doubt, some d => d.op == .lift || d.op == .shift
  | _, _ => false

/-- The record stands in the inbound set of its column: BOOKED, LANDING, MOVING, or DOUBT from a deposit or a holding
landing (R17). -/
def Handover.awaited (x : Handover) : Bool :=
  match x.state, x.doubt with
  | .booked, _ | .landing, _ | .moving, _ => true
  | .doubt, some d => d.op == .deposit || d.op == .holding
  | _, _ => false

/-- The record may hold a target: SHIFTING, or DOUBT from a shift (R17). -/
def Handover.shifted (x : Handover) : Bool :=
  match x.state, x.doubt with
  | .shifting, _ => true
  | .doubt, some d => d.op == .shift
  | _, _ => false

/-- Which fields a record has in its state (Table 3-1): a doubt in DOUBT, a closing reason in CLOSING, a booking timer
in BOOKED; a column but in CLOSING; a target, other than its column, in a shift alone; a holder while a dug bin is
carried, and a follower only then (R92). -/
structure Handover.Fits (x : Handover) : Prop where
  doubt : x.doubt.isSome = true ↔ x.state = .doubt
  closing : x.closing.isSome = true ↔ x.state = .closing
  booking : x.bookingTimer.isSome = true ↔ x.state = .booked
  column : x.column.isSome = true ↔ x.state ≠ .closing
  target : x.target.isSome = true → x.shifted = true ∧ x.target ≠ x.column
  moving : x.state = .moving → x.holder.isSome = true
  carried : x.holder.isSome = true → x.state = .moving ∨ x.state = .landing ∨ x.state = .doubt
  doubted : ∀ d ∈ x.doubt, x.holder = if d.op = .holding then some d.robot else none
  follower : x.follower.isSome = true → x.holder.isSome = true

/-- Every record stands in the column records as its state requires (R17), once (R15), and no bin number is held by two
records in use (R38). -/
structure State.RecordsStand (s : State) : Prop where
  fits : ∀ h, ∀ x ∈ s.hand h, x.Fits
  once : ∀ c, (s.col c).stack.Nodup
  stack : ∀ c h, h ∈ (s.col c).stack ↔ ∃ x ∈ s.hand h, x.stacked = true ∧ x.column = some c
  inbound : ∀ c h, h ∈ (s.col c).inbound ↔
    ∃ x ∈ s.hand h, x.awaited = true ∧ x.column = some c ∨ x.shifted = true ∧ x.target = some c
  bins : ∀ h i, ∀ x ∈ s.hand h, ∀ y ∈ s.hand i, x.state ≠ .closing → y.state ≠ .closing → x.bin = y.bin → h = i

/-- What a column may hold: no more than its depth (R18) and six claims, four of them region claims (R73); nothing while
UNKNOWN or DISABLED (R19); while FENCED no claim, and none inbound but records in DOUBT (R28 to R32). A record in DOUBT
stands in a FENCED column, alone in its doubt, and on top if it stands in the stack (R15, R23, R114). -/
structure State.ColumnsHold (s : State) : Prop where
  room : ∀ c, (s.col c).stack.length + (s.col c).inbound.length ≤ (s.col c).cfg.depth
  waits : ∀ c, (s.col c).waitList.length ≤ 6 ∧ ((s.col c).waitList.filter Claim.isRegion).length ≤ 4
  empty : ∀ c, (s.col c).state = .unknown ∨ (s.col c).state = .disabled →
    (s.col c).stack = [] ∧ (s.col c).inbound = [] ∧ (s.col c).waitList = []
  fenced : ∀ c, (s.col c).state = .fenced →
    (s.col c).waitList = [] ∧ ∀ h ∈ (s.col c).inbound, ∀ x ∈ s.hand h, x.state = .doubt
  doubt : ∀ h, ∀ x ∈ s.hand h, x.state = .doubt → ∀ c ∈ x.column,
    (s.col c).state = .fenced ∧ (x.stacked = true → (s.col c).stack.getLast? = some h) ∧
    ∀ i, ∀ y ∈ s.hand i, y.state = .doubt → y.column = some c → i = h

/-- What the record of a waiting claim is (R68): BOOKED, STORED or being shifted, or MOVING with the claim's robot. -/
def Claim.suits (cl : Claim) (x : Handover) : Bool :=
  match cl.kind with
  | .deposit => x.state == .booked
  | .lift => x.state == .stored || x.state == .shifting
  | .holding => x.state == .moving && x.holder == some cl.robot

/-- What the grant's record is (R77): LANDING, without or with a holder, LIFTING, or SHIFTING. -/
def Grant.suits (g : Grant) (x : Handover) : Bool :=
  match g.op with
  | .deposit => g.claim.kind == .deposit && x.state == .landing && x.holder == none
  | .holding => g.claim.kind == .holding && x.state == .landing && x.holder == some g.claim.robot
  | .lift => g.claim.kind == .lift && x.state == .lifting
  | .shift _ => g.claim.kind == .lift && x.state == .shifting

/-- Every claim in the part, waiting or granted. -/
def State.allClaims (s : State) : List Claim := ColIx.all.flatMap fun c => (s.col c).claims

/-- How many followers a robot is. -/
def State.followersOf (s : State) (rb : Robot) : Nat :=
  (HNum.all.filter fun h => (s.hand h).any fun x => x.follower.any fun f => f.robot == rb).length

/-- Claims stand where their records do, a record has at most one, and a grant has the record of its operation, on top
of the stack if it is lifted (R68, R77). A robot has at most one region claim, a follower counting as one (R70). -/
structure State.ClaimsStand (s : State) : Prop where
  waiting : ∀ c, ∀ cl ∈ (s.col c).waitList, ∃ x ∈ s.hand cl.handover, x.column = some c ∧ cl.suits x = true
  grant : ∀ c, ∀ g ∈ (s.col c).grant, (∃ x ∈ s.hand g.record, x.column = some c ∧ g.suits x = true) ∧
    (g.claim.kind = .lift → (s.col c).stack.getLast? = some g.record) ∧
    (g.record ≠ g.claim.handover → ∃ y ∈ s.hand g.claim.handover, y.column = some c ∧ y.state = .stored)
  granted : ∀ h, ∀ x ∈ s.hand h, x.state = .landing ∨ x.state = .lifting ∨ x.state = .shifting →
    ∃ c, x.column = some c ∧ ∃ g ∈ (s.col c).grant, g.record = h
  record : ∀ h, (s.allClaims.filter fun cl => cl.handover == h).length ≤ 1
  region : ∀ rb : Robot,
    (s.allClaims.filter fun cl => cl.isRegion && cl.robot == rb).length + s.followersOf rb ≤ 1

/-- The account of records, columns and claims that the device keeps (R15 to R18, R20, R38, R68, R73). -/
structure State.Accounted (s : State) : Prop where
  controlled : s.ColumnsControlled
  ordered : s.ColumnsOrdered
  records : s.RecordsStand
  columns : s.ColumnsHold
  claims : s.ClaimsStand

/-- A robot has at most one claim in the part (R68), a follower counting as one (R92). -/
def State.RobotsClaimOnce (s : State) : Prop :=
  ∀ rb : Robot, (s.allClaims.filter fun cl => cl.robot == rb).length + s.followersOf rb ≤ 1

/-- No robot of a record in DOUBT has claimed again since, or is the robot of another doubt. -/
def State.DoubtedRobotsWait (s : State) : Prop :=
  ∀ h, ∀ x ∈ s.hand h, ∀ d ∈ x.doubt, s.robotBusy d.robot = false ∧
    ∀ i, ∀ y ∈ s.hand i, ∀ e ∈ y.doubt, e.robot = d.robot → i = h

/-! ### Links and configuration -/

/-- The queues of a link unit hold at most 4 frames and 4 answers, and a frame is in reception only while the intake
queue has room for it (R136, R137). -/
structure LinkUnit.WithinRoom (u : LinkUnit) : Prop where
  answers : u.answers.length ≤ Config.answerRoom
  intake : u.intake.length ≤ Config.intakeRoom
  reception : u.rx ≠ .betweenFrames → u.intake.length < Config.intakeRoom

/-- How the bus goes round (R142): the IX48 owns it only with a frame in sending, of whose bytes no more than all have
been sent; with none in sending the bus is turned only after a fall, before the window; a controller frame in reception
has the bus; and PACE is set low for a turn only between frames, on the controller's bus, and not for the window. -/
structure LinkUnit.TakesTurns (u : LinkUnit) : Prop where
  owner : u.bus = .ix48 → u.sending.isSome = true
  turned : u.bus = .turning → u.sending = none → u.window = true
  sending : u.sending.isSome = true → u.bus ≠ .controller ∧ u.rx = .betweenFrames ∧ u.window = false
  sent : ∀ x ∈ u.sending, x.sent ≤ x.bytes.length
  reception : u.rx ≠ .betweenFrames → u.bus = .controller ∧ u.window = false
  prepared : u.prepared = true → u.bus = .controller ∧ u.rx = .betweenFrames ∧ u.window = false

def State.LinksTakeTurns (s : State) : Prop := ∀ p : Port, (s.link p).TakesTurns

/-- The port has sent nothing since power-on or RESET (R143, R156): nothing has come in, the next edge is prepared for a
turn, and the RESET notice stands first in its pending set with the highest level. -/
structure State.AwaitsReset (s : State) (p : Port) : Prop where
  link : s.link p = LinkUnit.initial
  first : (s.pendingSet p).head? = some .reset
  level : s.level .reset = 7 ∧ ∀ k : NoticeKind, s.level k ≤ 7

def State.LinksWithinRoom (s : State) : Prop := ∀ p : Port, (s.link p).WithinRoom

/-- The limits lie in their ranges (Table 9-4). -/
structure Limits.InRange (l : Limits) : Prop where
  booking : 30 ≤ l.booking ∧ l.booking ≤ 900
  grant : 10 ≤ l.grant ∧ l.grant ≤ 120
  digReserve : l.digReserve ≤ 8
  warn : 10 ≤ l.warn ∧ l.warn ≤ 600
  filterSteps : 1 ≤ l.filterSteps ∧ l.filterSteps ≤ 8
  settleExp : 1 ≤ l.settleExp ∧ l.settleExp ≤ 4

/-- A setpoint's levels lie in their ranges: on-level 1 to 48, off-level below it (R129). -/
structure Setpoint.InRange (p : Setpoint) : Prop where
  onLevel : 1 ≤ p.onLevel ∧ p.onLevel ≤ 48
  offLevel : p.offLevel < p.onLevel

/-- The levels of the Load Monitor lie in their ranges (Table 8-1). -/
structure LoadMonitor.InRange (l : LoadMonitor) : Prop where
  hold : 2 ≤ l.holdLevel ∧ l.holdLevel ≤ 7
  high : l.high.InRange
  full : l.full.InRange
  highLevel : 2 ≤ l.highLevel ∧ l.highLevel ≤ 7
  trendStep : 1 ≤ l.trendStep ∧ l.trendStep ≤ 8

/-- Every configured quantity lies in its range (Table 9-4), the level of RESET is 7 (R151), and the tick count
within the second is below 10 (R55). -/
structure State.ConfigInRange (s : State) : Prop where
  limits : s.limits.InRange
  load : s.load.InRange
  depth : ∀ c : ColIx, 2 ≤ (s.col c).cfg.depth ∧ (s.col c).cfg.depth ≤ 6
  levels : ∀ k : NoticeKind, s.level k ≤ 7
  reset : s.level .reset = 7
  ticks : s.tickCount ≤ 9

end Sys2Proof.Machine
end

