-- ==== Sys2Proof/Certificates/Slice0/Obligations.lean ====
section
/-! DEFINITION. The statements for the provers. A request's state is always that of `s.dropRequest p`, the state with the
request out of the intake queue; a step in progress is written with the state it has reached and the columns in which
it has started a selection. `Work.finish` makes those selections at the end of the step (log entry 6), the data of an
answer are from before them (log entry 27), and `State.offers` asks that no warning, expiry or trend sample of the
present second is due (log entry 4): all three are the model's choices. -/
section
open Sys2Proof Sys2Proof.Machine

/-! ### The queue of commands, power and RESET -/

/-- A step takes the command at the front of the queue and executes it with the queue's rest. -/
def Obligations.StepRunsFrontCommand : Prop :=
  ∀ (c : Instr) (s : State), step { s with pending := c :: s.pending } = exec c s

/-- With no command waiting, one LCLK edge passes on each port, at which its controller presents the fill byte: the bus
turns, a byte of the frame in sending is driven, or the window passes and PACE is set low for a turn when something
waits (R142); at an edge prepared for a turn at which nothing remains to send the invalid items are gone. No edge passes
where TURN rises or falls at it, inside a controller frame, or while RESET is asserted. This is the model's choice (log
entry 2). -/
def Obligations.IdleStepIsOneEdge : Prop :=
  ∀ s : State, s.pending = [] →
    (s.resetAsserted = true → step s = .next s) ∧
    (s.resetAsserted = false → ∃ t, step s = .next t ∧
      t = { s with links := t.links, pendingSets := t.pendingSets } ∧ ∀ p,
      let u := s.link p
      let items := s.pendingSet p
      let becomes (v : LinkUnit) (left : List Notice) : Prop := t.link p = v ∧ t.pendingSet p = left
      (u.rx ≠ .betweenFrames → becomes u items) ∧
      (u.rx = .betweenFrames →
        (u.bus = .turning → becomes { u with bus := if u.sending.isSome then .ix48 else .controller } items) ∧
        (∀ x, u.bus = .ix48 → u.sending = some x →
          (x.sent < x.bytes.length → becomes { u with sending := some { x with sent := x.sent + 1 } } items) ∧
          (x.bytes.length ≤ x.sent → becomes u items)) ∧
        (u.bus = .ix48 → u.sending = none → becomes u items) ∧
        (u.bus = .controller → u.prepared = false →
          becomes { u with window := false, prepared := decide (u.answers ≠ [] ∨ items ≠ []) } items) ∧
        (u.bus = .controller → u.prepared = true →
          (s.hasFrame p → becomes u items) ∧
          (¬ s.hasFrame p → becomes { u with window := false, prepared := false } []))))

/-- Every command is taken: no command faults or is refused, and none touches the queue of commands. That a command
whose event cannot arise now answers a next state too is the model's choice (log entry 1), and so is the queue, a field
of the model's own (log entry 21). -/
def Obligations.EveryCommandIsTaken : Prop :=
  ∀ (c : Instr) (s : State), ∃ t, exec c s = .next t ∧ t.pending = s.pending

/-- POWER ON and RESET INPUT set every block to its power-on value (R34, R54, R55, R94, R123, R124, R136, R151, R156,
R158), which is `State.reset`; ALERT is then deasserted (R161). RESET RELEASE changes the RESET input alone. That POWER
ON leaves RESET released is the model's choice (log entry 14), and so are the field prepared (log entry 28) and the
marks of an advance and a sample that are due (log entry 5). While RESET is asserted no byte is taken, TURN neither
rises nor falls and no tick comes (R136, R55). -/
def Obligations.PowerOnAndReset : Prop :=
  ((∀ s : State, ∃ t, exec .powerOn s = .next t ∧ t = { State.reset with pending := s.pending }) ∧
  (∀ s : State, ∃ t, exec .resetInput s = .next t ∧
    t = { State.reset with resetAsserted := true, pending := s.pending } ∧ t.alert = false ∧
    ∀ p, t.pace p = false ∧ (t.link p).turn = false) ∧
  (∀ s : State, exec .resetRelease s = .next { s with resetAsserted := false }) ∧
  (∀ c, State.reset.col c = {
    cfg := { enabled := true, cls := if c.val < 4 then .ambient else .chilled, depth := 6, reach := 0b1111#4,
             gaugeMode := .check, rise := true, fall := true }
    state := .unknown, fencePending := false, cause := none, stack := [], inbound := [], waitList := [], grant := none,
    reading := 0, candidate := 0, filterCount := none, settleTimer := none }) ∧
  (∀ h, State.reset.hand h = none) ∧ State.reset.stampCounter = 0 ∧
  State.reset.limits = { booking := 300, grant := 45, digReserve := 2, warn := 60, filterSteps := 2, settleExp := 2 } ∧
  State.reset.load = {
    mode := .run, holdLevel := 4
    high := { onLevel := 36, offLevel := 32, on := false, forcing := .automatic }
    full := { onLevel := 44, offLevel := 40, on := false, forcing := .automatic }
    highLevel := 3, trendStep := 3, samples := #v[0, 0, 0, 0, 0, 0, 0], trend := .steady } ∧
  State.reset.clock = 0 ∧ State.reset.tickCount = 0 ∧ State.reset.resetAsserted = false ∧
  State.reset.advanceDue = false ∧ State.reset.trendDue = false ∧ State.reset.pending = [] ∧
  (∀ r : Region, State.reset.ports[r] = { enabled := true, rotation := 0, mirror := false, order := .lowFirst }) ∧
  (∀ p, State.reset.link p = { rx := .betweenFrames, frame := [], intake := [], answers := [], bus := .controller,
                               sending := none, window := false, prepared := true }) ∧
  (∀ k, State.reset.level k = [7, 7, 5, 4, 6, 6, 6, 7, 2, 7, 6, 3, 2, 5].getD k.ix.val 0) ∧
  (∀ p, State.reset.pendingSet p = [.reset]) ∧ (∀ g, State.reset.group g = { captured := none, multi := false })) ∧
  (∀ s : State, s.resetAsserted = true →
    (∀ p b e, exec (.frameBegin p b e) s = .next s) ∧ (∀ p bytes, exec (.controllerFrame p bytes) s = .next s) ∧
    (∀ p, exec (.sendAnswer p) s = .next s ∧ exec (.sendNotice p) s = .next s ∧ exec (.turnFalls p) s = .next s ∧
      s.pace p = false) ∧
    ∀ g, exec (.interchangeTick g) s = .next s)

/-! ### Frames of reference, byte order and links -/

/-- Tables 1-4 and 1-5 give the column numbers of every frame, R12 is the inverse of R11, a local number above 7 names
no column, and an absent column is FFh. Headings across frames: the mirror, then the turns; the inverse the other way;
Table 1-6 (R13). LOW-FIRST sends the least significant byte first and HIGH-FIRST the most significant, and each is read
back as it was sent (R14). PS uses the interchange frame and LOW-FIRST, a region port its own frame (R9). -/
def Obligations.FramesOfReference : Prop :=
  ((∀ row ∈ ([
      (0, false, [0, 1, 2, 3, 4, 5, 6, 7], [0, 1, 2, 3, 4, 5, 6, 7]),
      (1, false, [1, 3, 5, 7, 0, 2, 4, 6], [4, 0, 5, 1, 6, 2, 7, 3]),
      (2, false, [7, 6, 5, 4, 3, 2, 1, 0], [7, 6, 5, 4, 3, 2, 1, 0]),
      (3, false, [6, 4, 2, 0, 7, 5, 3, 1], [3, 7, 2, 6, 1, 5, 0, 4]),
      (0, true, [3, 2, 1, 0, 7, 6, 5, 4], [3, 2, 1, 0, 7, 6, 5, 4]),
      (1, true, [7, 5, 3, 1, 6, 4, 2, 0], [7, 3, 6, 2, 5, 1, 4, 0]),
      (2, true, [4, 5, 6, 7, 0, 1, 2, 3], [4, 5, 6, 7, 0, 1, 2, 3]),
      (3, true, [0, 2, 4, 6, 1, 3, 5, 7], [0, 4, 1, 5, 2, 6, 3, 7])] : List (Fin 4 × Bool × List Nat × List ColIx)),
    ∀ en o, let f : PortConfig := { enabled := en, rotation := row.1, mirror := row.2.1, order := o }
      ColIx.all.map f.toLocal = row.2.2.1 ∧ (List.range 8).map f.fromLocal = row.2.2.2.map some) ∧
  (∀ (f : PortConfig) (c : ColIx), f.fromLocal (f.toLocal c) = some c ∧ f.columnByte (some c) = byte (f.toLocal c)) ∧
  ∀ (f : PortConfig), f.columnByte none = 0xFF ∧ ∀ l, 7 < l → f.fromLocal l = none) ∧
  ((∀ (f : PortConfig) (h : Heading),
    (f.headingToLocal h).val = ((if f.mirror then (4 - h.val) % 4 else h.val) + f.rotation.val) % 4 ∧
    f.headingFromLocal (f.headingToLocal h) = h ∧ f.headingToLocal (f.headingFromLocal h) = h) ∧
  ∀ row ∈ ([(0, false, [0, 1, 2, 3]), (1, false, [1, 2, 3, 0]), (2, false, [2, 3, 0, 1]), (3, false, [3, 0, 1, 2]),
      (0, true, [0, 3, 2, 1]), (1, true, [1, 0, 3, 2]), (2, true, [2, 1, 0, 3]), (3, true, [3, 2, 1, 0])] :
        List (Fin 4 × Bool × List Heading)),
    ∀ en o, ([0, 1, 2, 3] : List Heading).map
      (PortConfig.headingToLocal { enabled := en, rotation := row.1, mirror := row.2.1, order := o }) = row.2.2) ∧
  ((∀ v : BitVec 16, put16 .lowFirst v = [byte (v.toNat % 256), byte (v.toNat / 256)] ∧
    put16 .highFirst v = (put16 .lowFirst v).reverse) ∧
  (∀ v : BitVec 24, put24 .lowFirst v = [byte (v.toNat % 256), byte (v.toNat / 256 % 256), byte (v.toNat / 65536)] ∧
    put24 .highFirst v = (put24 .lowFirst v).reverse) ∧
  (∀ o v x y, put16 o v = [x, y] → get16 o x y = v) ∧ ∀ o v x y z, put24 o v = [x, y, z] → get24 o x y z = v) ∧
  ∀ s : State, (∀ r : Region, s.view (.region r) = s.ports[r]) ∧
    s.view .ps = { enabled := true, rotation := 0, mirror := false, order := .lowFirst }

/-- Byte by byte reception gives what R138 says of the whole frame: a good frame joins the intake queue as its newest,
and a TRUNCATED, OVERLONG or BAD_CHECK frame is dropped and captured in the port's LINK group. A fill byte before a
frame is discarded (R137); with something to send, TURN rises at the edge after it and the frame is not taken (R142). A
frame made of any kind but 00h and any body of at most 64 bytes, in the envelope of Table 9-5, is received as that kind
and body. The check of a frame (R139): the nine digits give 29B1h, and a message followed by its own check, high byte
first, leaves the remainder 0. That the bytes of a frame are one command is the model's choice (log entry 7). -/
def Obligations.ReceptionAgreesWithWholeFrame : Prop :=
  (∀ (s : State) (p : Port) (bytes : List Byte), s.pace p = true → (s.link p).rx = .betweenFrames → bytes ≠ [] →
    (bytes.head? ≠ some 0 ∨ bytes.length = 1 →
      exec (.controllerFrame p (withEnd bytes)) s = .next (match frameVerdict bytes with
        | .ok f =>
          (s.modLink p fun u => { u with frame := [], window := false, intake := u.intake ++ [f] }).edgeEnds p
        | .error e => ((s.modLink p fun u => { u with frame := [], window := false }).captureLink p e).edgeEnds p)) ∧
    let filled := exec (.controllerFrame p ((0, false) :: withEnd bytes)) s
    ((s.link p).answers = [] → s.pendingSet p = [] → filled = exec (.controllerFrame p (withEnd bytes)) s) ∧
    (s.hasFrame p → filled = .next (s.modLink p fun u => { u with window := false, prepared := true }))) ∧
  (∀ (s : State) (p : Port) (kind : Byte) (body : List Byte), s.pace p = true → (s.link p).rx = .betweenFrames →
    kind ≠ 0 → body.length ≤ 64 →
    exec (.controllerFrame p (withEnd (frameBytes kind body))) s = .next ((s.modLink p fun u =>
      { u with frame := [], window := false, intake := u.intake ++ [{ kind := kind, body := body }] }).edgeEnds p)) ∧
  (∀ (kind : Byte) (body : List Byte), let front := kind :: byte body.length :: body
    frameBytes kind body = front ++ [byte ((crc front).toNat / 256), byte ((crc front).toNat % 256)]) ∧
  crc [0x31, 0x32, 0x33, 0x34, 0x35, 0x36, 0x37, 0x38, 0x39] = 0x29B1 ∧
  ∀ bytes : List Byte, crc (bytes ++ put16 .highFirst (crc bytes)) = 0

/-- With PACE high between frames a first byte begins a frame, which the further bytes then complete; a fill byte starts
none, and END with a first byte is TRUNCATED (R137, R138). No byte is taken while the intake queue is full, while the
IX48 has the bus, or where TURN rises; where nothing remains to send, and after the turning edges of a fall, it is taken
at the edge after (R142). Bytes may come in any number of commands, and a frame that does not end holds its link in
DISCARDING, where TURN does not rise (R138). How many edges a command takes is the model's choice (log entry 7), and
that FRAME BEGIN inside a frame changes nothing is too (log entry 1). -/
def Obligations.FrameBegins : Prop :=
  (∀ (s : State) (p : Port) (b : Byte), s.pace p = true → (s.link p).rx = .betweenFrames →
    (b ≠ 0 →
      let t := s.modLink p fun u => { u with rx := .receiving, frame := [b], window := false }
      exec (.frameBegin p b false) s = .next t ∧
      ∀ rest, exec (.controllerFrame p rest) t = exec (.controllerFrame p ((b, false) :: rest)) s) ∧
    exec (.frameBegin p 0 false) s = .next ((s.modLink p fun u => { u with window := false }).edgeEnds p) ∧
    exec (.frameBegin p b true) s =
      .next (((s.modLink p fun u => { u with frame := [], window := false }).captureLink p .truncated).edgeEnds p)) ∧
  (∀ (s : State) (p : Port) (b : Byte) (e : Bool),
    let u := s.link p
    let untaken : Prop :=
      exec (.frameBegin p b e) s = .next s ∧ ∀ rest, exec (.controllerFrame p ((b, e) :: rest)) s = .next s
    let takenIn (t : State) : Prop := exec (.frameBegin p b e) s = exec (.frameBegin p b e) t ∧
      ∀ rest, exec (.controllerFrame p ((b, e) :: rest)) s = exec (.controllerFrame p ((b, e) :: rest)) t
    (u.rx ≠ .betweenFrames → exec (.frameBegin p b e) s = .next s) ∧
    (u.rx = .betweenFrames →
      (4 ≤ u.intake.length ∨ u.bus ≠ .controller ∧ u.sending ≠ none → untaken) ∧
      (s.resetAsserted = false → u.bus = .controller → u.prepared = true → s.hasFrame p → untaken) ∧
      (s.resetAsserted = false → u.bus = .controller → u.prepared = true → u.sending = none →
        u.intake.length < 4 → ¬ s.hasFrame p →
        takenIn ((s.modPending p fun _ => []).modLink p fun u => { u with window := false, prepared := false })) ∧
      (s.resetAsserted = false → u.bus = .turning → u.sending = none → u.prepared = false → u.intake.length < 4 →
        takenIn (s.modLink p fun u => { u with bus := .controller })))) ∧
  (∀ (s : State) (p : Port) (xs ys : List BusByte), ∃ t, exec (.controllerFrame p xs) s = .next t ∧
    exec (.controllerFrame p (xs ++ ys)) s = exec (.controllerFrame p ys) t) ∧
  ∀ (s : State) (p : Port) (b : Byte), s.resetAsserted = false → (s.link p).bus = .controller →
    let u := s.link p
    let discarding (frame : List Byte) : Prop := exec (.controllerFrame p [(b, false)]) s = .next (s.modLink p fun u =>
      { u with rx := .discarding, frame := frame, window := false, prepared := false })
    (∀ kind, u.rx = .receiving → u.frame = [kind] → 64 < b → discarding [kind, b]) ∧
    (∀ len, u.rx = .receiving → u.frame[1]? = some len → len.toNat + 4 ≤ u.frame.length → discarding u.frame) ∧
    (u.rx = .discarding → discarding u.frame ∧
      exec (.controllerFrame p [(b, true)]) s = .next (((s.modLink p fun u =>
        { u with rx := .betweenFrames, frame := [], window := false }).captureLink p .overlong).edgeEnds p) ∧
      exec (.sendAnswer p) s = .next s ∧ exec (.sendNotice p) s = .next s)

/-- SEND ANSWER and TURN FALLS: at an edge prepared for a turn TURN rises for the oldest answer, whose bytes are then
fixed and whose place is free (R143); when the frame is sent TURN falls, the window is set, and turning edges follow
(R142). That a SEND takes the edges up to the prepared one, the window among them, and TURN FALLS those of the bytes
still to drive, is the model's choice (log entry 7); that TURN FALLS with no frame in sending, and SEND ANSWER with no
answer or while TURN may not rise, change nothing, is too (log entry 1), and so is that the oldest answer is sent also
at an edge for which PACE was set low before that answer was ready (log entry 29). -/
def Obligations.AnswersTakeTurns : Prop :=
  (∀ (s : State) (p : Port) (a : List Byte) (rest : List (List Byte)),
    s.resetAsserted = false → (s.link p).rx = .betweenFrames → (s.link p).bus ≠ .ix48 → (s.link p).sending = none →
    (s.link p).answers = a :: rest →
    exec (.sendAnswer p) s = .next (s.modLink p fun u =>
      { u with bus := .turning, sending := some { bytes := frameBytes 0x80 a, sent := 0 }, window := false,
               prepared := false, answers := rest })) ∧
  (∀ (s : State) (p : Port),
    (s.link p).rx ≠ .betweenFrames ∨ (s.link p).answers = [] ∨
      (s.link p).bus ≠ .controller ∧ (s.link p).sending ≠ none →
    exec (.sendAnswer p) s = .next s) ∧
  (∀ (s : State) (p : Port), s.resetAsserted = false → (s.link p).sending ≠ none → (s.link p).bus ≠ .controller →
    exec (.turnFalls p) s = .next (s.modLink p fun u =>
      { u with bus := .turning, sending := none, window := true, prepared := false })) ∧
  ∀ (s : State) (p : Port), (s.link p).sending = none → exec (.turnFalls p) s = .next s

/-- The choice of the next notice (R153): the valid item of the highest level, the earliest among equals. The invalid
items that rank before it are dropped; with no valid item all are dropped. `NoticesSayWhatTheTablesList` says when an
item is valid. -/
def Obligations.NextNoticeIsHighestEarliestValid : Prop :=
  ∀ (s : State) (p : Port),
    (∀ (before after : List Notice) (n : Notice), noticesDistinct (before ++ n :: after) → s.valid p n = true →
      (∀ m ∈ before, s.valid p m = true → s.level m.kind < s.level n.kind) →
      (∀ m ∈ after, s.valid p m = true → s.level m.kind ≤ s.level n.kind) →
      s.nextNotice p (before ++ n :: after).length (before ++ n :: after) =
        (some n, before.filter (fun m => s.valid p m || decide (s.level m.kind < s.level n.kind)) ++
          after.filter fun m => s.valid p m || decide (s.level m.kind ≤ s.level n.kind))) ∧
    ∀ items : List Notice, (∀ m ∈ items, s.valid p m = false) → s.nextNotice p items.length items = (none, [])

/-- SEND NOTICE: with no answer waiting, TURN rises for the next valid notice; a GRANT sets notice sent and starts the
grant timer at ten times the grant limit unless it runs already (R78), an ending notice takes the port out of the
waiting set and frees the record when that empties it (R50), and any other kind changes nothing but the link. With no
valid notice TURN does not rise, and the invalid items are gone (R143). That a SEND takes the edges up to the one that
is prepared, the window among them, is the model's choice (log entry 7), and so is that the notice chosen at that edge
may have become ready after PACE was set low for it (log entry 29). -/
def Obligations.SendNoticeActsAtSend : Prop :=
  ∀ (s : State) (p : Port), s.resetAsserted = false → (s.link p).rx = .betweenFrames → (s.link p).bus ≠ .ix48 →
    (s.link p).sending = none → (s.link p).answers = [] →
    (s.pendingSet p = [] → (s.link p).prepared = false → exec (.sendNotice p) s = .next s) ∧
    (s.pendingSet p ≠ [] → (∀ n ∈ s.pendingSet p, s.valid p n = false) →
      exec (.sendNotice p) s = .next ((s.modPending p fun _ => []).modLink p fun u =>
        { u with bus := .controller, window := false, prepared := false })) ∧
    ∀ n rest, s.nextNotice p (s.pendingSet p).length (s.pendingSet p) = (some n, rest) →
      let rise (t : State) : State := t.modLink p fun u =>
        { u with bus := .turning, window := false, prepared := false
                 sending := some { bytes := frameBytes 0x81 (s.noticeBody p n), sent := 0 } }
      let left := s.modPending p fun _ => rest
      (∀ c g, n = .grant c → (s.col c).grant = some g → Port.region g.claim.robot.port = p →
        exec (.sendNotice p) s = .next (rise (left.modCol c fun k => { k with grant := some { g with
          noticeSent := true, timer := some (g.timer.getD (10 * s.limits.grant)) } }))) ∧
      (∀ h r x cl, p = .region r → (n.kind = .withdrawn ∨ n.kind = .delivered ∨ n.kind = .handedBack) →
        n.subject = some h.val → s.hand h = some x → x.closing = some cl → RegionSet.has cl.waiting r = true →
        exec (.sendNotice p) s = .next (rise (left.setHand h
          (if RegionSet.without cl.waiting r = 0 then none
           else some { x with closing := some { cl with waiting := RegionSet.without cl.waiting r } })))) ∧
      (n.kind ≠ .grant → n.kind ≠ .withdrawn → n.kind ≠ .delivered → n.kind ≠ .handedBack →
        exec (.sendNotice p) s = .next (rise left))

/-- When each kind of notice is valid (Table 10-2), and the body of each as the port receives it: code, subject and
content, in the port's frame and field order (R153, Table 10-3). -/
def Obligations.NoticesSayWhatTheTablesList : Prop :=
  (∀ (s : State) (p : Port) (h : HNum) (c : ColIx) (g : Fin 8) (v : BinNo) (a b : Byte) (rb : Robot),
    let inUse (x : Handover) : Prop := s.hand h = some x ∧ x.state ≠ .closing
    let owed : Prop := ∃ r x cl, p = .region r ∧ s.hand h = some x ∧ x.state = .closing ∧ x.closing = some cl ∧
      RegionSet.has cl.waiting r = true
    (∀ n ∈ [Notice.reset, .dismissed h a b, .fence c, .load, .gauge c], s.valid p n = true) ∧
    (s.valid p (.grant c) = true ↔ ∃ x, (s.col c).grant = some x ∧ Port.region x.claim.robot.port = p) ∧
    (s.valid p (.ready h) = true ↔ ∃ x, s.hand h = some x ∧ x.state = .stored ∧ Port.region x.dest = p) ∧
    (∀ n ∈ [Notice.moved h, .expired h], (s.valid p n = true ↔ ∃ x, inUse x)) ∧
    (s.valid p (.warn h) = true ↔ ∃ x d, inUse x ∧ x.budget = some d ∧ d.warned = true) ∧
    (∀ n ∈ [Notice.withdrawn h v a, .delivered h, .handedBack h v rb], (s.valid p n = true ↔ owed)) ∧
    (s.valid p (.error g) = true ↔ (s.group g).captured ≠ none)) ∧
  ∀ (s : State) (p : Port) (h : HNum) (c : ColIx) (v : BinNo) (a b : Byte) (rb : Robot),
    let f := s.view p
    let k := s.col c
    let flag (b : Bool) : Byte := if b then 1 else 0
    let column (c : Option ColIx) : Byte := (c.map fun c => byte (f.toLocal c)).getD 0xFF
    let left (x : Handover) : List Byte := put16 f.order (BitVec.ofNat 16 (match x.budget with
      | none => 65535
      | some d => match d.since with
        | some t => d.remaining - (s.clock - t).toNat
        | none => d.remaining))
    s.noticeBody p .reset = [0, 0xFF] ++ put16 f.order s.clock ∧
    (∀ g, k.grant = some g →
      (∀ i x, g.op = .shift i → s.hand i = some x → s.noticeBody p (.grant c) =
        [1, column (some c), g.claim.robot.number, byte i.val, 2, column x.target] ++ put24 f.order x.bin) ∧
      ((∀ i, g.op ≠ .shift i) → s.noticeBody p (.grant c) =
        [1, column (some c), g.claim.robot.number, byte g.claim.handover.val, g.op.kind.code, 0xFF, 0xFF, 0xFF, 0xFF])) ∧
    (∀ x, s.hand h = some x →
      (x.column = some c → s.noticeBody p (.ready h) = [2, byte h.val] ++ put24 f.order x.bin ++ [column (some c),
        byte (k.stack.reverse.findIdx fun i => i == h), byte (f.headingToLocal x.heading).val, byte x.urgency]) ∧
      s.noticeBody p (.moved h) = [3, byte h.val, column x.column, x.state.code] ∧
      s.noticeBody p (.warn h) = [6, byte h.val] ++ left x ++ [column x.column] ∧
      s.noticeBody p (.expired h) = [7, byte h.val] ++ put24 f.order x.bin ++ [column x.column] ∧
      s.noticeBody p (.delivered h) = [8, byte h.val] ++ put24 f.order x.bin ++ [byte x.dest.val] ++ left x) ∧
    s.noticeBody p (.dismissed h a b) = [4, byte h.val, a, b] ∧
    s.noticeBody p (.withdrawn h v a) = [5, byte h.val] ++ put24 f.order v ++ [a] ∧
    s.noticeBody p (.handedBack h v rb) = [9, byte h.val] ++ put24 f.order v ++ [byte rb.port.val, rb.number] ∧
    s.noticeBody p (.fence c) =
      [10, column (some c), k.state.code, (k.cause.map FenceCause.code).getD 0xFF, flag k.fencePending] ∧
    s.noticeBody p .load =
      [11, 0xFF, flag s.load.high.on, flag s.load.full.on, s.load.trend.code, byte s.occupancy] ∧
    s.noticeBody p (.gauge c) = [12, column (some c),
      if k.cfg.gaugeMode = .off then 0 else byte k.reading.toNat, byte k.stack.length] ∧
    ∀ (g : Fin 8) (e : Capture), (s.group g).captured = some e →
      s.noticeBody p (.error g) = [13, byte g.val, e.kind.code, flag (s.group g).multi]

/-! ### Requests in general -/

/-- Table 9-3: the kind byte, the body length and the ports of every request. The stages before the owner (R141, R10):
an unknown kind is answered UNKNOWN and captured; a wrong length BAD_FIELD with kind and length, and captured; a kind
not permitted NOT_PERMITTED, with no data for any kind (log entry 9); a disabled region port NO_REGION, the four QUERY
requests apart. Each stage is reached only past the ones before it, and changes nothing else. -/
def Obligations.RequestsJudgedInOrder : Prop :=
  ((∀ row ∈ ([(.book, 0x11, 11, false), (.cancel, 0x12, 2, false), (.claim, 0x13, 4, false), (.landed, 0x14, 3, false),
      (.lifted, 0x15, 3, false), (.release, 0x16, 3, false), (.regionRestart, 0x17, 1, false),
      (.configureColumn, 0x30, 9, true), (.configurePort, 0x31, 6, true), (.configureLimits, 0x32, 9, true),
      (.configureLoad, 0x33, 7, true), (.configureNotices, 0x34, 3, true), (.setMode, 0x35, 3, true),
      (.force, 0x36, 3, true), (.fence, 0x37, 2, true), (.restore, 0x38, 2, true), (.reinitialize, 0x3A, 1, true)] :
        List (RequestKind × Byte × Nat × Bool)),
    row.1.code = row.2.1 ∧ ∀ body p, row.1.lengthOk body = (body.length == row.2.2.1) ∧
      row.1.permitted p body = (decide (p = .ps) == row.2.2.2)) ∧
  (∀ row ∈ ([(.queryHandover, 0x20, 5), (.queryColumn, 0x21, 2), (.queryStatus, 0x22, 1), (.queryError, 0x23, 2)] :
        List (RequestKind × Byte × Nat)),
    row.1.code = row.2.1 ∧ ∀ body p, row.1.lengthOk body = (body.length == row.2.2) ∧ row.1.permitted p body = true) ∧
  (RequestKind.clearErrors.code = 0x24 ∧ ∀ body, RequestKind.clearErrors.lengthOk body = (body.length == 2) ∧
    RequestKind.clearErrors.permitted .ps body = true ∧
    ∀ r : Region, RequestKind.clearErrors.permitted (.region r) body = decide (body[1]? = some (byte r.val))) ∧
  RequestKind.amend.code = 0x39 ∧ ∀ (body : List Byte) (p : Port),
    (RequestKind.amend.lengthOk body = true ↔ ∃ n, body[2]? = some n ∧ body.length = 3 + 10 * n.toNat) ∧
    RequestKind.amend.permitted p body = decide (p = .ps)) ∧
  (∀ (s : State) (p : Port) (body : List Byte),
    (∀ b : Byte, (∀ k : RequestKind, k.code ≠ b) → s.offersFrame p { kind := b, body := body } →
      exec (.requestOfUnknownKind p) s = .next (((s.dropRequest p).captureLink p .unknownKind).pushAnswer p
        { kind := b, body := body } .unknown [b])) ∧
    ∀ k : RequestKind, s.offers p k body →
      (k.lengthOk body = false →
        exec (k.command p) s = .next (((s.dropRequest p).captureLink p .badLength).answered p k body .badField
          [k.code, byte body.length])) ∧
      (k.lengthOk body = true → k.permitted p body = false →
        exec (k.command p) s = .next ((s.dropRequest p).answered p k body .notPermitted [])) ∧
      ∀ r, p = .region r → (s.ports[r]).enabled = false → k.lengthOk body = true → k.permitted p body = true →
        k.isQuery = false → exec (k.command p) s = .next ((s.dropRequest p).answered p k body .noRegion []))

/-- A request waits while the port's answer queue holds 4 answers (R140) or a warning, an expiry or a trend sample of
the present second is due (R101, R102, R133; log entry 4), and a command for a request that is not the oldest of its
queue changes nothing (log entry 1). A timed event whose timer or deadline has not come changes nothing (entry 1). -/
def Obligations.CommandsWaitForTheirEvents : Prop :=
  (∀ (s : State) (p : Port) (k : RequestKind),
    s.advanceEventDue = true ∨ 4 ≤ (s.link p).answers.length ∨ (∀ f ∈ (s.link p).intake.head?, f.kind ≠ k.code) →
    exec (k.command p) s = .next s) ∧
  (∀ (s : State),
    (∀ c, (s.col c).filterCount ≠ some 0 → exec (.gaugeReadingChange c) s = .next s) ∧
    (∀ c, (s.col c).settleTimer ≠ some 0 → exec (.settleExpiry c) s = .next s) ∧
    (∀ c, (∀ g ∈ (s.col c).grant, g.timer ≠ some 0) → exec (.grantTimeout c) s = .next s) ∧
    (s.advanceDue = false → exec .secondsAdvance s = .next s) ∧
    (s.trendDue = false → exec .trendSample s = .next s) ∧
    (∀ h, (∀ x ∈ s.hand h, x.bookingTimer ≠ some 0) → exec (.bookingExpiry h) s = .next s) ∧
    (∀ h, (∀ x ∈ s.hand h, ∀ b ∈ x.budget, b.since = none ∨ b.warnAt ≠ some s.clock) →
      exec (.exposureWarning h) s = .next s) ∧
    ∀ h, (∀ x ∈ s.hand h, ∀ b ∈ x.budget, b.since = none ∨ b.expiryAt ≠ some s.clock) →
      exec (.exposureExpiry h) s = .next s)

/-- A request that is taken leaves its intake queue and receives exactly one answer, with its request number, as the
newest of its port's queue; no other port's link is touched (R140). No answer body exceeds 64 bytes, in a device whose
columns hold no more than their depth, and that at most 6 (R148). -/
def Obligations.OneAnswerForEachRequest : Prop :=
  ∀ (s t : State) (p : Port) (f : Frame) (c : Instr), s.offersFrame p f →
    ((∃ k : RequestKind, f.kind = k.code ∧ c = k.command p) ∨
      (∀ k : RequestKind, k.code ≠ f.kind) ∧ c = .requestOfUnknownKind p) →
    exec c s = .next t →
    (∃ a, t.link p = { s.link p with intake := (s.link p).intake.tail, answers := (s.link p).answers ++ [a] } ∧
      a.head? = some (f.body.headD 0) ∧
      ((∀ c, let k := s.col c; k.stack.length + k.inbound.length ≤ k.cfg.depth ∧ k.cfg.depth ≤ 6) → a.length ≤ 64)) ∧
    ∀ q, q ≠ p → t.link q = s.link q

/-- An answer joins its port's queue as request number, result code and data (R148, Table 9-8); an empty body gives the
request number 00h (R141). The code values of Tables 9-8, 9-10 and 11-1: results, states, causes, operations, claim
kinds, reasons, modes, gauge modes, classes, field orders, forcings, trends, dues, ports, reach sets, notice kinds and
error kinds, each error kind with its group. -/
def Obligations.AnswersAndCodesAreAsTheTablesList : Prop :=
  (∀ (s : State) (p : Port) (k : RequestKind) (body : List Byte) (x : Result) (data : List Byte),
    s.answered p k body x data =
      s.modLink p fun u => { u with answers := u.answers ++ [body.headD 0 :: x.code :: data] }) ∧
  ([Result.ok, .queued, .late, .full, .gated, .duplicate, .noRecord, .noRegion, .notYours, .badState, .stale, .fenced,
      .busy, .notGranted, .inProgress, .notPermitted, .badField, .unknown, .mismatch, .doubt].map Result.code =
    [0x00, 0x01, 0x02, 0x10, 0x11, 0x12, 0x13, 0x14, 0x15, 0x16, 0x17, 0x18, 0x19, 0x1A, 0x1B, 0x1C, 0x1D, 0x1E, 0x1F,
      0x20]) ∧
  ([ColState.unknown, .opened, .granted, .settling, .fenced, .disabled].map ColState.code = [0, 1, 2, 3, 4, 5]) ∧
  ([FenceCause.grantTimeout, .gaugeMismatch, .gaugeUnexpected, .gaugeFault, .supervisor].map FenceCause.code =
    [0, 1, 2, 3, 4]) ∧
  ([HandState.booked, .landing, .stored, .lifting, .shifting, .moving, .doubt, .closing].map HandState.code =
    [1, 2, 3, 4, 5, 6, 7, 8]) ∧
  ([OpKind.deposit, .lift, .shift, .holding].map OpKind.code = [0, 1, 2, 3]) ∧
  (∀ k, [Operation.deposit, .lift, .shift k, .holding].map Operation.kind = [.deposit, .lift, .shift, .holding]) ∧
  ([ClaimKind.deposit, .lift, .holding].map ClaimKind.code = [0, 1, 2]) ∧
  ([Reason.delivered, .withdrawn, .handedBack, .removed].map Reason.code = [0, 1, 3, 4]) ∧
  ([Mode.run, .hold, .drain, .freeze].map Mode.code = [0, 1, 2, 3]) ∧
  ([GaugeMode.off, .watch, .check].map GaugeMode.code = [0, 1, 2]) ∧
  ([BinClass.ambient, .chilled].map BinClass.code = [0, 1]) ∧
  ([FieldOrder.lowFirst, .highFirst].map FieldOrder.code = [0, 1]) ∧
  ([Forcing.automatic, .forcedOn, .forcedOff].map Forcing.code = [0, 1, 2]) ∧
  ([Trend.steady, .rising, .falling].map Trend.code = [0, 1, 2]) ∧
  (∀ t, [Due.pending t, .passed, .unknown].map Due.code = [0, 1, 2]) ∧ [false, true].map flagCode = [0, 1] ∧
  (Port.all = [.region 0, .region 1, .region 2, .region 3, .ps] ∧ Port.all.map portCode = [0, 1, 2, 3, 4]) ∧
  (∀ (s : RegionSet) (r : Region), RegionSet.has s r = (s.setWidth 8).getLsbD r.val) ∧
  ([NoticeKind.reset, .grant, .ready, .moved, .dismissed, .withdrawn, .warn, .expired, .delivered, .handedBack, .fence,
      .load, .gauge, .error].map NoticeKind.ix = [0, 1, 2, 3, 4, 5, 6, 7, 8, 9, 10, 11, 12, 13]) ∧
  ([ErrorKind.badCheck, .truncated, .overlong, .unknownKind, .badLength, .notGranted, .staleReport, .grantTimeout,
      .gaugeMismatch, .gaugeUnexpected, .gaugeFault, .handedBack, .expired].map ErrorKind.code =
    [0, 1, 2, 3, 4, 5, 6, 7, 8, 9, 10, 11, 12]) ∧
  ∀ p, ([ErrorKind.badCheck, .truncated, .overlong, .unknownKind, .badLength].map fun e => (e.group p).val) =
      List.replicate 5 (portCode p).toNat ∧
    ([ErrorKind.notGranted, .staleReport, .grantTimeout, .gaugeMismatch, .gaugeUnexpected, .gaugeFault, .handedBack,
      .expired].map fun e => (e.group p).val) = [5, 5, 6, 6, 6, 6, 6, 7]

/-! ### Placement -/

/-- "a is earlier than b" (R59), case by case; of two distinct PENDING dues that lie within 4093 s of each other,
exactly one is the earlier. -/
def Obligations.DueOrder : Prop :=
  (∀ t : Seconds, Due.passed.earlier (.pending t) = true ∧ (Due.pending t).earlier .passed = false ∧
    (Due.pending t).earlier .unknown = true) ∧
  Due.passed.earlier .unknown = true ∧ Due.passed.earlier .passed = false ∧
  (∀ b, Due.unknown.earlier b = false) ∧
  (∀ a b : Seconds, (Due.pending a).earlier (.pending b) = true ↔ 1 ≤ (b - a).toNat ∧ (b - a).toNat ≤ 32767) ∧
  (∀ a : Seconds, (Due.pending a).earlier (.pending a) = false) ∧
  ∀ now a b : Seconds, 1 ≤ (a - now).toNat → (a - now).toNat ≤ 4094 → 1 ≤ (b - now).toNat → (b - now).toNat ≤ 4094 →
    a ≠ b → (Due.pending a).earlier (.pending b) = !(Due.pending b).earlier (.pending a)

/-- The score (R60), over stack, inbound set, class and wait list. Before an UNKNOWN due every PENDING and PASSED one
counts as blocking, before a PASSED due none does; the other class adds 64, and one more waiting claim 2. A column's
free room (R18) and the free room in service (R63). The three candidate sets (R62, R65, R67), each in ascending column
number. The lowest score wins, and among equals the lowest column number; an empty set gives no column (R61). -/
def Obligations.PlacementChoosesTheBest : Prop :=
  (∀ (s : State) (c : ColIx) (d : Due) (k : BinClass),
    let col := s.col c
    let placed := col.stack ++ col.inbound
    let terms (blocking : Nat) : Nat := 16 * blocking + 4 * (col.stack.length + col.inbound.length) +
      64 * (if col.cfg.cls = k then 0 else 1) + 2 * col.waitList.length
    s.score d k c = terms (placed.filter fun h => (s.hand h).any fun x => x.due.earlier d).length ∧
    s.score .unknown k c = terms (placed.filter fun h => (s.hand h).any fun x => x.due != .unknown).length ∧
    s.score .passed k c = terms 0 ∧
    (∀ other : BinClass, col.cfg.cls = k → other ≠ k → s.score d other c = s.score d k c + 64) ∧
    ∀ cl : Claim, (s.modCol c fun col => { col with waitList := cl :: col.waitList }).score d k c = s.score d k c + 2) ∧
  (∀ (s : State),
    let room (c : ColIx) : Nat := (s.col c).cfg.depth - (s.col c).stack.length - (s.col c).inbound.length
    let serves (c : ColIx) : Bool :=
      (s.col c).state == .opened || (s.col c).state == .granted || (s.col c).state == .settling
    (∀ c, (s.col c).freeRoom = room c) ∧ s.inServiceRoom = ((ColIx.all.filter serves).map room).sum) ∧
  (∀ (s : State),
    let serves (c : ColIx) : Prop :=
      (s.col c).state = .opened ∨ (s.col c).state = .granted ∨ (s.col c).state = .settling
    let reaches (c : ColIx) (r : Region) : Prop := RegionSet.has (s.col c).cfg.reach r = true
    (∀ (o t : Region), (s.bookingSet (.region o) t).Pairwise (· < ·) ∧ ∀ c, c ∈ s.bookingSet (.region o) t ↔
      serves c ∧ reaches c o ∧ reaches c t ∧ 1 ≤ (s.col c).freeRoom) ∧
    (∀ (p t : Region) (source : ColIx), (s.digSet p t source).Pairwise (· < ·) ∧ ∀ c, c ∈ s.digSet p t source ↔
      serves c ∧ c ≠ source ∧ reaches c p ∧ reaches c t ∧ 1 ≤ (s.col c).freeRoom ∧ (s.col c).waitList.length < 6) ∧
    ∀ (p t : Region), (s.movingSet p t).Pairwise (· < ·) ∧ ∀ c, c ∈ s.movingSet p t ↔
      serves c ∧ reaches c p ∧ reaches c t ∧ 1 ≤ (s.col c).freeRoom ∧ (s.col c).waitList.length < 6) ∧
  (∀ (s : State) (d : Due) (k : BinClass) (cands : List ColIx), cands.Pairwise (· < ·) →
    (s.best d k cands = none ↔ cands = []) ∧ ∀ c, s.best d k cands = some c ↔ s.wins d k cands c) ∧
  ∀ (s : State) (x : Handover) (p : Region) (source : ColIx),
    s.digTarget x p source = s.best x.due (if x.budget = none then .ambient else .chilled) (s.digSet p x.dest source)

/-! ### BOOK, CANCEL and CLAIM -/

/-- A BOOK that passes every test of R41 takes the lowest-numbered FREE record, fills it as R42 lists, joins it to the
inbound set of the column with the best score, and is answered OK with the number, the column and its height. A record
that is FREE stands in no inbound set (R17), which a premise says of the one taken. -/
def Obligations.BookFillsLowestFreeRecord : Prop :=
  ∀ (s : State) (r dest : Region) (n urgency : Byte) (bin : BinNo) (hd : Heading) (dueIn budget : BitVec 16)
    (h : HNum) (c : ColIx),
    let f := s.ports[r]
    let u := max 1 (min 5 urgency.toNat)
    let body := bookBody f.order n bin (byte dest.val) urgency (byte hd.val) dueIn budget
    s.offers (.region r) .book body → s.regionOn r → bin ≠ 0 → dest ≠ r → (∀ k, ¬ s.holdsBin k bin) →
    s.hand h = none → (∀ k, k < h → s.hand k ≠ none) → s.load.depositGate ≤ u →
    s.wins (statedDue s.clock dueIn) (statedClass budget) (s.bookingSet (.region r) dest) c →
    s.limits.digReserve ≤ s.inServiceRoom - 1 → 1 ≤ s.inServiceRoom → h ∉ (s.col c).inbound →
    let booked := ((s.dropRequest (.region r)).setHand h (some {
      state := .booked, bin := bin, origin := .region r, dest := dest, urgency := u,
      due := statedDue s.clock dueIn, heading := f.headingFromLocal hd, column := some c, target := none,
      bookingTimer := some s.limits.booking, holder := none, doubt := none, budget := statedBudget budget,
      closing := none, follower := none })).modCol c fun k => { k with inbound := insertHand h k.inbound }
    exec (.book (.region r)) s = .next ((Work.handOccupancy { st := booked, sel := [] }).finish.answered (.region r)
      .book body .ok [byte h.val, byte (f.toLocal c), byte ((s.col c).stack.length + (s.col c).inbound.length + 1)])

/-- The refusals of a BOOK in the order of R41, tests 3 to 7, each with its data and no other change. -/
def Obligations.BookRefusals : Prop :=
  ∀ (s : State) (r : Region) (n dst urgency hdg : Byte) (bin : BinNo) (dueIn budget : BitVec 16),
    let u := max 1 (min 5 urgency.toNat)
    let body := bookBody (s.ports[r]).order n bin dst urgency hdg dueIn budget
    let refused (x : Result) (data : List Byte) : Prop :=
      exec (.book (.region r)) s = .next ((s.dropRequest (.region r)).answered (.region r) .book body x data)
    s.offers (.region r) .book body → s.regionOn r →
    (bin = 0 ∨ 3 < dst ∨ 3 < hdg ∨ dst = byte r.val → refused .badField []) ∧
    ∀ dest : Region, bin ≠ 0 → dst = byte dest.val → hdg ≤ 3 → dest ≠ r →
      (∀ h, s.holdsBin h bin → (∀ k, k < h → ¬ s.holdsBin k bin) → refused .duplicate [byte h.val]) ∧
      ((∀ k, ¬ s.holdsBin k bin) →
        ((∀ k, s.hand k ≠ none) → refused .noRecord []) ∧
        ((∃ k, s.hand k = none) →
          (u < s.load.depositGate → refused .gated [byte s.load.depositGate, byte u]) ∧
          (s.load.depositGate ≤ u →
            (s.bookingSet (.region r) dest = [] → refused .full [0, byte s.inServiceRoom]) ∧
            (s.bookingSet (.region r) dest ≠ [] → s.inServiceRoom - 1 < s.limits.digReserve ∨ s.inServiceRoom = 0 →
              refused .full [byte (s.bookingSet (.region r) dest).length, byte s.inServiceRoom]))))

/-- CANCEL (R47): a BOOKED record of the port goes FREE, its claim and its place in the inbound set go, and selection
starts in every OPEN column; every other record is refused in the order of the rule's tests. -/
def Obligations.CancelFreesABooking : Prop :=
  ∀ (s : State) (r : Region) (n b : Byte),
    let body := [n, b]
    let refused (x : Result) : Prop :=
      exec (.cancel (.region r)) s = .next ((s.dropRequest (.region r)).answered (.region r) .cancel body x [])
    s.offers (.region r) .cancel body → s.regionOn r →
    (31 < b → refused .badField) ∧
    ∀ h : HNum, b = byte h.val →
      (s.hand h = none → refused .stale) ∧
      ∀ x, s.hand h = some x →
        (x.origin ≠ .region r → refused .notYours) ∧
        (x.origin = .region r → x.state = .landing → refused .inProgress) ∧
        (x.origin = .region r → x.state ≠ .landing → x.state ≠ .booked → refused .badState) ∧
        ∀ c, x.origin = .region r → x.state = .booked → x.column = some c →
          let freed := ((s.dropRequest (.region r)).setHand h none).modCol c fun k =>
            { k with waitList := k.waitList.filter fun cl => cl.handover != h
                     inbound := k.inbound.filter fun k => k != h }
          exec (.cancel (.region r)) s = .next
            ((Work.handOccupancy { st := freed, sel := ColIx.all }).finish.answered (.region r) .cancel body .ok
              (byte h.val :: put24 (s.ports[r]).order x.bin))

/-- A CLAIM that passes the tests of R70 joins the wait list of its record's column as the newest claim, which starts a
selection there, and is answered QUEUED (R71). Its stamp is the counter's value, which then goes on; at the greatest
stamp renumbering gives every claim and follower a stamp from 0 upward and leaves their order of age, and the counter
goes on from their number (R69). A claim that joins a list stands at its place by stamp, behind those of its age (R73);
a new HOLDING claim takes the next stamp, as a CLAIM does. -/
def Obligations.ClaimJoinsTheWaitList : Prop :=
  (∀ (s : State) (r : Region) (n robot : Byte) (lift : Bool) (h : HNum) (x : Handover) (c : ColIx),
    let body := [n, robot, if lift then 1 else 0, byte h.val]
    s.offers (.region r) .claim body → s.regionOn r → s.hand h = some x → x.column = some c →
    (lift = true → x.dest = r ∧ x.state = .stored) →
    (lift = false → x.origin = .region r ∧ x.state = .booked) →
    s.robotBusy ⟨r, robot⟩ = false → s.recordClaimed h = false →
    (s.col c).state ≠ .unknown → (s.col c).state ≠ .fenced → (s.col c).waitList.length < 6 →
    ((s.col c).waitList.filter Claim.isRegion).length < 4 →
    (∀ cl ∈ (s.col c).waitList, cl.stamp ≤ s.stampCounter) →
    let claim : Claim := { robot := ⟨r, robot⟩, kind := if lift then .lift else .deposit, handover := h,
                           stamp := s.stampCounter, blocked := false }
    let joined := ((s.dropRequest (.region r)).modCol c fun k =>
      { k with waitList := k.waitList ++ [claim] }).advanceStamp
    exec (.claim (.region r)) s = .next ((Work.finish { st := joined, sel := [c] }).answered (.region r) .claim body
      .queued ([byte h.val, byte ((s.ports[r]).toLocal c)] ++
        (if lift then [byte ((s.col c).stack.reverse.findIdx fun k => k == h)] else []) ++
        [byte ((s.col c).waitList.length + 1)]))) ∧
  (∀ (s : State), s.stampCounter = 4294967295 →
    s.advanceStamp.stampCounter = s.stamps.length ∧
    ∃ f : Nat → Nat, (∀ a ∈ s.stamps, ∀ b ∈ s.stamps, a < b → f a < f b) ∧ (∀ a ∈ s.stamps, f a < s.stamps.length) ∧
      (∀ c, s.advanceStamp.col c = { s.col c with
        waitList := (s.col c).waitList.map fun cl => { cl with stamp := f cl.stamp }
        grant := (s.col c).grant.map fun g => { g with claim := { g.claim with stamp := f g.claim.stamp } } }) ∧
      ∀ h, s.advanceStamp.hand h = (s.hand h).map fun x =>
        { x with follower := x.follower.map fun y => { y with stamp := f y.stamp } }) ∧
  (∀ (s : State), s.stampCounter < 4294967295 → s.advanceStamp = { s with stampCounter := s.stampCounter + 1 }) ∧
  ∀ (w : Work) (c : ColIx),
    (∀ cl, w.join c cl = {
      st := w.st.modCol c fun k => { k with
        waitList := k.waitList.takeWhile (fun x => x.stamp ≤ cl.stamp) ++
          cl :: k.waitList.dropWhile fun x => x.stamp ≤ cl.stamp }
      sel := c :: w.sel }) ∧
    ∀ rb kind h, w.joinNew c rb kind h = (w.join c
      { robot := rb, kind := kind, handover := h, stamp := w.st.stampCounter, blocked := false }).up State.advanceStamp

/-- The refusals of a CLAIM in the order of R70, tests 2 to 7; nothing is captured and nothing else changes. A robot is
busy with a claim, waiting or granted, or as a follower, and a record has a claim waiting or granted. -/
def Obligations.ClaimRefusals : Prop :=
  (∀ s : State,
    (∀ rb, s.robotBusy rb = true ↔
      (∃ c, (∃ cl ∈ (s.col c).waitList, cl.robot = rb) ∨ ∃ g ∈ (s.col c).grant, g.claim.robot = rb) ∨
      ∃ h, ∃ x ∈ s.hand h, ∃ f ∈ x.follower, f.robot = rb) ∧
    ∀ h, s.recordClaimed h = true ↔
      ∃ c, (∃ cl ∈ (s.col c).waitList, cl.handover = h) ∨ ∃ g ∈ (s.col c).grant, g.claim.handover = h) ∧
  ∀ (s : State) (r : Region) (n robot op b : Byte),
    let body := [n, robot, op, b]
    let refused (x : Result) : Prop :=
      exec (.claim (.region r)) s = .next ((s.dropRequest (.region r)).answered (.region r) .claim body x [])
    s.offers (.region r) .claim body → s.regionOn r →
    (31 < b ∨ 1 < op → refused .badField) ∧
    ∀ h : HNum, b = byte h.val → op ≤ 1 →
      (s.hand h = none → refused .stale) ∧
      ∀ x, s.hand h = some x →
        (x.state = .closing → refused .stale) ∧
        (x.state ≠ .closing →
          (op = 0 → x.origin ≠ .region r → refused .notYours) ∧ (op = 1 → x.dest ≠ r → refused .notYours) ∧
          (op = 0 → x.origin = .region r → x.state ≠ .booked → refused .badState) ∧
          (op = 1 → x.dest = r → x.state ≠ .stored → refused .badState) ∧
          ∀ c, x.column = some c →
            (op = 0 ∧ x.origin = .region r ∧ x.state = .booked ∨ op = 1 ∧ x.dest = r ∧ x.state = .stored) →
            (s.robotBusy ⟨r, robot⟩ = true ∨ s.recordClaimed h = true → refused .duplicate) ∧
            (s.robotBusy ⟨r, robot⟩ = false → s.recordClaimed h = false →
              ((s.col c).state = .unknown ∨ (s.col c).state = .fenced → refused .fenced) ∧
              ((s.col c).state ≠ .unknown → (s.col c).state ≠ .fenced →
                6 ≤ (s.col c).waitList.length ∨ 4 ≤ ((s.col c).waitList.filter Claim.isRegion).length →
                refused .busy)))

/-! ### Load, selection, charging and endings -/

/-- The gates of each mode and of the setpoints (R125, Table 8-2). Occupancy (R19) is the sum of stack length and
inbound count over the columns neither UNKNOWN nor DISABLED. An AUTOMATIC setpoint turns on at or above its on-level and
off at or below its off-level, and keeps its state otherwise; a forced one keeps it always (R130). The trend compares
the newest and oldest samples with the step (R134). A change of the Load Monitor (R127, R132, R134, R135): LOAD is
posted to the enabled region ports exactly when a setpoint state or the trend changes, and a fall of the deposit gate or
the lift gate, and nothing else, starts selection in every OPEN column. -/
def Obligations.LoadGatesSetpointsAndTrend : Prop :=
  (∀ s : State, s.occupancy = ((ColIx.all.filter fun c => (s.col c).state != .unknown && (s.col c).state != .disabled).map
    fun c => (s.col c).stack.length + (s.col c).inbound.length).sum) ∧
  (∀ s : State, s.enabledRegions = (([0, 1, 2, 3] : List Region).filter fun r => (s.ports[r]).enabled).map .region) ∧
  (∀ l : LoadMonitor,
    l.depositGate = max
      (match l.mode with | .run => 1 | .hold => l.holdLevel | .drain => 8 | .freeze => 8)
      (if l.full.on then 8 else if l.high.on then l.highLevel else 1) ∧
    l.modeDepositGate = (match l.mode with | .run => 1 | .hold => l.holdLevel | .drain => 8 | .freeze => 8) ∧
    l.liftGate = (match l.mode with | .run => 1 | .hold => 1 | .drain => 1 | .freeze => 8)) ∧
  ((∀ (p : Setpoint) (occ : Nat),
    (p.forcing ≠ .automatic → p.judge occ = p) ∧
    (p.forcing = .automatic → p.on = false → p.judge occ = { p with on := decide (p.onLevel ≤ occ) }) ∧
    (p.forcing = .automatic → p.on = true → p.judge occ = { p with on := decide (p.offLevel < occ) })) ∧
  ∀ l : LoadMonitor, l.judgeTrend = { l with trend :=
    if l.samples[0] + l.trendStep ≤ l.samples[6] then .rising
    else if l.samples[6] + l.trendStep ≤ l.samples[0] then .falling else .steady }) ∧
  (∀ (w : Work) (l : LoadMonitor),
    let old := w.st.load
    let changed : Prop := old.high.on ≠ l.high.on ∨ old.full.on ≠ l.full.on ∨ old.trend ≠ l.trend
    let falls : Prop := l.depositGate < old.depositGate ∨ l.liftGate < old.liftGate
    let told : State := if changed then (w.st.setLoad l).postAll w.st.enabledRegions .load else w.st.setLoad l
    (falls → w.setLoad l = { st := told, sel := ColIx.all ++ w.sel }) ∧
    (¬ falls → w.setLoad l = { st := told, sel := w.sel }) ∧
    w.handOccupancy = w.setLoad (w.st.load.judge w.st.occupancy))

/-- Which claims are eligible, and the choice of a selection (R74, R75): an eligible claim, of the highest urgency, a
HOLDING claim counting as 7, and of the oldest stamp among equals. A selection does nothing but at an OPEN column with a
claim waiting. It marks BLOCKED exactly the LIFT claims whose bin is not on top and for whose port no dig is possible
(R74); with no eligible claim nothing else changes. With one, the claim leaves the list for the grant slot and the
column is GRANTED (R77); notice sent is no and the timer not started, unless the level of GRANT is 0 (R78; log entry
10). The record changes by the operation (Table 5-4): a SHIFT takes the top record to the best of its dig-target set,
whose inbound set it joins, and occupancy is handed on. Charging is compared for the grant's record, and GRANT is posted
to the claim's port. -/
def Obligations.SelectionGrantsMostUrgentOldest : Prop :=
  (∀ (s : State) (c : ColIx) (claims : List Claim),
    let urgency (cl : Claim) : Nat := if cl.kind = .holding then 7 else s.urgencyOf cl.handover
    let able (cl : Claim) : Prop :=
      cl.kind = .holding ∨ cl.kind = .deposit ∧ s.load.depositGate ≤ urgency cl ∨
      cl.kind = .lift ∧ s.load.liftGate ≤ urgency cl ∧
        ((s.col c).stack.getLast? = some cl.handover ∨ ∃ k x, (s.col c).stack.getLast? = some k ∧ s.hand k = some x ∧
          x.state = .stored ∧ s.digSet cl.robot.port x.dest c ≠ [])
    (∀ cl, s.eligible c cl = true ↔ able cl) ∧
    (∀ h, s.urgencyOf h = ((s.hand h).map Handover.urgency).getD 0) ∧
    (s.choose (claims.filter (s.eligible c)) = none ↔ ∀ cl ∈ claims, ¬ able cl) ∧
    ∀ cl, s.choose (claims.filter (s.eligible c)) = some cl →
      cl ∈ claims ∧ able cl ∧ ∀ x ∈ claims, able x →
        urgency x < urgency cl ∨ urgency x = urgency cl ∧ cl.stamp ≤ x.stamp) ∧
  (∀ (w : Work) (c : ColIx),
    let s := w.st
    let top := (s.col c).stack.getLast?
    let digs (p : Region) : Bool :=
      (top.bind s.hand).any fun x => x.state == .stored && !(s.digSet p x.dest c).isEmpty
    let marked := (s.col c).waitList.map fun cl =>
      { cl with blocked := cl.kind == .lift && !(top == some cl.handover || digs cl.robot.port) }
    let after := w.up fun s => s.modCol c fun k => { k with waitList := marked }
    ((s.col c).state ≠ .opened ∨ (s.col c).waitList = [] → w.select c = w) ∧
    ((s.col c).state = .opened → (s.col c).waitList ≠ [] → s.choose (marked.filter (s.eligible c)) = none →
      w.select c = after) ∧
    ∀ cl, (s.col c).state = .opened → s.choose (marked.filter (s.eligible c)) = some cl →
      let untold : Bool := s.level .grant == 0
      let rest := marked.filter fun x => x != cl
      let granted (w : Work) (op : Operation) (h : HNum) : Work := Work.up (Work.judgeCharging {
          st := w.st.modCol c fun k => { k with state := .granted, waitList := rest, grant := some {
            claim := { cl with blocked := false }, op := op, noticeSent := untold
            timer := if untold then some (10 * s.limits.grant) else none } }
          sel := if 6 ≤ marked.length ∧ rest.length < 6 then ColIx.all ++ w.sel else w.sel } h)
        fun s => s.post (.region cl.robot.port) (.grant c)
      let becomes (f : Handover → Handover) : Work :=
        after.up fun s => s.setHand cl.handover ((s.hand cl.handover).map f)
      (cl.kind = .deposit → w.select c = granted
        (becomes fun x => { x with state := .landing, bookingTimer := none }) .deposit cl.handover) ∧
      (cl.kind = .holding → w.select c = granted (becomes fun x => { x with state := .landing }) .holding cl.handover) ∧
      (cl.kind = .lift → top = some cl.handover →
        w.select c = granted (becomes fun x => { x with state := .lifting }) .lift cl.handover) ∧
      ∀ k x t, cl.kind = .lift → top = some k → k ≠ cl.handover → s.hand k = some x →
        s.wins x.due x.cls (s.digSet cl.robot.port x.dest c) t →
        w.select c = granted (Work.handOccupancy (after.up fun s =>
          (s.setHand k (some { x with state := .shifting, target := some t })).modCol t fun i =>
            { i with inbound := insertHand k i.inbound })) (.shift k) k)

/-- The charging condition of Table 6-1 (R98). The comparison of charging after an event (R98, R99, R100): a start sets
charging since and the deadlines, with the warning taken at once at or below the threshold; a stop stores the remaining
budget; otherwise nothing is done. A record is CHILLED exactly when it carries a budget, and its live remaining budget
is that less the seconds since charging began (R96, R105). -/
def Obligations.ChargingFollowsTheRecord : Prop :=
  (∀ (s : State) (x : Handover) (c : ColIx), x.column = some c →
    let ambient : Bool := decide ((s.col c).cfg.cls = .ambient)
    (x.state = .booked ∨ x.state = .closing → s.chargeCond x = false) ∧
    (x.state = .landing → s.chargeCond x = x.holder.isSome) ∧
    (x.state = .stored ∨ x.state = .lifting ∨ x.state = .shifting → s.chargeCond x = ambient) ∧
    (x.state = .moving → s.chargeCond x = true) ∧
    ∀ d, x.state = .doubt → x.doubt = some d →
      (d.op = .deposit → s.chargeCond x = false) ∧ (d.op = .holding → s.chargeCond x = true) ∧
      (d.op = .lift ∨ d.op = .shift → s.chargeCond x = ambient)) ∧
  (∀ (w : Work) (h : HNum) (x : Handover) (b : Budget), w.st.hand h = some x → x.budget = some b →
    let now := w.st.clock
    let warn := w.st.limits.warn
    let charges : Bool := !b.expired && w.st.chargeCond x
    let started (deadline : Option Seconds) : Handover := { x with budget := some { b with
      since := some now, expiryAt := some (now + BitVec.ofNat 16 b.remaining), warnAt := deadline } }
    (b.since = none → charges = true → b.warned = false → warn < b.remaining →
      w.judgeCharging h = w.up fun s =>
        s.setHand h (some (started (some (now + BitVec.ofNat 16 (b.remaining - warn)))))) ∧
    (b.since = none → charges = true → b.warned = true →
      w.judgeCharging h = w.up fun s => s.setHand h (some (started none))) ∧
    (b.since = none → charges = true → b.warned = false → b.remaining ≤ warn →
      w.judgeCharging h = Work.takeWarning (w.up fun s => s.setHand h (some (started none))) h) ∧
    (∀ t, b.since = some t → charges = false →
      w.judgeCharging h = w.up fun s => s.setHand h (some { x with budget := some { b with
        remaining := b.remaining - (now - t).toNat, since := none, expiryAt := none, warnAt := none } })) ∧
    (b.since.isSome = charges → w.judgeCharging h = w) ∧ w.takeWarning h =
      Work.up (Work.raiseUrgency (w.up fun s =>
        s.setHand h (some { x with budget := some { b with warned := true, warnAt := none } })) h 6)
        fun s => s.post (.region x.dest) (.warn h)) ∧
  (∀ (w : Work) (h : HNum) (f : Handover → Handover),
    w.change h f = (w.up fun s => s.setHand h ((s.hand h).map f)).judgeCharging h) ∧
  ∀ (x : Handover) (now : Seconds),
    x.cls = (if x.budget = none then .ambient else .chilled) ∧
    (x.budget = none → x.liveBudget now = 65535) ∧ ∀ b, x.budget = some b →
      (b.since = none → x.liveBudget now = b.remaining) ∧
      ∀ t, b.since = some t → x.liveBudget now = b.remaining - (now - t).toNat

/-- The entry into CLOSING (R49): with a port to wait for, the record keeps its bin, class, origin, destination,
urgency, due, heading and budget, its other fields become absent and the ending notice is posted to each port of the
waiting set; with none, or with the notice's level at 0, it goes FREE in the same step. The follower of a record that
has become STORED (R92): dismissed in a FENCED column, dismissed for want of room, or a LIFT claim with its stamp kept.
The end of a grant by a completion (R22): the slot is emptied, and the column goes to FENCED with cause SUPERVISOR when
fence pending is set, else to SETTLING with the timer of the settle interval in WATCH and CHECK, else to OPEN with a
selection started. -/
def Obligations.RecordsAndGrantsEnd : Prop :=
  (∀ (w : Work) (h : HNum) (reason : Reason) (ports : RegionSet) (n : Notice) (x : Handover), w.st.hand h = some x →
    let budget := x.budget.map fun b => match b.since with
      | some t => { b with remaining := b.remaining - (w.st.clock - t).toNat, since := none, expiryAt := none,
                           warnAt := none }
      | none => b
    let closed : Handover :=
      { x with state := .closing, column := none, target := none, bookingTimer := none, holder := none,
               doubt := none, follower := none, budget := budget, closing := some ⟨reason, ports⟩ }
    (w.st.level n.kind = 0 ∨ ports = 0 → w.close h reason ports n = w.up fun s => s.setHand h none) ∧
    (w.st.level n.kind ≠ 0 → ports ≠ 0 → w.close h reason ports n =
      w.up fun s => (s.setHand h (some closed)).postAll ((RegionSet.members ports).map .region) n)) ∧
  (∀ (w : Work) (c : ColIx) (h : HNum) (x : Handover), w.st.hand h = some x →
    let k := w.st.col c
    let left := w.up fun s => s.setHand h (some { x with follower := none })
    let full : Prop := 6 ≤ k.waitList.length ∨ 4 ≤ (k.waitList.filter Claim.isRegion).length
    (x.follower = none → w.settleFollower c h = w) ∧
    ∀ f, x.follower = some f →
      (k.state = .fenced →
        w.settleFollower c h = left.up fun s => s.post (.region f.robot.port) (.dismissed h f.robot.number 0)) ∧
      (k.state ≠ .fenced → full →
        w.settleFollower c h = left.up fun s => s.post (.region f.robot.port) (.dismissed h f.robot.number 1)) ∧
      (k.state ≠ .fenced → ¬ full →
        w.settleFollower c h =
          left.join c { robot := f.robot, kind := .lift, handover := h, stamp := f.stamp, blocked := false })) ∧
  (∀ (w : Work) (c : ColIx),
    let k := w.st.col c
    (k.fencePending = true → w.completeGrant c =
      Work.enterFenced (w.up fun s => s.modCol c fun k => { k with grant := none }) c .supervisor none) ∧
    (k.fencePending = false → k.cfg.gaugeMode ≠ .off → w.completeGrant c = w.up fun s =>
      s.modCol c fun k => { k with grant := none, state := .settling, settleTimer := some (2 ^ s.limits.settleExp) }) ∧
    (k.fencePending = false → k.cfg.gaugeMode = .off → w.completeGrant c =
      (w.up fun s => s.modCol c fun k => { k with grant := none, state := .opened }).start c))

/-- The entry into FENCED (R28): the column is FENCED with its cause, its settle timer is cancelled, fence pending is
clear, every DEPOSIT and LIFT claim and every BOOKED record has left it, and its stack and gauge fields stand. The steps
in their order: the capture, for every cause but SUPERVISOR; a DISMISSED item for each claim, in the order of the wait
list (log entry 25); the BOOKED and the MOVING records re-placed, each in ascending number; new targets for the records
shifted here; FENCE to the reach set and PS; and the occupancy, judged at the end (log entry 15). -/
def Obligations.FencingClearsPromises : Prop :=
  ∀ (w : Work) (c : ColIx) (cause : FenceCause) (who : Option (Robot × HNum)),
    let k := w.st.col c
    let k' := (w.enterFenced c cause who).st.col c
    (k'.state = .fenced ∧ k'.cause = some cause ∧ k'.fencePending = false ∧ k'.settleTimer = none ∧
      k'.cfg = k.cfg ∧ k'.stack = k.stack ∧ k'.grant = k.grant ∧ k'.reading = k.reading ∧
      (∀ cl ∈ k'.waitList, cl.kind = .holding ∧ cl ∈ k.waitList) ∧
      (∀ h ∈ k'.inbound, h ∈ k.inbound ∧ ∀ x, w.st.hand h = some x → x.state ≠ .booked)) ∧
    let entered := w.up fun s => s.modCol c fun k =>
      { k with state := .fenced, cause := some cause, fencePending := false, settleTimer := none }
    let capture (e : ErrorKind) : Work := entered.up fun s => s.capture 6 {
      kind := e, port := who.map fun x => .region x.1.port, robot := who.map fun x => x.1.number
      handover := who.map fun x => x.2, column := some c, time := s.clock
      reading := some (if k.cfg.gaugeMode = .off then 0 else k.reading), stackLen := some k.stack.length }
    let captured : Work := match cause with
      | .grantTimeout => capture .grantTimeout
      | .gaugeMismatch => capture .gaugeMismatch
      | .gaugeUnexpected => capture .gaugeUnexpected
      | .gaugeFault => capture .gaugeFault
      | .supervisor => entered
    let kept := k.waitList.filter fun cl => cl.kind == .holding
    let dismissed : Work := {
      st := (k.waitList.filter fun cl => cl.kind != .holding).foldl
        (fun s cl => s.post (.region cl.robot.port) (.dismissed cl.handover cl.robot.number 0))
        (captured.st.modCol c fun k => { k with waitList := kept })
      sel := if 6 ≤ k.waitList.length ∧ kept.length < 6 then ColIx.all ++ w.sel else w.sel }
    let among (w : Work) (st : HandState) : List HNum :=
      (w.st.col c).inbound.filter fun h => (w.st.hand h).any fun x => x.state == st
    let replaced := (among dismissed .booked).foldl (fun w h => w.replaceBooked c h) dismissed
    let moved := (among replaced .moving).foldl (fun w h => w.replaceMoving c h) replaced
    let aimed := (HNum.all.filter fun h => (moved.st.hand h).any fun x =>
      x.state == .shifting && x.target == some c && x.column != some c).foldl (fun w h => w.newTarget c h) moved
    w.enterFenced c cause who =
      (aimed.up fun s => s.postAll ((RegionSet.members k.cfg.reach).map .region ++ [.ps]) (.fence c)).handOccupancy

/-- What a fence does to one record. A BOOKED record goes to the best booking candidate, its claim gone, and MOVED is
posted to its origin; with none it is WITHDRAWN, cause FENCED, owed to its origin (R29). A MOVING record goes with its
HOLDING claim to the best column of its re-placement set; with none it is handed back: HANDED BACK is owed to the
holding port and the destination, and captured with the column (R30). A SHIFTING record gets the best dig target, or
none (R31). Leaving an inbound set starts selection in every OPEN column (R18), and so does a wait list falling from 6
to 5 (R76). -/
def Obligations.RecordsLeaveAFencedColumn : Prop :=
  (∀ (w : Work) (c : ColIx) (h : HNum), w.leaveInbound c h = {
    st := w.st.modCol c fun k => { k with inbound := k.inbound.filter fun i => i != h }, sel := ColIx.all ++ w.sel }) ∧
  ∀ (w : Work) (c : ColIx) (h : HNum) (x : Handover), w.st.hand h = some x →
    let s := w.st
    let left := s.modCol c fun k => { k with inbound := k.inbound.filter fun i => i != h }
    let goes (s : State) (d : ColIx) (y : Handover) : State :=
      (s.modCol d fun k => { k with inbound := insertHand h k.inbound }).setHand h (some y)
    let out : Work := { st := left, sel := ColIx.all ++ w.sel }
    (∀ d, s.wins x.due x.cls (s.bookingSet x.origin x.dest) d →
      w.replaceBooked c h = Work.up (Work.judgeCharging { st := goes left d { x with column := some d }
                                                          sel := ColIx.all ++ w.sel } h)
        fun s => s.post x.origin (.moved h)) ∧
    (s.bookingSet x.origin x.dest = [] →
      w.replaceBooked c h = out.close h .withdrawn (match x.origin with | .region r => RegionSet.single r | .ps => 0)
        (.withdrawn h x.bin 1)) ∧
    (∀ rb cl, x.holder = some rb → cl ∈ (s.col c).waitList → cl.handover = h →
      (∀ y ∈ (s.col c).waitList, y.handover = h → y = cl) →
      let others := (s.col c).waitList.filter fun y => y.handover != h
      let freed : List ColIx := if 6 ≤ (s.col c).waitList.length ∧ others.length < 6 then ColIx.all else []
      let gone := left.modCol c fun k => { k with waitList := others }
      (∀ d, s.wins x.due x.cls (s.movingSet rb.port x.dest) d →
        w.replaceMoving c h = (Work.judgeCharging { st := goes gone d { x with column := some d }
                                                    sel := freed ++ (ColIx.all ++ w.sel) } h).join d cl) ∧
      (s.movingSet rb.port x.dest = [] →
        w.replaceMoving c h = Work.handBack { st := gone, sel := ColIx.all ++ (freed ++ w.sel) } h c rb)) ∧
    (∀ rb, w.handBack h c rb =
      (w.close h .handedBack (RegionSet.single rb.port ||| RegionSet.single x.dest) (.handedBack h x.bin rb)).up fun s =>
        s.capture 6 {
          kind := .handedBack, port := some (.region rb.port), robot := some rb.number, handover := some h
          column := some c, time := s.clock
          reading := some (if (s.col c).cfg.gaugeMode = .off then 0 else (s.col c).reading)
          stackLen := some (s.col c).stack.length }) ∧
    ∀ source g, x.column = some source → (s.col source).grant = some g →
      (∀ d, s.wins x.due x.cls (s.digSet g.claim.robot.port x.dest source) d →
        w.newTarget c h = { st := goes left d { x with target := some d }, sel := ColIx.all ++ w.sel }) ∧
      (s.digSet g.claim.robot.port x.dest source = [] →
        w.newTarget c h = { st := left.setHand h (some { x with target := none }), sel := ColIx.all ++ w.sel })

/-! ### Completion reports -/

/-- The refusals of a LANDED, LIFTED or RELEASE (R80): a number above 31 is BAD_FIELD; a FREE or CLOSING record is
STALE, and no matching grant or doubt is NOT_GRANTED, each captured in the PROTOCOL group; a report that does not fit
the operation is BAD_STATE. -/
def Obligations.ReportRefusals : Prop :=
  ∀ (s : State) (r : Region) (n robot b : Byte) (k : RequestKind), k ∈ [RequestKind.landed, .lifted, .release] →
    let p := Port.region r
    let body := [n, robot, b]
    let refused (t : State) (x : Result) : Prop := exec (k.command p) s = .next (t.answered p k body x [])
    s.offers p k body → s.regionOn r →
    (31 < b → refused (s.dropRequest p) .badField) ∧
    ∀ h : HNum, b = byte h.val →
      let captured (e : ErrorKind) : State := (s.dropRequest p).capture 5
        { kind := e, port := some p, robot := some robot, handover := some h, column := none, time := s.clock,
          reading := none, stackLen := none }
      (s.hand h = none → refused (captured .staleReport) .stale) ∧
      ∀ x, s.hand h = some x →
        (x.state = .closing → refused (captured .staleReport) .stale) ∧
        (x.state ≠ .closing → s.noGrantTo ⟨r, robot⟩ h →
          x.state ≠ .doubt ∨ (∀ d ∈ x.doubt, d.robot ≠ ⟨r, robot⟩) → refused (captured .notGranted) .notGranted) ∧
        (∀ c g, x.state ≠ .closing → s.grantedTo c g ⟨r, robot⟩ h →
          (k = .landed ∧ (g.op.kind = .lift ∨ g.op.kind = .shift) ∨
            k = .lifted ∧ (g.op.kind = .deposit ∨ g.op.kind = .holding)) →
          refused (s.dropRequest p) .badState) ∧
        ∀ c d, x.state = .doubt → x.doubt = some d → d.robot = ⟨r, robot⟩ → x.column = some c →
          s.noGrantTo ⟨r, robot⟩ h →
          (k = .landed ∧ (d.op = .lift ∨ d.op = .shift) ∨ k = .lifted ∧ (d.op = .deposit ∨ d.op = .holding)) →
          refused (s.dropRequest p) .badState

/-- LANDED on time (R81, R82): the record goes from the inbound set to the top of the stack of the same column and is
STORED; a deposit posts READY, a holding landing loses its holder, posts MOVED and settles its follower; both to the
destination. Charging is compared, and the grant ends. -/
def Obligations.LandedStoresTheBin : Prop :=
  ∀ (s : State) (r : Region) (n robot : Byte) (h : HNum) (x : Handover) (c : ColIx) (g : Grant),
    let p := Port.region r
    let body := [n, robot, byte h.val]
    let data := [byte h.val, byte ((s.ports[r]).toLocal c), byte ((s.col c).stack.length + 1)]
    let landed (x : Handover) : State := ((s.dropRequest p).modCol c fun k =>
      { k with inbound := k.inbound.filter fun i => i != h, stack := k.stack ++ [h] }).setHand h (some x)
    s.offers p .landed body → s.regionOn r → s.hand h = some x → x.state ≠ .closing →
    s.grantedTo c g ⟨r, robot⟩ h →
    (g.op = .deposit → exec (.landed p) s = .next ((((Work.judgeCharging
      { st := (landed { x with state := .stored, doubt := none }).post (.region x.dest) (.ready h), sel := [] }
      h).completeGrant c).finish).answered p .landed body .ok data)) ∧
    (g.op = .holding → exec (.landed p) s = .next (((((Work.settleFollower
      { st := (landed { x with state := .stored, doubt := none, holder := none }).post (.region x.dest) (.moved h),
        sel := [] } c h).judgeCharging h).completeGrant c).finish).answered p .landed body .ok data))

/-- LIFTED on time on a LIFT (R83): the top of the stack is lifted, the record is DELIVERED to its origin, the grant
ends, and selection starts in every OPEN column; the answer gives bin, heading and live budget. LIFTED on time on a
SHIFT (R84, R85): the record leaves the top of its source, its own waiting LIFT claim leaves the list and becomes its
follower, robot and stamp kept, where a list that falls from 6 to 5 starts selection in every OPEN column (R92, R76),
and it is MOVING to the receiving column with a HOLDING claim that keeps the stamp of the claim that ends. The receiving
column is the target when that is in service with room in its wait list, a fresh dig target when the target is absent or
its list is full, and with none the bin is handed back. Going to a FENCED target, it is judged for charging as MOVING
before it is re-placed or handed back in the same step (log entry 19). The outcome byte of the answer is a free value
(log entry 8). -/
def Obligations.LiftedMovesTheBin : Prop :=
  (∀ (w : Work) (c : ColIx) (k : HNum),
    let list := (w.st.col c).waitList
    ((∀ cl ∈ list, cl.kind = .lift → cl.handover ≠ k) → w.makeFollower c k = w) ∧
    ∀ x cl, w.st.hand k = some x → cl ∈ list → cl.kind = .lift → cl.handover = k →
      (∀ y ∈ list, y.kind = .lift → y.handover = k → y = cl) →
      let others := list.filter fun y => y != cl
      w.makeFollower c k = {
        st := (w.st.modCol c fun k => { k with waitList := others }).setHand k
          (some { x with follower := some { robot := cl.robot, stamp := cl.stamp } })
        sel := if 6 ≤ list.length ∧ others.length < 6 then ColIx.all ++ w.sel else w.sel }) ∧
  (∀ (s : State) (f : PortConfig) (k : HNum),
    (∀ x d, s.hand k = some x → x.state = .moving → x.column = some d →
      shiftAnswer s f k = [byte (f.toLocal d), Config.liftedOutcome true]) ∧
    ((∀ x ∈ s.hand k, x.state ≠ .moving) → shiftAnswer s f k = [0xFF, Config.liftedOutcome false])) ∧
  (∀ (s : State) (r : Region) (n robot : Byte) (h : HNum) (x : Handover) (c : ColIx) (g : Grant),
    let p := Port.region r
    let f := s.ports[r]
    let body := [n, robot, byte h.val]
    let lifted := (s.dropRequest p).modCol c fun k => { k with stack := k.stack.dropLast }
    let ports : RegionSet := match x.origin with | .region o => RegionSet.single o | .ps => 0
    s.offers p .lifted body → s.regionOn r → s.hand h = some x → x.state ≠ .closing →
    s.grantedTo c g ⟨r, robot⟩ h → g.op = .lift →
    exec (.lifted p) s = .next ((((Work.handOccupancy { st := lifted, sel := ColIx.all }).close h .delivered ports
      (.delivered h)).completeGrant c).finish.answered p .lifted body .ok
        (byte h.val :: put24 f.order x.bin ++ byte (f.headingToLocal x.heading).val ::
          put16 f.order (BitVec.ofNat 16 (x.liveBudget s.clock))))) ∧
  (∀ (s : State) (r : Region) (n robot : Byte) (k : HNum) (x : Handover) (c : ColIx) (g : Grant),
    let p := Port.region r
    let f := s.ports[r]
    let rb : Robot := ⟨r, robot⟩
    let body := [n, robot, byte k.val]
    let out := Work.makeFollower { st := (s.dropRequest p).modCol c fun k => { k with stack := k.stack.dropLast }
                                   sel := ColIx.all } c k
    let fresh : Work := match x.target with | some t => out.leaveInbound t k | none => out
    let front := byte k.val :: put24 f.order x.bin
    let moved (w : Work) (d : ColIx) : Work := Work.join (w.change k fun x =>
        { x with state := .moving, holder := some rb, doubt := none, column := some d, target := none })
      d { robot := rb, kind := .holding, handover := k, stamp := g.claim.stamp, blocked := false }
    s.offers p .lifted body → s.regionOn r → s.hand k = some x → x.state ≠ .closing →
    s.grantedTo c g rb k → g.op.kind = .shift →
    (∀ t, x.target = some t → (out.st.col t).waitList.length < 6 → (out.st.col t).state ≠ .fenced →
      exec (.lifted p) s = .next (((moved out t).handOccupancy.completeGrant c).finish.answered p .lifted body .ok
        (front ++ [byte (f.toLocal t), Config.liftedOutcome true]))) ∧
    (∀ t, x.target = some t → (out.st.col t).state = .fenced →
      let w := ((moved out t).replaceMoving t k).handOccupancy
      exec (.lifted p) s =
        .next ((w.completeGrant c).finish.answered p .lifted body .ok (front ++ shiftAnswer w.st f k))) ∧
    ((∀ t ∈ x.target, 6 ≤ (out.st.col t).waitList.length ∧ (out.st.col t).state ≠ .fenced) →
      (∀ d, fresh.st.digTarget x r c = some d →
        exec (.lifted p) s = .next (((moved (fresh.up fun s => s.modCol d fun i =>
          { i with inbound := insertHand k i.inbound }) d).handOccupancy.completeGrant c).finish.answered p .lifted body
          .ok (front ++ [byte (f.toLocal d), Config.liftedOutcome true]))) ∧
      (fresh.st.digTarget x r c = none →
        exec (.lifted p) s = .next (((fresh.handBack k c rb).handOccupancy.completeGrant c).finish.answered p .lifted
          body .ok (front ++ [0xFF, Config.liftedOutcome false])))))

/-- RELEASE on time (R86): a deposit is BOOKED again with a fresh booking timer; a lift is STORED in place; a shift is
STORED in place and its place in the target's inbound set is given up; a holding landing is MOVING again with its claim
back in the wait list, or moves to another column when the list is full. The grant then ends. -/
def Obligations.ReleaseReversesTheGrant : Prop :=
  ∀ (s : State) (r : Region) (n robot : Byte) (h : HNum) (x : Handover) (c : ColIx) (g : Grant),
    let p := Port.region r
    let body := [n, robot, byte h.val]
    let taken : Work := { st := s.dropRequest p, sel := [] }
    let ended (w : Work) (code : Byte) : Prop :=
      exec (.release p) s = .next ((w.completeGrant c).finish.answered p .release body .ok [byte h.val, code])
    let moving := taken.change h fun x => { x with state := .moving, doubt := none }
    s.offers p .release body → s.regionOn r → s.hand h = some x → x.state ≠ .closing →
    s.grantedTo c g ⟨r, robot⟩ h →
    (g.op = .deposit →
      ended (taken.change h fun x =>
        { x with state := .booked, doubt := none, bookingTimer := some s.limits.booking }) 1) ∧
    (g.op = .lift → x.target = none →
      ended (taken.change h fun x => { x with state := .stored, doubt := none }) 3) ∧
    (g.op.kind = .shift → x.target = none →
      ended (taken.change h fun x => { x with state := .stored, doubt := none }).handOccupancy 3) ∧
    (∀ t, g.op.kind = .shift → x.target = some t →
      ended (Work.change { st := ((s.dropRequest p).modCol t fun k =>
          { k with inbound := k.inbound.filter fun i => i != h }), sel := ColIx.all } h
        fun x => { x with state := .stored, doubt := none, target := none }).handOccupancy 3) ∧
    (g.op = .holding → (s.col c).waitList.length < 6 → ended (moving.join c g.claim).handOccupancy 6) ∧
    (∀ d, g.op = .holding → 6 ≤ (s.col c).waitList.length →
      s.best x.due x.cls (s.movingSet g.claim.robot.port x.dest) = some d →
      ended (((((moving.leaveInbound c h).up fun s => s.modCol d fun k =>
        { k with inbound := insertHand h k.inbound }).change h fun x => { x with column := some d }).join d
          g.claim).handOccupancy) 6) ∧
    (g.op = .holding → 6 ≤ (s.col c).waitList.length →
      s.best x.due x.cls (s.movingSet g.claim.robot.port x.dest) = none →
      ended ((taken.leaveInbound c h).handBack h c g.claim.robot).handOccupancy
        (if s.level .handedBack = 0 then 0 else 8))

/-- Late reports LANDED and LIFTED (R88): answered LATE with the data of the report on time, applied to the DOUBT record
(its follower is made as in `LiftedMovesTheBin`), and the column's state is left as it is: no grant ends. Late RELEASE
(R89, R32): a doubted deposit is BOOKED with a fresh timer and re-placed at once; a lift or a shift is STORED in place;
a holding landing is MOVING with a new HOLDING claim and re-placed at once. The answer gives the state after the
reversal, before any re-placement (log entry 16). A late LIFTED to a FENCED target is judged for charging as MOVING
before its re-placement (log entry 19), and the outcome byte of its answer is free (log entry 8). The new HOLDING claim
may be its robot's second (log entry 26). -/
def Obligations.LateReportsSettleTheDoubt : Prop :=
  (∀ (s : State) (r : Region) (n robot : Byte) (h : HNum) (x : Handover) (c : ColIx) (d : Doubt),
    let p := Port.region r
    let f := s.ports[r]
    let rb : Robot := ⟨r, robot⟩
    let body := [n, robot, byte h.val]
    let data := [byte h.val, byte (f.toLocal c), byte ((s.col c).stack.length + 1)]
    let landed (x : Handover) : State := ((s.dropRequest p).modCol c fun k =>
      { k with inbound := k.inbound.filter fun i => i != h, stack := k.stack ++ [h] }).setHand h (some x)
    let lifted := (s.dropRequest p).modCol c fun k => { k with stack := k.stack.dropLast }
    let ports : RegionSet := match x.origin with | .region o => RegionSet.single o | .ps => 0
    s.regionOn r → s.hand h = some x → x.state = .doubt → x.doubt = some d → d.robot = rb → x.column = some c →
    s.noGrantTo rb h →
    (d.op = .deposit → s.offers p .landed body → exec (.landed p) s = .next ((Work.judgeCharging
      { st := (landed { x with state := .stored, doubt := none }).post (.region x.dest) (.ready h), sel := [] }
      h).finish.answered p .landed body .late data)) ∧
    (d.op = .holding → s.offers p .landed body → exec (.landed p) s = .next (((Work.settleFollower
      { st := (landed { x with state := .stored, doubt := none, holder := none }).post (.region x.dest) (.moved h),
        sel := [] } c h).judgeCharging h).finish.answered p .landed body .late data)) ∧
    (d.op = .lift → s.offers p .lifted body → exec (.lifted p) s = .next (((Work.handOccupancy
      { st := lifted, sel := ColIx.all }).close h .delivered ports (.delivered h)).finish.answered p .lifted body .late
        (byte h.val :: put24 f.order x.bin ++ byte (f.headingToLocal x.heading).val ::
          put16 f.order (BitVec.ofNat 16 (x.liveBudget s.clock))))) ∧
    (d.op = .shift → s.offers p .lifted body →
      let out := Work.makeFollower { st := lifted, sel := ColIx.all } c h
      let fresh : Work := match x.target with | some t => out.leaveInbound t h | none => out
      let front := byte h.val :: put24 f.order x.bin
      let late (w : Work) (place : List Byte) : Prop :=
        exec (.lifted p) s = .next (w.finish.answered p .lifted body .late (front ++ place))
      let moved (w : Work) (d : ColIx) : Work := Work.joinNew (w.change h fun x =>
        { x with state := .moving, holder := some rb, doubt := none, column := some d, target := none }) d rb .holding h
      (∀ t, x.target = some t → (out.st.col t).waitList.length < 6 → (out.st.col t).state ≠ .fenced →
        late (moved out t).handOccupancy [byte (f.toLocal t), Config.liftedOutcome true]) ∧
      (∀ t, x.target = some t → (out.st.col t).state = .fenced →
        let w := ((moved out t).replaceMoving t h).handOccupancy
        late w (shiftAnswer w.st f h)) ∧
      ((∀ t ∈ x.target, 6 ≤ (out.st.col t).waitList.length ∧ (out.st.col t).state ≠ .fenced) →
        (∀ d, fresh.st.digTarget x r c = some d →
          late (moved (fresh.up fun s => s.modCol d fun i => { i with inbound := insertHand h i.inbound })
            d).handOccupancy [byte (f.toLocal d), Config.liftedOutcome true]) ∧
        (fresh.st.digTarget x r c = none →
          late (fresh.handBack h c rb).handOccupancy [0xFF, Config.liftedOutcome false])))) ∧
  (∀ (s : State) (r : Region) (n robot : Byte) (h : HNum) (x : Handover) (c : ColIx) (d : Doubt),
    let p := Port.region r
    let rb : Robot := ⟨r, robot⟩
    let body := [n, robot, byte h.val]
    let taken : Work := { st := s.dropRequest p, sel := [] }
    let late (w : Work) (code : Byte) : Prop :=
      exec (.release p) s = .next (w.finish.answered p .release body .late [byte h.val, code])
    s.offers p .release body → s.regionOn r → s.hand h = some x → x.state = .doubt → x.doubt = some d →
    d.robot = rb → x.column = some c → s.noGrantTo rb h →
    (d.op = .deposit → late (Work.replaceBooked (taken.change h fun x =>
      { x with state := .booked, doubt := none, bookingTimer := some s.limits.booking }) c h).handOccupancy 1) ∧
    (d.op = .lift → x.target = none → late (taken.change h fun x => { x with state := .stored, doubt := none }) 3) ∧
    (d.op = .shift → x.target = none →
      late (taken.change h fun x => { x with state := .stored, doubt := none }).handOccupancy 3) ∧
    (∀ t, d.op = .shift → x.target = some t →
      late (Work.change { st := ((s.dropRequest p).modCol t fun k =>
          { k with inbound := k.inbound.filter fun i => i != h }), sel := ColIx.all } h
        fun x => { x with state := .stored, doubt := none, target := none }).handOccupancy 3) ∧
    (d.op = .holding → late (Work.replaceMoving ((taken.change h fun x =>
      { x with state := .moving, doubt := none }).joinNew c rb .holding h) c h).handOccupancy 6))

/-! ### REGION RESTART, queries and errors -/

/-- REGION RESTART (R52): the port's waiting DEPOSIT and LIFT claims go, its pending set is emptied, a GRANT item acting
as its sending, and it leaves every waiting set and loses its followers; HOLDING claims, grants and all else stand. The
answer gives how many claims went and how many records became FREE. That a removed GRANT item counts as sent is log
entry 10. -/
def Obligations.RegionRestartLetsGo : Prop :=
  ∀ (s : State) (r : Region) (n : Byte),
    let p := Port.region r
    let gone (cl : Claim) : Bool := cl.kind != .holding && cl.robot.port == r
    s.offers p .regionRestart [n] → s.regionOn r →
    ∃ w : Work,
      exec (.regionRestart p) s = .next (w.finish.answered p .regionRestart [n] .ok
        [byte (ColIx.all.map fun c => ((s.col c).waitList.filter gone).length).sum,
         byte (HNum.all.filter fun h => (s.hand h).isSome && (w.st.hand h).isNone).length]) ∧
      w.st = { s.dropRequest p with
        columns := w.st.columns, records := w.st.records, pendingSets := w.st.pendingSets } ∧
      (∀ q, w.st.pendingSet q = if q = p then [] else s.pendingSet q) ∧
      (∀ h, w.st.hand h = (s.hand h).bind (Handover.restarted r)) ∧
      (∀ c, w.st.col c = { s.col c with
        waitList := (s.col c).waitList.filter fun cl => !gone cl
        grant := (s.col c).grant.map fun g =>
          if Notice.grant c ∈ s.pendingSet p ∧ g.claim.robot.port = r then
            { g with noticeSent := true, timer := some (g.timer.getD (10 * s.limits.grant)) }
          else g }) ∧
      ∀ c, c ∈ w.sel ↔ ∃ d, 6 ≤ (s.col d).waitList.length ∧ (w.st.col d).waitList.length < 6

/-- QUERY HANDOVER, QUERY COLUMN and QUERY ERROR are answered from any port, a disabled one too, and change nothing but
the two queues of the link (R53, R35, R147). QUERY HANDOVER gives the 35 items of Table 3-5 in their order, in the
port's frame and field order, the last eleven by R95 from the record's one claim, or its follower; that the follower of
a record is given and not its HOLDING claim is the model's choice (log entry 30); a FREE record has its state alone.
QUERY COLUMN gives the items of R35, and QUERY ERROR the flags and the captured record. -/
def Obligations.QueriesAnswerAndChangeNothing : Prop :=
  ∀ (s : State) (p : Port) (n b : Byte) (v : BinNo),
    let f := s.view p
    let answers (k : RequestKind) (body : List Byte) (x : Result) (data : List Byte) : Prop :=
      exec (k.command p) s = .next ((s.dropRequest p).answered p k body x data)
    let flag (b : Bool) : Byte := if b then 1 else 0
    let column (c : Option ColIx) : Byte := (c.map fun c => byte (f.toLocal c)).getD 0xFF
    let two (x : Option (BitVec 16)) : List Byte := (x.map (put16 f.order)).getD [0xFF, 0xFF]
    let count (x : Option Nat) : List Byte := two (x.map (BitVec.ofNat 16))
    let record (h : HNum) (x : Handover) : List Byte :=
      [x.state.code, byte h.val] ++ put24 f.order x.bin ++ [if x.budget.isSome then 1 else 0,
        (match x.origin with | .region r => byte r.val | .ps => 4), byte x.dest.val, byte x.urgency, x.due.code] ++
      two (match x.due with | .pending t => some (t - s.clock) | .passed => none | .unknown => none) ++
      [byte (f.headingToLocal x.heading).val, column x.column, column x.target] ++ count x.bookingTimer ++
      [(x.holder.map fun r => byte r.port.val).getD 0xFF, (x.holder.map Robot.number).getD 0xFF,
        (x.doubt.map fun d => d.op.code).getD 0xFF, (x.doubt.map fun d => byte d.robot.port.val).getD 0xFF,
        (x.doubt.map fun d => d.robot.number).getD 0xFF] ++
      count (some (match x.budget with
        | none => 65535
        | some d => match d.since with | some t => d.remaining - (s.clock - t).toNat | none => d.remaining)) ++
      two (x.budget.bind Budget.since) ++
      [(x.budget.map fun d => flag d.warned).getD 0xFF, (x.budget.map fun d => flag d.expired).getD 0xFF,
        (x.closing.map fun y => y.reason.code).getD 0xFF, (x.closing.map fun y => y.waiting.setWidth 8).getD 0xFF]
    let given (h : HNum) (body : List Byte) : Prop :=
      let gives (data : List Byte) : Prop := answers .queryHandover body .ok data
      (s.hand h = none → gives [0]) ∧
      ∀ x, s.hand h = some x →
        (∀ y, x.follower = some y → gives (record h x ++ [2, byte y.robot.port.val, y.robot.number] ++
          List.replicate 9 0xFF)) ∧
        (x.follower = none →
          (s.recordClaimed h = false → gives (record h x ++ 0 :: List.replicate 11 0xFF)) ∧
          ((s.allClaims.filter fun cl => cl.handover == h).length = 1 →
            (∀ c i cl, (s.col c).waitList[i]? = some cl → cl.handover = h →
              gives (record h x ++ [1, byte cl.robot.port.val, cl.robot.number, cl.kind.code, flag cl.blocked,
                column (some c), byte i, 0xFF, 0xFF, 0xFF, 0xFF, 0xFF])) ∧
            ∀ c g, (s.col c).grant = some g → g.claim.handover = h →
              gives (record h x ++ [1, byte g.claim.robot.port.val, g.claim.robot.number, g.claim.kind.code, 2,
                column (some c), 0xFF, g.op.kind.code,
                (match g.op with
                  | .shift i => column ((s.hand i).bind fun y => y.target)
                  | .deposit | .lift | .holding => 0xFF),
                flag g.noticeSent] ++ count g.timer)))
    (s.offers p .queryHandover (n :: 0 :: put24 f.order v) →
      (∀ h : HNum, v.toNat = h.val → given h (n :: 0 :: put24 f.order v)) ∧
      (31 < v.toNat → answers .queryHandover (n :: 0 :: put24 f.order v) .badField [])) ∧
    (s.offers p .queryHandover (n :: 1 :: put24 f.order v) →
      let body := n :: 1 :: put24 f.order v
      (v = 0 → answers .queryHandover body .badField []) ∧
      (∀ h, v ≠ 0 → s.holdsBin h v → (∀ k, k < h → ¬ s.holdsBin k v) → given h body) ∧
      (∀ h, v ≠ 0 → (∀ k, ¬ s.holdsBin k v) → (∃ x, s.hand h = some x ∧ x.bin = v) →
        (∀ k, k < h → ∀ x ∈ s.hand k, x.bin ≠ v) → given h body) ∧
      (v ≠ 0 → (∀ k, ∀ x ∈ s.hand k, x.bin ≠ v) → answers .queryHandover body .stale [])) ∧
    (1 < b → s.offers p .queryHandover (n :: b :: put24 f.order v) →
      answers .queryHandover (n :: b :: put24 f.order v) .badField []) ∧
    (s.offers p .queryColumn [n, b] →
      (∀ c, b.toNat = f.toLocal c →
        let k := s.col c
        let g := k.cfg
        let entries (hs : List HNum) : List Byte := byte hs.length :: hs.flatMap fun h =>
          ((s.hand h).map fun x => byte h.val :: put24 f.order x.bin ++ [x.state.code]).getD []
        let region := k.waitList.filter fun cl => cl.kind != .holding
        (∀ h ∈ k.stack ++ k.inbound, s.hand h ≠ none) →
        answers .queryColumn [n, b] .ok
          ([b, k.state.code, (k.cause.map FenceCause.code).getD 0xFF, flag k.fencePending, flag g.enabled, g.cls.code,
            byte g.depth, g.reach.setWidth 8, g.gaugeMode.code, flag g.rise, flag g.fall] ++
            entries k.stack ++ entries k.inbound ++
            [byte (g.depth - k.stack.length - k.inbound.length), byte k.waitList.length, byte region.length,
             if g.gaugeMode = .off then 0 else byte k.reading.toNat])) ∧
      (7 < b → answers .queryColumn [n, b] .badField [])) ∧
    (s.offers p .queryError [n, b] →
      (∀ g : Fin 8, b = byte g.val →
        (∀ e, (s.group g).captured = some e → answers .queryError [n, b] .ok
          ([1, if (s.group g).multi then 1 else 0, e.kind.code,
            (match e.port with | some (.region r) => byte r.val | some .ps => 4 | none => 0xFF),
            e.robot.getD 0xFF, (e.handover.map fun h => byte h.val).getD 0xFF,
            (e.column.map fun c => byte (f.toLocal c)).getD 0xFF] ++ put16 f.order e.time ++
           [(e.reading.map fun x => byte x.toNat).getD 0xFF, (e.stackLen.map byte).getD 0xFF])) ∧
        ((s.group g).captured = none →
          answers .queryError [n, b] .ok [0, if (s.group g).multi then 1 else 0])) ∧
      (7 < b → answers .queryError [n, b] .badField []))

/-- QUERY STATUS (R146): the eight items in their order, from any port, and the last is not 0 exactly while ALERT is
asserted. -/
def Obligations.QueryStatusGivesTheStatus : Prop :=
  ∀ (s : State) (p : Port) (n : Byte), s.offers p .queryStatus [n] →
    let o := (s.view p).order
    let l := s.load
    let flag (b : Bool) : Byte := if b then 1 else 0
    let setpoint (x : Setpoint) : List Byte := [byte x.onLevel, byte x.offLevel, flag x.on, x.forcing.code]
    let captured : Byte := (List.finRange 8).foldl
      (fun b g => b ||| if (s.group g).captured.isSome then BitVec.twoPow 8 g.val else 0) 0
    exec (.queryStatus p) s = .next ((s.dropRequest p).answered p .queryStatus [n] .ok
      (put16 o s.clock ++ [l.mode.code, byte l.holdLevel, byte l.modeDepositGate, byte l.liftGate, byte l.depositGate] ++
        setpoint l.high ++ setpoint l.full ++ [byte l.highLevel, byte l.trendStep, l.trend.code] ++
        byte s.occupancy :: l.samples.toList.map byte ++ byte s.inServiceRoom ::
        put16 o (BitVec.ofNat 16 s.limits.booking) ++ [byte s.limits.grant, byte s.limits.digReserve] ++
        put16 o (BitVec.ofNat 16 s.limits.warn) ++ [byte s.limits.filterSteps, byte s.limits.settleExp, captured])) ∧
    (captured ≠ 0 ↔ s.alert = true)

/-- CLEAR ERRORS (R160): an admitted request empties the group and gives its flags as they stood; the ERROR item stays
pending and is valid only while the group holds a capture; from a region port another group is NOT_PERMITTED (R141), one
above 7 too, the earlier stage before the BAD_FIELD of R160 (log entry 22), and from PS a code above 7 is BAD_FIELD. A
further error then fills the emptied group and posts ERROR. -/
def Obligations.ClearErrorsEmptiesAGroup : Prop :=
  ∀ (s : State) (p : Port) (n : Byte),
    (∀ g : Fin 8, s.offers p .clearErrors [n, byte g.val] →
      p = .ps ∨ (∃ r : Region, p = .region r ∧ g.val = r.val ∧ s.regionOn r) →
      let cleared := (s.dropRequest p).modGroup g fun _ => { captured := none, multi := false }
      exec (.clearErrors p) s = .next (cleared.answered p .clearErrors [n, byte g.val] .ok
        [byte g.val, if (s.group g).captured.isSome then 1 else 0, if (s.group g).multi then 1 else 0]) ∧
      cleared.valid .ps (.error g) = false ∧ ((∀ i, i ≠ g → (s.group i).captured = none) → cleared.alert = false) ∧
      ∀ e, (cleared.capture g e).group g = { captured := some e, multi := false } ∧
        cleared.capture g e = (cleared.modGroup g fun _ => { captured := some e, multi := false }).post .ps (.error g)) ∧
    (∀ b : Byte, 7 < b → s.offers .ps .clearErrors [n, b] →
      exec (.clearErrors .ps) s = .next ((s.dropRequest .ps).answered .ps .clearErrors [n, b] .badField [])) ∧
    ∀ (r : Region) (b : Byte), b ≠ byte r.val → s.offers (.region r) .clearErrors [n, b] →
      exec (.clearErrors (.region r)) s =
        .next ((s.dropRequest (.region r)).answered (.region r) .clearErrors [n, b] .notPermitted [])

/-- ALERT is asserted exactly while a group holds a capture, whatever the levels, the links and the pending sets; it is
deasserted after power-on and while RESET is asserted, and REINITIALIZE keeps it; each captured group is one flag of the
status byte (R161). -/
def Obligations.AlertFollowsTheCaptures : Prop :=
  (∀ s : State, s.alert = true ↔ ∃ g, (s.group g).captured ≠ none) ∧
  (∀ s t : State, s.groups = t.groups → s.alert = t.alert) ∧
  (∀ (s : State) (g : Fin 8), s.capturedByte.getLsbD g.val = (s.group g).captured.isSome) ∧
  (∀ (s : State) (g : Fin 8) (e : Capture), (s.capture g e).alert = true) ∧
  (∀ s t : State, exec .powerOn s = .next t ∨ exec .resetInput s = .next t → t.alert = false) ∧
  ∀ (s t : State) (n : Byte), s.offers .ps .reinitialize [n] → exec (.reinitialize .ps) s = .next t → t.alert = s.alert

/-- An error fills its clear group and posts ERROR to PS; in a captured group it sets MULTI alone (R159). An error of a
link fills port and time in the LINK group of its port (Table 11-1). A post (R150): nothing at level 0; an item of the
same kind and subject keeps its place and takes the new snapshot; otherwise the item is the newest of the set. -/
def Obligations.ErrorsAndNoticesJoinOnce : Prop :=
  (∀ (s : State) (g : Fin 8) (e : Capture),
    ((s.group g).captured = none →
      s.capture g e = (s.modGroup g fun _ => { captured := some e, multi := false }).post .ps (.error g)) ∧
    ∀ x, (s.group g).captured = some x → s.capture g e = s.modGroup g fun _ => { captured := some x, multi := true }) ∧
  (∀ (s : State) (p : Port) (e : ErrorKind), s.captureLink p e =
    s.capture (match p with | .region r => ⟨r.val, by omega⟩ | .ps => 4)
      { kind := e, port := some p, robot := none, handover := none, column := none, time := s.clock, reading := none
        stackLen := none }) ∧
  (∀ (s : State) (n : Notice), s.postAll [] n = s ∧
    ∀ p ports, s.postAll (p :: ports) n = (s.post p n).postAll ports n) ∧
  (∀ (s : State) (p : Port) (n : Notice),
    (s.level n.kind = 0 → s.post p n = s) ∧
    (s.level n.kind ≠ 0 → (∀ m ∈ s.pendingSet p, n.same m = false) →
      s.post p n = s.modPending p fun items => items ++ [n]) ∧
    ∀ before m after, s.level n.kind ≠ 0 → s.pendingSet p = before ++ m :: after → s.NoticesDistinct →
      n.same m = true → s.post p n = s.modPending p fun _ => before ++ n :: after)

/-! ### Configuration, modes and setpoints -/

/-- CONFIGURE COLUMN (R2 to R6, R33): every change must meet its condition, or none is made and the answer is BAD_STATE
with the configuration as it stands; when all do, all are made at once. Disabling and enabling change the column's
state, a raised depth and an added port start selection in every OPEN column, and a change of a column that is OPEN and
stays enabled into CHECK at reading 7 fences it; one that is disabled by the same request is not fenced (log entry 13).
A CONFIGURE COLUMN whose flag, class, reach set or gauge mode names no value is refused BAD_FIELD with the configuration
as it stands, and changes nothing (R2, R144); so is one that names no column, whose answer carries seven bytes that are
free (log entry 12). -/
def Obligations.ConfigureColumnChangesAllOrNone : Prop :=
  (∀ (s : State) (n depth : Byte) (c : ColIx) (en rise fall : Bool) (cls : BinClass) (reach : RegionSet)
    (gauge : GaugeMode),
    let k := s.col c
    let old := k.cfg
    let new : ColumnConfig := { enabled := en, cls := cls, depth := max 2 (min 6 depth.toNat), reach := reach,
                                gaugeMode := gauge, rise := rise, fall := fall }
    let body := [n, byte c.val, flagCode en, cls.code, depth, reach.setWidth 8, gauge.code, flagCode rise, flagCode fall]
    let bytes (g : ColumnConfig) : List Byte := [flagCode g.enabled, g.cls.code, byte g.depth, g.reach.setWidth 8,
                                                 g.gaugeMode.code, flagCode g.rise, flagCode g.fall]
    let empty : Prop := k.stack = [] ∧ k.inbound = []
    let lost (q : Region) : Prop := RegionSet.has old.reach q = true ∧ RegionSet.has reach q = false
    let allowed : Prop :=
      (old.enabled = true → en = false → (k.state = .opened ∨ k.state = .fenced) ∧ empty ∧ k.waitList = []) ∧
      (new.depth ≠ old.depth → k.stack.length + k.inbound.length ≤ new.depth) ∧ (cls ≠ old.cls → empty) ∧
      (reach ≠ old.reach → k.state ≠ .granted ∧ k.waitList = [] ∧ ∀ q, lost q →
        (∀ h ∈ k.stack ++ k.inbound, ∀ x ∈ s.hand h, x.origin ≠ .region q ∧ x.dest ≠ q) ∧
        (∀ h ∈ k.inbound, ∀ x ∈ s.hand h, ∀ rb ∈ x.holder, rb.port ≠ q) ∧
        ∀ h, ∀ x ∈ s.hand h, x.target = some c → s.shiftPort h x ≠ some q) ∧
      (gauge ≠ old.gaugeMode → k.state ≠ .granted ∧ k.state ≠ .settling)
    let changed : Column :=
      if old.enabled = true ∧ en = false then
        { k with cfg := new, state := .disabled, cause := none, fencePending := false }
      else if old.enabled = false ∧ en = true then { k with cfg := new, state := .unknown }
      else { k with cfg := new }
    let base : Work := { st := (s.dropRequest .ps).modCol c fun _ => changed
                         sel := if old.depth < new.depth ∨ ∃ q, RegionSet.has reach q = true ∧
                           RegionSet.has old.reach q = false then ColIx.all else [] }
    s.offers .ps .configureColumn body →
    (¬ allowed → exec (.configureColumn .ps) s =
      .next ((s.dropRequest .ps).answered .ps .configureColumn body .badState (bytes old))) ∧
    (allowed → en ≠ old.enabled →
      exec (.configureColumn .ps) s =
        .next (base.handOccupancy.finish.answered .ps .configureColumn body .ok (bytes new))) ∧
    (allowed → en = old.enabled → ¬ (k.state = .opened ∧ gauge = .check ∧ old.gaugeMode ≠ .check ∧ k.reading = 7) →
      exec (.configureColumn .ps) s = .next (base.finish.answered .ps .configureColumn body .ok (bytes new))) ∧
    (allowed → en = old.enabled → k.state = .opened → gauge = .check → old.gaugeMode ≠ .check → k.reading = 7 →
      exec (.configureColumn .ps) s =
        .next ((base.enterFenced c .gaugeFault none).finish.answered .ps .configureColumn body .ok (bytes new)))) ∧
  (∀ (s : State) (n en cls depth reach gauge rise fall : Byte) (c : ColIx),
    let body := [n, byte c.val, en, cls, depth, reach, gauge, rise, fall]
    let g := (s.col c).cfg
    s.offers .ps .configureColumn body →
    1 < en ∨ 1 < cls ∨ 15 < reach ∨ 2 < gauge ∨ 1 < rise ∨ 1 < fall →
    exec (.configureColumn .ps) s = .next ((s.dropRequest .ps).answered .ps .configureColumn body .badField
      [flagCode g.enabled, g.cls.code, byte g.depth, g.reach.setWidth 8, g.gaugeMode.code, flagCode g.rise,
       flagCode g.fall])) ∧
  ∀ (s : State) (n b : Byte) (rest : List Byte), rest.length = 7 → 7 < b →
    s.offers .ps .configureColumn (n :: b :: rest) →
    ∃ data : List Byte, data.length = 7 ∧ exec (.configureColumn .ps) s =
      .next ((s.dropRequest .ps).answered .ps .configureColumn (n :: b :: rest) .badField data)

/-- CONFIGURE PORT (R8): the rotation is clamped; a change while the port has a claim or is the origin or destination of
a record that is not FREE is BAD_STATE; otherwise the configuration is replaced. The answer carries the configuration as
it then stands. A flag, mirror or field order that names no value is BAD_FIELD with the configuration as it stands, and
so is a port that names no region port, whose answer carries four bytes that are free (log entry 12). CONFIGURE LIMITS
(R145): the six values, clamped by Table 9-4, replace the stored ones, and nothing else changes; from a region port it
is NOT_PERMITTED; the defaults stand at power-on and the RESET input, and REINITIALIZE keeps the values. -/
def Obligations.ConfigurePortAndLimits : Prop :=
  (∀ (s : State) (n rot : Byte) (r : Region) (en mirror : Bool) (o : FieldOrder),
    let old := s.ports[r]
    let new : PortConfig := { enabled := en, rotation := if rot = 0 then 0 else if rot = 1 then 1 else if rot = 2 then 2
                                else 3, mirror := mirror, order := o }
    let body := [n, byte r.val, flagCode en, rot, flagCode mirror, o.code]
    let bytes (f : PortConfig) : List Byte := [flagCode f.enabled, byte f.rotation.val, flagCode f.mirror, f.order.code]
    let busy : Prop := (∃ c, ∃ cl ∈ (s.col c).waitList, cl.robot.port = r) ∨
      (∃ c, ∃ g ∈ (s.col c).grant, g.claim.robot.port = r) ∨
      ∃ h, ∃ x ∈ s.hand h, x.origin = .region r ∨ x.dest = r
    s.offers .ps .configurePort body →
    (new = old ∨ ¬ busy → exec (.configurePort .ps) s =
      .next (({ s.dropRequest .ps with ports := s.ports.set r.val new }).answered .ps .configurePort body .ok
        (bytes new))) ∧
    (new ≠ old → busy → exec (.configurePort .ps) s =
      .next ((s.dropRequest .ps).answered .ps .configurePort body .badState (bytes old)))) ∧
  (∀ (s : State) (n en rot mirror order : Byte) (r : Region),
    let body := [n, byte r.val, en, rot, mirror, order]
    let f := s.ports[r]
    s.offers .ps .configurePort body → 1 < en ∨ 1 < mirror ∨ 1 < order →
    exec (.configurePort .ps) s = .next ((s.dropRequest .ps).answered .ps .configurePort body .badField
      [flagCode f.enabled, byte f.rotation.val, flagCode f.mirror, f.order.code])) ∧
  (∀ (s : State) (n b : Byte) (rest : List Byte), rest.length = 4 → 3 < b →
    s.offers .ps .configurePort (n :: b :: rest) →
    ∃ data : List Byte, data.length = 4 ∧ exec (.configurePort .ps) s =
      .next ((s.dropRequest .ps).answered .ps .configurePort (n :: b :: rest) .badField data)) ∧
  (∀ (s : State) (n grant dig steps settle : Byte) (booking warn : BitVec 16),
    let body := n :: put16 .lowFirst booking ++ [grant, dig] ++ put16 .lowFirst warn ++ [steps, settle]
    let new : Limits := {
      booking := max 30 (min 900 booking.toNat), grant := max 10 (min 120 grant.toNat), digReserve := min 8 dig.toNat,
      warn := max 10 (min 600 warn.toNat), filterSteps := max 1 (min 8 steps.toNat),
      settleExp := max 1 (min 4 settle.toNat) }
    (s.offers .ps .configureLimits body → exec (.configureLimits .ps) s =
      .next (({ s.dropRequest .ps with limits := new }).answered .ps .configureLimits body .ok
        (put16 .lowFirst (BitVec.ofNat 16 new.booking) ++ [byte new.grant, byte new.digReserve] ++
          put16 .lowFirst (BitVec.ofNat 16 new.warn) ++ [byte new.filterSteps, byte new.settleExp]))) ∧
    ∀ r : Region, s.offers (.region r) .configureLimits body → exec (.configureLimits (.region r)) s =
      .next ((s.dropRequest (.region r)).answered (.region r) .configureLimits body .notPermitted [])) ∧
  (∀ s t : State, exec .powerOn s = .next t ∨ exec .resetInput s = .next t →
    t.limits = { booking := 300, grant := 45, digReserve := 2, warn := 60, filterSteps := 2, settleExp := 2 }) ∧
  ∀ s t : State, exec (.reinitialize .ps) s = .next t → t.limits = s.limits

/-- CONFIGURE NOTICES (R151, R152): a kind code above 13 is BAD_FIELD; RESET keeps its level 7; otherwise the clamped
level replaces the old. A level of 0 removes the kind's items from every pending set: a GRANT item starts the timer of
the grant it would have served, an ending item takes its port out of the waiting set, and nothing else changes. The
answer counts the items removed. That a removed GRANT item counts as sent is log entry 10. -/
def Obligations.ConfigureNoticesSetsALevel : Prop :=
  ∀ (s : State) (n b lvl : Byte),
    let body := [n, b, lvl]
    let answers (t : State) (x : Result) (data : List Byte) : Prop :=
      exec (.configureNotices .ps) s = .next (t.answered .ps .configureNotices body x data)
    s.offers .ps .configureNotices body →
    (13 < b → answers (s.dropRequest .ps) .badField []) ∧
    (b = 0 → answers (s.dropRequest .ps) .ok [0, 7, 0]) ∧
    ∀ k : NoticeKind, k ≠ .reset → b = byte k.ix.val →
      let set := { s.dropRequest .ps with levels := s.levels.set k.ix.val (min 7 lvl.toNat) k.ix.isLt }
      (lvl ≠ 0 → answers set .ok [b, byte (min 7 lvl.toNat), 0]) ∧
      (lvl = 0 → ∃ t, answers t .ok
          [b, 0, byte (Port.all.map fun p => ((s.pendingSet p).filter fun i => i.kind == k).length).sum] ∧
        t = { set with columns := t.columns, records := t.records, pendingSets := t.pendingSets } ∧
        (∀ p, t.pendingSet p = (s.pendingSet p).filter fun i => i.kind != k) ∧
        (∀ c, t.col c = { s.col c with
          grant := (s.col c).grant.map fun g =>
            if k = .grant ∧ Notice.grant c ∈ s.pendingSet (.region g.claim.robot.port) then
              { g with noticeSent := true, timer := some (g.timer.getD (10 * s.limits.grant)) }
            else g }) ∧
        ((k ≠ .withdrawn ∧ k ≠ .delivered ∧ k ≠ .handedBack) → t.records = s.records) ∧
        (k = .withdrawn ∨ k = .delivered ∨ k = .handedBack → ∀ h,
          let told (r : Region) : Prop := ∃ i ∈ s.pendingSet (.region r), i.kind = k ∧ i.subject = some h.val
          (∀ x cl, s.hand h = some x → x.closing = some cl →
            (∀ r, RegionSet.has cl.waiting r = true → ¬ told r) → t.hand h = some x) ∧
          (∀ x cl, s.hand h = some x → x.closing = some cl → cl.waiting ≠ 0 →
            (∀ r, RegionSet.has cl.waiting r = true → told r) → t.hand h = none) ∧
          (∀ x cl, s.hand h = some x → x.closing = some cl → (∃ r, RegionSet.has cl.waiting r = true ∧ ¬ told r) →
            ∃ left, t.hand h = some { x with closing := some { cl with waiting := left } } ∧
              ∀ r, RegionSet.has left r = true ↔ RegionSet.has cl.waiting r = true ∧ ¬ told r) ∧
          (s.hand h = none → t.hand h = none) ∧ ∀ x, s.hand h = some x → x.closing = none → t.hand h = some x))

/-- CONFIGURE LOAD (R129): levels, high level and trend step are clamped and replaced, AUTOMATIC setpoints are judged on
the present occupancy and the trend on the present samples. SET MODE (R126): mode and hold level are replaced, no notice
is posted, and selection starts in every OPEN column when a gate falls; a mode code above 3 is BAD_FIELD with no change,
and from a region port it is NOT_PERMITTED. FORCE (R131): ON and OFF set forcing and state, AUTOMATIC judges the
setpoint on the present occupancy, and the change acts as any change of setpoint does; a code that names no setpoint or
action is BAD_FIELD with no change. That their answers are from before the selections that the step starts is the
model's choice (log entry 27). -/
def Obligations.LoadModeAndForce : Prop :=
  (∀ (s : State) (n hOn hOff fOn fOff high step : Byte),
    let body := [n, hOn, hOff, fOn, fOff, high, step]
    let on (b : Byte) : Nat := max 1 (min 48 b.toNat)
    let off (a b : Byte) : Nat := min (min 48 b.toNat) (on a - 1)
    let l := s.load
    let new : LoadMonitor := ({ l with
      high := Setpoint.judge s.occupancy { l.high with onLevel := on hOn, offLevel := off hOn hOff }
      full := Setpoint.judge s.occupancy { l.full with onLevel := on fOn, offLevel := off fOn fOff }
      highLevel := max 2 (min 7 high.toNat), trendStep := max 1 (min 8 step.toNat) }).judgeTrend
    s.offers .ps .configureLoad body →
    exec (.configureLoad .ps) s = .next ((Work.setLoad { st := s.dropRequest .ps, sel := [] } new).finish.answered .ps
      .configureLoad body .ok
        [byte (on hOn), byte (off hOn hOff), byte (on fOn), byte (off fOn fOff), byte new.highLevel,
         byte new.trendStep, flagCode new.high.on, l.high.forcing.code, flagCode new.full.on, l.full.forcing.code,
         new.trend.code])) ∧
  (∀ (s : State) (n b hold : Byte),
    let body := [n, b, hold]
    (s.offers .ps .setMode body → ∀ m : Mode, b = m.code →
      let l := { s.load with mode := m, holdLevel := max 2 (min 7 hold.toNat) }
      exec (.setMode .ps) s = .next ((Work.finish
        { st := { s.dropRequest .ps with load := l }
          sel := if l.depositGate < s.load.depositGate ∨ l.liftGate < s.load.liftGate then ColIx.all else [] }).answered
        .ps .setMode body .ok
          [m.code, byte l.holdLevel, byte l.modeDepositGate, byte l.liftGate, byte l.depositGate])) ∧
    (3 < b → s.offers .ps .setMode body →
      exec (.setMode .ps) s = .next ((s.dropRequest .ps).answered .ps .setMode body .badField [])) ∧
    ∀ r : Region, s.offers (.region r) .setMode body →
      exec (.setMode (.region r)) s =
        .next ((s.dropRequest (.region r)).answered (.region r) .setMode body .notPermitted [])) ∧
  ∀ (s : State) (n sp act : Byte),
    let body := [n, sp, act]
    let forced (x : Setpoint) : Setpoint :=
      if act = 0 then { x with forcing := .forcedOn, on := true }
      else if act = 1 then { x with forcing := .forcedOff, on := false }
      else { x with forcing := .automatic
                    on := if x.onLevel ≤ s.occupancy ∧ x.on = false then true
                          else if s.occupancy ≤ x.offLevel ∧ x.on = true then false else x.on }
    let done (x : Setpoint) (l : LoadMonitor) : Prop :=
      exec (.force .ps) s = .next ((Work.setLoad { st := s.dropRequest .ps, sel := [] } l).finish.answered .ps .force body
        .ok [flagCode x.on, x.forcing.code, byte l.depositGate])
    s.offers .ps .force body →
    (act ≤ 2 → sp = 0 → done (forced s.load.high) { s.load with high := forced s.load.high }) ∧
    (act ≤ 2 → sp = 1 → done (forced s.load.full) { s.load with full := forced s.load.full }) ∧
    (1 < sp ∨ 2 < act →
      exec (.force .ps) s = .next ((s.dropRequest .ps).answered .ps .force body .badField []))

/-! ### FENCE, RESTORE, AMEND and REINITIALIZE -/

/-- FENCE (R26): an OPEN or SETTLING column enters FENCED with cause SUPERVISOR, a GRANTED one gets fence pending, a
FENCED one stays as it is, and an UNKNOWN or DISABLED one is refused BAD_STATE. RESTORE (R114, R27): refused BAD_STATE
unless FENCED, DOUBT while a DOUBT record names the column, and MISMATCH in CHECK while the reading differs from the
stack length; otherwise the column goes to OPEN without a cause, FENCE is posted to its reach set and PS, and selection
starts in every OPEN column. The state in the answer is from before it (log entry 27). -/
def Obligations.FenceAndRestore : Prop :=
  (∀ (s : State) (n b : Byte),
    let body := [n, b]
    let answers (t : State) (x : Result) : Prop := exec (.fence .ps) s = .next (t.answered .ps .fence body x [])
    s.offers .ps .fence body →
    (7 < b → answers (s.dropRequest .ps) .badField) ∧
    ∀ c : ColIx, b = byte c.val →
      ((s.col c).state = .opened ∨ (s.col c).state = .settling →
        answers (Work.enterFenced { st := s.dropRequest .ps, sel := [] } c .supervisor none).finish .ok) ∧
      ((s.col c).state = .granted →
        answers ((s.dropRequest .ps).modCol c fun k => { k with fencePending := true }) .ok) ∧
      ((s.col c).state = .fenced → answers (s.dropRequest .ps) .ok) ∧
      ((s.col c).state = .unknown ∨ (s.col c).state = .disabled → answers (s.dropRequest .ps) .badState)) ∧
  (∀ (s : State) (n b : Byte),
    let body := [n, b]
    let answers (t : State) (x : Result) (data : List Byte) : Prop :=
      exec (.restore .ps) s = .next (t.answered .ps .restore body x data)
    let refused (x : Result) (data : List Byte) : Prop := answers (s.dropRequest .ps) x data
    s.offers .ps .restore body →
    (7 < b → refused .badField []) ∧
    ∀ c : ColIx, b = byte c.val →
      let k := s.col c
      let reported : Byte := if k.cfg.gaugeMode = .off then 0 else byte k.reading.toNat
      let doubted (h : HNum) : Prop := ∃ x, s.hand h = some x ∧ x.state = .doubt ∧ x.column = some c
      let matching : Prop := k.cfg.gaugeMode = .check → k.reading.toNat = k.stack.length
      (k.state ≠ .fenced → refused .badState [k.state.code]) ∧
      (∀ h, k.state = .fenced → doubted h → (∀ i, i < h → ¬ doubted i) → refused .doubt [byte h.val]) ∧
      (k.state = .fenced → (∀ h, ¬ doubted h) → ¬ matching →
        refused .mismatch [byte k.reading.toNat, byte k.stack.length]) ∧
      (k.state = .fenced → (∀ h, ¬ doubted h) → matching →
        answers (Work.finish {
          st := ((s.dropRequest .ps).modCol c fun k => { k with state := .opened, cause := none }).postAll
            ((RegionSet.members k.cfg.reach).map .region ++ [.ps]) (.fence c)
          sel := ColIx.all }) .ok [1, byte k.stack.length, reported]))

/-- An AMEND entry is read LOW-FIRST with its quantities clamped, and refused when the bin is 0 or the destination or
heading names none; a list of encoded entries is read back entry by entry, up to the first refused one (Table 9-6,
R116). The refusals of an AMEND in the order of R116 and R117, each with its data and no other change: an entry whose
bin a record of this column holds and whose destination is its region origin; a bin listed twice, or held by a record in
use that is no record of this column; more new records needed than are FREE or would go FREE at once; more entries than
fit beside the inbound records that remain. The order of the two duplicate tests is a free value (log entry 11), so
where both apply the answer is one of the two. -/
def Obligations.AmendRefusals : Prop :=
  ((∀ (bin : BinNo) (dst urg hd : Byte) (dueIn budget : BitVec 16), bin = 0 ∨ 3 < dst ∨ 3 < hd →
    decodeEntry (put24 .lowFirst bin ++ [dst, urg, hd] ++ put16 .lowFirst dueIn ++ put16 .lowFirst budget) = none) ∧
  ∀ (fields : List (BinNo × Region × Byte × Heading × BitVec 16 × BitVec 16)) (pos : Nat),
    let bytes := fields.flatMap fun (bin, dest, urg, hd, dueIn, budget) => entryBody bin dest urg hd dueIn budget
    (∀ x ∈ fields, x.1 ≠ 0) →
    decodeEntries fields.length pos bytes =
      .ok (fields.map fun (bin, dest, urg, hd, dueIn, budget) => {
        bin := bin, dest := dest, urgency := max 1 (min 7 urg.toNat), heading := hd,
        dueIn := if 4095 < dueIn then 4094 else dueIn.toNat, budget := min 3600 budget.toNat }) ∧
    ∀ (bad rest : List Byte) (m : Nat), bad.length = 10 → decodeEntry bad = none →
      decodeEntries (fields.length + 1 + m) pos (bytes ++ bad ++ rest) = .error (pos + fields.length)) ∧
  (∀ (s : State) (n b count : Byte) (rest : List Byte), rest.length = 10 * count.toNat →
    let body := n :: b :: count :: rest
    let refused (x : Result) (data : List Byte) : Prop :=
      exec (.amend .ps) s = .next ((s.dropRequest .ps).answered .ps .amend body x data)
    s.offers .ps .amend body →
    (7 < b → refused .badField []) ∧
    ∀ c : ColIx, b = byte c.val →
      let k := s.col c
      (k.cfg.depth < count.toNat → refused .badField []) ∧
      (count.toNat ≤ k.cfg.depth →
        (∀ i, decodeEntries count.toNat 0 rest = .error i → refused .badField [byte i]) ∧
        ∀ es, decodeEntries count.toNat 0 rest = .ok es →
          let holder (e : AmendEntry) : Option HNum :=
            HNum.all.find? fun h => (s.hand h).any fun x => x.state != .closing && x.bin == e.bin
          let own (e : AmendEntry) : Option Handover := ((holder e).bind s.hand).filter fun x => x.column == some c
          let other (e : AmendEntry) : Option HNum := if own e = none then holder e else none
          let toItself (_ : Nat) (e : AmendEntry) : Prop := ∃ x ∈ own e, x.origin = .region e.dest
          let elsewhere (_ : Nat) (e : AmendEntry) : Prop := other e ≠ none
          let again (i : Nat) (e : AmendEntry) : Prop := ∃ j x, j < i ∧ es[j]? = some x ∧ x.bin = e.bin
          let first (p : Nat → AmendEntry → Prop) (i : Nat) : Prop :=
            (∃ e, es[i]? = some e ∧ p i e) ∧ ∀ j e, j < i → es[j]? = some e → ¬ p j e
          let listed (h : HNum) : Bool := (s.hand h).any fun x => es.any fun e => e.bin == x.bin
          (∀ i, first toItself i → refused .badField [byte i]) ∧
          ((∀ i, ¬ first toItself i) →
            (k.state ≠ .unknown → k.state ≠ .fenced → refused .badState [k.state.code]) ∧
            (k.state = .unknown ∨ k.state = .fenced →
              (∀ i, first again i → (∀ e ∈ es, other e = none) → refused .duplicate [byte i, 0xFF]) ∧
              (∀ i e h, first elsewhere i → es[i]? = some e → other e = some h →
                ((∀ j, ¬ first again j) → refused .duplicate [byte i, byte h.val]) ∧
                ∀ j, first again j →
                  refused .duplicate [byte j, 0xFF] ∨ refused .duplicate [byte i, byte h.val]) ∧
              ((∀ j, ¬ first again j) → (∀ e ∈ es, other e = none) →
                let needed := (es.filter fun e => (own e).isNone).length
                let available := (HNum.all.filter fun h => (s.hand h).isNone).length +
                  (if s.level .withdrawn = 0 then (k.stack.filter fun h => !listed h).length else 0)
                let released := (k.inbound.filter fun h =>
                  (s.hand h).any (fun x => x.state == .doubt && x.column == some c) && !listed h).length
                let shifted := (HNum.all.filter fun h => (s.hand h).any fun x =>
                  x.state == .doubt && x.target == some c && x.column != some c).length
                (available < needed → refused .noRecord [byte needed, byte available]) ∧
                (needed ≤ available → k.cfg.depth < es.length + (released + shifted) →
                  refused .full [byte es.length, byte (released + shifted)]))))))

/-- AMEND of any column in UNKNOWN or FENCED with any list that passes the tests of R116 and R117: the records of the
old stack are settled (R118) and the inbound record in DOUBT (R119), new records are made, the stack becomes the records
of the list, charging is judged, the column enters SETTLING or OPEN without a cause, FENCE is posted when it was FENCED,
READY to each destination, and selection starts in every OPEN column (R120); `AmendSettlesEachRecord` says what is done
to one record. AMEND with an empty list takes an empty UNKNOWN column into service, and AMEND with one bin that no
record in use holds makes a record of origin SUPERVISOR in the lowest FREE number (R120): the column goes to SETTLING or
OPEN without a cause, charging is judged, FENCE is posted when it was FENCED, READY goes to the destination, and
selection starts in every OPEN column. AMEND of a FENCED column that holds one STORED record (R118, R120): when its bin
is listed the record is restated, keeping number, bin and origin; when it is not, it leaves the stack and is REMOVED,
owed to its destination. The order within a step is log entry 25, and the state in the answer log entry 27, both the
model's choice. -/
def Obligations.AmendReinventoriesAColumn : Prop :=
  (∀ (s : State) (n urg : Byte) (bin : BinNo) (dest : Region) (hd : Heading) (dueIn budget : BitVec 16) (c : ColIx)
    (h : HNum),
    let k := s.col c
    let code : Byte := if k.cfg.gaugeMode = .off then 1 else 3
    let enter (w : Work) : Work :=
      if k.cfg.gaugeMode = .off then
        Work.start (w.up fun s => s.modCol c fun k => { k with state := .opened, cause := none }) c
      else w.up fun s => s.modCol c fun k =>
        { k with state := .settling, cause := none, settleTimer := some (2 ^ s.limits.settleExp) }
    let told (w : Work) : Work := if k.state = .fenced then w.up fun s =>
      s.postAll ((RegionSet.members k.cfg.reach).map .region ++ [.ps]) (.fence c) else w
    let x : Handover := {
      state := .stored, bin := bin, origin := .ps, dest := dest, urgency := max 1 (min 7 urg.toNat),
      due := statedDue s.clock dueIn, heading := hd, column := some c, target := none, bookingTimer := none,
      holder := none, doubt := none, budget := statedBudget budget, closing := none, follower := none }
    let taken := s.dropRequest .ps
    let placed := (taken.setHand h (some x)).modCol c fun k => { k with stack := [h], cause := none }
    let one := n :: byte c.val :: 1 :: entryBody bin dest urg hd dueIn budget
    k.state = .unknown ∨ k.state = .fenced → k.stack = [] → k.inbound = [] →
    (∀ i, ∀ y ∈ s.hand i, y.target ≠ some c) →
    (s.offers .ps .amend [n, byte c.val, 0] → exec (.amend .ps) s =
      .next ((told (enter { st := taken, sel := [] })).handOccupancy.startAll.finish.answered .ps .amend
        [n, byte c.val, 0] .ok [byte c.val, code, 0, 0, 0, 0, 0])) ∧
    (s.offers .ps .amend one → bin ≠ 0 → 1 ≤ k.cfg.depth → (∀ i, ¬ s.holdsBin i bin) → s.hand h = none →
      (∀ i, i < h → s.hand i ≠ none) →
      exec (.amend .ps) s = .next ((Work.up (told (enter (Work.judgeCharging { st := placed, sel := [] } h)))
        fun s => s.post (.region dest) (.ready h)).handOccupancy.startAll.finish.answered .ps .amend one .ok
          [byte c.val, code, 1, byte h.val, 0, 1, 0, 0]))) ∧
  (∀ (s : State) (n urg : Byte) (dest : Region) (hd : Heading) (dueIn budget : BitVec 16) (c : ColIx) (h : HNum)
    (x : Handover),
    let k := s.col c
    let code : Byte := if k.cfg.gaugeMode = .off then 1 else 3
    let enter (w : Work) : Work := Work.up
      (if k.cfg.gaugeMode = .off then
         Work.start (w.up fun s => s.modCol c fun k => { k with state := .opened, cause := none }) c
       else w.up fun s => s.modCol c fun k =>
        { k with state := .settling, cause := none, settleTimer := some (2 ^ s.limits.settleExp) })
      fun s => s.postAll ((RegionSet.members k.cfg.reach).map .region ++ [.ps]) (.fence c)
    let restated : Handover :=
      { x with
        state := .stored, dest := dest, urgency := max 1 (min 7 urg.toNat), heading := hd,
        due := statedDue s.clock dueIn, budget := statedBudget budget, column := some c, bookingTimer := none,
        holder := none, doubt := none }
    let taken := s.dropRequest .ps
    let placed := (taken.setHand h (some restated)).modCol c fun k => { k with cause := none }
    let one := n :: byte c.val :: 1 :: entryBody x.bin dest urg hd dueIn budget
    k.state = .fenced → k.stack = [h] → k.inbound = [] → s.hand h = some x → x.state = .stored → x.column = some c →
    x.target = none → (∀ i, ∀ y ∈ s.hand i, y.target ≠ some c) →
    (s.offers .ps .amend one → x.bin ≠ 0 → 1 ≤ k.cfg.depth → x.origin ≠ .region dest →
      (∀ i, s.holdsBin i x.bin → i = h) →
      exec (.amend .ps) s = .next ((Work.up (enter (Work.judgeCharging { st := placed, sel := [] } h))
        fun s => s.post (.region dest) (.ready h)).handOccupancy.startAll.finish.answered .ps .amend one .ok
          [byte c.val, code, 1, byte h.val, 1, 0, 0, 0])) ∧
    (s.offers .ps .amend [n, byte c.val, 0] → exec (.amend .ps) s =
      .next ((enter (Work.close { st := taken.modCol c fun k => { k with stack := [] }, sel := ColIx.all } h .removed
        (RegionSet.single x.dest) (.withdrawn h x.bin 2))).handOccupancy.startAll.finish.answered .ps .amend
          [n, byte c.val, 0] .ok [byte c.val, code, 0, 0, 0, 1, 0]))) ∧
  ∀ (s : State) (n count : Byte) (rest : List Byte) (c : ColIx) (es : List AmendEntry),
    let body := n :: byte c.val :: count :: rest
    let k := s.col c
    let listed (h : HNum) : Bool := (s.hand h).any fun x => es.any fun e => e.bin == x.bin
    let known (e : AmendEntry) : Bool := HNum.all.any fun h => (s.hand h).any fun x => x.state != .closing && x.bin == e.bin
    let unlisted := k.stack.filter fun h => !listed h
    let needed := (es.filter fun e => !known e).length
    let doubts := k.inbound.filter fun h => (s.hand h).any fun x => x.state == .doubt && x.column == some c
    let released := (doubts.filter fun h => !listed h).length
    let shifted := (HNum.all.filter fun h => (s.hand h).any fun x =>
      x.state == .doubt && x.target == some c && x.column != some c).length
    s.offers .ps .amend body → rest.length = 10 * count.toNat → decodeEntries count.toNat 0 rest = .ok es →
    count.toNat ≤ k.cfg.depth → k.state = .unknown ∨ k.state = .fenced → es.Pairwise (fun a b => a.bin ≠ b.bin) →
    (∀ e ∈ es, ∀ h, ∀ x ∈ s.hand h, x.state ≠ .closing → x.bin = e.bin →
      x.column = some c ∧ x.origin ≠ .region e.dest) →
    needed ≤ (HNum.all.filter fun h => (s.hand h).isNone).length +
      (if s.level .withdrawn = 0 then unlisted.length else 0) →
    es.length + (released + shifted) ≤ k.cfg.depth →
    let settled : Work := k.stack.foldl (fun w h => Work.amendStack w c es h) { st := s.dropRequest .ps, sel := [] }
    let freed : Work := doubts.foldl (fun w h => w.amendInbound c es h) settled
    let made : Work := es.foldl (fun w e => w.up fun s => s.amendCreate c e) freed
    let stack := es.filterMap fun e => made.st.ownHolder c e.bin
    let judged : Work := stack.foldl Work.judgeCharging
      (made.up fun s => s.modCol c fun k => { k with stack := stack, cause := none })
    let entered : Work :=
      if k.cfg.gaugeMode = .off then (judged.up fun s => s.modCol c fun k => { k with state := .opened }).start c
      else judged.up fun s => s.modCol c fun k =>
        { k with state := .settling, settleTimer := some (2 ^ s.limits.settleExp) }
    let told := if k.state = .fenced then entered.up fun s =>
      s.postAll ((RegionSet.members k.cfg.reach).map .region ++ [.ps]) (.fence c) else entered
    let ready := told.up fun s => stack.foldl (fun s h =>
      ((s.hand h).map fun x => s.post (.region x.dest) (.ready h)).getD s) s
    exec (.amend .ps) s = .next (ready.handOccupancy.startAll.finish.answered .ps .amend body .ok
      ([byte c.val, if k.cfg.gaugeMode = .off then 1 else 3, byte stack.length] ++ stack.map (fun h => byte h.val) ++
        [byte (es.length - needed), byte needed, byte unlisted.length, byte released])) ∧
    (s.Accounted → stack.map (fun h => (made.st.hand h).map Handover.bin) = es.map fun e => some e.bin)

/-- What an AMEND does to one record (R118, R119, R120). A stack record gives up a target it holds; listed, it is
restated, STORED, by its entry; not listed, it leaves the stack and is REMOVED, owed to its destination. An inbound
record in DOUBT, listed, is restated and leaves the inbound set, and its follower becomes a LIFT claim or, with
another destination, is dismissed; not listed, a deposit is BOOKED again with MOVED to its origin, and a holding
landing is MOVING with a new HOLDING claim. An entry whose bin has no record in use of this column is given the lowest
FREE number. -/
def Obligations.AmendSettlesEachRecord : Prop :=
  ∀ (w : Work) (c : ColIx) (es : List AmendEntry),
    let s := w.st
    let dueOf (e : AmendEntry) : Due :=
      if e.dueIn = 4095 then .unknown else if e.dueIn = 0 then .passed
      else .pending (s.clock + BitVec.ofNat 16 e.dueIn)
    let budgetOf (e : AmendEntry) : Option Budget :=
      if e.budget = 0 then none
      else some { remaining := e.budget, since := none, warned := false, expired := false, expiryAt := none
                  warnAt := none }
    (∀ (h : HNum) (x : Handover), s.hand h = some x →
      let entry := es.find? fun e => e.bin == x.bin
      let restated (x : Handover) (e : AmendEntry) : Handover :=
        { x with state := .stored, dest := e.dest, urgency := e.urgency, heading := e.heading, due := dueOf e
                 budget := budgetOf e, column := some c, bookingTimer := none, holder := none, doubt := none }
      let loose : Handover := { x with target := none }
      let base : Work := match x.target with
        | some t => { st := (s.modCol t fun k => { k with inbound := k.inbound.filter fun i => i != h }).setHand h
                        (some loose)
                      sel := ColIx.all ++ w.sel }
        | none => w
      let lone : State := s.modCol c fun k => { k with inbound := k.inbound.filter fun i => i != h }
      (∀ e, entry = some e →
        w.amendStack c es h = base.up (fun s => s.setHand h (some (restated loose e))) ∧
        (x.follower = none →
          w.amendInbound c es h = { st := lone.setHand h (some (restated x e)), sel := w.sel }) ∧
        ∀ f, x.follower = some f →
          let left : Work := { st := lone.setHand h (some { restated x e with follower := none }), sel := w.sel }
          (f.robot.port = e.dest → w.amendInbound c es h =
            left.join c { robot := f.robot, kind := .lift, handover := h, stamp := f.stamp, blocked := false }) ∧
          (f.robot.port ≠ e.dest → w.amendInbound c es h =
            left.up fun s => s.post (.region f.robot.port) (.dismissed h f.robot.number 2))) ∧
      (entry = none →
        w.amendStack c es h = Work.close
          { st := base.st.modCol c fun k => { k with stack := k.stack.filter fun i => i != h }
            sel := ColIx.all ++ base.sel } h .removed (RegionSet.single x.dest) (.withdrawn h x.bin 2) ∧
        ∀ d, x.doubt = some d →
          (d.op = .deposit → w.amendInbound c es h = Work.up (Work.judgeCharging { st := s.setHand h (some { x with
              state := .booked, doubt := none, bookingTimer := some s.limits.booking }), sel := w.sel } h)
            fun s => s.post x.origin (.moved h)) ∧
          ∀ rb, d.op = .holding → x.holder = some rb → w.amendInbound c es h = (Work.judgeCharging
            { st := s.setHand h (some { x with state := .moving, doubt := none }), sel := w.sel } h).joinNew c rb .holding
              h)) ∧
    (∀ bin h, s.ownHolder c bin = some h ↔
      s.holdsBin h bin ∧ (∀ i, i < h → ¬ s.holdsBin i bin) ∧ ∃ x, s.hand h = some x ∧ x.column = some c) ∧
    ∀ e : AmendEntry,
      (∀ h, s.ownHolder c e.bin = some h → s.amendCreate c e = s) ∧
      (∀ h, s.ownHolder c e.bin = none → s.hand h = none → (∀ i, i < h → s.hand i ≠ none) →
        s.amendCreate c e = s.setHand h (some {
          state := .stored, bin := e.bin, origin := .ps, dest := e.dest, urgency := e.urgency, due := dueOf e
          heading := e.heading, column := some c, target := none, bookingTimer := none, holder := none, doubt := none
          budget := budgetOf e, closing := none, follower := none }))

/-- REINITIALIZE (R122, R34, R54, R94, R157): records, claims, grants, stacks and causes are forgotten, every enabled
column is UNKNOWN and every pending set holds RESET first; configuration, gauge fields, limits, levels, captures, links
and clock stand. The occupancy of 0 turns every AUTOMATIC setpoint off (R124). -/
def Obligations.ReinitializeForgetsTheBins : Prop :=
  ∀ (s : State) (n : Byte), s.offers .ps .reinitialize [n] →
    let kept := { s.dropRequest .ps with
      columns := s.columns.map fun k =>
        { k with state := if k.cfg.enabled then .unknown else .disabled, fencePending := false, cause := none,
                 stack := [], inbound := [], waitList := [], grant := none, settleTimer := none }
      records := Vector.replicate 32 none, stampCounter := 0, pendingSets := Vector.replicate 5 [.reset] }
    ∃ t, exec (.reinitialize .ps) s = .next t ∧
      t = (Work.handOccupancy { st := kept, sel := [] }).st.answered .ps .reinitialize [n] .ok [] ∧
      t.occupancy = 0 ∧ (∀ p, (t.pendingSet p).head? = some .reset) ∧
      (s.ConfigInRange → (s.load.high.forcing = .automatic → t.load.high.on = false) ∧
        (s.load.full.forcing = .automatic → t.load.full.on = false))

/-! ### Timed events -/

/-- A 100 ms tick (R55, R56, R79, R107, R111): the gauge inputs are sampled, settle timers and started grant timers fall
by one, and the tenth tick makes the advance of the seconds count due; nothing else changes. A tick comes when no event
of an earlier tick or advance waits; that is the model's choice (log entry 5). An advance of the seconds count (R56,
R58, R44): the count goes on by one, from 65535 to 0, each due equal to the new count passes, and the timer of each
BOOKED record falls by one; a multiple of 10 makes a trend sample due (R133). It waits for the exposure events and the
trend sample of the present second (log entry 4). A trend sample (R133, R134): the occupancy joins the ring as the
newest, the oldest leaves, and the trend is judged at once. -/
def Obligations.TimePasses : Prop :=
  (∀ (s : State) (gauges : Vector Reading 8), s.resetAsserted = false →
    (s.timeEventDue = true → exec (.interchangeTick gauges) s = .next s) ∧
    (s.timeEventDue = false → ∃ t, exec (.interchangeTick gauges) s = .next t ∧
      t = { s with columns := t.columns, tickCount := if s.tickCount < 9 then s.tickCount + 1 else 0
                   advanceDue := decide (9 ≤ s.tickCount) } ∧
      ∀ c : ColIx, let k := s.col c
        t.col c = { k with
          candidate := gauges[c]
          filterCount :=
            if gauges[c] = k.candidate then k.filterCount.map fun n => n - 1
            else if gauges[c] = k.reading then none else some s.limits.filterSteps
          settleTimer := k.settleTimer.map fun n => n - 1
          grant := k.grant.map fun g => { g with timer := g.timer.map fun n => n - 1 } })) ∧
  (∀ s : State, s.advanceDue = true → s.advanceEventDue = false →
    let now : Seconds := s.clock + 1
    ∃ t, exec .secondsAdvance s = .next t ∧
      t = { s with clock := now, advanceDue := false, records := t.records
                   trendDue := decide (now.toNat % 10 = 0) } ∧
      ∀ h, t.hand h = (s.hand h).map fun x => { x with
        due := if x.due = .pending now then .passed else x.due
        bookingTimer := if x.state = .booked then x.bookingTimer.map fun n => n - 1 else x.bookingTimer }) ∧
  (∀ s : State, s.trendDue = true →
    let v := s.load.samples
    let l := LoadMonitor.judgeTrend { s.load with samples := #v[v[1], v[2], v[3], v[4], v[5], v[6], s.occupancy] }
    exec .trendSample s = .next { (Work.setLoad { st := s, sel := [] } l).finish with trendDue := false })

/-- A change of reading (R109, R110, R25, Table 7-3): kept in OFF; reported in WATCH by an enabled rise or fall in
service; in CHECK an OPEN column is fenced, a SETTLING one by a change to 7 alone. A settle expiry (R24, R111): with
reading and stack length equal the column goes to OPEN and a selection starts; in CHECK a difference fences it, with
GAUGE_FAULT at reading 7; in WATCH it opens and GAUGE is posted to PS. Both wait for the events of the present advance
(log entry 4). -/
def Obligations.GaugeChangesAndSettleExpiries : Prop :=
  (∀ (s : State) (c : ColIx), (s.col c).filterCount = some 0 → s.advanceEventDue = false →
    let k := s.col c
    let base : Work := { st := s.modCol c fun k => { k with reading := k.candidate, filterCount := none }, sel := [] }
    let after (w : Work) : Prop := exec (.gaugeReadingChange c) s = .next w.finish
    let serves : Prop := k.state = .opened ∨ k.state = .granted ∨ k.state = .settling
    let reported : Prop := if k.reading < k.candidate then k.cfg.rise = true else k.cfg.fall = true
    (k.cfg.gaugeMode = .off → after base) ∧
    (k.cfg.gaugeMode = .watch → serves → reported → after (base.up fun s => s.post .ps (.gauge c))) ∧
    (k.cfg.gaugeMode = .watch → ¬ serves ∨ ¬ reported → after base) ∧
    (k.cfg.gaugeMode = .check → k.state = .opened →
      after (base.enterFenced c (if k.candidate = 7 then .gaugeFault else .gaugeUnexpected) none)) ∧
    (k.cfg.gaugeMode = .check → k.state = .settling → k.candidate = 7 → after (base.enterFenced c .gaugeFault none)) ∧
    (k.cfg.gaugeMode = .check → k.state ≠ .opened → (k.state = .settling → k.candidate ≠ 7) → after base)) ∧
  (∀ (s : State) (c : ColIx), (s.col c).settleTimer = some 0 → s.advanceEventDue = false →
    let k := s.col c
    let after (w : Work) : Prop := exec (.settleExpiry c) s = .next w.finish
    let opened : Work := { st := s.modCol c fun k => { k with settleTimer := none, state := .opened }, sel := [c] }
    let base : Work := { st := s.modCol c fun k => { k with settleTimer := none }, sel := [] }
    (k.cfg.gaugeMode ≠ .off → k.reading.toNat = k.stack.length → after opened) ∧
    (k.cfg.gaugeMode = .watch → k.reading.toNat ≠ k.stack.length →
      after (opened.up fun s => s.post .ps (.gauge c))) ∧
    (k.cfg.gaugeMode = .check → k.reading.toNat ≠ k.stack.length → k.reading = 7 →
      after (base.enterFenced c .gaugeFault none)) ∧
    (k.cfg.gaugeMode = .check → k.reading.toNat ≠ k.stack.length → k.reading ≠ 7 →
      after (base.enterFenced c .gaugeMismatch none)))

/-- A grant timeout (R23, R87): the slot is emptied, the grant's record goes to DOUBT with the operation and the robot,
and the column enters FENCED with cause GRANT_TIMEOUT and a capture that names them. A booking expiry (R45): the claim
and the place in the inbound set go, selection starts in every OPEN column, occupancy is judged, and the record is
WITHDRAWN, cause LIMIT, owed to a region origin. A grant timeout waits for the events of the present advance (log entry
4). -/
def Obligations.GrantsAndBookingsTimeOut : Prop :=
  (∀ (s : State) (c : ColIx) (g : Grant), (s.col c).grant = some g → g.timer = some 0 → s.advanceEventDue = false →
    let rb := g.claim.robot
    exec (.grantTimeout c) s = .next ((Work.enterFenced (Work.change
      { st := s.modCol c fun k => { k with grant := none }, sel := [] } g.record
      fun x => { x with state := .doubt, doubt := some { op := g.op.kind, robot := rb } })
      c .grantTimeout (some (rb, g.record))).finish)) ∧
  (∀ (s : State) (h : HNum) (x : Handover) (c : ColIx), s.hand h = some x → x.state = .booked →
    x.bookingTimer = some 0 → x.column = some c →
    let left := s.modCol c fun k => { k with waitList := k.waitList.filter fun cl => cl.handover != h
                                             inbound := k.inbound.filter fun i => i != h }
    exec (.bookingExpiry h) s = .next ((Work.handOccupancy { st := left, sel := ColIx.all }).close h .withdrawn
      (match x.origin with | .region r => RegionSet.single r | .ps => 0) (.withdrawn h x.bin 0)).finish)

/-- The warning and the expiry of a charging record at its deadlines (R101, R102), with the raise of its urgency to 6
and 7: a raise starts a selection where a claim for the record waits. -/
def Obligations.ExposureDeadlines : Prop :=
  ∀ (s : State) (h : HNum) (x : Handover) (b : Budget), s.hand h = some x → x.budget = some b → b.since ≠ none →
    (b.warnAt = some s.clock →
      exec (.exposureWarning h) s = .next (Work.takeWarning { st := s, sel := [] } h).finish) ∧
    (b.expiryAt = some s.clock →
      let spent : Handover := { x with budget := some { b with
        remaining := 0, expired := true, since := none, expiryAt := none, warnAt := none } }
      let expired : Capture := {
        kind := .expired, port := some (.region x.dest), handover := some h, column := x.column, time := s.clock,
        robot := (x.holder.map Robot.number).or (x.doubt.map fun d => d.robot.number),
        reading := none, stackLen := none }
      exec (.exposureExpiry h) s = .next (Work.up (Work.raiseUrgency { st := s.setHand h (some spent), sel := [] } h 7)
        fun s => (s.capture 7 expired).postAll [.region x.dest, .ps] (.expired h)).finish) ∧
    ∀ (w : Work) (u : Nat) (y : Handover), w.st.hand h = some y →
      (u ≤ y.urgency → w.raiseUrgency h u = w) ∧
      (y.urgency < u →
        let raised := w.up fun s => s.setHand h (some { y with urgency := u })
        ((∀ c, ∀ cl ∈ (w.st.col c).waitList, cl.handover ≠ h) → w.raiseUrgency h u = raised) ∧
        ∀ c, (∃ cl ∈ (w.st.col c).waitList, cl.handover = h) →
          (∀ d, d < c → ∀ cl ∈ (w.st.col d).waitList, cl.handover ≠ h) → w.raiseUrgency h u = raised.start c)

/-! ### The end of a step, and the laws of the device -/

/-- The selections a step has started are made at its end (log entry 6, the model's choice), one after another in
ascending column number (R76), and again in every column where one of them starts another, until none is left. Where no
record has claims in two wait lists (R68), no column in which the step started a selection is then OPEN with an eligible
claim waiting. They touch only what a grant touches (R75, R77): the links, the limits, the clock, the captures, every
stack, every column's configuration, cause, fence pending and gauge fields stand; a column that is not OPEN keeps its
state, grant and wait list. -/
def Obligations.SelectionsEndWithTheStep : Prop :=
  ∀ w : Work,
    (∀ c, w.start c = { st := w.st, sel := c :: w.sel }) ∧ w.startAll = { st := w.st, sel := ColIx.all ++ w.sel } ∧
    ColIx.all = [0, 1, 2, 3, 4, 5, 6, 7] ∧
    (Work.rounds 9 w).sel = [] ∧ (w.sel = [] → w.finish = w.st) ∧ (w.st.quiet → w.finish = w.st) ∧
    (w.sel ≠ [] → w.finish =
      Work.finish (ColIx.all.foldl (fun v c => if c ∈ w.sel then v.select c else v)
        { st := w.st, sel := [] })) ∧
    ((∀ c d, ∀ a ∈ (w.st.col c).waitList, ∀ b ∈ (w.st.col d).waitList, a.handover = b.handover → c = d) →
      ∀ c ∈ w.sel, (w.finish.col c).state = .opened →
        ∀ cl ∈ (w.finish.col c).waitList, w.finish.eligible c cl = false) ∧
    w.finish = { w.st with columns := w.finish.columns, records := w.finish.records, load := w.finish.load
                           pendingSets := w.finish.pendingSets } ∧
    w.st.RecordsContinue w.finish ∧
    ∀ c, let k := w.st.col c
      let k' := w.finish.col c
      k' = { k with state := k'.state, inbound := k'.inbound, waitList := k'.waitList, grant := k'.grant } ∧
      (k.state ≠ .opened → k'.state = k.state ∧ k'.grant = k.grant ∧ k'.waitList = k.waitList) ∧
      ∀ h ∈ k.inbound, h ∈ k'.inbound

/-- The laws of the device hold at reset, and no port has sent anything yet. That a link unit is prepared for a turn
then is the model's choice (log entry 28). -/
def Obligations.LawsHoldAtReset : Prop :=
  State.reset.NoticesDistinct ∧ State.reset.ColumnsControlled ∧ State.reset.ColumnsOrdered ∧
  State.reset.RecordsInRange ∧ State.reset.LinksWithinRoom ∧ State.reset.ConfigInRange ∧ State.reset.LinksTakeTurns ∧
  State.reset.Accounted ∧ State.reset.RobotsClaimOnce ∧ State.reset.DoubtedRobotsWait ∧
  ∀ p : Port, State.reset.AwaitsReset p

/-- A pending set never holds two items with the same kind and subject (R149): every step keeps this law. The first
frame a port sends after power-on or RESET is its RESET notice (R143, R156): until SEND NOTICE sends it every step
leaves the port awaiting it, no other frame is sent or received on the port meanwhile, and SEND NOTICE sends it. That
the first edge of a port is prepared for a turn is the model's choice (log entry 28). -/
def Obligations.NoticesStayDistinct : Prop :=
  (∀ s t : State, s.NoticesDistinct → step s = .next t → t.NoticesDistinct) ∧
  ∀ (s : State) (p : Port), s.AwaitsReset p →
    (∀ t, s.pending.head? ≠ some (.sendNotice p) → step s = .next t → t.AwaitsReset p) ∧
    (exec (.sendAnswer p) s = .next s ∧ exec (.turnFalls p) s = .next s ∧
      (∀ b e, exec (.frameBegin p b e) s = .next s) ∧ ∀ bytes, exec (.controllerFrame p bytes) s = .next s) ∧
    (s.resetAsserted = true → exec (.sendNotice p) s = .next s) ∧
    (s.resetAsserted = false → exec (.sendNotice p) s =
      .next ((s.modPending p List.tail).modLink p fun u => { u with
        bus := .turning, prepared := false
        sending := some { bytes := frameBytes 0x81 ([0, 0xFF] ++ put16 (s.view p).order s.clock), sent := 0 } }))

/-- A column has a grant exactly while it is GRANTED (R20), a cause exactly while FENCED, fence pending only while
GRANTED, a settle timer only while SETTLING, and is DISABLED exactly while its enabled field is no: every step keeps
this. Wait lists stand in ascending arrival stamp (R73) and inbound sets hold no number twice (R16): every step keeps
this. -/
def Obligations.ColumnsKeepTheirLaws : Prop :=
  (∀ s t : State, s.ColumnsControlled → step s = .next t → t.ColumnsControlled) ∧
  (∀ s t : State, s.ColumnsOrdered → step s = .next t → t.ColumnsOrdered)

/-- The account of records, columns and claims: each record stands in a stack or an inbound set as its state, column and
target say, once (R15 to R17); a column holds no more than its depth (R18) and six claims, four of them region claims
(R73); a bin is held by one record in use (R38); a record has one claim, and a robot one region claim or follower (R68,
R70): every step keeps this. A robot has one claim of any kind (R68): every step keeps this while no robot of a doubt
has claimed again; where one has, R88, R89 and R119 give it a second (log entry 26). -/
def Obligations.RecordsStandWhereTheyBelong : Prop :=
  (∀ s t : State, s.Accounted → step s = .next t → t.Accounted) ∧
  ∀ s t : State, s.Accounted → s.DoubtedRobotsWait → s.RobotsClaimOnce → step s = .next t → t.RobotsClaimOnce

/-- Urgency stays within 1 to 7 (R37) and remaining budget within 0 to 3600 (R96): every step keeps this. The queues of
a link hold at most 4 frames and 4 answers, and a frame is in reception only while the intake queue has room for it
(R136, R137): every step keeps this. TURN, the bus and the window go round as R142 lays down: every step keeps this.
Every configured quantity stays in its range (Table 9-4, Table 8-1), the level of RESET stays 7 (R151) and the tick
count below 10 (R55): every step keeps this. -/
def Obligations.QuantitiesStayInRange : Prop :=
  (∀ s t : State, s.RecordsInRange → step s = .next t → t.RecordsInRange) ∧
  (∀ s t : State, s.LinksWithinRoom → step s = .next t → t.LinksWithinRoom) ∧
  (∀ s t : State, s.LinksTakeTurns → step s = .next t → t.LinksTakeTurns) ∧
  (∀ s t : State, s.ConfigInRange → step s = .next t → t.ConfigInRange)

/-- From its BOOK, or its latest AMEND, a record keeps bin, origin, destination and heading, its due stands or passes
(R57), its urgency does not decrease (R37), and its budget does not increase (R96): no command but BOOK and AMEND makes
or restates a record. -/
def Obligations.RecordsGoOn : Prop :=
  ∀ (c : Instr) (s t : State), (∀ p, c ≠ .book p) → (∀ p, c ≠ .amend p) → exec c s = .next t → s.RecordsContinue t

/-- While a group holds a capture, its first record does not change until the group is cleared (R159): only CLEAR
ERRORS, power-on and the RESET input end a capture. -/
def Obligations.FirstCaptureStands : Prop :=
  ∀ (c : Instr) (s t : State), (∀ p, c ≠ .clearErrors p) → c ≠ .powerOn → c ≠ .resetInput → exec c s = .next t →
    s.CapturesStand t
end
end

