-- ==== Sys2Proof/Laws/State.lean ====
section
/-! SUPPORT. What each update of the state leaves and what it changes: one lemma for each field and update. -/
namespace Sys2Proof.Machine

/-! ### Reading back the field that is set -/

theorem Port.ix_inj {p q : Port} (h : p.ix = q.ix) : p = q := by
  cases p <;> cases q <;> simp [Port.ix, Fin.ext_iff] at h ⊢ <;> omega

@[simp] theorem State.col_modCol (s : State) (c d : ColIx) (f : Column → Column) :
    (s.modCol c f).col d = if d = c then f (s.col c) else s.col d := by
  unfold State.modCol State.col
  rcases eq_or_ne d c with h | h
  · subst h; simp
  · have : c.val ≠ d.val := fun e => h (Fin.ext e.symm)
    simp [h, this]

@[simp] theorem State.hand_setHand (s : State) (h i : HNum) (r : Option Handover) :
    (s.setHand h r).hand i = if i = h then r else s.hand i := by
  unfold State.setHand State.hand
  rcases eq_or_ne i h with e | e
  · subst e; simp
  · have : h.val ≠ i.val := fun x => e (Fin.ext x.symm)
    simp [e, this]

@[simp] theorem State.hand_modHand (s : State) (h i : HNum) (f : Handover → Handover) :
    (s.modHand h f).hand i = if i = h then (s.hand h).map f else s.hand i := by
  simp [State.modHand]

@[simp] theorem State.link_modLink (s : State) (p q : Port) (f : LinkUnit → LinkUnit) :
    (s.modLink p f).link q = if q = p then f (s.link p) else s.link q := by
  unfold State.modLink State.link
  rcases eq_or_ne q p with h | h
  · subst h; simp
  · have : p.ix.val ≠ q.ix.val := fun e => h (Port.ix_inj (Fin.ext e.symm))
    simp [h, this]

@[simp] theorem State.pendingSet_modPending (s : State) (p q : Port) (f : List Notice → List Notice) :
    (s.modPending p f).pendingSet q = if q = p then f (s.pendingSet p) else s.pendingSet q := by
  unfold State.modPending State.pendingSet
  rcases eq_or_ne q p with h | h
  · subst h; simp
  · have : p.ix.val ≠ q.ix.val := fun e => h (Port.ix_inj (Fin.ext e.symm))
    simp [h, this]

@[simp] theorem State.group_modGroup (s : State) (g i : Fin 8) (f : ErrorGroup → ErrorGroup) :
    (s.modGroup g f).group i = if i = g then f (s.group g) else s.group i := by
  unfold State.modGroup State.group
  rcases eq_or_ne i g with h | h
  · subst h; simp
  · have : g.val ≠ i.val := fun e => h (Fin.ext e.symm)
    simp [h, this]

theorem NoticeKind.ix_inj {k m : NoticeKind} (h : k.ix = m.ix) : k = m := by
  cases k <;> cases m <;> first | rfl | (revert h; decide)

@[simp] theorem State.level_setLevel (s : State) (k m : NoticeKind) (n : Nat) :
    (s.setLevel k n).level m = if m = k then n else s.level m := by
  unfold State.setLevel State.level
  rcases eq_or_ne m k with h | h
  · subst h; simp
  · have : k.ix.val ≠ m.ix.val := fun e => h (NoticeKind.ix_inj (Fin.ext e.symm))
    simp [h, this]

@[simp] theorem State.ports_setPort (s : State) (r q : Region) (x : PortConfig) :
    (s.setPort r x).ports[q] = if q = r then x else s.ports[q] := by
  unfold State.setPort
  rcases eq_or_ne q r with h | h
  · subst h; simp
  · have : r.val ≠ q.val := fun e => h (Fin.ext e.symm)
    simp [h, this]

@[simp] theorem State.stampCounter_setStamp (s : State) (n : Nat) : (s.setStamp n).stampCounter = n := rfl
@[simp] theorem State.load_setLoad (s : State) (l : LoadMonitor) : (s.setLoad l).load = l := rfl
@[simp] theorem State.limits_setLimits (s : State) (l : Limits) : (s.setLimits l).limits = l := rfl

/-! ### modCol -/

@[simp] theorem State.records_modCol (s : State) (c : ColIx) (f : Column → Column) : (s.modCol c f).records = s.records := rfl
@[simp] theorem State.hand_modCol (s : State) (c : ColIx) (f : Column → Column) (i : HNum) :
    (s.modCol c f).hand i = s.hand i := rfl
@[simp] theorem State.stampCounter_modCol (s : State) (c : ColIx) (f : Column → Column) : (s.modCol c f).stampCounter = s.stampCounter := rfl
@[simp] theorem State.limits_modCol (s : State) (c : ColIx) (f : Column → Column) : (s.modCol c f).limits = s.limits := rfl
@[simp] theorem State.load_modCol (s : State) (c : ColIx) (f : Column → Column) : (s.modCol c f).load = s.load := rfl
@[simp] theorem State.clock_modCol (s : State) (c : ColIx) (f : Column → Column) : (s.modCol c f).clock = s.clock := rfl
@[simp] theorem State.tickCount_modCol (s : State) (c : ColIx) (f : Column → Column) : (s.modCol c f).tickCount = s.tickCount := rfl
@[simp] theorem State.ports_modCol (s : State) (c : ColIx) (f : Column → Column) : (s.modCol c f).ports = s.ports := rfl
@[simp] theorem State.links_modCol (s : State) (c : ColIx) (f : Column → Column) : (s.modCol c f).links = s.links := rfl
@[simp] theorem State.link_modCol (s : State) (c : ColIx) (f : Column → Column) (q : Port) :
    (s.modCol c f).link q = s.link q := rfl
@[simp] theorem State.levels_modCol (s : State) (c : ColIx) (f : Column → Column) : (s.modCol c f).levels = s.levels := rfl
@[simp] theorem State.level_modCol (s : State) (c : ColIx) (f : Column → Column) (m : NoticeKind) :
    (s.modCol c f).level m = s.level m := rfl
@[simp] theorem State.pendingSets_modCol (s : State) (c : ColIx) (f : Column → Column) : (s.modCol c f).pendingSets = s.pendingSets := rfl
@[simp] theorem State.pendingSet_modCol (s : State) (c : ColIx) (f : Column → Column) (q : Port) :
    (s.modCol c f).pendingSet q = s.pendingSet q := rfl
@[simp] theorem State.groups_modCol (s : State) (c : ColIx) (f : Column → Column) : (s.modCol c f).groups = s.groups := rfl
@[simp] theorem State.group_modCol (s : State) (c : ColIx) (f : Column → Column) (i : Fin 8) :
    (s.modCol c f).group i = s.group i := rfl
@[simp] theorem State.resetAsserted_modCol (s : State) (c : ColIx) (f : Column → Column) : (s.modCol c f).resetAsserted = s.resetAsserted := rfl
@[simp] theorem State.advanceDue_modCol (s : State) (c : ColIx) (f : Column → Column) : (s.modCol c f).advanceDue = s.advanceDue := rfl
@[simp] theorem State.trendDue_modCol (s : State) (c : ColIx) (f : Column → Column) : (s.modCol c f).trendDue = s.trendDue := rfl
@[simp] theorem State.pending_modCol (s : State) (c : ColIx) (f : Column → Column) : (s.modCol c f).pending = s.pending := rfl

/-! ### setHand -/

@[simp] theorem State.columns_setHand (s : State) (h : HNum) (r : Option Handover) : (s.setHand h r).columns = s.columns := rfl
@[simp] theorem State.col_setHand (s : State) (h : HNum) (r : Option Handover) (d : ColIx) :
    (s.setHand h r).col d = s.col d := rfl
@[simp] theorem State.stampCounter_setHand (s : State) (h : HNum) (r : Option Handover) : (s.setHand h r).stampCounter = s.stampCounter := rfl
@[simp] theorem State.limits_setHand (s : State) (h : HNum) (r : Option Handover) : (s.setHand h r).limits = s.limits := rfl
@[simp] theorem State.load_setHand (s : State) (h : HNum) (r : Option Handover) : (s.setHand h r).load = s.load := rfl
@[simp] theorem State.clock_setHand (s : State) (h : HNum) (r : Option Handover) : (s.setHand h r).clock = s.clock := rfl
@[simp] theorem State.tickCount_setHand (s : State) (h : HNum) (r : Option Handover) : (s.setHand h r).tickCount = s.tickCount := rfl
@[simp] theorem State.ports_setHand (s : State) (h : HNum) (r : Option Handover) : (s.setHand h r).ports = s.ports := rfl
@[simp] theorem State.links_setHand (s : State) (h : HNum) (r : Option Handover) : (s.setHand h r).links = s.links := rfl
@[simp] theorem State.link_setHand (s : State) (h : HNum) (r : Option Handover) (q : Port) :
    (s.setHand h r).link q = s.link q := rfl
@[simp] theorem State.levels_setHand (s : State) (h : HNum) (r : Option Handover) : (s.setHand h r).levels = s.levels := rfl
@[simp] theorem State.level_setHand (s : State) (h : HNum) (r : Option Handover) (m : NoticeKind) :
    (s.setHand h r).level m = s.level m := rfl
@[simp] theorem State.pendingSets_setHand (s : State) (h : HNum) (r : Option Handover) : (s.setHand h r).pendingSets = s.pendingSets := rfl
@[simp] theorem State.pendingSet_setHand (s : State) (h : HNum) (r : Option Handover) (q : Port) :
    (s.setHand h r).pendingSet q = s.pendingSet q := rfl
@[simp] theorem State.groups_setHand (s : State) (h : HNum) (r : Option Handover) : (s.setHand h r).groups = s.groups := rfl
@[simp] theorem State.group_setHand (s : State) (h : HNum) (r : Option Handover) (i : Fin 8) :
    (s.setHand h r).group i = s.group i := rfl
@[simp] theorem State.resetAsserted_setHand (s : State) (h : HNum) (r : Option Handover) : (s.setHand h r).resetAsserted = s.resetAsserted := rfl
@[simp] theorem State.advanceDue_setHand (s : State) (h : HNum) (r : Option Handover) : (s.setHand h r).advanceDue = s.advanceDue := rfl
@[simp] theorem State.trendDue_setHand (s : State) (h : HNum) (r : Option Handover) : (s.setHand h r).trendDue = s.trendDue := rfl
@[simp] theorem State.pending_setHand (s : State) (h : HNum) (r : Option Handover) : (s.setHand h r).pending = s.pending := rfl

/-! ### modHand -/

@[simp] theorem State.columns_modHand (s : State) (h : HNum) (f : Handover → Handover) : (s.modHand h f).columns = s.columns := rfl
@[simp] theorem State.col_modHand (s : State) (h : HNum) (f : Handover → Handover) (d : ColIx) :
    (s.modHand h f).col d = s.col d := rfl
@[simp] theorem State.stampCounter_modHand (s : State) (h : HNum) (f : Handover → Handover) : (s.modHand h f).stampCounter = s.stampCounter := rfl
@[simp] theorem State.limits_modHand (s : State) (h : HNum) (f : Handover → Handover) : (s.modHand h f).limits = s.limits := rfl
@[simp] theorem State.load_modHand (s : State) (h : HNum) (f : Handover → Handover) : (s.modHand h f).load = s.load := rfl
@[simp] theorem State.clock_modHand (s : State) (h : HNum) (f : Handover → Handover) : (s.modHand h f).clock = s.clock := rfl
@[simp] theorem State.tickCount_modHand (s : State) (h : HNum) (f : Handover → Handover) : (s.modHand h f).tickCount = s.tickCount := rfl
@[simp] theorem State.ports_modHand (s : State) (h : HNum) (f : Handover → Handover) : (s.modHand h f).ports = s.ports := rfl
@[simp] theorem State.links_modHand (s : State) (h : HNum) (f : Handover → Handover) : (s.modHand h f).links = s.links := rfl
@[simp] theorem State.link_modHand (s : State) (h : HNum) (f : Handover → Handover) (q : Port) :
    (s.modHand h f).link q = s.link q := rfl
@[simp] theorem State.levels_modHand (s : State) (h : HNum) (f : Handover → Handover) : (s.modHand h f).levels = s.levels := rfl
@[simp] theorem State.level_modHand (s : State) (h : HNum) (f : Handover → Handover) (m : NoticeKind) :
    (s.modHand h f).level m = s.level m := rfl
@[simp] theorem State.pendingSets_modHand (s : State) (h : HNum) (f : Handover → Handover) : (s.modHand h f).pendingSets = s.pendingSets := rfl
@[simp] theorem State.pendingSet_modHand (s : State) (h : HNum) (f : Handover → Handover) (q : Port) :
    (s.modHand h f).pendingSet q = s.pendingSet q := rfl
@[simp] theorem State.groups_modHand (s : State) (h : HNum) (f : Handover → Handover) : (s.modHand h f).groups = s.groups := rfl
@[simp] theorem State.group_modHand (s : State) (h : HNum) (f : Handover → Handover) (i : Fin 8) :
    (s.modHand h f).group i = s.group i := rfl
@[simp] theorem State.resetAsserted_modHand (s : State) (h : HNum) (f : Handover → Handover) : (s.modHand h f).resetAsserted = s.resetAsserted := rfl
@[simp] theorem State.advanceDue_modHand (s : State) (h : HNum) (f : Handover → Handover) : (s.modHand h f).advanceDue = s.advanceDue := rfl
@[simp] theorem State.trendDue_modHand (s : State) (h : HNum) (f : Handover → Handover) : (s.modHand h f).trendDue = s.trendDue := rfl
@[simp] theorem State.pending_modHand (s : State) (h : HNum) (f : Handover → Handover) : (s.modHand h f).pending = s.pending := rfl

/-! ### modLink -/

@[simp] theorem State.columns_modLink (s : State) (p : Port) (f : LinkUnit → LinkUnit) : (s.modLink p f).columns = s.columns := rfl
@[simp] theorem State.col_modLink (s : State) (p : Port) (f : LinkUnit → LinkUnit) (d : ColIx) :
    (s.modLink p f).col d = s.col d := rfl
@[simp] theorem State.records_modLink (s : State) (p : Port) (f : LinkUnit → LinkUnit) : (s.modLink p f).records = s.records := rfl
@[simp] theorem State.hand_modLink (s : State) (p : Port) (f : LinkUnit → LinkUnit) (i : HNum) :
    (s.modLink p f).hand i = s.hand i := rfl
@[simp] theorem State.stampCounter_modLink (s : State) (p : Port) (f : LinkUnit → LinkUnit) : (s.modLink p f).stampCounter = s.stampCounter := rfl
@[simp] theorem State.limits_modLink (s : State) (p : Port) (f : LinkUnit → LinkUnit) : (s.modLink p f).limits = s.limits := rfl
@[simp] theorem State.load_modLink (s : State) (p : Port) (f : LinkUnit → LinkUnit) : (s.modLink p f).load = s.load := rfl
@[simp] theorem State.clock_modLink (s : State) (p : Port) (f : LinkUnit → LinkUnit) : (s.modLink p f).clock = s.clock := rfl
@[simp] theorem State.tickCount_modLink (s : State) (p : Port) (f : LinkUnit → LinkUnit) : (s.modLink p f).tickCount = s.tickCount := rfl
@[simp] theorem State.ports_modLink (s : State) (p : Port) (f : LinkUnit → LinkUnit) : (s.modLink p f).ports = s.ports := rfl
@[simp] theorem State.levels_modLink (s : State) (p : Port) (f : LinkUnit → LinkUnit) : (s.modLink p f).levels = s.levels := rfl
@[simp] theorem State.level_modLink (s : State) (p : Port) (f : LinkUnit → LinkUnit) (m : NoticeKind) :
    (s.modLink p f).level m = s.level m := rfl
@[simp] theorem State.pendingSets_modLink (s : State) (p : Port) (f : LinkUnit → LinkUnit) : (s.modLink p f).pendingSets = s.pendingSets := rfl
@[simp] theorem State.pendingSet_modLink (s : State) (p : Port) (f : LinkUnit → LinkUnit) (q : Port) :
    (s.modLink p f).pendingSet q = s.pendingSet q := rfl
@[simp] theorem State.groups_modLink (s : State) (p : Port) (f : LinkUnit → LinkUnit) : (s.modLink p f).groups = s.groups := rfl
@[simp] theorem State.group_modLink (s : State) (p : Port) (f : LinkUnit → LinkUnit) (i : Fin 8) :
    (s.modLink p f).group i = s.group i := rfl
@[simp] theorem State.resetAsserted_modLink (s : State) (p : Port) (f : LinkUnit → LinkUnit) : (s.modLink p f).resetAsserted = s.resetAsserted := rfl
@[simp] theorem State.advanceDue_modLink (s : State) (p : Port) (f : LinkUnit → LinkUnit) : (s.modLink p f).advanceDue = s.advanceDue := rfl
@[simp] theorem State.trendDue_modLink (s : State) (p : Port) (f : LinkUnit → LinkUnit) : (s.modLink p f).trendDue = s.trendDue := rfl
@[simp] theorem State.pending_modLink (s : State) (p : Port) (f : LinkUnit → LinkUnit) : (s.modLink p f).pending = s.pending := rfl

/-! ### modPending -/

@[simp] theorem State.columns_modPending (s : State) (p : Port) (f : List Notice → List Notice) : (s.modPending p f).columns = s.columns := rfl
@[simp] theorem State.col_modPending (s : State) (p : Port) (f : List Notice → List Notice) (d : ColIx) :
    (s.modPending p f).col d = s.col d := rfl
@[simp] theorem State.records_modPending (s : State) (p : Port) (f : List Notice → List Notice) : (s.modPending p f).records = s.records := rfl
@[simp] theorem State.hand_modPending (s : State) (p : Port) (f : List Notice → List Notice) (i : HNum) :
    (s.modPending p f).hand i = s.hand i := rfl
@[simp] theorem State.stampCounter_modPending (s : State) (p : Port) (f : List Notice → List Notice) : (s.modPending p f).stampCounter = s.stampCounter := rfl
@[simp] theorem State.limits_modPending (s : State) (p : Port) (f : List Notice → List Notice) : (s.modPending p f).limits = s.limits := rfl
@[simp] theorem State.load_modPending (s : State) (p : Port) (f : List Notice → List Notice) : (s.modPending p f).load = s.load := rfl
@[simp] theorem State.clock_modPending (s : State) (p : Port) (f : List Notice → List Notice) : (s.modPending p f).clock = s.clock := rfl
@[simp] theorem State.tickCount_modPending (s : State) (p : Port) (f : List Notice → List Notice) : (s.modPending p f).tickCount = s.tickCount := rfl
@[simp] theorem State.ports_modPending (s : State) (p : Port) (f : List Notice → List Notice) : (s.modPending p f).ports = s.ports := rfl
@[simp] theorem State.links_modPending (s : State) (p : Port) (f : List Notice → List Notice) : (s.modPending p f).links = s.links := rfl
@[simp] theorem State.link_modPending (s : State) (p : Port) (f : List Notice → List Notice) (q : Port) :
    (s.modPending p f).link q = s.link q := rfl
@[simp] theorem State.levels_modPending (s : State) (p : Port) (f : List Notice → List Notice) : (s.modPending p f).levels = s.levels := rfl
@[simp] theorem State.level_modPending (s : State) (p : Port) (f : List Notice → List Notice) (m : NoticeKind) :
    (s.modPending p f).level m = s.level m := rfl
@[simp] theorem State.groups_modPending (s : State) (p : Port) (f : List Notice → List Notice) : (s.modPending p f).groups = s.groups := rfl
@[simp] theorem State.group_modPending (s : State) (p : Port) (f : List Notice → List Notice) (i : Fin 8) :
    (s.modPending p f).group i = s.group i := rfl
@[simp] theorem State.resetAsserted_modPending (s : State) (p : Port) (f : List Notice → List Notice) : (s.modPending p f).resetAsserted = s.resetAsserted := rfl
@[simp] theorem State.advanceDue_modPending (s : State) (p : Port) (f : List Notice → List Notice) : (s.modPending p f).advanceDue = s.advanceDue := rfl
@[simp] theorem State.trendDue_modPending (s : State) (p : Port) (f : List Notice → List Notice) : (s.modPending p f).trendDue = s.trendDue := rfl
@[simp] theorem State.pending_modPending (s : State) (p : Port) (f : List Notice → List Notice) : (s.modPending p f).pending = s.pending := rfl

/-! ### modGroup -/

@[simp] theorem State.columns_modGroup (s : State) (g : Fin 8) (f : ErrorGroup → ErrorGroup) : (s.modGroup g f).columns = s.columns := rfl
@[simp] theorem State.col_modGroup (s : State) (g : Fin 8) (f : ErrorGroup → ErrorGroup) (d : ColIx) :
    (s.modGroup g f).col d = s.col d := rfl
@[simp] theorem State.records_modGroup (s : State) (g : Fin 8) (f : ErrorGroup → ErrorGroup) : (s.modGroup g f).records = s.records := rfl
@[simp] theorem State.hand_modGroup (s : State) (g : Fin 8) (f : ErrorGroup → ErrorGroup) (i : HNum) :
    (s.modGroup g f).hand i = s.hand i := rfl
@[simp] theorem State.stampCounter_modGroup (s : State) (g : Fin 8) (f : ErrorGroup → ErrorGroup) : (s.modGroup g f).stampCounter = s.stampCounter := rfl
@[simp] theorem State.limits_modGroup (s : State) (g : Fin 8) (f : ErrorGroup → ErrorGroup) : (s.modGroup g f).limits = s.limits := rfl
@[simp] theorem State.load_modGroup (s : State) (g : Fin 8) (f : ErrorGroup → ErrorGroup) : (s.modGroup g f).load = s.load := rfl
@[simp] theorem State.clock_modGroup (s : State) (g : Fin 8) (f : ErrorGroup → ErrorGroup) : (s.modGroup g f).clock = s.clock := rfl
@[simp] theorem State.tickCount_modGroup (s : State) (g : Fin 8) (f : ErrorGroup → ErrorGroup) : (s.modGroup g f).tickCount = s.tickCount := rfl
@[simp] theorem State.ports_modGroup (s : State) (g : Fin 8) (f : ErrorGroup → ErrorGroup) : (s.modGroup g f).ports = s.ports := rfl
@[simp] theorem State.links_modGroup (s : State) (g : Fin 8) (f : ErrorGroup → ErrorGroup) : (s.modGroup g f).links = s.links := rfl
@[simp] theorem State.link_modGroup (s : State) (g : Fin 8) (f : ErrorGroup → ErrorGroup) (q : Port) :
    (s.modGroup g f).link q = s.link q := rfl
@[simp] theorem State.levels_modGroup (s : State) (g : Fin 8) (f : ErrorGroup → ErrorGroup) : (s.modGroup g f).levels = s.levels := rfl
@[simp] theorem State.level_modGroup (s : State) (g : Fin 8) (f : ErrorGroup → ErrorGroup) (m : NoticeKind) :
    (s.modGroup g f).level m = s.level m := rfl
@[simp] theorem State.pendingSets_modGroup (s : State) (g : Fin 8) (f : ErrorGroup → ErrorGroup) : (s.modGroup g f).pendingSets = s.pendingSets := rfl
@[simp] theorem State.pendingSet_modGroup (s : State) (g : Fin 8) (f : ErrorGroup → ErrorGroup) (q : Port) :
    (s.modGroup g f).pendingSet q = s.pendingSet q := rfl
@[simp] theorem State.resetAsserted_modGroup (s : State) (g : Fin 8) (f : ErrorGroup → ErrorGroup) : (s.modGroup g f).resetAsserted = s.resetAsserted := rfl
@[simp] theorem State.advanceDue_modGroup (s : State) (g : Fin 8) (f : ErrorGroup → ErrorGroup) : (s.modGroup g f).advanceDue = s.advanceDue := rfl
@[simp] theorem State.trendDue_modGroup (s : State) (g : Fin 8) (f : ErrorGroup → ErrorGroup) : (s.modGroup g f).trendDue = s.trendDue := rfl
@[simp] theorem State.pending_modGroup (s : State) (g : Fin 8) (f : ErrorGroup → ErrorGroup) : (s.modGroup g f).pending = s.pending := rfl

/-! ### setStamp -/

@[simp] theorem State.columns_setStamp (s : State) (n : Nat) : (s.setStamp n).columns = s.columns := rfl
@[simp] theorem State.col_setStamp (s : State) (n : Nat) (d : ColIx) :
    (s.setStamp n).col d = s.col d := rfl
@[simp] theorem State.records_setStamp (s : State) (n : Nat) : (s.setStamp n).records = s.records := rfl
@[simp] theorem State.hand_setStamp (s : State) (n : Nat) (i : HNum) :
    (s.setStamp n).hand i = s.hand i := rfl
@[simp] theorem State.limits_setStamp (s : State) (n : Nat) : (s.setStamp n).limits = s.limits := rfl
@[simp] theorem State.load_setStamp (s : State) (n : Nat) : (s.setStamp n).load = s.load := rfl
@[simp] theorem State.clock_setStamp (s : State) (n : Nat) : (s.setStamp n).clock = s.clock := rfl
@[simp] theorem State.tickCount_setStamp (s : State) (n : Nat) : (s.setStamp n).tickCount = s.tickCount := rfl
@[simp] theorem State.ports_setStamp (s : State) (n : Nat) : (s.setStamp n).ports = s.ports := rfl
@[simp] theorem State.links_setStamp (s : State) (n : Nat) : (s.setStamp n).links = s.links := rfl
@[simp] theorem State.link_setStamp (s : State) (n : Nat) (q : Port) :
    (s.setStamp n).link q = s.link q := rfl
@[simp] theorem State.levels_setStamp (s : State) (n : Nat) : (s.setStamp n).levels = s.levels := rfl
@[simp] theorem State.level_setStamp (s : State) (n : Nat) (m : NoticeKind) :
    (s.setStamp n).level m = s.level m := rfl
@[simp] theorem State.pendingSets_setStamp (s : State) (n : Nat) : (s.setStamp n).pendingSets = s.pendingSets := rfl
@[simp] theorem State.pendingSet_setStamp (s : State) (n : Nat) (q : Port) :
    (s.setStamp n).pendingSet q = s.pendingSet q := rfl
@[simp] theorem State.groups_setStamp (s : State) (n : Nat) : (s.setStamp n).groups = s.groups := rfl
@[simp] theorem State.group_setStamp (s : State) (n : Nat) (i : Fin 8) :
    (s.setStamp n).group i = s.group i := rfl
@[simp] theorem State.resetAsserted_setStamp (s : State) (n : Nat) : (s.setStamp n).resetAsserted = s.resetAsserted := rfl
@[simp] theorem State.advanceDue_setStamp (s : State) (n : Nat) : (s.setStamp n).advanceDue = s.advanceDue := rfl
@[simp] theorem State.trendDue_setStamp (s : State) (n : Nat) : (s.setStamp n).trendDue = s.trendDue := rfl
@[simp] theorem State.pending_setStamp (s : State) (n : Nat) : (s.setStamp n).pending = s.pending := rfl

/-! ### setLoad -/

@[simp] theorem State.columns_setLoad (s : State) (l : LoadMonitor) : (s.setLoad l).columns = s.columns := rfl
@[simp] theorem State.col_setLoad (s : State) (l : LoadMonitor) (d : ColIx) :
    (s.setLoad l).col d = s.col d := rfl
@[simp] theorem State.records_setLoad (s : State) (l : LoadMonitor) : (s.setLoad l).records = s.records := rfl
@[simp] theorem State.hand_setLoad (s : State) (l : LoadMonitor) (i : HNum) :
    (s.setLoad l).hand i = s.hand i := rfl
@[simp] theorem State.stampCounter_setLoad (s : State) (l : LoadMonitor) : (s.setLoad l).stampCounter = s.stampCounter := rfl
@[simp] theorem State.limits_setLoad (s : State) (l : LoadMonitor) : (s.setLoad l).limits = s.limits := rfl
@[simp] theorem State.clock_setLoad (s : State) (l : LoadMonitor) : (s.setLoad l).clock = s.clock := rfl
@[simp] theorem State.tickCount_setLoad (s : State) (l : LoadMonitor) : (s.setLoad l).tickCount = s.tickCount := rfl
@[simp] theorem State.ports_setLoad (s : State) (l : LoadMonitor) : (s.setLoad l).ports = s.ports := rfl
@[simp] theorem State.links_setLoad (s : State) (l : LoadMonitor) : (s.setLoad l).links = s.links := rfl
@[simp] theorem State.link_setLoad (s : State) (l : LoadMonitor) (q : Port) :
    (s.setLoad l).link q = s.link q := rfl
@[simp] theorem State.levels_setLoad (s : State) (l : LoadMonitor) : (s.setLoad l).levels = s.levels := rfl
@[simp] theorem State.level_setLoad (s : State) (l : LoadMonitor) (m : NoticeKind) :
    (s.setLoad l).level m = s.level m := rfl
@[simp] theorem State.pendingSets_setLoad (s : State) (l : LoadMonitor) : (s.setLoad l).pendingSets = s.pendingSets := rfl
@[simp] theorem State.pendingSet_setLoad (s : State) (l : LoadMonitor) (q : Port) :
    (s.setLoad l).pendingSet q = s.pendingSet q := rfl
@[simp] theorem State.groups_setLoad (s : State) (l : LoadMonitor) : (s.setLoad l).groups = s.groups := rfl
@[simp] theorem State.group_setLoad (s : State) (l : LoadMonitor) (i : Fin 8) :
    (s.setLoad l).group i = s.group i := rfl
@[simp] theorem State.resetAsserted_setLoad (s : State) (l : LoadMonitor) : (s.setLoad l).resetAsserted = s.resetAsserted := rfl
@[simp] theorem State.advanceDue_setLoad (s : State) (l : LoadMonitor) : (s.setLoad l).advanceDue = s.advanceDue := rfl
@[simp] theorem State.trendDue_setLoad (s : State) (l : LoadMonitor) : (s.setLoad l).trendDue = s.trendDue := rfl
@[simp] theorem State.pending_setLoad (s : State) (l : LoadMonitor) : (s.setLoad l).pending = s.pending := rfl

/-! ### setPort -/

@[simp] theorem State.columns_setPort (s : State) (r : Region) (x : PortConfig) : (s.setPort r x).columns = s.columns := rfl
@[simp] theorem State.col_setPort (s : State) (r : Region) (x : PortConfig) (d : ColIx) :
    (s.setPort r x).col d = s.col d := rfl
@[simp] theorem State.records_setPort (s : State) (r : Region) (x : PortConfig) : (s.setPort r x).records = s.records := rfl
@[simp] theorem State.hand_setPort (s : State) (r : Region) (x : PortConfig) (i : HNum) :
    (s.setPort r x).hand i = s.hand i := rfl
@[simp] theorem State.stampCounter_setPort (s : State) (r : Region) (x : PortConfig) : (s.setPort r x).stampCounter = s.stampCounter := rfl
@[simp] theorem State.limits_setPort (s : State) (r : Region) (x : PortConfig) : (s.setPort r x).limits = s.limits := rfl
@[simp] theorem State.load_setPort (s : State) (r : Region) (x : PortConfig) : (s.setPort r x).load = s.load := rfl
@[simp] theorem State.clock_setPort (s : State) (r : Region) (x : PortConfig) : (s.setPort r x).clock = s.clock := rfl
@[simp] theorem State.tickCount_setPort (s : State) (r : Region) (x : PortConfig) : (s.setPort r x).tickCount = s.tickCount := rfl
@[simp] theorem State.links_setPort (s : State) (r : Region) (x : PortConfig) : (s.setPort r x).links = s.links := rfl
@[simp] theorem State.link_setPort (s : State) (r : Region) (x : PortConfig) (q : Port) :
    (s.setPort r x).link q = s.link q := rfl
@[simp] theorem State.levels_setPort (s : State) (r : Region) (x : PortConfig) : (s.setPort r x).levels = s.levels := rfl
@[simp] theorem State.level_setPort (s : State) (r : Region) (x : PortConfig) (m : NoticeKind) :
    (s.setPort r x).level m = s.level m := rfl
@[simp] theorem State.pendingSets_setPort (s : State) (r : Region) (x : PortConfig) : (s.setPort r x).pendingSets = s.pendingSets := rfl
@[simp] theorem State.pendingSet_setPort (s : State) (r : Region) (x : PortConfig) (q : Port) :
    (s.setPort r x).pendingSet q = s.pendingSet q := rfl
@[simp] theorem State.groups_setPort (s : State) (r : Region) (x : PortConfig) : (s.setPort r x).groups = s.groups := rfl
@[simp] theorem State.group_setPort (s : State) (r : Region) (x : PortConfig) (i : Fin 8) :
    (s.setPort r x).group i = s.group i := rfl
@[simp] theorem State.resetAsserted_setPort (s : State) (r : Region) (x : PortConfig) : (s.setPort r x).resetAsserted = s.resetAsserted := rfl
@[simp] theorem State.advanceDue_setPort (s : State) (r : Region) (x : PortConfig) : (s.setPort r x).advanceDue = s.advanceDue := rfl
@[simp] theorem State.trendDue_setPort (s : State) (r : Region) (x : PortConfig) : (s.setPort r x).trendDue = s.trendDue := rfl
@[simp] theorem State.pending_setPort (s : State) (r : Region) (x : PortConfig) : (s.setPort r x).pending = s.pending := rfl

/-! ### setLimits -/

@[simp] theorem State.columns_setLimits (s : State) (l : Limits) : (s.setLimits l).columns = s.columns := rfl
@[simp] theorem State.col_setLimits (s : State) (l : Limits) (d : ColIx) :
    (s.setLimits l).col d = s.col d := rfl
@[simp] theorem State.records_setLimits (s : State) (l : Limits) : (s.setLimits l).records = s.records := rfl
@[simp] theorem State.hand_setLimits (s : State) (l : Limits) (i : HNum) :
    (s.setLimits l).hand i = s.hand i := rfl
@[simp] theorem State.stampCounter_setLimits (s : State) (l : Limits) : (s.setLimits l).stampCounter = s.stampCounter := rfl
@[simp] theorem State.load_setLimits (s : State) (l : Limits) : (s.setLimits l).load = s.load := rfl
@[simp] theorem State.clock_setLimits (s : State) (l : Limits) : (s.setLimits l).clock = s.clock := rfl
@[simp] theorem State.tickCount_setLimits (s : State) (l : Limits) : (s.setLimits l).tickCount = s.tickCount := rfl
@[simp] theorem State.ports_setLimits (s : State) (l : Limits) : (s.setLimits l).ports = s.ports := rfl
@[simp] theorem State.links_setLimits (s : State) (l : Limits) : (s.setLimits l).links = s.links := rfl
@[simp] theorem State.link_setLimits (s : State) (l : Limits) (q : Port) :
    (s.setLimits l).link q = s.link q := rfl
@[simp] theorem State.levels_setLimits (s : State) (l : Limits) : (s.setLimits l).levels = s.levels := rfl
@[simp] theorem State.level_setLimits (s : State) (l : Limits) (m : NoticeKind) :
    (s.setLimits l).level m = s.level m := rfl
@[simp] theorem State.pendingSets_setLimits (s : State) (l : Limits) : (s.setLimits l).pendingSets = s.pendingSets := rfl
@[simp] theorem State.pendingSet_setLimits (s : State) (l : Limits) (q : Port) :
    (s.setLimits l).pendingSet q = s.pendingSet q := rfl
@[simp] theorem State.groups_setLimits (s : State) (l : Limits) : (s.setLimits l).groups = s.groups := rfl
@[simp] theorem State.group_setLimits (s : State) (l : Limits) (i : Fin 8) :
    (s.setLimits l).group i = s.group i := rfl
@[simp] theorem State.resetAsserted_setLimits (s : State) (l : Limits) : (s.setLimits l).resetAsserted = s.resetAsserted := rfl
@[simp] theorem State.advanceDue_setLimits (s : State) (l : Limits) : (s.setLimits l).advanceDue = s.advanceDue := rfl
@[simp] theorem State.trendDue_setLimits (s : State) (l : Limits) : (s.setLimits l).trendDue = s.trendDue := rfl
@[simp] theorem State.pending_setLimits (s : State) (l : Limits) : (s.setLimits l).pending = s.pending := rfl

/-! ### setLevel -/

@[simp] theorem State.columns_setLevel (s : State) (k : NoticeKind) (n : Nat) : (s.setLevel k n).columns = s.columns := rfl
@[simp] theorem State.col_setLevel (s : State) (k : NoticeKind) (n : Nat) (d : ColIx) :
    (s.setLevel k n).col d = s.col d := rfl
@[simp] theorem State.records_setLevel (s : State) (k : NoticeKind) (n : Nat) : (s.setLevel k n).records = s.records := rfl
@[simp] theorem State.hand_setLevel (s : State) (k : NoticeKind) (n : Nat) (i : HNum) :
    (s.setLevel k n).hand i = s.hand i := rfl
@[simp] theorem State.stampCounter_setLevel (s : State) (k : NoticeKind) (n : Nat) : (s.setLevel k n).stampCounter = s.stampCounter := rfl
@[simp] theorem State.limits_setLevel (s : State) (k : NoticeKind) (n : Nat) : (s.setLevel k n).limits = s.limits := rfl
@[simp] theorem State.load_setLevel (s : State) (k : NoticeKind) (n : Nat) : (s.setLevel k n).load = s.load := rfl
@[simp] theorem State.clock_setLevel (s : State) (k : NoticeKind) (n : Nat) : (s.setLevel k n).clock = s.clock := rfl
@[simp] theorem State.tickCount_setLevel (s : State) (k : NoticeKind) (n : Nat) : (s.setLevel k n).tickCount = s.tickCount := rfl
@[simp] theorem State.ports_setLevel (s : State) (k : NoticeKind) (n : Nat) : (s.setLevel k n).ports = s.ports := rfl
@[simp] theorem State.links_setLevel (s : State) (k : NoticeKind) (n : Nat) : (s.setLevel k n).links = s.links := rfl
@[simp] theorem State.link_setLevel (s : State) (k : NoticeKind) (n : Nat) (q : Port) :
    (s.setLevel k n).link q = s.link q := rfl
@[simp] theorem State.pendingSets_setLevel (s : State) (k : NoticeKind) (n : Nat) : (s.setLevel k n).pendingSets = s.pendingSets := rfl
@[simp] theorem State.pendingSet_setLevel (s : State) (k : NoticeKind) (n : Nat) (q : Port) :
    (s.setLevel k n).pendingSet q = s.pendingSet q := rfl
@[simp] theorem State.groups_setLevel (s : State) (k : NoticeKind) (n : Nat) : (s.setLevel k n).groups = s.groups := rfl
@[simp] theorem State.group_setLevel (s : State) (k : NoticeKind) (n : Nat) (i : Fin 8) :
    (s.setLevel k n).group i = s.group i := rfl
@[simp] theorem State.resetAsserted_setLevel (s : State) (k : NoticeKind) (n : Nat) : (s.setLevel k n).resetAsserted = s.resetAsserted := rfl
@[simp] theorem State.advanceDue_setLevel (s : State) (k : NoticeKind) (n : Nat) : (s.setLevel k n).advanceDue = s.advanceDue := rfl
@[simp] theorem State.trendDue_setLevel (s : State) (k : NoticeKind) (n : Nat) : (s.setLevel k n).trendDue = s.trendDue := rfl
@[simp] theorem State.pending_setLevel (s : State) (k : NoticeKind) (n : Nat) : (s.setLevel k n).pending = s.pending := rfl

/-! ### Two writes of one place, and the records as they are -/

theorem State.setHand_eq_modHand {s : State} {h : HNum} {r : Handover} (e : s.hand h = some r)
    (f : Handover → Handover) : s.setHand h (some (f r)) = s.modHand h f := by
  simp [State.modHand, e]

theorem State.modHand_of_none {s : State} {h : HNum} (e : s.hand h = none) (f : Handover → Handover) :
    s.modHand h f = s := by
  have : s.records[h.val] = none := e
  have hset : s.records.set h.val none h.isLt = s.records := by
    conv_rhs => rw [← Vector.set_getElem_self (i := h.val) (xs := s.records) h.isLt, this]
  simp [State.modHand, State.setHand, e, hset]

theorem State.modCol_congr {s : State} {c : ColIx} {f g : Column → Column} (e : f (s.col c) = g (s.col c)) :
    s.modCol c f = s.modCol c g := by unfold State.modCol; rw [e]

theorem State.modCol_modCol (s : State) (c : ColIx) (f g : Column → Column) :
    (s.modCol c f).modCol c g = s.modCol c fun k => g (f k) := by
  have : (s.modCol c f).col c = f (s.col c) := by simp
  unfold State.modCol at this ⊢
  simp [this]

theorem State.modCol_self {s : State} {c : ColIx} {f : Column → Column} (e : f (s.col c) = s.col c) :
    s.modCol c f = s := by
  unfold State.modCol; rw [e]; simp [State.col]

theorem State.setHand_setHand (s : State) (h : HNum) (x y : Option Handover) :
    (s.setHand h x).setHand h y = s.setHand h y := by simp [State.setHand]

theorem State.setHand_self {s : State} {h : HNum} {x : Option Handover} (e : s.hand h = x) : s.setHand h x = s := by
  subst e; simp [State.setHand, State.hand]

theorem State.modHand_of_some {s : State} {h : HNum} {r : Handover} (e : s.hand h = some r)
    (f : Handover → Handover) : s.modHand h f = s.setHand h (some (f r)) := (State.setHand_eq_modHand e f).symm

theorem State.modPending_modPending (s : State) (p : Port) (f g : List Notice → List Notice) :
    (s.modPending p f).modPending p g = s.modPending p fun l => g (f l) := by
  have : (s.modPending p f).pendingSet p = f (s.pendingSet p) := by simp
  unfold State.modPending at this ⊢
  simp [this]

theorem State.modLink_modLink (s : State) (p : Port) (f g : LinkUnit → LinkUnit) :
    (s.modLink p f).modLink p g = s.modLink p fun u => g (f u) := by
  have : (s.modLink p f).link p = f (s.link p) := by simp
  unfold State.modLink at this ⊢
  simp [this]

/-! ### A grant that is noticed -/

@[simp] theorem Grant.claim_noticed (n : Nat) (g : Grant) : (g.noticed n).claim = g.claim := by
  unfold Grant.noticed Grant.startTimer; split <;> rfl
@[simp] theorem Grant.op_noticed (n : Nat) (g : Grant) : (g.noticed n).op = g.op := by
  unfold Grant.noticed Grant.startTimer; split <;> rfl
@[simp] theorem Grant.noticeSent_noticed (n : Nat) (g : Grant) : (g.noticed n).noticeSent = true := rfl
@[simp] theorem Grant.timer_noticed (n : Nat) (g : Grant) : (g.noticed n).timer = some (g.timer.getD n) := by
  unfold Grant.noticed Grant.startTimer; split <;> simp [*]

/-! ### A step in progress -/

@[simp] theorem State.begin_st (s : State) : s.begin.st = s := rfl
@[simp] theorem Work.up_st (w : Work) (f : State → State) : (w.up f).st = f w.st := rfl
@[simp] theorem Work.up_sel (w : Work) (f : State → State) : (w.up f).sel = w.sel := rfl
@[simp] theorem Work.start_st (w : Work) (c : ColIx) : (w.start c).st = w.st := rfl
@[simp] theorem Work.startAll_st (w : Work) : w.startAll.st = w.st := rfl
@[simp] theorem State.refuse_work (s : State) (r : Result) (d : List Byte) : (s.refuse r d).work = s.begin := rfl
@[simp] theorem State.refuse_result (s : State) (r : Result) (d : List Byte) : (s.refuse r d).result = r := rfl
@[simp] theorem State.refuse_data (s : State) (r : Result) (d : List Byte) : (s.refuse r d).data = d := rfl

end Sys2Proof.Machine
end

