-- ==== Sys2Proof/Laws/Closed.lean ====
section
/-! SUPPORT. Relations that are closed under the part's updates: what every operation can do, said once for all of them. -/
namespace Sys2Proof.Machine

/-! ### The updates -/

/-- A change of a column that leaves its configuration and keeps its lists in order. -/
def ColumnStep (f : Column → Column) : Prop := ∀ k, (f k).cfg = k.cfg ∧ (k.Ordered → (f k).Ordered)

/-- A change of a record under which it goes on, its urgency raised to 7 at most. -/
def HandStep (f : Handover → Handover) : Prop := ∀ r, r.Continues (f r) ∧ (f r).urgency ≤ max r.urgency 7

/-- The configured levels of two Load Monitors agree. -/
structure LoadMonitor.SameLevels (a b : LoadMonitor) : Prop where
  holdLevel : b.holdLevel = a.holdLevel
  highOn : b.high.onLevel = a.high.onLevel
  highOff : b.high.offLevel = a.high.offLevel
  fullOn : b.full.onLevel = a.full.onLevel
  fullOff : b.full.offLevel = a.full.offLevel
  highLevel : b.highLevel = a.highLevel
  trendStep : b.trendStep = a.trendStep

/-- A relation of states that holds across each of the core's updates. -/
structure Closed (R : State → State → Prop) : Prop where
  refl : ∀ s, R s s
  trans : ∀ {s t u}, R s t → R t u → R s u
  col : ∀ s c f, ColumnStep f → R s (s.modCol c f)
  hand : ∀ s h f, HandStep f → R s (s.modHand h f)
  free : ∀ s h, R s (s.setHand h none)
  post : ∀ s p n, R s (s.post p n)
  drop : ∀ s p (items : List Notice), items.Sublist (s.pendingSet p) → R s (s.modPending p fun _ => items)
  capture : ∀ s g e, R s (s.capture g e)
  load : ∀ s l, s.load.SameLevels l → R s (s.setLoad l)
  stamp : ∀ s n, R s (s.setStamp n)

variable {R : State → State → Prop}

/-- A fold of steps is a step. -/
theorem Closed.foldl {α β : Type} (F : Closed R) (st : β → State) (f : β → α → β)
    (step : ∀ b a, R (st b) (st (f b a))) : ∀ (l : List α) (b : β), R (st b) (st (l.foldl f b))
  | [], _ => F.refl _
  | a :: l, b => F.trans (step b a) (F.foldl st f step l (f b a))

/-! ### Which column and record changes are steps -/

/-- A change that leaves the configuration, the wait list and the inbound set is a column step. -/
theorem ColumnStep.control {f : Column → Column}
    (h : ∀ k, (f k).cfg = k.cfg ∧ (f k).waitList = k.waitList ∧ (f k).inbound = k.inbound) : ColumnStep f := fun k =>
  ⟨(h k).1, fun o => ⟨(h k).2.1 ▸ o.waits, (h k).2.2 ▸ o.inbound⟩⟩

theorem ColumnStep.waits {f : List Claim → List Claim}
    (h : ∀ l : List Claim, l.Pairwise (fun a b => a.stamp ≤ b.stamp) → (f l).Pairwise fun a b => a.stamp ≤ b.stamp) :
    ColumnStep fun k => { k with waitList := f k.waitList } := fun _ => ⟨rfl, fun o => ⟨h _ o.waits, o.inbound⟩⟩

theorem ColumnStep.inbound {f : List HNum → List HNum}
    (h : ∀ l : List HNum, l.Pairwise (fun a b => a < b) → (f l).Pairwise fun a b => a < b) :
    ColumnStep fun k => { k with inbound := f k.inbound } := fun _ => ⟨rfl, fun o => ⟨o.waits, h _ o.inbound⟩⟩

/-- A claim joins at its place by stamp. -/
theorem insertClaim_mem {cl x : Claim} : ∀ {l : List Claim}, x ∈ insertClaim cl l ↔ x = cl ∨ x ∈ l
  | [] => by simp [insertClaim]
  | y :: l => by
    unfold insertClaim; split
    · simp
    · simp only [List.mem_cons, insertClaim_mem (l := l)]; tauto

theorem insertClaim_ordered (cl : Claim) : ∀ l : List Claim, l.Pairwise (fun a b => a.stamp ≤ b.stamp) →
    (insertClaim cl l).Pairwise fun a b => a.stamp ≤ b.stamp
  | [], _ => by simp [insertClaim]
  | y :: l, h => by
    unfold insertClaim; split
    · rename_i lt
      refine List.Pairwise.cons (fun x hx => ?_) h
      rcases List.mem_cons.1 hx with rfl | hx
      · omega
      · have := List.rel_of_pairwise_cons h hx; omega
    · rename_i ge
      refine List.Pairwise.cons (fun x hx => ?_) (insertClaim_ordered cl l h.of_cons)
      rcases insertClaim_mem.1 hx with rfl | hx
      · omega
      · exact List.rel_of_pairwise_cons h hx

theorem insertHand_mem {h x : HNum} : ∀ {l : List HNum}, x ∈ insertHand h l ↔ x = h ∨ x ∈ l
  | [] => by simp [insertHand]
  | y :: l => by
    unfold insertHand; split
    · simp
    · split
      · rename_i e; subst e; simp
      · simp only [List.mem_cons, insertHand_mem (l := l)]; tauto

theorem insertHand_ordered (h : HNum) : ∀ l : List HNum, l.Pairwise (fun a b => a < b) →
    (insertHand h l).Pairwise fun a b => a < b
  | [], _ => by simp [insertHand]
  | y :: l, p => by
    unfold insertHand; split
    · rename_i lt
      refine List.Pairwise.cons (fun x hx => ?_) p
      rcases List.mem_cons.1 hx with rfl | hx
      · exact lt
      · exact lt_trans lt (List.rel_of_pairwise_cons p hx)
    · split
      · exact p
      · rename_i ge ne
        refine List.Pairwise.cons (fun x hx => ?_) (insertHand_ordered h l p.of_cons)
        rcases insertHand_mem.1 hx with rfl | hx
        · exact lt_of_le_of_ne (not_lt.1 ge) (fun e => ne e.symm)
        · exact List.rel_of_pairwise_cons p hx

theorem rankOf_mono (stamps : List Nat) {a b : Nat} (h : a ≤ b) : rankOf stamps a ≤ rankOf stamps b := by
  unfold rankOf
  induction stamps with
  | nil => simp
  | cons x l ih =>
    simp only [List.filter_cons]
    split <;> split <;> simp_all <;> omega

theorem ColumnStep.restamp (stamps : List Nat) : ColumnStep (Column.restamp (rankOf stamps)) := fun k =>
  ⟨rfl, fun o => ⟨by
    simp only [Column.restamp, List.pairwise_map, Claim.restamp]
    exact o.waits.imp fun h => rankOf_mono stamps h, o.inbound⟩⟩

theorem State.mark_stamp (s : State) (c : ColIx) (cl : Claim) : (s.mark c cl).stamp = cl.stamp := by
  unfold State.mark; split <;> rfl

/-- A record goes on as itself. -/
theorem budgetContinues.refl : ∀ b, budgetContinues b b
  | none => trivial
  | some _ => ⟨le_refl _, id, id⟩

theorem budgetContinues.trans : ∀ {a b c}, budgetContinues a b → budgetContinues b c → budgetContinues a c
  | none, none, none, _, _ => trivial
  | some _, some _, some _, h, g => ⟨le_trans g.1 h.1, g.2.1 ∘ h.2.1, g.2.2 ∘ h.2.2⟩

theorem Handover.Continues.refl (r : Handover) : r.Continues r :=
  ⟨rfl, rfl, rfl, rfl, .inl rfl, le_refl _, .refl _⟩

theorem Handover.Continues.trans {a b c : Handover} (h : a.Continues b) (g : b.Continues c) : a.Continues c where
  bin := g.bin.trans h.bin
  origin := g.origin.trans h.origin
  dest := g.dest.trans h.dest
  heading := g.heading.trans h.heading
  due := by
    rcases g.due with e | ⟨e, t, et⟩
    · rw [e]; exact h.due
    · refine .inr ⟨e, ?_⟩
      rcases h.due with e' | ⟨e', t', et'⟩
      · exact ⟨t, e' ▸ et⟩
      · exact ⟨t', et'⟩
  urgency := le_trans h.urgency g.urgency
  budget := h.budget.trans g.budget

/-- A change that leaves the bin, origin, destination, heading, due, urgency and budget is a record step. -/
theorem HandStep.place {f : Handover → Handover}
    (h : ∀ r, (f r).bin = r.bin ∧ (f r).origin = r.origin ∧ (f r).dest = r.dest ∧ (f r).heading = r.heading ∧
      (f r).due = r.due ∧ (f r).urgency = r.urgency ∧ (f r).budget = r.budget) : HandStep f := fun r =>
  have ⟨a, b, c, d, e, u, g⟩ := h r
  ⟨⟨a, b, c, d, .inl e, u ▸ le_refl _, g ▸ .refl _⟩, u ▸ le_max_left _ _⟩

/-- A change of the budget under which it goes on is a record step. -/
theorem HandStep.budget {f : Option Budget → Option Budget} (h : ∀ b, budgetContinues b (f b)) :
    HandStep fun r => { r with budget := f r.budget } := fun _ =>
  ⟨⟨rfl, rfl, rfl, rfl, .inl rfl, le_refl _, h _⟩, le_max_left _ _⟩

theorem Budget.live_le (b : Budget) (now : Seconds) : b.live now ≤ b.remaining := by
  unfold Budget.live; split <;> omega

/-! ### The updates of Ops.lean -/

namespace Closed

theorem after (F : Closed R) {s t u : State} (g : R t u) (h : R s t) : R s u := F.trans h g

theorem upCol (F : Closed R) (w : Work) (c : ColIx) (f : Column → Column) (h : ColumnStep f) :
    R w.st (w.up fun s => s.modCol c f).st := F.col _ _ _ h

theorem upHand (F : Closed R) (w : Work) (h : HNum) (f : Handover → Handover) (hf : HandStep f) :
    R w.st (w.up fun s => s.modHand h f).st := F.hand _ _ _ hf

theorem setSame (F : Closed R) {s : State} {h : HNum} {r : Handover} (e : s.hand h = some r) (f : Handover → Handover)
    (hf : HandStep f) : R s (s.setHand h (some (f r))) := by
  rw [State.setHand_eq_modHand e]; exact F.hand _ _ _ hf

theorem postAll (F : Closed R) (s : State) (ps : List Port) (n : Notice) : R s (s.postAll ps n) :=
  F.foldl id _ (fun s p => F.post s p n) ps s

theorem captureLink (F : Closed R) (s : State) (p : Port) (k : ErrorKind) : R s (s.captureLink p k) := F.capture _ _ _

theorem captureReport (F : Closed R) (s : State) (k : ErrorKind) (rb : Robot) (h : HNum) :
    R s (s.captureReport k rb h) := F.capture _ _ _

theorem captureColumn (F : Closed R) (s : State) (k : ErrorKind) (c : ColIx) (who : Option (Robot × HNum)) :
    R s (s.captureColumn k c who) := F.capture _ _ _

/-- The Load Monitor takes a value for which the relation holds. -/
theorem setLoadBy (F : Closed R) (w : Work) (l : LoadMonitor) (h : R w.st (w.st.setLoad l)) :
    R w.st (w.setLoad l).st := by
  unfold Work.setLoad
  simp only
  split <;> split <;> first | exact F.trans h (F.postAll _ _ _) | exact h

theorem setLoad (F : Closed R) (w : Work) (l : LoadMonitor) (h : w.st.load.SameLevels l) :
    R w.st (w.setLoad l).st := F.setLoadBy w l (F.load _ _ h)

theorem sameLevels_judge (l : LoadMonitor) (occ : Nat) : l.SameLevels (l.judge occ) := by
  constructor <;> simp only [LoadMonitor.judge, Setpoint.judge] <;> repeat (first | rfl | split)

theorem handOccupancy (F : Closed R) (w : Work) : R w.st w.handOccupancy.st :=
  F.setLoad _ _ (sameLevels_judge _ _)

theorem join (F : Closed R) (w : Work) (c : ColIx) (cl : Claim) : R w.st (w.join c cl).st :=
  F.col _ _ _ (.waits (insertClaim_ordered cl))

theorem leave (F : Closed R) (w : Work) (c : ColIx) (p : Claim → Bool) : R w.st (w.leave c p).st := by
  have h : R w.st (w.st.modCol c fun k => { k with waitList := k.waitList.filter fun cl => !p cl }) :=
    F.col _ _ _ (.waits fun _ hl => hl.filter _)
  unfold Work.leave
  simp only
  split <;> exact h

theorem renumber (F : Closed R) (s : State) : R s s.renumber := by
  have restep (f : Nat → Nat) : HandStep (Handover.restamp f) :=
    .place fun _ => ⟨rfl, rfl, rfl, rfl, rfl, rfl, rfl⟩
  unfold State.renumber
  refine F.after (F.stamp _ _) ?_
  refine F.after (F.foldl id (fun s h => s.modHand h (Handover.restamp _)) (fun s h => F.hand s h _ (restep _)) _ _) ?_
  exact F.foldl id (fun s c => s.modCol c (Column.restamp _)) (fun s c => F.col s c _ (.restamp _)) _ s

theorem advanceStamp (F : Closed R) (s : State) : R s s.advanceStamp := by
  unfold State.advanceStamp; split
  · exact F.renumber s
  · exact F.stamp _ _

theorem joinNew (F : Closed R) (w : Work) (c : ColIx) (rb : Robot) (k : ClaimKind) (h : HNum) :
    R w.st (w.joinNew c rb k h).st :=
  F.after (F.advanceStamp _) (F.join w c _)

theorem joinInbound (F : Closed R) (s : State) (c : ColIx) (h : HNum) : R s (s.joinInbound c h) :=
  F.col _ _ _ (.inbound (insertHand_ordered h))

theorem leaveInbound (F : Closed R) (w : Work) (c : ColIx) (h : HNum) : R w.st (w.leaveInbound c h).st :=
  F.col _ _ _ (.inbound fun _ p => p.filter _)

theorem land (F : Closed R) (s : State) (c : ColIx) (h : HNum) : R s (s.land c h) :=
  F.col _ _ _ fun _ => ⟨rfl, fun o => ⟨o.waits, o.inbound.filter _⟩⟩

theorem liftTop (F : Closed R) (w : Work) (c : ColIx) : R w.st (w.liftTop c).st :=
  F.col w.st c (fun k => { k with stack := k.stack.dropLast }) (.control fun _ => ⟨rfl, rfl, rfl⟩)

theorem dropTarget (F : Closed R) (w : Work) (h : HNum) : R w.st (w.dropTarget h).st := by
  unfold Work.dropTarget
  repeat' split
  · exact F.after (by refine F.hand _ _ _ ?_; exact .place fun _ => ⟨rfl, rfl, rfl, rfl, rfl, rfl, rfl⟩) (F.leaveInbound _ _ _)
  · exact F.refl _
  · exact F.refl _

/-! ### Exposure -/

theorem raiseUrgency (F : Closed R) (w : Work) (h : HNum) {u : Nat} (hu : u ≤ 7) : R w.st (w.raiseUrgency h u).st := by
  unfold Work.raiseUrgency
  split
  · exact F.refl _
  · rename_i r e
    split
    · rename_i lt
      have : R w.st (w.st.setHand h (some { r with urgency := u })) := by
        have := F.setSame e (fun r => { r with urgency := max r.urgency u }) (fun x =>
          ⟨⟨rfl, rfl, rfl, rfl, .inl rfl, le_max_left _ _, .refl _⟩, max_le_max (le_refl _) hu⟩)
        rwa [show max r.urgency u = u from by omega] at this
      simp only
      split <;> exact this
    · exact F.refl _

theorem takeWarning (F : Closed R) (w : Work) (h : HNum) : R w.st (w.takeWarning h).st := by
  unfold Work.takeWarning
  split
  · exact F.refl _
  · refine F.after (F.post _ _ _) (F.after (F.raiseUrgency _ h (by omega)) ?_)
    refine F.hand _ _ _ (.budget fun b => ?_)
    cases b with
    | none => trivial
    | some b => exact ⟨le_refl _, fun _ => rfl, id⟩

theorem judgeCharging (F : Closed R) (w : Work) (h : HNum) : R w.st (w.judgeCharging h).st := by
  unfold Work.judgeCharging
  split
  · exact F.refl _
  · rename_i r e
    split
    · exact F.refl _
    · rename_i b eb
      have put (b' : Budget) (hb : budgetContinues (some b) (some b')) :
          R w.st (w.st.setHand h (some { r with budget := some b' })) := by
        have := F.setSame e (fun x => { x with budget := if x.budget = some b then some b' else x.budget })
          (HandStep.budget (f := fun x => if x = some b then some b' else x) fun x => by
            by_cases hx : x = some b
            · subst hx; simpa using hb
            · simpa [hx] using budgetContinues.refl x)
        simpa [eb] using this
      simp only
      split
      · have := put (b.started w.st.clock w.st.limits.warn) ⟨le_refl _, id, id⟩
        split
        · exact F.after (F.takeWarning _ _) this
        · exact this
      · exact put _ ⟨b.live_le _, id, id⟩
      · exact F.refl _

theorem change (F : Closed R) (w : Work) (h : HNum) {f : Handover → Handover} (hf : HandStep f) :
    R w.st (w.change h f).st :=
  F.after (F.judgeCharging _ _) (F.hand _ _ _ hf)

/-! ### Endings and fencing -/

theorem close (F : Closed R) (w : Work) (h : HNum) (why : Reason) (ps : RegionSet) (n : Notice) :
    R w.st (w.close h why ps n).st := by
  unfold Work.close
  have h1 (cl : Closing) : R w.st (w.change h fun r => { r with state := .closing, closing := some cl }).st :=
    F.change _ _ (.place fun _ => ⟨rfl, rfl, rfl, rfl, rfl, rfl, rfl⟩)
  have hc : HandStep Handover.closed := .place fun _ => ⟨rfl, rfl, rfl, rfl, rfl, rfl, rfl⟩
  extract_lets waiting w1
  split
  · exact F.after (F.free _ _) (h1 _)
  · exact F.after (F.postAll _ _ _) (F.after (F.hand _ _ _ hc) (h1 _))

theorem releaseWaiting (F : Closed R) (s : State) (p : Region) (h : HNum) : R s (s.releaseWaiting p h) := by
  unfold State.releaseWaiting
  split
  · exact F.refl _
  · rename_i r e
    split
    · exact F.refl _
    · rename_i cl _
      split
      · extract_lets left
        split
        · exact F.free _ _
        · exact F.setSame e (fun r => { r with closing := some { cl with waiting := left } })
            (.place fun _ => ⟨rfl, rfl, rfl, rfl, rfl, rfl, rfl⟩)
      · exact F.refl _

theorem withdraw (F : Closed R) (w : Work) (h : HNum) (cause : Byte) : R w.st (w.withdraw h cause).st := by
  unfold Work.withdraw; split
  · exact F.refl _
  · exact F.close _ _ _ _ _

theorem handBack (F : Closed R) (w : Work) (h : HNum) (c : ColIx) (rb : Robot) : R w.st (w.handBack h c rb).st := by
  unfold Work.handBack; split
  · exact F.refl _
  · exact F.after (F.captureColumn _ _ _ _) (F.close _ _ _ _ _)

theorem dismiss (F : Closed R) (s : State) (h : HNum) (rb : Robot) (cause : Byte) : R s (s.dismiss h rb cause) :=
  F.post _ _ _

theorem replaceBooked (F : Closed R) (w : Work) (c : ColIx) (h : HNum) : R w.st (w.replaceBooked c h).st := by
  unfold Work.replaceBooked
  repeat' split
  · exact F.refl _
  · exact F.after (F.after (F.post _ _ _) (F.change _ _ (.place fun _ => ⟨rfl, rfl, rfl, rfl, rfl, rfl, rfl⟩))) (F.after (F.joinInbound _ _ _) (F.leaveInbound _ _ _))
  · exact F.after (F.withdraw _ _ _) (F.leaveInbound _ _ _)

theorem replaceMoving (F : Closed R) (w : Work) (c : ColIx) (h : HNum) : R w.st (w.replaceMoving c h).st := by
  unfold Work.replaceMoving
  split
  · exact F.refl _
  · split
    · exact F.refl _
    · simp only
      split
      · rename_i d _
        have h1 : R w.st ((((w.leaveInbound c h).leave c fun cl => cl.handover == h).up
            (·.joinInbound d h)).change h fun r => { r with column := some d }).st :=
          F.after (F.after (F.change _ _ (.place fun _ => ⟨rfl, rfl, rfl, rfl, rfl, rfl, rfl⟩)) (F.joinInbound _ _ _)) (F.after (F.leave _ _ _) (F.leaveInbound _ _ _))
        split
        · exact F.after (F.join _ _ _) h1
        · exact h1
      · exact F.after (F.handBack _ _ _ _) (F.after (F.leaveInbound _ _ _) (F.leave _ _ _))

theorem newTarget (F : Closed R) (w : Work) (c : ColIx) (h : HNum) : R w.st (w.newTarget c h).st := by
  unfold Work.newTarget
  have place (t : Option ColIx) : HandStep fun r => { r with target := t } :=
    .place fun _ => ⟨rfl, rfl, rfl, rfl, rfl, rfl, rfl⟩
  repeat' split
  all_goals first
    | exact F.refl _
    | exact F.after (F.hand _ _ _ (place _)) (F.after (F.joinInbound _ _ _) (F.leaveInbound _ _ _))
    | exact F.after (F.hand _ _ _ (place _)) (F.leaveInbound _ _ _)

theorem postFence (F : Closed R) (s : State) (c : ColIx) : R s (s.postFence c) := F.postAll _ _ _

theorem dismissRegion (F : Closed R) (w : Work) (c : ColIx) : R w.st (w.dismissRegion c).st :=
  F.after (F.foldl id _ (fun s _ => F.dismiss s _ _ _) _ _) (F.leave _ _ _)

theorem enterFenced (F : Closed R) (w : Work) (c : ColIx) (cause : FenceCause) (who : Option (Robot × HNum)) :
    R w.st (w.enterFenced c cause who).st := by
  have h1 : R w.st (w.up (·.modCol c fun k =>
      { k with state := .fenced, cause := some cause, fencePending := false, settleTimer := none })).st :=
    F.upCol _ _ _ (.control fun _ => ⟨rfl, rfl, rfl⟩)
  unfold Work.enterFenced
  simp only
  refine F.after (F.handOccupancy _) ?_
  refine F.after (F.postFence _ _) ?_
  refine F.after (F.foldl Work.st _ (fun w h => F.newTarget w c h) _ _) ?_
  refine F.after (F.foldl Work.st _ (fun w h => F.replaceMoving w c h) _ _) ?_
  refine F.after (F.foldl Work.st _ (fun w h => F.replaceBooked w c h) _ _) ?_
  refine F.after (F.dismissRegion _ _) ?_
  split
  · exact F.after (F.captureColumn _ _ _ _) h1
  · exact h1

/-! ### Selection and the end of a grant -/

theorem grantNoticed (F : Closed R) (s : State) (p : Port) (c : ColIx) : R s (s.grantNoticed p c) := by
  unfold State.grantNoticed
  repeat' split
  · exact F.refl _
  · (refine F.col _ _ _ ?_; exact .control fun _ => ⟨rfl, rfl, rfl⟩)
  · exact F.refl _

theorem giveGrant (F : Closed R) (w : Work) (c : ColIx) (cl : Claim) (op : Operation) :
    R w.st (w.giveGrant c cl op).st := by
  unfold Work.giveGrant
  extract_lets g0 g w1 w2
  refine F.after (F.post _ _ _) ?_
  refine F.after (F.judgeCharging _ _) ?_
  refine F.after (F.upCol _ _ _ (.control fun _ => ⟨rfl, rfl, rfl⟩)) ?_
  exact F.leave _ _ _

theorem grantTo (F : Closed R) (w : Work) (c : ColIx) (cl : Claim) : R w.st (w.grantTo c cl).st := by
  unfold Work.grantTo
  split
  · refine F.after (F.giveGrant _ _ _ _) ?_
    refine F.hand _ _ _ ?_
    exact .place fun _ => ⟨rfl, rfl, rfl, rfl, rfl, rfl, rfl⟩
  · refine F.after (F.giveGrant _ _ _ _) ?_
    refine F.hand _ _ _ ?_
    exact .place fun _ => ⟨rfl, rfl, rfl, rfl, rfl, rfl, rfl⟩
  · split
    · refine F.after (F.giveGrant _ _ _ _) ?_
      refine F.hand _ _ _ ?_
      exact .place fun _ => ⟨rfl, rfl, rfl, rfl, rfl, rfl, rfl⟩
    · repeat' split
      · exact F.refl _
      · exact F.refl _
      · exact F.refl _
      · refine F.after (F.giveGrant _ _ _ _) ?_
        refine F.after (F.handOccupancy _) ?_
        refine F.after (F.joinInbound _ _ _) ?_
        refine F.hand _ _ _ ?_
        exact .place fun _ => ⟨rfl, rfl, rfl, rfl, rfl, rfl, rfl⟩

theorem select (F : Closed R) (w : Work) (c : ColIx) : R w.st (w.select c).st := by
  unfold Work.select
  simp only
  split
  · have h1 : R w.st (w.st.modCol c fun k => { k with waitList := k.waitList.map (w.st.mark c) }) := by
      refine F.col _ _ _ (.waits fun l hl => ?_)
      simpa [List.pairwise_map, State.mark_stamp] using hl
    split
    · exact F.after (F.grantTo _ _ _) h1
    · exact h1
  · exact F.refl _

theorem round (F : Closed R) (w : Work) : R w.st w.round.st := by
  unfold Work.round
  refine F.foldl Work.st (fun v c => if c ∈ w.sel then v.select c else v) (fun v c => ?_) _ { w with sel := [] }
  split
  · exact F.select _ _
  · exact F.refl _

theorem rounds (F : Closed R) : ∀ (n : Nat) (w : Work), R w.st (Work.rounds n w).st
  | 0, w => F.refl _
  | n + 1, w => by
    unfold Work.rounds; split
    · exact F.refl _
    · exact F.after (F.rounds n _) (F.round w)

/-- The selections at the end of a step. -/
theorem finish (F : Closed R) (w : Work) : R w.st w.finish := F.rounds 9 w

theorem settleOrOpen (F : Closed R) (w : Work) (c : ColIx) : R w.st (w.settleOrOpen c).st := by
  unfold Work.settleOrOpen
  split
  · exact F.col w.st c (fun k => { k with state := .settling, settleTimer := some w.st.settleTicks })
      (.control fun _ => ⟨rfl, rfl, rfl⟩)
  · exact F.col w.st c (fun k => { k with state := .settling, settleTimer := some w.st.settleTicks })
      (.control fun _ => ⟨rfl, rfl, rfl⟩)
  · exact F.col w.st c (fun k => { k with state := .opened }) (.control fun _ => ⟨rfl, rfl, rfl⟩)

theorem completeGrant (F : Closed R) (w : Work) (c : ColIx) : R w.st (w.completeGrant c).st := by
  unfold Work.completeGrant
  have h1 : R w.st (w.up (·.modCol c fun k => { k with grant := none })).st :=
    F.upCol _ _ _ (.control fun _ => ⟨rfl, rfl, rfl⟩)
  simp only
  split
  · exact F.after (F.enterFenced _ _ _ _) h1
  · exact F.after (F.settleOrOpen _ _) h1

/-! ### Notices -/

theorem noticeGone (F : Closed R) (s : State) (p : Port) (n : Notice) : R s (s.noticeGone p n) := by
  unfold State.noticeGone
  split
  · exact F.grantNoticed _ _ _
  · exact F.releaseWaiting _ _ _
  · exact F.releaseWaiting _ _ _
  · exact F.releaseWaiting _ _ _
  · exact F.refl _

theorem removeItems (F : Closed R) (s : State) (p : Port) (f : Notice → Bool) : R s (s.removeItems p f) :=
  F.after (F.foldl id _ (fun s n => F.noticeGone s p n) _ _)
    (F.drop s p ((s.pendingSet p).filter fun n => !f n) List.filter_sublist)

end Closed

end Sys2Proof.Machine
end

