-- ==== Sys2Proof/Laws/Commands.lean ====
section
/-! SUPPORT. What each command can do, for every relation closed under the part's updates. -/
namespace Sys2Proof.Machine

/-- A relation that holds across the link units' updates too. -/
structure ClosedAll (R : State → State → Prop) : Prop extends Closed R where
  link : ∀ s p f, R s (s.modLink p f)

variable {R : State → State → Prop}

namespace Closed

/-! ### Owners of requests -/

theorem refuse (F : Closed R) (s : State) (x : Result) (d : List Byte) : R s (s.refuse x d).work.st := F.refl s

theorem cancelOwner (F : Closed R) (r : Region) (body : List Byte) (s : State) : R s (cancelOwner r body s).work.st := by
  unfold Machine.cancelOwner
  repeat' split
  all_goals first
    | exact F.refl _
    | skip
  refine F.after (F.handOccupancy _) ?_
  refine F.after (F.free _ _) ?_
  exact F.after (F.leaveInbound _ _ _) (F.leave s.begin _ _)

theorem claimOwner (F : Closed R) (r : Region) (body : List Byte) (s : State) : R s (claimOwner r body s).work.st := by
  unfold Machine.claimOwner
  split
  · exact F.refl _
  · split
    · exact F.refl _
    · split
      · exact F.refl _
      · exact F.refl _
      · extract_lets rb col w f
        split
        · exact F.refl _
        · split
          · exact F.refl _
          · split
            · exact F.refl _
            · exact F.joinNew s.begin _ _ _ _

theorem dropFollowers (F : Closed R) (s : State) (r : Region) : R s (s.dropFollowers r) := by
  unfold State.dropFollowers
  refine F.foldl id _ (fun s h => ?_) _ s
  refine F.hand s h _ (.place fun x => ?_)
  repeat' split
  all_goals exact ⟨rfl, rfl, rfl, rfl, rfl, rfl, rfl⟩

theorem restartOwner (F : Closed R) (r : Region) (body : List Byte) (s : State) :
    R s (restartOwner r body s).work.st := by
  unfold Machine.restartOwner
  extract_lets w1 w2 w3
  have h1 : R s w1.st := F.foldl Work.st (fun w c => w.leave c (regionClaimOf r)) (fun w c => F.leave w c _) _ s.begin
  clear_value w1
  have h2 : R w1.st ((w1.st.dropFollowers r).removeItems (.region r) fun _ => true) :=
    F.after (F.removeItems _ _ _) (F.dropFollowers _ _)
  have h2 : R w1.st w2.st := h2
  clear_value w2
  have h3 (l : List HNum) : R w2.st (l.foldl (fun s h => s.releaseWaiting r h) w2.st) :=
    F.foldl id (fun s h => s.releaseWaiting r h) (fun s h => F.releaseWaiting s r h) l w2.st
  refine F.trans h1 (F.trans h2 ?_)
  simp only [w3, Work.up_st]
  exact h3 _

theorem reportOwner (F : Closed R)
    (apply : State → Region → Robot → HNum → Handover → Matched → Option (Work × List Byte))
    (step : ∀ s r rb h x m w d, apply s r rb h x m = some (w, d) → R s w.st) (r : Region) (body : List Byte)
    (s : State) : R s (reportOwner apply r body s).work.st := by
  unfold Machine.reportOwner
  simp only
  split
  · exact F.refl _
  · split
    · exact F.captureReport _ _ _ _
    · split
      · exact F.captureReport _ _ _ _
      · split
        · exact F.captureReport _ _ _ _
        · split
          · exact F.refl _
          · rename_i e; exact step _ _ _ _ _ _ _ _ e

theorem endGrant (F : Closed R) (w : Work) (m : Matched) : R w.st (w.endGrant m).st := by
  unfold Work.endGrant; split
  · exact F.completeGrant _ _
  · exact F.refl _

theorem settleFollower (F : Closed R) (w : Work) (c : ColIx) (h : HNum) : R w.st (w.settleFollower c h).st := by
  unfold Work.settleFollower
  split
  · exact F.refl _
  · rename_i r e
    split
    · exact F.refl _
    · have h1 : R w.st (w.st.setHand h (some { r with follower := none })) :=
        F.setSame e (fun r => { r with follower := none }) (.place fun _ => ⟨rfl, rfl, rfl, rfl, rfl, rfl, rfl⟩)
      extract_lets col w1
      split
      · exact F.after (F.dismiss _ _ _ _) h1
      · split
        · exact F.after (F.dismiss _ _ _ _) h1
        · exact F.after (F.join _ _ _) h1

theorem landDeposit (F : Closed R) (s : State) (c : ColIx) (h : HNum) (x : Handover) :
    R s (landDeposit s c h x).st := by
  unfold Machine.landDeposit
  refine F.after (F.judgeCharging _ _) ?_
  refine F.after (F.post _ _ _) ?_
  refine F.after (F.upHand _ _ _ (.place fun _ => ⟨rfl, rfl, rfl, rfl, rfl, rfl, rfl⟩)) ?_
  exact F.land _ _ _

theorem landHolding (F : Closed R) (s : State) (c : ColIx) (h : HNum) (x : Handover) :
    R s (landHolding s c h x).st := by
  unfold Machine.landHolding
  refine F.after (F.judgeCharging _ _) ?_
  refine F.after (F.settleFollower _ _ _) ?_
  refine F.after (F.post _ _ _) ?_
  refine F.after (F.upHand _ _ _ (.place fun _ => ⟨rfl, rfl, rfl, rfl, rfl, rfl, rfl⟩)) ?_
  exact F.land _ _ _

theorem applyLanded (F : Closed R) (s : State) (r : Region) (rb : Robot) (h : HNum) (x : Handover) (m : Matched)
    (w : Work) (d : List Byte) (e : applyLanded s r rb h x m = some (w, d)) : R s w.st := by
  unfold Machine.applyLanded at e
  split at e
  · obtain ⟨rfl, -⟩ := Prod.mk.inj (Option.some.inj e)
    exact F.after (F.endGrant _ _) (F.landDeposit _ _ _ _)
  · obtain ⟨rfl, -⟩ := Prod.mk.inj (Option.some.inj e)
    exact F.after (F.endGrant _ _) (F.landHolding _ _ _ _)
  · cases e
  · cases e

theorem liftLift (F : Closed R) (s : State) (c : ColIx) (h : HNum) (x : Handover) : R s (liftLift s c h x).st := by
  unfold Machine.liftLift
  exact F.after (F.close _ _ _ _ _) (F.after (F.handOccupancy _) (F.liftTop s.begin c))

theorem receiveShift (F : Closed R) (w : Work) (k : HNum) (x : Handover) (source : ColIx) (port : Region) :
    R w.st (w.receiveShift k x source port).1.st := by
  have fresh (v : Work) : R v.st (match v.st.digTarget x port source with
      | some d => (v.up fun s => s.joinInbound d k, some d)
      | none => (v, none)).1.st := by
    split
    · exact F.joinInbound _ _ _
    · exact F.refl _
  unfold Work.receiveShift
  split
  · split
    · exact F.refl _
    · exact F.after (fresh _) (F.leaveInbound _ _ _)
  · exact fresh _

theorem makeFollower (F : Closed R) (w : Work) (c : ColIx) (k : HNum) : R w.st (w.makeFollower c k).st := by
  unfold Work.makeFollower
  split
  · exact F.refl _
  · exact F.after (F.upHand _ _ _ (.place fun _ => ⟨rfl, rfl, rfl, rfl, rfl, rfl, rfl⟩)) (F.leave _ _ _)

theorem liftShift (F : Closed R) (s : State) (source : ColIx) (k : HNum) (rb : Robot) (x : Handover)
    (g : Option Grant) : R s (liftShift s source k rb x g).st := by
  have h1 : R s (((s.begin.liftTop source).makeFollower source k).receiveShift k x source rb.port).1.st :=
    F.after (F.receiveShift _ _ _ _ _) (F.after (F.makeFollower _ _ _) (F.liftTop s.begin source))
  unfold Machine.liftShift
  extract_lets w0
  have h1 : R s (w0.receiveShift k x source rb.port).1.st := h1
  rcases hw : w0.receiveShift k x source rb.port with ⟨w, found⟩
  rw [hw] at h1
  simp only
  refine F.after (F.handOccupancy _) ?_
  rcases found with _ | d
  · exact F.after (F.handBack _ _ _ _) h1
  · have h2 : R s (w.change k fun r =>
        { r with state := .moving, holder := some rb, doubt := none, column := some d, target := none }).st :=
      F.after (F.change _ _ (.place fun _ => ⟨rfl, rfl, rfl, rfl, rfl, rfl, rfl⟩)) h1
    rcases g with _ | g <;> simp only <;> split
    · exact F.after (F.replaceMoving _ _ _) (F.after (F.joinNew _ _ _ _ _) h2)
    · exact F.after (F.joinNew _ _ _ _ _) h2
    · exact F.after (F.replaceMoving _ _ _) (F.after (F.join _ _ _) h2)
    · exact F.after (F.join _ _ _) h2

theorem applyLifted (F : Closed R) (s : State) (r : Region) (rb : Robot) (h : HNum) (x : Handover) (m : Matched)
    (w : Work) (d : List Byte) (e : applyLifted s r rb h x m = some (w, d)) : R s w.st := by
  unfold Machine.applyLifted at e
  simp only at e
  split at e
  · obtain ⟨rfl, -⟩ := Prod.mk.inj (Option.some.inj e)
    exact F.after (F.endGrant _ _) (F.liftLift _ _ _ _)
  · obtain ⟨rfl, -⟩ := Prod.mk.inj (Option.some.inj e)
    exact F.after (F.endGrant _ _) (F.liftShift _ _ _ _ _ _)
  · cases e
  · cases e

theorem rebook (F : Closed R) (w : Work) (h : HNum) : R w.st (w.rebook h).st :=
  F.change _ _ (.place fun _ => ⟨rfl, rfl, rfl, rfl, rfl, rfl, rfl⟩)

theorem putBack (F : Closed R) (w : Work) (h : HNum) : R w.st (w.putBack h).st := by
  unfold Work.putBack
  exact F.after (F.change _ _ (.place fun _ => ⟨rfl, rfl, rfl, rfl, rfl, rfl, rfl⟩)) (F.dropTarget _ _)

theorem setMoving (F : Closed R) (w : Work) (h : HNum) : R w.st (w.setMoving h).st :=
  F.change _ _ (.place fun _ => ⟨rfl, rfl, rfl, rfl, rfl, rfl, rfl⟩)

theorem releaseHolding (F : Closed R) (w : Work) (c : ColIx) (h : HNum) (x : Handover) (cl : Claim) :
    R w.st (w.releaseHolding c h x cl).st := by
  unfold Work.releaseHolding
  split
  · exact F.after (F.join _ _ _) (F.setMoving _ _)
  · split
    · simp only
      refine F.after (F.join _ _ _) ?_
      refine F.after (F.change _ _ (.place fun _ => ⟨rfl, rfl, rfl, rfl, rfl, rfl, rfl⟩)) ?_
      refine F.after (F.joinInbound _ _ _) ?_
      exact F.after (F.leaveInbound _ _ _) (F.setMoving _ _)
    · exact F.after (F.handBack _ _ _ _) (F.leaveInbound _ _ _)

theorem lateReleaseHolding (F : Closed R) (w : Work) (c : ColIx) (h : HNum) (rb : Robot) :
    R w.st (w.lateReleaseHolding c h rb).st := by
  unfold Work.lateReleaseHolding
  exact F.after (F.replaceMoving _ _ _) (F.after (F.joinNew _ _ _ _ _) (F.setMoving _ _))

theorem applyRelease (F : Closed R) (s : State) (r : Region) (rb : Robot) (h : HNum) (x : Handover) (m : Matched)
    (w : Work) (d : List Byte) (e : applyRelease s r rb h x m = some (w, d)) : R s w.st := by
  unfold Machine.applyRelease at e
  simp only at e
  split at e <;> obtain ⟨rfl, -⟩ := Prod.mk.inj (Option.some.inj e)
  · exact F.after (F.endGrant _ _) (F.rebook s.begin h)
  · exact F.after (F.handOccupancy _) (F.after (F.replaceBooked _ _ _) (F.rebook s.begin h))
  · exact F.after (F.endGrant _ _) (F.putBack s.begin h)
  · exact F.after (F.endGrant _ _) (F.after (F.handOccupancy _) (F.putBack s.begin h))
  · exact F.after (F.endGrant _ _) (F.after (F.handOccupancy _) (F.releaseHolding s.begin _ _ _ _))
  · exact F.after (F.handOccupancy _) (F.lateReleaseHolding s.begin _ _ _)

theorem fenceOwner (F : Closed R) (body : List Byte) (s : State) : R s (fenceOwner body s).work.st := by
  unfold Machine.fenceOwner
  split
  · exact F.refl _
  · split
    · dsimp only; exact F.enterFenced s.begin _ _ _
    · dsimp only; exact F.enterFenced s.begin _ _ _
    · exact F.col s _ (fun k => { k with fencePending := true }) (.control fun _ => ⟨rfl, rfl, rfl⟩)
    · exact F.refl _
    · exact F.refl _
    · exact F.refl _

theorem restoreOwner (F : Closed R) (body : List Byte) (s : State) : R s (restoreOwner body s).work.st := by
  unfold Machine.restoreOwner
  split
  · exact F.refl _
  · extract_lets k seen w
    split
    · exact F.refl _
    · split
      · exact F.refl _
      · split
        · exact F.refl _
        · refine F.after (F.postFence _ _) ?_
          exact F.col s _ (fun k => { k with state := .opened, cause := none }) (.control fun _ => ⟨rfl, rfl, rfl⟩)

/-- The four queries change nothing. -/
theorem queryHandoverOwner_st (p : Port) (body : List Byte) (s : State) :
    (queryHandoverOwner p body s).work = s.begin := by
  unfold Machine.queryHandoverOwner
  simp only
  repeat' split
  all_goals rfl

theorem queryColumnOwner_st (p : Port) (body : List Byte) (s : State) :
    (queryColumnOwner p body s).work = s.begin := by
  unfold Machine.queryColumnOwner
  simp only
  repeat' split
  all_goals rfl

theorem queryErrorOwner_st (p : Port) (body : List Byte) (s : State) :
    (queryErrorOwner p body s).work = s.begin := by
  unfold Machine.queryErrorOwner
  simp only
  repeat' split
  all_goals rfl

/-! ### Timed events -/

theorem judgeReading (F : Closed R) (w : Work) (c : ColIx) (new : Reading) : R w.st (w.judgeReading c new).st := by
  unfold Work.judgeReading
  repeat' split
  all_goals first
    | exact F.refl _
    | exact F.enterFenced _ _ _ _

theorem reportReading (F : Closed R) (w : Work) (c : ColIx) (old new : Reading) :
    R w.st (w.reportReading c old new).st := by
  unfold Work.reportReading
  simp only
  repeat' split
  all_goals first
    | exact F.refl _
    | exact F.post _ _ _

theorem readingChange (F : Closed R) (s : State) (c : ColIx) : R s (s.readingChange c) := by
  unfold State.readingChange
  simp only
  split
  · have h1 : R s (s.begin.up fun s => s.modCol c fun k =>
        { k with reading := k.candidate, filterCount := none }).st :=
      F.upCol s.begin _ _ (.control fun _ => ⟨rfl, rfl, rfl⟩)
    refine F.after (F.finish _) ?_
    split
    · exact h1
    · exact F.after (F.reportReading _ _ _ _) h1
    · exact F.after (F.judgeReading _ _ _) h1
  · exact F.refl _

theorem settleExpiry (F : Closed R) (s : State) (c : ColIx) : R s (s.settleExpiry c) := by
  unfold State.settleExpiry
  simp only
  split
  · have h1 : R s (s.begin.up fun s => s.modCol c fun k => { k with settleTimer := none }).st :=
      F.upCol s.begin _ _ (.control fun _ => ⟨rfl, rfl, rfl⟩)
    have h2 : R s ((s.begin.up fun s => s.modCol c fun k => { k with settleTimer := none }).up fun s =>
        s.modCol c fun k => { k with state := .opened }).st :=
      F.after (F.upCol _ _ _ (.control fun _ => ⟨rfl, rfl, rfl⟩)) h1
    refine F.after (F.finish _) ?_
    repeat' split
    · exact h2
    · exact h2
    · exact F.after (F.post _ _ _) h2
    · exact h2
    · exact F.after (F.enterFenced _ _ _ _) h1
    · exact F.after (F.enterFenced _ _ _ _) h1
  · exact F.refl _

theorem grantTimeout (F : Closed R) (s : State) (c : ColIx) : R s (s.grantTimeout c) := by
  unfold State.grantTimeout
  split
  · exact F.refl _
  · simp only
    split
    · refine F.after (F.finish _) ?_
      refine F.after (F.enterFenced _ _ _ _) ?_
      refine F.after (F.change _ _ (.place fun _ => ⟨rfl, rfl, rfl, rfl, rfl, rfl, rfl⟩)) ?_
      exact F.upCol s.begin _ _ (.control fun _ => ⟨rfl, rfl, rfl⟩)
    · exact F.refl _

theorem bookingExpiry (F : Closed R) (s : State) (h : HNum) : R s (s.bookingExpiry h) := by
  unfold State.bookingExpiry
  split
  · exact F.refl _
  · split
    · simp only
      refine F.after (F.finish _) ?_
      refine F.after (F.withdraw _ _ _) ?_
      refine F.after (F.handOccupancy _) ?_
      exact F.after (F.leaveInbound _ _ _) (F.leave s.begin _ _)
    · exact F.refl _

theorem exposureWarning (F : Closed R) (s : State) (h : HNum) : R s (s.exposureWarning h) := by
  unfold State.exposureWarning
  repeat' split
  · exact F.refl _
  · exact F.after (F.finish _) (F.takeWarning s.begin _)
  · exact F.refl _

theorem exposureExpiry (F : Closed R) (s : State) (h : HNum) : R s (s.exposureExpiry h) := by
  unfold State.exposureExpiry
  split
  · exact F.refl _
  · simp only
    split
    · refine F.after (F.finish _) ?_
      refine F.after (F.postAll _ _ _) ?_
      refine F.after (F.capture _ _ _) ?_
      refine F.after (F.raiseUrgency _ _ (by omega)) ?_
      refine F.hand _ _ _ (.budget fun b => ?_)
      cases b with
      | none => trivial
      | some b => exact ⟨Nat.zero_le _, id, fun _ => rfl⟩
    · exact F.refl _

end Closed

namespace ClosedAll

theorem pushAnswer (F : ClosedAll R) (s : State) (p : Port) (f : Frame) (x : Result) (d : List Byte) :
    R s (s.pushAnswer p f x d) := F.link _ _ _

theorem dropRequest (F : ClosedAll R) (s : State) (p : Port) : R s (s.dropRequest p) := F.link _ _ _

/-- The taking of a request, by what its owner does (R140, R141). -/
theorem takeRequest (F : ClosedAll R) (s : State) (k : RequestKind) (p : Port) (owner : List Byte → State → Reply)
    (own : ∀ body s, R s (owner body s).work.st) : R s (s.takeRequest k p owner) := by
  unfold State.takeRequest
  split
  · exact F.refl _
  · split
    · unfold Reply.answer
      refine F.after (F.pushAnswer _ _ _ _ _) ?_
      refine F.after (F.finish _) ?_
      refine F.after ?_ (F.dropRequest s p)
      unfold State.judgeRequest
      repeat' split
      · exact F.captureLink _ _ _
      · exact F.refl _
      · exact F.refl _
      · exact own _ _
    · exact F.refl _

theorem regionOwner (F : ClosedAll R) (p : Port) (owner : Region → List Byte → State → Reply)
    (own : ∀ r body s, R s (owner r body s).work.st) (body : List Byte) (s : State) :
    R s (regionOwner p owner body s).work.st := by
  unfold Machine.regionOwner
  split
  · exact own _ _ _
  · exact F.refl _

theorem received (F : ClosedAll R) (s : State) (p : Port) (x : LinkUnit × Option ErrorKind) :
    R s (s.received p x) := by
  unfold State.received
  simp only
  split
  · exact F.after (F.captureLink _ _ _) (F.link _ _ _)
  · exact F.link _ _ _

/-! ### The edges of a link -/

/-- The items that remain after a choice are items of the set, in their order. -/
theorem nextNotice_sublist (s : State) (p : Port) : ∀ (n : Nat) (items : List Notice),
    (s.nextNotice p n items).2.Sublist items
  | 0, _ => .refl _
  | n + 1, items => by
    unfold State.nextNotice
    split
    · exact .refl _
    · simp only
      split
      · exact List.erase_sublist
      · exact (nextNotice_sublist s p n _).trans List.erase_sublist

theorem setPace (F : ClosedAll R) (s : State) (p : Port) : R s (s.setPace p) := F.link s p _

theorem byteEdge (F : ClosedAll R) (s : State) (p : Port) (b : Byte) (e : Bool) : R s (s.byteEdge p b e) :=
  F.after (F.setPace _ _) (F.received _ _ _)

theorem heldEdge (F : ClosedAll R) (s : State) (p : Port) : R s (s.heldEdge p) := by
  unfold State.heldEdge
  split
  · refine F.after (F.setPace _ _) (F.after (F.link _ _ _) ?_)
    split
    · exact F.drop _ _ _ (nextNotice_sublist _ _ _ _)
    · exact F.refl _
  · exact F.link _ _ _

theorem fillEdge (F : ClosedAll R) (s : State) (p : Port) : R s (s.fillEdge p) := by
  unfold State.fillEdge
  repeat' split
  · exact F.refl _
  · exact F.byteEdge _ _ _ _
  · exact F.heldEdge _ _

/-- An idle step. -/
theorem lclkEdge (F : ClosedAll R) (s : State) : R s s.lclkEdge := by
  unfold State.lclkEdge
  split
  · exact F.refl _
  · exact F.foldl id State.fillEdge (fun s p => F.fillEdge s p) _ s

theorem awaitPace (F : ClosedAll R) (p : Port) : ∀ (n : Nat) (s : State), R s (s.awaitPace p n)
  | 0, s => F.refl s
  | n + 1, s => by
    unfold State.awaitPace; split
    · exact F.refl s
    · exact F.after (F.awaitPace p n _) (F.heldEdge s p)

theorem awaitTurn (F : ClosedAll R) (p : Port) : ∀ (n : Nat) (s : State), R s (s.awaitTurn p n)
  | 0, s => F.refl s
  | n + 1, s => by
    unfold State.awaitTurn; split
    · exact F.refl s
    · exact F.after (F.awaitTurn p n _) (F.fillEdge s p)

theorem awaitFall (F : ClosedAll R) (p : Port) : ∀ (n : Nat) (s : State), R s (s.awaitFall p n)
  | 0, s => F.refl s
  | n + 1, s => by
    unfold State.awaitFall; split
    · exact F.refl s
    · exact F.after (F.awaitFall p n _) (F.link s p _)

theorem presentByte (F : ClosedAll R) {s t : State} {p : Port} {b : Byte} {e : Bool}
    (h : s.presentByte p b e = some t) : R s t := by
  simp only [State.presentByte, Option.ite_none_right_eq_some, Option.some.injEq] at h
  rw [← h.2]
  exact F.after (F.byteEdge _ _ _ _) (F.awaitPace p 2 s)

theorem takeBytes (F : ClosedAll R) (p : Port) : ∀ (bs : List BusByte) (s : State), R s (State.takeBytes p bs s)
  | [], s => F.refl s
  | (b, e) :: bs, s => by
    unfold State.takeBytes
    rcases h : s.presentByte p b e with _ | t
    · exact F.refl s
    · exact F.after (F.takeBytes p bs t) (F.presentByte h)

end ClosedAll

end Sys2Proof.Machine
end

