-- ==== Sys2Proof/Laws/Execution.lean ====
section
/-! SUPPORT. What execution can do, for every relation closed under the part's updates: the core commands together, and the commands that make, restate or configure, each by what it needs. -/

/-- The commands that use the updates of `Closed` and the link units alone. -/
def Sys2Proof.Instr.isCore : Sys2Proof.Instr → Bool
  | .powerOn | .resetInput | .resetRelease | .book _ | .amend _ | .clearErrors _ | .configureColumn _
  | .configurePort _ | .configureLimits _ | .configureLoad _ | .configureNotices _ | .setMode _ | .reinitialize _
  | .interchangeTick _ | .secondsAdvance | .trendSample => false
  | .frameBegin .. | .controllerFrame .. | .turnFalls _ | .sendAnswer _ | .sendNotice _ | .requestOfUnknownKind _
  | .cancel _ | .claim _ | .landed _ | .lifted _ | .release _ | .regionRestart _ | .queryHandover _ | .queryColumn _
  | .queryStatus _ | .queryError _ | .force _ | .fence _ | .restore _ | .gaugeReadingChange _ | .grantTimeout _
  | .settleExpiry _ | .bookingExpiry _ | .exposureWarning _ | .exposureExpiry _ => true

namespace Sys2Proof.Machine

variable {R : State → State → Prop}

namespace Closed

theorem forceOwner (F : Closed R) (body : List Byte) (s : State) : R s (forceOwner body s).work.st := by
  have go (l : LoadMonitor) (hl : s.load.SameLevels l) : R s (s.begin.setLoad l).st := F.setLoad s.begin l hl
  have keep (p q : Setpoint) (occ : Nat) (a : Byte) (h : p.forced occ a = some q) :
      q.onLevel = p.onLevel ∧ q.offLevel = p.offLevel := by
    unfold Setpoint.forced at h
    split at h
    · cases h; exact ⟨rfl, rfl⟩
    · split at h
      · cases h; exact ⟨rfl, rfl⟩
      · split at h
        · cases h; simp only [Setpoint.judge]; split <;> exact ⟨rfl, rfl⟩
        · cases h
  unfold Machine.forceOwner
  extract_lets action done
  split
  · split
    · rename_i p e
      have := keep _ _ _ _ e
      exact go _ ⟨rfl, this.1, this.2, rfl, rfl, rfl, rfl⟩
    · exact F.refl _
  · split
    · split
      · rename_i p e
        have := keep _ _ _ _ e
        exact go _ ⟨rfl, rfl, rfl, this.1, this.2, rfl, rfl⟩
      · exact F.refl _
    · exact F.refl _


/-- The configuration of a load monitor after a sample and its trend (R133, R134). -/
theorem trendSample (F : Closed R) (due : ∀ s, R s { s with trendDue := false }) (s : State) : R s s.trendSample := by
  unfold State.trendSample
  split
  · refine F.after (due _) ?_
    refine F.after (F.finish _) ?_
    exact F.setLoad s.begin _ ⟨rfl, rfl, rfl, rfl, rfl, rfl, rfl⟩
  · exact F.refl _

/-- BOOK, for a relation that holds when a FREE record is made BOOKED. -/
theorem bookOwner (F : Closed R)
    (made : ∀ s h (x : Handover), s.hand h = none → x.InRange → R s (s.setHand h (some x)))
    (r : Region) (body : List Byte) (s : State) : R s (bookOwner r body s).work.st := by
  unfold Machine.bookOwner
  extract_lets f
  split
  · exact F.refl _
  · rename_i q hq
    split
    · exact F.refl _
    · split
      · exact F.refl _
      · rename_i h hh
        have free : s.hand h = none := by
          have := List.find?_some hh
          simpa using this
        split
        · exact F.refl _
        · extract_lets cands room
          split
          · exact F.refl _
          · split
            · exact F.refl _
            · refine F.after (F.handOccupancy _) ?_
              refine F.after (F.joinInbound _ _ _) ?_
              refine made _ _ _ free ?_
              have ⟨hu, hb⟩ : (1 ≤ q.urgency ∧ q.urgency ≤ 7) ∧ q.budget ≤ 3600 := by
                unfold decodeBook at hq
                split at hq
                · split at hq
                  · simp only at hq
                    split at hq
                    · cases hq
                    · cases hq
                      simp only [clamp]
                      constructor
                      · split <;> [omega; (split <;> omega)]
                      · split <;> [omega; (split <;> omega)]
                  · cases hq
                · cases hq
              refine ⟨hu, fun b e => ?_⟩
              simp only [State.bookedRecord, budgetOf] at e
              split at e
              · cases e
              · cases e; exact hb

end Closed

/-! ### AMEND -/

/-- The ranges of an entry after clamping (Table 7-5). -/
def AmendEntry.InRange (e : AmendEntry) : Prop := (1 ≤ e.urgency ∧ e.urgency ≤ 7) ∧ e.budget ≤ 3600

theorem decodeEntry_inRange {bs : List Byte} {e : AmendEntry} (h : decodeEntry bs = some e) : e.InRange := by
  unfold decodeEntry at h
  split at h
  · split at h
    · simp only at h
      split at h
      · cases h
      · cases h
        simp only [AmendEntry.InRange, clamp]
        constructor
        · split <;> [omega; (split <;> omega)]
        · split <;> [omega; (split <;> omega)]
    · cases h
  · cases h

theorem decodeEntries_inRange : ∀ (n pos : Nat) (bs : List Byte) (es : List AmendEntry),
    decodeEntries n pos bs = .ok es → ∀ e ∈ es, e.InRange
  | 0, _, _, es, h => by cases h; simp
  | n + 1, pos, bs, es, h => by
    unfold decodeEntries at h
    split at h
    · cases h
    · rename_i e he
      split at h
      · cases h
      · rename_i es' hes
        cases h
        intro x hx
        rcases List.mem_cons.1 hx with rfl | hx
        · exact decodeEntry_inRange he
        · exact decodeEntries_inRange _ _ _ _ hes x hx

theorem budgetOf_le {n : Nat} (h : n ≤ 3600) {b : Budget} (e : budgetOf n = some b) : b.remaining ≤ 3600 := by
  unfold budgetOf at e; split at e
  · cases e
  · cases e; exact h

namespace Closed

section Amend

variable (F : Closed R) (made : ∀ s h (x : Handover), s.hand h = none → x.InRange → R s (s.setHand h (some x)))
  (restated : ∀ s h (f : Handover → Handover), (∀ r, (f r).InRange) → R s (s.modHand h f))

include F in
theorem amendFollower (w : Work) (c : ColIx) (h : HNum) : R w.st (w.amendFollower c h).st := by
  unfold Work.amendFollower
  split
  · exact F.refl _
  · rename_i r e
    split
    · exact F.refl _
    · have h1 : R w.st (w.st.setHand h (some { r with follower := none })) :=
        F.setSame e (fun r => { r with follower := none }) (.place fun _ => ⟨rfl, rfl, rfl, rfl, rfl, rfl, rfl⟩)
      extract_lets w1
      split
      · exact F.after (F.join _ _ _) h1
      · exact F.after (F.dismiss _ _ _ _) h1

include F restated in
theorem amendStack (w : Work) (c : ColIx) (es : List AmendEntry) (h : HNum) (ok : ∀ e ∈ es, e.InRange) :
    R w.st (w.amendStack c es h).st := by
  unfold Work.amendStack
  split
  · exact F.refl _
  · extract_lets w1
    have h1 : R w.st w1.st := F.dropTarget w h
    clear_value w1
    split
    · rename_i e he
      have ⟨hu, hb⟩ := ok e (List.mem_of_find?_eq_some he)
      refine F.after ?_ h1
      exact restated w1.st h (fun r => r.restated c w1.st.clock e) fun r => ⟨hu, fun b => budgetOf_le hb⟩
    · refine F.after (F.close _ _ _ _ _) ?_
      refine F.after ?_ h1
      exact F.col w1.st c (fun k => { k with stack := k.stack.filter (· != h) }) (.control fun _ => ⟨rfl, rfl, rfl⟩)

include F restated in
theorem amendInbound (w : Work) (c : ColIx) (es : List AmendEntry) (h : HNum) (ok : ∀ e ∈ es, e.InRange) :
    R w.st (w.amendInbound c es h).st := by
  unfold Work.amendInbound
  split
  · exact F.refl _
  · split
    · rename_i e he
      have ⟨hu, hb⟩ := ok e (List.mem_of_find?_eq_some he)
      extract_lets w1
      have h1 : R w.st w1.st := F.col w.st c (fun k => { k with inbound := k.inbound.filter (· != h) })
        (.inbound fun _ p => p.filter _)
      clear_value w1
      refine F.after (amendFollower F _ _ _) ?_
      refine F.after ?_ h1
      exact restated w1.st h (fun r => r.restated c w1.st.clock e) fun r => ⟨hu, fun b => budgetOf_le hb⟩
    · split
      · split
        · split
          · exact F.after (F.joinNew _ _ _ _ _) (F.setMoving _ _)
          · exact F.setMoving _ _
        · exact F.after (F.post _ _ _) (F.rebook _ _)
      · exact F.refl _

include F made in
theorem amendCreate (s : State) (c : ColIx) (e : AmendEntry) (ok : e.InRange) : R s (s.amendCreate c e) := by
  unfold State.amendCreate
  split
  · exact F.refl _
  · split
    · rename_i h hh
      have free : s.hand h = none := by
        have := List.find?_some hh
        simpa using this
      exact made _ _ _ free ⟨ok.1, fun b => budgetOf_le ok.2⟩
    · exact F.refl _

include F in
theorem postReady (s : State) (h : HNum) : R s (s.postReady h) := by
  unfold State.postReady; split
  · exact F.post _ _ _
  · exact F.refl _

include F made restated in
/-- An accepted AMEND, for a relation that holds when a record is made or restated within its ranges. -/
theorem amendApply (s : State) (c : ColIx) (es : List AmendEntry) (ok : ∀ e ∈ es, e.InRange) :
    R s (amendApply s c es).st := by
  unfold Machine.amendApply
  extract_lets wasFenced w1 w2 w3 stack w4 w5 w6 w7 w8
  have h1 : R s w1.st :=
    F.foldl Work.st (fun w h => w.amendStack c es h) (fun w h => amendStack F restated w c es h ok) _ s.begin
  have h2 : R w1.st w2.st :=
    F.foldl Work.st (fun w h => w.amendInbound c es h) (fun w h => amendInbound F restated w c es h ok) _ w1
  have h3 : R w2.st w3.st := by
    have go : ∀ (l : List AmendEntry), (∀ e ∈ l, e.InRange) → ∀ w : Work,
        R w.st (l.foldl (fun w e => w.up fun s => s.amendCreate c e) w).st := by
      intro l
      induction l with
      | nil => exact fun _ _ => F.refl _
      | cons e l ih =>
        intro hl w
        exact F.trans (amendCreate F made w.st c e (hl e (by simp))) (ih (fun x hx => hl x (by simp [hx])) (w.up fun s => s.amendCreate c e))
    exact go es ok w2
  clear_value w1 w2 w3 stack
  have h4 : R w3.st w4.st := F.col w3.st c (fun k => { k with stack := stack, cause := none })
    (.control fun _ => ⟨rfl, rfl, rfl⟩)
  have h5 : R w4.st w5.st := F.foldl Work.st (fun w h => w.judgeCharging h) (fun w h => F.judgeCharging w h) _ w4
  clear_value w4 w5
  have h6 : R w5.st w6.st := F.settleOrOpen w5 c
  clear_value w6
  have h7 : R w6.st w7.st := by
    show R w6.st (if wasFenced = true then w6.up fun x => x.postFence c else w6).st
    split
    · exact F.postFence _ _
    · exact F.refl _
  clear_value w7
  have h8 : R w7.st w8.st := by
    show R w7.st (stack.foldl State.postReady w7.st)
    exact F.foldl id State.postReady (fun s h => postReady F s h) stack w7.st
  clear_value w8
  refine F.after (F.handOccupancy w8) ?_
  exact F.trans h1 (F.trans h2 (F.trans h3 (F.trans h4 (F.trans h5 (F.trans h6 (F.trans h7 h8))))))

include F made restated in
theorem amendOwner (body : List Byte) (s : State) : R s (amendOwner body s).work.st := by
  unfold Machine.amendOwner
  extract_lets count
  split
  · exact F.refl _
  · split
    · exact F.refl _
    · split
      · exact F.refl _
      · rename_i es hes
        split
        · exact F.refl _
        · unfold amendJudged
          extract_lets k w stack restated' doubts
          split
          · exact F.refl _
          · split
            · exact F.refl _
            · split
              · exact F.refl _
              · split
                · exact F.refl _
                · exact amendApply F made restated s _ es (decodeEntries_inRange _ _ _ _ hes)

end Amend

/-! ### Configuration -/

/-- An accepted CONFIGURE COLUMN, for a relation that holds when a column takes a new configuration. -/
theorem configureColumn (F : Closed R) (s : State) (c : ColIx) (new : ColumnConfig)
    (config : R s (s.modCol c fun k => k.reconfigured new)) : R s (configureColumn s c new).st := by
  unfold Machine.configureColumn
  extract_lets old w1 w2 w3 w4 k
  have h1 : R s w1.st := config
  clear_value w1
  have h2 : R w1.st w2.st := by
    show R w1.st (if old.depth < new.depth then w1.startAll else w1).st
    split <;> exact F.refl _
  clear_value w2
  have h3 : R w2.st w3.st := by
    show R w2.st (if (Region.all.any fun p => RegionSet.has new.reach p && !RegionSet.has old.reach p) = true
      then w2.startAll else w2).st
    split <;> exact F.refl _
  clear_value w3
  have h4 : R w3.st w4.st := by
    show R w3.st (if (old.enabled != new.enabled) = true then w3.handOccupancy else w3).st
    split
    · exact F.handOccupancy _
    · exact F.refl _
  clear_value w4
  have h := F.trans h1 (F.trans h2 (F.trans h3 h4))
  split
  · exact F.after (F.enterFenced _ _ _ _) h
  · exact h

/-- CONFIGURE COLUMN, for a relation that holds when a column takes a new configuration within its range. -/
theorem configureColumnOwner (F : Closed R) (config : ∀ s c (new : ColumnConfig), 2 ≤ new.depth → new.depth ≤ 6 →
      R s (s.modCol c fun k => k.reconfigured new)) (body : List Byte) (s : State) :
    R s (configureColumnOwner body s).work.st := by
  unfold Machine.configureColumnOwner
  split
  · exact F.refl _
  · split
    · exact F.refl _
    · rename_i new hn
      have hd : 2 ≤ new.depth ∧ new.depth ≤ 6 := by
        unfold decodeColumnConfig at hn
        split at hn
        · split at hn
          · cases hn
            simp only [clamp]
            split <;> [omega; (split <;> omega)]
          · cases hn
        · cases hn
      split
      · dsimp only
        exact F.configureColumn _ _ _ (config s _ new hd.1 hd.2)
      · exact F.refl _

theorem removeKind (F : Closed R) (s : State) (k : NoticeKind) : R s (s.removeKind k) :=
  F.foldl id (fun s p => s.removeItems p fun n => n.kind == k) (fun s p => F.removeItems s p _) _ s

/-- CONFIGURE NOTICES, for a relation that holds when a kind other than RESET takes a level within its range. -/
theorem configureNoticesOwner (F : Closed R)
    (level : ∀ s (k : NoticeKind) n, k ≠ .reset → n ≤ 7 → R s (s.setLevel k n)) (body : List Byte) (s : State) :
    R s (configureNoticesOwner body s).work.st := by
  unfold Machine.configureNoticesOwner
  split
  · exact F.refl _
  · exact F.refl _
  · rename_i k hk _
    extract_lets lev set
    have h1 : R s set := level s k lev hk (by simp only [lev, clamp]; split <;> [omega; (split <;> omega)])
    clear_value set lev
    split
    · dsimp only [State.refuse_work, State.begin_st]
      exact F.after (F.removeKind _ _) h1
    · exact h1

/-- SET MODE, for a relation that holds when the mode and a hold level within its range are stored. -/
theorem setModeOwner (F : Closed R) (mode : ∀ s m n, 2 ≤ n → n ≤ 7 →
      R s (s.setLoad { s.load with mode := m, holdLevel := n })) (body : List Byte) (s : State) :
    R s (setModeOwner body s).work.st := by
  unfold Machine.setModeOwner
  split
  · exact F.refl _
  · rename_i m _
    extract_lets src l
    exact F.setLoadBy s.begin l (mode s m (clamp 2 7 (body.getD 2 0).toNat)
      (by simp only [clamp]; split <;> [omega; (split <;> omega)])
      (by simp only [clamp]; split <;> [omega; (split <;> omega)]))

end Closed

namespace ClosedAll

theorem sendNotice (F : ClosedAll R) (p : Port) (s t : State) (h : exec (.sendNotice p) s = .next t) : R s t := by
  simp only [exec, execSendNotice] at h
  have pass := F.awaitTurn p 2 s
  generalize s.awaitTurn p 2 = u at h pass
  split at h
  · have sub := nextNotice_sublist u p (u.pendingSet p).length (u.pendingSet p)
    split at h
    · cases h
      exact F.after (F.heldEdge u p) pass
    · rename_i n rest e
      rw [e] at sub; cases h
      refine F.trans pass (F.after (F.link _ _ _) ?_)
      exact F.after (F.noticeGone _ _ _) (F.drop _ _ _ sub)
  · cases h; exact F.refl _

/-- Every core command. -/
theorem exec_core (F : ClosedAll R) (c : Instr) (hc : c.isCore = true) (s t : State) (h : exec c s = .next t) :
    R s t := by
  cases c <;> simp only [Instr.isCore, Bool.false_eq_true] at hc
  case sendNotice p => exact F.sendNotice p s t h
  all_goals
    simp only [exec, execFrameBegin, execControllerFrame, execTurnFalls, execSendAnswer, execRequestOfUnknownKind,
      execCancel, execClaim, execLanded, execLifted, execRelease, execRegionRestart, execQueryHandover,
      execQueryColumn, execQueryStatus, execQueryError, execForce, execFence, execRestore, execGaugeReadingChange,
      execGrantTimeout, execSettleExpiry, execBookingExpiry, execExposureWarning, execExposureExpiry] at h
    injection h with h
    subst h
  case frameBegin p b e =>
    split
    · rcases h : s.presentByte p b e with _ | t
      · exact F.refl _
      · exact F.presentByte h
    · exact F.refl _
  case controllerFrame => exact F.takeBytes _ _ _
  case turnFalls =>
    split
    · split
      · exact F.after (F.link _ _ _) (F.awaitFall _ _ _)
      · exact F.refl _
    · exact F.refl _
  case sendAnswer =>
    split
    · exact F.after (F.link _ _ _) (F.awaitTurn _ _ _)
    · exact F.refl _
  case requestOfUnknownKind =>
    split
    · exact F.refl _
    · split
      · exact F.refl _
      · unfold Reply.answer
        refine F.after (F.pushAnswer _ _ _ _ _) ?_
        refine F.after (F.finish _) ?_
        exact F.after (F.captureLink _ _ _) (F.dropRequest _ _)
  case cancel => exact F.takeRequest _ _ _ _ (F.regionOwner _ _ F.cancelOwner)
  case claim => exact F.takeRequest _ _ _ _ (F.regionOwner _ _ F.claimOwner)
  case landed => exact F.takeRequest _ _ _ _ (F.regionOwner _ _ (F.reportOwner _ F.applyLanded))
  case lifted => exact F.takeRequest _ _ _ _ (F.regionOwner _ _ (F.reportOwner _ F.applyLifted))
  case release => exact F.takeRequest _ _ _ _ (F.regionOwner _ _ (F.reportOwner _ F.applyRelease))
  case regionRestart => exact F.takeRequest _ _ _ _ (F.regionOwner _ _ F.restartOwner)
  case queryHandover p =>
    exact F.takeRequest _ _ _ _ fun b s => by rw [Closed.queryHandoverOwner_st]; exact F.refl _
  case queryColumn p => exact F.takeRequest _ _ _ _ fun b s => by rw [Closed.queryColumnOwner_st]; exact F.refl _
  case queryStatus p => exact F.takeRequest _ _ _ _ fun b s => F.refl _
  case queryError p => exact F.takeRequest _ _ _ _ fun b s => by rw [Closed.queryErrorOwner_st]; exact F.refl _
  case force => exact F.takeRequest _ _ _ _ F.forceOwner
  case fence => exact F.takeRequest _ _ _ _ F.fenceOwner
  case restore => exact F.takeRequest _ _ _ _ F.restoreOwner
  case gaugeReadingChange => exact F.readingChange _ _
  case grantTimeout => exact F.grantTimeout _ _
  case settleExpiry => exact F.settleExpiry _ _
  case bookingExpiry => exact F.bookingExpiry _ _
  case exposureWarning => exact F.exposureWarning _ _
  case exposureExpiry => exact F.exposureExpiry _ _

end ClosedAll
end Sys2Proof.Machine
end

