-- ==== Sys2Proof/Laws/Requests.lean ====
section
/-! SUPPORT. How a request comes to its owner and its answer, and how the selections a step starts add up. -/
namespace Sys2Proof.Machine

/-! ### The taking of a request -/

@[simp] theorem State.col_dropRequest (s : State) (p : Port) (c : ColIx) : (s.dropRequest p).col c = s.col c := rfl
@[simp] theorem State.hand_dropRequest (s : State) (p : Port) (h : HNum) : (s.dropRequest p).hand h = s.hand h := rfl
@[simp] theorem State.ports_dropRequest (s : State) (p : Port) : (s.dropRequest p).ports = s.ports := rfl
@[simp] theorem State.clock_dropRequest (s : State) (p : Port) : (s.dropRequest p).clock = s.clock := rfl
@[simp] theorem State.load_dropRequest (s : State) (p : Port) : (s.dropRequest p).load = s.load := rfl
@[simp] theorem State.limits_dropRequest (s : State) (p : Port) : (s.dropRequest p).limits = s.limits := rfl
@[simp] theorem State.level_dropRequest (s : State) (p : Port) (k : NoticeKind) :
    (s.dropRequest p).level k = s.level k := rfl
@[simp] theorem State.group_dropRequest (s : State) (p : Port) (g : Fin 8) : (s.dropRequest p).group g = s.group g := rfl
@[simp] theorem State.pendingSet_dropRequest (s : State) (p q : Port) :
    (s.dropRequest p).pendingSet q = s.pendingSet q := rfl
@[simp] theorem State.occupancy_dropRequest (s : State) (p : Port) : (s.dropRequest p).occupancy = s.occupancy := rfl
@[simp] theorem State.view_dropRequest (s : State) (p q : Port) : (s.dropRequest p).view q = s.view q := by
  cases q <;> rfl
@[simp] theorem State.portOff_dropRequest (s : State) (p q : Port) : (s.dropRequest p).portOff q = s.portOff q := by
  cases q <;> rfl

/-- A request that is offered is taken: it is judged and answered. -/
theorem State.takeRequest_offered {s : State} {p : Port} {k : RequestKind} {body : List Byte} (h : s.offers p k body)
    (owner : List Byte → State → Reply) :
    s.takeRequest k p owner =
      ((s.dropRequest p).judgeRequest k p { kind := k.code, body := body } (owner body)).answer p
        { kind := k.code, body := body } := by
  obtain ⟨hx, ha, hi⟩ := h
  have : s.oldestRequest p = some { kind := k.code, body := body } := by
    unfold State.oldestRequest
    rw [if_neg, hi]
    simp only [hx, Bool.false_or, decide_eq_true_eq]; omega
  unfold State.takeRequest
  rw [this]
  simp

/-- A request that is not offered is not taken. -/
theorem State.takeRequest_waiting {s : State} {p : Port} {k : RequestKind}
    (h : s.advanceEventDue = true ∨ 4 ≤ (s.link p).answers.length ∨ ∀ f ∈ (s.link p).intake.head?, f.kind ≠ k.code)
    (owner : List Byte → State → Reply) : s.takeRequest k p owner = s := by
  unfold State.takeRequest State.oldestRequest
  rcases h with h | h | h
  · simp [h]
  · simp [h, Config.answerRoom]
  · split
    · rfl
    · rename_i f e
      split at e
      · cases e
      · rw [if_neg (h f e)]

theorem State.refuse_answer (s : State) (x : Result) (d : List Byte) (p : Port) (f : Frame) :
    (s.refuse x d).answer p f = s.pushAnswer p f x d := rfl

/-- A request that passes the stages of R141 comes to its owner. -/
theorem State.takeRequest_owner {s : State} {p : Port} {k : RequestKind} {body : List Byte} (h : s.offers p k body)
    (owner : List Byte → State → Reply) (len : k.lengthOk body = true) (may : k.permitted p body = true)
    (on : s.portOff p = false ∨ k.isQuery = true) :
    s.takeRequest k p owner = (owner body (s.dropRequest p)).answer p { kind := k.code, body := body } := by
  rw [State.takeRequest_offered h]
  unfold State.judgeRequest
  rw [if_neg (by simp [len]), if_neg (by simp [may]), if_neg]
  rcases on with e | e <;> simp [e]

theorem State.portOff_regionOn {s : State} {r : Region} (h : s.regionOn r) : s.portOff (.region r) = false := by
  have : s.ports[r].enabled = true := h
  simp only [State.portOff, this, Bool.not_true]

/-! ### The selections of a step -/

theorem Work.rounds_nil (n : Nat) {w : Work} (h : w.sel = []) : Work.rounds n w = w := by
  cases n <;> simp [Work.rounds, h]

theorem Work.finish_nil {w : Work} (h : w.sel = []) : w.finish = w.st := by
  unfold Work.finish; rw [Work.rounds_nil 9 h]

@[simp] theorem State.begin_finish (s : State) : s.begin.finish = s := Work.finish_nil rfl

/-- Two steps in progress with the same state and the same columns to select in. -/
structure Work.Same (w v : Work) : Prop where
  st : w.st = v.st
  sel : ∀ c, c ∈ w.sel ↔ c ∈ v.sel

theorem Work.Same.refl (w : Work) : w.Same w := ⟨rfl, fun _ => .rfl⟩

theorem Work.Same.nil {w v : Work} (h : w.Same v) : w.sel = [] ↔ v.sel = [] := by
  simp only [List.eq_nil_iff_forall_not_mem, h.sel]

theorem Work.Same.round {w v : Work} (h : w.Same v) : w.round = v.round := by
  unfold Work.round
  rw [h.st]
  congr 1
  funext u c
  simp only [h.sel c]

theorem Work.Same.finish {w v : Work} (h : w.Same v) : w.finish = v.finish := by
  unfold Work.finish Work.rounds
  by_cases e : w.sel = []
  · rw [if_pos e, if_pos (h.nil.1 e), h.st]
  · rw [if_neg e, if_neg (fun x => e (h.nil.2 x)), h.round]

/-- The state after claims have left a wait list. -/
@[simp] theorem Work.leave_st (w : Work) (c : ColIx) (p : Claim → Bool) :
    (w.leave c p).st = w.st.modCol c fun k => { k with waitList := k.waitList.filter fun cl => !p cl } := by
  unfold Work.leave
  simp only
  split <;> simp only [Work.startAll_st, Work.up_st] <;> exact State.modCol_congr rfl

/-- The selections started when claims leave a wait list: every column's, when it falls from 6 claims to 5 or fewer. -/
theorem Work.leave_sel (w : Work) (c : ColIx) (p : Claim → Bool) :
    (w.leave c p).sel =
      if 6 ≤ (w.st.col c).waitList.length ∧ ((w.st.col c).waitList.filter fun cl => !p cl).length < 6 then
        ColIx.all ++ w.sel else w.sel := by
  unfold Work.leave
  by_cases h : 6 ≤ (w.st.col c).waitList.length ∧ ((w.st.col c).waitList.filter fun cl => !p cl).length < 6
  · rw [if_pos h]
    simp only
    rw [if_pos (by rw [Bool.and_eq_true]; exact ⟨decide_eq_true h.1, decide_eq_true h.2⟩)]
    rfl
  · rw [if_neg h]
    simp only
    rw [if_neg fun e => h (by rw [Bool.and_eq_true] at e; exact ⟨of_decide_eq_true e.1, of_decide_eq_true e.2⟩)]
    rfl

theorem ColIx.mem_all (c : ColIx) : c ∈ ColIx.all := by revert c; decide

/-- Steps in progress with one state, both with every selection started. -/
theorem Work.Same.of_all {w v : Work} (h : w.st = v.st) (hw : ∀ c, c ∈ w.sel) (hv : ∀ c, c ∈ v.sel) : w.Same v :=
  ⟨h, fun c => ⟨fun _ => hv c, fun _ => hw c⟩⟩

/-- An operation that acts on the state alone, and adds the selections it starts to those that were started before. -/
def Work.Adds (f : Work → Work) : Prop := ∀ s a, f ⟨s, a⟩ = ⟨(f ⟨s, []⟩).st, (f ⟨s, []⟩).sel ++ a⟩

namespace Work.Adds

variable {f g : Work → Work}

theorem same (hf : Adds f) {w v : Work} (h : w.Same v) : (f w).Same (f v) := by
  obtain ⟨s, a⟩ := w
  obtain ⟨s', b⟩ := v
  have hs : s = s' := h.st
  subst hs
  rw [hf s a, hf s b]
  exact ⟨rfl, fun c => by simpa using or_congr_right (h.sel c)⟩

theorem st (hf : Adds f) (s : State) (a : List ColIx) : (f ⟨s, a⟩).st = (f ⟨s, []⟩).st := by rw [hf]

theorem id : Adds fun w => w := fun _ _ => rfl

theorem comp (hg : Adds g) (hf : Adds f) : Adds fun w => g (f w) := fun s a => by
  simp only
  rw [hf s a, hg]
  rw [show f ⟨s, []⟩ = ⟨(f ⟨s, []⟩).st, (f ⟨s, []⟩).sel⟩ from rfl, hg _ (f ⟨s, []⟩).sel]
  simp

/-- An operation that looks at the state before it acts. -/
theorem read {f : State → Work → Work} (h : ∀ t, Adds (f t)) : Adds fun w => f w.st w := fun s a => h s s a

theorem foldl {α : Type} {f : Work → α → Work} (h : ∀ x, Adds fun w => f w x) : ∀ l : List α, Adds fun w => l.foldl f w
  | [] => id
  | x :: l => comp (foldl h l) (h x)

theorem up (f : State → State) : Adds fun w => w.up f := fun _ _ => rfl
theorem start (c : ColIx) : Adds fun w => w.start c := fun _ _ => rfl
theorem startAll : Adds Work.startAll := fun _ _ => by simp [Work.startAll]

theorem ite {p : Prop} [Decidable p] (hf : Adds f) (hg : Adds g) : Adds fun w => if p then f w else g w := by
  split <;> assumption

theorem setLoad (l : LoadMonitor) : Adds fun w => w.setLoad l := fun s a => by
  unfold Work.setLoad
  simp only [Work.up, Work.startAll]
  repeat' split
  all_goals simp

theorem handOccupancy : Adds Work.handOccupancy := fun s a => setLoad _ s a

theorem join (c : ColIx) (cl : Claim) : Adds fun w => w.join c cl := fun _ _ => rfl

theorem leave (c : ColIx) (p : Claim → Bool) : Adds fun w => w.leave c p := fun s a => by
  simp only [Work.leave, Work.up, Work.startAll]
  split <;> simp

theorem joinNew (c : ColIx) (rb : Robot) (k : ClaimKind) (h : HNum) : Adds fun w => w.joinNew c rb k h := fun _ _ => rfl

theorem leaveInbound (c : ColIx) (h : HNum) : Adds fun w => w.leaveInbound c h := fun _ _ => by
  simp [Work.leaveInbound, Work.up, Work.startAll]

theorem liftTop (c : ColIx) : Adds fun w => w.liftTop c := fun _ _ => by
  simp [Work.liftTop, Work.up, Work.startAll]

theorem dropTarget (h : HNum) : Adds fun w => w.dropTarget h := by
  refine read (f := fun t w => match t.hand h with
    | some r => match r.target with
      | some t => (w.leaveInbound t h).up (·.modHand h fun r => { r with target := none })
      | none => w
    | none => w) fun t => ?_
  rcases t.hand h with _ | r <;> dsimp only
  · exact id
  · rcases r.target with _ | d <;> dsimp only
    · exact id
    · exact comp (up _) (leaveInbound d h)

theorem raiseUrgency (h : HNum) (u : Nat) : Adds fun w => w.raiseUrgency h u := fun s a => by
  simp only [Work.raiseUrgency, Work.up]
  repeat' split
  all_goals rfl

theorem takeWarning (h : HNum) : Adds fun w => w.takeWarning h := by
  refine read (f := fun t w => match t.hand h with
    | none => w
    | some r =>
      ((w.up (·.modHand h fun r => { r with
        budget := r.budget.map fun b => { b with warned := true, warnAt := none } })).raiseUrgency h 6).up
          (·.post (.region r.dest) (.warn h))) fun t => ?_
  rcases t.hand h with _ | r <;> dsimp only
  · exact id
  · exact comp (up _) (comp (raiseUrgency h 6) (up _))

theorem judgeCharging (h : HNum) : Adds fun w => w.judgeCharging h := by
  refine read (f := fun t w => match t.hand h with
    | none => w
    | some r =>
      match r.budget with
      | none => w
      | some b =>
        match b.since, !b.expired && t.chargeCond r with
        | none, true =>
          if !b.warned && decide (b.remaining ≤ t.limits.warn) then
            (w.up (·.setHand h (some { r with budget := some (b.started t.clock t.limits.warn) }))).takeWarning h
          else w.up (·.setHand h (some { r with budget := some (b.started t.clock t.limits.warn) }))
        | some _, false => w.up (·.setHand h (some { r with budget := some (b.stopped t.clock) }))
        | _, _ => w) fun t => ?_
  rcases t.hand h with _ | r <;> dsimp only
  · exact id
  · rcases r.budget with _ | b <;> dsimp only
    · exact id
    · rcases b.since with _ | t' <;> rcases !b.expired && t.chargeCond r with _ | _ <;> dsimp only
      · exact id
      · split
        · exact comp (takeWarning h) (up _)
        · exact up _
      · exact up _
      · exact id

theorem change (h : HNum) (f : Handover → Handover) : Adds fun w => w.change h f := comp (judgeCharging h) (up _)

theorem close (h : HNum) (x : Reason) (ps : RegionSet) (n : Notice) : Adds fun w => w.close h x ps n := by
  have go (ps : RegionSet) : Adds fun w =>
      if ps = 0 then (w.change h fun r => { r with state := .closing, closing := some ⟨x, ps⟩ }).up (·.setHand h none)
      else (w.change h fun r => { r with state := .closing, closing := some ⟨x, ps⟩ }).up fun s =>
        (s.modHand h Handover.closed).postAll (regionPorts ps) n := by
    split
    · exact comp (up _) (change h _)
    · exact comp (up _) (change h _)
  exact read (f := fun t w =>
      if (if t.level n.kind = 0 then 0 else ps) = 0 then
        (w.change h fun r => { r with state := .closing, closing := some ⟨x, if t.level n.kind = 0 then 0 else ps⟩ }).up
          (·.setHand h none)
      else (w.change h fun r => { r with state := .closing, closing := some ⟨x, if t.level n.kind = 0 then 0 else ps⟩ }).up
        fun s => (s.modHand h Handover.closed).postAll (regionPorts (if t.level n.kind = 0 then 0 else ps)) n)
    fun t => go _

theorem withdraw (h : HNum) (x : Byte) : Adds fun w => w.withdraw h x := by
  refine read (f := fun t w => match t.hand h with
    | none => w
    | some r => w.close h .withdrawn (originSet r.origin) (.withdrawn h r.bin x)) fun t => ?_
  rcases t.hand h with _ | r <;> dsimp only
  · exact id
  · exact close _ _ _ _

theorem handBack (h : HNum) (c : ColIx) (rb : Robot) : Adds fun w => w.handBack h c rb := by
  refine read (f := fun t w => match t.hand h with
    | none => w
    | some r =>
      (w.close h .handedBack (RegionSet.single rb.port ||| RegionSet.single r.dest) (.handedBack h r.bin rb)).up
        (·.captureColumn .handedBack c (some (rb, h)))) fun t => ?_
  rcases t.hand h with _ | r <;> dsimp only
  · exact id
  · exact comp (up _) (close _ _ _ _)

theorem replaceBooked (c : ColIx) (h : HNum) : Adds fun w => w.replaceBooked c h := by
  refine read (f := fun t w => match t.hand h with
    | none => w
    | some r => match t.best r.due r.cls (t.bookingSet r.origin r.dest) with
      | some d =>
        (((w.leaveInbound c h).up (·.joinInbound d h)).change h fun r => { r with column := some d }).up
          (·.post r.origin (.moved h))
      | none => (w.leaveInbound c h).withdraw h withdrawnFenced) fun t => ?_
  rcases t.hand h with _ | r <;> dsimp only
  · exact id
  · rcases t.best r.due r.cls (t.bookingSet r.origin r.dest) with _ | d <;> dsimp only
    · exact comp (withdraw _ _) (leaveInbound _ _)
    · exact comp (up _) (comp (change _ _) (comp (up _) (leaveInbound _ _)))

theorem replaceMoving (c : ColIx) (h : HNum) : Adds fun w => w.replaceMoving c h := by
  refine read (f := fun t w => match t.hand h with
    | none => w
    | some r => match r.holder with
      | none => w
      | some rb =>
        match t.best r.due r.cls (t.movingSet rb.port r.dest) with
        | some d =>
          match (t.col c).waitList.find? fun cl => cl.handover == h with
          | some cl => ((((w.leaveInbound c h).leave c fun cl => cl.handover == h).up (·.joinInbound d h)).change h
              fun r => { r with column := some d }).join d cl
          | none => (((w.leaveInbound c h).leave c fun cl => cl.handover == h).up (·.joinInbound d h)).change h
              fun r => { r with column := some d }
        | none => ((w.leave c fun cl => cl.handover == h).leaveInbound c h).handBack h c rb) fun t => ?_
  rcases t.hand h with _ | r <;> dsimp only
  · exact id
  · rcases r.holder with _ | rb <;> dsimp only
    · exact id
    · rcases t.best r.due r.cls (t.movingSet rb.port r.dest) with _ | d <;> dsimp only
      · exact comp (f := fun w => (w.leave c fun cl => cl.handover == h).leaveInbound c h) (handBack h c rb)
          (comp (g := fun w => w.leaveInbound c h) (leaveInbound c h) (leave c _))
      · generalize List.find? _ (t.col c).waitList = o
        rcases o with _ | cl <;> dsimp only
        · exact comp (change _ _) (comp (up _) (comp (leave _ _) (leaveInbound _ _)))
        · exact comp (join _ _) (comp (change _ _) (comp (up _) (comp (leave _ _) (leaveInbound _ _))))

theorem newTarget (c : ColIx) (h : HNum) : Adds fun w => w.newTarget c h := fun s a => by
  have h1 (f : State → State) : Adds fun w => (w.leaveInbound c h).up f := comp (up f) (leaveInbound c h)
  have h2 (f g : State → State) : Adds fun w => ((w.leaveInbound c h).up f).up g := comp (up g) (h1 f)
  simp only [Work.newTarget]
  split
  · rfl
  · split
    · rfl
    · split
      · rfl
      · split
        · exact h2 _ _ s a
        · exact h1 _ s a

theorem dismissRegion (c : ColIx) : Adds fun w => w.dismissRegion c := by
  refine read (f := fun t w => (w.leave c Claim.isRegion).up fun s =>
    ((t.col c).waitList.filter Claim.isRegion).foldl (fun s cl => s.dismiss cl.handover cl.robot dismissedFenced) s)
    fun t => ?_
  exact comp (up _) (leave _ _)

theorem enterFenced (c : ColIx) (x : FenceCause) (who : Option (Robot × HNum)) : Adds fun w => w.enterFenced c x who := by
  have h3 : Adds fun w => (w.st.inboundIn c .booked).foldl (fun w h => w.replaceBooked c h) w :=
    read (f := fun t w => (t.inboundIn c .booked).foldl (fun w h => w.replaceBooked c h) w)
      fun t => foldl (fun h => replaceBooked c h) _
  have h4 : Adds fun w => (w.st.inboundIn c .moving).foldl (fun w h => w.replaceMoving c h) w :=
    read (f := fun t w => (t.inboundIn c .moving).foldl (fun w h => w.replaceMoving c h) w)
      fun t => foldl (fun h => replaceMoving c h) _
  have h5 : Adds fun w => (w.st.shiftingInto c).foldl (fun w h => w.newTarget c h) w :=
    read (f := fun t w => (t.shiftingInto c).foldl (fun w h => w.newTarget c h) w)
      fun t => foldl (fun h => newTarget c h) _
  have h := comp handOccupancy (comp (up fun s => s.postFence c) (comp h5 (comp h4 (comp h3 (dismissRegion c)))))
  have h1 := up fun s => s.modCol c fun k =>
    { k with state := .fenced, cause := some x, fencePending := false, settleTimer := none }
  have go := comp h (comp (up fun s => match x.errorKind with
    | some e => s.captureColumn e c who
    | none => s) h1)
  intro s a
  have := go s a
  cases x <;> exact this

theorem settleOrOpen (c : ColIx) : Adds fun w => w.settleOrOpen c := fun s a => by
  simp only [Work.settleOrOpen]
  split <;> rfl

theorem completeGrant (c : ColIx) : Adds fun w => w.completeGrant c := by
  have h : Adds fun w => if (w.st.col c).fencePending = true then w.enterFenced c .supervisor none else w.settleOrOpen c := by
    refine read (f := fun t w =>
      if (t.col c).fencePending = true then w.enterFenced c .supervisor none else w.settleOrOpen c) fun t => ?_
    split
    · exact enterFenced c .supervisor none
    · exact settleOrOpen c
  exact comp h (up fun s => s.modCol c fun k => { k with grant := none })

theorem settleFollower (c : ColIx) (h : HNum) : Adds fun w => w.settleFollower c h := fun s a => by
  simp only [Work.settleFollower]
  repeat' split
  all_goals rfl

theorem makeFollower (c : ColIx) (k : HNum) : Adds fun w => w.makeFollower c k := by
  refine read (f := fun t w => match (t.col c).waitList.find? fun cl => cl.handover == k && cl.kind == .lift with
    | none => w
    | some cl => (w.leave c (· == cl)).up (·.modHand k fun r =>
        { r with follower := some { robot := cl.robot, stamp := cl.stamp } })) fun t => ?_
  generalize List.find? _ (t.col c).waitList = o
  rcases o with _ | cl <;> dsimp only
  · exact id
  · exact comp (up _) (leave _ _)

end Work.Adds

end Sys2Proof.Machine
end

