-- ==== Sys2Proof/Laws/Links.lean ====
section
/-! SUPPORT. The edges of a link: what each leaves, and where the edges that a command takes come to. -/
namespace Sys2Proof.Machine

/-- A link unit that sends nothing and has no controller frame in reception: the bus is the controller's, or is being
turned back to it. -/
structure LinkUnit.Free (u : LinkUnit) : Prop where
  rx : u.rx = .betweenFrames
  bus : u.bus ≠ .ix48
  sending : u.sending = none

theorem State.modLink_congr {s : State} {p : Port} {f g : LinkUnit → LinkUnit} (h : f (s.link p) = g (s.link p)) :
    s.modLink p f = s.modLink p g := by
  unfold State.modLink; rw [h]

theorem State.modLink_self {s : State} {p : Port} {f : LinkUnit → LinkUnit} (h : f (s.link p) = s.link p) :
    s.modLink p f = s := by
  unfold State.modLink; rw [h]
  simp [State.link]

theorem State.modPending_congr {s : State} {p : Port} {f g : List Notice → List Notice}
    (h : f (s.pendingSet p) = g (s.pendingSet p)) : s.modPending p f = s.modPending p g := by
  unfold State.modPending; rw [h]

@[simp] theorem State.hasWaiting_modLink (s : State) (p q : Port) (f : LinkUnit → LinkUnit)
    (h : ∀ u, (f u).answers = u.answers) : (s.modLink p f).hasWaiting q = s.hasWaiting q := by
  unfold State.hasWaiting
  simp only [State.link_modLink, State.pendingSet_modLink]
  by_cases e : q = p
  · subst e; simp [h]
  · simp [e]

/-! ### One edge -/

/-- The end of an edge between frames. -/
theorem State.setPace_eq (s : State) (p : Port) (h : (s.link p).rx = .betweenFrames) :
    s.setPace p = s.modLink p fun u => { u with prepared := s.hasWaiting p } := by
  unfold State.setPace
  exact State.modLink_congr (by simp [h])

/-- A fill byte that is taken between frames leaves the link unit as it is, but for the window and PACE. -/
theorem State.byteEdge_fill {s : State} {p : Port} (h : (s.link p).rx = .betweenFrames) :
    s.byteEdge p 0 false = s.modLink p fun u => { u with window := false, prepared := s.hasWaiting p } := by
  have take : (s.link p).takeByte 0 false = ({ s.link p with window := false }, none) := by
    simp [LinkUnit.takeByte, h]
  unfold State.byteEdge
  rw [take]
  simp only [State.received]
  rw [State.setPace_eq _ _ (by simp [h])]
  rw [State.modLink_modLink]
  refine State.modLink_congr ?_
  congr 1
  unfold State.hasWaiting
  simp

/-- An edge that the controller holds with PACE low, not prepared for a turn. -/
theorem State.heldEdge_unprepared {s : State} {p : Port} (hr : (s.link p).rx = .betweenFrames)
    (hb : (s.link p).bus = .controller) (hm : s.mayTurn p = false) :
    s.heldEdge p = s.modLink p fun u => { u with window := false, prepared := s.hasWaiting p } := by
  unfold State.heldEdge
  rw [if_pos hb, hm]
  simp only [Bool.false_eq_true, if_false]
  rw [State.setPace_eq _ _ (by simp [hr]), State.modLink_modLink, State.hasWaiting_modLink]
  intro u; rfl

/-- One of the IX48's own edges. -/
theorem State.heldEdge_own {s : State} {p : Port} (hb : (s.link p).bus ≠ .controller) :
    s.heldEdge p = s.modLink p LinkUnit.ownEdge := by
  unfold State.heldEdge; rw [if_neg hb]

/-! ### The edges a command takes -/

theorem State.mayTurn_iff {s : State} {p : Port} : s.mayTurn p = true ↔
    s.resetAsserted = false ∧ (s.link p).rx = .betweenFrames ∧ (s.link p).bus = .controller ∧
      (s.link p).prepared = true := by
  simp [State.mayTurn, and_assoc]

theorem State.turn_free {s : State} {p : Port} (h : (s.link p).Free) : (s.link p).turn = false := by
  simp [LinkUnit.turn, h.sending]

/-- An edge with the fill byte, the bus being the controller's and not prepared for a turn. -/
theorem State.fillEdge_controller {s : State} {p : Port} (h : (s.link p).Free) (hb : (s.link p).bus = .controller)
    (hm : s.mayTurn p = false) :
    s.fillEdge p = s.modLink p fun u => { u with window := false, prepared := s.hasWaiting p } := by
  unfold State.fillEdge
  have : (s.riseDue p || s.fallDue p || (s.link p).rx != .betweenFrames) = false := by
    simp [State.riseDue, State.fallDue, hm, hb, h.rx]
  rw [this]
  simp only [Bool.false_eq_true, if_false]
  split
  · exact State.byteEdge_fill h.rx
  · exact State.heldEdge_unprepared h.rx hb hm

/-- The second turning edge. -/
theorem State.fillEdge_turning {s : State} {p : Port} (h : (s.link p).Free) (hb : (s.link p).bus = .turning) :
    s.fillEdge p = s.modLink p fun u => { u with bus := .controller } := by
  unfold State.fillEdge
  have hp : s.pace p = false := by simp [State.pace, hb]
  have : (s.riseDue p || s.fallDue p || (s.link p).rx != .betweenFrames) = false := by
    simp [State.riseDue, State.fallDue, State.mayTurn, hb, h.rx]
  rw [this, hp]
  simp only [Bool.false_eq_true, if_false]
  rw [State.heldEdge_own (by simp [hb])]
  exact State.modLink_congr (by simp [LinkUnit.ownEdge, hb, h.sending])

/-- The edges before a turn: with something waiting, they come to one for which PACE is set low, and touch nothing but
the link unit. -/
theorem State.awaitTurn_waiting {s : State} {p : Port} (hr : s.resetAsserted = false) (h : (s.link p).Free)
    (hw : s.hasWaiting p = true) :
    ∃ w, s.awaitTurn p 2 = s.modLink p fun u => { u with bus := .controller, window := w, prepared := true } := by
  have last {s : State} (hr : s.resetAsserted = false) (h : (s.link p).Free) (hw : s.hasWaiting p = true)
      (hb : (s.link p).bus = .controller) (n : Nat) : ∃ w, s.awaitTurn p (n + 1) =
        s.modLink p fun u => { u with bus := .controller, window := w, prepared := true } := by
    unfold State.awaitTurn
    rw [State.turn_free h, Bool.or_false]
    split
    · rename_i hm
      obtain ⟨-, -, -, hp⟩ := State.mayTurn_iff.1 hm
      refine ⟨(s.link p).window, (State.modLink_self ?_).symm⟩
      rw [← hb, ← hp]
    · rename_i hm
      rw [State.fillEdge_controller h hb (by simpa using hm), hw]
      refine ⟨false, ?_⟩
      have stop : ∀ m, (s.modLink p fun u => { u with window := false, prepared := true }).awaitTurn p m =
          s.modLink p fun u => { u with window := false, prepared := true } := by
        intro m
        cases m with
        | zero => rfl
        | succ m =>
          unfold State.awaitTurn
          rw [if_pos]
          simp [State.mayTurn, hr, h.rx, hb]
      rw [stop]
      exact State.modLink_congr (by simp [hb])
  rcases hb : (s.link p).bus with _ | _ | _
  · exact last hr h hw hb 1
  · exact absurd hb h.bus
  · unfold State.awaitTurn
    have hm : s.mayTurn p = false := by simp [State.mayTurn, hb]
    rw [hm, State.turn_free h]
    simp only [Bool.false_or, Bool.false_eq_true, if_false]
    rw [State.fillEdge_turning h hb]
    obtain ⟨w, e⟩ := last (s := s.modLink p fun u => { u with bus := .controller }) hr
      ⟨by simp [h.rx], by simp, by simp [h.sending]⟩ (by simpa [State.hasWaiting] using hw) (by simp) 0
    exact ⟨w, by rw [e, State.modLink_modLink]⟩

/-- The edges of a frame of the IX48: the turning edge and one for each byte come to the edge of the fall. -/
theorem State.awaitFall_sending {s : State} {p : Port} {x : Sending} (hr : s.resetAsserted = false)
    (hb : (s.link p).bus ≠ .controller) (hx : (s.link p).sending = some x) :
    ∃ sent, x.bytes.length ≤ sent ∧ s.awaitFall p (x.bytes.length + 1) =
      s.modLink p fun u => { u with bus := .ix48, sending := some { x with sent := sent } } := by
  have drive : ∀ (n : Nat) (s : State) (x : Sending), s.resetAsserted = false → (s.link p).bus = .ix48 →
      (s.link p).sending = some x → x.bytes.length ≤ x.sent + n →
      ∃ sent, x.bytes.length ≤ sent ∧ s.awaitFall p n =
        s.modLink p fun u => { u with bus := .ix48, sending := some { x with sent := sent } } := by
    intro n
    induction n with
    | zero =>
      intro s x _ hb hx hn
      refine ⟨x.sent, by omega, ?_⟩
      show s = _
      exact (State.modLink_self (by rw [← hb, ← hx])).symm
    | succ n ih =>
      intro s x hr hb hx hn
      unfold State.awaitFall
      split
      · rename_i hf
        simp only [State.fallDue, hr, hb, hx] at hf
        refine ⟨x.sent, by simpa using hf, (State.modLink_self (by rw [← hb, ← hx])).symm⟩
      · have own : (s.modLink p LinkUnit.ownEdge).link p =
            { s.link p with sending := some { x with sent := min (x.sent + 1) (max x.sent x.bytes.length) } } := by
          simp [LinkUnit.ownEdge, hb, hx]
        obtain ⟨sent, hs, e⟩ := ih (s.modLink p LinkUnit.ownEdge) _ hr (by rw [own]; exact hb) (by rw [own])
          (by simp only; omega)
        refine ⟨sent, hs, ?_⟩
        rw [e, State.modLink_modLink]
        exact State.modLink_congr (by simp [LinkUnit.ownEdge, hb])
  rcases hbus : (s.link p).bus with _ | _ | _
  · exact absurd hbus hb
  · exact drive _ s x hr hbus hx (by omega)
  · unfold State.awaitFall
    have hf : s.fallDue p = false := by simp [State.fallDue, hbus]
    rw [hf]
    simp only [Bool.false_eq_true, if_false]
    obtain ⟨sent, hs, e⟩ := drive x.bytes.length (s.modLink p LinkUnit.ownEdge) x hr
      (by simp [LinkUnit.ownEdge, hbus, hx]) (by simp [LinkUnit.ownEdge, hbus, hx]) (by omega)
    refine ⟨sent, hs, ?_⟩
    rw [e, State.modLink_modLink]
    exact State.modLink_congr (by simp [LinkUnit.ownEdge, hbus])

end Sys2Proof.Machine
end

