-- ==== Sys2Proof/WellFormed.lean ====
section
/-! DEFINITION. Which commands describe something the outside can do. -/
namespace Sys2Proof

/-- A command is well formed unless it describes no event: a fill byte with END low begins no frame (R137), and
the bytes of one frame are at least one and have END at none but the last (R138). Every other command is well formed. -/
def Instr.wellFormed : Instr → Bool
  | .frameBegin _ b e => b != 0 || e
  | .controllerFrame _ bytes => !bytes.isEmpty && bytes.dropLast.all fun x => !x.2
  | .powerOn | .resetInput | .resetRelease | .turnFalls _ | .sendAnswer _ | .sendNotice _
  | .requestOfUnknownKind _ | .book _ | .cancel _ | .claim _ | .landed _ | .lifted _ | .release _
  | .regionRestart _ | .queryHandover _ | .queryColumn _ | .queryStatus _ | .queryError _ | .clearErrors _
  | .configureColumn _ | .configurePort _ | .configureLimits _ | .configureLoad _ | .configureNotices _
  | .setMode _ | .force _ | .fence _ | .restore _ | .amend _ | .reinitialize _ | .interchangeTick _
  | .gaugeReadingChange _ | .grantTimeout _ | .settleExpiry _ | .secondsAdvance | .bookingExpiry _
  | .exposureWarning _ | .exposureExpiry _ | .trendSample => true

end Sys2Proof
end

