-- ==== Sys2Proof/Tests/Slice0.lean ====
section
/-! SUPPORT. Tests of the model against the spec's tables and worked examples, and a witness for the hypotheses of each statement. -/
set_option Elab.async false
namespace Sys2Proof.Tests
open Sys2Proof Sys2Proof.Machine

/-! ### Small states -/

/-- The state after a command. -/
def after (c : Instr) (s : State) : State :=
  match exec c s with
  | .next t => t
  | .fault _ | .refused _ => s

/-- The device after reset with every column OPEN, no notice pending and no turn prepared. -/
def base : State :=
  { State.reset with
    columns := State.reset.columns.map fun k => { k with state := .opened }
    links := Vector.replicate 5 { LinkUnit.initial with prepared := false }
    pendingSets := Vector.replicate 5 [] }

def at_ (t : Seconds) (s : State) : State := { s with clock := t }

/-- `p` has sent a request. -/
def ask (p : Port) (k : RequestKind) (body : List Byte) (s : State) : State :=
  s.modLink p fun u => { u with intake := [{ kind := k.code, body := body }] }

def answers (p : Port) (s : State) : List (List Byte) := (s.link p).answers

/-- A record of an AMBIENT bin. -/
def bin (state : HandState) (n : BinNo) (o : Origin) (d : Region) (c : Option ColIx) : Handover where
  state := state
  bin := n
  origin := o
  dest := d
  urgency := 3
  due := .unknown
  heading := 0
  column := c
  target := none
  bookingTimer := if state = .booked then some 300 else none
  holder := none
  doubt := none
  budget := none
  closing := none
  follower := none

def put (h : HNum) (x : Handover) (s : State) : State := s.setHand h (some x)
def stack (c : ColIx) (hs : List HNum) (s : State) : State := s.modCol c fun k => { k with stack := hs }
def inbound (c : ColIx) (hs : List HNum) (s : State) : State := s.modCol c fun k => { k with inbound := hs }
def waits (c : ColIx) (l : List Claim) (s : State) : State := s.modCol c fun k => { k with waitList := l }
def is_ (x : ColState) (c : ColIx) (s : State) : State := s.modCol c fun k => { k with state := x }
def gauge (g : GaugeMode) (r : Reading) (c : ColIx) (s : State) : State :=
  s.modCol c fun k => { k with cfg := { k.cfg with gaugeMode := g }, reading := r }

def claim (r : Region) (robot : Byte) (kind : ClaimKind) (h : HNum) (stamp : Nat) : Claim :=
  { robot := ⟨r, robot⟩, kind := kind, handover := h, stamp := stamp, blocked := false }

/-- Column `c` is GRANTED to a claim for an operation, its notice sent. -/
def granted (c : ColIx) (cl : Claim) (op : Operation) (s : State) : State :=
  s.modCol c fun k =>
    { k with state := .granted, grant := some { claim := cl, op := op, noticeSent := true, timer := some 450 } }

def fencedFor (cause : FenceCause) (c : ColIx) (s : State) : State :=
  s.modCol c fun k => { k with state := .fenced, cause := some cause }

/-- A budget that is not being charged, and one charging. -/
def idleBudget (n : Nat) : Budget := ⟨n, none, false, false, none, none⟩
@[inherit_doc idleBudget] def charging (n : Nat) (t e w : Seconds) : Budget := ⟨n, some t, false, false, some e, some w⟩

abbrev P0 : Port := .region 0
abbrev P1 : Port := .region 1
abbrev P2 : Port := .region 2
abbrev P3 : Port := .region 3

/-! ### Well-formedness, words -/

/-- R137: a fill byte with END low begins no frame. -/
theorem test_ill_formed_fill_byte : (Instr.frameBegin P0 0 false).wellFormed = false := by decide

/-- R138: a frame ends with a byte, and with its last byte alone. -/
theorem test_ill_formed_frames :
    (Instr.controllerFrame P0 []).wellFormed = false ∧
      (Instr.controllerFrame P0 [(0x22, true), (0, true)]).wellFormed = false := by decide

theorem test_well_formed_first_byte :
    (Instr.frameBegin P0 0 true).wellFormed = true ∧ (Instr.frameBegin P0 0x11 false).wellFormed = true := by decide

/-- The table gives no row any bits. -/
theorem test_no_word_spells_a_command : decodeTableWord 8 0x11 = none := by decide

/-- Table 1-7: the field order examples. -/
theorem test_table_1_7 :
    put16 .lowFirst 0x0100 = [0x00, 0x01] ∧ put16 .highFirst 0x0100 = [0x01, 0x00] := by decide

/-! ### Signals and links -/

/-- R34: power-on posts RESET on every port, closes no queue of commands. -/
theorem test_power_on :
    ((after .powerOn (put 3 (bin .stored 9 P0 1 (some 0)) base)).hand 3 = none) ∧
      (after .powerOn base).pendingSet .ps = [.reset] := by decide +kernel

theorem test_reset_input :
    (after .resetInput base).resetAsserted = true ∧ (after .resetInput base).pace P2 = false := by decide +kernel

/-- R142, R156: after RESET the first edge of a port is prepared for the turn of its RESET notice. -/
theorem test_reset_release :
    let s := after .resetRelease (after .resetInput base)
    s.pace P2 = false ∧ s.mayTurn P2 = true := by decide +kernel

/-- R137: a first byte begins a frame. -/
theorem test_frame_begin : ((after (.frameBegin P3 0x11 false) base).link P3).rx = .receiving := by decide +kernel

/-- R142: with an answer waiting and PACE set low, the contest goes to TURN and the byte is not taken. -/
theorem test_frame_begin_contest :
    let s := base.modLink P3 fun u => { u with answers := [[0]], prepared := true }
    (after (.frameBegin P3 0x11 false) s).link P3 = s.link P3 := by decide +kernel

/-- R138, R139: a frame with its check joins the intake queue. -/
theorem test_controller_frame :
    ((after (.controllerFrame P3 (withEnd (frameBytes 0x22 [7]))) base).link P3).intake = [{ kind := 0x22, body := [7] }] := by
  decide +kernel

/-- R138: END with the second byte of a frame is TRUNCATED; a frame of length 65 that goes on without END is discarded
and holds its link. -/
theorem test_controller_frame_without_end :
    ((after (.controllerFrame P3 [(0x22, false), (1, true)]) base).group 3).captured.map (·.kind) = some .truncated ∧
      ((after (.controllerFrame P3 [(0x22, false), (65, false), (0, false)]) base).link P3).rx = .discarding := by
  decide +kernel

/-- 9.11, steps 2 and 4: TURN rises for A0 and three answers remain; after it falls the window is set. -/
theorem test_send_answer :
    let s := base.modLink P2 fun u => { u with answers := [[0], [1], [2], [3]] }
    (after (.sendAnswer P2) s).link P2 =
      { s.link P2 with answers := [[1], [2], [3]], bus := .turning
                       sending := some { bytes := frameBytes 0x80 [0], sent := 0 } } := by decide +kernel

/-- R142: TURN falls; this edge and the next are turning edges, and the edge after them is reserved to the controller. -/
theorem test_turn_falls :
    let s := base.modLink P2 fun u => { u with sending := some { bytes := [0x81], sent := 0 }, bus := .turning }
    let t := after (.turnFalls P2) s
    (t.link P2).turn = false ∧ (t.link P2).bus = .turning ∧ (t.fillEdge P2).pace P2 = true ∧
      (t.fillEdge P2).mayTurn P2 = false := by decide +kernel

/-- R143, R154, R156: before the RESET notice no answer is sent; it carries the clock at send. -/
theorem test_send_notice :
    let s := (at_ 0x1234 State.reset).modLink P1 fun u => { u with intake := [{ kind := 0x22, body := [1] }] }
    let t := after (.sendNotice P1) s
    (t.link P1).sending = some { bytes := frameBytes 0x81 [0, 0xFF, 0x34, 0x12], sent := 0 } ∧
      t.pendingSet P1 = [] := by decide +kernel

/-! ### Requests -/

/-- R141: an unknown kind is answered with its request number, UNKNOWN and the kind. -/
theorem test_unknown_kind :
    let s := base.modLink P1 fun u => { u with intake := [{ kind := 0x99, body := [5, 1] }] }
    let t := after (.requestOfUnknownKind P1) s
    answers P1 t = [[5, 0x1E, 0x99]] ∧ (t.group 1).captured.map (·.kind) = some .unknownKind := by decide +kernel

/-- The device of 3.9: P1 in frame (1, off) and HIGH-FIRST, records 0 to 4 in use, record 5 CLOSING owed to P0, and
column 6, with one bin, the only one in service. -/
def booking39 : State :=
  let s := { State.reset with
    clock := 40000
    limits := { State.reset.limits with booking := 120 }
    ports := State.reset.ports.set 1 { enabled := true, rotation := 1, mirror := false, order := .highFirst }
    pendingSets := Vector.replicate 5 [] }
  let s := ([0, 1, 2, 3] : List HNum).foldl (fun s h => put h (bin .stored (BitVec.ofNat 24 (h.val + 1)) P0 2 (some 7)) s) s
  let s := put 4 (bin .stored 5 P0 2 (some 6)) s
  let s := put 5 { bin .closing 6 P0 2 none with closing := some ⟨.delivered, 1⟩ } s
  s |> is_ .opened 6 |> stack 6 [4]

/-- The body of the BOOK of 3.9. -/
def body39 : List Byte := bookBody .highFirst 1 70000 3 6 0 5000 900

/-- 3.9: the answer gives handover 6, local column 4 and height 2. -/
theorem test_book_answer :
    answers P1 (after (.book P1) (ask P1 .book body39 booking39)) = [[1, 0, 6, 4, 2]] := by decide +kernel

/-- Table 3-6: record 6 after the BOOK. -/
theorem test_book_record :
    (after (.book P1) (ask P1 .book body39 booking39)).hand 6 = some {
      state := .booked, bin := 70000, origin := P1, dest := 3, urgency := 5, due := .pending 44094, heading := 3,
      column := some 6, target := none, bookingTimer := some 120, holder := none, doubt := none,
      budget := some (idleBudget 900), closing := none, follower := none } := by decide +kernel

/-- The device of 3.9 at 40120: the timer of record 6 has reached 0, with the claim of robot 9. -/
def expiring39 : State :=
  booking39 |> at_ 40120 |> put 6 { bin .booked 70000 P1 3 (some 6) with bookingTimer := some 0 } |> inbound 6 [6] |>
    waits 6 [claim 1 9 .deposit 6 0]

/-- 3.9: at the expiry the claim goes and WITHDRAWN, cause LIMIT, is posted to P1. -/
theorem test_booking_expiry :
    let t := after (.bookingExpiry 6) expiring39
    t.col 6 = { (expiring39.col 6) with waitList := [], inbound := [] } ∧
      t.pendingSet P1 = [.withdrawn 6 70000 0] := by decide +kernel

/-- 3.9: the REGION RESTART of P1 reports 0 claims removed and 1 record freed; record 5 waits on P0 alone. -/
theorem test_region_restart :
    let t := after (.regionRestart P1) (ask P1 .regionRestart [9] (after (.bookingExpiry 6) expiring39))
    answers P1 t = [[9, 0, 0, 1]] ∧ t.hand 6 = none ∧ t.hand 5 = booking39.hand 5 := by decide +kernel

/-- 3.9: a CLAIM for a record that is CLOSING is STALE. -/
theorem test_claim_stale :
    answers P1 (after (.claim P1) (ask P1 .claim [2, 9, 0, 6] (after (.bookingExpiry 6) expiring39))) =
      [[2, 0x17]] := by decide +kernel

/-- R71: a LIFT claim at a GRANTED column waits; the answer gives record, local column, position
from the top and place. -/
theorem test_claim_queued :
    let s := base |> put 4 (bin .stored 5 P0 2 (some 0)) |> put 5 (bin .lifting 6 P0 2 (some 0)) |> stack 0 [4, 5] |>
      granted 0 (claim 2 1 .lift 5 0) .lift
    answers P2 (after (.claim P2) (ask P2 .claim [2, 9, 1, 4] s)) = [[2, 1, 4, 0, 1, 1]] := by decide +kernel

/-- R47: the answer to CANCEL gives the number and the bin, and the record is FREE. -/
theorem test_cancel :
    let s := base |> put 3 (bin .booked 0x010203 P0 2 (some 1)) |> inbound 1 [3]
    let t := after (.cancel P0) (ask P0 .cancel [8, 3] s)
    answers P0 t = [[8, 0, 3, 3, 2, 1]] ∧ t.hand 3 = none := by decide +kernel

/-- Table 6-3: h10 landing in AMBIENT column 2 at 2000 with budget 600. -/
def landing63 : State :=
  base |> at_ 2000 |> put 10 { bin .landing 77 P0 2 (some 2) with budget := some (idleBudget 600) } |> inbound 2 [10] |>
    granted 2 (claim 0 6 .deposit 10 0) .deposit

/-- Table 6-3: since 2000, warning 2540 and expiry 2600; the column settles. -/
theorem test_landed :
    let t := after (.landed P0) (ask P0 .landed [1, 6, 10] landing63)
    t.hand 10 = some { bin .stored 77 P0 2 (some 2) with budget := some (charging 600 2000 2600 2540) } ∧
      (t.col 2).state = .settling := by decide +kernel

/-- Table 6-3, at 5000: a LIFT of h10 from a CHILLED column gives remaining 250; bin 77, heading 0. -/
theorem test_lifted :
    let s := base |> at_ 5000 |> put 10 { bin .lifting 77 P0 2 (some 5) with budget := some (idleBudget 250) } |>
      stack 5 [10] |> granted 5 (claim 2 6 .lift 10 0) .lift
    answers P2 (after (.lifted P2) (ask P2 .lifted [1, 6, 10] s)) = [[1, 0, 10, 77, 0, 0, 0, 250, 0]] := by
  decide +kernel

/-- Table 6-3, at 2300: the shifted h10 goes on charging, MOVING to column 5 with its robot as holder. -/
theorem test_lifted_shift :
    let s := base |> at_ 2300 |> put 9 (bin .stored 76 P0 2 (some 2)) |>
      put 10 { bin .shifting 77 P0 2 (some 2) with target := some 5, budget := some (charging 600 2000 2600 2540) } |>
      stack 2 [9, 10] |> inbound 5 [10] |> is_ .settling 5 |> granted 2 (claim 2 6 .lift 9 0) (.shift 10)
    let t := after (.lifted P2) (ask P2 .lifted [1, 6, 10] s)
    t.hand 10 = some { bin .moving 77 P0 2 (some 5) with
      holder := some ⟨2, 6⟩, budget := some (charging 600 2000 2600 2540) } ∧
    (t.col 5).waitList = [claim 2 6 .holding 10 0] := by decide +kernel

/-- R86: the RELEASE of a deposit makes the record BOOKED with a fresh booking timer. -/
theorem test_release :
    let t := after (.release P0) (ask P0 .release [1, 6, 10] landing63)
    answers P0 t = [[1, 0, 10, 1]] ∧
      t.hand 10 = some { bin .booked 77 P0 2 (some 2) with budget := some (idleBudget 600) } := by decide +kernel

/-- R53: the answer body to QUERY HANDOVER is 44 bytes. -/
theorem test_query_handover :
    (answers .ps (after (.queryHandover .ps) (ask .ps .queryHandover [1, 0, 10, 0, 0] landing63))).map List.length =
      [44] := by decide +kernel

/-- R53, R148: the answer for a FREE record carries the state byte alone. -/
theorem test_query_free_handover :
    answers .ps (after (.queryHandover .ps) (ask .ps .queryHandover [1, 0, 5, 0, 0] base)) = [[1, 0, 0]] := by
  decide +kernel

/-- R35: column 4 after power-on, as PS sees it: UNKNOWN, no cause, the configuration of Table 1-2. -/
theorem test_query_column :
    let t := after (.queryColumn .ps) (ask .ps .queryColumn [1, 4] State.reset)
    (answers .ps t).map (List.take 13) = [[1, 0, 4, 0, 0xFF, 0, 1, 1, 6, 15, 2, 1, 1]] := by decide +kernel

/-- R146: the clock, mode RUN and hold level 4, gates 1, and HIGH on 36, off 32, off, AUTOMATIC. -/
theorem test_query_status :
    let t := after (.queryStatus P0) (ask P0 .queryStatus [1] (at_ 0x0203 State.reset))
    (answers P0 t).map (List.take 13) = [[1, 0, 3, 2, 0, 4, 1, 1, 1, 36, 32, 0, 0]] := by decide +kernel

/-- R159, R147, R160: a group's capture is told and cleared. -/
theorem test_query_error :
    let s := base.captureLink P1 .overlong
    (answers .ps (after (.queryError .ps) (ask .ps .queryError [1, 1] s))) =
      [[1, 0, 1, 0, 2, 1, 0xFF, 0xFF, 0xFF, 0, 0, 0xFF, 0xFF]] := by decide +kernel

theorem test_clear_errors :
    let t := after (.clearErrors P1) (ask P1 .clearErrors [1, 1] (base.captureLink P1 .overlong))
    answers P1 t = [[1, 0, 1, 1, 0]] ∧ t.alert = false := by decide +kernel

/-- R33: disabling an OPEN empty column; its depth of 9 is taken as 6. -/
theorem test_configure_column :
    let t := after (.configureColumn .ps) (ask .ps .configureColumn [1, 2, 0, 0, 9, 15, 2, 1, 1] base)
    (t.col 2).state = .disabled ∧ answers .ps t = [[1, 0, 0, 0, 6, 15, 2, 1, 1]] := by decide +kernel

/-- R8: a rotation above 3 is taken as 3. -/
theorem test_configure_port :
    let t := after (.configurePort .ps) (ask .ps .configurePort [1, 2, 1, 7, 1, 1] base)
    t.ports[2] = { enabled := true, rotation := 3, mirror := true, order := .highFirst } := by decide +kernel

/-- R145: values outside their ranges are clamped. -/
theorem test_configure_limits :
    (after (.configureLimits .ps) (ask .ps .configureLimits [1, 0, 0, 200, 9, 0xFF, 0xFF, 0, 5] base)).limits =
      { booking := 30, grant := 120, digReserve := 8, warn := 600, filterSteps := 1, settleExp := 4 } := by
  decide +kernel

/-- R129: an off-level at or above the on-level is taken as the on-level less 1. -/
theorem test_configure_load :
    let t := after (.configureLoad .ps) (ask .ps .configureLoad [1, 60, 60, 10, 10, 1, 9] base)
    (t.load.high.onLevel, t.load.high.offLevel, t.load.full.offLevel, t.load.highLevel, t.load.trendStep) =
      (48, 47, 9, 2, 8) := by decide +kernel

/-- R151: the level of RESET stays 7; another kind's level above 7 is taken as 7. -/
theorem test_configure_notices :
    answers .ps (after (.configureNotices .ps) (ask .ps .configureNotices [1, 0, 3] base)) = [[1, 0, 0, 7, 0]] ∧
      (after (.configureNotices .ps) (ask .ps .configureNotices [1, 3, 9] base)).level .moved = 7 := by decide +kernel

/-- R152: a level of 0 removes the items of the kind; a grant is the same whether GRANT is set to 0 before it or after. -/
theorem test_configure_notices_off :
    let s := base.post P1 (.fence 2)
    let t := after (.configureNotices .ps) (ask .ps .configureNotices [1, 10, 0] s)
    let off (s : State) : State := after (.configureNotices .ps) (ask .ps .configureNotices [1, 1, 0] s)
    let asked (s : State) : State := after (.claim P0) (ask P0 .claim [1, 7, 0, 3] s)
    let booked := base |> put 3 (bin .booked 9 P0 2 (some 1)) |> inbound 1 [3]
    (answers .ps t = [[1, 0, 10, 0, 1]] ∧ t.pendingSet P1 = []) ∧
      ∀ s ∈ [off (asked booked), asked (off booked)], s.pendingSet P0 = [] ∧ (s.col 1).grant = some
        { claim := claim 0 7 .deposit 3 0, op := .deposit, noticeSent := true, timer := some 450 } := by decide +kernel

/-- The Load Monitor of 8.6 after step 1. -/
def peak86 : State :=
  base.setLoad { base.load with mode := .hold, high := { base.load.high with on := true } }

/-- 8.6, step 2: SET MODE RUN lowers the gate from 4 to 3; the answer gives mode, hold level, mode gate, lift gate and
effective gate. -/
theorem test_set_mode :
    peak86.load.depositGate = 4 ∧
      answers .ps (after (.setMode .ps) (ask .ps .setMode [1, 0, 4] peak86)) = [[1, 0, 0, 4, 1, 1, 3]] := by decide +kernel

/-- 8.6, step 6: FORCE FULL ON raises the gate to 8. -/
theorem test_force :
    answers .ps (after (.force .ps) (ask .ps .force [1, 1, 0] peak86)) = [[1, 0, 1, 1, 8]] := by decide +kernel

/-- The device of 2.8, Table 2-5, and the FENCE of column 5. -/
def fence28 : State :=
  let due (t : Seconds) (x : Handover) : Handover := { x with due := .pending t }
  let chilled (x : Handover) : Handover := { x with budget := some (idleBudget 3000) }
  let s := base |> at_ 2000 |> is_ .disabled 0 |> is_ .disabled 3 |> is_ .disabled 7
  let s := s.modCol 6 fun k => { k with cfg := { k.cfg with depth := 3 }, stack := [21, 22, 23] }
  s |> put 20 (due 2100 (bin .stored 20 P0 2 (some 1))) |> stack 1 [20] |>
    put 4 (bin .stored 4 P0 3 (some 2)) |>
    put 11 { due 2600 (bin .shifting 11 P0 2 (some 2)) with target := some 5 } |> stack 2 [4, 11] |>
    granted 2 (claim 3 7 .lift 4 30) (.shift 11) |>
    put 15 (chilled { bin .stored 15 P0 1 (some 4) with due := .passed }) |>
    put 16 (chilled (due 2250 (bin .stored 16 P0 1 (some 4)))) |> stack 4 [15, 16] |>
    put 3 (bin .stored 3 P0 2 (some 5)) |> put 7 (chilled (due 2300 (bin .booked 7 P0 2 (some 5)))) |>
    put 9 { bin .moving 9 P0 3 (some 5) with holder := some ⟨1, 12⟩ } |> is_ .settling 5 |> stack 5 [3] |>
    inbound 5 [7, 9, 11] |>
    waits 5 [claim 2 4 .lift 3 40, claim 0 20 .deposit 7 41, claim 1 12 .holding 9 42] |> ask .ps .fence [1, 5]

/-- Tables 2-6 to 2-8: the scores. -/
theorem test_scores :
    ([1, 2, 4] : List ColIx).map (fence28.score (.pending 2300) .chilled) = [84, 72, 40] := by decide +kernel

/-- Table 2-9: h9 and h11 join column 1, h7 column 4, and column 5 keeps h3 alone. -/
theorem test_fence :
    let t := after (.fence .ps) fence28
    (t.col 1).inbound = [9, 11] ∧ (t.col 4).inbound = [7] ∧ (t.col 5).inbound = [] ∧ (t.col 5).stack = [3] ∧
      (t.hand 11).bind (·.target) = some 1 := by decide +kernel

/-- 2.8 and 10.7: what P0 is told. -/
theorem test_fence_notices :
    (after (.fence .ps) fence28).pendingSet P0 = [.dismissed 7 20 0, .moved 7, .fence 5] := by decide +kernel

/-- The device of 7.9, Table 7-7. -/
def amend79 : State :=
  let s := ([0, 1, 3, 4, 5, 7, 8, 10, 11, 12] : List HNum).foldl
    (fun s h => put h (bin .moving (BitVec.ofNat 24 (h.val + 1)) P0 2 (some 0)) s) base
  s |> at_ 12000 |> put 2 (bin .stored 5001 P0 2 (some 3)) |> put 6 (bin .stored 5002 P0 3 (some 3)) |>
    put 9 { bin .doubt 5003 P1 0 (some 3) with
      doubt := some ⟨.deposit, ⟨1, 14⟩⟩, budget := some (idleBudget 400) } |>
    stack 3 [2, 6] |> inbound 3 [9] |> gauge .check 3 3 |> fencedFor .grantTimeout 3

/-- 7.9: RESTORE is refused DOUBT, naming h9. -/
theorem test_restore_doubt :
    answers .ps (after (.restore .ps) (ask .ps .restore [1, 3] amend79)) = [[1, 0x20, 9]] := by decide +kernel

/-- The AMEND of 7.9. -/
def amended79 : State :=
  after (.amend .ps) (ask .ps .amend ([1, 3, 3] ++ entryBody 5001 2 3 0 4095 0 ++ entryBody 5003 0 4 2 600 400 ++
    entryBody 5004 1 2 1 4095 0) amend79)

/-- Table 7-8: the column after the AMEND, SETTLING with a timer of 4 ticks. -/
theorem test_amend_column :
    (amended79.col 3).stack = [2, 9, 13] ∧ (amended79.col 3).state = .settling ∧
      (amended79.col 3).settleTimer = some 4 ∧ (amended79.col 3).inbound = [] := by
  delta amended79 after exec execAmend amendOwner amendJudged State.amendDuplicate
  generalize Config.amendRepeatsFirst = b
  revert b
  decide +kernel

/-- 7.9: h9 charges since 12000 with its deadlines, and h6 is owed to P3. -/
theorem test_amend_records :
    (amended79.hand 9).map (fun x => (x.due, x.budget, x.doubt)) =
        some (.pending 12600, some (charging 400 12000 12400 12340), none) ∧
      (amended79.hand 6).bind (·.closing) = some ⟨.removed, 8⟩ := by
  delta amended79 after exec execAmend amendOwner amendJudged State.amendDuplicate
  generalize Config.amendRepeatsFirst = b
  revert b
  decide +kernel

/-- 7.9: had the reading been 2, the settle expiry fences the column with a capture of reading 2 and length 3. -/
theorem test_settle_expiry :
    let s := (amended79 |> gauge .check 2 3).modCol 3 fun k => { k with settleTimer := some 0 }
    let t := after (.settleExpiry 3) s
    (t.col 3).cause = some .gaugeMismatch ∧
      (t.group 6).captured.map (fun e => (e.kind, e.reading, e.stackLen)) = some (.gaugeMismatch, some 2, some 3) := by
  delta amended79 after exec execAmend amendOwner amendJudged State.amendDuplicate
  generalize Config.amendRepeatsFirst = b
  revert b
  decide +kernel

/-- 7.9: robot 14's deposit of h9 did not report: the timeout that precedes it. -/
theorem test_grant_timeout :
    let s := (base |> put 9 (bin .landing 5003 P1 0 (some 3)) |> inbound 3 [9] |>
      granted 3 (claim 1 14 .deposit 9 0) .deposit).modCol 3 fun k =>
        { k with grant := k.grant.map fun g => { g with timer := some 0 } }
    let t := after (.grantTimeout 3) s
    (t.hand 9).bind (·.doubt) = some ⟨.deposit, ⟨1, 14⟩⟩ ∧ (t.col 3).cause = some .grantTimeout := by decide +kernel

/-- R114: RESTORE opens a FENCED column without doubt and answers OPEN, stack length and reading. -/
theorem test_restore :
    let s := base |> gauge .check 0 2 |> fencedFor .supervisor 2
    answers .ps (after (.restore .ps) (ask .ps .restore [1, 2] s)) = [[1, 0, 1, 0, 0]] := by decide +kernel

/-- R122: REINITIALIZE forgets the bins and keeps the captures. -/
theorem test_reinitialize :
    let t := after (.reinitialize .ps) (ask .ps .reinitialize [1] (amend79.captureLink P1 .overlong))
    t.hand 2 = none ∧ (t.col 3).state = .unknown ∧ t.alert = true := by decide +kernel

/-! ### Time -/

/-- R107: a new level becomes the candidate and the filter count starts at the filter steps. -/
theorem test_tick :
    let t := after (.interchangeTick (Vector.replicate 8 3)) base
    t.tickCount = 1 ∧ ((t.col 0).candidate, (t.col 0).filterCount) = (3, some 2) := by decide +kernel

/-- R109, R110: an unexpected change in CHECK fences an OPEN column. -/
theorem test_gauge_change :
    let s := base.modCol 2 fun k => { k with candidate := 1, filterCount := some 0 }
    ((after (.gaugeReadingChange 2) s).col 2).cause = some .gaugeUnexpected := by decide +kernel

/-- 4.2: the count goes on from 65535 to 0, and at 65500 a due of 65500 passes. -/
theorem test_seconds_advance :
    (after .secondsAdvance { at_ 65535 base with advanceDue := true }).clock = 0 ∧
      ((after .secondsAdvance { at_ 65499 (put 2 { bin .stored 9 P0 1 (some 3) with due := .pending 65500 } base) with
        advanceDue := true }).hand 2).map (·.due) = some .passed := by decide +kernel

/-- Table 4-1: which dues are earlier than 164. -/
theorem test_table_4_1 :
    [Due.pending 65500, .pending 100, .pending 300, .unknown, .passed].map (fun d => d.earlier (.pending 164)) =
      [true, true, false, false, true] := by decide

/-- Table 6-4: h10 charging in column 0 since 65400. -/
def wrap64 (now : Seconds) : State :=
  base |> at_ now |> is_ .granted 0 |> stack 0 [10] |>
    put 10 { bin .stored 77 P0 1 (some 0) with budget := some (charging 250 65400 114 54) } |>
    waits 0 [claim 1 1 .lift 10 5]

/-- Table 6-4, at 54: urgency 6, live remaining 60, WARN to P1. -/
theorem test_exposure_warning :
    let t := after (.exposureWarning 10) (wrap64 54)
    (t.hand 10).map (fun x => (x.urgency, x.liveBudget 54)) = some (6, 60) ∧ t.pendingSet P1 = [.warn 10] := by
  decide +kernel

/-- R56, R104: the booking expiry of an advance may be taken while the warning of the same advance is still due. -/
theorem test_booking_expiry_before_a_warning :
    let s := wrap64 54 |> put 6 { bin .booked 9 P1 3 (some 6) with bookingTimer := some 0 } |> inbound 6 [6]
    s.advanceEventDue = true ∧ ((after (.bookingExpiry 6) s).col 6).inbound = [] := by decide +kernel

/-- Table 6-4, at 114: urgency 7, 0 stored, a DWELL capture, EXPIRED to P1 and PS. -/
theorem test_exposure_expiry :
    let t := after (.exposureExpiry 10) (wrap64 114)
    (t.hand 10).map (fun x => (x.urgency, x.liveBudget 115)) = some (7, 0) ∧
      (t.group 7).captured.map (·.kind) = some .expired ∧ t.pendingSet .ps = [.error 7, .expired 10] := by decide +kernel

/-- Table 8-4, at 10: the difference falls to 2, the trend is STEADY and LOAD is posted. -/
theorem test_trend_sample :
    let s := { base with
      trendDue := true
      load := { base.load with trend := .rising, samples := #v[20, 20, 21, 21, 22, 22, 23] } }
    let s := s |> stack 0 [0, 1, 2, 3, 4, 5] |> stack 1 [6, 7, 8, 9, 10, 11] |> stack 2 [12, 13, 14, 15, 16, 17] |>
      stack 3 [18, 19, 20, 21]
    let t := after .trendSample s
    t.load.trend = .steady ∧ t.load.samples = #v[20, 21, 21, 22, 22, 23, 22] ∧ t.pendingSet P3 = [.load] := by
  decide +kernel

/-- R133: a request waits for the trend sample of the advance, which reads the occupancy as it stands there. -/
theorem test_trend_sample_first :
    let s := ask P0 .queryStatus [1] { base with trendDue := true }
    answers P0 (after (.queryStatus P0) s) = [] ∧
      (answers P0 (after (.queryStatus P0) (after .trendSample s))).length = 1 := by decide +kernel

/-- Table 5-3: at the HOLDING claim's selection the stamp 95 wins; the DEPOSIT below the gate stays WAITING. -/
theorem test_selection :
    let s := (base |> put 9 { bin .stored 9 P0 1 (some 2) with urgency := 2 } |>
      put 12 { bin .stored 12 P0 2 (some 2) with urgency := 2 } |> stack 2 [9, 12] |> put 5 (bin .booked 5 P0 3 (some 2)) |>
      put 20 { bin .moving 20 P0 3 (some 2) with holder := some ⟨3, 5⟩ } |> inbound 2 [5, 20] |>
      waits 2 [claim 3 5 .holding 20 95, claim 0 3 .deposit 5 100, claim 1 8 .lift 9 101, claim 2 1 .lift 12 102]).setLoad
        { base.load with mode := .hold }
    (s.choose ((s.col 2).waitList.filter (s.eligible 2))).map (·.stamp) = some 95 := by decide +kernel

/-! ### Witnesses: states that meet the hypotheses of the statements, clause by clause -/

/-- P0 after a fall, P1 with nothing to send, P2 with the bus and no frame, P3 driving a byte, PS in a frame. -/
def idle : State :=
  let s := base.modLink P0 fun u => { u with bus := .turning, window := true }
  let s := s.modLink P2 fun u => { u with bus := .ix48 }
  let s := s.modLink P3 fun u => { u with bus := .ix48, sending := some { bytes := [0x81, 0], sent := 1 } }
  s.modLink .ps fun u => { u with rx := .receiving, frame := [0x22] }

/-- P0 after a rise, P1 prepared with an answer, P2 with an invalid item, P3 with its frame sent, PS with an item. -/
def turns : State :=
  let s := base.modLink P0 fun u => { u with bus := .turning, sending := some { bytes := [0x81, 0], sent := 0 } }
  let s := s.modLink P1 fun u => { u with prepared := true, answers := [[1, 0]] }
  let s := (s.modLink P2 fun u => { u with prepared := true }).modPending P2 fun _ => [.ready 3]
  let s := s.modLink P3 fun u => { u with bus := .ix48, sending := some { bytes := [0x81, 0], sent := 2 } }
  (s.modLink .ps fun u => { u with prepared := true }).modPending .ps fun _ => [.load]

theorem witness_IdleStepIsOneEdge :
    ((after .resetInput base).pending = [] ∧ (after .resetInput base).resetAsserted = true) ∧
    (idle.pending = [] ∧ idle.resetAsserted = false ∧ (∀ p ∈ [P0, P1, P2, P3], (idle.link p).rx = .betweenFrames) ∧
      (idle.link .ps).rx ≠ .betweenFrames ∧ (idle.link P0).bus = .turning ∧ (idle.link P0).sending = none ∧
      ((idle.link P1).bus = .controller ∧ (idle.link P1).prepared = false) ∧
      ((idle.link P2).bus = .ix48 ∧ (idle.link P2).sending = none) ∧
      (idle.link P3).bus = .ix48 ∧ (idle.link P3).sending = some { bytes := [0x81, 0], sent := 1 }) ∧
    (turns.pending = [] ∧ turns.resetAsserted = false ∧
      ((turns.link P0).bus = .turning ∧ (turns.link P0).sending ≠ none) ∧
      (∀ p ∈ [P1, P2, .ps], (turns.link p).bus = .controller ∧ (turns.link p).prepared = true) ∧
      turns.hasFrame P1 ∧ ¬ turns.hasFrame P2 ∧ turns.hasFrame .ps ∧
      (turns.link P3).bus = .ix48 ∧ (turns.link P3).sending = some { bytes := [0x81, 0], sent := 2 }) := by
  and_intros <;> decide +kernel

theorem witness_PowerOnAndReset : (after .resetInput base).resetAsserted = true := by decide +kernel

theorem witness_FramesOfReference :
    7 < 8 ∧ put16 .lowFirst 0x0E10 = [0x10, 0x0E] ∧ put24 .highFirst 0x011170 = [0x01, 0x11, 0x70] := by decide

/-- A link that may take bytes; frames that are good, wrong, short and long; nothing to send, and something. -/
theorem witness_ReceptionAgreesWithWholeFrame :
    let s := base.modPending P0 fun _ => [.load]
    (base.pace P0 = true ∧ (base.link P0).rx = .betweenFrames) ∧
    (frameBytes 0x22 [1] ≠ [] ∧ (frameBytes 0x22 [1]).head? ≠ some 0 ∧
      frameVerdict (frameBytes 0x22 [1]) = .ok { kind := 0x22, body := [1] }) ∧
    ([0] : List Byte).length = 1 ∧ frameVerdict [0x22, 0, 0, 0] = .error .badCheck ∧
    frameVerdict [0x22, 1, 0, 0] = .error .truncated ∧ frameVerdict [0x22, 65, 0, 0] = .error .overlong ∧
    ((base.link P0).answers = [] ∧ base.pendingSet P0 = []) ∧
    (s.pace P0 = true ∧ (s.link P0).rx = .betweenFrames ∧ s.hasFrame P0) ∧
    (0x11 : Byte) ≠ 0 ∧ ([] : List Byte).length ≤ 64 ∧ (List.replicate 64 (0 : Byte)).length ≤ 64 := by
  and_intros <;> decide +kernel

/-- A link whose intake queue is full. -/
def full : State := base.modLink P0 fun u => { u with intake := List.replicate 4 { kind := 0x22, body := [1] } }

/-- A frame in reception, one that has all its bytes, and one that is too long. -/
def inFrame (rx : RxState) (frame : List Byte) : State := base.modLink P0 fun u => { u with rx := rx, frame := frame }

theorem witness_FrameBegins :
    (base.pace P0 = true ∧ (base.link P0).rx = .betweenFrames ∧ (0x11 : Byte) ≠ 0) ∧
    ((idle.link .ps).rx ≠ .betweenFrames ∧ (∀ p ∈ [P0, P3], (idle.link p).rx = .betweenFrames) ∧
      (∀ p ∈ [P1, P2], (turns.link p).rx = .betweenFrames ∧ (turns.link p).bus = .controller ∧
        (turns.link p).prepared = true) ∧ idle.resetAsserted = false ∧ turns.resetAsserted = false) ∧
    (4 ≤ (full.link P0).intake.length ∧ (full.link P0).rx = .betweenFrames) ∧
    ((idle.link P3).bus ≠ .controller ∧ (idle.link P3).sending ≠ none) ∧ turns.hasFrame P1 ∧
    ((turns.link P2).sending = none ∧ (turns.link P2).intake.length < 4 ∧ ¬ turns.hasFrame P2) ∧
    ((idle.link P0).bus = .turning ∧ (idle.link P0).sending = none ∧ (idle.link P0).prepared = false ∧
      (idle.link P0).intake.length < 4) ∧
    ∀ s ∈ [inFrame .receiving [0x22], inFrame .receiving [0x22, 0, 1, 2], inFrame .discarding [0x22, 65]],
      s.resetAsserted = false ∧ (s.link P0).bus = .controller ∧ (s.link P0).rx ≠ .betweenFrames ∧
        (s.link P0).frame.head? = some 0x22 := by
  and_intros <;> decide +kernel

theorem witness_FrameBegins_long :
    ((inFrame .receiving [0x22]).link P0).frame = [0x22] ∧ (64 : Byte) < 65 ∧
    ((inFrame .receiving [0x22, 0, 1, 2]).link P0).frame[1]? = some 0 ∧
      (0 : Byte).toNat + 4 ≤ ((inFrame .receiving [0x22, 0, 1, 2]).link P0).frame.length ∧
    ((inFrame .discarding [0x22, 65]).link P0).rx = .discarding := by decide +kernel

/-- An answer waits for P0, on the controller's bus and after a fall. -/
def owing : List State := [base, idle].map fun s => s.modLink P0 fun u => { u with answers := [[1, 0]] }

/-- An answer to send; no answer, a frame in reception, and a frame in sending. -/
theorem witness_AnswersTakeTurns :
    (∀ s ∈ owing, s.resetAsserted = false ∧ (s.link P0).rx = .betweenFrames ∧ (s.link P0).bus ≠ .ix48 ∧
      (s.link P0).sending = none ∧ (s.link P0).answers = [1, 0] :: []) ∧
    ((idle.link .ps).rx ≠ .betweenFrames ∧ (base.link P0).answers = []) ∧
    (turns.resetAsserted = false ∧ ∀ p ∈ [P0, P3], (turns.link p).sending ≠ none ∧ (turns.link p).bus ≠ .controller) ∧
    (base.link P0).sending = none := by and_intros <;> decide +kernel

/-- READY of a FREE record is invalid; RESET stands above LOAD. -/
theorem witness_NextNoticeIsHighestEarliestValid :
    (noticesDistinct ([.ready 0, .load] ++ .reset :: [.fence 2]) ∧ base.valid P0 .reset = true ∧
      (∀ m ∈ [Notice.ready 0, .load], base.valid P0 m = true → base.level m.kind < base.level Notice.reset.kind) ∧
      ∀ m ∈ [Notice.fence 2], base.valid P0 m = true → base.level m.kind ≤ base.level Notice.reset.kind) ∧
    ∀ m ∈ [Notice.ready 0, .delivered 3], base.valid P0 m = false := by
  unfold noticesDistinct
  decide +kernel

/-- P0's link may raise TURN for a notice. -/
abbrev may (s : State) : Prop :=
  s.resetAsserted = false ∧ (s.link P0).rx = .betweenFrames ∧ (s.link P0).bus ≠ .ix48 ∧ (s.link P0).sending = none ∧
    (s.link P0).answers = []

/-- A GRANT item, an ending item, another item, and invalid items alone. -/
theorem witness_SendNoticeActsAtSend :
    let next (s : State) := s.nextNotice P0 (s.pendingSet P0).length (s.pendingSet P0)
    let g := base |> granted 2 (claim 0 7 .lift 4 0) .lift
    let closing := base |> put 5 { bin .closing 6 P0 2 none with closing := some ⟨.delivered, 1⟩ }
    (may base ∧ base.pendingSet P0 = [] ∧ (base.link P0).prepared = false) ∧
    (may (base.modPending P0 fun _ => [.ready 3]) ∧ base.valid P0 (.ready 3) = false ∧ next (base.modPending P0 fun _ => [.ready 3]) = (none, [])) ∧
    (next (g.modPending P0 fun _ => [.grant 2]) = (some (.grant 2), []) ∧
      (g.col 2).grant = some { claim := claim 0 7 .lift 4 0, op := .lift, noticeSent := true, timer := some 450 } ∧
      may (g.modPending P0 fun _ => [.grant 2])) ∧
    (next (closing.modPending P0 fun _ => [.delivered 5]) = (some (.delivered 5), []) ∧
      may (closing.modPending P0 fun _ => [.delivered 5]) ∧ (Notice.delivered 5).kind = .delivered ∧
      (Notice.delivered 5).subject = some (5 : HNum).val ∧
      ((closing.hand 5).bind (·.closing)) = some ⟨.delivered, 1⟩ ∧ RegionSet.has 1 0 = true) ∧
    (next (base.modPending P0 fun _ => [.load]) = (some .load, []) ∧ may (base.modPending P0 fun _ => [.load]) ∧
      Notice.load.kind ≠ .grant ∧ Notice.load.kind ≠ .withdrawn ∧ Notice.load.kind ≠ .delivered ∧
      Notice.load.kind ≠ .handedBack) := by decide +kernel

/-- P0's column 2 is granted for a shift of record 11, and column 3 for a lift; records of every state with their items. -/
def noticed : State :=
  base |> granted 2 (claim 0 7 .lift 4 30) (.shift 11) |> granted 3 (claim 1 7 .lift 5 31) .lift |>
    put 11 { bin .shifting 11 P0 2 (some 2) with target := some 5 } |> put 5 (bin .lifting 5 P0 1 (some 3)) |>
    put 4 (bin .stored 4 P1 0 (some 2)) |> stack 2 [4, 11] |>
    put 6 { bin .closing 6 P0 2 none with closing := some ⟨.delivered, 1⟩ } |>
    put 7 { bin .moving 7 P0 2 (some 4) with budget := some { charging 600 0 600 540 with warned := true } }

theorem witness_NoticesSayWhatTheTablesList :
    noticed.valid P0 (.grant 2) = true ∧ noticed.valid P0 (.ready 4) = true ∧ noticed.valid P0 (.moved 4) = true ∧
      noticed.valid P0 (.warn 7) = true ∧ noticed.valid P0 (.delivered 6) = true ∧
    ((noticed.col 2).grant.map (·.op) = some (.shift 11) ∧ (noticed.hand 11).isSome = true) ∧
    ((noticed.col 3).grant.map (·.op) = some .lift ∧ ∀ i, Operation.lift ≠ .shift i) ∧
    noticed.hand 4 = some (bin .stored 4 P1 0 (some 2)) ∧ (bin .stored 4 P1 0 (some 2)).column = some 2 ∧
    ((base.captureLink P1 .overlong).group 1).captured.isSome = true := by and_intros <;> decide +kernel

/-- The device with port P2 disabled. -/
def p2Off : State := { base with ports := base.ports.set 2 { base.ports[2] with enabled := false } }

theorem witness_RequestsJudgedInOrder :
    (∀ k : RequestKind, k.code ≠ 0x99) ∧
    (base.modLink P0 fun u => { u with intake := [{ kind := 0x99, body := [] }] }).offersFrame P0
      { kind := 0x99, body := [] } ∧
    ((ask P0 .book [1] base).offers P0 .book [1] ∧ RequestKind.book.lengthOk [1] = false) ∧
    ((ask P0 .fence [1, 2] base).offers P0 .fence [1, 2] ∧ RequestKind.fence.lengthOk [1, 2] = true ∧
      RequestKind.fence.permitted P0 [1, 2] = false) ∧
    ((ask P2 .cancel [1, 2] p2Off).offers P2 .cancel [1, 2] ∧ (p2Off.ports[(2 : Region)]).enabled = false ∧
      RequestKind.cancel.lengthOk [1, 2] = true ∧ RequestKind.cancel.permitted P2 [1, 2] = true ∧
      RequestKind.cancel.isQuery = false) := by
  refine ⟨fun k => by cases k <;> decide, ?_⟩
  decide +kernel

theorem witness_CommandsWaitForTheirEvents :
    (wrap64 54).advanceEventDue = true ∧ { base with trendDue := true }.advanceEventDue = true ∧
    4 ≤ ((base.modLink P0 fun u => { u with answers := [[], [], [], []] }).link P0).answers.length ∧
    (∀ f ∈ ((ask P0 .book [] base).link P0).intake.head?, f.kind ≠ RequestKind.fence.code) ∧
    (∀ c, (base.col c).filterCount ≠ some 0) ∧ (∀ c, (base.col c).settleTimer ≠ some 0) ∧
    (∀ c, ∀ g ∈ (base.col c).grant, g.timer ≠ some 0) ∧ base.advanceDue = false ∧ base.trendDue = false ∧
    (∀ h, ∀ x ∈ landing63.hand h, x.bookingTimer ≠ some 0) ∧
    (∀ h, ∀ x ∈ (wrap64 53).hand h, ∀ b ∈ x.budget, b.since = none ∨ b.warnAt ≠ some (wrap64 53).clock) ∧
    ∀ h, ∀ x ∈ (wrap64 53).hand h, ∀ b ∈ x.budget, b.since = none ∨ b.expiryAt ≠ some (wrap64 53).clock := by
  decide +kernel

theorem witness_OneAnswerForEachRequest :
    ((ask .ps .fence [1, 5] base).offersFrame .ps { kind := 0x37, body := [1, 5] } ∧
      (∃ k : RequestKind, (0x37 : Byte) = k.code ∧ Instr.fence .ps = k.command .ps) ∧
      (∀ c, let k := (ask .ps .fence [1, 5] base).col c
        k.stack.length + k.inbound.length ≤ k.cfg.depth ∧ k.cfg.depth ≤ 6) ∧
      ∃ t, exec (.fence .ps) (ask .ps .fence [1, 5] base) = .next t) ∧
    ∀ k : RequestKind, k.code ≠ 0x99 :=
  ⟨⟨by decide +kernel, ⟨.fence, rfl, rfl⟩, by decide +kernel, ⟨_, rfl⟩⟩, fun k => by cases k <;> decide⟩

/-- Two dues on either side of the wrap. -/
theorem witness_DueOrder :
    let now : Seconds := 65500
    let a : Seconds := 65501
    let b : Seconds := 4058
    (1 ≤ (a - now).toNat ∧ (a - now).toNat ≤ 4094 ∧ 1 ≤ (b - now).toNat ∧ (b - now).toNat ≤ 4094 ∧ a ≠ b) ∧
      1 ≤ (b - a).toNat ∧ (b - a).toNat ≤ 32767 := by decide

theorem witness_PlacementChoosesTheBest :
    ([0, 4, 5] : List ColIx).Pairwise (· < ·) ∧ base.wins .unknown .chilled [0, 4, 5] 4 ∧
      (base.col 0).cfg.cls = .ambient ∧ BinClass.chilled ≠ .ambient := by decide +kernel

theorem witness_BookFillsLowestFreeRecord :
    let s := ask P1 .book body39 booking39
    s.offers P1 .book (bookBody (s.ports[(1 : Region)]).order 1 70000 (byte 3) 6 (byte 0) 5000 900) ∧ s.regionOn 1 ∧
      (70000 : BinNo) ≠ 0 ∧ (3 : Region) ≠ 1 ∧ (∀ k, ¬ s.holdsBin k 70000) ∧ s.hand 6 = none ∧
      (∀ k, k < 6 → s.hand k ≠ none) ∧ s.load.depositGate ≤ 5 ∧
      s.wins (statedDue s.clock 5000) (statedClass 900) (s.bookingSet P1 3) 6 ∧
      s.limits.digReserve ≤ s.inServiceRoom - 1 ∧ 1 ≤ s.inServiceRoom ∧ (6 : HNum) ∉ (s.col 6).inbound := by
  decide +kernel

/-- Every record in use. -/
def crowded : State :=
  { base with records := Vector.ofFn fun h => some (bin .moving (BitVec.ofNat 24 (h.val + 1)) P1 2 (some 0)) }

/-- P0 sends a BOOK that the stages before its owner let through. -/
abbrev books (s : State) (b : BinNo) (dst hdg : Byte) : Prop :=
  (ask P0 .book (bookBody .lowFirst 1 b dst 3 hdg 0 0) s).offers P0 .book (bookBody .lowFirst 1 b dst 3 hdg 0 0) ∧
    s.regionOn 0 ∧ (s.ports[0]).order = .lowFirst

theorem witness_BookRefusals :
    books base 0 1 0 ∧ books base 9 4 0 ∧ books base 9 1 4 ∧ books base 9 (byte 0) 0 ∧
    (books crowded 9 1 3 ∧ crowded.holdsBin 8 9 ∧ ∀ k, k < 8 → ¬ crowded.holdsBin k 9) ∧
    (books crowded 99 1 3 ∧ (∀ k, ¬ crowded.holdsBin k 99) ∧ ∀ k, crowded.hand k ≠ none) ∧
    ((∀ k, ¬ peak86.holdsBin k 99) ∧ (∃ k, peak86.hand k = none) ∧ books peak86 99 1 0 ∧ 3 < peak86.load.depositGate) ∧
    (books State.reset 99 1 0 ∧ State.reset.bookingSet P0 1 = [] ∧ State.reset.load.depositGate ≤ 3) ∧
    (let s := { booking39 with limits := { booking39.limits with digReserve := 5 } }
     books s 99 1 0 ∧ s.bookingSet P0 1 ≠ [] ∧ s.inServiceRoom - 1 < s.limits.digReserve) := by
  refine ⟨?_, ?_, ?_, ?_, ?_, ?_, ?_, ?_, ?_⟩ <;> decide +kernel

theorem witness_CancelFreesABooking :
    let s := base |> put 3 (bin .booked 9 P0 2 (some 1)) |> inbound 1 [3] |> put 4 (bin .landing 10 P0 2 (some 1)) |>
      put 5 (bin .booked 11 P1 2 (some 1)) |> put 6 (bin .stored 12 P0 2 (some 1))
    (∀ b ∈ ([32, 0, 3, 4, 5, 6] : List Byte), (ask P0 .cancel [1, b] s).offers P0 .cancel [1, b]) ∧ s.regionOn 0 ∧
    (31 : Byte) < 32 ∧ s.hand 0 = none ∧ s.hand 5 = some (bin .booked 11 P1 2 (some 1)) ∧
    (bin .booked 11 P1 2 (some 1)).origin ≠ P0 ∧ s.hand 4 = some (bin .landing 10 P0 2 (some 1)) ∧
    s.hand 6 = some (bin .stored 12 P0 2 (some 1)) ∧ s.hand 3 = some (bin .booked 9 P0 2 (some 1)) := by decide +kernel

/-- Column 1 takes a claim of P0's robot 7 for record 3 or 4. -/
abbrev joins (s : State) : Prop :=
  s.regionOn 0 ∧ s.robotBusy ⟨0, 7⟩ = false ∧ s.recordClaimed 3 = false ∧ s.recordClaimed 4 = false ∧
    (s.col 1).state ≠ .unknown ∧ (s.col 1).state ≠ .fenced ∧ (s.col 1).waitList.length < 6 ∧
    ((s.col 1).waitList.filter Claim.isRegion).length < 4 ∧ ∀ cl ∈ (s.col 1).waitList, cl.stamp ≤ s.stampCounter

/-- A BOOKED record of P0 and a STORED one to P0, with room in the wait list. -/
theorem witness_ClaimJoinsTheWaitList :
    let s := base |> put 3 (bin .booked 9 P0 2 (some 1)) |> inbound 1 [3] |> put 4 (bin .stored 10 P1 0 (some 1)) |>
      stack 1 [4]
    joins s ∧ s.hand 3 = some (bin .booked 9 P0 2 (some 1)) ∧ s.hand 4 = some (bin .stored 10 P1 0 (some 1)) ∧
    (ask P0 .claim [1, 7, 0, 3] s).offers P0 .claim [1, 7, 0, 3] ∧
    (ask P0 .claim [1, 7, 1, 4] s).offers P0 .claim [1, 7, 1, 4] ∧
    joins (s |> is_ .granted 1 |> waits 1 [claim 1 1 .deposit 9 0, claim 1 2 .deposit 10 0, claim 1 3 .lift 11 0,
      claim 2 1 .holding 12 0, claim 2 2 .holding 13 0]) ∧
    s.stampCounter < 4294967295 ∧
    ((waits 1 [claim 0 7 .deposit 9 5] base).setStamp 4294967295).stampCounter = 4294967295 := by decide +kernel

/-- Records of every kind a CLAIM of P0's robot 7 can name. -/
def named : State :=
  base |> put 3 (bin .booked 9 P0 2 (some 1)) |> put 4 (bin .stored 10 P1 0 (some 1)) |>
    put 5 (bin .stored 11 P1 2 (some 1)) |> put 6 (bin .booked 12 P1 2 (some 1)) |>
    put 7 { bin .closing 13 P0 2 none with closing := some ⟨.delivered, 1⟩ } |> put 8 (bin .landing 14 P0 0 (some 1))

theorem witness_ClaimRefusals :
    let room := named |> waits 1 [claim 1 1 .lift 20 0, claim 1 2 .lift 21 0, claim 1 3 .lift 22 0, claim 1 4 .lift 23 0]
    (∀ op b, (ask P0 .claim [1, 7, op, b] named).offers P0 .claim [1, 7, op, b]) ∧ named.regionOn 0 ∧
    named.hand 0 = none ∧ (named.hand 7).map (·.state) = some .closing ∧ (named.hand 6).map (·.origin) = some P1 ∧
    (named.hand 5).map (·.dest) = some 2 ∧
    (named.hand 8).map (fun x => (x.origin, x.dest, x.state)) = some (P0, 0, .landing) ∧
    named.hand 3 = some (bin .booked 9 P0 2 (some 1)) ∧ named.hand 4 = some (bin .stored 10 P1 0 (some 1)) ∧
    (waits 2 [claim 0 7 .deposit 9 0] named).robotBusy ⟨0, 7⟩ = true ∧
    ((waits 1 [claim 0 8 .deposit 3 0] named).robotBusy ⟨0, 7⟩ = false ∧
      (waits 1 [claim 0 8 .deposit 3 0] named).recordClaimed 3 = true) ∧
    (named.robotBusy ⟨0, 7⟩ = false ∧ named.recordClaimed 3 = false) ∧
    ((fencedFor .supervisor 1 named).col 1).state = .fenced ∧ ((is_ .unknown 1 named).col 1).state = .unknown ∧
    (room.robotBusy ⟨0, 7⟩ = false ∧ room.recordClaimed 3 = false ∧ (room.col 1).state = .opened ∧
      4 ≤ ((room.col 1).waitList.filter Claim.isRegion).length) ∧
    6 ≤ ((waits 1 (List.replicate 6 (claim 1 1 .holding 20 0)) named).col 1).waitList.length := by
  refine ⟨fun op b => ⟨?_, ?_, rfl⟩, ?_⟩
  · exact (by decide +kernel : (ask P0 .claim [] named).advanceEventDue = false)
  · exact (by decide +kernel : ((ask P0 .claim [] named).link P0).answers.length < Config.answerRoom)
  · decide +kernel

/-- Setpoints AUTOMATIC on, AUTOMATIC off and forced; a gate that falls and one that does not. -/
theorem witness_LoadGatesSetpointsAndTrend :
    let off := base.load.high
    off.forcing = .automatic ∧ off.on = false ∧ ({ off with on := true } : Setpoint).on = true ∧
    ({ off with forcing := .forcedOn } : Setpoint).forcing ≠ .automatic ∧
    base.load.depositGate < peak86.load.depositGate ∧ base.load.liftGate = peak86.load.liftGate := by decide +kernel

/-- The device of Table 5-3. -/
def column53 : State :=
  (base |> put 9 { bin .stored 9 P0 1 (some 2) with urgency := 2 } |>
    put 12 { bin .stored 12 P0 2 (some 2) with urgency := 2 } |> stack 2 [9, 12] |> put 5 (bin .booked 5 P0 3 (some 2)) |>
    inbound 2 [5] |> waits 2 [claim 0 3 .deposit 5 100, claim 1 8 .lift 9 101, claim 2 1 .lift 12 102]).setLoad
    { base.load with mode := .hold }

/-- The claim that a selection at column 2 of a device chooses. -/
def chosen (s : State) : Option Claim :=
  if (s.col 2).state = .opened then s.choose (((s.col 2).waitList.map (s.mark 2)).filter (s.eligible 2)) else none

/-- A deposit, a holding landing and a LIFT of the top bin, each with the column to itself. -/
def alone (cl : Claim) (s : State := column53) : State := waits 2 [cl] (s.setLoad base.load)

/-- A claim of each operation, one that digs, and one that no gate lets pass. -/
theorem witness_SelectionGrantsMostUrgentOldest :
    let frozen := column53.setLoad { base.load with mode := .freeze }
    let held := alone (claim 3 5 .holding 20 95) (column53 |> put 20 { bin .moving 20 P0 3 (some 2) with holder := some ⟨3, 5⟩ })
    (column53.choose ((column53.col 2).waitList.filter (column53.eligible 2)) = some (claim 1 8 .lift 9 101)) ∧
    (chosen (alone (claim 0 3 .deposit 5 100)) = some (claim 0 3 .deposit 5 100) ∧
      chosen held = some (claim 3 5 .holding 20 95) ∧
      chosen (alone (claim 2 1 .lift 12 102)) = some (claim 2 1 .lift 12 102) ∧
      ((alone (claim 2 1 .lift 12 102)).col 2).stack.getLast? = some 12) ∧
    (chosen column53 = some (claim 1 8 .lift 9 101) ∧ (column53.col 2).stack.getLast? = some 12 ∧ (12 : HNum) ≠ 9 ∧
      column53.hand 12 = some { bin .stored 12 P0 2 (some 2) with urgency := 2 } ∧
      column53.wins .unknown .ambient (column53.digSet 1 2 2) 0) ∧
    ((frozen.col 2).state = .opened ∧ (frozen.col 2).waitList ≠ [] ∧ chosen frozen = none) ∧
    (column53.col 3).waitList = [] ∧ ((is_ .fenced 2 column53).col 2).state ≠ .opened := by and_intros <;> decide +kernel

theorem witness_ChargingFollowsTheRecord :
    let warned : Budget := { idleBudget 600 with warned := true }
    (∀ x ∈ [bin .booked 1 P0 1 (some 2), bin .closing 1 P0 1 (some 2), bin .landing 1 P0 1 (some 2),
      bin .stored 1 P0 1 (some 2), bin .moving 1 P0 1 (some 2)], x.column = some 2) ∧
    ({ bin .doubt 1 P0 1 (some 2) with doubt := some ⟨.shift, ⟨0, 1⟩⟩ } : Handover).doubt.isSome = true ∧
    (let s := base |> put 3 { bin .stored 1 P0 1 (some 2) with budget := some (idleBudget 600) } |>
        put 4 { bin .stored 2 P0 1 (some 2) with budget := some warned } |>
        put 5 { bin .stored 3 P0 1 (some 2) with budget := some (idleBudget 60) } |>
        put 6 { bin .stored 4 P0 1 (some 5) with budget := some (charging 600 0 600 540) } |>
        put 7 { bin .stored 5 P0 1 (some 2) with budget := some (charging 600 0 600 540) }
     s.limits.warn < 600 ∧ 60 ≤ s.limits.warn ∧
     (∀ h ∈ ([3, 4, 5, 7] : List HNum), (s.hand h).map s.chargeCond = some true) ∧
     (s.hand 6).map s.chargeCond = some false ∧
     (s.hand 3).bind (·.budget) = some (idleBudget 600) ∧ (s.hand 4).bind (·.budget) = some warned ∧
     (s.hand 5).bind (·.budget) = some (idleBudget 60) ∧
     (s.hand 6).bind (·.budget) = some (charging 600 0 600 540)) := by decide +kernel

theorem witness_RecordsAndGrantsEnd :
    let x : Handover := { bin .stored 1 P0 1 (some 2) with follower := some ⟨⟨1, 4⟩, 8⟩ }
    let s := base |> put 3 x |> stack 2 [3] |> put 4 (bin .stored 2 P0 1 (some 2))
    s.hand 3 = some x ∧ (s.hand 4).map (·.follower) = some none ∧
    s.level (Notice.delivered 3).kind ≠ 0 ∧ (1 : RegionSet) ≠ 0 ∧
    ({ s with levels := Vector.replicate 14 0 }).level (Notice.delivered 3).kind = 0 ∧
    (s.col 2).state ≠ .fenced ∧ ((fencedFor .supervisor 2 s).col 2).state = .fenced ∧
    4 ≤ (((waits 2 (List.replicate 4 (claim 1 1 .lift 20 0)) s).col 2).waitList.filter Claim.isRegion).length ∧
    ((s.modCol 2 fun k => { k with fencePending := true }).col 2).fencePending = true ∧
    ((s.col 2).fencePending = false ∧ (s.col 2).cfg.gaugeMode ≠ .off) ∧
    ((gauge .off 0 2 s).col 2).cfg.gaugeMode = .off := by decide +kernel

/-- Record 10 of P2's robot 6 in doubt over an operation at column 2. -/
def doubted (op : OpKind) (x : Handover) : State :=
  base |> put 10 { x with state := .doubt, doubt := some ⟨op, ⟨2, 6⟩⟩ } |> stack 2 [9, 10] |> fencedFor .grantTimeout 2

/-- Column 2 is granted to P2's robot 6, for an operation that moves record 10. -/
def moves (kind : ClaimKind) (h : HNum) (op : Operation) (x : Handover) (s : State := base) : State :=
  s |> put 10 x |> stack 2 [9, 10] |> granted 2 (claim 2 6 kind h 3) op

/-- P2 sends a report of robot 6 on record 10. -/
abbrev reports (k : RequestKind) (s : State) : Prop :=
  (ask P2 k [1, 6, 10] s).offers P2 k [1, 6, 10] ∧ s.regionOn 2

/-- The grant of `moves` is the one the report is for. -/
abbrev matched (kind : ClaimKind) (h : HNum) (op : Operation) (s : State) : Prop :=
  s.grantedTo 2 { claim := claim 2 6 kind h 3, op := op, noticeSent := true, timer := some 450 } ⟨2, 6⟩ 10

/-- Records that go to P2, at column 2: in a grant, in the stack and MOVING. -/
def lifting : Handover := bin .lifting 77 P0 2 (some 2)
@[inherit_doc lifting] def shifting (t : Option ColIx) : Handover := { bin .shifting 77 P0 1 (some 2) with target := t }
@[inherit_doc lifting] def landingDeposit : Handover := bin .landing 77 P2 1 (some 2)
@[inherit_doc lifting] def landingHeld : Handover := { bin .landing 77 P0 1 (some 2) with holder := some ⟨2, 6⟩ }

/-- Column 2's bins and claims, with a wait list that falls from six to five when the claim of record 9 goes. -/
def promises : State :=
  noticed |> put 8 (bin .booked 8 P1 2 (some 2)) |>
    put 9 { bin .moving 9 P0 3 (some 2) with holder := some ⟨1, 12⟩ } |> inbound 2 [8, 9] |>
    waits 2 (claim 1 12 .holding 9 42 :: List.replicate 5 (claim 1 1 .holding 20 50))

/-- The same with every column FENCED. -/
def shut : State := { promises with columns := promises.columns.map fun k => { k with state := .fenced } }

/-- Columns that take a bin and, when every column is FENCED, none; a record with its holder and its claim, and a shift
with its grant. -/
theorem witness_RecordsLeaveAFencedColumn :
    (promises.hand 8 = some (bin .booked 8 P1 2 (some 2)) ∧
      promises.wins .unknown .ambient (promises.bookingSet P1 2) 0 ∧ shut.bookingSet P1 2 = []) ∧
    ((promises.hand 9).bind (·.holder) = some ⟨1, 12⟩ ∧ claim 1 12 .holding 9 42 ∈ (promises.col 2).waitList ∧
      (∀ y ∈ (promises.col 2).waitList, y.handover = 9 → y = claim 1 12 .holding 9 42) ∧
      promises.wins .unknown .ambient (promises.movingSet 1 3) 0 ∧ shut.movingSet 1 3 = []) ∧
    ((promises.hand 11).bind (·.column) = some 2 ∧ (promises.col 2).grant.isSome = true ∧
      promises.wins .unknown .ambient (promises.digSet 0 2 2) 0 ∧ shut.digSet 0 2 2 = []) := by
  and_intros <;> decide +kernel

theorem witness_ReportRefusals :
    let lift := moves .lift 10 .lift lifting
    let deposit := moves .deposit 10 .deposit landingDeposit
    (∀ k ∈ [RequestKind.landed, .lifted, .release], reports k base) ∧ (31 : Byte) < 32 ∧ base.hand 10 = none ∧
    (let s := put 10 { bin .closing 77 P0 2 none with closing := some ⟨.delivered, 1⟩ } base
     reports .landed s ∧ (s.hand 10).map (·.state) = some .closing) ∧
    (let s := put 10 (bin .stored 77 P0 2 (some 2)) base
     reports .lifted s ∧ (s.hand 10).map (·.state) = some .stored ∧ s.noGrantTo ⟨2, 6⟩ 10) ∧
    (reports .landed lift ∧ matched .lift 10 .lift lift ∧ Operation.lift.kind = .lift) ∧
    (reports .lifted deposit ∧ matched .deposit 10 .deposit deposit ∧ Operation.deposit.kind = .deposit) ∧
    reports .landed (doubted .shift lifting) ∧ (doubted .shift lifting).noGrantTo ⟨2, 6⟩ 10 ∧
      reports .lifted (doubted .holding lifting) ∧ (doubted .holding lifting).noGrantTo ⟨2, 6⟩ 10 := by and_intros <;> decide +kernel

theorem witness_LandedStoresTheBin :
    let deposit := moves .deposit 10 .deposit landingDeposit
    let holding := moves .holding 10 .holding landingHeld
    (reports .landed deposit ∧ deposit.hand 10 = some landingDeposit ∧ landingDeposit.state ≠ .closing ∧
      matched .deposit 10 .deposit deposit) ∧
    reports .landed holding ∧ holding.hand 10 = some landingHeld ∧ matched .holding 10 .holding holding := by
  and_intros <;> decide +kernel

/-- Six claims in the wait list of a column. -/
def crowd (c : ColIx) (s : State) : State := s |> waits c (List.replicate 6 (claim 1 1 .holding 20 0))

/-- No column can take a bin that leaves column 2: every other wait list is full. -/
def noRoom (s : State) : State :=
  { s with columns := Vector.ofFn fun c =>
      if c = 2 then s.col 2 else { s.col c with waitList := List.replicate 6 (claim 1 1 .holding 20 0) } }

/-- A SHIFT of record 10 under way, with its target. -/
abbrev shifts (t : Option ColIx) (s : State) : Prop :=
  reports .lifted s ∧ s.hand 10 = some (shifting t) ∧ matched .lift 9 (.shift 10) s

/-- What the LIFTED of a SHIFT has when the record has left its source. -/
def outOf (s : State) : Work :=
  Work.makeFollower { st := s.modCol 2 fun k => { k with stack := k.stack.dropLast }, sel := ColIx.all } 2 10

/-- The target in service with room, the target FENCED, the target's list full, and no column at all; a record with a LIFT
claim of its own in a list of six, and one without; a record that is MOVING when the answer is composed. -/
theorem witness_LiftedMovesTheBin :
    let lift := moves .lift 10 .lift lifting
    let s := moves .lift 9 (.shift 10) (shifting (some 5))
    let lost := moves .lift 9 (.shift 10) (shifting none)
    let own := claim 1 3 .lift 10 2
    let six := waits 2 (own :: List.replicate 5 (claim 1 1 .holding 20 3)) s
    (six.hand 10 = some (shifting (some 5)) ∧ own ∈ (six.col 2).waitList ∧
      (∀ y ∈ (six.col 2).waitList, y.kind = .lift → y.handover = 10 → y = own) ∧ 6 ≤ (six.col 2).waitList.length ∧
      ∀ cl ∈ (s.col 2).waitList, cl.kind = .lift → cl.handover ≠ 10) ∧
    ((∀ x ∈ s.hand 10, x.state ≠ .moving) ∧ (promises.hand 9).map (fun x => (x.state, x.column)) = some (.moving, some 2)) ∧
    (reports .lifted lift ∧ lift.hand 10 = some lifting ∧ lifting.state ≠ .closing ∧ matched .lift 10 .lift lift) ∧
    (Operation.shift 10).kind = .shift ∧
    (shifts (some 5) s ∧ ((outOf s).st.col 5).waitList.length < 6 ∧ ((outOf s).st.col 5).state ≠ .fenced) ∧
    (shifts (some 5) (fencedFor .supervisor 5 s) ∧ ((outOf (fencedFor .supervisor 5 s)).st.col 5).state = .fenced) ∧
    (shifts (some 5) (crowd 5 s) ∧ 6 ≤ ((outOf (crowd 5 s)).st.col 5).waitList.length ∧
      ((outOf (crowd 5 s)).st.col 5).state ≠ .fenced) ∧
    (shifts none lost ∧ (outOf lost).st.digTarget (shifting none) 2 2 = some 0) ∧
    (shifts none (noRoom lost) ∧ (outOf (noRoom lost)).st.digTarget (shifting none) 2 2 = none) := by
  and_intros <;> decide +kernel

theorem witness_ReleaseReversesTheGrant :
    let deposit := moves .deposit 10 .deposit landingDeposit
    let lift := moves .lift 10 .lift lifting
    let holding := moves .holding 10 .holding landingHeld
    (reports .release deposit ∧ deposit.hand 10 = some landingDeposit ∧ matched .deposit 10 .deposit deposit) ∧
    (reports .release lift ∧ lift.hand 10 = some lifting ∧ lifting.target = none ∧ matched .lift 10 .lift lift) ∧
    (let s := moves .lift 9 (.shift 10) (shifting none)
     reports .release s ∧ s.hand 10 = some (shifting none) ∧ matched .lift 9 (.shift 10) s) ∧
    (let s := moves .lift 9 (.shift 10) (shifting (some 5))
     reports .release s ∧ s.hand 10 = some (shifting (some 5)) ∧ matched .lift 9 (.shift 10) s) ∧
    (reports .release holding ∧ holding.hand 10 = some landingHeld ∧ matched .holding 10 .holding holding ∧
      (holding.col 2).waitList.length < 6) ∧
    (let s := crowd 2 holding
     reports .release s ∧ matched .holding 10 .holding s ∧ 6 ≤ (s.col 2).waitList.length ∧
       s.best landingHeld.due landingHeld.cls (s.movingSet 2 1) = some 0) ∧
    (let s := noRoom (crowd 2 holding)
     reports .release s ∧ matched .holding 10 .holding s ∧ 6 ≤ (s.col 2).waitList.length ∧
       s.best landingHeld.due landingHeld.cls (s.movingSet 2 1) = none) := by and_intros <;> decide +kernel

/-- A report of robot 6 on record 10 that is late. -/
abbrev late (k : RequestKind) (op : OpKind) (s : State) : Prop :=
  reports k s ∧ (s.hand 10).map (fun x => (x.state, x.doubt, x.column)) = some (.doubt, some ⟨op, ⟨2, 6⟩⟩, some 2) ∧
    s.noGrantTo ⟨2, 6⟩ 10

theorem witness_LateReportsSettleTheDoubt :
    let s := doubted .shift (shifting (some 5))
    let lost := doubted .shift (shifting none)
    late .landed .deposit (doubted .deposit landingDeposit) ∧ late .landed .holding (doubted .holding landingHeld) ∧
    late .lifted .lift (doubted .lift lifting) ∧
    (late .lifted .shift s ∧ ((outOf s).st.col 5).waitList.length < 6 ∧ ((outOf s).st.col 5).state ≠ .fenced) ∧
    (late .lifted .shift (fencedFor .supervisor 5 s) ∧
      ((outOf (fencedFor .supervisor 5 s)).st.col 5).state = .fenced) ∧
    (late .lifted .shift (crowd 5 s) ∧ 6 ≤ ((outOf (crowd 5 s)).st.col 5).waitList.length ∧
      ((outOf (crowd 5 s)).st.col 5).state ≠ .fenced) ∧
    (late .lifted .shift lost ∧ (outOf lost).st.digTarget (shifting none) 2 2 = some 0) ∧
    (late .lifted .shift (noRoom lost) ∧ (outOf (noRoom lost)).st.digTarget (shifting none) 2 2 = none) ∧
    late .release .deposit (doubted .deposit landingDeposit) ∧
    (late .release .lift (doubted .lift lifting) ∧ lifting.target = none) ∧ late .release .shift lost ∧
    (late .release .shift s ∧ (shifting (some 5)).target = some 5) ∧ late .release .holding (doubted .holding landingHeld) := by
  and_intros <;> decide +kernel

theorem witness_RegionRestartLetsGo :
    (ask P0 .regionRestart [1] base).offers P0 .regionRestart [1] ∧ base.regionOn 0 := by and_intros <;> decide +kernel

/-- A disabled port asks by number, by bin, for a column and for a group. -/
theorem witness_QueriesAnswerAndChangeNothing :
    let s := p2Off |> put 3 (bin .stored 70000 P0 1 (some 2)) |>
      put 4 { bin .closing 80000 P0 1 none with closing := some ⟨.delivered, 1⟩ }
    let byNumber (v : BinNo) : List Byte := 1 :: 0 :: put24 .lowFirst v
    let byBin (v : BinNo) : List Byte := 1 :: 1 :: put24 .lowFirst v
    (s.view P2).order = .lowFirst ∧
    ((ask P2 .queryHandover (byNumber 31) s).offers P2 .queryHandover (byNumber 31) ∧ (31 : BinNo).toNat = (31 : HNum).val) ∧
    ((ask P2 .queryHandover (byNumber 32) s).offers P2 .queryHandover (byNumber 32) ∧ 31 < (32 : BinNo).toNat) ∧
    (ask P2 .queryHandover (byBin 0) s).offers P2 .queryHandover (byBin 0) ∧
    ((ask P2 .queryHandover (byBin 70000) s).offers P2 .queryHandover (byBin 70000) ∧ s.holdsBin 3 70000 ∧
      ∀ k, k < 3 → ¬ s.holdsBin k 70000) ∧
    ((∀ k, ¬ s.holdsBin k 80000) ∧ (s.hand 4).map (·.bin) = some 80000 ∧
      ∀ k, k < 4 → ∀ x ∈ s.hand k, x.bin ≠ 80000) ∧
    (∀ k, ∀ x ∈ s.hand k, x.bin ≠ 9) ∧
    ((ask P2 .queryColumn [1, 7] s).offers P2 .queryColumn [1, 7] ∧ (7 : Byte).toNat = (s.view P2).toLocal 7) ∧
    ((ask P2 .queryError [1, 7] s).offers P2 .queryError [1, 7] ∧ (s.group 7).captured = none ∧
      ((s.captureLink P1 .overlong).group 1).captured.isSome = true) ∧ (7 : Byte) < 8 ∧ (1 : Byte) < 2 := by and_intros <;> decide +kernel

/-- A LIFT claim waits and one is granted, and a record MOVING has a follower. -/
theorem witness_QueriesAnswerAndChangeNothing_claims :
    let s := noticed |> waits 4 [claim 0 3 .holding 7 8] |>
      put 9 { bin .moving 9 P0 1 (some 4) with holder := some ⟨2, 3⟩, follower := some ⟨⟨1, 5⟩, 9⟩ }
    let b (h : HNum) : List Byte := 1 :: 0 :: put24 .lowFirst (BitVec.ofNat 24 h.val)
    (∀ h ∈ ([4, 5, 6, 7, 9] : List HNum), (ask P0 .queryHandover (b h) s).offers P0 .queryHandover (b h)) ∧
    (s.hand 9).bind (·.follower) = some ⟨⟨1, 5⟩, 9⟩ ∧ (s.hand 6).map (·.follower) = some none ∧
    s.recordClaimed 6 = false ∧ (∀ h ∈ ([4, 5, 7] : List HNum),
      (s.allClaims.filter fun cl => cl.handover == h).length = 1 ∧ (s.hand h).map (·.follower) = some none) ∧
    (s.col 4).waitList[0]? = some (claim 0 3 .holding 7 8) ∧
    (∀ c ∈ ([2, 3] : List ColIx), (s.col c).grant.isSome = true) ∧
    (ask P0 .queryColumn [1, 2] s).offers P0 .queryColumn [1, 2] ∧ (2 : Byte).toNat = (s.view P0).toLocal 2 ∧
      (s.col 2).stack ++ (s.col 2).inbound = [4, 11] ∧ ∀ h ∈ (s.col 2).stack ++ (s.col 2).inbound, s.hand h ≠ none := by
  and_intros <;> decide +kernel

theorem witness_QueryStatusGivesTheStatus :
    (ask P2 .queryStatus [1] p2Off).offers P2 .queryStatus [1] := by and_intros <;> decide +kernel

theorem witness_ClearErrorsEmptiesAGroup :
    (ask .ps .clearErrors [1, byte 7] base).offers .ps .clearErrors [1, byte 7] ∧
    ((ask P1 .clearErrors [1, byte 1] base).offers P1 .clearErrors [1, byte 1] ∧ base.regionOn 1) ∧
    (∀ i : Fin 8, i ≠ 7 → (base.group i).captured = none) ∧
    ((ask .ps .clearErrors [1, 8] base).offers .ps .clearErrors [1, 8] ∧ (7 : Byte) < 8) ∧
    (2 : Byte) ≠ byte (1 : Region).val ∧ (ask P1 .clearErrors [1, 2] base).offers P1 .clearErrors [1, 2] := by
  and_intros <;> decide +kernel

theorem witness_AlertFollowsTheCaptures :
    base.groups = (at_ 9 base).groups ∧ (∃ t, exec .powerOn base = .next t) ∧ (∃ t, exec .resetInput base = .next t) ∧
    (ask .ps .reinitialize [1] base).offers .ps .reinitialize [1] ∧
    ∃ t, exec (.reinitialize .ps) (ask .ps .reinitialize [1] base) = .next t :=
  ⟨rfl, ⟨_, rfl⟩, ⟨_, rfl⟩, by decide +kernel, ⟨_, rfl⟩⟩

theorem witness_ErrorsAndNoticesJoinOnce :
    let s := base.modPending P0 fun _ => [.load, .dismissed 3 7 0, .fence 2]
    (base.group 5).captured = none ∧ ((base.captureLink P1 .overlong).group 1).captured.isSome = true ∧
    ({ base with levels := Vector.replicate 14 0 }).level Notice.load.kind = 0 ∧
    (base.level (Notice.gauge 2).kind ≠ 0 ∧ ∀ m ∈ s.pendingSet P0, (Notice.gauge 2).same m = false) ∧
    s.pendingSet P0 = [.load] ++ .dismissed 3 7 0 :: [.fence 2] ∧
    (Notice.dismissed 3 8 1).same (.dismissed 3 7 0) = true := by and_intros <;> decide +kernel

theorem witness_ErrorsAndNoticesJoinOnce_distinct :
    (base.modPending P0 fun _ => [.load, .dismissed 3 7 0, .fence 2]).NoticesDistinct := by
  intro p
  unfold noticesDistinct
  cases p with
  | region r => revert r; decide +kernel
  | ps => decide +kernel

/-- The body of a CONFIGURE COLUMN of column 2. -/
def columnBody (en : Bool) (cls : BinClass) (depth : Byte) (reach : RegionSet) (g : GaugeMode) : List Byte :=
  [1, byte (2 : ColIx).val, flagCode en, cls.code, depth, reach.setWidth 8, g.code, flagCode true, flagCode true]

/-- The supervisor sends a CONFIGURE COLUMN. -/
abbrev configures (b : List Byte) : Prop := (ask .ps .configureColumn b base).offers .ps .configureColumn b

/-- Refused, disabling, changing the reach set, and changing into CHECK at reading 7. -/
theorem witness_ConfigureColumnChangesAllOrNone :
    let off := gauge .off 7 2 base
    ((base.col 2).cfg.enabled = true ∧ (base.col 2).state = .opened ∧ (base.col 2).stack = [] ∧
      (base.col 2).inbound = [] ∧ (base.col 2).waitList = []) ∧
    (configures (columnBody false .ambient 6 15 .check) ∧ configures (columnBody true .chilled 0 7 .watch)) ∧
    ((granted 2 (claim 0 6 .deposit 10 0) .deposit base).col 2).state = .granted ∧
    ((off.col 2).state = .opened ∧ (off.col 2).cfg.gaugeMode ≠ .check ∧ (off.col 2).reading = 7) ∧
    (configures [1, 2, 2, 0, 6, 15, 2, 1, 1] ∧ (1 : Byte) < 2) ∧
    (configures (1 :: 8 :: [0, 0, 6, 15, 2, 1, 1]) ∧ (7 : Byte) < 8) ∧ (15 : Byte) < 16 ∧ (2 : Byte) < 3 := by and_intros <;> decide +kernel

theorem witness_ConfigurePortAndLimits :
    let body (rot : Byte) : List Byte := [1, byte (2 : Region).val, flagCode true, rot, flagCode true, FieldOrder.highFirst.code]
    let limits : List Byte := 1 :: put16 .lowFirst 900 ++ [9, 8] ++ put16 .lowFirst 601 ++ [0, 4]
    let s := base |> put 3 (bin .stored 9 P2 0 (some 1))
    (ask .ps .configurePort (body 255) base).offers .ps .configurePort (body 255) ∧
    ¬ ((∃ c, ∃ cl ∈ (base.col c).waitList, cl.robot.port = 2) ∨ (∃ c, ∃ g ∈ (base.col c).grant, g.claim.robot.port = 2) ∨
      ∃ h, ∃ x ∈ base.hand h, x.origin = P2 ∨ x.dest = 2) ∧
    (∃ h, ∃ x ∈ s.hand h, x.origin = P2 ∨ x.dest = 2) ∧
    ({ enabled := true, rotation := 3, mirror := true, order := .highFirst } : PortConfig) ≠ base.ports[2] ∧
    ((ask .ps .configurePort [1, 2, 2, 0, 0, 0] base).offers .ps .configurePort [1, 2, 2, 0, 0, 0] ∧ (1 : Byte) < 2) ∧
    ((ask .ps .configurePort (1 :: 4 :: [0, 0, 0, 0]) base).offers .ps .configurePort (1 :: 4 :: [0, 0, 0, 0]) ∧
      (3 : Byte) < 4) ∧
    (ask .ps .configureLimits limits base).offers .ps .configureLimits limits ∧
    (ask P1 .configureLimits limits base).offers P1 .configureLimits limits := by
  and_intros <;> decide +kernel

theorem witness_ConfigurePortAndLimits_steps :
    (∃ t, exec .powerOn base = .next t) ∧ ∃ t, exec (.reinitialize .ps) (ask .ps .reinitialize [1] base) = .next t :=
  ⟨⟨_, rfl⟩, ⟨_, rfl⟩⟩

/-- Kinds 13 and 14, RESET, and DELIVERED at level 0 with a port told, one not told, and a record not CLOSING. -/
theorem witness_ConfigureNoticesSetsALevel :
    let s := base |> put 3 { bin .closing 9 P0 2 none with closing := some ⟨.delivered, 1⟩ } |>
      put 4 { bin .closing 10 P1 2 none with closing := some ⟨.delivered, 3⟩ } |> put 5 (bin .stored 11 P0 2 (some 1))
    let s := s.modPending P0 fun _ => [.delivered 3, .delivered 4]
    (∀ b ∈ ([0, 8, 13, 14] : List Byte), ∀ l ∈ ([0, 9] : List Byte),
      (ask .ps .configureNotices [1, b, l] s).offers .ps .configureNotices [1, b, l]) ∧
    (13 : Byte) < 14 ∧ NoticeKind.delivered ≠ .reset ∧ (8 : Byte) = byte NoticeKind.delivered.ix.val ∧
    ((1 : RegionSet) ≠ 0 ∧ ∀ r, RegionSet.has 1 r = true → ∃ i ∈ s.pendingSet (.region r),
      i.kind = .delivered ∧ i.subject = some (3 : HNum).val) ∧
    (∃ r, RegionSet.has 3 r = true ∧ ¬ ∃ i ∈ s.pendingSet (.region r),
      i.kind = .delivered ∧ i.subject = some (4 : HNum).val) ∧
    s.hand 6 = none ∧ (s.hand 5).bind (·.closing) = none := by and_intros <;> decide +kernel

theorem witness_LoadModeAndForce :
    (ask .ps .configureLoad [1, 36, 32, 44, 40, 3, 3] base).offers .ps .configureLoad [1, 36, 32, 44, 40, 3, 3] ∧
    ((ask .ps .setMode [1, 3, 4] base).offers .ps .setMode [1, 3, 4] ∧ (3 : Byte) = Mode.freeze.code) ∧
    ((3 : Byte) < 4 ∧ (ask .ps .setMode [1, 4, 4] base).offers .ps .setMode [1, 4, 4]) ∧
    (ask P1 .setMode [1, 3, 4] base).offers P1 .setMode [1, 3, 4] ∧
    (∀ sp ∈ ([0, 1, 2] : List Byte), ∀ act ∈ ([0, 1, 2, 3] : List Byte),
      (ask .ps .force [1, sp, act] base).offers .ps .force [1, sp, act]) ∧
    (2 : Byte) ≤ 2 ∧ (1 : Byte) < 2 ∧ (2 : Byte) < 3 := by and_intros <;> decide +kernel

theorem witness_FenceAndRestore :
    (∀ b ∈ ([2, 7, 8] : List Byte), (ask .ps .fence [1, b] base).offers .ps .fence [1, b] ∧
      (ask .ps .restore [1, b] base).offers .ps .restore [1, b]) ∧ (7 : Byte) < 8 ∧ (2 : Byte) = byte (2 : ColIx).val ∧
    (base.col 2).state = .opened ∧ ((is_ .settling 2 base).col 2).state = .settling ∧
    ((granted 2 (claim 0 6 .deposit 10 0) .deposit base).col 2).state = .granted ∧
    (State.reset.col 2).state = .unknown ∧ ((is_ .disabled 2 base).col 2).state = .disabled ∧
    ((amend79.col 3).state = .fenced ∧ (amend79.hand 9).map (fun x => (x.state, x.column)) = some (.doubt, some 3) ∧
      ∀ i, i < 9 → ∀ x ∈ amend79.hand i, ¬ (x.state = .doubt ∧ x.column = some 3)) ∧
    (let s := base |> gauge .check 4 2 |> fencedFor .gaugeMismatch 2
     (s.col 2).state = .fenced ∧ (∀ h, ∀ x ∈ s.hand h, ¬ (x.state = .doubt ∧ x.column = some 2)) ∧
       (s.col 2).cfg.gaugeMode = .check ∧ (s.col 2).reading.toNat ≠ (s.col 2).stack.length) ∧
    (let s := base |> gauge .check 0 2 |> fencedFor .supervisor 2
     (s.col 2).state = .fenced ∧ (∀ h, ∀ x ∈ s.hand h, ¬ (x.state = .doubt ∧ x.column = some 2)) ∧
       (s.col 2).reading.toNat = (s.col 2).stack.length) := by and_intros <;> decide +kernel

/-- One entry, as it is read. -/
def entry (b : BinNo) (dest : Region) : AmendEntry :=
  { bin := b, dest := dest, urgency := 3, heading := 0, dueIn := 4095, budget := 0 }

/-- The AMEND of column 2 that lists bins with their destinations, and its entries as they are read. -/
def listing (l : List (BinNo × Region)) : List Byte :=
  [1, 2, byte l.length] ++ l.flatMap fun x => entryBody x.1 x.2 3 0 4095 0
@[inherit_doc listing] def entries (l : List (BinNo × Region)) : List AmendEntry := l.map fun x => entry x.1 x.2

/-- An AMEND of column 2 with one entry. -/
abbrev oneEntry (b : BinNo) : List Byte := listing [(b, 1)]

/-- The record of column 2 that holds an entry's bin, and a record that is none of column 2 and holds it. -/
def ownOf (s : State) (e : AmendEntry) : Option Handover :=
  (((HNum.all.find? fun h => (s.hand h).any fun x => x.state != .closing && x.bin == e.bin).bind s.hand).filter
    fun x => x.column == some 2)
@[inherit_doc ownOf] def otherOf (s : State) (e : AmendEntry) : Option HNum :=
  if ownOf s e = none then HNum.all.find? fun h => (s.hand h).any fun x => x.state != .closing && x.bin == e.bin else none

/-- PS sends the AMEND of a list, and the tests before the state of the column, or that one too, let it through. -/
abbrev amends (s : State) (l : List (BinNo × Region)) : Prop :=
  (ask .ps .amend (listing l) s).offers .ps .amend (listing l) ∧ l.length ≤ (s.col 2).cfg.depth
@[inherit_doc amends] abbrev passes (s : State) (l : List (BinNo × Region)) : Prop :=
  amends s l ∧ (∀ e ∈ entries l, ∀ x ∈ ownOf s e, x.origin ≠ .region e.dest) ∧ (s.col 2).state = .fenced

/-- Column 2 is FENCED; the one device has bin 6 in column 1, another a record in DOUBT alone in a column of depth 1. -/
def fenced6 : State := base |> put 3 (bin .stored 6 P1 2 (some 1)) |> fencedFor .supervisor 2
@[inherit_doc fenced6] def tight : State :=
  (base |> put 3 { bin .doubt 5 P1 2 (some 2) with doubt := some ⟨.deposit, ⟨1, 4⟩⟩ } |> inbound 2 [3]).modCol 2 fun k =>
    { k with state := .fenced, cfg := { k.cfg with depth := 1 } }

/-- A column of no number, a long list; an entry that hands a bin to its origin; a column OPEN; a bin twice, a bin
elsewhere, both at once; no record, and no room beside a record in DOUBT. -/
theorem witness_AmendRefusals :
    ((0 : BinNo) = 0 ∧ (3 : Byte) < 4 ∧ (5 : BinNo) ≠ 0) ∧
    ((ask .ps .amend [1, 8, 0] base).offers .ps .amend [1, 8, 0] ∧ (7 : Byte) < 8 ∧
      ([] : List Byte).length = 10 * (0 : Byte).toNat) ∧
    ((ask .ps .amend (listing (List.replicate 7 (5, 1))) base).offers .ps .amend (listing (List.replicate 7 (5, 1))) ∧
      (base.col 2).cfg.depth < (7 : Byte).toNat) ∧
    (let s := base |> put 3 (bin .stored 5 P1 2 (some 2))
     amends s [(5, 1)] ∧ (ownOf s (entry 5 1)).map (·.origin) = some (.region (entry 5 1).dest)) ∧
    (amends base [(5, 1)] ∧ ownOf base (entry 5 1) = none ∧ (base.col 2).state ≠ .unknown ∧ (base.col 2).state ≠ .fenced) ∧
    (passes fenced6 [(5, 1), (5, 2)] ∧ (entries [(5, 1), (5, 2)])[0]?.map (·.bin) = some 5 ∧
      ∀ e ∈ entries [(5, 1), (5, 2)], otherOf fenced6 e = none) ∧
    (passes fenced6 [(6, 0)] ∧ otherOf fenced6 (entry 6 0) = some 3) ∧
    (passes fenced6 [(6, 0), (6, 0)] ∧ otherOf fenced6 (entry 6 0) = some 3) ∧
    (let s := fencedFor .supervisor 2 crowded
     passes s [(99, 1)] ∧ ownOf s (entry 99 1) = none ∧ otherOf s (entry 99 1) = none ∧ (s.col 2).stack = [] ∧
       ∀ h, (s.hand h).isSome = true) ∧
    passes tight [(99, 1)] ∧ ownOf tight (entry 99 1) = none ∧ otherOf tight (entry 99 1) = none ∧
      (∃ h, (tight.hand h).isNone = true) ∧ (tight.col 2).inbound = [3] ∧ (tight.col 2).cfg.depth = 1 ∧
      (tight.hand 3).map (fun x => (x.state, x.bin, x.column)) = some (.doubt, 5, some 2) := by
  and_intros <;> decide +kernel

theorem witness_AmendRefusals_entries :
    decodeEntries 1 0 ((oneEntry 5).drop 3) = .ok (entries [(5, 1)]) ∧
    decodeEntries 2 0 ((listing [(5, 1), (5, 2)]).drop 3) = .ok (entries [(5, 1), (5, 2)]) ∧
    decodeEntries 2 0 ((listing [(6, 0), (6, 0)]).drop 3) = .ok (entries [(6, 0), (6, 0)]) ∧
    decodeEntries 1 0 (List.replicate 10 0) = .error 0 ∧
    (List.replicate 10 (0 : Byte)).length = 10 ∧ decodeEntry (List.replicate 10 0) = none :=
  ⟨by rfl, by rfl, by rfl, by rfl, by decide, by rfl⟩

theorem witness_AmendReinventoriesAColumn :
    (let s := State.reset
     (s.col 2).state = .unknown ∧ (s.col 2).stack = [] ∧ (s.col 2).inbound = [] ∧
       (∀ i, ∀ y ∈ s.hand i, y.target ≠ some 2) ∧ (ask .ps .amend [1, byte 2, 0] s).offers .ps .amend [1, byte 2, 0] ∧
       (ask .ps .amend (oneEntry 5) s).offers .ps .amend (oneEntry 5) ∧ (5 : BinNo) ≠ 0 ∧ 1 ≤ (s.col 2).cfg.depth ∧
       (∀ i, ¬ s.holdsBin i 5) ∧ s.hand 0 = none ∧ ∀ i, i < 0 → s.hand i ≠ none) ∧
    (let s := base |> put 3 (bin .stored 5 P0 2 (some 2)) |> stack 2 [3] |> fencedFor .supervisor 2
     (s.col 2).state = .fenced ∧ (s.col 2).stack = [3] ∧ (s.col 2).inbound = [] ∧
       s.hand 3 = some (bin .stored 5 P0 2 (some 2)) ∧ (∀ i, ∀ y ∈ s.hand i, y.target ≠ some 2) ∧
       (ask .ps .amend (oneEntry 5) s).offers .ps .amend (oneEntry 5) ∧
       (bin .stored 5 P0 2 (some 2)).origin ≠ P1 ∧ (∀ i, s.holdsBin i 5 → i = 3) ∧
       (ask .ps .amend [1, byte 2, 0] s).offers .ps .amend [1, byte 2, 0]) := by and_intros <;> decide +kernel

theorem witness_ReinitializeForgetsTheBins :
    (ask .ps .reinitialize [1] amend79).offers .ps .reinitialize [1] := by and_intros <;> decide +kernel

theorem witness_TimePasses :
    let due := { base with advanceDue := true }
    (base.resetAsserted = false ∧ base.timeEventDue = false) ∧ due.timeEventDue = true ∧
    (due.advanceDue = true ∧ due.advanceEventDue = false) ∧ ({ base with trendDue := true }).trendDue = true := by
  and_intros <;> decide +kernel

/-- A column whose filter count has run out with candidate `r`. -/
def filtered (g : GaugeMode) (x : ColState) (r : Reading) : State :=
  (base |> gauge g 2 2 |> is_ x 2).modCol 2 fun k => { k with candidate := r, filterCount := some 0 }

/-- A column whose settle timer has run out at reading `r`. -/
def settled (g : GaugeMode) (r : Reading) : State :=
  (base |> gauge g r 2 |> is_ .settling 2).modCol 2 fun k => { k with settleTimer := some 0 }

theorem witness_GaugeChangesAndSettleExpiries :
    (∀ s ∈ [filtered .off .opened 3, filtered .watch .granted 3, filtered .watch .settling 0, filtered .watch .fenced 3,
        filtered .check .opened 7, filtered .check .settling 7, filtered .check .settling 3, filtered .check .granted 7],
      (s.col 2).filterCount = some 0 ∧ s.advanceEventDue = false) ∧
    (((filtered .watch .granted 3).col 2).reading < 3 ∧ ((filtered .watch .granted 3).col 2).cfg.rise = true) ∧
    (∀ s ∈ [settled .watch 0, settled .watch 1, settled .check 7, settled .check 6],
      (s.col 2).settleTimer = some 0 ∧ s.advanceEventDue = false) ∧
    ((settled .watch 0).col 2).reading.toNat = ((settled .watch 0).col 2).stack.length ∧
    ((settled .check 7).col 2).reading.toNat ≠ ((settled .check 7).col 2).stack.length := by and_intros <;> decide +kernel

theorem witness_GrantsAndBookingsTimeOut :
    (let s := base.modCol 3 fun k => { k with
        state := .granted
        grant := some { claim := claim 1 14 .deposit 9 0, op := .deposit, noticeSent := true, timer := some 0 } }
     (s.col 3).grant.bind (·.timer) = some 0 ∧ s.advanceEventDue = false) ∧
    (expiring39.hand 6).map (fun x => (x.state, x.bookingTimer, x.column)) = some (.booked, some 0, some 6) ∧
      expiring39.advanceEventDue = false := by and_intros <;> decide +kernel

theorem witness_ExposureDeadlines :
    let b : Budget := charging 250 65400 114 54
    ((wrap64 54).hand 10).bind (·.budget) = some b ∧ b.since ≠ none ∧ b.warnAt = some (wrap64 54).clock ∧
    b.expiryAt = some (wrap64 114).clock ∧ ((wrap64 54).hand 10).map (·.urgency) = some 3 ∧
    (∃ cl ∈ ((wrap64 54).col 0).waitList, cl.handover = 10) ∧
    (∀ d, d < 0 → ∀ cl ∈ ((wrap64 54).col d).waitList, cl.handover ≠ 10) ∧
    ∀ c, ∀ cl ∈ ((waits 0 [] (wrap64 54)).col c).waitList, cl.handover ≠ 10 := by and_intros <;> decide +kernel

/-- A step with nothing selected, one that is quiet, one that selects in a column that stays OPEN with a claim no gate lets
pass, and a column that is not OPEN. -/
theorem witness_SelectionsEndWithTheStep :
    let w : Work := { st := column53.setLoad { base.load with mode := .freeze }, sel := [2] }
    ((State.begin base).sel = [] ∧ (Work.mk base ColIx.all).st.quiet) ∧
    (w.sel ≠ [] ∧ 2 ∈ w.sel ∧ (∀ c d, ∀ a ∈ (w.st.col c).waitList, ∀ b ∈ (w.st.col d).waitList,
      a.handover = b.handover → c = d) ∧ (w.finish.col 2).state = .opened ∧ (w.finish.col 2).waitList ≠ []) ∧
    (State.reset.col 2).state ≠ .opened ∧ (3 : HNum) ∈ ((inbound 2 [3] base).col 2).inbound := by
  and_intros <;> decide +kernel

/-- The laws hold of the device of Table 6-3, which takes a step. -/
theorem witness_NoticesStayDistinct : landing63.NoticesDistinct ∧ ∃ t, step landing63 = .next t := by
  refine ⟨fun p => ?_, ⟨_, rfl⟩⟩
  unfold noticesDistinct
  cases p with
  | region r => revert r; decide +kernel
  | ps => decide +kernel

theorem witness_NoticesStayDistinct_reset :
    (∀ p, State.reset.AwaitsReset p) ∧ (∀ p, (after .resetInput base).AwaitsReset p) ∧
    State.reset.resetAsserted = false ∧ (after .resetInput base).resetAsserted = true ∧
    State.reset.pending.head? ≠ some (.sendNotice P1) ∧ ∃ t, step State.reset = .next t := by
  have ports : ∀ r : Region, State.reset.link (.region r) = LinkUnit.initial ∧
      (State.reset.pendingSet (.region r)).head? = some .reset := by decide +kernel
  have ps : State.reset.link .ps = LinkUnit.initial ∧ (State.reset.pendingSet .ps).head? = some .reset := by
    decide +kernel
  have level : State.reset.level .reset = 7 ∧ ∀ k : NoticeKind, State.reset.level k ≤ 7 :=
    ⟨by decide +kernel, fun k => by cases k <;> decide +kernel⟩
  have key (b : Bool) (p : Port) : ({ State.reset with resetAsserted := b }).AwaitsReset p := by
    cases p with
    | region r => exact ⟨(ports r).1, (ports r).2, level⟩
    | ps => exact ⟨ps.1, ps.2, level⟩
  exact ⟨key false, key true, by decide +kernel, by decide +kernel, by decide +kernel, ⟨_, rfl⟩⟩

theorem witness_ColumnsKeepTheirLaws : landing63.ColumnsControlled ∧ landing63.ColumnsOrdered :=
  ⟨fun c => ⟨by revert c; decide +kernel, by revert c; decide +kernel, by revert c; decide +kernel,
      by revert c; decide +kernel, by revert c; decide +kernel⟩,
    fun c => ⟨by revert c; decide +kernel, by revert c; decide +kernel⟩⟩

/-- The device of Table 6-3 with a record in the stack and one in DOUBT in column 3, and an AMEND of that column. -/
def account : State :=
  landing63 |> put 9 { bin .doubt 5003 P1 0 (some 3) with doubt := some ⟨.deposit, ⟨1, 14⟩⟩ } |> inbound 3 [9] |>
    put 2 (bin .stored 5001 P0 2 (some 3)) |> stack 3 [2] |> fencedFor .grantTimeout 3 |>
    ask .ps .amend (1 :: byte 3 :: 2 :: (entryBody 5003 0 4 2 600 400 ++ entryBody 5004 1 2 1 4095 0))

theorem account_claims : account.allClaims = [claim 0 6 .deposit 10 0] := by decide +kernel

theorem account_followers (rb : Robot) : account.followersOf rb = 0 := by
  have none : ∀ h, ∀ x ∈ account.hand h, x.follower = none := by decide +kernel
  unfold State.followersOf
  rw [List.length_eq_zero_iff, List.filter_eq_nil_iff]
  intro h _ e
  cases hx : account.hand h with
  | none => simp [hx] at e
  | some x => simp [hx, none h x hx] at e

theorem account_laws : account.Accounted where
  controlled := fun c => ⟨by revert c; decide +kernel, by revert c; decide +kernel, by revert c; decide +kernel,
    by revert c; decide +kernel, by revert c; decide +kernel⟩
  ordered := fun c => ⟨by revert c; decide +kernel, by revert c; decide +kernel⟩
  records :=
    { fits := by
        have key : ∀ h, ∀ x ∈ account.hand h,
            ((x.doubt.isSome = true ↔ x.state = .doubt) ∧ (x.closing.isSome = true ↔ x.state = .closing) ∧
              (x.bookingTimer.isSome = true ↔ x.state = .booked) ∧ (x.column.isSome = true ↔ x.state ≠ .closing)) ∧
            (x.target.isSome = true → x.shifted = true ∧ x.target ≠ x.column) ∧
            (x.state = .moving → x.holder.isSome = true) ∧
            (x.holder.isSome = true → x.state = .moving ∨ x.state = .landing ∨ x.state = .doubt) ∧
            (∀ d ∈ x.doubt, x.holder = if d.op = .holding then some d.robot else none) ∧
            (x.follower.isSome = true → x.holder.isSome = true) := by decide +kernel
        intro h x hx
        obtain ⟨⟨a, b, c, d⟩, e, f, g, i, j⟩ := key h x hx
        exact ⟨a, b, c, d, e, f, g, i, j⟩
      once := by decide +kernel
      stack := by decide +kernel
      inbound := by decide +kernel
      bins := by decide +kernel }
  columns :=
    { room := by decide +kernel
      waits := by decide +kernel
      empty := by decide +kernel
      fenced := by decide +kernel
      doubt := by decide +kernel }
  claims :=
    { waiting := by decide +kernel
      grant := by decide +kernel
      granted := by decide +kernel
      record := by decide +kernel
      region := fun rb => by
        rw [account_claims, account_followers]
        exact List.length_filter_le _ _ }

theorem witness_RecordsStandWhereTheyBelong :
    account.Accounted ∧ account.DoubtedRobotsWait ∧ account.RobotsClaimOnce ∧ ∃ t, step account = .next t := by
  refine ⟨account_laws, ?_, fun rb => ?_, ⟨_, rfl⟩⟩
  · unfold State.DoubtedRobotsWait; decide +kernel
  · rw [account_claims, account_followers]
    exact List.length_filter_le _ _

/-- The entries of the AMEND of `account`, as they are read. -/
def accountEntries : List AmendEntry :=
  [{ bin := 5003, dest := 0, urgency := 4, heading := 2, dueIn := 600, budget := 400 },
   { bin := 5004, dest := 1, urgency := 2, heading := 1, dueIn := 4095, budget := 0 }]

/-- A listed record in DOUBT, a stack record that is not listed, and a bin that no record holds. -/
theorem witness_AmendReinventoriesAColumn_list :
    let rest := entryBody 5003 0 4 2 600 400 ++ entryBody 5004 1 2 1 4095 0
    account.offers .ps .amend (1 :: byte 3 :: 2 :: rest) ∧ rest.length = 10 * (2 : Byte).toNat ∧
    (2 : Byte).toNat ≤ (account.col 3).cfg.depth ∧ (account.col 3).state = .fenced ∧
    accountEntries.Pairwise (fun a b => a.bin ≠ b.bin) ∧
    (∀ e ∈ accountEntries, ∀ h, ∀ x ∈ account.hand h, x.state ≠ .closing → x.bin = e.bin →
      x.column = some 3 ∧ x.origin ≠ .region e.dest) ∧
    1 ≤ (HNum.all.filter fun h => (account.hand h).isNone).length ∧
    accountEntries.length + 0 ≤ (account.col 3).cfg.depth := by and_intros <;> decide +kernel

theorem witness_AmendReinventoriesAColumn_entries :
    decodeEntries (2 : Byte).toNat 0 (entryBody 5003 0 4 2 600 400 ++ entryBody 5004 1 2 1 4095 0) =
      .ok accountEntries := by rfl

/-- Listed and not listed; a target held and none; a follower to the entry's destination and to another; a doubt from a
deposit and from a holding landing; a bin with a record and one without. -/
theorem witness_AmendSettlesEachRecord :
    let held : Handover := { bin .doubt 7 P0 1 (some 3) with
      doubt := some ⟨.holding, ⟨2, 6⟩⟩, holder := some ⟨2, 6⟩, follower := some ⟨⟨1, 4⟩, 8⟩ }
    let s := account |> put 11 held |> put 12 { bin .doubt 8 P0 1 (some 3) with
      doubt := some ⟨.shift, ⟨2, 6⟩⟩, target := some 4 }
    let find (es : List AmendEntry) (b : BinNo) : Option AmendEntry := es.find? fun e => e.bin == b
    s.hand 11 = some held ∧ (s.hand 12).bind (·.target) = some 4 ∧ (s.hand 2).map (·.target) = some none ∧
    find [entry 7 1] 7 = some (entry 7 1) ∧ find accountEntries 7 = none ∧ find accountEntries 5001 = none ∧
    (find accountEntries 5003).map (·.dest) = some 0 ∧ (s.hand 9).map (·.follower) = some none ∧
    (⟨1, 4⟩ : Robot).port = (entry 7 1).dest ∧ (⟨1, 4⟩ : Robot).port ≠ (entry 7 2).dest ∧
    (s.hand 9).bind (·.doubt) = some ⟨.deposit, ⟨1, 14⟩⟩ ∧ held.doubt.map (·.op) = some .holding ∧
    (s.ownHolder 3 5003 = some 9 ∧ s.holdsBin 9 5003 ∧ ∀ i, i < 9 → ¬ s.holdsBin i 5003) ∧
    s.ownHolder 3 5004 = none ∧ s.hand 0 = none ∧ ∀ i, i < 0 → s.hand i ≠ none := by and_intros <;> decide +kernel

theorem witness_QuantitiesStayInRange_records : landing63.RecordsInRange := by
  intro h r hr
  have key : ∀ h, ∀ r ∈ landing63.hand h, (1 ≤ r.urgency ∧ r.urgency ≤ 7) ∧ ∀ b ∈ r.budget, b.remaining ≤ 3600 := by
    decide +kernel
  exact ⟨(key h r hr).1, (key h r hr).2⟩

theorem witness_QuantitiesStayInRange_links : landing63.LinksWithinRoom := by
  intro p
  cases p with
  | region r => exact ⟨by revert r; decide +kernel, by revert r; decide +kernel, by revert r; decide +kernel⟩
  | ps => exact ⟨by decide +kernel, by decide +kernel, by decide +kernel⟩

theorem witness_QuantitiesStayInRange_turns : landing63.LinksTakeTurns := by
  have ports : ∀ r : Region, landing63.link (.region r) = { LinkUnit.initial with prepared := false } := by
    decide +kernel
  have ps : landing63.link .ps = { LinkUnit.initial with prepared := false } := by decide +kernel
  intro p
  cases p with
  | region r => rw [ports r]; constructor <;> simp [LinkUnit.initial]
  | ps => rw [ps]; constructor <;> simp [LinkUnit.initial]

theorem witness_QuantitiesStayInRange_config : landing63.ConfigInRange where
  limits := ⟨by decide, by decide, by decide, by decide, by decide, by decide⟩
  load := ⟨by decide, ⟨by decide, by decide⟩, ⟨by decide, by decide⟩, by decide, by decide⟩
  depth := by decide +kernel
  levels := fun k => by cases k <;> decide +kernel
  reset := by decide +kernel
  ticks := by decide +kernel

theorem witness_RecordsGoOn :
    (∀ p, Instr.fence .ps ≠ .book p) ∧ (∀ p, Instr.fence .ps ≠ .amend p) ∧ ∃ t, exec (.fence .ps) fence28 = .next t :=
  ⟨fun _ => Instr.noConfusion, fun _ => Instr.noConfusion, ⟨_, rfl⟩⟩

theorem witness_FirstCaptureStands :
    (∀ p, Instr.setMode .ps ≠ .clearErrors p) ∧ Instr.setMode .ps ≠ .powerOn ∧ Instr.setMode .ps ≠ .resetInput ∧
      ∃ t, exec (.setMode .ps) (base.captureLink P1 .overlong) = .next t :=
  ⟨fun _ => Instr.noConfusion, Instr.noConfusion, Instr.noConfusion, ⟨_, rfl⟩⟩

end Sys2Proof.Tests
end

