-- ==== Sys2Proof/Proofs/DueOrder.lean ====
section
/-! The order of dues (R59): the pending case as a difference modulo 65536, and why two distinct pending dues that both
lie at most 4094 s ahead of the clock (R57) are ordered one way and not the other. -/
namespace Sys2Proof.Machine

/-- R59, the PENDING/PENDING row of its table. -/
theorem Due.earlier_pending_iff (a b : Seconds) :
    (Due.pending a).earlier (.pending b) = true ↔ 1 ≤ (b - a).toNat ∧ (b - a).toNat ≤ 32767 := by
  simp only [Due.earlier, Bool.and_eq_true, decide_eq_true_eq]

@[simp] theorem Due.earlier_pending_self (a : Seconds) : (Due.pending a).earlier (.pending a) = false := by
  rw [← Bool.not_eq_true, Due.earlier_pending_iff, BitVec.sub_self]
  decide

@[simp] theorem Due.earlier_unknown_left (b : Due) : Due.unknown.earlier b = false := by
  cases b <;> rfl

/-- Going round the clock from one reading to another and on to the first again takes one full turn. -/
theorem toNat_sub_add_toNat_sub_of_ne {a b : Seconds} (hne : a ≠ b) : (b - a).toNat + (a - b).toNat = 65536 := by
  have hval : a.toNat ≠ b.toNat := fun h => hne (BitVec.eq_of_toNat_eq h)
  rw [BitVec.toNat_sub, BitVec.toNat_sub]
  omega

/-- Only dues half a turn apart escape the order: any two other distinct pending dues are ordered exactly one way. -/
theorem Due.earlier_pending_eq_not {a b : Seconds} (hne : a ≠ b) (hhalf : (b - a).toNat ≠ 32768) :
    (Due.pending a).earlier (.pending b) = !(Due.pending b).earlier (.pending a) := by
  have hturn := toNat_sub_add_toNat_sub_of_ne hne
  rw [Bool.eq_not, ne_eq, Bool.eq_iff_iff, Due.earlier_pending_iff, Due.earlier_pending_iff]
  omega

/-- Two readings at most 4094 s ahead of the clock are at most 4093 s apart, on one side or the other (R57). -/
theorem toNat_sub_near_of_ahead {now a b : Seconds} (ha : 1 ≤ (a - now).toNat) (ha' : (a - now).toNat ≤ 4094)
    (hb : 1 ≤ (b - now).toNat) (hb' : (b - now).toNat ≤ 4094) :
    (b - a).toNat ≤ 4093 ∨ 65536 - 4093 ≤ (b - a).toNat := by
  have hdiff : b - a = (b - now) - (a - now) := by rw [sub_sub_sub_cancel_right]
  rw [hdiff, BitVec.toNat_sub]
  omega

/-- Settles O16: the rows of R59's table, and for two dues within 4093 s of each other the exclusion of the half turn,
the one distance at which neither would be the earlier. -/
theorem dueOrder : Obligations.DueOrder := by
  unfold Obligations.DueOrder
  refine ⟨fun _ => ⟨rfl, rfl, rfl⟩, rfl, rfl, Due.earlier_unknown_left, Due.earlier_pending_iff,
    Due.earlier_pending_self, fun now a b ha ha' hb hb' hne => ?_⟩
  have hnear := toNat_sub_near_of_ahead ha ha' hb hb'
  have hhalf : (b - a).toNat ≠ 32768 := by omega
  exact Due.earlier_pending_eq_not hne hhalf

end Sys2Proof.Machine
end

