-- ==== Sys2Proof/Proofs/Status.lean ====
section
/-! QUERY STATUS (R146): what the byte of captured groups says of ALERT (R161), and the answer of the owner. -/
namespace Sys2Proof.Machine

/-! ### The byte of captured groups -/

/-- The bit of one error group in item 8 of R146: set while the group holds a capture. -/
def ErrorGroup.capturedBit (x : ErrorGroup) (g : Fin 8) : Byte :=
  if x.captured.isSome then BitVec.twoPow 8 g.val else 0

theorem twoPow_eq_byte (g : Fin 8) : BitVec.twoPow 8 g.val = byte (2 ^ g.val) := by
  revert g; decide

theorem ErrorGroup.capturedBit_eq_zero_iff (x : ErrorGroup) (g : Fin 8) :
    x.capturedBit g = 0 ↔ x.captured.isSome = false := by
  have hbit : BitVec.twoPow 8 g.val ≠ 0 := by revert g; decide
  unfold ErrorGroup.capturedBit
  cases x.captured.isSome with
  | false => simp only [Bool.false_eq_true, ↓reduceIte]
  | true => simp only [↓reduceIte, hbit, Bool.true_eq_false]

theorem State.capturedByte_eq_foldl (s : State) :
    s.capturedByte = (List.finRange 8).foldl (fun b g => b ||| (s.group g).capturedBit g) 0 := by
  simp only [State.capturedByte, ErrorGroup.capturedBit, twoPow_eq_byte, List.foldl_map]

/-- Bytes put together by OR give 0 only when each of them is 0. -/
theorem foldl_or_eq_zero_iff {α : Type} (f : α → Byte) (l : List α) (b : Byte) :
    l.foldl (fun b x => b ||| f x) b = 0 ↔ b = 0 ∧ ∀ x ∈ l, f x = 0 := by
  induction l generalizing b with
  | nil => simp
  | cons x l ih =>
    have hor : b ||| f x = 0 ↔ b = 0 ∧ f x = 0 := BitVec.or_eq_zero_iff
    rw [List.foldl_cons, ih, hor, List.forall_mem_cons, and_assoc]

/-- ALERT is released exactly while every group is empty (R161). -/
theorem State.alert_eq_false_iff (s : State) : s.alert = false ↔ ∀ g, (s.group g).captured.isSome = false := by
  simp [State.alert, State.group, Fin.forall_iff, Vector.any_eq_false]

/-- The IX48 reports ALERT by item 8 of R146. -/
theorem State.capturedByte_ne_zero_iff_alert (s : State) : s.capturedByte ≠ 0 ↔ s.alert = true := by
  have hempty : s.capturedByte = 0 ↔ s.alert = false := by
    rw [State.capturedByte_eq_foldl, foldl_or_eq_zero_iff, State.alert_eq_false_iff]
    simp only [ErrorGroup.capturedBit_eq_zero_iff, List.mem_finRange, true_and, forall_const]
  rw [ne_eq, hempty, Bool.not_eq_false]

/-! ### The answer -/

theorem State.statusData_dropRequest (s : State) (p : Port) (o : FieldOrder) :
    (s.dropRequest p).statusData o = s.statusData o := rfl

/-- QUERY STATUS passes every stage of R141 from any port, a disabled region port included (R146). -/
theorem exec_queryStatus_offered {s : State} {p : Port} {n : Byte} (h : s.offers p .queryStatus [n]) :
    exec (.queryStatus p) s =
      .next ((s.dropRequest p).answered p .queryStatus [n] .ok (s.statusData (s.view p).order)) := by
  have howner : s.takeRequest .queryStatus p (queryStatusOwner p) =
      (queryStatusOwner p [n] (s.dropRequest p)).answer p { kind := RequestKind.queryStatus.code, body := [n] } :=
    State.takeRequest_owner h _ rfl rfl (.inr rfl)
  calc exec (.queryStatus p) s
    _ = .next (s.takeRequest .queryStatus p (queryStatusOwner p)) := rfl
    _ = _ := by
      rw [howner, queryStatusOwner, State.refuse_answer, State.view_dropRequest, State.statusData_dropRequest,
        State.answered]

/-- Settles O36: the owner's data are the eight items of R146 in their order, and the last is 0 only when no group holds
a capture. -/
theorem queryStatusGivesTheStatus : Obligations.QueryStatusGivesTheStatus := by
  unfold Obligations.QueryStatusGivesTheStatus
  intro s p n h o l flag setpoint captured
  have hcaptured : captured = s.capturedByte := s.capturedByte_eq_foldl.symm
  refine ⟨?_, hcaptured ▸ s.capturedByte_ne_zero_iff_alert⟩
  rw [exec_queryStatus_offered h, hcaptured]
  simp only [State.statusData, LoadMonitor.gateBytes, Setpoint.bytes, Limits.bytes, putNat16, List.append_assoc,
    List.cons_append, List.nil_append]
  rfl

end Sys2Proof.Machine
end

