-- ==== Sys2Proof/Proofs/Alert.lean ====
section
/-! ALERT (R161): it follows the captures alone, so a capture asserts it, power-on and the RESET input release it, and
REINITIALIZE, which leaves no claim to grant, keeps it with its groups. -/
namespace Sys2Proof.Machine

/-! ### ALERT and the groups -/

theorem State.alert_iff (s : State) : s.alert = true ↔ ∃ g, (s.group g).captured ≠ none := by
  rw [← Bool.not_eq_false, State.alert_eq_false_iff, not_forall]
  simp only [Option.isSome_eq_false_iff, Option.isNone_iff_eq_none, ne_eq]

theorem State.alert_congr {s t : State} (h : s.groups = t.groups) : s.alert = t.alert := by
  unfold State.alert
  rw [h]

/-- Every group is clear at reset (R158). -/
theorem State.alert_eq_false_of_groups_reset {s : State} (h : s.groups = State.reset.groups) : s.alert = false := by
  rw [State.alert_congr h]
  decide

/-! ### One flag for each group -/

/-- A bit of bytes put together by OR is set when it is set in one of them. -/
theorem getLsbD_foldl_or {α : Type} (f : α → Byte) (i : Nat) (l : List α) (b : Byte) :
    (l.foldl (fun b x => b ||| f x) b).getLsbD i = (b.getLsbD i || l.any fun x => (f x).getLsbD i) := by
  induction l generalizing b with
  | nil => simp only [List.foldl_nil, List.any_nil, Bool.or_false]
  | cons x l ih => rw [List.foldl_cons, ih, BitVec.getLsbD_or, List.any_cons, Bool.or_assoc]

theorem ErrorGroup.getLsbD_capturedBit (x : ErrorGroup) (g i : Fin 8) :
    (x.capturedBit g).getLsbD i.val = (x.captured.isSome && decide (g = i)) := by
  have hbit : (BitVec.twoPow 8 g.val).getLsbD i.val = decide (g = i) := by revert g i; decide
  unfold ErrorGroup.capturedBit
  cases x.captured.isSome with
  | false => simp only [Bool.false_eq_true, ↓reduceIte, BitVec.ofNat_eq_ofNat, BitVec.getLsbD_zero, Bool.false_and]
  | true => simp only [↓reduceIte, hbit, Bool.true_and]

theorem State.getLsbD_capturedByte (s : State) (g : Fin 8) :
    s.capturedByte.getLsbD g.val = (s.group g).captured.isSome := by
  rw [State.capturedByte_eq_foldl, getLsbD_foldl_or, Bool.eq_iff_iff]
  simp only [ErrorGroup.getLsbD_capturedBit, BitVec.ofNat_eq_ofNat, BitVec.getLsbD_zero, Bool.false_or,
    List.any_eq_true, List.mem_finRange, true_and, Bool.and_eq_true, decide_eq_true_eq, exists_eq_right]

/-! ### Posting and the Load Monitor leave the columns and the groups -/

/-- A post changes the pending sets alone (R150). -/
theorem State.post_eq_with_pendingSets (s : State) (p : Port) (n : Notice) :
    ∃ sets, s.post p n = { s with pendingSets := sets } := by
  unfold State.post
  split
  · exact ⟨s.pendingSets, rfl⟩
  · exact ⟨_, rfl⟩

theorem State.postAll_eq_with_pendingSets (s : State) (ports : List Port) (n : Notice) :
    ∃ sets, s.postAll ports n = { s with pendingSets := sets } := by
  induction ports generalizing s with
  | nil => exact ⟨s.pendingSets, rfl⟩
  | cons p ports ih =>
    obtain ⟨first, hfirst⟩ := s.post_eq_with_pendingSets p n
    obtain ⟨sets, hsets⟩ := ih (s.post p n)
    refine ⟨sets, ?_⟩
    calc s.postAll (p :: ports) n
      _ = (s.post p n).postAll ports n := rfl
      _ = { s with pendingSets := sets } := by rw [hsets, hfirst]

/-- What the Load Monitor does to the state: its own block and, when it posts LOAD, the pending sets (R135). -/
theorem Work.setLoad_st_eq_with_load_pendingSets (w : Work) (l : LoadMonitor) :
    ∃ sets, (w.setLoad l).st = { w.st with load := l, pendingSets := sets } := by
  obtain ⟨sets, hsets⟩ := (w.st.setLoad l).postAll_eq_with_pendingSets (w.st.setLoad l).enabledRegions .load
  unfold Work.setLoad
  simp only
  split <;> split
  · exact ⟨sets, hsets⟩
  · exact ⟨w.st.pendingSets, rfl⟩
  · exact ⟨sets, hsets⟩
  · exact ⟨w.st.pendingSets, rfl⟩

@[simp] theorem State.groups_post (s : State) (p : Port) (n : Notice) : (s.post p n).groups = s.groups := by
  obtain ⟨sets, hsets⟩ := s.post_eq_with_pendingSets p n
  rw [hsets]

@[simp] theorem Work.groups_handOccupancy (w : Work) : w.handOccupancy.st.groups = w.st.groups := by
  obtain ⟨sets, hsets⟩ := w.setLoad_st_eq_with_load_pendingSets (w.st.load.judge w.st.occupancy)
  rw [Work.handOccupancy, hsets]

@[simp] theorem Work.columns_handOccupancy (w : Work) : w.handOccupancy.st.columns = w.st.columns := by
  obtain ⟨sets, hsets⟩ := w.setLoad_st_eq_with_load_pendingSets (w.st.load.judge w.st.occupancy)
  rw [Work.handOccupancy, hsets]

/-! ### A capture -/

/-- Whether it is the first or a further one, an error leaves its group captured (R159). -/
theorem State.group_capture_captured_ne_none (s : State) (g : Fin 8) (e : Capture) :
    ((s.capture g e).group g).captured ≠ none := by
  unfold State.capture
  split
  next hclear =>
    have hgroup : ((s.modGroup g fun _ => { captured := some e, multi := false }).post .ps (.error g)).group g =
        { captured := some e, multi := false } := by
      rw [State.group, State.groups_post, ← State.group, State.group_modGroup, if_pos rfl]
    rw [hgroup]
    exact Option.some_ne_none e
  next first hfirst =>
    rw [State.group_modGroup, if_pos rfl, hfirst]
    exact Option.some_ne_none first

/-! ### REINITIALIZE leaves no selection to make -/

/-- A column without a claim grants nothing (R74). -/
theorem Work.select_of_waitList_nil {w : Work} {c : ColIx} (h : (w.st.col c).waitList = []) : w.select c = w := by
  unfold Work.select
  simp only
  rw [if_neg fun ⟨_, hwait⟩ => hwait h]

theorem Work.round_of_waitLists_nil {w : Work} (h : ∀ c, (w.st.col c).waitList = []) :
    w.round = { w with sel := [] } := by
  unfold Work.round
  refine List.foldl_fixed' (fun c => ?_) ColIx.all
  have hselect : ({ w with sel := [] } : Work).select c = { w with sel := [] } := Work.select_of_waitList_nil (h c)
  rw [hselect, ite_self]

/-- A step that leaves every wait list empty ends as it stands, whatever selections it started. -/
theorem Work.finish_of_waitLists_nil {w : Work} (h : ∀ c, (w.st.col c).waitList = []) : w.finish = w.st := by
  unfold Work.finish Work.rounds
  split
  · rfl
  · rw [Work.round_of_waitLists_nil h, Work.rounds_nil 8 rfl]

theorem State.waitList_forget (s : State) (c : ColIx) : (s.forget.col c).waitList = [] := by
  simp [State.forget, State.col, Column.reinitialized]

/-- REINITIALIZE from PS passes every stage of R141; its owner forgets the bins and hands the occupancy of 0 to the Load
Monitor (R122), and no selection is made after it. -/
theorem exec_reinitialize_offered {s : State} {n : Byte} (h : s.offers .ps .reinitialize [n]) :
    exec (.reinitialize .ps) s =
      .next ((s.dropRequest .ps).forget.begin.handOccupancy.st.answered .ps .reinitialize [n] .ok []) := by
  have howner : s.takeRequest .reinitialize .ps reinitializeOwner =
      (reinitializeOwner [n] (s.dropRequest .ps)).answer .ps { kind := RequestKind.reinitialize.code, body := [n] } :=
    State.takeRequest_owner h _ rfl rfl (.inl rfl)
  have hwait (c : ColIx) : ((s.dropRequest .ps).forget.begin.handOccupancy.st.col c).waitList = [] := by
    rw [State.col, Work.columns_handOccupancy]
    exact State.waitList_forget _ c
  calc exec (.reinitialize .ps) s
    _ = .next (s.takeRequest .reinitialize .ps reinitializeOwner) := rfl
    _ = _ := by rw [howner, Reply.answer, reinitializeOwner, Work.finish_of_waitLists_nil hwait, State.answered]

/-- REINITIALIZE keeps every group with its flags and its record (R158). -/
theorem groups_of_exec_reinitialize {s t : State} {n : Byte} (h : s.offers .ps .reinitialize [n])
    (ht : exec (.reinitialize .ps) s = .next t) : t.groups = s.groups := by
  rw [exec_reinitialize_offered h] at ht
  cases ht
  calc ((s.dropRequest .ps).forget.begin.handOccupancy.st.answered .ps .reinitialize [n] .ok []).groups
    _ = (s.dropRequest .ps).forget.begin.handOccupancy.st.groups := rfl
    _ = (s.dropRequest .ps).forget.groups := Work.groups_handOccupancy _
    _ = s.groups := rfl

/-! ### The obligation -/

theorem groups_of_exec_powerOn_or_resetInput {s t : State}
    (h : exec .powerOn s = .next t ∨ exec .resetInput s = .next t) : t.groups = State.reset.groups := by
  rcases h with h | h <;> cases h <;> rfl

/-- Settles O38: ALERT is a function of the groups, and each clause says what its step does to them. -/
theorem alertFollowsTheCaptures : Obligations.AlertFollowsTheCaptures := by
  unfold Obligations.AlertFollowsTheCaptures
  refine ⟨State.alert_iff, fun s t => State.alert_congr, State.getLsbD_capturedByte, ?capture, ?reset, ?reinitialize⟩
  case capture => exact fun s g e => (State.alert_iff _).2 ⟨g, s.group_capture_captured_ne_none g e⟩
  case reset => exact fun s t h => State.alert_eq_false_of_groups_reset (groups_of_exec_powerOn_or_resetInput h)
  case reinitialize => exact fun s t n h ht => State.alert_congr (groups_of_exec_reinitialize h ht)

end Sys2Proof.Machine
end

