-- ==== Sys2Proof/Proofs/AllCommands.lean ====
section
/-! What execution can do, for every relation closed under all of the part's updates: the commands that configure, tick,
make or forget, each by the one update it has beyond `ClosedAll`, and then every command and every step. -/
namespace Sys2Proof.Machine

variable {R : State → State → Prop}

/-- A relation that holds across the updates of configuration, clock and REINITIALIZE, which are none of the core's. -/
structure ClosedConfig (R : State → State → Prop) : Prop where
  config : ∀ s c (new : ColumnConfig), 2 ≤ new.depth → new.depth ≤ 6 → R s (s.modCol c fun k => k.reconfigured new)
  port : ∀ s r f, R s (s.setPort r f)
  limits : ∀ s (l : Limits), l.InRange → R s (s.setLimits l)
  levels : ∀ s (l : LoadMonitor), (s.load.InRange → l.InRange) → R s (s.setLoad l)
  level : ∀ s (k : NoticeKind) n, k ≠ .reset → n ≤ 7 → R s (s.setLevel k n)
  tick : ∀ s g, R s (s.tick g)
  advance : ∀ s : State, R s s.advance
  sampled : ∀ s : State, R s { s with trendDue := false }
  forget : ∀ s : State, R s s.forget
  release : ∀ s : State, R s { s with resetAsserted := false }

/-! ### Ranges of what a request carries -/

theorem clamp_bounds {lo hi : Nat} (h : lo ≤ hi) (n : Nat) : lo ≤ clamp lo hi n ∧ clamp lo hi n ≤ hi := by
  unfold clamp
  split
  · exact ⟨le_refl _, h⟩
  · split <;> omega

theorem decodeLimits_inRange {o : FieldOrder} {body : List Byte} {l : Limits} (h : decodeLimits o body = some l) :
    l.InRange := by
  unfold decodeLimits at h
  split at h
  · cases h
    exact ⟨clamp_bounds (by omega) _, clamp_bounds (by omega) _, (clamp_bounds (lo := 0) (by omega) _).2,
      clamp_bounds (by omega) _, clamp_bounds (by omega) _, clamp_bounds (by omega) _⟩
  · cases h

theorem Setpoint.withLevels_inRange (p : Setpoint) (on off : Byte) : (p.withLevels on off).InRange := by
  have hon := clamp_bounds (lo := 1) (hi := 48) (by omega) on.toNat
  refine ⟨hon, ?_⟩
  simp only [Setpoint.withLevels]
  split <;> omega

theorem decodeLoad_inRange {l l' : LoadMonitor} {body : List Byte} (hl : l.InRange) (h : decodeLoad l body = some l') :
    l'.InRange := by
  unfold decodeLoad at h
  split at h
  · cases h
    exact ⟨hl.hold, Setpoint.withLevels_inRange _ _ _, Setpoint.withLevels_inRange _ _ _,
      clamp_bounds (by omega) _, clamp_bounds (by omega) _⟩
  · cases h

/-- What keeps the configured levels keeps their ranges. -/
theorem LoadMonitor.SameLevels.inRange {a b : LoadMonitor} (h : a.SameLevels b) (ha : a.InRange) : b.InRange where
  hold := by rw [h.holdLevel]; exact ha.hold
  high := ⟨by rw [h.highOn]; exact ha.high.onLevel, by rw [h.highOn, h.highOff]; exact ha.high.offLevel⟩
  full := ⟨by rw [h.fullOn]; exact ha.full.onLevel, by rw [h.fullOn, h.fullOff]; exact ha.full.offLevel⟩
  highLevel := by rw [h.highLevel]; exact ha.highLevel
  trendStep := by rw [h.trendStep]; exact ha.trendStep

theorem LoadMonitor.sameLevels_judgeTrend (l : LoadMonitor) : l.SameLevels l.judgeTrend :=
  ⟨rfl, rfl, rfl, rfl, rfl, rfl, rfl⟩

/-! ### The owners of configuration -/

namespace ClosedConfig

theorem configurePortOwner (G : ClosedConfig R) (refl : ∀ s, R s s) (body : List Byte) (s : State) :
    R s (configurePortOwner body s).work.st := by
  unfold Machine.configurePortOwner
  split
  · exact refl s
  · split
    · exact refl s
    · split
      · exact refl s
      · exact G.port s _ _

theorem configureLimitsOwner (G : ClosedConfig R) (refl : ∀ s, R s s) (body : List Byte) (s : State) :
    R s (configureLimitsOwner body s).work.st := by
  unfold Machine.configureLimitsOwner
  split
  · exact refl s
  · rename_i l hl
    exact G.limits s l (decodeLimits_inRange hl)

theorem configureLoadOwner (G : ClosedConfig R) (F : Closed R) (body : List Byte) (s : State) :
    R s (configureLoadOwner body s).work.st := by
  unfold Machine.configureLoadOwner
  split
  · exact F.refl s
  · rename_i l hl
    refine F.setLoadBy s.begin _ (G.levels s _ fun hs => ?_)
    have hjudged := (Closed.sameLevels_judge l s.occupancy).inRange (decodeLoad_inRange hs hl)
    exact (LoadMonitor.sameLevels_judgeTrend _).inRange hjudged

end ClosedConfig

/-! ### Every command -/

/-- The commands that neither make a record nor restate one, and leave every capture: all but POWER ON, RESET INPUT,
BOOK, AMEND and CLEAR ERRORS. -/
def isOrdinary : Sys2Proof.Instr → Bool
  | .powerOn | .resetInput | .book _ | .amend _ | .clearErrors _ => false
  | _ => true

theorem takes_of_exec_eq {c : Instr} {s t u : State} (e : exec c s = .next u) (h : exec c s = .next t) (hu : R s u) :
    R s t := by
  rw [e] at h
  cases h
  exact hu

theorem ClosedAll.exec_keeping (F : ClosedAll R) (G : ClosedConfig R) {c : Instr} (hc : isOrdinary c = true)
    {s t : State} (h : exec c s = .next t) : R s t := by
  cases hcore : c.isCore with
  | true => exact F.exec_core c hcore s t h
  | false =>
    cases c <;> simp only [Instr.isCore, isOrdinary, Bool.false_eq_true, reduceCtorEq] at hcore hc
    case resetRelease => exact takes_of_exec_eq rfl h (G.release s)
    case configureColumn p =>
      exact takes_of_exec_eq rfl h (F.takeRequest s _ p _ (F.configureColumnOwner G.config))
    case configurePort p =>
      exact takes_of_exec_eq rfl h (F.takeRequest s _ p _ (G.configurePortOwner F.refl))
    case configureLimits p =>
      exact takes_of_exec_eq rfl h (F.takeRequest s _ p _ (G.configureLimitsOwner F.refl))
    case configureLoad p =>
      exact takes_of_exec_eq rfl h (F.takeRequest s _ p _ (G.configureLoadOwner F.toClosed))
    case configureNotices p =>
      exact takes_of_exec_eq rfl h (F.takeRequest s _ p _ (F.configureNoticesOwner G.level))
    case setMode p =>
      refine takes_of_exec_eq rfl h (F.takeRequest s _ p _ (F.setModeOwner fun s m n h2 h7 => ?_))
      exact G.levels s _ fun hs => ⟨⟨h2, h7⟩, hs.high, hs.full, hs.highLevel, hs.trendStep⟩
    case reinitialize p =>
      refine takes_of_exec_eq rfl h (F.takeRequest s _ p _ fun body s => ?_)
      exact F.after (F.handOccupancy s.forget.begin) (G.forget s)
    case interchangeTick g => exact takes_of_exec_eq rfl h (G.tick s g)
    case secondsAdvance => exact takes_of_exec_eq rfl h (G.advance s)
    case trendSample => exact takes_of_exec_eq rfl h (F.trendSample G.sampled s)

/-- BOOK, for a relation that holds when a FREE record is filled. -/
theorem ClosedAll.exec_book (F : ClosedAll R)
    (made : ∀ s h (x : Handover), s.hand h = none → x.InRange → R s (s.setHand h (some x))) {p : Port} {s t : State}
    (h : exec (.book p) s = .next t) : R s t :=
  takes_of_exec_eq rfl h (F.takeRequest s _ p _ (F.regionOwner p _ (F.bookOwner made)))

/-- AMEND, for a relation that holds when a record is filled or restated. -/
theorem ClosedAll.exec_amend (F : ClosedAll R)
    (made : ∀ s h (x : Handover), s.hand h = none → x.InRange → R s (s.setHand h (some x)))
    (restated : ∀ s h (f : Handover → Handover), (∀ r, (f r).InRange) → R s (s.modHand h f)) {p : Port} {s t : State}
    (h : exec (.amend p) s = .next t) : R s t :=
  takes_of_exec_eq rfl h (F.takeRequest s _ p _ (F.toClosed.amendOwner made restated))

/-- CLEAR ERRORS, for a relation that holds when a group is emptied. -/
theorem ClosedAll.exec_clearErrors (F : ClosedAll R)
    (clear : ∀ s g, R s (s.modGroup g fun _ => { captured := none, multi := false })) {p : Port} {s t : State}
    (h : exec (.clearErrors p) s = .next t) : R s t := by
  refine takes_of_exec_eq rfl h (F.takeRequest s _ p _ fun body s => ?_)
  unfold clearErrorsOwner
  split
  · exact F.refl s
  · exact clear s _

/-- The state at power-on, with the level of the RESET input and the queue of commands that `s` has. -/
def State.powered (s : State) (asserted : Bool) : State :=
  { State.reset with resetAsserted := asserted, pending := s.pending }

theorem State.hand_reset (h : HNum) : State.reset.hand h = none := by
  simp [State.reset, State.hand]
theorem State.col_reset (c : ColIx) : State.reset.col c = Column.initial c := by
  simp [State.reset, State.col]
theorem State.pendingSet_reset (p : Port) : State.reset.pendingSet p = [.reset] := by
  simp [State.reset, State.pendingSet]
theorem State.link_reset (p : Port) : State.reset.link p = LinkUnit.initial := by
  simp [State.reset, State.link]
@[simp] theorem State.hand_powered (s : State) (asserted : Bool) (h : HNum) : (s.powered asserted).hand h = none :=
  State.hand_reset h
@[simp] theorem State.col_powered (s : State) (asserted : Bool) (c : ColIx) :
    (s.powered asserted).col c = Column.initial c := State.col_reset c
@[simp] theorem State.pendingSet_powered (s : State) (asserted : Bool) (p : Port) :
    (s.powered asserted).pendingSet p = [.reset] := State.pendingSet_reset p
@[simp] theorem State.link_powered (s : State) (asserted : Bool) (p : Port) :
    (s.powered asserted).link p = LinkUnit.initial := State.link_reset p

theorem exec_powerOn (s : State) : exec .powerOn s = .next (s.powered false) := rfl
theorem exec_resetInput (s : State) : exec .resetInput s = .next (s.powered true) := rfl

/-- A relation that holds across every update that the owner of a request makes. -/
structure ClosedOwner (R : State → State → Prop) : Prop extends Closed R, ClosedConfig R where
  made : ∀ s h (x : Handover), s.hand h = none → x.InRange → R s (s.setHand h (some x))
  restated : ∀ s h (f : Handover → Handover), (∀ r, (f r).InRange) → R s (s.modHand h f)
  clear : ∀ s g, R s (s.modGroup g fun _ => { captured := none, multi := false })

/-- A relation that holds across every update of the part. -/
structure ClosedStep (R : State → State → Prop) : Prop extends ClosedAll R, ClosedOwner R where
  power : ∀ (s : State) asserted, R s (s.powered asserted)

theorem ClosedStep.exec (F : ClosedStep R) {c : Instr} {s t : State} (h : exec c s = .next t) : R s t := by
  cases hc : isOrdinary c with
  | true => exact F.toClosedAll.exec_keeping F.toClosedConfig hc h
  | false =>
    cases c <;> simp only [isOrdinary, reduceCtorEq] at hc
    case powerOn => exact takes_of_exec_eq (exec_powerOn s) h (F.power s false)
    case resetInput => exact takes_of_exec_eq (exec_resetInput s) h (F.power s true)
    case book p => exact F.toClosedAll.exec_book F.made h
    case amend p => exact F.toClosedAll.exec_amend F.made F.restated h
    case clearErrors p => exact F.toClosedAll.exec_clearErrors F.clear h

/-- A step, for a relation that the queue of commands does not touch. -/
theorem ClosedStep.step (F : ClosedStep R) (queue : ∀ s rest, R s { s with pending := rest }) {s t : State}
    (h : step s = .next t) : R s t := by
  unfold Machine.step at h
  split at h
  · cases h
    exact F.toClosedAll.lclkEdge s
  · exact F.after (F.exec h) (queue s _)

/-! ### The owner of every request -/

/-- The owner that handles a request of each kind once it has passed the stages of R141. -/
def RequestKind.owner (p : Port) : RequestKind → List Byte → State → Reply
  | .book => regionOwner p bookOwner
  | .cancel => regionOwner p cancelOwner
  | .claim => regionOwner p claimOwner
  | .landed => regionOwner p (reportOwner applyLanded)
  | .lifted => regionOwner p (reportOwner applyLifted)
  | .release => regionOwner p (reportOwner applyRelease)
  | .regionRestart => regionOwner p restartOwner
  | .queryHandover => queryHandoverOwner p
  | .queryColumn => queryColumnOwner p
  | .queryStatus => queryStatusOwner p
  | .queryError => queryErrorOwner p
  | .clearErrors => clearErrorsOwner
  | .configureColumn => configureColumnOwner
  | .configurePort => configurePortOwner
  | .configureLimits => configureLimitsOwner
  | .configureLoad => configureLoadOwner
  | .configureNotices => configureNoticesOwner
  | .setMode => setModeOwner
  | .force => forceOwner
  | .fence => fenceOwner
  | .restore => restoreOwner
  | .amend => amendOwner
  | .reinitialize => reinitializeOwner

/-- The command of a request takes the request and gives it to its owner. -/
theorem exec_command (k : RequestKind) (p : Port) (s : State) :
    exec (k.command p) s = .next (s.takeRequest k p (k.owner p)) := by
  cases k <;> rfl

theorem Closed.regionOwner (F : Closed R) (p : Port) {owner : Region → List Byte → State → Reply}
    (own : ∀ r body s, R s (owner r body s).work.st) (body : List Byte) (s : State) :
    R s (regionOwner p owner body s).work.st := by
  unfold Machine.regionOwner
  split
  · exact own _ _ _
  · exact F.refl _

theorem ClosedOwner.owner (F : ClosedOwner R) (p : Port) (k : RequestKind) (body : List Byte) (s : State) :
    R s (k.owner p body s).work.st := by
  have C := F.toClosed
  have G := F.toClosedConfig
  cases k with
  | book => exact C.regionOwner p (C.bookOwner F.made) body s
  | cancel => exact C.regionOwner p C.cancelOwner body s
  | claim => exact C.regionOwner p C.claimOwner body s
  | landed => exact C.regionOwner p (C.reportOwner _ C.applyLanded) body s
  | lifted => exact C.regionOwner p (C.reportOwner _ C.applyLifted) body s
  | release => exact C.regionOwner p (C.reportOwner _ C.applyRelease) body s
  | regionRestart => exact C.regionOwner p C.restartOwner body s
  | queryHandover => simpa only [RequestKind.owner, Closed.queryHandoverOwner_st, State.begin_st] using C.refl s
  | queryColumn => simpa only [RequestKind.owner, Closed.queryColumnOwner_st, State.begin_st] using C.refl s
  | queryStatus => exact C.refl s
  | queryError => simpa only [RequestKind.owner, Closed.queryErrorOwner_st, State.begin_st] using C.refl s
  | clearErrors =>
    simp only [RequestKind.owner, clearErrorsOwner]
    split
    · exact C.refl s
    · exact F.clear s _
  | configureColumn => exact C.configureColumnOwner G.config body s
  | configurePort => exact G.configurePortOwner C.refl body s
  | configureLimits => exact G.configureLimitsOwner C.refl body s
  | configureLoad => exact G.configureLoadOwner C body s
  | configureNotices => exact C.configureNoticesOwner G.level body s
  | setMode =>
    refine C.setModeOwner (fun s m n h2 h7 => ?_) body s
    exact G.levels s _ fun hs => ⟨⟨h2, h7⟩, hs.high, hs.full, hs.highLevel, hs.trendStep⟩
  | force => exact C.forceOwner body s
  | fence => exact C.fenceOwner body s
  | restore => exact C.restoreOwner body s
  | amend => exact C.amendOwner F.made F.restated body s
  | reinitialize => exact C.after (C.handOccupancy s.forget.begin) (G.forget s)

end Sys2Proof.Machine
end

