-- ==== Sys2Proof/Proofs/Posts.lean ====
section
/-! What a post and a capture leave: every block but the pending sets and, for a capture, the groups. -/
namespace Sys2Proof.Machine

/-! ### Posts (R150) -/

@[simp] theorem State.col_post (s : State) (p : Port) (n : Notice) (c : ColIx) : (s.post p n).col c = s.col c := by
  obtain ⟨_, h⟩ := s.post_eq_with_pendingSets p n; rw [h]; rfl
@[simp] theorem State.hand_post (s : State) (p : Port) (n : Notice) (h : HNum) : (s.post p n).hand h = s.hand h := by
  obtain ⟨_, e⟩ := s.post_eq_with_pendingSets p n; rw [e]; rfl
@[simp] theorem State.link_post (s : State) (p q : Port) (n : Notice) : (s.post p n).link q = s.link q := by
  obtain ⟨_, h⟩ := s.post_eq_with_pendingSets p n; rw [h]; rfl
@[simp] theorem State.group_post (s : State) (p : Port) (n : Notice) (g : Fin 8) : (s.post p n).group g = s.group g := by
  obtain ⟨_, h⟩ := s.post_eq_with_pendingSets p n; rw [h]; rfl
@[simp] theorem State.level_post (s : State) (p : Port) (n : Notice) (k : NoticeKind) :
    (s.post p n).level k = s.level k := by
  obtain ⟨_, h⟩ := s.post_eq_with_pendingSets p n; rw [h]; rfl
@[simp] theorem State.load_post (s : State) (p : Port) (n : Notice) : (s.post p n).load = s.load := by
  obtain ⟨_, h⟩ := s.post_eq_with_pendingSets p n; rw [h]
@[simp] theorem State.limits_post (s : State) (p : Port) (n : Notice) : (s.post p n).limits = s.limits := by
  obtain ⟨_, h⟩ := s.post_eq_with_pendingSets p n; rw [h]
@[simp] theorem State.clock_post (s : State) (p : Port) (n : Notice) : (s.post p n).clock = s.clock := by
  obtain ⟨_, h⟩ := s.post_eq_with_pendingSets p n; rw [h]
@[simp] theorem State.ports_post (s : State) (p : Port) (n : Notice) : (s.post p n).ports = s.ports := by
  obtain ⟨_, h⟩ := s.post_eq_with_pendingSets p n; rw [h]
@[simp] theorem State.stampCounter_post (s : State) (p : Port) (n : Notice) :
    (s.post p n).stampCounter = s.stampCounter := by
  obtain ⟨_, h⟩ := s.post_eq_with_pendingSets p n; rw [h]
@[simp] theorem State.tickCount_post (s : State) (p : Port) (n : Notice) : (s.post p n).tickCount = s.tickCount := by
  obtain ⟨_, h⟩ := s.post_eq_with_pendingSets p n; rw [h]
@[simp] theorem State.pending_post (s : State) (p : Port) (n : Notice) : (s.post p n).pending = s.pending := by
  obtain ⟨_, h⟩ := s.post_eq_with_pendingSets p n; rw [h]

/-- The pending sets after a post. -/
theorem State.pendingSet_post (s : State) (p q : Port) (n : Notice) :
    (s.post p n).pendingSet q = if q = p ∧ s.level n.kind ≠ 0 then joinSet n (s.pendingSet p) else s.pendingSet q := by
  unfold State.post
  split
  next h => rw [if_neg fun hq => hq.2 h]
  next h => simp [h]

/-! ### Captures (R159) -/

/-- A capture changes its group, and the pending set of PS at most. -/
theorem State.capture_eq (s : State) (g : Fin 8) (e : Capture) : ∃ x : ErrorGroup,
    (x.captured = (s.group g).captured.or (some e)) ∧
      (s.capture g e = (s.modGroup g fun _ => x) ∨ s.capture g e = (s.modGroup g fun _ => x).post .ps (.error g)) := by
  unfold State.capture
  split
  next h => exact ⟨_, by rw [h]; rfl, .inr rfl⟩
  next x h => exact ⟨{ s.group g with multi := true }, by simp [h], .inl rfl⟩

@[simp] theorem State.col_capture (s : State) (g : Fin 8) (e : Capture) (c : ColIx) : (s.capture g e).col c = s.col c := by
  obtain ⟨x, -, h | h⟩ := s.capture_eq g e <;> simp [h]
@[simp] theorem State.hand_capture (s : State) (g : Fin 8) (e : Capture) (h : HNum) :
    (s.capture g e).hand h = s.hand h := by
  obtain ⟨x, -, h | h⟩ := s.capture_eq g e <;> simp [h]
@[simp] theorem State.link_capture (s : State) (g : Fin 8) (e : Capture) (q : Port) :
    (s.capture g e).link q = s.link q := by
  obtain ⟨x, -, h | h⟩ := s.capture_eq g e <;> simp [h]
@[simp] theorem State.level_capture (s : State) (g : Fin 8) (e : Capture) (k : NoticeKind) :
    (s.capture g e).level k = s.level k := by
  obtain ⟨x, -, h | h⟩ := s.capture_eq g e <;> simp [h]
@[simp] theorem State.load_capture (s : State) (g : Fin 8) (e : Capture) : (s.capture g e).load = s.load := by
  obtain ⟨x, -, h | h⟩ := s.capture_eq g e <;> simp [h]
@[simp] theorem State.limits_capture (s : State) (g : Fin 8) (e : Capture) : (s.capture g e).limits = s.limits := by
  obtain ⟨x, -, h | h⟩ := s.capture_eq g e <;> simp [h]
@[simp] theorem State.clock_capture (s : State) (g : Fin 8) (e : Capture) : (s.capture g e).clock = s.clock := by
  obtain ⟨x, -, h | h⟩ := s.capture_eq g e <;> simp [h]
@[simp] theorem State.ports_capture (s : State) (g : Fin 8) (e : Capture) : (s.capture g e).ports = s.ports := by
  obtain ⟨x, -, h | h⟩ := s.capture_eq g e <;> simp [h]
@[simp] theorem State.stampCounter_capture (s : State) (g : Fin 8) (e : Capture) :
    (s.capture g e).stampCounter = s.stampCounter := by
  obtain ⟨x, -, h | h⟩ := s.capture_eq g e <;> simp [h]
@[simp] theorem State.tickCount_capture (s : State) (g : Fin 8) (e : Capture) :
    (s.capture g e).tickCount = s.tickCount := by
  obtain ⟨x, -, h | h⟩ := s.capture_eq g e <;> simp [h]
@[simp] theorem State.pending_capture (s : State) (g : Fin 8) (e : Capture) : (s.capture g e).pending = s.pending := by
  obtain ⟨x, -, h | h⟩ := s.capture_eq g e <;> simp [h]

/-- The first capture of a group stands; an error fills a clear one. -/
theorem State.captured_capture (s : State) (g i : Fin 8) (e : Capture) :
    ((s.capture g e).group i).captured =
      if i = g then (s.group g).captured.or (some e) else (s.group i).captured := by
  obtain ⟨x, hx, h | h⟩ := s.capture_eq g e
  all_goals
    rw [h]
    simp only [State.group_post, State.group_modGroup]
    split
    · exact hx
    · rfl

end Sys2Proof.Machine
end

