-- ==== Sys2Proof/Proofs/Continuing.lean ====
section
/-! What goes on through a step: records (R37, R57, R96), captures (R159), and the queue of commands. Each is a relation
closed under the part's updates. -/
namespace Sys2Proof.Machine

/-! ### The clock and REINITIALIZE -/

@[simp] theorem State.hand_countTick (s : State) (h : HNum) : s.countTick.hand h = s.hand h := by
  unfold State.countTick; split <;> rfl
@[simp] theorem State.col_countTick (s : State) (c : ColIx) : s.countTick.col c = s.col c := by
  unfold State.countTick; split <;> rfl
@[simp] theorem State.group_countTick (s : State) (g : Fin 8) : s.countTick.group g = s.group g := by
  unfold State.countTick; split <;> rfl

@[simp] theorem State.hand_tick (s : State) (x : Vector Reading 8) (h : HNum) : (s.tick x).hand h = s.hand h := by
  unfold State.tick; split
  · rfl
  · rw [State.hand_countTick]; rfl

@[simp] theorem State.group_tick (s : State) (x : Vector Reading 8) (g : Fin 8) : (s.tick x).group g = s.group g := by
  unfold State.tick; split
  · rfl
  · rw [State.group_countTick]; rfl

/-- A tick at each column, unless no tick comes (R55). -/
theorem State.col_tick (s : State) (x : Vector Reading 8) (c : ColIx) :
    (s.tick x).col c = if s.resetAsserted || s.timeEventDue then s.col c
      else (s.col c).tick s.limits.filterSteps x[c] := by
  unfold State.tick; split
  · rfl
  · rw [State.col_countTick]; simp [State.col]

/-- An advance at each record, unless none is due (R56). -/
theorem State.hand_advance (s : State) (h : HNum) :
    s.advance.hand h =
      if s.advanceDue && !s.advanceEventDue then (s.hand h).map (·.advance (s.clock + 1)) else s.hand h := by
  unfold State.advance; split
  · simp [State.hand]
  · rfl

@[simp] theorem State.col_advance (s : State) (c : ColIx) : s.advance.col c = s.col c := by
  unfold State.advance; split <;> rfl
@[simp] theorem State.group_advance (s : State) (g : Fin 8) : s.advance.group g = s.group g := by
  unfold State.advance; split <;> rfl

@[simp] theorem State.hand_forget (s : State) (h : HNum) : s.forget.hand h = none := by
  simp [State.forget, State.hand]
@[simp] theorem State.col_forget (s : State) (c : ColIx) : s.forget.col c = (s.col c).reinitialized := by
  simp [State.forget, State.col]

/-! ### Records -/

theorem State.RecordsContinue.of_eq {s t : State} (h : ∀ i, t.hand i = s.hand i) : s.RecordsContinue t :=
  fun i new e => ⟨new, h i ▸ e, .refl new⟩

theorem State.RecordsContinue.trans {s t u : State} (h : s.RecordsContinue t) (g : t.RecordsContinue u) :
    s.RecordsContinue u := fun i new e => by
  obtain ⟨mid, hmid, goes⟩ := g i new e
  obtain ⟨old, hold, came⟩ := h i mid hmid
  exact ⟨old, hold, came.trans goes⟩

/-- Records that are FREE afterwards, or go on, or are as they were. -/
theorem State.RecordsContinue.of_cases {s t : State}
    (h : ∀ i new, t.hand i = some new → s.hand i = some new ∨ ∃ old, s.hand i = some old ∧ old.Continues new) :
    s.RecordsContinue t := fun i new e =>
  (h i new e).elim (fun same => ⟨new, same, .refl new⟩) id

theorem recordsContinue_setHand_none (s : State) (h : HNum) : s.RecordsContinue (s.setHand h none) :=
  .of_cases fun i new e => by
    rw [State.hand_setHand] at e
    split at e
    · cases e
    · exact .inl e

theorem recordsContinue_modHand (s : State) (h : HNum) {f : Handover → Handover} (hf : ∀ r : Handover, r.Continues (f r)) :
    s.RecordsContinue (s.modHand h f) := .of_cases fun i new e => by
  rw [State.hand_modHand] at e
  split at e
  next hi =>
    obtain ⟨old, hold, rfl⟩ := Option.map_eq_some_iff.1 e
    exact .inr ⟨old, hi ▸ hold, hf old⟩
  next => exact .inl e

theorem closedAll_recordsContinue : ClosedAll State.RecordsContinue where
  refl _ := .of_eq fun _ => rfl
  trans := .trans
  col _ _ _ _ := .of_eq fun _ => rfl
  hand s h _ hf := recordsContinue_modHand s h fun r => (hf r).1
  free := recordsContinue_setHand_none
  post _ _ _ := .of_eq fun _ => State.hand_post ..
  drop _ _ _ _ := .of_eq fun _ => rfl
  capture _ _ _ := .of_eq fun _ => State.hand_capture ..
  load _ _ _ := .of_eq fun _ => rfl
  stamp _ _ := .of_eq fun _ => rfl
  link _ _ _ := .of_eq fun _ => rfl

/-- An advance leaves a record's due or lets it pass, and nothing else that goes on changes (R56, R58). -/
theorem Handover.continues_advance (r : Handover) (now : Seconds) : r.Continues (r.advance now) where
  bin := rfl
  origin := rfl
  dest := rfl
  heading := rfl
  due := by
    unfold Handover.advance
    dsimp only
    split
    next h => exact .inr ⟨rfl, now, h⟩
    next => exact .inl rfl
  urgency := le_refl _
  budget := .refl _

theorem closedConfig_recordsContinue : ClosedConfig State.RecordsContinue where
  config _ _ _ _ _ := .of_eq fun _ => rfl
  port _ _ _ := .of_eq fun _ => rfl
  limits _ _ _ := .of_eq fun _ => rfl
  levels _ _ _ := .of_eq fun _ => rfl
  level _ _ _ _ _ := .of_eq fun _ => rfl
  tick _ _ := .of_eq fun _ => State.hand_tick ..
  advance s := .of_cases fun i new e => by
    rw [State.hand_advance] at e
    split at e
    · obtain ⟨old, hold, rfl⟩ := Option.map_eq_some_iff.1 e
      exact .inr ⟨old, hold, old.continues_advance _⟩
    · exact .inl e
  sampled _ := .of_eq fun _ => rfl
  forget _ := .of_cases fun i new e => by rw [State.hand_forget] at e; cases e
  release _ := .of_eq fun _ => rfl

/-- POWER ON and RESET INPUT leave no record, and CLEAR ERRORS touches none. -/
theorem recordsContinue_of_hand_none {s t : State} (h : ∀ i, t.hand i = none) : s.RecordsContinue t :=
  .of_cases fun i new e => by rw [h i] at e; cases e

/-- Settles O59: every update of the commands but BOOK and AMEND lets records go on. -/
theorem recordsGoOn : Obligations.RecordsGoOn := by
  unfold Obligations.RecordsGoOn
  intro c s t hbook hamend h
  have F := closedAll_recordsContinue
  cases hc : isOrdinary c with
  | true => exact F.exec_keeping closedConfig_recordsContinue hc h
  | false =>
    cases c <;> simp only [isOrdinary, reduceCtorEq] at hc
    case powerOn => exact takes_of_exec_eq (exec_powerOn s) h (recordsContinue_of_hand_none (s.hand_powered _))
    case resetInput => exact takes_of_exec_eq (exec_resetInput s) h (recordsContinue_of_hand_none (s.hand_powered _))
    case book p => exact absurd rfl (hbook p)
    case amend p => exact absurd rfl (hamend p)
    case clearErrors p => exact F.exec_clearErrors (fun _ _ => .of_eq fun _ => rfl) h

/-! ### Captures -/

theorem State.CapturesStand.of_eq {s t : State} (h : ∀ g, t.group g = s.group g) : s.CapturesStand t :=
  fun g _ hg => by rw [h g]; exact hg

theorem capturesStand_capture (s : State) (g : Fin 8) (e : Capture) : s.CapturesStand (s.capture g e) := by
  intro i first hi
  rw [State.captured_capture]
  split
  next h => rw [← h, hi]; rfl
  next => exact hi

theorem closedAll_capturesStand : ClosedAll State.CapturesStand where
  refl _ := .of_eq fun _ => rfl
  trans h g i e hi := g i e (h i e hi)
  col _ _ _ _ := .of_eq fun _ => rfl
  hand _ _ _ _ := .of_eq fun _ => rfl
  free _ _ := .of_eq fun _ => rfl
  post _ _ _ := .of_eq fun _ => State.group_post ..
  drop _ _ _ _ := .of_eq fun _ => rfl
  capture := capturesStand_capture
  load _ _ _ := .of_eq fun _ => rfl
  stamp _ _ := .of_eq fun _ => rfl
  link _ _ _ := .of_eq fun _ => rfl

theorem closedConfig_capturesStand : ClosedConfig State.CapturesStand where
  config _ _ _ _ _ := .of_eq fun _ => rfl
  port _ _ _ := .of_eq fun _ => rfl
  limits _ _ _ := .of_eq fun _ => rfl
  levels _ _ _ := .of_eq fun _ => rfl
  level _ _ _ _ _ := .of_eq fun _ => rfl
  tick _ _ := .of_eq fun _ => State.group_tick ..
  advance _ := .of_eq fun _ => State.group_advance ..
  sampled _ := .of_eq fun _ => rfl
  forget _ := .of_eq fun _ => rfl
  release _ := .of_eq fun _ => rfl

/-- Settles O60: a capture is never overwritten, and the updates of the other commands leave the groups. -/
theorem firstCaptureStands : Obligations.FirstCaptureStands := by
  unfold Obligations.FirstCaptureStands
  intro c s t hclear hpower hreset h
  have F := closedAll_capturesStand
  cases hc : isOrdinary c with
  | true => exact F.exec_keeping closedConfig_capturesStand hc h
  | false =>
    cases c <;> simp only [isOrdinary, reduceCtorEq] at hc
    case powerOn => exact absurd rfl hpower
    case resetInput => exact absurd rfl hreset
    case book p => exact F.exec_book (fun _ _ _ _ _ => .of_eq fun _ => rfl) h
    case amend p => exact F.exec_amend (fun _ _ _ _ _ => .of_eq fun _ => rfl) (fun _ _ _ _ => .of_eq fun _ => rfl) h
    case clearErrors p => exact absurd rfl (hclear p)

/-! ### The queue of commands -/

theorem State.pending_countTick (s : State) : s.countTick.pending = s.pending := by
  unfold State.countTick; split <;> rfl

theorem State.pending_tick (s : State) (x : Vector Reading 8) : (s.tick x).pending = s.pending := by
  unfold State.tick; split
  · rfl
  · exact State.pending_countTick _

theorem State.pending_advance (s : State) : s.advance.pending = s.pending := by
  unfold State.advance; split <;> rfl

/-- No update touches the queue of commands. -/
theorem closedStep_pending : ClosedStep fun s t => t.pending = s.pending where
  refl _ := rfl
  trans h g := g.trans h
  col _ _ _ _ := rfl
  hand _ _ _ _ := rfl
  free _ _ := rfl
  post _ _ _ := State.pending_post ..
  drop _ _ _ _ := rfl
  capture _ _ _ := State.pending_capture ..
  load _ _ _ := rfl
  stamp _ _ := rfl
  link _ _ _ := rfl
  config _ _ _ _ _ := rfl
  port _ _ _ := rfl
  limits _ _ _ := rfl
  levels _ _ _ := rfl
  level _ _ _ _ _ := rfl
  tick := State.pending_tick
  advance := State.pending_advance
  sampled _ := rfl
  forget _ := rfl
  release _ := rfl
  made _ _ _ _ _ := rfl
  restated _ _ _ _ := rfl
  clear _ _ := rfl
  power _ _ := rfl

/-- No arm of the dispatch faults or refuses. -/
theorem exec_eq_next (c : Instr) (s : State) : ∃ t, exec c s = .next t := by
  cases c <;> exact ⟨_, rfl⟩

/-- Settles O3. -/
theorem everyCommandIsTaken : Obligations.EveryCommandIsTaken := by
  unfold Obligations.EveryCommandIsTaken
  intro c s
  obtain ⟨t, h⟩ := exec_eq_next c s
  exact ⟨t, h, closedStep_pending.exec h⟩

/-- Settles O1. -/
theorem stepRunsFrontCommand : Obligations.StepRunsFrontCommand := by
  unfold Obligations.StepRunsFrontCommand
  intro c s
  rfl

end Sys2Proof.Machine
end

