-- ==== Sys2Proof/Proofs/Ranges.lean ====
section
/-! Laws of the state that every update keeps: the ranges of records and of the configuration (R37, R96, Table 9-4), the
order of wait lists and inbound sets (R16, R73), and distinct items in the pending sets (R149). -/
namespace Sys2Proof.Machine

/-! ### Ranges of records -/

theorem Handover.InRange.continues {a b : Handover} (ha : a.InRange) (goes : a.Continues b)
    (hu : b.urgency ≤ max a.urgency 7) : b.InRange where
  urgency := ⟨le_trans ha.urgency.1 goes.urgency, by have := ha.urgency.2; omega⟩
  budget y hy := by
    have hbudget := goes.budget
    rw [hy] at hbudget
    cases hx : a.budget with
    | none => rw [hx] at hbudget; exact hbudget.elim
    | some x =>
      rw [hx] at hbudget
      exact le_trans hbudget.1 (ha.budget x hx)

theorem State.RecordsInRange.of_eq {s t : State} (h : ∀ i, t.hand i = s.hand i) (hs : s.RecordsInRange) :
    t.RecordsInRange := fun i r e => hs i r (h i ▸ e)

theorem State.RecordsInRange.setHand {s : State} (hs : s.RecordsInRange) (h : HNum) {x : Option Handover}
    (hx : ∀ r, x = some r → r.InRange) : (s.setHand h x).RecordsInRange := fun i r e => by
  rw [State.hand_setHand] at e
  split at e
  · exact hx r e
  · exact hs i r e

theorem State.RecordsInRange.modHand {s : State} (hs : s.RecordsInRange) (h : HNum) {f : Handover → Handover}
    (hf : ∀ r : Handover, r.InRange → (f r).InRange) : (s.modHand h f).RecordsInRange :=
  hs.setHand h fun r e => by
    obtain ⟨old, hold, rfl⟩ := Option.map_eq_some_iff.1 e
    exact hf old (hs h old hold)

theorem closedStep_recordsInRange : ClosedStep fun s t => s.RecordsInRange → t.RecordsInRange where
  refl _ := id
  trans h g := g ∘ h
  col _ _ _ _ := .of_eq fun _ => rfl
  hand _ h _ hf hs := hs.modHand h fun r hr => hr.continues (hf r).1 (hf r).2
  free _ h hs := hs.setHand h fun _ e => by cases e
  post _ _ _ := .of_eq fun _ => State.hand_post ..
  drop _ _ _ _ := .of_eq fun _ => rfl
  capture _ _ _ := .of_eq fun _ => State.hand_capture ..
  load _ _ _ := .of_eq fun _ => rfl
  stamp _ _ := .of_eq fun _ => rfl
  link _ _ _ := .of_eq fun _ => rfl
  config _ _ _ _ _ := .of_eq fun _ => rfl
  port _ _ _ := .of_eq fun _ => rfl
  limits _ _ _ := .of_eq fun _ => rfl
  levels _ _ _ := .of_eq fun _ => rfl
  level _ _ _ _ _ := .of_eq fun _ => rfl
  tick _ _ := .of_eq fun _ => State.hand_tick ..
  advance s hs i r e := by
    rw [State.hand_advance] at e
    split at e
    · obtain ⟨old, hold, rfl⟩ := Option.map_eq_some_iff.1 e
      exact (hs i old hold).continues (old.continues_advance _) (le_max_left _ _)
    · exact hs i r e
  sampled _ := .of_eq fun _ => rfl
  forget s _ i r e := by rw [State.hand_forget] at e; cases e
  release _ := .of_eq fun _ => rfl
  made _ h x _ hx hs := hs.setHand h fun r e => by cases e; exact hx
  restated _ h _ hf hs := hs.modHand h fun r _ => hf r
  clear _ _ := .of_eq fun _ => rfl
  power _ _ _ i r e := by rw [State.hand_powered] at e; cases e

/-! ### Ranges of the configuration -/

/-- Two states with the same configured quantities and the same tick count. -/
structure State.SameConfig (s t : State) : Prop where
  limits : t.limits = s.limits
  load : t.load = s.load
  depth : ∀ c, (t.col c).cfg.depth = (s.col c).cfg.depth
  level : ∀ k, t.level k = s.level k
  ticks : t.tickCount = s.tickCount

theorem State.SameConfig.inRange {s t : State} (h : s.SameConfig t) (hs : s.ConfigInRange) : t.ConfigInRange where
  limits := h.limits ▸ hs.limits
  load := h.load ▸ hs.load
  depth c := by rw [h.depth c]; exact hs.depth c
  levels k := by rw [h.level k]; exact hs.levels k
  reset := by rw [h.level .reset]; exact hs.reset
  ticks := h.ticks ▸ hs.ticks

theorem State.SameConfig.modCol (s : State) (c : ColIx) {f : Column → Column}
    (hf : (f (s.col c)).cfg.depth = (s.col c).cfg.depth) : s.SameConfig (s.modCol c f) :=
  ⟨rfl, rfl, fun d => by
    rw [State.col_modCol]
    split
    next h => rw [h]; exact hf
    next => rfl, fun _ => rfl, rfl⟩

@[simp] theorem Column.cfg_tick (k : Column) (n : Nat) (x : Reading) : (k.tick n x).cfg = k.cfg := by
  unfold Column.tick Column.sampleGauge; split <;> rfl

theorem State.level_tick (s : State) (x : Vector Reading 8) (k : NoticeKind) : (s.tick x).level k = s.level k := by
  unfold State.tick State.countTick; split <;> [rfl; (split <;> rfl)]

theorem State.level_advance (s : State) (k : NoticeKind) : s.advance.level k = s.level k := by
  unfold State.advance; split <;> rfl

/-- The tenth tick starts the count again (R55). -/
theorem State.tickCount_tick_le {s : State} (h : s.tickCount ≤ 9) (x : Vector Reading 8) : (s.tick x).tickCount ≤ 9 := by
  unfold State.tick State.countTick
  split
  · exact h
  · split
    · exact Nat.zero_le _
    next hlt => exact Nat.not_le.1 hlt

theorem State.configInRange_tick {s : State} (hs : s.ConfigInRange) (x : Vector Reading 8) : (s.tick x).ConfigInRange where
  limits := by unfold State.tick State.countTick; split <;> [exact hs.limits; (split <;> exact hs.limits)]
  load := by unfold State.tick State.countTick; split <;> [exact hs.load; (split <;> exact hs.load)]
  depth c := by
    rw [State.col_tick]
    split
    · exact hs.depth c
    · rw [Column.cfg_tick]; exact hs.depth c
  levels k := by rw [State.level_tick]; exact hs.levels k
  reset := by rw [State.level_tick]; exact hs.reset
  ticks := State.tickCount_tick_le hs.ticks x

theorem State.sameConfig_advance (s : State) : s.SameConfig s.advance := by
  unfold State.advance
  split <;> exact ⟨rfl, rfl, fun _ => rfl, fun _ => rfl, rfl⟩

theorem State.configInRange_reset : State.reset.ConfigInRange where
  limits := by constructor <;> decide
  load := ⟨by decide, by constructor <;> decide, by constructor <;> decide, by decide, by decide⟩
  depth c := by rw [State.col_reset]; exact ⟨by simp [Column.initial, ColumnConfig.initial], le_refl 6⟩
  levels k := by cases k <;> decide
  reset := by decide
  ticks := by decide

@[simp] theorem Column.cfg_reconfigured (k : Column) (new : ColumnConfig) : (k.reconfigured new).cfg = new := by
  unfold Column.reconfigured
  split
  · rfl
  · split <;> rfl

theorem closedStep_configInRange : ClosedStep fun s t => s.ConfigInRange → t.ConfigInRange where
  refl _ := id
  trans h g := g ∘ h
  col s c f hf := (State.SameConfig.modCol s c (by rw [(hf (s.col c)).1])).inRange
  hand _ _ _ _ := State.SameConfig.inRange ⟨rfl, rfl, fun _ => rfl, fun _ => rfl, rfl⟩
  free _ _ := State.SameConfig.inRange ⟨rfl, rfl, fun _ => rfl, fun _ => rfl, rfl⟩
  post _ _ _ := State.SameConfig.inRange ⟨by simp, by simp, by simp, by simp, by simp⟩
  drop _ _ _ _ := State.SameConfig.inRange ⟨rfl, rfl, fun _ => rfl, fun _ => rfl, rfl⟩
  capture _ _ _ := State.SameConfig.inRange ⟨by simp, by simp, by simp, by simp, by simp⟩
  load _ _ hl hs := { hs with load := hl.inRange hs.load }
  stamp _ _ := State.SameConfig.inRange ⟨rfl, rfl, fun _ => rfl, fun _ => rfl, rfl⟩
  link _ _ _ := State.SameConfig.inRange ⟨rfl, rfl, fun _ => rfl, fun _ => rfl, rfl⟩
  config s c new h2 h6 hs := { hs with
    depth := fun d => by
      rw [State.col_modCol]
      split
      · rw [Column.cfg_reconfigured]; exact ⟨h2, h6⟩
      · exact hs.depth d }
  port _ _ _ := State.SameConfig.inRange ⟨rfl, rfl, fun _ => rfl, fun _ => rfl, rfl⟩
  limits _ _ hl hs := { hs with limits := hl }
  levels _ _ hl hs := { hs with load := hl hs.load }
  level s k n hk hn hs := { hs with
    levels := fun m => by
      rw [State.level_setLevel]
      split
      · exact hn
      · exact hs.levels m
    reset := by rw [State.level_setLevel, if_neg hk.symm]; exact hs.reset }
  tick _ x hs := State.configInRange_tick hs x
  advance s := (State.sameConfig_advance s).inRange
  sampled _ := State.SameConfig.inRange ⟨rfl, rfl, fun _ => rfl, fun _ => rfl, rfl⟩
  forget s := State.SameConfig.inRange
    ⟨rfl, rfl, fun c => by rw [State.col_forget]; rfl, fun _ => rfl, rfl⟩
  release _ := State.SameConfig.inRange ⟨rfl, rfl, fun _ => rfl, fun _ => rfl, rfl⟩
  made _ _ _ _ _ := State.SameConfig.inRange ⟨rfl, rfl, fun _ => rfl, fun _ => rfl, rfl⟩
  restated _ _ _ _ := State.SameConfig.inRange ⟨rfl, rfl, fun _ => rfl, fun _ => rfl, rfl⟩
  clear _ _ := State.SameConfig.inRange ⟨rfl, rfl, fun _ => rfl, fun _ => rfl, rfl⟩
  power _ _ _ := State.SameConfig.inRange (s := State.reset) ⟨rfl, rfl, fun _ => rfl, fun _ => rfl, rfl⟩
    State.configInRange_reset

/-! ### Lists in order -/

theorem State.ColumnsOrdered.modCol {s : State} (hs : s.ColumnsOrdered) (c : ColIx) {f : Column → Column}
    (hf : (s.col c).Ordered → (f (s.col c)).Ordered) : (s.modCol c f).ColumnsOrdered := fun d => by
  rw [State.col_modCol]
  split
  · exact hf (hs c)
  · exact hs d

theorem State.ColumnsOrdered.of_eq {s t : State} (h : ∀ c, t.col c = s.col c) (hs : s.ColumnsOrdered) :
    t.ColumnsOrdered := fun c => by rw [h c]; exact hs c

/-- A column with the same wait list and inbound set is as ordered. -/
theorem Column.Ordered.of_eq {k k' : Column} (hk : k.Ordered) (hw : k'.waitList = k.waitList)
    (hi : k'.inbound = k.inbound) : k'.Ordered := ⟨hw ▸ hk.waits, hi ▸ hk.inbound⟩

theorem Column.reconfigured_lists (k : Column) (new : ColumnConfig) :
    (k.reconfigured new).stack = k.stack ∧ (k.reconfigured new).inbound = k.inbound ∧
      (k.reconfigured new).waitList = k.waitList ∧ (k.reconfigured new).grant = k.grant ∧
      (k.reconfigured new).settleTimer = k.settleTimer := by
  unfold Column.reconfigured
  split
  · exact ⟨rfl, rfl, rfl, rfl, rfl⟩
  · split <;> exact ⟨rfl, rfl, rfl, rfl, rfl⟩

theorem Column.tick_lists (k : Column) (n : Nat) (x : Reading) :
    (k.tick n x).stack = k.stack ∧ (k.tick n x).inbound = k.inbound ∧ (k.tick n x).waitList = k.waitList := by
  unfold Column.tick Column.sampleGauge
  split <;> exact ⟨rfl, rfl, rfl⟩

theorem Column.Ordered.empty {k : Column} (hw : k.waitList = []) (hi : k.inbound = []) : k.Ordered :=
  ⟨hw ▸ .nil, hi ▸ .nil⟩

theorem closedStep_columnsOrdered : ClosedStep fun s t => s.ColumnsOrdered → t.ColumnsOrdered where
  refl _ := id
  trans h g := g ∘ h
  col _ c _ hf hs := hs.modCol c (hf _).2
  hand _ _ _ _ := .of_eq fun _ => rfl
  free _ _ := .of_eq fun _ => rfl
  post _ _ _ := .of_eq fun _ => State.col_post ..
  drop _ _ _ _ := .of_eq fun _ => rfl
  capture _ _ _ := .of_eq fun _ => State.col_capture ..
  load _ _ _ := .of_eq fun _ => rfl
  stamp _ _ := .of_eq fun _ => rfl
  link _ _ _ := .of_eq fun _ => rfl
  config s c new _ _ hs := hs.modCol c fun hk =>
    have ⟨_, hi, hw, _, _⟩ := (s.col c).reconfigured_lists new
    hk.of_eq hw hi
  port _ _ _ := .of_eq fun _ => rfl
  limits _ _ _ := .of_eq fun _ => rfl
  levels _ _ _ := .of_eq fun _ => rfl
  level _ _ _ _ _ := .of_eq fun _ => rfl
  tick s x hs c := by
    rw [State.col_tick]
    split
    · exact hs c
    · obtain ⟨_, hi, hw⟩ := (s.col c).tick_lists s.limits.filterSteps x[c]
      exact (hs c).of_eq hw hi
  advance _ := .of_eq fun _ => State.col_advance ..
  sampled _ := .of_eq fun _ => rfl
  forget s _ c := by rw [State.col_forget]; exact .empty rfl rfl
  release _ := .of_eq fun _ => rfl
  made _ _ _ _ _ := .of_eq fun _ => rfl
  restated _ _ _ _ := .of_eq fun _ => rfl
  clear _ _ := .of_eq fun _ => rfl
  power _ _ _ c := by rw [State.col_powered]; exact .empty rfl rfl

/-! ### Distinct items -/

theorem Notice.same_iff {a b : Notice} : a.same b = true ↔ a.kind = b.kind ∧ a.subject = b.subject := by
  simp [Notice.same]

theorem Notice.same_comm (a b : Notice) : a.same b = b.same a := by
  rw [Bool.eq_iff_iff, Notice.same_iff, Notice.same_iff, eq_comm, eq_comm (a := a.subject)]

/-- Like items are like the same items. -/
theorem Notice.same_of_same {a b : Notice} (h : a.same b = true) (m : Notice) : a.same m = b.same m := by
  rw [Notice.same_iff] at h
  rw [Bool.eq_iff_iff, Notice.same_iff, Notice.same_iff, h.1, h.2]

/-- A post keeps the items distinct: it replaces its like, or has none (R150). -/
theorem noticesDistinct_joinSet {items : List Notice} (h : noticesDistinct items) (n : Notice) :
    noticesDistinct (joinSet n items) := by
  unfold joinSet noticesDistinct
  split
  · rw [List.pairwise_map]
    refine h.imp fun {a b} hab => ?_
    have like (m : Notice) : (if n.same m then n else m).same = m.same := by
      funext x
      split
      next hm => exact Notice.same_of_same hm x
      next => rfl
    rw [like a, Notice.same_comm, like b, Notice.same_comm]
    exact hab
  next hnone =>
    rw [List.pairwise_append]
    refine ⟨h, List.pairwise_singleton _ _, fun a ha b hb => ?_⟩
    rw [List.mem_singleton.1 hb, Notice.same_comm]
    simp only [List.any_eq_true, not_exists, not_and, Bool.not_eq_true] at hnone
    exact hnone a ha

theorem State.NoticesDistinct.of_eq {s t : State} (h : ∀ p, t.pendingSet p = s.pendingSet p) (hs : s.NoticesDistinct) :
    t.NoticesDistinct := fun p => by rw [h p]; exact hs p

theorem State.NoticesDistinct.modPending {s : State} (hs : s.NoticesDistinct) (p : Port) {f : List Notice → List Notice}
    (hf : noticesDistinct (f (s.pendingSet p))) : (s.modPending p f).NoticesDistinct := fun q => by
  rw [State.pendingSet_modPending]
  split
  · exact hf
  · exact hs q

theorem State.NoticesDistinct.post {s : State} (hs : s.NoticesDistinct) (p : Port) (n : Notice) :
    (s.post p n).NoticesDistinct := by
  unfold State.post
  split
  · exact hs
  · exact hs.modPending p (noticesDistinct_joinSet (hs p) n)

theorem State.pendingSet_eq_of_pendingSets {s t : State} (h : t.pendingSets = s.pendingSets) (p : Port) :
    t.pendingSet p = s.pendingSet p := by
  unfold State.pendingSet
  rw [h]

theorem State.pendingSets_tick (s : State) (x : Vector Reading 8) : (s.tick x).pendingSets = s.pendingSets := by
  unfold State.tick State.countTick; split <;> [rfl; (split <;> rfl)]

theorem State.pendingSets_advance (s : State) : s.advance.pendingSets = s.pendingSets := by
  unfold State.advance; split <;> rfl

theorem State.pendingSet_forget (s : State) (p : Port) : s.forget.pendingSet p = [.reset] := by
  simp [State.forget, State.pendingSet]

theorem closedStep_noticesDistinct : ClosedStep fun s t => s.NoticesDistinct → t.NoticesDistinct where
  refl _ := id
  trans h g := g ∘ h
  col _ _ _ _ := .of_eq fun _ => rfl
  hand _ _ _ _ := .of_eq fun _ => rfl
  free _ _ := .of_eq fun _ => rfl
  post _ p n hs := hs.post p n
  drop _ p _ sub hs := hs.modPending p ((hs p).sublist sub)
  capture s g e hs := by
    obtain ⟨x, -, h | h⟩ := s.capture_eq g e
    · rw [h]; exact hs.of_eq fun _ => rfl
    · rw [h]; exact State.NoticesDistinct.post (s := s.modGroup g fun _ => x) (hs.of_eq fun _ => rfl) _ _
  load _ _ _ := .of_eq fun _ => rfl
  stamp _ _ := .of_eq fun _ => rfl
  link _ _ _ := .of_eq fun _ => rfl
  config _ _ _ _ _ := .of_eq fun _ => rfl
  port _ _ _ := .of_eq fun _ => rfl
  limits _ _ _ := .of_eq fun _ => rfl
  levels _ _ _ := .of_eq fun _ => rfl
  level _ _ _ _ _ := .of_eq fun _ => rfl
  tick s x := .of_eq (State.pendingSet_eq_of_pendingSets (s.pendingSets_tick x))
  advance s := .of_eq (State.pendingSet_eq_of_pendingSets s.pendingSets_advance)
  sampled _ := .of_eq fun _ => rfl
  forget s _ p := by rw [State.pendingSet_forget]; exact List.pairwise_singleton _ _
  release _ := .of_eq fun _ => rfl
  made _ _ _ _ _ := .of_eq fun _ => rfl
  restated _ _ _ _ := .of_eq fun _ => rfl
  clear _ _ := .of_eq fun _ => rfl
  power s x _ p := by rw [State.pendingSet_powered]; exact List.pairwise_singleton _ _

end Sys2Proof.Machine
end

