-- ==== Sys2Proof/Proofs/LinkLaws.lean ====
section
/-! The link units through a step: what a request does to the links (R140), and a law of one link unit that its edges,
rises and falls keep (R137, R142). -/
namespace Sys2Proof.Machine

/-! ### Requests and links -/

@[simp] theorem State.links_post (s : State) (p : Port) (n : Notice) : (s.post p n).links = s.links := by
  obtain ⟨_, h⟩ := s.post_eq_with_pendingSets p n; rw [h]
@[simp] theorem State.links_capture (s : State) (g : Fin 8) (e : Capture) : (s.capture g e).links = s.links := by
  obtain ⟨x, -, h | h⟩ := s.capture_eq g e <;> simp [h]
theorem State.links_tick (s : State) (x : Vector Reading 8) : (s.tick x).links = s.links := by
  unfold State.tick State.countTick; split <;> [rfl; (split <;> rfl)]
theorem State.links_advance (s : State) : s.advance.links = s.links := by
  unfold State.advance; split <;> rfl

theorem State.link_eq_of_links {s t : State} (h : t.links = s.links) (p : Port) : t.link p = s.link p := by
  unfold State.link
  rw [h]

/-- No owner touches a link unit. -/
theorem closedOwner_links : ClosedOwner fun s t => t.links = s.links where
  refl _ := rfl
  trans h g := g.trans h
  col _ _ _ _ := rfl
  hand _ _ _ _ := rfl
  free _ _ := rfl
  post _ _ _ := State.links_post ..
  drop _ _ _ _ := rfl
  capture _ _ _ := State.links_capture ..
  load _ _ _ := rfl
  stamp _ _ := rfl
  config _ _ _ _ _ := rfl
  port _ _ _ := rfl
  limits _ _ _ := rfl
  levels _ _ _ := rfl
  level _ _ _ _ _ := rfl
  tick := State.links_tick
  advance := State.links_advance
  sampled _ := rfl
  forget _ := rfl
  release _ := rfl
  made _ _ _ _ _ := rfl
  restated _ _ _ _ := rfl
  clear _ _ := rfl

theorem Work.links_finish (w : Work) : w.finish.links = w.st.links := closedOwner_links.finish w

/-- The links after a request: its frame has left the intake queue and its answer is the newest of its port. -/
def State.ServedAt (s t : State) (p : Port) (a : List Byte) : Prop :=
  t.link p = { s.link p with intake := (s.link p).intake.tail, answers := (s.link p).answers ++ [a] } ∧
    ∀ q, q ≠ p → t.link q = s.link q

/-- A reply whose work touches no link serves its request. -/
theorem Reply.answer_servedAt {s : State} {p : Port} {y : Reply} (h : y.work.st.links = (s.dropRequest p).links)
    (f : Frame) : s.ServedAt (y.answer p f) p (requestNumber f :: y.result.code :: y.data) := by
  have hlink (q : Port) : y.work.finish.link q = (s.dropRequest p).link q :=
    State.link_eq_of_links (y.work.links_finish.trans h) q
  unfold Reply.answer State.pushAnswer
  refine ⟨?_, fun q hq => ?_⟩
  · rw [State.link_modLink, if_pos rfl, hlink, State.dropRequest, State.link_modLink, if_pos rfl]
  · rw [State.link_modLink, if_neg hq, hlink, State.dropRequest, State.link_modLink, if_neg hq]

theorem State.links_judgeRequest {s : State} {k : RequestKind} {p : Port} {f : Frame} {owner : State → Reply}
    (h : (owner s).work.st.links = s.links) : (s.judgeRequest k p f owner).work.st.links = s.links := by
  unfold State.judgeRequest
  split
  · exact State.links_capture ..
  · split
    · rfl
    · split
      · rfl
      · exact h

/-- The request that may be taken is the oldest, with room for its answer (R140). -/
theorem State.oldestRequest_eq_some {s : State} {p : Port} {f : Frame} (h : s.oldestRequest p = some f) :
    s.offersFrame p f := by
  unfold State.oldestRequest at h
  split at h
  · cases h
  next hroom =>
    simp only [Bool.or_eq_true, decide_eq_true_eq, not_or, Bool.not_eq_true, not_le] at hroom
    exact ⟨hroom.1, hroom.2, h⟩

/-- The taking of a request: it waits, or it is served. -/
theorem State.takeRequest_cases (s : State) (k : RequestKind) (p : Port) :
    s.takeRequest k p (k.owner p) = s ∨ ∃ f, s.offersFrame p f ∧ f.kind = k.code ∧
      s.takeRequest k p (k.owner p) =
        ((s.dropRequest p).judgeRequest k p f (k.owner p f.body)).answer p f := by
  unfold State.takeRequest
  split
  · exact .inl rfl
  next f hf =>
    split
    next hk => exact .inr ⟨f, State.oldestRequest_eq_some hf, hk, rfl⟩
    next => exact .inl rfl

theorem State.servedAt_judgeRequest (s : State) (k : RequestKind) (p : Port) (f : Frame) :
    s.ServedAt (((s.dropRequest p).judgeRequest k p f (k.owner p f.body)).answer p f) p
      (requestNumber f :: ((s.dropRequest p).judgeRequest k p f (k.owner p f.body)).result.code ::
        ((s.dropRequest p).judgeRequest k p f (k.owner p f.body)).data) :=
  Reply.answer_servedAt (State.links_judgeRequest (closedOwner_links.owner p k f.body _)) f

/-! ### A law of one link unit -/

/-- A law of a link unit that every edge, rise and fall, and every request that is served, keeps. -/
structure LinkLaw (P : LinkUnit → Prop) : Prop where
  initial : P .initial
  served : ∀ u a, P u → u.answers.length < Config.answerRoom →
    P { u with intake := u.intake.tail, answers := u.answers ++ [a] }
  byte : ∀ u b e waiting, P u → u.bus = .controller →
    (u.rx = .betweenFrames → u.prepared = false ∧ u.intake.length < Config.intakeRoom) →
    P { (u.takeByte b e).1 with prepared := (u.takeByte b e).1.rx == .betweenFrames && waiting }
  held : ∀ u waiting, P u → u.bus = .controller →
    P { u with window := false, prepared := u.rx == .betweenFrames && waiting }
  own : ∀ u, P u → P u.ownEdge
  answer : ∀ u bytes a rest, P u → u.rx = .betweenFrames → u.answers = a :: rest →
    P { u.raise bytes with answers := rest }
  notice : ∀ u bytes, P u → u.rx = .betweenFrames → P (u.raise bytes)
  fall : ∀ u x, P u → u.bus = .ix48 → u.sending = some x → P u.fall

variable {P : LinkUnit → Prop}

/-- Every link unit of the part keeps the law. -/
def State.AllLinks (P : LinkUnit → Prop) (s : State) : Prop := ∀ p, P (s.link p)

theorem State.AllLinks.of_links {s t : State} (hs : s.AllLinks P) (h : t.links = s.links) : t.AllLinks P :=
  fun p => by rw [State.link_eq_of_links h p]; exact hs p

theorem State.AllLinks.modLink {s : State} (hs : s.AllLinks P) (p : Port) {f : LinkUnit → LinkUnit}
    (hf : P (f (s.link p))) : (s.modLink p f).AllLinks P := fun q => by
  rw [State.link_modLink]
  split
  · exact hf
  · exact hs q

theorem State.pace_iff {s : State} {p : Port} : s.pace p = true ↔ s.resetAsserted = false ∧
    (s.link p).bus = .controller ∧
    ((s.link p).rx = .betweenFrames → (s.link p).prepared = false ∧ (s.link p).intake.length < Config.intakeRoom) := by
  simp only [State.pace, Bool.and_eq_true, Bool.not_eq_true', beq_iff_eq, Bool.or_eq_true, bne_iff_ne, ne_eq,
    decide_eq_true_eq, and_assoc, imp_iff_not_or]

theorem State.received_link (s : State) (p : Port) (x : LinkUnit × Option ErrorKind) (q : Port) :
    (s.received p x).link q = if q = p then x.1 else s.link q := by
  unfold State.received
  split
  · rw [State.captureLink, State.link_capture, State.link_modLink]
  · rw [State.link_modLink]

namespace LinkLaw

theorem serve (L : LinkLaw P) {s t : State} {p : Port} {a : List Byte} (hs : s.AllLinks P)
    (room : (s.link p).answers.length < Config.answerRoom) (h : s.ServedAt t p a) : t.AllLinks P := fun q => by
  by_cases hq : q = p
  · rw [hq, h.1]
    exact L.served _ _ (hs p) room
  · rw [h.2 q hq]
    exact hs q

theorem takeRequest (L : LinkLaw P) {s : State} (hs : s.AllLinks P) (k : RequestKind) (p : Port) :
    (s.takeRequest k p (k.owner p)).AllLinks P := by
  rcases s.takeRequest_cases k p with h | ⟨f, hf, -, h⟩
  · rw [h]; exact hs
  · rw [h]; exact L.serve hs hf.2.1 (s.servedAt_judgeRequest k p f)

theorem byteEdge (L : LinkLaw P) {s : State} (hs : s.AllLinks P) {p : Port} (hp : s.pace p = true) (b : Byte)
    (e : Bool) : (s.byteEdge p b e).AllLinks P := fun q => by
  obtain ⟨-, hbus, hroom⟩ := State.pace_iff.1 hp
  unfold State.byteEdge State.setPace
  rw [State.link_modLink, State.received_link, if_pos rfl]
  split
  · exact L.byte _ b e _ (hs p) hbus hroom
  next hq => rw [State.received_link, if_neg hq]; exact hs q

theorem heldEdge (L : LinkLaw P) {s : State} (hs : s.AllLinks P) (p : Port) : (s.heldEdge p).AllLinks P := by
  unfold State.heldEdge
  split
  next hbus =>
    have drop (t : State) (ht : t.links = s.links) :
        (((t.modLink p fun u => { u with window := false }).setPace p)).AllLinks P := by
      unfold State.setPace
      rw [State.modLink_modLink]
      refine (hs.of_links ht).modLink p ?_
      rw [State.link_eq_of_links ht]
      exact L.held (s.link p) _ (hs p) hbus
    dsimp only
    split
    · exact drop _ rfl
    · exact drop _ rfl
  next => exact hs.modLink p (L.own _ (hs p))

theorem fillEdge (L : LinkLaw P) {s : State} (hs : s.AllLinks P) (p : Port) : (s.fillEdge p).AllLinks P := by
  unfold State.fillEdge
  split
  · exact hs
  · split
    next hp => exact L.byteEdge hs hp 0 false
    next => exact L.heldEdge hs p

theorem lclkEdge (L : LinkLaw P) {s : State} (hs : s.AllLinks P) : s.lclkEdge.AllLinks P := by
  have go : ∀ (l : List Port) (s : State), s.AllLinks P → (l.foldl State.fillEdge s).AllLinks P := by
    intro l
    induction l with
    | nil => exact fun _ hs => hs
    | cons p l ih => exact fun s hs => ih _ (L.fillEdge hs p)
  unfold State.lclkEdge
  split
  · exact hs
  · exact go _ s hs

theorem awaitPace (L : LinkLaw P) (p : Port) : ∀ (n : Nat) {s : State}, s.AllLinks P → (s.awaitPace p n).AllLinks P
  | 0, _, hs => hs
  | n + 1, _, hs => by
    unfold State.awaitPace
    split
    · exact hs
    · exact L.awaitPace p n (L.heldEdge hs p)

theorem awaitTurn (L : LinkLaw P) (p : Port) : ∀ (n : Nat) {s : State}, s.AllLinks P → (s.awaitTurn p n).AllLinks P
  | 0, _, hs => hs
  | n + 1, _, hs => by
    unfold State.awaitTurn
    split
    · exact hs
    · exact L.awaitTurn p n (L.fillEdge hs p)

theorem awaitFall (L : LinkLaw P) (p : Port) : ∀ (n : Nat) {s : State}, s.AllLinks P → (s.awaitFall p n).AllLinks P
  | 0, _, hs => hs
  | n + 1, _, hs => by
    unfold State.awaitFall
    split
    · exact hs
    · exact L.awaitFall p n (hs.modLink p (L.own _ (hs p)))

theorem presentByte (L : LinkLaw P) {s t : State} {p : Port} {b : Byte} {e : Bool} (hs : s.AllLinks P)
    (h : s.presentByte p b e = some t) : t.AllLinks P := by
  simp only [State.presentByte, Option.ite_none_right_eq_some, Option.some.injEq] at h
  obtain ⟨hp, rfl⟩ := h
  exact L.byteEdge (L.awaitPace p 2 hs) hp b e

theorem takeBytes (L : LinkLaw P) (p : Port) : ∀ (bs : List BusByte) {s : State}, s.AllLinks P →
    (State.takeBytes p bs s).AllLinks P
  | [], _, hs => hs
  | (b, e) :: bs, s, hs => by
    unfold State.takeBytes
    cases h : s.presentByte p b e with
    | none => exact hs
    | some t => exact L.takeBytes p bs (L.presentByte hs h)

/-- The commands of a link: bytes in, rises and falls. -/
theorem frameBegin (L : LinkLaw P) {s : State} (hs : s.AllLinks P) (p : Port) (b : Byte) (e : Bool) :
    (if (s.link p).rx = .betweenFrames then (s.presentByte p b e).getD s else s).AllLinks P := by
  split
  · cases h : s.presentByte p b e with
    | none => exact hs
    | some t => exact L.presentByte hs h
  · exact hs

theorem turnFalls (L : LinkLaw P) {s t : State} {p : Port} (hs : s.AllLinks P) (h : exec (.turnFalls p) s = .next t) :
    t.AllLinks P := by
  simp only [exec, execTurnFalls] at h
  injection h with h
  subst h
  split
  next x hx =>
    have hu := L.awaitFall p (x.bytes.length + 1) hs
    generalize s.awaitFall p (x.bytes.length + 1) = u at hu
    split
    next hfall =>
      simp only [State.fallDue, Bool.and_eq_true, beq_iff_eq] at hfall
      obtain ⟨⟨-, hbus⟩, hsent⟩ := hfall
      cases hy : (u.link p).sending with
      | none => rw [hy] at hsent; cases hsent
      | some y => exact hu.modLink p (L.fall _ y (hu p) hbus hy)
    next => exact hs
  next => exact hs

theorem sendAnswer (L : LinkLaw P) {s t : State} {p : Port} (hs : s.AllLinks P)
    (h : exec (.sendAnswer p) s = .next t) : t.AllLinks P := by
  simp only [exec, execSendAnswer] at h
  injection h with h
  subst h
  have hu := L.awaitTurn p 2 hs
  generalize s.awaitTurn p 2 = u at hu
  split
  next a rest hm ha =>
    obtain ⟨-, hrx, -, -⟩ := State.mayTurn_iff.1 hm
    exact hu.modLink p (L.answer _ _ a rest (hu p) hrx ha)
  next => exact hs

theorem sendNotice (L : LinkLaw P) {s t : State} {p : Port} (hs : s.AllLinks P)
    (h : exec (.sendNotice p) s = .next t) : t.AllLinks P := by
  simp only [exec, execSendNotice] at h
  injection h with h
  subst h
  have hu := L.awaitTurn p 2 hs
  generalize s.awaitTurn p 2 = u at hu
  split
  next hm =>
    obtain ⟨hm, -⟩ := Bool.and_eq_true_iff.1 hm
    obtain ⟨-, hrx, -, -⟩ := State.mayTurn_iff.1 hm
    split
    · exact L.heldEdge hu p
    next n rest _ =>
      have hlinks : ((u.modPending p fun _ => rest).noticeGone p n).links = u.links :=
        closedOwner_links.noticeGone (u.modPending p fun _ => rest) p n
      refine (hu.of_links hlinks).modLink p ?_
      rw [State.link_eq_of_links hlinks]
      exact L.notice _ _ (hu p) hrx
  next => exact hs

theorem unknownKind (L : LinkLaw P) {s t : State} {p : Port} (hs : s.AllLinks P)
    (h : exec (.requestOfUnknownKind p) s = .next t) : t.AllLinks P := by
  simp only [exec, execRequestOfUnknownKind] at h
  injection h with h
  subst h
  split
  · exact hs
  next f hf =>
    split
    · exact hs
    · refine L.serve hs (State.oldestRequest_eq_some hf).2.1 (Reply.answer_servedAt ?_ f)
      exact State.links_capture ..

/-- Every command. -/
theorem exec (L : LinkLaw P) {c : Instr} {s t : State} (hs : s.AllLinks P) (h : exec c s = .next t) :
    t.AllLinks P := by
  have request (k : RequestKind) (p : Port) (hc : c = k.command p) : t.AllLinks P := by
    subst hc
    rw [exec_command] at h
    cases h
    exact L.takeRequest hs k p
  have timed (hc : ∀ u : State, Machine.exec c s = .next u → u.links = s.links) : t.AllLinks P :=
    hs.of_links (hc t h)
  have C := closedOwner_links
  cases c
  case powerOn =>
    rw [exec_powerOn] at h
    cases h
    exact fun p => by rw [State.link_powered]; exact L.initial
  case resetInput =>
    rw [exec_resetInput] at h
    cases h
    exact fun p => by rw [State.link_powered]; exact L.initial
  case resetRelease => cases h; exact hs
  case frameBegin p b e => cases h; exact L.frameBegin hs p b e
  case controllerFrame p bytes => cases h; exact L.takeBytes p bytes hs
  case turnFalls p => exact L.turnFalls hs h
  case sendAnswer p => exact L.sendAnswer hs h
  case sendNotice p => exact L.sendNotice hs h
  case requestOfUnknownKind p => exact L.unknownKind hs h
  case book p => exact request .book p rfl
  case cancel p => exact request .cancel p rfl
  case claim p => exact request .claim p rfl
  case landed p => exact request .landed p rfl
  case lifted p => exact request .lifted p rfl
  case release p => exact request .release p rfl
  case regionRestart p => exact request .regionRestart p rfl
  case queryHandover p => exact request .queryHandover p rfl
  case queryColumn p => exact request .queryColumn p rfl
  case queryStatus p => exact request .queryStatus p rfl
  case queryError p => exact request .queryError p rfl
  case clearErrors p => exact request .clearErrors p rfl
  case configureColumn p => exact request .configureColumn p rfl
  case configurePort p => exact request .configurePort p rfl
  case configureLimits p => exact request .configureLimits p rfl
  case configureLoad p => exact request .configureLoad p rfl
  case configureNotices p => exact request .configureNotices p rfl
  case setMode p => exact request .setMode p rfl
  case force p => exact request .force p rfl
  case fence p => exact request .fence p rfl
  case restore p => exact request .restore p rfl
  case amend p => exact request .amend p rfl
  case reinitialize p => exact request .reinitialize p rfl
  case interchangeTick x => exact timed fun u e => by cases e; exact s.links_tick x
  case gaugeReadingChange c => exact timed fun u e => by cases e; exact C.readingChange s c
  case grantTimeout c => exact timed fun u e => by cases e; exact C.grantTimeout s c
  case settleExpiry c => exact timed fun u e => by cases e; exact C.settleExpiry s c
  case secondsAdvance => exact timed fun u e => by cases e; exact s.links_advance
  case bookingExpiry i => exact timed fun u e => by cases e; exact C.bookingExpiry s i
  case exposureWarning i => exact timed fun u e => by cases e; exact C.exposureWarning s i
  case exposureExpiry i => exact timed fun u e => by cases e; exact C.exposureExpiry s i
  case trendSample => exact timed fun u e => by cases e; exact C.trendSample (fun _ => rfl) s

theorem step (L : LinkLaw P) {s t : State} (hs : s.AllLinks P) (h : step s = .next t) : t.AllLinks P := by
  unfold Machine.step at h
  split at h
  next =>
    cases h
    exact L.lclkEdge hs
  next c rest _ => exact L.exec (s := { s with pending := rest }) (fun p => hs p) h

end LinkLaw

/-! ### Reception -/

/-- The fields that reception leaves. -/
structure LinkUnit.SameTurn (u v : LinkUnit) : Prop where
  answers : v.answers = u.answers
  bus : v.bus = u.bus
  sending : v.sending = u.sending

/-- What the taking of a byte into a frame does: the unit goes on in the frame, or is between frames again; a checked
frame joins the intake queue then. -/
inductive LinkUnit.Taken (u : LinkUnit) : LinkUnit → Prop where
  | inside (rx : RxState) (frame : List Byte) (h : rx ≠ .betweenFrames) : Taken u { u with rx := rx, frame := frame }
  | dropped : Taken u u.dropFrame
  | joined (f : Frame) : Taken u { u.dropFrame with intake := u.intake ++ [f] }

theorem LinkUnit.judgeFrame_taken (u : LinkUnit) (frame : List Byte) : u.Taken (u.judgeFrame frame).1 := by
  unfold LinkUnit.judgeFrame
  dsimp only
  split
  · split
    · exact .joined _
    · exact .dropped
  · exact .dropped

theorem LinkUnit.extend_taken (u : LinkUnit) (frame : List Byte) (e : Bool) : u.Taken (u.extend frame e).1 := by
  unfold LinkUnit.extend
  split
  · split
    · exact .dropped
    · exact .inside _ _ (by decide)
  · split
    · split
      · exact .dropped
      · exact .inside _ _ (by decide)
    · split
      · split
        · exact .dropped
        · exact .inside _ _ (by decide)
      · split
        · exact u.judgeFrame_taken frame
        · exact .inside _ _ (by decide)

/-- A byte that is taken is a fill byte, or is taken into a frame. -/
theorem LinkUnit.takeByte_cases (u : LinkUnit) (b : Byte) (e : Bool) :
    (u.takeByte b e).1 = { u with window := false } ∧ u.rx = .betweenFrames ∨
      { u with window := false }.Taken (u.takeByte b e).1 := by
  unfold LinkUnit.takeByte
  dsimp only
  split
  next h =>
    split
    · exact .inl ⟨rfl, h⟩
    · exact .inr (LinkUnit.extend_taken _ _ _)
  · split
    · split
      · exact .inr .dropped
      · exact .inr (.inside _ _ (by decide))
    · exact .inr (LinkUnit.extend_taken _ _ _)
  next h =>
    split
    · exact .inr .dropped
    · exact .inr (by simpa only [h] using LinkUnit.Taken.inside (u := { u with window := false }) .discarding u.frame (by decide))

/-! ### The queues of a link (R136, R137) -/

theorem linkLaw_withinRoom : LinkLaw LinkUnit.WithinRoom where
  initial := ⟨by decide, by decide, fun h => absurd rfl h⟩
  served u a hu room := by
    refine ⟨?_, ?_, fun h => ?_⟩
    · simpa using room
    · simpa using hu.intake.trans' (Nat.sub_le _ _)
    · simpa using (hu.reception h).trans_le' (Nat.sub_le _ _)
  byte u b e waiting hu _ hroom := by
    have room : u.intake.length < Config.intakeRoom := by
      by_cases h : u.rx = .betweenFrames
      · exact (hroom h).2
      · exact hu.reception h
    suffices h : (u.takeByte b e).1.WithinRoom from ⟨h.answers, h.intake, h.reception⟩
    have htaken := u.takeByte_cases b e
    generalize (u.takeByte b e).1 = v at htaken
    rcases htaken with ⟨h, hrx⟩ | h
    · rw [h]; exact ⟨hu.answers, hu.intake, hu.reception⟩
    · cases h with
      | inside => exact ⟨hu.answers, hu.intake, fun _ => room⟩
      | dropped => exact ⟨hu.answers, hu.intake, fun h => absurd rfl h⟩
      | joined => exact ⟨hu.answers, by simpa using room, fun h => absurd rfl h⟩
  held u _ hu _ := ⟨hu.answers, hu.intake, hu.reception⟩
  own u hu := by
    unfold LinkUnit.ownEdge
    split <;> exact ⟨hu.answers, hu.intake, hu.reception⟩
  answer u bytes a rest hu _ ha := by
    have := hu.answers
    rw [ha, List.length_cons] at this
    exact ⟨Nat.le_of_succ_le this, hu.intake, hu.reception⟩
  notice u bytes hu _ := ⟨hu.answers, hu.intake, hu.reception⟩
  fall u x hu _ _ := ⟨hu.answers, hu.intake, hu.reception⟩

/-! ### The turns of the bus (R142) -/

theorem LinkUnit.TakesTurns.sending_none {u : LinkUnit} (hu : u.TakesTurns) (h : u.bus = .controller) :
    u.sending = none := by
  cases hs : u.sending with
  | none => rfl
  | some x => exact absurd h (hu.sending (by simp [hs])).1

/-- A unit whose bus is the controller's and that sends nothing takes its turns when the window is not reserved inside a
frame, and it is prepared only between frames and not for the window. -/
theorem LinkUnit.TakesTurns.controller {v : LinkUnit} (hb : v.bus = .controller) (hs : v.sending = none)
    (hw : v.rx ≠ .betweenFrames → v.window = false) (hp : v.prepared = true → v.rx = .betweenFrames ∧ v.window = false) :
    v.TakesTurns where
  owner h := by rw [hb] at h; cases h
  turned h := by rw [hb] at h; cases h
  sending h := by rw [hs] at h; cases h
  sent x h := by rw [hs] at h; cases h
  reception h := ⟨hb, hw h⟩
  prepared h := ⟨hb, hp h⟩

/-- The end of an edge at which the controller has the bus. -/
theorem LinkUnit.TakesTurns.edgeEnd {v : LinkUnit} (waiting : Bool) (hb : v.bus = .controller) (hs : v.sending = none)
    (hw : v.window = false) : LinkUnit.TakesTurns { v with prepared := v.rx == .betweenFrames && waiting } :=
  .controller hb hs (fun _ => hw) fun h => ⟨eq_of_beq (Bool.and_eq_true_iff.1 h).1, hw⟩

/-- The IX48 drives a byte of its frame. -/
theorem LinkUnit.TakesTurns.drive {u : LinkUnit} (hu : u.TakesTurns) (hb : u.bus = .ix48) : LinkUnit.TakesTurns
    { u with sending := u.sending.map fun x => { x with sent := min (x.sent + 1) (max x.sent x.bytes.length) } } where
  owner h := by simpa using hu.owner hb
  turned h := by rw [hb] at h; cases h
  sending h := hu.sending (by simpa using h)
  sent y h := by
    obtain ⟨x, hx, rfl⟩ := Option.map_eq_some_iff.1 h
    have := hu.sent x hx
    dsimp only
    omega
  reception h := absurd ((hu.reception h).1.symm.trans hb) (by decide)
  prepared h := absurd ((hu.prepared h).1.symm.trans hb) (by decide)

/-- The turning edge after a rise. -/
theorem LinkUnit.TakesTurns.take {u : LinkUnit} (hu : u.TakesTurns) (hb : u.bus = .turning)
    (hs : u.sending.isSome = true) : LinkUnit.TakesTurns { u with bus := .ix48 } where
  owner _ := hs
  turned h := by cases h
  sending h := ⟨by simp, (hu.sending h).2⟩
  sent := hu.sent
  reception h := absurd ((hu.reception h).1.symm.trans hb) (by decide)
  prepared h := absurd ((hu.prepared h).1.symm.trans hb) (by decide)

/-- The turning edge after a fall. -/
theorem LinkUnit.TakesTurns.giveBack {u : LinkUnit} (hu : u.TakesTurns) (hb : u.bus = .turning)
    (hs : u.sending = none) : LinkUnit.TakesTurns { u with bus := .controller } :=
  .controller rfl hs (fun h => (hu.reception h).2) fun h => absurd ((hu.prepared h).1.symm.trans hb) (by decide)

/-- TURN rises between frames. -/
theorem LinkUnit.takesTurns_raise {u : LinkUnit} (bytes : List Byte) (h : u.rx = .betweenFrames) :
    (u.raise bytes).TakesTurns where
  owner e := by cases e
  turned _ e := by cases e
  sending _ := ⟨by simp [LinkUnit.raise], h, rfl⟩
  sent x e := by cases e; exact Nat.zero_le _
  reception e := absurd h e
  prepared e := by cases e

theorem linkLaw_takesTurns : LinkLaw LinkUnit.TakesTurns where
  initial := .controller rfl rfl (fun _ => rfl) fun _ => ⟨rfl, rfl⟩
  served _ _ hu _ := ⟨hu.owner, hu.turned, hu.sending, hu.sent, hu.reception, hu.prepared⟩
  byte u b e waiting hu hb _ := by
    have hs := hu.sending_none hb
    have htaken := u.takeByte_cases b e
    generalize (u.takeByte b e).1 = v at htaken
    rcases htaken with ⟨h, -⟩ | h
    · rw [h]; exact .edgeEnd waiting hb hs rfl
    · cases h with
      | inside => exact .edgeEnd waiting hb hs rfl
      | dropped => exact .edgeEnd waiting hb hs rfl
      | joined => exact .edgeEnd waiting hb hs rfl
  held u waiting hu hb := .edgeEnd (v := { u with window := false }) waiting hb (hu.sending_none hb) rfl
  own u hu := by
    unfold LinkUnit.ownEdge
    split
    next hb =>
      split
      next hs => exact hu.take hb hs
      next hs => exact hu.giveBack hb (by simpa using hs)
    next hb => exact hu.drive hb
    next => exact hu
  answer u bytes a rest hu hrx ha :=
    have h := LinkUnit.takesTurns_raise bytes hrx
    ⟨h.owner, h.turned, h.sending, h.sent, h.reception, h.prepared⟩
  notice u bytes hu hrx := LinkUnit.takesTurns_raise bytes hrx
  fall u x hu hb _ := by
    refine ⟨fun h => ?_, fun _ _ => rfl, fun h => ?_, fun x h => ?_, fun h => ?_, fun h => ?_⟩
    · cases h
    · cases h
    · cases h
    · exact absurd ((hu.reception h).1.symm.trans hb) (by decide)
    · cases h

end Sys2Proof.Machine
end

