-- ==== Sys2Proof/Proofs/Quantities.lean ====
section
/-! Every quantity stays in its range through every step. -/
namespace Sys2Proof.Machine

/-- Settles O58: records and configuration by the updates, links by what an edge, a rise, a fall and a request do. -/
theorem quantitiesStayInRange : Obligations.QuantitiesStayInRange := by
  unfold Obligations.QuantitiesStayInRange
  refine ⟨fun s t hs h => ?records, fun s t hs h => ?room, fun s t hs h => ?turns, fun s t hs h => ?config⟩
  case records => exact closedStep_recordsInRange.step (fun _ _ hs => hs) h hs
  case room => exact linkLaw_withinRoom.step hs h
  case turns => exact linkLaw_takesTurns.step hs h
  case config => 
    have queue (s : State) (rest : List Instr) : s.SameConfig { s with pending := rest } :=
      ⟨rfl, rfl, fun _ => rfl, fun _ => rfl, rfl⟩
    exact closedStep_configInRange.step (fun s rest => (queue s rest).inRange) h hs

end Sys2Proof.Machine
end

