-- ==== Sys2Proof/Proofs/Requests.lean ====
section
/-! Requests in general (9.4): the stages of R141 before the owner, what waits (R140; entries 1 and 4), and the one
answer, of at most 64 bytes (R140, R148). -/
namespace Sys2Proof.Machine

/-! ### The stages before the owner (R141) -/

theorem exec_command_offered {s : State} {p : Port} {k : RequestKind} {body : List Byte} (h : s.offers p k body) :
    exec (k.command p) s = .next (((s.dropRequest p).judgeRequest k p { kind := k.code, body := body }
      (k.owner p body)).answer p { kind := k.code, body := body }) := by
  rw [exec_command, State.takeRequest_offered h]

theorem State.judgeRequest_badLength {s : State} {k : RequestKind} {f : Frame} (h : k.lengthOk f.body = false) (p : Port)
    (owner : State → Reply) :
    s.judgeRequest k p f owner = (s.captureLink p .badLength).refuse .badField [f.kind, byte f.body.length] := by
  unfold State.judgeRequest
  rw [if_pos (by rw [h]; rfl)]

theorem State.judgeRequest_notPermitted {s : State} {k : RequestKind} {f : Frame} {p : Port}
    (hl : k.lengthOk f.body = true) (hp : k.permitted p f.body = false) (owner : State → Reply) :
    s.judgeRequest k p f owner = s.refuse .notPermitted [] := by
  unfold State.judgeRequest
  rw [if_neg (by simp [hl]), if_pos (by rw [hp]; rfl)]

theorem State.judgeRequest_noRegion {s : State} {k : RequestKind} {f : Frame} {p : Port}
    (hl : k.lengthOk f.body = true) (hp : k.permitted p f.body = true) (hoff : s.portOff p = true)
    (hq : k.isQuery = false) (owner : State → Reply) : s.judgeRequest k p f owner = s.refuse .noRegion [] := by
  unfold State.judgeRequest
  rw [if_neg (by simp [hl]), if_neg (by simp [hp]), if_pos (by simp [hoff, hq])]

theorem namesRequest_eq_false {b : Byte} (h : ∀ k : RequestKind, k.code ≠ b) : namesRequest b = false := by
  rw [namesRequest, List.any_eq_false]
  exact fun k _ e => h k (eq_of_beq e)

theorem State.oldestRequest_offered {s : State} {p : Port} {f : Frame} (h : s.offersFrame p f) :
    s.oldestRequest p = some f := by
  obtain ⟨hx, ha, hi⟩ := h
  unfold State.oldestRequest
  rw [if_neg, hi]
  simp only [hx, Bool.false_or, decide_eq_true_eq]
  omega

theorem exec_requestOfUnknownKind_offered {s : State} {p : Port} {f : Frame} (hf : s.offersFrame p f)
    (hk : ∀ k : RequestKind, k.code ≠ f.kind) : exec (.requestOfUnknownKind p) s =
      .next ((((s.dropRequest p).captureLink p .unknownKind).refuse .unknown [f.kind]).answer p f) := by
  simp only [exec, execRequestOfUnknownKind, State.oldestRequest_offered hf, namesRequest_eq_false hk,
    Bool.false_eq_true, if_false]

theorem amend_lengthOk_iff (body : List Byte) :
    RequestKind.amend.lengthOk body = true ↔ ∃ n, body[2]? = some n ∧ body.length = 3 + 10 * n.toNat := by
  unfold RequestKind.lengthOk
  match body with
  | [] => simp
  | [_] => simp
  | [_, _] => simp
  | _ :: _ :: n :: rest => simp

/-- Settles O12: the table by its rows, and each stage by its test. -/
theorem requestsJudgedInOrder : Obligations.RequestsJudgedInOrder := by
  unfold Obligations.RequestsJudgedInOrder
  refine ⟨⟨?requests, ?queries, ?clear, ?amend⟩, fun s p body => ⟨fun b hb hf => ?unknown, fun k hk => ?stages⟩⟩
  case requests =>
    simp only [List.forall_mem_cons, List.not_mem_nil, false_implies, implies_true, and_true]
    refine ⟨?_, ?_, ?_, ?_, ?_, ?_, ?_, ?_, ?_, ?_, ?_, ?_, ?_, ?_, ?_, ?_, ?_⟩
    all_goals exact ⟨rfl, fun body p => ⟨rfl, by cases p <;> simp [RequestKind.permitted]⟩⟩
  case queries =>
    simp only [List.forall_mem_cons, List.not_mem_nil, false_implies, implies_true, and_true]
    exact ⟨⟨rfl, fun _ _ => ⟨rfl, rfl⟩⟩, ⟨rfl, fun _ _ => ⟨rfl, rfl⟩⟩, ⟨rfl, fun _ _ => ⟨rfl, rfl⟩⟩,
      ⟨rfl, fun _ _ => ⟨rfl, rfl⟩⟩⟩
  case clear => exact ⟨rfl, fun body => ⟨rfl, rfl, fun r => by rw [Bool.eq_iff_iff]; simp [RequestKind.permitted]⟩⟩
  case amend =>
    refine ⟨rfl, fun body p => ⟨amend_lengthOk_iff body, ?_⟩⟩
    cases p <;> simp [RequestKind.permitted]
  case unknown => exact exec_requestOfUnknownKind_offered hf hb
  case stages =>
    rw [exec_command_offered hk]
    refine ⟨fun hl => ?_, fun hl hp => ?_, fun r hr hoff hl hp hq => ?_⟩
    · rw [State.judgeRequest_badLength hl]; rfl
    · rw [State.judgeRequest_notPermitted hl hp]; rfl
    · rw [State.judgeRequest_noRegion hl hp (by rw [hr]; simpa [State.portOff] using hoff) hq]; rfl

/-! ### What waits (entries 1 and 4) -/

theorem Handover.warningDue_iff {r : Handover} {now : Seconds} :
    r.warningDue now = true ↔ ∃ b ∈ r.budget, b.since ≠ none ∧ b.warnAt = some now := by
  unfold Handover.warningDue
  cases r.budget <;> simp [Option.isSome_iff_ne_none]

theorem Handover.expiryDue_iff {r : Handover} {now : Seconds} :
    r.expiryDue now = true ↔ ∃ b ∈ r.budget, b.since ≠ none ∧ b.expiryAt = some now := by
  unfold Handover.expiryDue
  cases r.budget <;> simp [Option.isSome_iff_ne_none]

theorem State.bookingExpiry_waiting {s : State} {h : HNum} (hs : ∀ x ∈ s.hand h, x.bookingTimer ≠ some 0) :
    s.bookingExpiry h = s := by
  unfold State.bookingExpiry
  split
  · rfl
  next x hx =>
    split
    next ht _ => exact absurd ht (hs x hx)
    next => rfl

theorem State.exposureWarning_waiting {s : State} {h : HNum} (hs : ∀ x ∈ s.hand h, x.warningDue s.clock = false) :
    s.exposureWarning h = s := by
  unfold State.exposureWarning
  split
  · rfl
  next x hx => rw [hs x hx]; rfl

theorem State.exposureExpiry_waiting {s : State} {h : HNum} (hs : ∀ x ∈ s.hand h, x.expiryDue s.clock = false) :
    s.exposureExpiry h = s := by
  unfold State.exposureExpiry
  split
  · rfl
  next x hx => rw [hs x hx]; rfl

theorem State.grantTimeout_waiting {s : State} {c : ColIx} (hs : ∀ g ∈ (s.col c).grant, g.timer ≠ some 0) :
    s.grantTimeout c = s := by
  unfold State.grantTimeout
  split
  · rfl
  next g hg => rw [if_neg fun h => hs g hg h.1]

/-- Settles O13: each command looks for its event first. -/
theorem commandsWaitForTheirEvents : Obligations.CommandsWaitForTheirEvents := by
  unfold Obligations.CommandsWaitForTheirEvents
  refine ⟨fun s p k h => ?request, fun s => ⟨fun c h => ?reading, fun c h => ?settle, fun c h => ?grant, fun h => ?advance,
    fun h => ?trend, fun i h => ?booking, fun i h => ?warning, fun i h => ?expiry⟩⟩
  case request => rw [exec_command, State.takeRequest_waiting h]
  case reading => simp only [exec, execGaugeReadingChange, State.readingChange, h, false_and, if_false]
  case settle => simp only [exec, execSettleExpiry, State.settleExpiry, h, false_and, if_false]
  case grant => simp only [exec, execGrantTimeout, State.grantTimeout_waiting h]
  case advance => simp only [exec, execSecondsAdvance, State.advance, h, Bool.false_and, Bool.false_eq_true, if_false]
  case trend => simp only [exec, execTrendSample, State.trendSample, h, Bool.false_eq_true, if_false]
  case booking => simp only [exec, execBookingExpiry, State.bookingExpiry_waiting h]
  case warning =>
    have hdue : ∀ x ∈ s.hand i, x.warningDue s.clock = false := fun x hx => by
      rw [← Bool.not_eq_true, Handover.warningDue_iff]
      rintro ⟨b, hb, hsince, hat⟩
      exact (h x hx b hb).elim hsince fun hne => hne hat
    simp only [exec, execExposureWarning, State.exposureWarning_waiting hdue]
  case expiry =>
    have hdue : ∀ x ∈ s.hand i, x.expiryDue s.clock = false := fun x hx => by
      rw [← Bool.not_eq_true, Handover.expiryDue_iff]
      rintro ⟨b, hb, hsince, hat⟩
      exact (h x hx b hb).elim hsince fun hne => hne hat
    simp only [exec, execExposureExpiry, State.exposureExpiry_waiting hdue]

end Sys2Proof.Machine
end

