-- ==== Sys2Proof/Proofs/ColumnFrames.lean ====
section
/-! Operations that leave every column as it is: posts, captures, the Load Monitor, charging, and the ends of records. -/
namespace Sys2Proof.Machine

@[simp] theorem State.columns_post (s : State) (p : Port) (n : Notice) : (s.post p n).columns = s.columns := by
  obtain ⟨_, h⟩ := s.post_eq_with_pendingSets p n; rw [h]
@[simp] theorem State.columns_postAll (s : State) (ps : List Port) (n : Notice) :
    (s.postAll ps n).columns = s.columns := by
  obtain ⟨_, h⟩ := s.postAll_eq_with_pendingSets ps n; rw [h]
@[simp] theorem State.records_post (s : State) (p : Port) (n : Notice) : (s.post p n).records = s.records := by
  obtain ⟨_, h⟩ := s.post_eq_with_pendingSets p n; rw [h]
@[simp] theorem State.records_postAll (s : State) (ps : List Port) (n : Notice) :
    (s.postAll ps n).records = s.records := by
  obtain ⟨_, h⟩ := s.postAll_eq_with_pendingSets ps n; rw [h]
@[simp] theorem State.columns_capture (s : State) (g : Fin 8) (e : Capture) : (s.capture g e).columns = s.columns := by
  obtain ⟨x, -, h | h⟩ := s.capture_eq g e <;> simp [h]
@[simp] theorem State.records_capture (s : State) (g : Fin 8) (e : Capture) : (s.capture g e).records = s.records := by
  obtain ⟨x, -, h | h⟩ := s.capture_eq g e <;> simp [h]
@[simp] theorem Work.columns_setLoad (w : Work) (l : LoadMonitor) : (w.setLoad l).st.columns = w.st.columns := by
  obtain ⟨_, h⟩ := w.setLoad_st_eq_with_load_pendingSets l; rw [h]
@[simp] theorem Work.records_setLoad (w : Work) (l : LoadMonitor) : (w.setLoad l).st.records = w.st.records := by
  obtain ⟨_, h⟩ := w.setLoad_st_eq_with_load_pendingSets l; rw [h]
@[simp] theorem Work.records_handOccupancy (w : Work) : w.handOccupancy.st.records = w.st.records :=
  w.records_setLoad _

theorem State.col_eq_of_columns {s t : State} (h : t.columns = s.columns) (c : ColIx) : t.col c = s.col c := by
  unfold State.col
  rw [h]

theorem State.hand_eq_of_records {s t : State} (h : t.records = s.records) (i : HNum) : t.hand i = s.hand i := by
  unfold State.hand
  rw [h]

@[simp] theorem State.col_postAll (s : State) (ps : List Port) (n : Notice) (c : ColIx) :
    (s.postAll ps n).col c = s.col c := State.col_eq_of_columns (s.columns_postAll ps n) c
@[simp] theorem State.hand_postAll (s : State) (ps : List Port) (n : Notice) (i : HNum) :
    (s.postAll ps n).hand i = s.hand i := State.hand_eq_of_records (s.records_postAll ps n) i
@[simp] theorem Work.col_setLoad (w : Work) (l : LoadMonitor) (c : ColIx) : (w.setLoad l).st.col c = w.st.col c :=
  State.col_eq_of_columns (w.columns_setLoad l) c
@[simp] theorem Work.hand_setLoad (w : Work) (l : LoadMonitor) (i : HNum) : (w.setLoad l).st.hand i = w.st.hand i :=
  State.hand_eq_of_records (w.records_setLoad l) i
@[simp] theorem Work.col_handOccupancy (w : Work) (c : ColIx) : w.handOccupancy.st.col c = w.st.col c :=
  w.col_setLoad _ c
@[simp] theorem Work.hand_handOccupancy (w : Work) (i : HNum) : w.handOccupancy.st.hand i = w.st.hand i :=
  w.hand_setLoad _ i

/-! ### Exposure -/

@[simp] theorem Work.columns_raiseUrgency (w : Work) (h : HNum) (u : Nat) :
    (w.raiseUrgency h u).st.columns = w.st.columns := by
  unfold Work.raiseUrgency
  split
  · rfl
  · split
    · dsimp only; split <;> rfl
    · rfl

@[simp] theorem Work.columns_takeWarning (w : Work) (h : HNum) : (w.takeWarning h).st.columns = w.st.columns := by
  unfold Work.takeWarning
  split
  · rfl
  · simp

@[simp] theorem Work.columns_judgeCharging (w : Work) (h : HNum) : (w.judgeCharging h).st.columns = w.st.columns := by
  unfold Work.judgeCharging
  split
  · rfl
  · split
    · rfl
    · dsimp only
      split
      · split
        · simp
        · rfl
      · rfl
      · rfl

@[simp] theorem Work.columns_change (w : Work) (h : HNum) (f : Handover → Handover) :
    (w.change h f).st.columns = w.st.columns := by
  simp [Work.change]

@[simp] theorem Work.col_judgeCharging (w : Work) (h : HNum) (c : ColIx) :
    (w.judgeCharging h).st.col c = w.st.col c := State.col_eq_of_columns (w.columns_judgeCharging h) c
@[simp] theorem Work.col_change (w : Work) (h : HNum) (f : Handover → Handover) (c : ColIx) :
    (w.change h f).st.col c = w.st.col c := State.col_eq_of_columns (w.columns_change h f) c

/-! ### The ends of records -/

@[simp] theorem Work.columns_close (w : Work) (h : HNum) (why : Reason) (ps : RegionSet) (n : Notice) :
    (w.close h why ps n).st.columns = w.st.columns := by
  unfold Work.close
  dsimp only
  generalize (if w.st.level n.kind = 0 then 0 else ps) = waiting
  split
  · simp
  · simp

@[simp] theorem Work.columns_withdraw (w : Work) (h : HNum) (cause : Byte) :
    (w.withdraw h cause).st.columns = w.st.columns := by
  unfold Work.withdraw; split
  · rfl
  · simp

@[simp] theorem Work.columns_handBack (w : Work) (h : HNum) (c : ColIx) (rb : Robot) :
    (w.handBack h c rb).st.columns = w.st.columns := by
  unfold Work.handBack; split
  · rfl
  · simp [State.captureColumn]

@[simp] theorem Work.col_close (w : Work) (h : HNum) (why : Reason) (ps : RegionSet) (n : Notice) (c : ColIx) :
    (w.close h why ps n).st.col c = w.st.col c := State.col_eq_of_columns (w.columns_close h why ps n) c
@[simp] theorem Work.col_withdraw (w : Work) (h : HNum) (cause : Byte) (c : ColIx) :
    (w.withdraw h cause).st.col c = w.st.col c := State.col_eq_of_columns (w.columns_withdraw h cause) c
@[simp] theorem Work.col_handBack (w : Work) (h : HNum) (d : ColIx) (rb : Robot) (c : ColIx) :
    (w.handBack h d rb).st.col c = w.st.col c := State.col_eq_of_columns (w.columns_handBack h d rb) c

@[simp] theorem State.columns_releaseWaiting (s : State) (r : Region) (h : HNum) :
    (s.releaseWaiting r h).columns = s.columns := by
  unfold State.releaseWaiting
  split
  · rfl
  · split
    · rfl
    · split
      · dsimp only; split <;> rfl
      · rfl

@[simp] theorem State.col_dismiss (s : State) (h : HNum) (rb : Robot) (x : Byte) (c : ColIx) :
    (s.dismiss h rb x).col c = s.col c := State.col_post ..
@[simp] theorem State.hand_dismiss (s : State) (h : HNum) (rb : Robot) (x : Byte) (i : HNum) :
    (s.dismiss h rb x).hand i = s.hand i := State.hand_post ..
@[simp] theorem State.col_postFence (s : State) (d c : ColIx) : (s.postFence d).col c = s.col c := State.col_postAll ..
@[simp] theorem State.hand_postFence (s : State) (d : ColIx) (i : HNum) : (s.postFence d).hand i = s.hand i :=
  State.hand_postAll ..
@[simp] theorem State.col_postReady (s : State) (h : HNum) (c : ColIx) : (s.postReady h).col c = s.col c := by
  unfold State.postReady; split <;> simp
@[simp] theorem State.hand_postReady (s : State) (h i : HNum) : (s.postReady h).hand i = s.hand i := by
  unfold State.postReady; split <;> simp

/-- A fold of operations that keep a value keeps it. -/
theorem foldl_keeps {α β γ : Type} (get : β → γ) (f : β → α → β) (h : ∀ b a, get (f b a) = get b) (l : List α) (b : β) :
    get (l.foldl f b) = get b := by
  induction l generalizing b with
  | nil => rfl
  | cons a l ih => rw [List.foldl_cons, ih, h]

@[simp] theorem State.col_renumber_stack (s : State) (c : ColIx) : (s.renumber.col c).stack = (s.col c).stack := by
  unfold State.renumber
  simp only [State.col_setStamp]
  rw [foldl_keeps (fun s : State => (s.col c).stack) (fun s h => s.modHand h (Handover.restamp _))
    fun s h => by rw [State.col_modHand]]
  exact foldl_keeps (fun s : State => (s.col c).stack) (fun s d => s.modCol d (Column.restamp _))
    (fun s d => by rw [State.col_modCol]; split <;> [(rename_i h; rw [h]; rfl); rfl]) _ s

end Sys2Proof.Machine
end

