-- ==== Sys2Proof/Proofs/AnswerLengths.lean ====
section
/-! Every request that is taken is answered once, and the answer's body has 64 bytes at most (R140, R148): the data of
each owner have 62 at most, beside the request number and the result. -/
namespace Sys2Proof.Machine

/-! ### The sizes of items (R148) -/

@[simp] theorem length_put16 (o : FieldOrder) (v : BitVec 16) : (put16 o v).length = 2 := by cases o <;> rfl
@[simp] theorem length_put24 (o : FieldOrder) (v : BitVec 24) : (put24 o v).length = 3 := by cases o <;> rfl
@[simp] theorem length_putNat16 (o : FieldOrder) (n : Nat) : (putNat16 o n).length = 2 := length_put16 o _
@[simp] theorem length_optNat16 (o : FieldOrder) (n : Option Nat) : (optNat16 o n).length = 2 := by cases n <;> simp [optNat16]
@[simp] theorem length_columnConfigBytes (g : ColumnConfig) : g.bytes.length = 7 := rfl
@[simp] theorem length_portConfigBytes (g : PortConfig) : g.bytes.length = 4 := rfl
@[simp] theorem length_setpointBytes (p : Setpoint) : p.bytes.length = 4 := rfl
@[simp] theorem length_gateBytes (l : LoadMonitor) : l.gateBytes.length = 5 := rfl
@[simp] theorem length_limitsBytes (o : FieldOrder) (l : Limits) : (l.bytes o).length = 8 := by simp [Limits.bytes]

@[simp] theorem State.length_recordItems (s : State) (f : PortConfig) (h : HNum) (r : Handover) :
    (s.recordItems f h r).length = 30 := by
  unfold State.recordItems
  cases r.due <;> cases r.budget.bind (·.since) <;> simp

@[simp] theorem State.length_relationItems (s : State) (f : PortConfig) (h : HNum) (r : Handover) :
    (s.relationItems f h r).length = 12 := by
  unfold State.relationItems
  generalize s.claimPlace h = place
  generalize r.follower = follower
  cases follower with
  | some _ => rfl
  | none =>
    cases place with
    | none => rfl
    | some place => cases place <;> simp [State.claimItems]

theorem State.length_handoverData_le (s : State) (f : PortConfig) (h : HNum) : (s.handoverData f h).length ≤ 42 := by
  unfold State.handoverData
  split <;> simp

theorem State.length_entryBytes (s : State) (o : FieldOrder) (h : HNum) : (s.entryBytes o h).length = 5 := by
  unfold State.entryBytes
  split <;> simp

/-- The 17 fixed bytes of QUERY COLUMN, and five for each entry of the stack and the inbound set (R35). -/
theorem State.length_columnData (s : State) (f : PortConfig) (c : ColIx) :
    (s.columnData f c).length = 17 + 5 * ((s.col c).stack.length + (s.col c).inbound.length) := by
  have hentries (l : List HNum) : (l.flatMap (s.entryBytes f.order)).length = 5 * l.length := by
    rw [List.length_flatMap, List.map_congr_left fun h _ => s.length_entryBytes f.order h]
    simp [mul_comm]
  simp only [State.columnData, List.length_append, List.length_cons, List.length_nil, hentries, length_columnConfigBytes]
  omega

/-! ### The data of each owner -/

/-- A column holds no more than its depth, and that is at most 6 (R4, R18). -/
def State.WithinDepth (s : State) : Prop :=
  ∀ c, (s.col c).stack.length + (s.col c).inbound.length ≤ (s.col c).cfg.depth ∧ (s.col c).cfg.depth ≤ 6

theorem bookOwner_data_le (r : Region) (body : List Byte) (s : State) : (bookOwner r body s).data.length ≤ 62 := by
  unfold bookOwner
  dsimp only
  repeat' split
  all_goals simp [State.refuse]

theorem cancelOwner_data_le (r : Region) (body : List Byte) (s : State) : (cancelOwner r body s).data.length ≤ 62 := by
  unfold cancelOwner
  dsimp only
  repeat' split
  all_goals simp [State.refuse]

theorem claimOwner_data_le (r : Region) (body : List Byte) (s : State) : (claimOwner r body s).data.length ≤ 62 := by
  unfold claimOwner
  dsimp only
  repeat' split
  all_goals simp [State.refuse]

theorem restartOwner_data_le (r : Region) (body : List Byte) (s : State) :
    (restartOwner r body s).data.length ≤ 62 := by
  simp [restartOwner]

theorem reportOwner_data_le
    {apply : State → Region → Robot → HNum → Handover → Matched → Option (Work × List Byte)}
    (h : ∀ s r rb i x m w d, apply s r rb i x m = some (w, d) → d.length ≤ 62) (r : Region) (body : List Byte)
    (s : State) : (reportOwner apply r body s).data.length ≤ 62 := by
  unfold reportOwner
  dsimp only
  repeat' split
  case h_2 he => exact h _ _ _ _ _ _ _ _ he
  all_goals simp [State.refuse]

theorem applyLanded_data_le {s : State} {r : Region} {rb : Robot} {h : HNum} {x : Handover} {m : Matched} {w : Work}
    {d : List Byte} (e : applyLanded s r rb h x m = some (w, d)) : d.length ≤ 62 := by
  unfold applyLanded at e
  dsimp only at e
  split at e <;> cases e <;> simp

theorem length_shiftAnswer (s : State) (f : PortConfig) (k : HNum) : (shiftAnswer s f k).length = 2 := by
  unfold shiftAnswer
  split
  · split <;> rfl
  · rfl

theorem applyLifted_data_le {s : State} {r : Region} {rb : Robot} {h : HNum} {x : Handover} {m : Matched} {w : Work}
    {d : List Byte} (e : applyLifted s r rb h x m = some (w, d)) : d.length ≤ 62 := by
  unfold applyLifted at e
  dsimp only at e
  split at e <;> cases e <;> simp [length_shiftAnswer]

theorem applyRelease_data_le {s : State} {r : Region} {rb : Robot} {h : HNum} {x : Handover} {m : Matched} {w : Work}
    {d : List Byte} (e : applyRelease s r rb h x m = some (w, d)) : d.length ≤ 62 := by
  unfold applyRelease at e
  dsimp only at e
  split at e <;> cases e <;> simp

theorem queryHandoverOwner_data_le (p : Port) (body : List Byte) (s : State) :
    (queryHandoverOwner p body s).data.length ≤ 62 := by
  have hdata (h : HNum) : (s.handoverData (s.view p) h).length ≤ 62 :=
    (s.length_handoverData_le _ h).trans (by decide)
  unfold queryHandoverOwner
  dsimp only
  repeat' split
  all_goals simp [State.refuse, hdata]

theorem queryColumnOwner_data_le {s : State} (hs : s.WithinDepth) (p : Port) (body : List Byte) :
    (queryColumnOwner p body s).data.length ≤ 62 := by
  unfold queryColumnOwner
  dsimp only
  split
  · simp
  next c _ =>
    have := hs c
    rw [State.refuse_data, State.length_columnData]
    omega

theorem queryStatusOwner_data_le (p : Port) (body : List Byte) (s : State) :
    (queryStatusOwner p body s).data.length ≤ 62 := by
  simp [queryStatusOwner, State.statusData]

theorem queryErrorOwner_data_le (p : Port) (body : List Byte) (s : State) :
    (queryErrorOwner p body s).data.length ≤ 62 := by
  unfold queryErrorOwner
  dsimp only
  split
  · simp
  · split <;> simp [Capture.bytes, ErrorGroup.flags]

theorem configureOwners_data_le (body : List Byte) (s : State) :
    (configureColumnOwner body s).data.length ≤ 62 ∧ (configurePortOwner body s).data.length ≤ 62 ∧
      (configureLimitsOwner body s).data.length ≤ 62 ∧ (configureLoadOwner body s).data.length ≤ 62 ∧
      (configureNoticesOwner body s).data.length ≤ 62 := by
  refine ⟨?_, ?_, ?_, ?_, ?_⟩
  · unfold configureColumnOwner
    repeat' split
    all_goals simp [State.refuse]
  · unfold configurePortOwner
    repeat' split
    all_goals simp [State.refuse]
  · unfold configureLimitsOwner
    repeat' split
    all_goals simp [State.refuse]
  · unfold configureLoadOwner
    split
    all_goals simp [State.refuse]
  · unfold configureNoticesOwner
    dsimp only
    repeat' split
    all_goals simp [State.refuse]

theorem setModeOwner_data_le (body : List Byte) (s : State) : (setModeOwner body s).data.length ≤ 62 := by
  unfold setModeOwner
  split <;> simp

theorem forceOwner_data_le (body : List Byte) (s : State) : (forceOwner body s).data.length ≤ 62 := by
  unfold forceOwner
  dsimp only
  repeat' split
  all_goals simp [State.refuse]

theorem fenceOwner_data_le (body : List Byte) (s : State) : (fenceOwner body s).data.length ≤ 62 := by
  unfold fenceOwner
  repeat' split
  all_goals simp [State.refuse]

theorem restoreOwner_data_le (body : List Byte) (s : State) : (restoreOwner body s).data.length ≤ 62 := by
  unfold restoreOwner
  dsimp only
  repeat' split
  all_goals simp [State.refuse]

/-! ### AMEND: no more entries than the depth -/

@[simp] theorem Work.settleOrOpen_stack (w : Work) (c d : ColIx) :
    ((w.settleOrOpen c).st.col d).stack = (w.st.col d).stack := by
  unfold Work.settleOrOpen
  split <;> simp only [Work.up_st, Work.start_st, State.col_modCol] <;> split
  all_goals first | rfl | (rename_i h; rw [h])

/-- The stack after an AMEND is that of the list (R120, step 2), which has no more records than entries. -/
theorem amendApply_stack_length_le (s : State) (c : ColIx) (es : List AmendEntry) :
    ((amendApply s c es).st.col c).stack.length ≤ es.length := by
  unfold amendApply
  extract_lets wasFenced w1 w2 w3 stack w4 w5 w6 w7 w8
  have h5 : (w5.st.col c).stack = stack := by
    have h4 : (w4.st.col c).stack = stack := by simp [w4]
    rw [← h4]
    exact foldl_keeps (fun w : Work => (w.st.col c).stack) (fun w h => w.judgeCharging h) (fun w h => by simp) stack w4
  have h7 : (w7.st.col c).stack = stack := by
    rw [← h5]
    show ((if wasFenced = true then w6.up fun s => s.postFence c else w6).st.col c).stack = _
    split <;> simp [w6]
  have h8 : (w8.st.col c).stack = stack := by
    rw [← h7]
    exact foldl_keeps (fun s : State => (s.col c).stack) State.postReady (fun s h => by simp) stack w7.st
  rw [Work.startAll_st, Work.col_handOccupancy, h8]
  exact List.length_filterMap_le _ _

theorem amendOwner_data_le {s : State} (hs : s.WithinDepth) (body : List Byte) :
    (amendOwner body s).data.length ≤ 62 := by
  unfold amendOwner
  dsimp only
  split
  · simp
  next c _ =>
    split
    · simp
    · split
      · simp
      next es _ =>
        split
        · simp
        · unfold amendJudged
          dsimp only
          split
          · simp
          · split
            next data hdup =>
              have two : ∀ d ∈ s.amendDuplicate c es, d.length = 2 := by
                intro d hd
                unfold State.amendDuplicate at hd
                dsimp only at hd
                split at hd <;> simp only [Option.or_eq_some_iff, Option.mem_def, Option.map_eq_some_iff] at hd
                · rcases hd with ⟨_, _, rfl⟩ | ⟨_, _, _, rfl⟩ <;> rfl
                · rcases hd with ⟨_, _, rfl⟩ | ⟨_, _, _, rfl⟩ <;> rfl
              rw [State.refuse_data, two data hdup]
              decide
            next =>
              split
              · simp
              · split
                · simp
                next hroom =>
                  have hstack := amendApply_stack_length_le s c es
                  have hdepth := (hs c).2
                  simp only [List.length_append, List.length_cons, List.length_nil, List.length_map]
                  omega

theorem RequestKind.owner_data_le {s : State} (hs : s.WithinDepth) (k : RequestKind) (p : Port) (body : List Byte) :
    (k.owner p body s).data.length ≤ 62 := by
  have region {owner : Region → List Byte → State → Reply} (h : ∀ r, (owner r body s).data.length ≤ 62) :
      (regionOwner p owner body s).data.length ≤ 62 := by
    unfold regionOwner
    split
    · exact h _
    · simp
  obtain ⟨hcolumn, hport, hlimits, hload, hnotices⟩ := configureOwners_data_le body s
  cases k with
  | book => exact region fun r => bookOwner_data_le r body s
  | cancel => exact region fun r => cancelOwner_data_le r body s
  | claim => exact region fun r => claimOwner_data_le r body s
  | landed => exact region fun r => reportOwner_data_le (fun _ _ _ _ _ _ _ _ => applyLanded_data_le) r body s
  | lifted => exact region fun r => reportOwner_data_le (fun _ _ _ _ _ _ _ _ => applyLifted_data_le) r body s
  | release => exact region fun r => reportOwner_data_le (fun _ _ _ _ _ _ _ _ => applyRelease_data_le) r body s
  | regionRestart => exact region fun r => restartOwner_data_le r body s
  | queryHandover => exact queryHandoverOwner_data_le p body s
  | queryColumn => exact queryColumnOwner_data_le hs p body
  | queryStatus => exact queryStatusOwner_data_le p body s
  | queryError => exact queryErrorOwner_data_le p body s
  | clearErrors =>
    simp only [RequestKind.owner, clearErrorsOwner]
    split <;> simp [ErrorGroup.flags]
  | configureColumn => exact hcolumn
  | configurePort => exact hport
  | configureLimits => exact hlimits
  | configureLoad => exact hload
  | configureNotices => exact hnotices
  | setMode => exact setModeOwner_data_le body s
  | force => exact forceOwner_data_le body s
  | fence => exact fenceOwner_data_le body s
  | restore => exact restoreOwner_data_le body s
  | amend => exact amendOwner_data_le hs body
  | reinitialize => simp [RequestKind.owner, reinitializeOwner]

theorem State.judgeRequest_data_le {s : State} (hs : s.WithinDepth) (k : RequestKind) (p : Port) (f : Frame) :
    (s.judgeRequest k p f (k.owner p f.body)).data.length ≤ 62 := by
  unfold State.judgeRequest
  split
  · simp
  · split
    · simp
    · split
      · simp
      · exact k.owner_data_le hs p f.body

/-- Settles O14: the request is served, by an answer whose data are its owner's or those of a stage before it. -/
theorem oneAnswerForEachRequest : Obligations.OneAnswerForEachRequest := by
  unfold Obligations.OneAnswerForEachRequest
  intro s t p f c hf hc ht
  have answered (y : Reply) (hy : y.work.st.links = (s.dropRequest p).links) (he : exec c s = .next (y.answer p f))
      (hd : s.WithinDepth → y.data.length ≤ 62) :
      (∃ a, t.link p = { s.link p with intake := (s.link p).intake.tail, answers := (s.link p).answers ++ [a] } ∧
        a.head? = some (f.body.headD 0) ∧ (s.WithinDepth → a.length ≤ 64)) ∧ ∀ q, q ≠ p → t.link q = s.link q := by
    rw [he] at ht
    cases ht
    obtain ⟨hlink, hothers⟩ := Reply.answer_servedAt hy f
    exact ⟨⟨_, hlink, rfl, fun hs => by have := hd hs; simp only [List.length_cons]; omega⟩, hothers⟩
  rcases hc with ⟨k, hk, rfl⟩ | ⟨hk, rfl⟩
  · obtain ⟨kind, body⟩ := f
    cases hk
    exact answered _ (State.links_judgeRequest (closedOwner_links.owner p k body _)) (exec_command_offered hf)
      fun hs => State.judgeRequest_data_le (s := s.dropRequest p) hs k p _
  · exact answered _ (State.links_capture ..) (exec_requestOfUnknownKind_offered hf hk) fun _ => by simp

end Sys2Proof.Machine
end
-- ==== Sys2Proof/Proofs/Tables.lean ====
section
/-! The frames of reference, byte order and code values of the tables (O5, O15). -/
namespace Sys2Proof.Machine

/-! ### Frames of reference (R11 to R13) -/

/-- R12 undoes R11, for each of the eight frames and each column. -/
theorem PortConfig.fromLocal_toLocal (f : PortConfig) (c : ColIx) : f.fromLocal (f.toLocal c) = some c := by
  have rows : ∀ (rot : Fin 4) (m : Bool) (c : ColIx), PortConfig.fromLocal ⟨true, rot, m, .lowFirst⟩
      (PortConfig.toLocal ⟨true, rot, m, .lowFirst⟩ c) = some c := by decide
  exact rows f.rotation f.mirror c

theorem PortConfig.fromLocal_of_lt {l : Nat} (f : PortConfig) (h : 7 < l) : f.fromLocal l = none := by
  simp [PortConfig.fromLocal, h]

/-- The mirror, then the turns; and the inverse the other way (R13). -/
theorem PortConfig.heading_spec (f : PortConfig) (h : Heading) :
    (f.headingToLocal h).val = ((if f.mirror then (4 - h.val) % 4 else h.val) + f.rotation.val) % 4 ∧
      f.headingFromLocal (f.headingToLocal h) = h ∧ f.headingToLocal (f.headingFromLocal h) = h := by
  have rows : ∀ (rot : Fin 4) (m : Bool) (h : Heading), let f : PortConfig := ⟨true, rot, m, .lowFirst⟩
      (f.headingToLocal h).val = ((if m then (4 - h.val) % 4 else h.val) + rot.val) % 4 ∧
      f.headingFromLocal (f.headingToLocal h) = h ∧ f.headingToLocal (f.headingFromLocal h) = h := by decide
  exact rows f.rotation f.mirror h

/-! ### Byte order (R14) -/

theorem put16_lowFirst (v : BitVec 16) : put16 .lowFirst v = [byte (v.toNat % 256), byte (v.toNat / 256)] := by
  simp only [put16, byte, List.cons.injEq, and_true]
  constructor <;> apply BitVec.eq_of_toNat_eq <;> simp [BitVec.extractLsb'_toNat, Nat.shiftRight_eq_div_pow]

theorem put24_lowFirst (v : BitVec 24) :
    put24 .lowFirst v = [byte (v.toNat % 256), byte (v.toNat / 256 % 256), byte (v.toNat / 65536)] := by
  simp only [put24, byte, List.cons.injEq, and_true]
  refine ⟨?_, ?_, ?_⟩ <;> apply BitVec.eq_of_toNat_eq <;> simp [BitVec.extractLsb'_toNat, Nat.shiftRight_eq_div_pow]

theorem put16_highFirst (v : BitVec 16) : put16 .highFirst v = (put16 .lowFirst v).reverse := rfl
theorem put24_highFirst (v : BitVec 24) : put24 .highFirst v = (put24 .lowFirst v).reverse := rfl

theorem append_extract16 (v : BitVec 16) : v.extractLsb' 8 8 ++ v.extractLsb' 0 8 = v := by
  rw [BitVec.extractLsb'_append_extractLsb'_eq_extractLsb' (by rfl)]
  exact BitVec.extractLsb'_eq_self

theorem append_extract24 (v : BitVec 24) :
    v.extractLsb' 16 8 ++ v.extractLsb' 8 8 ++ v.extractLsb' 0 8 = v := by
  rw [BitVec.extractLsb'_append_extractLsb'_eq_extractLsb' (by rfl),
    BitVec.extractLsb'_append_extractLsb'_eq_extractLsb' (by rfl)]
  exact BitVec.extractLsb'_eq_self

/-- A 2-byte field is read back as it was sent. -/
theorem get16_of_put16 {o : FieldOrder} {v : BitVec 16} {x y : Byte} (h : put16 o v = [x, y]) : get16 o x y = v := by
  cases o <;> simp only [put16, List.cons.injEq, and_true] at h <;> obtain ⟨rfl, rfl⟩ := h <;>
    exact append_extract16 v

/-- A 3-byte field is read back as it was sent. -/
theorem get24_of_put24 {o : FieldOrder} {v : BitVec 24} {x y z : Byte} (h : put24 o v = [x, y, z]) :
    get24 o x y z = v := by
  cases o <;> simp only [put24, List.cons.injEq, and_true] at h <;> obtain ⟨rfl, rfl, rfl⟩ := h <;>
    exact append_extract24 v

/-- Settles O5: the eight frames, their inverses, the headings and the two byte orders. -/
theorem framesOfReference : Obligations.FramesOfReference := by
  refine ⟨⟨?_, fun f c => ⟨f.fromLocal_toLocal c, rfl⟩, fun f => ⟨rfl, fun l => f.fromLocal_of_lt⟩⟩,
    ⟨fun f h => f.heading_spec h, ?_⟩,
    ⟨fun v => ⟨put16_lowFirst v, rfl⟩, fun v => ⟨put24_lowFirst v, rfl⟩, fun _ _ _ _ => get16_of_put16,
      fun _ _ _ _ _ => get24_of_put24⟩, fun s => ⟨fun _ => rfl, rfl⟩⟩
  · intro row hrow en o
    show ColIx.all.map (PortConfig.toLocal ⟨true, row.1, row.2.1, .lowFirst⟩) = row.2.2.1 ∧
      (List.range 8).map (PortConfig.fromLocal ⟨true, row.1, row.2.1, .lowFirst⟩) = row.2.2.2.map some
    revert row
    decide
  · simp only [List.forall_mem_cons, List.not_mem_nil, false_implies, implies_true, and_true]
    refine ⟨?_, ?_, ?_, ?_, ?_, ?_, ?_, ?_⟩ <;> exact fun _ _ => rfl

/-! ### Answers and codes -/

theorem RegionSet.has_eq_getLsbD_setWidth (s : RegionSet) (r : Region) :
    RegionSet.has s r = (s.setWidth 8).getLsbD r.val := by
  have : r.val < 8 := by omega
  simp [RegionSet.has, this]

/-- Settles O15: the codes of the tables row by row. -/
theorem answersAndCodesAreAsTheTablesList : Obligations.AnswersAndCodesAreAsTheTablesList := by
  refine ⟨fun _ _ _ _ _ _ => rfl, rfl, rfl, rfl, rfl, rfl, fun _ => rfl, rfl, rfl, rfl, rfl, rfl, rfl, rfl, rfl,
    fun _ => rfl, rfl, ⟨rfl, rfl⟩, RegionSet.has_eq_getLsbD_setWidth, rfl, rfl, ?_⟩
  intro p
  cases p with
  | region r => revert r; decide
  | ps => exact ⟨rfl, rfl⟩

end Sys2Proof.Machine
end
-- ==== Sys2Proof/Proofs/Reset.lean ====
section
/-! Power-on, the held RESET input, and the laws of the device at reset (O4, O54). -/
namespace Sys2Proof.Machine

/-! ### While RESET is asserted no edge does anything to a command -/

theorem State.pace_of_reset {s : State} (h : s.resetAsserted = true) (p : Port) : s.pace p = false := by
  simp [State.pace, h]

theorem State.mayTurn_of_reset {s : State} (h : s.resetAsserted = true) (p : Port) : s.mayTurn p = false := by
  simp [State.mayTurn, h]

theorem State.fallDue_of_reset {s : State} (h : s.resetAsserted = true) (p : Port) : s.fallDue p = false := by
  simp [State.fallDue, h]

@[simp] theorem State.resetAsserted_setPace (s : State) (p : Port) : (s.setPace p).resetAsserted = s.resetAsserted := rfl

@[simp] theorem State.resetAsserted_post (s : State) (p : Port) (n : Notice) :
    (s.post p n).resetAsserted = s.resetAsserted := by
  unfold State.post; split <;> rfl

@[simp] theorem State.resetAsserted_capture (s : State) (g : Fin 8) (e : Capture) :
    (s.capture g e).resetAsserted = s.resetAsserted := by
  unfold State.capture; split <;> simp

@[simp] theorem State.resetAsserted_heldEdge (s : State) (p : Port) : (s.heldEdge p).resetAsserted = s.resetAsserted := by
  unfold State.heldEdge; split
  · dsimp only; split <;> rfl
  · rfl

@[simp] theorem State.resetAsserted_byteEdge (s : State) (p : Port) (b : Byte) (e : Bool) :
    (s.byteEdge p b e).resetAsserted = s.resetAsserted := by
  unfold State.byteEdge State.received
  dsimp only
  split <;> simp [State.captureLink]

@[simp] theorem State.resetAsserted_fillEdge (s : State) (p : Port) : (s.fillEdge p).resetAsserted = s.resetAsserted := by
  unfold State.fillEdge
  repeat' split
  all_goals simp

@[simp] theorem State.resetAsserted_awaitPace (p : Port) (n : Nat) (s : State) :
    (s.awaitPace p n).resetAsserted = s.resetAsserted := by
  induction n generalizing s with
  | zero => rfl
  | succ n ih => unfold State.awaitPace; split <;> simp [ih]

@[simp] theorem State.resetAsserted_awaitTurn (p : Port) (n : Nat) (s : State) :
    (s.awaitTurn p n).resetAsserted = s.resetAsserted := by
  induction n generalizing s with
  | zero => rfl
  | succ n ih => unfold State.awaitTurn; split <;> simp [ih]

@[simp] theorem State.resetAsserted_awaitFall (p : Port) (n : Nat) (s : State) :
    (s.awaitFall p n).resetAsserted = s.resetAsserted := by
  induction n generalizing s with
  | zero => rfl
  | succ n ih => unfold State.awaitFall; split <;> simp [ih]

theorem State.presentByte_of_reset {s : State} (h : s.resetAsserted = true) (p : Port) (b : Byte) (e : Bool) :
    s.presentByte p b e = none := by
  simp [State.presentByte, State.pace_of_reset (s := s.awaitPace p 2) (by simpa using h)]

theorem exec_frameBegin_of_reset {s : State} (h : s.resetAsserted = true) (p : Port) (b : Byte) (e : Bool) :
    exec (.frameBegin p b e) s = .next s := by
  simp [exec, execFrameBegin, State.presentByte_of_reset h]

theorem exec_controllerFrame_of_reset {s : State} (h : s.resetAsserted = true) (p : Port) (bytes : List BusByte) :
    exec (.controllerFrame p bytes) s = .next s := by
  cases bytes <;> simp [exec, execControllerFrame, State.takeBytes, State.presentByte_of_reset h]

theorem exec_sendAnswer_of_not_mayTurn {s : State} {p : Port} (h : (s.awaitTurn p 2).mayTurn p = false) :
    exec (.sendAnswer p) s = .next s := by
  simp [exec, execSendAnswer, h]

theorem exec_sendNotice_of_not_mayTurn {s : State} {p : Port} (h : (s.awaitTurn p 2).mayTurn p = false) :
    exec (.sendNotice p) s = .next s := by
  simp [exec, execSendNotice, h]

theorem exec_turnFalls_of_reset {s : State} (h : s.resetAsserted = true) (p : Port) :
    exec (.turnFalls p) s = .next s := by
  simp only [exec, execTurnFalls]
  split
  · rw [State.fallDue_of_reset (by simpa using h)]; simp
  · rfl

/-- Settles O4, block by block of the state at reset. -/
theorem powerOnAndReset : Obligations.PowerOnAndReset := by
  refine ⟨⟨fun s => ⟨_, rfl, rfl⟩, fun s => ⟨_, rfl, rfl, rfl, fun p => ⟨State.pace_of_reset rfl p, ?_⟩⟩, fun _ => rfl,
    State.col_reset, State.hand_reset, rfl, rfl, rfl, rfl, rfl, rfl, rfl, rfl, rfl, ?_, State.link_reset, ?_,
    State.pendingSet_reset, ?_⟩, ?_⟩
  · exact congrArg LinkUnit.turn (State.link_powered s true p)
  · decide
  · intro k; cases k <;> rfl
  · decide
  · intro s h
    have may (p : Port) : (s.awaitTurn p 2).mayTurn p = false := State.mayTurn_of_reset (by simpa using h) p
    exact ⟨exec_frameBegin_of_reset h, exec_controllerFrame_of_reset h, fun p =>
      ⟨exec_sendAnswer_of_not_mayTurn (may p), exec_sendNotice_of_not_mayTurn (may p), exec_turnFalls_of_reset h p,
        State.pace_of_reset h p⟩, fun g => by simp [exec, execInterchangeTick, State.tick, h]⟩

/-! ### The laws at reset -/

theorem Column.controlled_initial (c : ColIx) : (Column.initial c).Controlled where
  grant := by simp [Column.initial]
  cause := by simp [Column.initial]
  fencePending := by simp [Column.initial]
  settle := by simp [Column.initial]
  enabled := by simp [Column.initial, ColumnConfig.initial]

theorem Column.ordered_initial (c : ColIx) : (Column.initial c).Ordered := .empty rfl rfl

theorem State.columnsControlled_reset : State.reset.ColumnsControlled := fun c => by
  rw [State.col_reset]; exact Column.controlled_initial c

theorem State.columnsOrdered_reset : State.reset.ColumnsOrdered := fun c => by
  rw [State.col_reset]; exact Column.ordered_initial c

/-- A part in which no column has a claim has none at all. -/
theorem State.allClaims_eq_nil {s : State} (h : ∀ c, (s.col c).claims = []) : s.allClaims = [] := by
  simp [State.allClaims, h]

theorem State.allClaims_reset : State.reset.allClaims = [] :=
  State.allClaims_eq_nil fun c => by rw [State.col_reset]; rfl

theorem State.followersOf_reset (rb : Robot) : State.reset.followersOf rb = 0 := by
  simp [State.followersOf, State.hand_reset]

theorem State.accounted_reset : State.reset.Accounted where
  controlled := State.columnsControlled_reset
  ordered := State.columnsOrdered_reset
  records := by
    constructor <;> simp [State.hand_reset, State.col_reset, Column.initial]
  columns := by
    constructor <;> simp [State.hand_reset, State.col_reset, Column.initial]
  claims := by
    constructor <;> simp [State.hand_reset, State.col_reset, Column.initial, State.allClaims_reset, State.followersOf_reset]

theorem LinkUnit.withinRoom_initial : LinkUnit.initial.WithinRoom := by
  constructor <;> simp [LinkUnit.initial]

theorem LinkUnit.takesTurns_initial : LinkUnit.initial.TakesTurns := by
  constructor <;> simp [LinkUnit.initial]

theorem State.awaitsReset_reset (p : Port) : State.reset.AwaitsReset p where
  link := State.link_reset p
  first := by rw [State.pendingSet_reset]; rfl
  level := ⟨rfl, State.configInRange_reset.levels⟩

/-- Settles O54, law by law. -/
theorem lawsHoldAtReset : Obligations.LawsHoldAtReset := by
  refine ⟨fun p => ?_, State.columnsControlled_reset, State.columnsOrdered_reset, fun h r e => ?_, fun p => ?_,
    State.configInRange_reset, fun p => ?_, State.accounted_reset, fun rb => ?_, fun h x e => ?_,
    State.awaitsReset_reset⟩
  · rw [State.pendingSet_reset]; exact List.pairwise_singleton _ _
  · simp [State.hand_reset] at e
  · rw [State.link_reset]; exact LinkUnit.withinRoom_initial
  · rw [State.link_reset]; exact LinkUnit.takesTurns_initial
  · simp [State.allClaims_reset, State.followersOf_reset]
  · simp [State.hand_reset] at e

end Sys2Proof.Machine
end
-- ==== Sys2Proof/Proofs/Choice.lean ====
section
/-! The choice of the best element of a list, the earliest among equals, as placement, selection and the Notice Unit make
it; and the choice of the next notice (O9). -/
namespace Sys2Proof.Machine

/-! ### The best of a list -/

section
variable {α : Type} {better : α → α → Bool}

/-- One element is compared with the best of those before it, which it displaces only when it is better. -/
def pickStep (better : α → α → Bool) (best : Option α) (x : α) : Option α :=
  match best with
  | none => some x
  | some b => if better x b then some x else some b

/-- The best of a list, the earliest among equals. -/
def pick (better : α → α → Bool) (l : List α) : Option α := l.foldl (pickStep better) none

/-- A comparison under which elements that neither beats are alike. -/
structure WeakOrder (better : α → α → Bool) : Prop where
  irrefl : ∀ x, better x x = false
  trans : ∀ x y z, better x y = true → better y z = true → better x z = true
  split : ∀ x y z, better x z = true → better x y = true ∨ better y z = true

/-- `m` stands in the list, beats all before it, and is beaten by none after it. -/
def Picked (better : α → α → Bool) (l : List α) (m : α) : Prop :=
  ∃ before after, l = before ++ m :: after ∧ (∀ x ∈ before, better m x = true) ∧ ∀ x ∈ after, better x m = false

theorem Picked.mem {l : List α} {m : α} (h : Picked better l m) : m ∈ l := by
  obtain ⟨a, b, rfl, -, -⟩ := h
  simp

/-- No element beats the one that is picked. -/
theorem Picked.best (o : WeakOrder better) {l : List α} {m : α} (h : Picked better l m) : ∀ x ∈ l, better x m = false := by
  obtain ⟨a, b, rfl, ha, hb⟩ := h
  intro x hx
  rcases List.mem_append.1 hx with hx | hx
  · by_contra hc
    have := o.trans m x m (ha x hx) (by simpa using hc)
    simp [o.irrefl] at this
  · rcases List.mem_cons.1 hx with rfl | hx
    · exact o.irrefl _
    · exact hb x hx

theorem Picked.cons_of_better (o : WeakOrder better) {x y m : α} {l : List α} (h : Picked better (y :: l) m)
    (hb : better y x = true) : Picked better (x :: y :: l) m := by
  obtain ⟨a, b, e, ha, hb'⟩ := h
  refine ⟨x :: a, b, by simp [e], ?_, hb'⟩
  simp only [List.forall_mem_cons]
  refine ⟨?_, ha⟩
  cases a with
  | nil => simp only [List.nil_append, List.cons.injEq] at e; rw [← e.1]; exact hb
  | cons z a =>
    simp only [List.cons_append, List.cons.injEq] at e
    exact o.trans m y x (e.1 ▸ ha z (by simp)) hb

theorem Picked.insert_of_not_better (o : WeakOrder better) {x y m : α} {l : List α} (h : Picked better (x :: l) m)
    (hb : better y x = false) : Picked better (x :: y :: l) m := by
  obtain ⟨a, b, e, ha, hb'⟩ := h
  cases a with
  | nil =>
    simp only [List.nil_append, List.cons.injEq] at e
    obtain ⟨rfl, rfl⟩ := e
    exact ⟨[], y :: l, rfl, by simp, by simpa [hb] using hb'⟩
  | cons z a =>
    simp only [List.cons_append, List.cons.injEq] at e
    obtain ⟨rfl, rfl⟩ := e
    have hm : better m x = true := ha x (by simp)
    refine ⟨x :: y :: a, b, by simp, ?_, hb'⟩
    simp only [List.forall_mem_cons] at ha ⊢
    refine ⟨hm, ?_, ha.2⟩
    rcases o.split m y x hm with h | h
    · exact h
    · simp [hb] at h

theorem picked_foldl (o : WeakOrder better) (x : α) (l : List α) :
    ∃ m, l.foldl (pickStep better) (some x) = some m ∧ Picked better (x :: l) m := by
  induction l generalizing x with
  | nil => exact ⟨x, rfl, [], [], rfl, by simp, by simp⟩
  | cons y l ih =>
    simp only [List.foldl_cons, pickStep]
    split
    next h => obtain ⟨m, e, hm⟩ := ih y; exact ⟨m, e, hm.cons_of_better o h⟩
    next h => obtain ⟨m, e, hm⟩ := ih x; exact ⟨m, e, hm.insert_of_not_better o (by simpa using h)⟩

theorem pick_cons (o : WeakOrder better) (x : α) (l : List α) : ∃ m, pick better (x :: l) = some m ∧ Picked better (x :: l) m :=
  picked_foldl o x l

theorem pick_eq_none {l : List α} (o : WeakOrder better) : pick better l = none ↔ l = [] := by
  cases l with
  | nil => simp [pick]
  | cons x l => obtain ⟨m, e, -⟩ := pick_cons o x l; simp [e]

theorem Picked.of_pick (o : WeakOrder better) {l : List α} {m : α} (h : pick better l = some m) : Picked better l m := by
  cases l with
  | nil => simp [pick] at h
  | cons x l =>
    obtain ⟨m', e, hm⟩ := pick_cons o x l
    rw [e, Option.some.injEq] at h
    exact h ▸ hm

/-- Two elements of which neither beats the other, and each beats all that stand before it, are one. -/
theorem Picked.unique (o : WeakOrder better) {l : List α} {m n : α} (hm : Picked better l m) (hn : Picked better l n) : m = n := by
  have hnm := hm.best o n hn.mem
  have hmn := hn.best o m hm.mem
  obtain ⟨a, b, e, ha, -⟩ := hm
  obtain ⟨a', b', e', ha', -⟩ := hn
  rw [e] at e'
  rcases List.append_eq_append_iff.1 e' with ⟨c, rfl, hc⟩ | ⟨c, rfl, hc⟩
  · cases c with
    | nil => simp only [List.nil_append, List.cons.injEq] at hc; exact hc.1
    | cons z c =>
      simp only [List.cons_append, List.cons.injEq] at hc
      have := ha' m (by simp [hc.1])
      simp [hnm] at this
  · cases c with
    | nil => simp only [List.nil_append, List.cons.injEq] at hc; exact hc.1.symm
    | cons z c =>
      simp only [List.cons_append, List.cons.injEq] at hc
      have := ha n (by simp [hc.1])
      simp [hmn] at this

theorem pick_eq_some (o : WeakOrder better) {l : List α} {m : α} : pick better l = some m ↔ Picked better l m := by
  refine ⟨Picked.of_pick o, fun h => ?_⟩
  cases l with
  | nil => simpa using h.mem
  | cons x l =>
    obtain ⟨m', e, hm⟩ := pick_cons o x l
    rw [e, hm.unique o h]

end

/-! ### The next notice (R153) -/

/-- A higher level goes first. -/
def State.outranks (s : State) (a b : Notice) : Bool := decide (s.level b.kind < s.level a.kind)

theorem State.weakOrder_outranks (s : State) : WeakOrder s.outranks where
  irrefl := by simp [State.outranks]
  trans := by simp only [State.outranks, decide_eq_true_eq]; omega
  split := by simp only [State.outranks, decide_eq_true_eq]; omega

theorem State.firstItem_eq_pick (s : State) (items : List Notice) : s.firstItem items = pick s.outranks items := by
  unfold State.firstItem pick
  congr 1
  funext best n
  cases best <;> simp [pickStep, State.outranks]

theorem State.firstItem_eq_some {s : State} {items : List Notice} {n : Notice} :
    s.firstItem items = some n ↔ Picked s.outranks items n := by
  rw [State.firstItem_eq_pick, pick_eq_some s.weakOrder_outranks]

theorem State.firstItem_eq_none {s : State} {items : List Notice} : s.firstItem items = none ↔ items = [] := by
  rw [State.firstItem_eq_pick, pick_eq_none s.weakOrder_outranks]

theorem State.nextNotice_first_valid {s : State} {p : Port} {items : List Notice} {n : Notice} (fuel : Nat)
    (h : s.firstItem items = some n) (hv : s.valid p n = true) :
    s.nextNotice p (fuel + 1) items = (some n, items.erase n) := by
  simp [State.nextNotice, h, hv]

theorem State.nextNotice_first_invalid {s : State} {p : Port} {items : List Notice} {n : Notice} (fuel : Nat)
    (h : s.firstItem items = some n) (hv : s.valid p n = false) :
    s.nextNotice p (fuel + 1) items = s.nextNotice p fuel (items.erase n) := by
  simp [State.nextNotice, h, hv]

theorem Notice.same_self (n : Notice) : n.same n = true := Notice.same_iff.2 ⟨rfl, rfl⟩

theorem noticesDistinct.nodup {items : List Notice} (h : noticesDistinct items) : items.Nodup :=
  List.Pairwise.imp (fun {a b} hab e => by simp [e, Notice.same_self] at hab) h

/-- With no valid item all are dropped. -/
theorem State.nextNotice_none {s : State} {p : Port} {items : List Notice} (h : ∀ m ∈ items, s.valid p m = false) :
    s.nextNotice p items.length items = (none, []) := by
  induction hn : items.length generalizing items with
  | zero => rw [List.length_eq_zero_iff] at hn; subst hn; rfl
  | succ k ih =>
    obtain ⟨n, hf⟩ : ∃ n, s.firstItem items = some n := by
      cases hf : s.firstItem items with
      | none => rw [State.firstItem_eq_none] at hf; simp [hf] at hn
      | some n => exact ⟨n, rfl⟩
    have hmem : n ∈ items := (State.firstItem_eq_some.1 hf).mem
    rw [State.nextNotice_first_invalid _ hf (h n hmem)]
    exact ih (fun m hm => h m (List.mem_of_mem_erase hm)) (by rw [List.length_erase_of_mem hmem, hn]; rfl)

theorem filter_erase_of_not {α : Type} [DecidableEq α] {f : α → Bool} {x : α} (h : f x = false) (l : List α) :
    (l.erase x).filter f = l.filter f := by
  induction l with
  | nil => rfl
  | cons y l ih =>
    by_cases e : y = x
    · subst e; simp [h]
    · rw [List.erase_cons_tail (by simpa using e), List.filter_cons, List.filter_cons, ih]

/-- An element that stands once in a list splits it in one way. -/
theorem split_unique {α : Type} {a b a' b' : List α} {x : α} (h : (a ++ x :: b).Nodup)
    (e : a ++ x :: b = a' ++ x :: b') : a = a' ∧ b = b' := by
  rw [List.nodup_append, List.nodup_cons] at h
  obtain ⟨ha, -, hb⟩ := (List.append_cons_inj_of_notMem (fun hc => h.2.2 x hc x (by simp) rfl) h.2.1.1).1 e
  exact ⟨ha, hb⟩

theorem State.exists_firstItem (s : State) {items : List Notice} (h : items ≠ []) : ∃ m, s.firstItem items = some m := by
  cases hf : s.firstItem items with
  | none => exact absurd (State.firstItem_eq_none.1 hf) h
  | some m => exact ⟨m, rfl⟩

/-- What ranks first ranks no lower than what stands before it, and higher than what it stands behind. -/
theorem State.level_lt_of_firstItem {s : State} {before after : List Notice} {m n : Notice}
    (hd : (before ++ n :: after).Nodup) (hf : s.firstItem (before ++ n :: after) = some m) (hm : m ∈ after) :
    s.level n.kind < s.level m.kind := by
  obtain ⟨a, b, e, h1, -⟩ := State.firstItem_eq_some.1 hf
  obtain ⟨c, d, rfl⟩ := List.append_of_mem hm
  have e' : (before ++ n :: c) ++ m :: d = a ++ m :: b := by simpa using e
  obtain ⟨rfl, -⟩ := split_unique (by simpa using hd) e'
  simpa [State.outranks] using h1 n (by simp)

/-- The choice among distinct items, by the number of items: while an invalid item ranks first it is dropped, and it is
none of those that remain. -/
theorem State.nextNotice_valid {s : State} {p : Port} {n : Notice} (hv : s.valid p n = true) (before after : List Notice)
    (hd : (before ++ n :: after).Nodup)
    (hb : ∀ m ∈ before, s.valid p m = true → s.level m.kind < s.level n.kind)
    (ha : ∀ m ∈ after, s.valid p m = true → s.level m.kind ≤ s.level n.kind) :
    s.nextNotice p (before ++ n :: after).length (before ++ n :: after) =
      (some n, before.filter (fun m => s.valid p m || decide (s.level m.kind < s.level n.kind)) ++
        after.filter fun m => s.valid p m || decide (s.level m.kind ≤ s.level n.kind)) := by
  induction hk : (before ++ n :: after).length generalizing before after with
  | zero => simp at hk
  | succ k ih =>
    obtain ⟨m, hf⟩ := s.exists_firstItem (items := before ++ n :: after) (by simp)
    have hp := State.firstItem_eq_some.1 hf
    have hnm : s.level n.kind ≤ s.level m.kind := by
      simpa [State.outranks] using hp.best s.weakOrder_outranks n (by simp)
    obtain ⟨-, -, apart⟩ := List.nodup_append.1 hd
    by_cases hmn : m = n
    · subst hmn
      obtain ⟨a, b, e, h1, h2⟩ := hp
      obtain ⟨rfl, rfl⟩ := split_unique hd e
      rw [State.nextNotice_first_valid _ hf hv, List.erase_append_right _ fun h => apart m h m (by simp) rfl,
        List.erase_cons_head, List.filter_eq_self.2, List.filter_eq_self.2]
      · intro x hx
        simpa [State.outranks] using Or.inr (h2 x hx)
      · intro x hx
        simpa [State.outranks] using Or.inr (h1 x hx)
    · have hmem : m ∈ before ∨ m ∈ after := by simpa [hmn] using hp.mem
      rcases hmem with hm | hm
      · have hi : s.valid p m = false := by
          by_contra hc
          have := hb m hm (by simpa using hc)
          omega
        rw [State.nextNotice_first_invalid _ hf hi, List.erase_append_left _ hm,
          ih (before.erase m) after (hd.sublist (List.Sublist.append List.erase_sublist (List.Sublist.refl _)))
            (fun x hx => hb x (List.mem_of_mem_erase hx)) ha, filter_erase_of_not]
        · simpa [hi] using hnm
        · have := List.length_erase_of_mem hm
          have := List.length_pos_of_mem hm
          simp only [List.length_append, List.length_cons] at hk ⊢; omega
      · have hlt := State.level_lt_of_firstItem hd hf hm
        have hi : s.valid p m = false := by
          by_contra hc
          have := ha m hm (by simpa using hc)
          omega
        rw [State.nextNotice_first_invalid _ hf hi, List.erase_append_right _ fun h => apart m h m (by simp [hm]) rfl,
          List.erase_cons_tail (by simpa using fun h : n = m => hmn h.symm),
          ih before (after.erase m) (hd.sublist (List.Sublist.append (List.Sublist.refl _)
            (List.Sublist.cons_cons _ List.erase_sublist))) hb
            (fun x hx => ha x (List.mem_of_mem_erase hx)), filter_erase_of_not]
        · simpa [hi] using hlt
        · have := List.length_erase_of_mem hm
          have := List.length_pos_of_mem hm
          simp only [List.length_append, List.length_cons] at hk ⊢; omega

/-- Settles O9. -/
theorem nextNoticeIsHighestEarliestValid : Obligations.NextNoticeIsHighestEarliestValid := fun _ _ =>
  ⟨fun before after _ hd hv hb ha => State.nextNotice_valid hv before after hd.nodup hb ha,
    fun _ h => State.nextNotice_none h⟩

end Sys2Proof.Machine
end
-- ==== Sys2Proof/Proofs/Turns.lean ====
section
/-! Answers and notices take turns (O8, O10), and what an edge of an idle link does (O2). -/
namespace Sys2Proof.Machine

/-! ### Where the edges before a turn lead -/

theorem State.fillEdge_inside {s : State} {p : Port} (h : (s.link p).rx ≠ .betweenFrames) : s.fillEdge p = s := by
  simp [State.fillEdge, h]

theorem State.awaitTurn_inside {s : State} {p : Port} (h : (s.link p).rx ≠ .betweenFrames) (n : Nat) :
    s.awaitTurn p n = s := by
  induction n with
  | zero => rfl
  | succ n ih => simp [State.awaitTurn, State.fillEdge_inside h, ih]

theorem State.awaitTurn_turn {s : State} {p : Port} (h : (s.link p).turn = true) (n : Nat) : s.awaitTurn p n = s := by
  cases n <;> simp [State.awaitTurn, h]

/-- An edge that a link unit in no controller frame passes leaves its answers. -/
theorem State.answers_fillEdge (s : State) (p : Port) : ((s.fillEdge p).link p).answers = (s.link p).answers := by
  unfold State.fillEdge
  split
  · rfl
  next h =>
    simp only [Bool.or_eq_true, bne_iff_ne, ne_eq, not_or, Bool.not_eq_true, Decidable.not_not] at h
    split
    · rw [State.byteEdge_fill h.2]; simp
    · unfold State.heldEdge
      split
      · dsimp only; split <;> simp [State.setPace]
      · simp only [State.link_modLink, if_pos, LinkUnit.ownEdge]; split <;> rfl

theorem State.answers_awaitTurn (p : Port) (n : Nat) (s : State) :
    ((s.awaitTurn p n).link p).answers = (s.link p).answers := by
  induction n generalizing s with
  | zero => rfl
  | succ n ih =>
    unfold State.awaitTurn
    split
    · rfl
    · rw [ih, State.answers_fillEdge]

/-- A link unit with nothing to send does not come to a turn. -/
theorem State.awaitTurn_idle {p : Port} (n : Nat) {s : State} (h : (s.link p).Free) (hw : s.hasWaiting p = false)
    (hp : (s.link p).prepared = false) : (s.awaitTurn p n).mayTurn p = false := by
  induction n generalizing s with
  | zero => simp [State.awaitTurn, State.mayTurn, hp]
  | succ n ih =>
    have hm : s.mayTurn p = false := by simp [State.mayTurn, hp]
    unfold State.awaitTurn
    rw [hm, State.turn_free h, Bool.or_false, if_neg Bool.false_ne_true]
    rcases hb : (s.link p).bus with _ | _ | _
    · rw [State.fillEdge_controller h hb hm]
      exact ih ⟨by simp [h.rx], by simp [hb], by simp [h.sending]⟩ (by simpa [State.hasWaiting] using hw)
        (by simp [hw])
    · exact absurd hb h.bus
    · rw [State.fillEdge_turning h hb]
      exact ih ⟨by simp [h.rx], by simp, by simp [h.sending]⟩ (by simpa [State.hasWaiting] using hw) (by simp [hp])

/-! ### Answers (O8) -/

theorem exec_sendAnswer_rises {s : State} {p : Port} {a : List Byte} {rest : List (List Byte)}
    (hr : s.resetAsserted = false) (h : (s.link p).Free) (ha : (s.link p).answers = a :: rest) :
    exec (.sendAnswer p) s = .next (s.modLink p fun u =>
      { u with bus := .turning, sending := some { bytes := frameBytes answerKind a, sent := 0 }, window := false,
               prepared := false, answers := rest }) := by
  obtain ⟨w, e⟩ := State.awaitTurn_waiting (p := p) hr h (by simp [State.hasWaiting, ha])
  have hm : (s.awaitTurn p 2).mayTurn p = true := by rw [e]; simp [State.mayTurn_iff, hr, h.rx]
  have hans : ((s.awaitTurn p 2).link p).answers = a :: rest := by rw [State.answers_awaitTurn, ha]
  simp only [exec, execSendAnswer, hm, hans]
  rw [e, State.modLink_modLink]
  rfl

theorem exec_sendAnswer_no_answer {s : State} {p : Port} (ha : (s.link p).answers = []) :
    exec (.sendAnswer p) s = .next s := by
  have hans : ((s.awaitTurn p 2).link p).answers = [] := by rw [State.answers_awaitTurn, ha]
  cases hm : (s.awaitTurn p 2).mayTurn p <;> simp [exec, execSendAnswer, hm, hans]

theorem State.mayTurn_of_rx {s : State} {p : Port} (h : (s.link p).rx ≠ .betweenFrames) : s.mayTurn p = false := by
  simp [State.mayTurn, h]

theorem State.mayTurn_of_bus {s : State} {p : Port} (h : (s.link p).bus ≠ .controller) : s.mayTurn p = false := by
  simp [State.mayTurn, h]

theorem State.turn_of_sending {s : State} {p : Port} (h : (s.link p).sending ≠ none) : (s.link p).turn = true := by
  simpa [LinkUnit.turn, Option.isSome_iff_ne_none] using h

/-- While TURN is high for another frame, or a controller frame is in reception, no edge is prepared for a turn. -/
theorem State.awaitTurn_held {s : State} {p : Port}
    (h : (s.link p).rx ≠ .betweenFrames ∨ (s.link p).bus ≠ .controller ∧ (s.link p).sending ≠ none) :
    (s.awaitTurn p 2).mayTurn p = false := by
  rcases h with h | ⟨hb, hx⟩
  · rw [State.awaitTurn_inside h]; exact State.mayTurn_of_rx h
  · rw [State.awaitTurn_turn (State.turn_of_sending hx)]; exact State.mayTurn_of_bus hb

theorem exec_turnFalls_falls {s : State} {p : Port} (hr : s.resetAsserted = false) (hx : (s.link p).sending ≠ none)
    (hb : (s.link p).bus ≠ .controller) :
    exec (.turnFalls p) s = .next (s.modLink p LinkUnit.fall) := by
  obtain ⟨x, hx⟩ := Option.ne_none_iff_exists'.1 hx
  obtain ⟨sent, hs, e⟩ := State.awaitFall_sending hr hb hx
  have hf : (s.awaitFall p (x.bytes.length + 1)).fallDue p = true := by rw [e]; simp [State.fallDue, hr, hs]
  simp only [exec, execTurnFalls, hx, hf, if_true]
  rw [e, State.modLink_modLink]
  rfl

theorem exec_turnFalls_no_frame {s : State} {p : Port} (hx : (s.link p).sending = none) :
    exec (.turnFalls p) s = .next s := by
  simp [exec, execTurnFalls, hx]

/-- Settles O8. -/
theorem answersTakeTurns : Obligations.AnswersTakeTurns := by
  refine ⟨fun s p a rest hr hx hb hs ha => exec_sendAnswer_rises hr ⟨hx, hb, hs⟩ ha, ?_,
    fun s p hr hx hb => exec_turnFalls_falls hr hx hb, fun s p h => exec_turnFalls_no_frame h⟩
  rintro s p (h | h | h)
  · exact exec_sendAnswer_of_not_mayTurn (State.awaitTurn_held (.inl h))
  · exact exec_sendAnswer_no_answer h
  · exact exec_sendAnswer_of_not_mayTurn (State.awaitTurn_held (.inr h))

/-! ### Which notice is next, whatever the links and pending sets -/

/-- The state with its links and pending sets replaced. -/
def State.withQueues (s : State) (links : Vector LinkUnit 5) (sets : Vector (List Notice) 5) : State :=
  { s with links := links, pendingSets := sets }

theorem State.withQueues_self (s : State) : s.withQueues s.links s.pendingSets = s := rfl

theorem State.valid_withQueues (s : State) (links : Vector LinkUnit 5) (sets : Vector (List Notice) 5) (p : Port)
    (n : Notice) : (s.withQueues links sets).valid p n = s.valid p n := by
  cases n <;> rfl

theorem State.nextNotice_withQueues (s : State) (links : Vector LinkUnit 5) (sets : Vector (List Notice) 5) (p : Port)
    (fuel : Nat) (items : List Notice) :
    (s.withQueues links sets).nextNotice p fuel items = s.nextNotice p fuel items := by
  induction fuel generalizing items with
  | zero => rfl
  | succ k ih =>
    have hf : (s.withQueues links sets).firstItem items = s.firstItem items := rfl
    unfold State.nextNotice
    simp only [hf, State.valid_withQueues, ih]

theorem State.noticeBody_withQueues (s : State) (links : Vector LinkUnit 5) (sets : Vector (List Notice) 5) (p : Port)
    (n : Notice) : (s.withQueues links sets).noticeBody p n = s.noticeBody p n := by
  cases p <;> cases n <;> rfl

theorem State.modLink_eq_withQueues (s : State) (p : Port) (f : LinkUnit → LinkUnit) :
    s.modLink p f = s.withQueues (s.modLink p f).links s.pendingSets := rfl

/-! ### Notices (O10) -/

/-- An edge prepared for a turn at which only invalid items are left: they are gone. -/
theorem State.heldEdge_nothing_valid {s : State} {p : Port} (hm : s.mayTurn p = true) (ha : (s.link p).answers = [])
    (h : ∀ n ∈ s.pendingSet p, s.valid p n = false) :
    s.heldEdge p = (s.modPending p fun _ => []).modLink p fun u => { u with window := false, prepared := false } := by
  obtain ⟨-, hx, hb, -⟩ := State.mayTurn_iff.1 hm
  unfold State.heldEdge
  rw [if_pos hb]
  simp only [hm, if_true, State.nextNotice_none h]
  rw [State.setPace_eq _ _ (by simp [hx]), State.modLink_modLink]
  exact State.modLink_congr (by simp [State.hasWaiting, ha])

theorem State.modPending_modLink (s : State) (p q : Port) (f : LinkUnit → LinkUnit) (g : List Notice → List Notice) :
    (s.modLink p f).modPending q g = (s.modPending q g).modLink p f := rfl

theorem State.grantNoticed_modLink (s : State) (p q : Port) (c : ColIx) (f : LinkUnit → LinkUnit) :
    (s.modLink q f).grantNoticed p c = (s.grantNoticed p c).modLink q f := by
  unfold State.grantNoticed
  simp only [State.col_modLink]
  split
  · rfl
  · split <;> rfl

theorem State.releaseWaiting_modLink (s : State) (r : Region) (q : Port) (h : HNum) (f : LinkUnit → LinkUnit) :
    (s.modLink q f).releaseWaiting r h = (s.releaseWaiting r h).modLink q f := by
  unfold State.releaseWaiting
  simp only [State.hand_modLink]
  repeat' split
  all_goals rfl

theorem State.noticeGone_modLink (s : State) (p q : Port) (n : Notice) (f : LinkUnit → LinkUnit) :
    (s.modLink q f).noticeGone p n = (s.noticeGone p n).modLink q f := by
  unfold State.noticeGone
  split
  next c => exact s.grantNoticed_modLink p q c f
  next h _ _ r => exact s.releaseWaiting_modLink r q h f
  next h r => exact s.releaseWaiting_modLink r q h f
  next h _ _ r => exact s.releaseWaiting_modLink r q h f
  next => rfl

theorem exec_sendNotice_nothing_valid {s : State} {p : Port} (hr : s.resetAsserted = false) (h : (s.link p).Free)
    (ha : (s.link p).answers = []) (hn : s.pendingSet p ≠ []) (hv : ∀ n ∈ s.pendingSet p, s.valid p n = false) :
    exec (.sendNotice p) s = .next ((s.modPending p fun _ => []).modLink p fun u =>
      { u with bus := .controller, window := false, prepared := false }) := by
  obtain ⟨w, e⟩ := State.awaitTurn_waiting (p := p) hr h (by simp [State.hasWaiting, hn])
  have hm : (s.awaitTurn p 2).mayTurn p = true := by rw [e]; simp [State.mayTurn_iff, hr, h.rx]
  have hans : ((s.awaitTurn p 2).link p).answers = [] := by rw [State.answers_awaitTurn, ha]
  have hset : (s.awaitTurn p 2).pendingSet p = s.pendingSet p := by rw [e]; simp
  have hval : ∀ n ∈ (s.awaitTurn p 2).pendingSet p, (s.awaitTurn p 2).valid p n = false := by
    rw [hset, e, State.modLink_eq_withQueues]
    exact fun n hn => (State.valid_withQueues ..).trans (hv n hn)
  have hnext := State.nextNotice_none hval
  simp only [exec, execSendNotice, hm, hans, List.isEmpty_nil, Bool.and_self, if_true, hnext]
  rw [State.heldEdge_nothing_valid hm hans hval, e, State.modPending_modLink, State.modLink_modLink]

/-- TURN rises for the next valid notice. -/
theorem exec_sendNotice_rises {s : State} {p : Port} {n : Notice} {rest : List Notice} (hr : s.resetAsserted = false)
    (h : (s.link p).Free) (ha : (s.link p).answers = [])
    (hn : s.nextNotice p (s.pendingSet p).length (s.pendingSet p) = (some n, rest)) :
    exec (.sendNotice p) s = .next (((s.modPending p fun _ => rest).noticeGone p n).modLink p fun u =>
      { u with bus := .turning, window := false, prepared := false
               sending := some { bytes := frameBytes noticeKindByte (s.noticeBody p n), sent := 0 } }) := by
  have hne : s.pendingSet p ≠ [] := fun e => by simp [e, State.nextNotice] at hn
  obtain ⟨w, e⟩ := State.awaitTurn_waiting (p := p) hr h (by simp [State.hasWaiting, hne])
  have hm : (s.awaitTurn p 2).mayTurn p = true := by rw [e]; simp [State.mayTurn_iff, hr, h.rx]
  have hans : ((s.awaitTurn p 2).link p).answers = [] := by rw [State.answers_awaitTurn, ha]
  have hset : (s.awaitTurn p 2).pendingSet p = s.pendingSet p := by rw [e]; simp
  have hnext : (s.awaitTurn p 2).nextNotice p (s.pendingSet p).length (s.pendingSet p) = (some n, rest) := by
    rw [e, State.modLink_eq_withQueues, State.nextNotice_withQueues, hn]
  have hbody : (s.awaitTurn p 2).noticeBody p n = s.noticeBody p n := by
    rw [e, State.modLink_eq_withQueues, State.noticeBody_withQueues]
  simp only [exec, execSendNotice, hm, hans, List.isEmpty_nil, Bool.and_self, if_true, hset, hnext, hbody]
  rw [e, State.modPending_modLink, State.noticeGone_modLink, State.modLink_modLink]
  rfl

theorem Grant.noticed_eq (g : Grant) (ticks : Nat) :
    g.noticed ticks = { g with noticeSent := true, timer := some (g.timer.getD ticks) } := by
  unfold Grant.noticed Grant.startTimer
  split <;> simp_all

theorem State.grantNoticed_eq {s : State} {p : Port} {c : ColIx} {g : Grant} (hg : (s.col c).grant = some g)
    (hp : Port.region g.claim.robot.port = p) :
    s.grantNoticed p c = s.modCol c fun k => { k with grant := some { g with
      noticeSent := true, timer := some (g.timer.getD (10 * s.limits.grant)) } } := by
  unfold State.grantNoticed
  simp only [hg, if_pos hp, Grant.noticed_eq]
  rfl

theorem State.releaseWaiting_eq {s : State} {r : Region} {h : HNum} {x : Handover} {cl : Closing} (hx : s.hand h = some x)
    (hc : x.closing = some cl) (hw : RegionSet.has cl.waiting r = true) :
    s.releaseWaiting r h = s.setHand h (if RegionSet.without cl.waiting r = 0 then none
      else some { x with closing := some { cl with waiting := RegionSet.without cl.waiting r } }) := by
  unfold State.releaseWaiting
  simp only [hx, hc, hw, if_true]
  split <;> rfl

/-- The effect of an ending notice's sending. -/
theorem State.noticeGone_ending {s : State} {r : Region} {n : Notice} {h : HNum}
    (hk : n.kind = .withdrawn ∨ n.kind = .delivered ∨ n.kind = .handedBack) (hs : n.subject = some h.val) :
    s.noticeGone (.region r) n = s.releaseWaiting r h := by
  cases n <;> simp [Notice.kind] at hk <;> simp [Notice.subject, Fin.val_inj] at hs <;> subst hs <;> rfl

/-- Every other kind changes nothing. -/
theorem State.noticeGone_other {s : State} {p : Port} {n : Notice} (hg : n.kind ≠ .grant) (hw : n.kind ≠ .withdrawn)
    (hd : n.kind ≠ .delivered) (hb : n.kind ≠ .handedBack) : s.noticeGone p n = s := by
  cases n <;> simp [Notice.kind] at hg hw hd hb <;> rfl

/-- Settles O10. -/
theorem sendNoticeActsAtSend : Obligations.SendNoticeActsAtSend := by
  intro s p hr hrx hb hs ha
  have free : (s.link p).Free := ⟨hrx, hb, hs⟩
  refine ⟨fun hn hp => ?_, fun hn hv => exec_sendNotice_nothing_valid hr free ha hn hv, fun n rest hn => ?_⟩
  · exact exec_sendNotice_of_not_mayTurn (State.awaitTurn_idle 2 free (by simp [State.hasWaiting, ha, hn]) hp)
  · have rises := exec_sendNotice_rises hr free ha hn
    refine ⟨fun c g e hg hport => ?_, fun h r x cl e hk hsub hx hc hw => ?_, fun h1 h2 h3 h4 => ?_⟩
    · subst e
      rw [rises, State.noticeGone, State.grantNoticed_eq (g := g) (by simpa using hg) hport]
      rfl
    · subst e
      rw [rises, State.noticeGone_ending hk hsub, State.releaseWaiting_eq (by simpa using hx) hc hw]
      rfl
    · rw [rises, State.noticeGone_other h1 h2 h3 h4]
      rfl

end Sys2Proof.Machine
end
-- ==== Sys2Proof/Proofs/IdleEdges.lean ====
section
/-! What one LCLK edge does to each link when no command waits (O2). -/
namespace Sys2Proof.Machine

/-! ### Whether a port has something to send -/

theorem State.nextNotice_isSome {s : State} {p : Port} (fuel : Nat) {items : List Notice} (h : items.length ≤ fuel) :
    (s.nextNotice p fuel items).1.isSome = true ↔ ∃ n ∈ items, s.valid p n = true := by
  induction fuel generalizing items with
  | zero => simp [List.length_eq_zero_iff.1 (Nat.le_zero.1 h), State.nextNotice]
  | succ k ih =>
    cases items with
    | nil => simp [State.nextNotice, State.firstItem]
    | cons x xs =>
      obtain ⟨m, hf⟩ := s.exists_firstItem (items := x :: xs) (by simp)
      have hmem : m ∈ x :: xs := (State.firstItem_eq_some.1 hf).mem
      cases hv : s.valid p m with
      | true => rw [State.nextNotice_first_valid k hf hv]; exact ⟨fun _ => ⟨m, hmem, hv⟩, fun _ => rfl⟩
      | false =>
        rw [State.nextNotice_first_invalid k hf hv, ih (by rw [List.length_erase_of_mem hmem]; simp at h ⊢; omega)]
        refine ⟨fun ⟨n, hn, hnv⟩ => ⟨n, List.mem_of_mem_erase hn, hnv⟩, fun ⟨n, hn, hnv⟩ => ⟨n, ?_, hnv⟩⟩
        exact (List.mem_erase_of_ne fun e => by simp [e, hv] at hnv).2 hn

theorem State.something_iff {s : State} {p : Port} : s.something p = true ↔ s.hasFrame p := by
  simp [State.something, State.hasFrame, State.nextNotice_isSome]

theorem State.nextNotice_of_nothing {s : State} {p : Port} (h : s.something p = false) :
    (s.link p).answers = [] ∧ ∀ n ∈ s.pendingSet p, s.valid p n = false := by
  have : ¬ s.hasFrame p := fun hf => by rw [State.something_iff.2 hf] at h; cases h
  simpa [State.hasFrame] using this

/-! ### One edge on one link -/

/-- What an idle edge makes of a link unit: `waiting` says that an answer or a notice waits, `frame` that there is
something to send. -/
def LinkUnit.idle (u : LinkUnit) (waiting frame : Bool) : LinkUnit :=
  if u.rx ≠ .betweenFrames then u
  else match u.bus with
    | .turning => { u with bus := if u.sending.isSome then .ix48 else .controller }
    | .ix48 => { u with sending := u.sending.map fun x =>
        if x.bytes.length ≤ x.sent then x else { x with sent := x.sent + 1 } }
    | .controller =>
      if u.prepared then if frame then u else { u with window := false, prepared := false }
      else { u with window := false, prepared := waiting }

/-- What it leaves of a pending set: nothing, at an edge prepared for a turn with nothing to send. -/
def LinkUnit.idleItems (u : LinkUnit) (frame : Bool) (items : List Notice) : List Notice :=
  if u.rx = .betweenFrames ∧ u.bus = .controller ∧ u.prepared = true ∧ frame = false then [] else items

/-- A port's link unit and pending set after the edge. -/
def State.idled (s : State) (p : Port) : State :=
  (s.modLink p fun u => u.idle (s.hasWaiting p) (s.something p)).modPending p
    ((s.link p).idleItems (s.something p))

theorem State.modPending_self {s : State} {p : Port} {f : List Notice → List Notice}
    (h : f (s.pendingSet p) = s.pendingSet p) : s.modPending p f = s := by
  unfold State.modPending; rw [h]
  simp [State.pendingSet]

theorem State.idled_of_kept {s : State} {p : Port} (h : (s.link p).idleItems (s.something p) = id) :
    s.idled p = s.modLink p fun u => u.idle (s.hasWaiting p) (s.something p) := by
  unfold State.idled
  rw [h]
  exact State.modPending_self rfl

theorem LinkUnit.idleItems_eq_id {u : LinkUnit} {frame : Bool}
    (h : ¬ (u.rx = .betweenFrames ∧ u.bus = .controller ∧ u.prepared = true ∧ frame = false)) :
    u.idleItems frame = id := by
  funext items
  simp only [LinkUnit.idleItems, if_neg h, id]

theorem State.riseDue_of_not_mayTurn {s : State} {p : Port} (h : s.mayTurn p = false) : s.riseDue p = false := by
  simp [State.riseDue, h]

theorem State.fallDue_of_bus {s : State} {p : Port} (h : (s.link p).bus ≠ .ix48) : s.fallDue p = false := by
  simp [State.fallDue, h]

theorem State.pace_of_bus {s : State} {p : Port} (h : (s.link p).bus ≠ .controller) : s.pace p = false := by
  simp [State.pace, h]

/-- An edge at which TURN neither rises nor falls, between frames. -/
theorem State.fillEdge_between {s : State} {p : Port} (hx : (s.link p).rx = .betweenFrames) (hrise : s.riseDue p = false)
    (hfall : s.fallDue p = false) : s.fillEdge p = if s.pace p then s.byteEdge p 0 false else s.heldEdge p := by
  simp [State.fillEdge, hx, hrise, hfall]

/-- On the controller's bus and not prepared for a turn, the window passes and PACE is set low if something waits. -/
theorem State.fillEdge_unprepared {s : State} {p : Port} (hx : (s.link p).rx = .betweenFrames)
    (hb : (s.link p).bus = .controller) (hp : (s.link p).prepared = false) :
    s.fillEdge p = s.modLink p fun u => { u with window := false, prepared := s.hasWaiting p } := by
  have hm : s.mayTurn p = false := by simp [State.mayTurn, hp]
  rw [State.fillEdge_between hx (State.riseDue_of_not_mayTurn hm) (State.fallDue_of_bus (by simp [hb]))]
  split
  · exact State.byteEdge_fill hx
  · exact State.heldEdge_unprepared hx hb hm

/-- An edge prepared for a turn with nothing to send. -/
theorem State.fillEdge_nothing {s : State} {p : Port} (hm : s.mayTurn p = true) (hs : s.something p = false) :
    s.fillEdge p = (s.modPending p fun _ => []).modLink p fun u => { u with window := false, prepared := false } := by
  obtain ⟨-, hx, hb, hp⟩ := State.mayTurn_iff.1 hm
  obtain ⟨ha, hv⟩ := State.nextNotice_of_nothing hs
  rw [State.fillEdge_between hx (by simp [State.riseDue, hs]) (State.fallDue_of_bus (by simp [hb])),
    if_neg (by simp [State.pace, hx, hp]), State.heldEdge_nothing_valid hm ha hv]

/-- While the bus is not the controller's, the edge is one of the IX48's own, until TURN falls. -/
theorem State.fillEdge_own {s : State} {p : Port} (hx : (s.link p).rx = .betweenFrames)
    (hb : (s.link p).bus ≠ .controller) (hfall : s.fallDue p = false) : s.fillEdge p = s.modLink p LinkUnit.ownEdge := by
  rw [State.fillEdge_between hx (State.riseDue_of_not_mayTurn (State.mayTurn_of_bus hb)) hfall,
    if_neg (by simp [State.pace_of_bus hb]), State.heldEdge_own hb]

theorem State.idled_controller {s : State} {p : Port} (hr : s.resetAsserted = false) (hx : (s.link p).rx = .betweenFrames)
    (hb : (s.link p).bus = .controller) : s.fillEdge p = s.idled p := by
  cases hp : (s.link p).prepared with
  | false =>
    rw [State.fillEdge_unprepared hx hb hp, State.idled_of_kept (LinkUnit.idleItems_eq_id (by simp [hp]))]
    exact State.modLink_congr (by simp [LinkUnit.idle, hx, hb, hp])
  | true =>
    have hm : s.mayTurn p = true := State.mayTurn_iff.2 ⟨hr, hx, hb, hp⟩
    cases hs : s.something p with
    | true =>
      rw [State.idled_of_kept (LinkUnit.idleItems_eq_id (by simp [hs])),
        State.modLink_self (by simp [LinkUnit.idle, hx, hb, hp, hs])]
      simp [State.fillEdge, State.riseDue, hm, hs]
    | false =>
      have items : (s.link p).idleItems (s.something p) = fun _ => [] := by
        funext l; simp [LinkUnit.idleItems, hx, hb, hp, hs]
      rw [State.fillEdge_nothing hm hs, State.idled, items, State.modPending_modLink]
      exact State.modLink_congr (by simp [LinkUnit.idle, hx, hb, hp, hs])

theorem LinkUnit.idle_driving {u : LinkUnit} {x : Sending} (hx : u.rx = .betweenFrames) (hb : u.bus = .ix48)
    (hs : u.sending = some x) (waiting frame : Bool) : u.idle waiting frame =
      { u with sending := some (if x.bytes.length ≤ x.sent then x else { x with sent := x.sent + 1 }) } := by
  simp [LinkUnit.idle, hx, hb, hs]

theorem State.idled_ix48 {s : State} {p : Port} (hr : s.resetAsserted = false) (hx : (s.link p).rx = .betweenFrames)
    (hb : (s.link p).bus = .ix48) : s.fillEdge p = s.idled p := by
  rw [State.idled_of_kept (LinkUnit.idleItems_eq_id (by simp [hb]))]
  cases hs : (s.link p).sending with
  | none =>
    rw [State.fillEdge_own hx (by simp [hb]) (by simp [State.fallDue, hs])]
    exact State.modLink_congr (by simp [LinkUnit.idle, LinkUnit.ownEdge, hx, hb, hs])
  | some x =>
    have hfall : s.fallDue p = decide (x.bytes.length ≤ x.sent) := by simp [State.fallDue, hr, hb, hs]
    by_cases hsent : x.bytes.length ≤ x.sent
    · rw [State.modLink_self (by rw [LinkUnit.idle_driving hx hb hs, if_pos hsent, ← hs])]
      simp [State.fillEdge, hfall, hsent]
    · rw [State.fillEdge_own hx (by simp [hb]) (by simp [hfall, hsent])]
      refine State.modLink_congr ?_
      rw [LinkUnit.idle_driving hx hb hs, if_neg hsent]
      simp only [LinkUnit.ownEdge, hb, hs, Option.map_some]
      congr 3
      omega

/-- What an edge does to one port, whatever its link unit is at. -/
theorem State.fillEdge_idled {s : State} (hr : s.resetAsserted = false) (p : Port) : s.fillEdge p = s.idled p := by
  by_cases hx : (s.link p).rx = .betweenFrames
  · cases hb : (s.link p).bus with
    | controller => exact State.idled_controller hr hx hb
    | ix48 => exact State.idled_ix48 hr hx hb
    | turning =>
      rw [State.idled_of_kept (LinkUnit.idleItems_eq_id (by simp [hb])),
        State.fillEdge_own hx (by simp [hb]) (State.fallDue_of_bus (by simp [hb]))]
      exact State.modLink_congr (by simp [LinkUnit.idle, LinkUnit.ownEdge, hx, hb])
  · rw [State.fillEdge_inside hx, State.idled_of_kept (LinkUnit.idleItems_eq_id (by simp [hx]))]
    exact (State.modLink_self (by simp [LinkUnit.idle, hx])).symm

/-! ### The edge on all five ports -/

theorem State.something_withQueues {s : State} {links : Vector LinkUnit 5} {sets : Vector (List Notice) 5} {p : Port}
    (hl : (s.withQueues links sets).link p = s.link p) (hs : (s.withQueues links sets).pendingSet p = s.pendingSet p) :
    (s.withQueues links sets).something p = s.something p := by
  simp only [State.something, hl, hs, State.nextNotice_withQueues]

theorem State.link_idled (s : State) (p : Port) :
    (s.idled p).link p = (s.link p).idle (s.hasWaiting p) (s.something p) := by
  simp [State.idled]

theorem State.pendingSet_idled (s : State) (p : Port) :
    (s.idled p).pendingSet p = (s.link p).idleItems (s.something p) (s.pendingSet p) := by
  simp [State.idled]

/-- The edges of the ports of a list: each port's link unit and pending set as the edge leaves them, and no other. -/
theorem State.foldl_idled (ports : List Port) (hn : ports.Nodup) (s : State) :
    ∃ links sets, ports.foldl State.idled s = s.withQueues links sets ∧ ∀ p,
      (p ∈ ports → (s.withQueues links sets).link p = (s.idled p).link p ∧
        (s.withQueues links sets).pendingSet p = (s.idled p).pendingSet p) ∧
      (p ∉ ports → (s.withQueues links sets).link p = s.link p ∧
        (s.withQueues links sets).pendingSet p = s.pendingSet p) := by
  induction ports generalizing s with
  | nil => exact ⟨s.links, s.pendingSets, rfl, fun p => ⟨by simp, fun _ => ⟨rfl, rfl⟩⟩⟩
  | cons q qs ih =>
    rw [List.nodup_cons] at hn
    obtain ⟨links, sets, e, h⟩ := ih hn.2 (s.idled q)
    refine ⟨links, sets, by rw [List.foldl_cons, e]; rfl, fun p => ?_⟩
    have away : p ≠ q → (s.idled q).link p = s.link p ∧ (s.idled q).pendingSet p = s.pendingSet p := by
      intro hp; simp [State.idled, hp]
    refine ⟨fun hp => ?_, fun hp => ?_⟩
    · rcases List.mem_cons.1 hp with rfl | hp
      · exact (h p).2 hn.1
      · have hpq : p ≠ q := fun e => hn.1 (e ▸ hp)
        obtain ⟨hl, hs⟩ := (h p).1 hp
        obtain ⟨el, es⟩ := away hpq
        have hsome : (s.idled q).something p = s.something p :=
          State.something_withQueues (s := s) (links := (s.idled q).links) (sets := (s.idled q).pendingSets) el es
        have hwait : (s.idled q).hasWaiting p = s.hasWaiting p := by simp only [State.hasWaiting, el, es]
        refine ⟨hl.trans ?_, hs.trans ?_⟩
        · rw [State.link_idled, State.link_idled, el, hsome, hwait]
        · rw [State.pendingSet_idled, State.pendingSet_idled, el, es, hsome]
    · rw [List.mem_cons, not_or] at hp
      obtain ⟨hl, hs⟩ := (h p).2 hp.2
      obtain ⟨el, es⟩ := away hp.1
      exact ⟨hl.trans el, hs.trans es⟩

theorem State.foldl_fillEdge (ports : List Port) {s : State} (hr : s.resetAsserted = false) :
    ports.foldl State.fillEdge s = ports.foldl State.idled s := by
  induction ports generalizing s with
  | nil => rfl
  | cons p ps ih => rw [List.foldl_cons, List.foldl_cons, State.fillEdge_idled hr, ih (s := s.idled p) hr]

/-- An idle edge, port by port. -/
theorem State.lclkEdge_idled {s : State} (hr : s.resetAsserted = false) : ∃ links sets,
    s.lclkEdge = s.withQueues links sets ∧ ∀ p,
      s.lclkEdge.link p = (s.link p).idle (s.hasWaiting p) (s.something p) ∧
      s.lclkEdge.pendingSet p = (s.link p).idleItems (s.something p) (s.pendingSet p) := by
  obtain ⟨links, sets, e, h⟩ := State.foldl_idled Port.all (by decide) s
  have edge : s.lclkEdge = s.withQueues links sets := by
    rw [State.lclkEdge, hr, if_neg Bool.false_ne_true, State.foldl_fillEdge _ hr, e]
  have every (p : Port) : p ∈ Port.all := by
    cases p with
    | region r => revert r; decide
    | ps => decide
  refine ⟨links, sets, edge, fun p => ?_⟩
  obtain ⟨hl, hs⟩ := (h p).1 (every p)
  rw [edge, ← State.link_idled, ← State.pendingSet_idled]
  exact ⟨hl, hs⟩

theorem State.hasWaiting_eq (s : State) (p : Port) :
    s.hasWaiting p = decide ((s.link p).answers ≠ [] ∨ s.pendingSet p ≠ []) := by
  simp only [State.hasWaiting]
  cases (s.link p).answers <;> cases s.pendingSet p <;> simp

/-- Settles O2. -/
theorem idleStepIsOneEdge : Obligations.IdleStepIsOneEdge := by
  intro s hq
  have run : step s = .next s.lclkEdge := by simp [step, hq]
  refine ⟨fun hr => by rw [run, State.lclkEdge, if_pos hr], fun hr => ⟨s.lclkEdge, run, ?_⟩⟩
  obtain ⟨links, sets, e, h⟩ := State.lclkEdge_idled hr
  refine ⟨by rw [e]; rfl, fun p => ?_⟩
  obtain ⟨hl, hs⟩ := h p
  intro u items becomes
  have same (v : LinkUnit) (left : List Notice) (hv : u.idle (s.hasWaiting p) (s.something p) = v)
      (hi : u.idleItems (s.something p) items = left) : becomes v left := ⟨hl.trans hv, hs.trans hi⟩
  have kept : ∀ {v}, u.idle (s.hasWaiting p) (s.something p) = v →
      ¬ (u.rx = .betweenFrames ∧ u.bus = .controller ∧ u.prepared = true ∧ s.something p = false) → becomes v items :=
    fun hv hn => same _ _ hv (by rw [LinkUnit.idleItems_eq_id hn]; rfl)
  refine ⟨fun hx => kept (by simp [LinkUnit.idle, hx]) (by simp [hx]), fun hx => ⟨fun hb => ?_, fun x hb hsend => ?_,
    fun hb hsend => ?_, fun hb hp => ?_, fun hb hp => ?_⟩⟩
  · exact kept (by simp [LinkUnit.idle, hx, hb]) (by simp [hb])
  · refine ⟨fun hlt => kept ?_ (by simp [hb]), fun hle => kept ?_ (by simp [hb])⟩
    · rw [LinkUnit.idle_driving hx hb hsend, if_neg (by omega)]
    · rw [LinkUnit.idle_driving hx hb hsend, if_pos hle, ← hsend]
  · refine kept ?_ (by simp [hb])
    simp [LinkUnit.idle, hx, hb, hsend]
    rw [← hx, ← hb, ← hsend]
  · refine kept ?_ (by simp [hp])
    simp only [LinkUnit.idle, hx, hb, hp, State.hasWaiting_eq]
    rfl
  · refine ⟨fun hf => ?_, fun hf => ?_⟩
    · have hsome := State.something_iff.2 hf
      exact kept (by simp [LinkUnit.idle, hx, hb, hp, hsome]) (by simp [hsome])
    · have hsome : s.something p = false := Bool.eq_false_iff.2 (mt State.something_iff.1 hf)
      exact same _ _ (by simp [LinkUnit.idle, hx, hb, hp, hsome]) (by simp [LinkUnit.idleItems, hx, hb, hp, hsome])

end Sys2Proof.Machine
end
-- ==== Sys2Proof/Proofs/FirstBytes.lean ====
section
/-! The bytes of a controller frame as they are taken one by one: when a byte is taken, and what it does (O7). -/
namespace Sys2Proof.Machine

/-! ### When a byte is taken -/

/-- Once the edges before it have led to a state in which PACE is high, the byte is taken there. -/
theorem State.presentByte_of_await {s t : State} {p : Port} (h : s.awaitPace p 2 = t) (ht : t.pace p = true) (b : Byte)
    (e : Bool) : s.presentByte p b e = some (t.byteEdge p b e) := by
  simp [State.presentByte, h, ht]

theorem State.awaitPace_of_pace {s : State} {p : Port} (h : s.pace p = true) (n : Nat) : s.awaitPace p n = s := by
  cases n <;> simp [State.awaitPace, h]

theorem State.presentByte_of_pace {s : State} {p : Port} (h : s.pace p = true) (b : Byte) (e : Bool) :
    s.presentByte p b e = some (s.byteEdge p b e) :=
  State.presentByte_of_await (State.awaitPace_of_pace h 2) h b e

theorem State.takeBytes_cons {s t : State} {p : Port} {b : Byte} {e : Bool} (h : s.presentByte p b e = some t)
    (bs : List BusByte) : State.takeBytes p ((b, e) :: bs) s = State.takeBytes p bs t := by
  simp [State.takeBytes, h]

theorem State.takeBytes_untaken {s : State} {p : Port} (h : (s.awaitPace p 2).pace p = false) (bs : List BusByte) :
    State.takeBytes p bs s = s := by
  cases bs with
  | nil => rfl
  | cons x bs => simp [State.takeBytes, State.presentByte, h]

/-- Whether a byte is taken does not depend on the byte, so bytes may come in any number of commands. -/
theorem State.takeBytes_append (p : Port) (xs ys : List BusByte) (s : State) :
    State.takeBytes p (xs ++ ys) s = State.takeBytes p ys (State.takeBytes p xs s) := by
  induction xs generalizing s with
  | nil => rfl
  | cons x xs ih =>
    obtain ⟨b, e⟩ := x
    cases hp : (s.awaitPace p 2).pace p with
    | true =>
      have h := State.presentByte_of_await rfl hp b e
      rw [List.cons_append, State.takeBytes_cons h, State.takeBytes_cons h, ih]
    | false => rw [State.takeBytes_untaken hp, State.takeBytes_untaken hp, State.takeBytes_untaken hp]

theorem exec_frameBegin_taken {s t : State} {p : Port} {b : Byte} {e : Bool} (hx : (s.link p).rx = .betweenFrames)
    (h : s.presentByte p b e = some t) : exec (.frameBegin p b e) s = .next t := by
  simp [exec, execFrameBegin, hx, h]

theorem exec_frameBegin_inside {s : State} {p : Port} (h : (s.link p).rx ≠ .betweenFrames) (b : Byte) (e : Bool) :
    exec (.frameBegin p b e) s = .next s := by
  simp [exec, execFrameBegin, h]

theorem exec_frameBegin_untaken {s : State} {p : Port} (h : (s.awaitPace p 2).pace p = false) (b : Byte) (e : Bool) :
    exec (.frameBegin p b e) s = .next s := by
  simp [exec, execFrameBegin, State.presentByte, h]

/-! ### What a byte does -/

theorem State.edgeEnds_eq (s : State) (p : Port) :
    s.edgeEnds p = s.modLink p fun u => { u with prepared := s.hasWaiting p } := by
  rw [State.hasWaiting_eq]
  exact State.modLink_congr rfl

theorem State.setPace_eq_edgeEnds {s : State} {p : Port} (h : (s.link p).rx = .betweenFrames) :
    s.setPace p = s.edgeEnds p := by
  rw [State.setPace_eq _ _ h, State.edgeEnds_eq]

/-- A byte that leaves the link unit inside a frame. -/
theorem State.byteEdge_inside {s : State} {p : Port} {b : Byte} {e : Bool} {v : LinkUnit}
    (h : (s.link p).takeByte b e = (v, none)) (hv : v.rx ≠ .betweenFrames) :
    s.byteEdge p b e = s.modLink p fun _ => { v with prepared := false } := by
  unfold State.byteEdge State.received State.setPace
  simp only [h]
  rw [State.modLink_modLink]
  exact State.modLink_congr (by simp [hv])

/-- A byte that ends a frame in error. -/
theorem State.byteEdge_error {s : State} {p : Port} {b : Byte} {e : Bool} {v : LinkUnit} {k : ErrorKind}
    (h : (s.link p).takeByte b e = (v, some k)) (hv : v.rx = .betweenFrames) :
    s.byteEdge p b e = ((s.modLink p fun _ => v).captureLink p k).edgeEnds p := by
  unfold State.byteEdge State.received
  simp only [h]
  exact State.setPace_eq_edgeEnds (by simp [State.captureLink, hv])

/-- A byte after which the link unit is between frames with no error. -/
theorem State.byteEdge_good {s : State} {p : Port} {b : Byte} {e : Bool} {v : LinkUnit}
    (h : (s.link p).takeByte b e = (v, none)) (hv : v.rx = .betweenFrames) :
    s.byteEdge p b e = (s.modLink p fun _ => v).edgeEnds p := by
  unfold State.byteEdge State.received
  simp only [h]
  exact State.setPace_eq_edgeEnds (by simp [hv])

/-- The port is inside a controller frame of which `frame` is held. -/
def State.midFrame (s : State) (p : Port) (rx : RxState) (frame : List Byte) : State :=
  s.modLink p fun u => { u with rx := rx, frame := frame, window := false, prepared := false }

theorem State.pace_midFrame {s : State} {p : Port} {rx : RxState} (hr : s.resetAsserted = false)
    (hb : (s.link p).bus = .controller) (hx : rx ≠ .betweenFrames) (frame : List Byte) :
    (s.midFrame p rx frame).pace p = true := by
  simp [State.pace, State.midFrame, hr, hb, hx]

theorem State.midFrame_modLink (s : State) (p : Port) (rx : RxState) (frame : List Byte) (f : LinkUnit → LinkUnit) :
    (s.midFrame p rx frame).modLink p f =
      s.modLink p fun u => f { u with rx := rx, frame := frame, window := false, prepared := false } := by
  rw [State.midFrame, State.modLink_modLink]

theorem State.midFrame_midFrame (s : State) (p : Port) (rx rx' : RxState) (frame frame' : List Byte) :
    (s.midFrame p rx frame).midFrame p rx' frame' = s.midFrame p rx' frame' := by
  rw [State.midFrame, State.midFrame_modLink]; rfl

/-- The frame is dropped with an error, and captured in the port's LINK group. -/
def State.frameFails (s : State) (p : Port) (k : ErrorKind) : State :=
  ((s.modLink p fun u => { u with rx := .betweenFrames, frame := [], window := false }).captureLink p k).edgeEnds p

theorem State.post_modLink (s : State) (p q : Port) (n : Notice) (f : LinkUnit → LinkUnit) :
    (s.modLink q f).post p n = (s.post p n).modLink q f := by
  by_cases h : s.level n.kind = 0
  · rw [State.post, State.post, if_pos h, if_pos (by simpa using h)]
  · rw [State.post, State.post, if_neg h, if_neg (by simpa using h)]; rfl

theorem State.capture_modLink (s : State) (g : Fin 8) (e : Capture) (q : Port) (f : LinkUnit → LinkUnit) :
    (s.modLink q f).capture g e = (s.capture g e).modLink q f := by
  unfold State.capture
  simp only [State.group_modLink]
  split
  · exact State.post_modLink (s.modGroup g fun _ => { captured := some e, multi := false }) .ps q (.error g) f
  · rfl

theorem State.captureLink_modLink (s : State) (p : Port) (k : ErrorKind) (q : Port) (f : LinkUnit → LinkUnit) :
    (s.modLink q f).captureLink p k = (s.captureLink p k).modLink q f :=
  State.capture_modLink _ _ _ _ _

/-- A failing frame forgets how far it had come. -/
theorem State.frameFails_midFrame (s : State) (p : Port) (rx : RxState) (frame : List Byte) (k : ErrorKind) :
    (s.midFrame p rx frame).frameFails p k = s.frameFails p k := by
  unfold State.frameFails
  rw [State.midFrame_modLink, State.captureLink_modLink, State.captureLink_modLink, State.edgeEnds_eq, State.edgeEnds_eq,
    State.modLink_modLink, State.modLink_modLink]
  exact State.modLink_congr (by simp)

theorem State.byteEdge_fails {s : State} {p : Port} {b : Byte} {e : Bool} {k : ErrorKind}
    (h : (s.link p).takeByte b e = ({ s.link p with rx := .betweenFrames, frame := [], window := false }, some k)) :
    s.byteEdge p b e = s.frameFails p k := by
  rw [State.byteEdge_error h rfl]
  rfl

theorem State.byteEdge_goes_on {s : State} {p : Port} {b : Byte} {rx : RxState} {frame : List Byte}
    (h : (s.link p).takeByte b false = ({ s.link p with rx := rx, frame := frame, window := false }, none))
    (hx : rx ≠ .betweenFrames) : s.byteEdge p b false = s.midFrame p rx frame :=
  State.byteEdge_inside h hx

/-! ### First bytes -/

theorem LinkUnit.takeByte_first {u : LinkUnit} (hx : u.rx = .betweenFrames) {b : Byte} (hb : b ≠ 0) :
    u.takeByte b false = ({ u with rx := .receiving, frame := [b], window := false }, none) := by
  have hb : ¬ b = 0#8 := hb
  simp [LinkUnit.takeByte, hx, hb, LinkUnit.extend, declared]

theorem LinkUnit.takeByte_alone {u : LinkUnit} (hx : u.rx = .betweenFrames) (b : Byte) :
    u.takeByte b true = ({ u with rx := .betweenFrames, frame := [], window := false }, some .truncated) := by
  simp [LinkUnit.takeByte, hx, LinkUnit.extend, declared, LinkUnit.dropFrame]

theorem LinkUnit.takeByte_discarding {u : LinkUnit} (hx : u.rx = .discarding) (b : Byte) :
    u.takeByte b false = ({ u with rx := .discarding, frame := u.frame, window := false }, none) := by
  simp [LinkUnit.takeByte, hx]

theorem LinkUnit.takeByte_discarded {u : LinkUnit} (hx : u.rx = .discarding) (b : Byte) :
    u.takeByte b true = ({ u with rx := .betweenFrames, frame := [], window := false }, some .overlong) := by
  simp [LinkUnit.takeByte, hx, LinkUnit.dropFrame]

/-- A declared length above 64 is known with its byte. -/
theorem LinkUnit.takeByte_overlong {u : LinkUnit} (hx : u.rx = .receiving) {kind b : Byte} (hf : u.frame = [kind])
    (hb : 64 < b.toNat) :
    u.takeByte b false = ({ u with rx := .discarding, frame := [kind, b], window := false }, none) := by
  simp [LinkUnit.takeByte, hx, hf, frameComplete, declared, LinkUnit.extend, Config.maxBody, hb]

theorem frameComplete_iff {frame : List Byte} {len : Byte} (h : frame[1]? = some len) :
    frameComplete frame = decide (len.toNat + 4 ≤ frame.length) := by
  simp [frameComplete, declared, h]

/-- A byte past the end of a whole frame. -/
theorem LinkUnit.takeByte_past {u : LinkUnit} (hx : u.rx = .receiving) (hf : frameComplete u.frame = true) (b : Byte) :
    u.takeByte b false = ({ u with rx := .discarding, frame := u.frame, window := false }, none) := by
  simp [LinkUnit.takeByte, hx, hf]

theorem State.unprepared_of_pace {s : State} {p : Port} (h : s.pace p = true) (hx : (s.link p).rx = .betweenFrames) :
    (s.link p).prepared = false := by
  simp [State.pace, hx] at h
  exact h.2.1

/-- The edges before a byte at a link unit that is between frames keep it there, with its intake queue. -/
theorem State.awaitPace_full {p : Port} (n : Nat) {s : State} (hx : (s.link p).rx = .betweenFrames)
    (hi : 4 ≤ (s.link p).intake.length) : (s.awaitPace p n).pace p = false := by
  have full {s : State} (hx : (s.link p).rx = .betweenFrames) (hi : 4 ≤ (s.link p).intake.length) : s.pace p = false := by
    have : ¬ (s.link p).intake.length < Config.intakeRoom := by simpa [Config.intakeRoom] using hi
    simp [State.pace, hx, this]
  induction n generalizing s with
  | zero => exact full hx hi
  | succ n ih =>
    unfold State.awaitPace
    split
    · exact full hx hi
    · have kept : ((s.heldEdge p).link p).rx = (s.link p).rx ∧ ((s.heldEdge p).link p).intake = (s.link p).intake := by
        unfold State.heldEdge
        split
        · dsimp only; split <;> simp [State.setPace]
        · simp only [State.link_modLink, if_pos, LinkUnit.ownEdge]
          split <;> exact ⟨rfl, rfl⟩
      exact ih (kept.1.trans hx) (by rw [kept.2]; exact hi)

theorem State.awaitPace_turn {s : State} {p : Port} (h : (s.link p).sending ≠ none) (n : Nat) : s.awaitPace p n = s := by
  cases n <;> simp [State.awaitPace, State.turn_of_sending h]

theorem State.awaitPace_rise {s : State} {p : Port} (h : s.riseDue p = true) (n : Nat) : s.awaitPace p n = s := by
  cases n <;> simp [State.awaitPace, h]

/-- One edge passes with PACE low, and then it is high. -/
theorem State.awaitPace_one {s : State} {p : Port} (hpace : s.pace p = false) (hrise : s.riseDue p = false)
    (hs : (s.link p).sending = none) (h : (s.heldEdge p).pace p = true) : s.awaitPace p 2 = s.heldEdge p := by
  rw [State.awaitPace, hpace, hrise]
  simp only [Bool.or_self, LinkUnit.turn, hs, Option.isSome_none, Bool.false_eq_true, if_false]
  exact State.awaitPace_of_pace h 1

/-- The byte is taken after edges that lead to `t`, as it would be taken in `t`. -/
theorem taken_after {s t : State} {p : Port} (h : s.awaitPace p 2 = t) (ht : t.pace p = true)
    (hx : (s.link p).rx = .betweenFrames) (hx' : (t.link p).rx = .betweenFrames) (b : Byte) (e : Bool) :
    exec (.frameBegin p b e) s = exec (.frameBegin p b e) t ∧
      ∀ rest, exec (.controllerFrame p ((b, e) :: rest)) s = exec (.controllerFrame p ((b, e) :: rest)) t := by
  have hs := State.presentByte_of_await h ht b e
  have htt := State.presentByte_of_pace ht b e
  refine ⟨by rw [exec_frameBegin_taken hx hs, exec_frameBegin_taken hx' htt], fun rest => ?_⟩
  simp only [exec, execControllerFrame, State.takeBytes_cons hs, State.takeBytes_cons htt]

theorem untaken {s : State} {p : Port} (h : (s.awaitPace p 2).pace p = false) (b : Byte) (e : Bool) :
    exec (.frameBegin p b e) s = .next s ∧ ∀ rest, exec (.controllerFrame p ((b, e) :: rest)) s = .next s :=
  ⟨exec_frameBegin_untaken h b e, fun rest => by simp only [exec, execControllerFrame, State.takeBytes_untaken h]⟩

theorem exec_controllerFrame_one {s : State} {p : Port} (h : s.pace p = true) (b : Byte) (e : Bool) :
    exec (.controllerFrame p [(b, e)]) s = .next (s.byteEdge p b e) := by
  rw [exec, execControllerFrame, State.takeBytes_cons (State.presentByte_of_pace h b e), State.takeBytes]

theorem State.pace_inside {s : State} {p : Port} (hr : s.resetAsserted = false) (hb : (s.link p).bus = .controller)
    (hx : (s.link p).rx ≠ .betweenFrames) : s.pace p = true := by
  simp [State.pace, hr, hb, hx]

/-- A first byte with PACE high between frames (R137, R138). -/
theorem frameBegins_paced {s : State} {p : Port} (b : Byte) (hp : s.pace p = true) (hx : (s.link p).rx = .betweenFrames) :
    (b ≠ 0 → exec (.frameBegin p b false) s = .next (s.modLink p fun u =>
        { u with rx := .receiving, frame := [b], window := false }) ∧
      ∀ rest, exec (.controllerFrame p rest) (s.modLink p fun u =>
        { u with rx := .receiving, frame := [b], window := false }) =
          exec (.controllerFrame p ((b, false) :: rest)) s) ∧
    exec (.frameBegin p 0 false) s = .next ((s.modLink p fun u => { u with window := false }).edgeEnds p) ∧
    exec (.frameBegin p b true) s =
      .next (((s.modLink p fun u => { u with frame := [], window := false }).captureLink p .truncated).edgeEnds p) := by
  have present := State.presentByte_of_pace hp
  refine ⟨fun hb => ?_, ?_, ?_⟩
  · have edge : s.byteEdge p b false = s.modLink p fun u => { u with rx := .receiving, frame := [b], window := false } := by
      rw [State.byteEdge_goes_on (LinkUnit.takeByte_first hx hb) (by simp)]
      exact State.modLink_congr (by simp [State.unprepared_of_pace hp hx])
    rw [exec_frameBegin_taken hx (present b false), edge]
    exact ⟨rfl, fun rest => by simp only [exec, execControllerFrame, State.takeBytes_cons (present b false), edge]⟩
  · rw [exec_frameBegin_taken hx (present 0 false)]
    have fill : (s.link p).takeByte 0 false = ({ s.link p with window := false }, none) := by
      simp [LinkUnit.takeByte, hx]
    rw [State.byteEdge_good fill (by simpa using hx)]
    rfl
  · rw [exec_frameBegin_taken hx (present b true), State.byteEdge_fails (LinkUnit.takeByte_alone hx b), State.frameFails]
    congr 3
    exact State.modLink_congr (by simp [hx])

/-- Settles O7. -/
theorem frameBegins : Obligations.FrameBegins := by
  refine ⟨fun s p b hp hx => frameBegins_paced b hp hx, fun s p b e => ⟨fun hx => exec_frameBegin_inside hx b e,
    fun hx => ⟨?_, fun hr hb hp hf => ?_, fun hr hb hp hs hi hf => ?_, fun hr hb hs hp hi => ?_⟩⟩,
    fun s p xs ys => ⟨_, rfl, by simp only [exec, execControllerFrame, State.takeBytes_append]⟩, ?_⟩
  · rintro (hi | ⟨hb, hs⟩)
    · exact untaken (State.awaitPace_full 2 hx hi) b e
    · exact untaken (by rw [State.awaitPace_turn hs]; exact State.pace_of_bus hb) b e
  · have hrise : s.riseDue p = true := by
      simp [State.riseDue, State.mayTurn_iff.2 ⟨hr, hx, hb, hp⟩, State.something_iff.2 hf]
    exact untaken (by rw [State.awaitPace_rise hrise]; simp [State.pace, hx, hp]) b e
  · have hm := State.mayTurn_iff.2 ⟨hr, hx, hb, hp⟩
    have hsome : s.something p = false := Bool.eq_false_iff.2 (mt State.something_iff.1 hf)
    obtain ⟨ha, hv⟩ := State.nextNotice_of_nothing hsome
    have edge := State.heldEdge_nothing_valid hm ha hv
    have hpace : (s.heldEdge p).pace p = true := by
      rw [edge]
      simp [State.pace, hr, hb, hx, Config.intakeRoom]
      exact hi
    have await := State.awaitPace_one (by simp [State.pace, hx, hp]) (by simp [State.riseDue, hsome]) hs hpace
    rw [← edge]
    exact taken_after await hpace hx (by rw [edge]; simp [hx]) b e
  · have edge : s.heldEdge p = s.modLink p fun u => { u with bus := .controller } := by
      rw [State.heldEdge_own (by simp [hb])]
      exact State.modLink_congr (by simp [LinkUnit.ownEdge, hb, hs])
    have hpace : (s.heldEdge p).pace p = true := by
      rw [edge]
      simp [State.pace, hr, hx, hp, Config.intakeRoom]
      exact hi
    have await := State.awaitPace_one (State.pace_of_bus (by simp [hb]))
      (State.riseDue_of_not_mayTurn (State.mayTurn_of_bus (by simp [hb]))) hs hpace
    rw [← edge]
    exact taken_after await hpace hx (by rw [edge]; simp [hx]) b e
  · intro s p b hr hb u discarding
    have on {frame : List Byte} (hx : u.rx ≠ .betweenFrames)
        (ht : u.takeByte b false = ({ u with rx := .discarding, frame := frame, window := false }, none)) :
        discarding frame := by
      show exec _ _ = _
      rw [exec_controllerFrame_one (State.pace_inside hr hb hx), State.byteEdge_goes_on ht (by simp)]
      rfl
    refine ⟨fun kind hx hf hlt => on (by simp [hx]) (LinkUnit.takeByte_overlong hx hf hlt),
      fun len hx hf hlen => on (by simp [hx]) (LinkUnit.takeByte_past hx (by simpa [frameComplete_iff hf] using hlen) b),
      fun hx => ⟨on (by simp [hx]) (LinkUnit.takeByte_discarding hx b), ?_, ?_, ?_⟩⟩
    · have hne : (s.link p).rx ≠ .betweenFrames := fun h => by rw [h] at hx; cases hx
      rw [exec_controllerFrame_one (State.pace_inside hr hb hne), State.byteEdge_fails (LinkUnit.takeByte_discarded hx b)]
      rfl
    · exact exec_sendAnswer_of_not_mayTurn (State.awaitTurn_held (.inl fun h => by rw [h] at hx; cases hx))
    · exact exec_sendNotice_of_not_mayTurn (State.awaitTurn_held (.inl fun h => by rw [h] at hx; cases hx))

end Sys2Proof.Machine
end
-- ==== Sys2Proof/Proofs/Reception.lean ====
section
/-! Byte by byte reception and the verdict on the whole frame; the check of a frame (O6). -/
namespace Sys2Proof.Machine

/-! ### A frame that goes on, byte by byte -/

/-- What the verdict on a whole frame makes of the port. -/
def State.frameEnds (s : State) (p : Port) : Except ErrorKind Frame → State
  | .ok f => (s.modLink p fun u =>
      { u with rx := .betweenFrames, frame := [], window := false, intake := u.intake ++ [f] }).edgeEnds p
  | .error k => s.frameFails p k

/-- The verdict forgets how far the frame had come. -/
theorem State.frameEnds_midFrame (s : State) (p : Port) (rx : RxState) (frame : List Byte) (v : Except ErrorKind Frame) :
    (s.midFrame p rx frame).frameEnds p v = s.frameEnds p v := by
  cases v with
  | error k => exact s.frameFails_midFrame p rx frame k
  | ok f =>
    simp only [State.frameEnds]
    rw [State.midFrame_modLink, State.edgeEnds_eq, State.edgeEnds_eq, State.modLink_modLink, State.modLink_modLink]
    exact State.modLink_congr (by simp)

theorem withEnd_cons_cons (b c : Byte) (bs : List Byte) : withEnd (b :: c :: bs) = (b, false) :: withEnd (c :: bs) := rfl

section
variable {s : State} {p : Port} (hr : s.resetAsserted = false) (hb : (s.link p).bus = .controller)
include hr hb

/-- Inside a frame each byte is taken at once. -/
theorem State.takeBytes_midFrame {rx : RxState} (hx : rx ≠ .betweenFrames) (frame : List Byte) (b : Byte) (e : Bool)
    (bs : List BusByte) : State.takeBytes p ((b, e) :: bs) (s.midFrame p rx frame) =
      State.takeBytes p bs ((s.midFrame p rx frame).byteEdge p b e) :=
  State.takeBytes_cons (State.presentByte_of_pace (State.pace_midFrame hr hb hx frame) b e) bs

/-- A frame in DISCARDING ends OVERLONG, whatever comes. -/
theorem State.takeBytes_discarding (frame : List Byte) {rest : List Byte} (h : rest ≠ []) :
    State.takeBytes p (withEnd rest) (s.midFrame p .discarding frame) = s.frameFails p .overlong := by
  have rx : ((s.midFrame p .discarding frame).link p).rx = .discarding := by simp [State.midFrame]
  induction rest with
  | nil => exact absurd rfl h
  | cons b rest ih =>
    cases rest with
    | nil =>
      rw [withEnd, State.takeBytes_midFrame hr hb (by simp), State.byteEdge_fails (LinkUnit.takeByte_discarded rx b),
        State.frameFails_midFrame]
      rfl
    | cons c bs =>
      rw [withEnd_cons_cons, State.takeBytes_midFrame hr hb (by simp),
        State.byteEdge_goes_on (LinkUnit.takeByte_discarding rx b) (by simp), State.midFrame_midFrame]
      have : ((s.midFrame p .discarding frame).link p).frame = frame := by simp [State.midFrame]
      rw [this]
      exact ih (by simp)

end

/-! ### A byte inside a frame whose length byte is there -/

/-- The check decides on a frame that came whole with END. -/
theorem LinkUnit.judgeFrame_eq (u : LinkUnit) (kind len : Byte) {rest : List Byte} (h : rest.length = len.toNat + 2) :
    u.judgeFrame (kind :: len :: rest) =
      if rest.drop len.toNat = put16 .highFirst (crc (kind :: len :: rest.take len.toNat)) then
        ({ u.dropFrame with intake := u.intake ++ [{ kind := kind, body := rest.take len.toNat }] }, none)
      else (u.dropFrame, some .badCheck) := by
  have hn : (kind :: len :: rest).length - 2 = len.toNat + 2 := by simp [h]
  unfold LinkUnit.judgeFrame
  simp only [hn, List.take_succ_cons, List.drop_succ_cons]

theorem LinkUnit.takeByte_receiving {u : LinkUnit} (hx : u.rx = .receiving) {frame : List Byte} (hf : u.frame = frame)
    (hc : frameComplete frame = false) (b : Byte) (e : Bool) :
    u.takeByte b e = ({ u with window := false } : LinkUnit).extend (frame ++ [b]) e := by
  subst hf
  simp [LinkUnit.takeByte, hx, hc]

/-- A byte without END, after a length byte of at most 64, within the frame. -/
theorem LinkUnit.extend_within (u : LinkUnit) (kind len : Byte) {rest : List Byte} (hl : len.toNat ≤ 64) :
    u.extend (kind :: len :: rest) false = ({ u with rx := .receiving, frame := kind :: len :: rest }, none) := by
  have : ¬ Config.maxBody < len.toNat := by simpa [Config.maxBody] using hl
  simp [LinkUnit.extend, declared, this]

theorem LinkUnit.extend_short (u : LinkUnit) (kind len : Byte) {rest : List Byte} (hl : len.toNat ≤ 64)
    (h : rest.length < len.toNat + 2) : u.extend (kind :: len :: rest) true = (u.dropFrame, some .truncated) := by
  have : ¬ Config.maxBody < len.toNat := by simpa [Config.maxBody] using hl
  simp [LinkUnit.extend, declared, this, h]

theorem LinkUnit.extend_whole (u : LinkUnit) (kind len : Byte) {rest : List Byte} (hl : len.toNat ≤ 64)
    (h : rest.length = len.toNat + 2) :
    u.extend (kind :: len :: rest) true = u.judgeFrame (kind :: len :: rest) := by
  have : ¬ Config.maxBody < len.toNat := by simpa [Config.maxBody] using hl
  simp [LinkUnit.extend, declared, this, h]

theorem frameVerdict_long (kind len : Byte) {rest : List Byte} (h : 64 < len.toNat ∨ len.toNat + 2 < rest.length) :
    frameVerdict (kind :: len :: rest) = .error .overlong := by
  unfold frameVerdict
  rcases h with h | h
  · simp [h]
  · have : ¬ rest.length < len.toNat + 2 := by omega
    simp [h, this]

theorem frameVerdict_short (kind len : Byte) {rest : List Byte} (hl : len.toNat ≤ 64) (h : rest.length < len.toNat + 2) :
    frameVerdict (kind :: len :: rest) = .error .truncated := by
  unfold frameVerdict
  simp [Nat.not_lt.2 hl, h]

theorem frameVerdict_whole (kind len : Byte) {rest : List Byte} (hl : len.toNat ≤ 64) (h : rest.length = len.toNat + 2) :
    frameVerdict (kind :: len :: rest) =
      if rest.drop len.toNat = put16 .highFirst (crc (kind :: len :: rest.take len.toNat)) then
        .ok { kind := kind, body := rest.take len.toNat }
      else .error .badCheck := by
  unfold frameVerdict
  simp [Nat.not_lt.2 hl, h]

theorem frameComplete_cons (kind len : Byte) (rest : List Byte) :
    frameComplete (kind :: len :: rest) = decide (len.toNat + 2 ≤ rest.length) := by
  rw [frameComplete_iff (len := len) rfl]
  simp

/-- The last byte of a frame, END with it, after a length byte of at most 64. -/
theorem State.byteEdge_last {s : State} {p : Port} (kind len : Byte) {held : List Byte} (hl : len.toNat ≤ 64)
    (b : Byte) : (s.midFrame p .receiving (kind :: len :: held)).byteEdge p b true =
      s.frameEnds p (frameVerdict (kind :: len :: (held ++ [b]))) := by
  have rx : ((s.midFrame p .receiving (kind :: len :: held)).link p).rx = .receiving := by simp [State.midFrame]
  have frame : ((s.midFrame p .receiving (kind :: len :: held)).link p).frame = kind :: len :: held := by
    simp [State.midFrame]
  rcases Nat.lt_or_ge held.length (len.toNat + 2) with hlt | hge
  · have hc : frameComplete (kind :: len :: held) = false := by simp [frameComplete_cons, hlt]
    have take := LinkUnit.takeByte_receiving rx frame hc b true
    rw [List.cons_append, List.cons_append] at take
    rcases Nat.lt_or_ge (held.length + 1) (len.toNat + 2) with hs | hw
    · rw [LinkUnit.extend_short _ _ _ hl (by simpa using hs)] at take
      rw [State.byteEdge_fails take, State.frameFails_midFrame, frameVerdict_short _ _ hl (by simpa using hs)]
      rfl
    · have hlen : (held ++ [b]).length = len.toNat + 2 := by simp; omega
      rw [LinkUnit.extend_whole _ _ _ hl hlen, LinkUnit.judgeFrame_eq _ _ _ hlen] at take
      rw [frameVerdict_whole _ _ hl hlen]
      split at take
      next check =>
        rw [if_pos check, State.byteEdge_good take rfl, ← s.frameEnds_midFrame p .receiving (kind :: len :: held)]
        rfl
      next check =>
        rw [if_neg check, State.byteEdge_fails take, State.frameFails_midFrame]
        rfl
  · have hc : frameComplete (kind :: len :: held) = true := by simp [frameComplete_cons]; omega
    have take : ((s.midFrame p .receiving (kind :: len :: held)).link p).takeByte b true =
        ({ (s.midFrame p .receiving (kind :: len :: held)).link p with
          rx := .betweenFrames, frame := [], window := false }, some .overlong) := by
      simp [LinkUnit.takeByte, rx, frame, hc, LinkUnit.dropFrame]
    rw [State.byteEdge_fails take, State.frameFails_midFrame, frameVerdict_long _ _ (.inr (by simp; omega))]
    rfl

section
variable {s : State} {p : Port} (hr : s.resetAsserted = false) (hb : (s.link p).bus = .controller)
include hr hb

/-- The bytes after a length byte of at most 64. -/
theorem State.takeBytes_receiving (kind len : Byte) (hl : len.toNat ≤ 64) {rest : List Byte} (held : List Byte)
    (h : rest ≠ []) :
    State.takeBytes p (withEnd rest) (s.midFrame p .receiving (kind :: len :: held)) =
      s.frameEnds p (frameVerdict (kind :: len :: (held ++ rest))) := by
  induction rest generalizing held with
  | nil => exact absurd rfl h
  | cons b rest ih =>
    cases rest with
    | nil =>
      rw [withEnd, State.takeBytes_midFrame hr hb (by simp), State.byteEdge_last kind len hl]
      rfl
    | cons c bs =>
      have rx : ((s.midFrame p .receiving (kind :: len :: held)).link p).rx = .receiving := by simp [State.midFrame]
      have frame : ((s.midFrame p .receiving (kind :: len :: held)).link p).frame = kind :: len :: held := by
        simp [State.midFrame]
      rw [withEnd_cons_cons, State.takeBytes_midFrame hr hb (by simp)]
      rcases Nat.lt_or_ge held.length (len.toNat + 2) with hlt | hge
      · have take := LinkUnit.takeByte_receiving rx frame (by simp [frameComplete_cons, hlt]) b false
        rw [List.cons_append, List.cons_append, LinkUnit.extend_within _ _ _ hl] at take
        rw [State.byteEdge_goes_on take (by simp), State.midFrame_midFrame, ih (held ++ [b]) (by simp)]
        simp
      · have take := LinkUnit.takeByte_past rx (by rw [frame, frameComplete_cons]; simpa using hge) b
        rw [State.byteEdge_goes_on take (by simp), State.midFrame_midFrame, State.takeBytes_discarding hr hb _ (by simp),
          frameVerdict_long _ _ (.inr (by simp; omega))]
        rfl

/-- The bytes after the kind byte. -/
theorem State.takeBytes_kind (kind : Byte) {rest : List Byte} (h : rest ≠ []) :
    State.takeBytes p (withEnd rest) (s.midFrame p .receiving [kind]) = s.frameEnds p (frameVerdict (kind :: rest)) := by
  have rx : ((s.midFrame p .receiving [kind]).link p).rx = .receiving := by simp [State.midFrame]
  have frame : ((s.midFrame p .receiving [kind]).link p).frame = [kind] := by simp [State.midFrame]
  have open' : frameComplete [kind] = false := rfl
  cases rest with
  | nil => exact absurd rfl h
  | cons len rest =>
    cases rest with
    | nil =>
      rw [withEnd, State.takeBytes_midFrame hr hb (by simp)]
      have take := LinkUnit.takeByte_receiving rx frame open' len true
      rcases Nat.lt_or_ge 64 len.toNat with hl | hl
      · have tooLong : ({ (s.midFrame p .receiving [kind]).link p with window := false } : LinkUnit).extend [kind, len] true =
            (LinkUnit.dropFrame { (s.midFrame p .receiving [kind]).link p with window := false }, some .overlong) := by
          simp [LinkUnit.extend, declared, Config.maxBody, hl]
        rw [List.singleton_append, tooLong] at take
        rw [State.byteEdge_fails take, State.frameFails_midFrame, frameVerdict_long _ _ (.inl hl)]
        rfl
      · rw [List.singleton_append, LinkUnit.extend_short _ _ _ hl (by simp)] at take
        rw [State.byteEdge_fails take, State.frameFails_midFrame, frameVerdict_short _ _ hl (by simp)]
        rfl
    | cons c bs =>
      rw [withEnd_cons_cons, State.takeBytes_midFrame hr hb (by simp)]
      rcases Nat.lt_or_ge 64 len.toNat with hl | hl
      · rw [State.byteEdge_goes_on (LinkUnit.takeByte_overlong rx frame hl) (by simp), State.midFrame_midFrame,
          State.takeBytes_discarding hr hb _ (by simp), frameVerdict_long _ _ (.inl hl)]
        rfl
      · have take := LinkUnit.takeByte_receiving rx frame open' len false
        rw [List.singleton_append, LinkUnit.extend_within _ _ _ hl] at take
        rw [State.byteEdge_goes_on take (by simp), State.midFrame_midFrame,
          State.takeBytes_receiving hr hb kind len hl [] (by simp)]
        rfl

end

/-- The bytes of a whole frame, from between frames. -/
theorem State.takeBytes_frame {s : State} {p : Port} (hp : s.pace p = true) (hx : (s.link p).rx = .betweenFrames)
    {bytes : List Byte} (h : bytes ≠ []) (hfirst : bytes.head? ≠ some 0 ∨ bytes.length = 1) :
    State.takeBytes p (withEnd bytes) s = s.frameEnds p (frameVerdict bytes) := by
  obtain ⟨hr, hb, -⟩ := State.pace_iff.1 hp
  have present := State.presentByte_of_pace hp
  cases bytes with
  | nil => exact absurd rfl h
  | cons b rest =>
    cases rest with
    | nil =>
      rw [withEnd, State.takeBytes_cons (present b true), State.byteEdge_fails (LinkUnit.takeByte_alone hx b)]
      rfl
    | cons c bs =>
      have hne : b ≠ 0 := by simpa using hfirst
      rw [withEnd_cons_cons, State.takeBytes_cons (present b false),
        State.byteEdge_goes_on (LinkUnit.takeByte_first hx hne) (by simp), State.takeBytes_kind hr hb b (by simp)]

/-! ### The check (R139) -/

/-- A byte shifted through the register with nothing above it comes to its high byte. -/
theorem crcByte_high (b : Byte) : crcByte (b ++ (0 : Byte)) b = 0 := by
  simp only [crcByte, BitVec.xor_self]
  decide

/-- Eight shifts of a register whose high byte is clear lose nothing. -/
theorem crcByte_clear (x y : Byte) : crcByte (x ++ y) x = y ++ (0 : Byte) := by
  have clear : (x ++ y) ^^^ (x ++ (0 : Byte)) = (0 : Byte) ++ y := by
    ext i
    simp only [BitVec.getElem_xor, BitVec.getElem_append]
    split <;> simp
  have shifted : ∀ y : Byte, crcShift (crcShift (crcShift (crcShift (crcShift (crcShift (crcShift (crcShift
      ((0 : Byte) ++ y)))))))) = y ++ (0 : Byte) := by decide
  rw [crcByte, clear, shifted]

/-- A message followed by its own check leaves the remainder 0. -/
theorem crc_append_crc (bytes : List Byte) : crc (bytes ++ put16 .highFirst (crc bytes)) = 0 := by
  have parts : crc bytes = (crc bytes).extractLsb' 8 8 ++ (crc bytes).extractLsb' 0 8 := (append_extract16 _).symm
  have unfolded : crc (bytes ++ put16 .highFirst (crc bytes)) =
      crcByte (crcByte (crc bytes) ((crc bytes).extractLsb' 8 8)) ((crc bytes).extractLsb' 0 8) := by
    simp only [crc, put16, List.foldl_append, List.foldl_cons, List.foldl_nil]
  rw [unfolded]
  generalize (crc bytes).extractLsb' 8 8 = x at *
  generalize (crc bytes).extractLsb' 0 8 = y at *
  rw [parts, crcByte_clear, crcByte_high]

theorem crc_digits : crc [0x31, 0x32, 0x33, 0x34, 0x35, 0x36, 0x37, 0x38, 0x39] = 0x29B1 := by
  have register : crcByte 0xFFFF 0x31 = 0xC782 ∧
      crcByte 0xC782 0x32 = 0x3DBA ∧
      crcByte 0x3DBA 0x33 = 0x5BCE ∧
      crcByte 0x5BCE 0x34 = 0x5349 ∧
      crcByte 0x5349 0x35 = 0x4560 ∧
      crcByte 0x4560 0x36 = 0x2EF4 ∧
      crcByte 0x2EF4 0x37 = 0x7718 ∧
      crcByte 0x7718 0x38 = 0xA12B ∧
      crcByte 0xA12B 0x39 = 0x29B1 := by decide
  obtain ⟨h1, h2, h3, h4, h5, h6, h7, h8, h9⟩ := register
  simp only [crc, List.foldl_cons, List.foldl_nil, h1, h2, h3, h4, h5, h6, h7, h8, h9]

/-! ### Whole frames -/

theorem State.frameEnds_of_between {s : State} {p : Port} (hx : (s.link p).rx = .betweenFrames) (v : Except ErrorKind Frame) :
    s.frameEnds p v = match v with
      | .ok f => (s.modLink p fun u => { u with frame := [], window := false, intake := u.intake ++ [f] }).edgeEnds p
      | .error e => ((s.modLink p fun u => { u with frame := [], window := false }).captureLink p e).edgeEnds p := by
  cases v with
  | ok f =>
    simp only [State.frameEnds]
    congr 1
    exact State.modLink_congr (by simp [hx])
  | error k =>
    simp only [State.frameEnds, State.frameFails]
    congr 2
    exact State.modLink_congr (by simp [hx])

theorem exec_controllerFrame_whole {s : State} {p : Port} (hp : s.pace p = true) (hx : (s.link p).rx = .betweenFrames)
    {bytes : List Byte} (h : bytes ≠ []) (hfirst : bytes.head? ≠ some 0 ∨ bytes.length = 1) :
    exec (.controllerFrame p (withEnd bytes)) s = .next (s.frameEnds p (frameVerdict bytes)) := by
  rw [exec, execControllerFrame, State.takeBytes_frame hp hx h hfirst]

/-- A fill byte before a frame: the window passes, and PACE is set low for a turn if something waits. -/
theorem State.takeBytes_fill {s : State} {p : Port} (hp : s.pace p = true) (hx : (s.link p).rx = .betweenFrames)
    (bs : List BusByte) : State.takeBytes p ((0, false) :: bs) s =
      State.takeBytes p bs (s.modLink p fun u => { u with window := false, prepared := s.hasWaiting p }) := by
  rw [State.takeBytes_cons (State.presentByte_of_pace hp 0 false), State.byteEdge_fill hx]

theorem LinkUnit.takeByte_window (u : LinkUnit) (b : Byte) (e : Bool) :
    ({ u with window := false } : LinkUnit).takeByte b e = u.takeByte b e := rfl

theorem withEnd_ne_nil {bytes : List Byte} (h : bytes ≠ []) : ∃ b e bs, withEnd bytes = (b, e) :: bs := by
  match bytes, h with
  | [b], _ => exact ⟨b, true, [], rfl⟩
  | b :: c :: bs, _ => exact ⟨b, false, _, rfl⟩

/-- With nothing to send, a fill byte before a frame is as if it had not come. -/
theorem exec_controllerFrame_fill_idle {s : State} {p : Port} (hp : s.pace p = true)
    (hx : (s.link p).rx = .betweenFrames) {bytes : List Byte} (h : bytes ≠ []) (ha : (s.link p).answers = [])
    (hn : s.pendingSet p = []) :
    exec (.controllerFrame p ((0, false) :: withEnd bytes)) s = exec (.controllerFrame p (withEnd bytes)) s := by
  obtain ⟨b, e, bs, hbs⟩ := withEnd_ne_nil h
  have hw : s.hasWaiting p = false := by simp [State.hasWaiting, ha, hn]
  have hprep := State.unprepared_of_pace hp hx
  have filled : (s.modLink p fun u => { u with window := false, prepared := s.hasWaiting p }) =
      s.modLink p fun u => { u with window := false } := State.modLink_congr (by rw [hw, ← hprep])
  have hp' : (s.modLink p fun u => { u with window := false }).pace p = true := by
    rw [← hp]; simp [State.pace]
  have edge : (s.modLink p fun u => { u with window := false }).byteEdge p b e = s.byteEdge p b e := by
    unfold State.byteEdge State.received
    simp only [State.link_modLink, if_true, LinkUnit.takeByte_window, State.modLink_modLink]
  simp only [exec, execControllerFrame]
  rw [State.takeBytes_fill hp hx, filled, hbs, State.takeBytes_cons (State.presentByte_of_pace hp' b e),
    State.takeBytes_cons (State.presentByte_of_pace hp b e), edge]

theorem State.something_modLink (s : State) (p : Port) (f : LinkUnit → LinkUnit) (h : ∀ u, (f u).answers = u.answers) :
    (s.modLink p f).something p = s.something p := by
  have hn : ∀ k items, (s.modLink p f).nextNotice p k items = s.nextNotice p k items := fun k items => by
    rw [State.modLink_eq_withQueues, State.nextNotice_withQueues]
  simp only [State.something, State.link_modLink, if_true, State.pendingSet_modLink, hn, h]

/-- With something to send TURN rises at the edge after a fill byte, and the frame is not taken. -/
theorem exec_controllerFrame_fill_turn {s : State} {p : Port} (hp : s.pace p = true)
    (hx : (s.link p).rx = .betweenFrames) (bytes : List Byte) (hf : s.hasFrame p) :
    exec (.controllerFrame p ((0, false) :: withEnd bytes)) s =
      .next (s.modLink p fun u => { u with window := false, prepared := true }) := by
  obtain ⟨hr, hb, -⟩ := State.pace_iff.1 hp
  have hw : s.hasWaiting p = true := by
    rw [State.hasWaiting_eq, decide_eq_true_eq]
    exact hf.imp_right fun ⟨n, hn, _⟩ => List.ne_nil_of_mem hn
  have hsome : (s.modLink p fun u => { u with window := false, prepared := true }).something p = true := by
    rw [State.something_modLink]
    · exact State.something_iff.2 hf
    · exact fun _ => rfl
  have hrise : (s.modLink p fun u => { u with window := false, prepared := true }).riseDue p = true := by
    simp only [State.riseDue, hsome, Bool.and_true]
    exact State.mayTurn_iff.2 ⟨hr, by simp [hx], by simp [hb], by simp⟩
  rw [exec, execControllerFrame, State.takeBytes_fill hp hx, hw, State.takeBytes_untaken]
  rw [State.awaitPace_rise hrise]
  simp [State.pace, hx]

/-- The verdict on a frame of the IX48's own making. -/
theorem frameVerdict_frameBytes (kind : Byte) {body : List Byte} (h : body.length ≤ 64) :
    frameVerdict (frameBytes kind body) = .ok { kind := kind, body := body } := by
  have hlen : (byte body.length).toNat = body.length := by simp [byte]; omega
  unfold frameBytes
  simp only [List.cons_append]
  rw [frameVerdict_whole _ _ (by omega) (by simp [hlen, put16]), hlen]
  simp

/-- Settles O6. -/
theorem receptionAgreesWithWholeFrame : Obligations.ReceptionAgreesWithWholeFrame := by
  refine ⟨fun s p bytes hp hx h => ⟨fun hfirst => ?_, fun ha hn => exec_controllerFrame_fill_idle hp hx h ha hn,
    fun hf => exec_controllerFrame_fill_turn hp hx bytes hf⟩, fun s p kind body hp hx hk hl => ?_, fun kind body => ?_,
    crc_digits, crc_append_crc⟩
  · rw [exec_controllerFrame_whole hp hx h hfirst, State.frameEnds_of_between hx] <;>
      cases frameVerdict bytes <;> rfl
  · rw [exec_controllerFrame_whole hp hx (by simp [frameBytes]) (.inl (by simpa [frameBytes] using hk)),
      frameVerdict_frameBytes kind hl, State.frameEnds_of_between hx]
  · rw [frameBytes, put16_highFirst, put16_lowFirst]
    rfl

end Sys2Proof.Machine
end
-- ==== Sys2Proof/Proofs/Answers.lean ====
section
/-! How an offered request comes to its answer, and how its identity bytes are read. -/
namespace Sys2Proof.Machine

section
variable {s : State} {p : Port} {k : RequestKind} {body : List Byte}

/-- A request that passes the stages of R141 is answered by its owner. -/
theorem exec_offered (h : s.offers p k body) (len : k.lengthOk body = true) (may : k.permitted p body = true)
    (on : s.portOff p = false ∨ k.isQuery = true) {y : Reply} (e : k.owner p body (s.dropRequest p) = y) :
    exec (k.command p) s = .next (y.work.finish.answered p k body y.result y.data) := by
  rw [exec_command, State.takeRequest_owner h _ len may on, e]
  rfl

/-- The same, when the owner starts no selection. -/
theorem exec_offered_refused (h : s.offers p k body) (len : k.lengthOk body = true) (may : k.permitted p body = true)
    (on : s.portOff p = false ∨ k.isQuery = true) {t : State} {x : Result} {data : List Byte}
    (e : k.owner p body (s.dropRequest p) = t.refuse x data) :
    exec (k.command p) s = .next (t.answered p k body x data) := by
  rw [exec_offered h len may on e]
  rw [State.refuse, State.begin_finish]

/-- A request from a port that may not send it. -/
theorem exec_offered_notPermitted (h : s.offers p k body) (len : k.lengthOk body = true)
    (may : k.permitted p body = false) : exec (k.command p) s = .next ((s.dropRequest p).answered p k body .notPermitted []) := by
  rw [exec_command_offered h, State.judgeRequest_notPermitted len may]
  rfl

end

/-! ### Identity bytes -/

theorem toNat_byte {n : Nat} (h : n < 256) : (byte n).toNat = n := by simp [byte]; omega

theorem Byte.below_byte {n : Nat} (hn : n ≤ 256) (i : Fin n) : Byte.below n (byte i.val) = some i := by
  have : (byte i.val).toNat = i.val := toNat_byte (by omega)
  simp [Byte.below, this]

theorem Byte.below_of_le {n : Nat} {b : Byte} (h : n ≤ b.toNat) : Byte.below n b = none := by
  simp [Byte.below, Nat.not_lt.2 h]

/-- An identity byte names one of `n`, or none. -/
theorem Byte.below_cases {n : Nat} (hn : n ≤ 256) (b : Byte) : n ≤ b.toNat ∨ ∃ i : Fin n, b = byte i.val := by
  rcases Nat.lt_or_ge b.toNat n with h | h
  · exact .inr ⟨⟨b.toNat, h⟩, BitVec.eq_of_toNat_eq (by rw [toNat_byte (by omega)])⟩
  · exact .inl h

theorem byte_injective {m n : Nat} (hm : m < 256) (hn : n < 256) (h : byte m = byte n) : m = n := by
  rw [← toNat_byte hm, ← toNat_byte hn, h]

end Sys2Proof.Machine
end
-- ==== Sys2Proof/Proofs/NoticeContent.lean ====
section
/-! When each kind of notice is valid and what it carries (O11). -/
namespace Sys2Proof.Machine

theorem State.inUse_iff {s : State} {h : HNum} : s.inUse h = true ↔ ∃ x, s.hand h = some x ∧ x.state ≠ .closing := by
  cases e : s.hand h <;> simp [State.inUse, e]

theorem State.owes_iff {s : State} {p : Port} {h : HNum} : s.owes p h = true ↔ ∃ r x cl, p = .region r ∧
    s.hand h = some x ∧ x.state = .closing ∧ x.closing = some cl ∧ RegionSet.has cl.waiting r = true := by
  cases e : s.hand h with
  | none => simp [State.owes, e]
  | some x =>
    cases p with
    | ps => simp [State.owes, e]
    | region r => cases hc : x.closing <;> simp [State.owes, e, hc]

theorem State.valid_grant_iff {s : State} {p : Port} {c : ColIx} :
    s.valid p (.grant c) = true ↔ ∃ x, (s.col c).grant = some x ∧ Port.region x.claim.robot.port = p := by
  cases e : (s.col c).grant <;> simp [State.valid, e]

theorem State.valid_ready_iff {s : State} {p : Port} {h : HNum} :
    s.valid p (.ready h) = true ↔ ∃ x, s.hand h = some x ∧ x.state = .stored ∧ Port.region x.dest = p := by
  cases e : s.hand h <;> simp [State.valid, e]

theorem State.valid_warn_iff {s : State} {p : Port} {h : HNum} : s.valid p (.warn h) = true ↔
    ∃ x d, (s.hand h = some x ∧ x.state ≠ .closing) ∧ x.budget = some d ∧ d.warned = true := by
  cases e : s.hand h with
  | none => simp [State.valid, State.inUse, e]
  | some x => cases hb : x.budget <;> simp [State.valid, State.inUse, e, hb]

theorem State.valid_error_iff {s : State} {p : Port} {g : Fin 8} :
    s.valid p (.error g) = true ↔ (s.group g).captured ≠ none := by
  simp [State.valid, Option.isSome_iff_ne_none]

/-- The remaining-budget item, by the fields of the budget (R83, R105). -/
theorem Handover.liveBudget_eq (x : Handover) (now : Seconds) : x.liveBudget now = match x.budget with
    | none => 65535
    | some d => match d.since with
      | some t => d.remaining - (now - t).toNat
      | none => d.remaining := by
  unfold Handover.liveBudget Budget.live elapsed
  cases x.budget <;> rfl

theorem PortConfig.columnByte_eq (f : PortConfig) (c : Option ColIx) :
    f.columnByte c = (c.map fun c => byte (f.toLocal c)).getD 0xFF := by
  cases c <;> rfl

theorem State.noticeBody_grant_shift {s : State} {c : ColIx} {g : Grant} {i : HNum} {x : Handover}
    (hg : (s.col c).grant = some g) (hop : g.op = .shift i) (hx : s.hand i = some x) (p : Port) :
    s.noticeBody p (.grant c) = [1, (s.view p).columnByte (some c), g.claim.robot.number, byte i.val, 2,
      (s.view p).columnByte x.target] ++ put24 (s.view p).order x.bin := by
  simp only [State.noticeBody, State.content, hg, State.grantContent, hop, Grant.record, hx, Option.bind_some]
  rfl

theorem State.noticeBody_grant_other {s : State} {c : ColIx} {g : Grant} (hg : (s.col c).grant = some g)
    (hop : ∀ i, g.op ≠ .shift i) (p : Port) :
    s.noticeBody p (.grant c) = [1, (s.view p).columnByte (some c), g.claim.robot.number, byte g.claim.handover.val,
      g.op.kind.code, 0xFF, 0xFF, 0xFF, 0xFF] := by
  simp only [State.noticeBody, State.content, hg, State.grantContent]
  cases hk : g.op with
  | shift i => exact absurd hk (hop i)
  | deposit | lift | holding => simp only [Grant.record, hk]; rfl

/-- Settles O11. -/
theorem noticesSayWhatTheTablesList : Obligations.NoticesSayWhatTheTablesList := by
  refine ⟨fun s p h c g v a b rb => ?_, fun s p h c v a b rb => ?_⟩
  · refine ⟨?_, State.valid_grant_iff, State.valid_ready_iff, ?_, State.valid_warn_iff, ?_, State.valid_error_iff⟩
    · simp only [List.forall_mem_cons]
      exact ⟨rfl, rfl, rfl, rfl, rfl, by simp⟩
    · simp only [List.forall_mem_cons]
      exact ⟨State.inUse_iff, State.inUse_iff, by simp⟩
    · simp only [List.forall_mem_cons]
      exact ⟨State.owes_iff, State.owes_iff, State.owes_iff, by simp⟩
  · refine ⟨rfl, fun g hg => ⟨fun i x hop hx => ?_, fun hop => ?_⟩, fun x hx => ⟨fun hc => ?_, ?_, ?_, ?_, ?_⟩, rfl, rfl, rfl,
      ?_, rfl, ?_, fun g e he => ?_⟩
    · rw [State.noticeBody_grant_shift hg hop hx, PortConfig.columnByte_eq, PortConfig.columnByte_eq]
    · rw [State.noticeBody_grant_other hg hop, PortConfig.columnByte_eq]
    · simp only [State.noticeBody, State.content, State.recordContent, hx, State.position, hc, PortConfig.columnByte_eq]
      rfl
    · simp only [State.noticeBody, State.content, State.recordContent, hx, PortConfig.columnByte_eq]
      rfl
    · simp only [State.noticeBody, State.content, State.recordContent, hx, PortConfig.columnByte_eq, putNat16,
        Handover.liveBudget_eq]
      rfl
    · simp only [State.noticeBody, State.content, State.recordContent, hx, PortConfig.columnByte_eq]
      rfl
    · simp only [State.noticeBody, State.content, State.recordContent, hx, putNat16, Handover.liveBudget_eq]
      rfl
    · simp only [State.noticeBody, State.content]
      cases (s.col c).cause <;> rfl
    · simp only [State.noticeBody, State.content, Column.reported]
      cases (s.col c).cfg.gaugeMode <;> rfl
    · simp only [State.noticeBody, State.content, he]
      rfl

end Sys2Proof.Machine
end
-- ==== Sys2Proof/Proofs/Errors.lean ====
section
/-! The capture of errors, the posting of notices, and CLEAR ERRORS (O37, O39). -/
namespace Sys2Proof.Machine

theorem State.modGroup_congr {s : State} {g : Fin 8} {f f' : ErrorGroup → ErrorGroup} (h : f (s.group g) = f' (s.group g)) :
    s.modGroup g f = s.modGroup g f' := by
  unfold State.modGroup; rw [h]

theorem State.modGroup_modGroup (s : State) (g : Fin 8) (f f' : ErrorGroup → ErrorGroup) :
    (s.modGroup g f).modGroup g f' = s.modGroup g fun x => f' (f x) := by
  simp [State.modGroup, State.group]

theorem State.capture_clear {s : State} {g : Fin 8} (h : (s.group g).captured = none) (e : Capture) :
    s.capture g e = (s.modGroup g fun _ => { captured := some e, multi := false }).post .ps (.error g) := by
  simp [State.capture, h]

theorem State.capture_full {s : State} {g : Fin 8} {x : Capture} (h : (s.group g).captured = some x) (e : Capture) :
    s.capture g e = s.modGroup g fun _ => { captured := some x, multi := true } := by
  have : s.capture g e = s.modGroup g fun x => { x with multi := true } := by simp [State.capture, h]
  rw [this]
  exact State.modGroup_congr (by rw [h])

theorem State.captureLink_eq (s : State) (p : Port) (e : ErrorKind) : s.captureLink p e =
    s.capture (match p with | .region r => ⟨r.val, by omega⟩ | .ps => 4)
      { kind := e, port := some p, robot := none, handover := none, column := none, time := s.clock, reading := none
        stackLen := none } := by
  cases p <;> rfl

/-- An item of a new kind and subject is the newest. -/
theorem joinSet_new {n : Notice} {items : List Notice} (h : ∀ m ∈ items, n.same m = false) :
    joinSet n items = items ++ [n] := by
  have : items.any (Notice.same n) = false := by simpa using h
  simp [joinSet, this]

/-- An item of the same kind and subject gives its place to the new one. -/
theorem joinSet_same {n m : Notice} {before after : List Notice} (hd : noticesDistinct (before ++ m :: after))
    (h : n.same m = true) : joinSet n (before ++ m :: after) = before ++ n :: after := by
  obtain ⟨-, hafter, hbefore⟩ := List.pairwise_append.1 hd
  rw [List.pairwise_cons] at hafter
  have kept (l : List Notice) (hl : ∀ x ∈ l, n.same x = false) : (l.map fun x => if n.same x then n else x) = l := by
    rw [List.map_congr_left fun x hx => by rw [hl x hx, if_neg Bool.false_ne_true], List.map_id']
  have any : (before ++ m :: after).any (Notice.same n) = true := by simp [h]
  rw [joinSet, if_pos any, List.map_append, List.map_cons, if_pos h, kept, kept]
  · exact fun x hx => by rw [Notice.same_of_same h]; exact hafter.1 x hx
  · exact fun x hx => by rw [Notice.same_of_same h, Notice.same_comm]; exact hbefore x hx m (by simp)

theorem State.post_of_level_zero {s : State} {n : Notice} (h : s.level n.kind = 0) (p : Port) : s.post p n = s := by
  simp [State.post, h]

theorem State.post_of_level {s : State} {n : Notice} (h : s.level n.kind ≠ 0) (p : Port) :
    s.post p n = s.modPending p (joinSet n) := by
  simp [State.post, h]

/-- Settles O39. -/
theorem errorsAndNoticesJoinOnce : Obligations.ErrorsAndNoticesJoinOnce := by
  refine ⟨fun s g e => ⟨fun h => State.capture_clear h e, fun x h => State.capture_full h e⟩, State.captureLink_eq,
    fun s n => ⟨rfl, fun _ _ => rfl⟩, fun s p n => ⟨fun h => State.post_of_level_zero h p, fun h hn => ?_,
      fun before m after h hs hd hm => ?_⟩⟩
  · rw [State.post_of_level h]
    exact State.modPending_congr (joinSet_new hn)
  · rw [State.post_of_level h]
    exact State.modPending_congr (by rw [hs]; exact joinSet_same (hs ▸ hd p) hm)

/-! ### CLEAR ERRORS -/

theorem clearErrorsOwner_group (n : Byte) (g : Fin 8) (s : State) : clearErrorsOwner [n, byte g.val] s =
    (s.modGroup g fun _ => { captured := none, multi := false }).refuse .ok (byte g.val :: (s.group g).flags) := by
  simp [clearErrorsOwner, Byte.below_byte (by decide : 8 ≤ 256) g]

theorem clearErrorsOwner_none (n : Byte) {b : Byte} (h : 7 < b) (s : State) :
    clearErrorsOwner [n, b] s = s.refuse .badField [] := by
  have : Byte.below 8 b = none := Byte.below_of_le (by bv_omega)
  simp [clearErrorsOwner, this]

theorem State.alert_eq_false_of_none {s : State} (h : ∀ g, (s.group g).captured = none) : s.alert = false :=
  s.alert_eq_false_iff.2 fun g => by rw [h g]; rfl

/-- Settles O37. -/
theorem clearErrorsEmptiesAGroup : Obligations.ClearErrorsEmptiesAGroup := by
  refine fun s p n => ⟨fun g hoff hp => ?_, fun b hb hoff => ?_, fun r b hb hoff => ?_⟩
  · have may : RequestKind.clearErrors.permitted p [n, byte g.val] = true := by
      rcases hp with rfl | ⟨r, rfl, hg, -⟩
      · rfl
      · simp [RequestKind.permitted, hg]
    have on : s.portOff p = false := by
      rcases hp with rfl | ⟨r, rfl, -, hon⟩
      · rfl
      · exact State.portOff_regionOn hon
    have cleared : ((s.dropRequest p).modGroup g fun _ => { captured := none, multi := false }).group g =
        { captured := none, multi := false } := by simp
    refine ⟨exec_offered_refused hoff rfl may (.inl on) (clearErrorsOwner_group n g _), ?_, fun hall => ?_, fun e => ⟨?_, ?_⟩⟩
    · simp [State.valid]
    · refine State.alert_eq_false_of_none fun i => ?_
      by_cases hi : i = g
      · rw [hi, cleared]
      · simp [hi, hall i hi]
    · rw [State.capture_clear (by rw [cleared])]
      simp
    · rw [State.capture_clear (by rw [cleared])]
  · exact exec_offered_refused hoff rfl rfl (.inl rfl) (clearErrorsOwner_none n hb _)
  · exact exec_offered_notPermitted hoff rfl (by simpa [RequestKind.permitted] using hb)

end Sys2Proof.Machine
end
-- ==== Sys2Proof/Proofs/Placement.lean ====
section
/-! The score, the candidate sets and the choice among them (O17). -/
namespace Sys2Proof.Machine

/-! ### The score -/

theorem State.blocking_eq (s : State) (hs : List HNum) (d : Due) :
    s.blocking hs d = (hs.filter fun h => (s.hand h).any fun x => x.due.earlier d).length := by
  unfold State.blocking
  congr 2
  funext h
  cases s.hand h <;> rfl

theorem Due.earlier_unknown (d : Due) : d.earlier .unknown = (d != .unknown) := by cases d <;> rfl

theorem Due.earlier_passed (d : Due) : d.earlier .passed = false := by cases d <;> rfl

theorem State.score_eq (s : State) (c : ColIx) (d : Due) (k : BinClass) : s.score d k c =
    16 * (((s.col c).stack ++ (s.col c).inbound).filter fun h => (s.hand h).any fun x => x.due.earlier d).length +
      4 * ((s.col c).stack.length + (s.col c).inbound.length) + 64 * (if (s.col c).cfg.cls = k then 0 else 1) +
      2 * (s.col c).waitList.length := by
  simp only [State.score, State.blocking_eq, Column.height]

/-- The score over every class, due and wait list (R60). -/
theorem State.score_spec (s : State) (c : ColIx) (d : Due) (k : BinClass) :
    let col := s.col c
    let placed := col.stack ++ col.inbound
    let terms (blocking : Nat) : Nat := 16 * blocking + 4 * (col.stack.length + col.inbound.length) +
      64 * (if col.cfg.cls = k then 0 else 1) + 2 * col.waitList.length
    s.score d k c = terms (placed.filter fun h => (s.hand h).any fun x => x.due.earlier d).length ∧
    s.score .unknown k c = terms (placed.filter fun h => (s.hand h).any fun x => x.due != .unknown).length ∧
    s.score .passed k c = terms 0 ∧
    (∀ other : BinClass, col.cfg.cls = k → other ≠ k → s.score d other c = s.score d k c + 64) ∧
    ∀ cl : Claim, (s.modCol c fun col => { col with waitList := cl :: col.waitList }).score d k c = s.score d k c + 2 := by
  refine ⟨s.score_eq c d k, ?_, ?_, fun other hk ho => ?_, fun cl => ?_⟩
  · rw [State.score_eq]
    simp only [Due.earlier_unknown]
  · rw [State.score_eq]
    simp only [Due.earlier_passed, Option.any_false, List.filter_false, List.length_nil]
  · rw [State.score_eq, State.score_eq, if_neg (by rw [hk]; exact fun h => ho h.symm), if_pos hk]
    omega
  · simp only [State.score_eq, State.col_modCol, if_true, State.hand_modCol, List.length_cons]
    omega

/-! ### Free room -/

theorem sum_map_ite_eq_filter {α : Type} (f : α → Nat) (b : α → Bool) (l : List α) :
    (l.map fun x => if b x then f x else 0).sum = ((l.filter b).map f).sum := by
  induction l with
  | nil => rfl
  | cons x l ih => cases h : b x <;> simp [h, ih]

theorem Column.inService_eq (k : Column) :
    k.inService = (k.state == .opened || k.state == .granted || k.state == .settling) := by
  unfold Column.inService
  cases k.state <;> rfl

theorem Column.inService_iff {k : Column} :
    k.inService = true ↔ k.state = .opened ∨ k.state = .granted ∨ k.state = .settling := by
  simp [Column.inService_eq, or_assoc]

theorem State.inServiceRoom_eq (s : State) : s.inServiceRoom =
    ((ColIx.all.filter fun c =>
      (s.col c).state == .opened || (s.col c).state == .granted || (s.col c).state == .settling).map
      fun c => (s.col c).cfg.depth - (s.col c).stack.length - (s.col c).inbound.length).sum := by
  rw [State.inServiceRoom, sum_map_ite_eq_filter]
  simp only [Column.inService_eq, Column.freeRoom]

/-! ### The candidate sets -/

theorem ColIx.pairwise_filter (f : ColIx → Bool) : (ColIx.all.filter f).Pairwise (· < ·) :=
  List.Pairwise.filter f (by decide)

theorem decide_lt_waitRoom (n : Nat) : decide (n < Config.waitRoom) = decide (n < 6) := rfl

theorem State.mem_bookingSet {s : State} {o t : Region} {c : ColIx} : c ∈ s.bookingSet (.region o) t ↔
    ((s.col c).state = .opened ∨ (s.col c).state = .granted ∨ (s.col c).state = .settling) ∧
      RegionSet.has (s.col c).cfg.reach o = true ∧ RegionSet.has (s.col c).cfg.reach t = true ∧
      1 ≤ (s.col c).freeRoom := by
  simp [State.bookingSet, ColIx.mem_all, Column.inService_iff, Column.reaches, and_assoc]

theorem State.mem_digSet {s : State} {p t : Region} {source c : ColIx} : c ∈ s.digSet p t source ↔
    ((s.col c).state = .opened ∨ (s.col c).state = .granted ∨ (s.col c).state = .settling) ∧ c ≠ source ∧
      RegionSet.has (s.col c).cfg.reach p = true ∧ RegionSet.has (s.col c).cfg.reach t = true ∧
      1 ≤ (s.col c).freeRoom ∧ (s.col c).waitList.length < 6 := by
  simp [State.digSet, ColIx.mem_all, Column.inService_iff, Column.reaches, and_assoc, decide_lt_waitRoom]

theorem State.mem_movingSet {s : State} {p t : Region} {c : ColIx} : c ∈ s.movingSet p t ↔
    ((s.col c).state = .opened ∨ (s.col c).state = .granted ∨ (s.col c).state = .settling) ∧
      RegionSet.has (s.col c).cfg.reach p = true ∧ RegionSet.has (s.col c).cfg.reach t = true ∧
      1 ≤ (s.col c).freeRoom ∧ (s.col c).waitList.length < 6 := by
  simp [State.movingSet, ColIx.mem_all, Column.inService_iff, Column.reaches, and_assoc, decide_lt_waitRoom]

/-! ### The best candidate -/

/-- A lower score goes first. -/
def State.cheaper (s : State) (d : Due) (k : BinClass) (a b : ColIx) : Bool := decide (s.score d k a < s.score d k b)

theorem State.weakOrder_cheaper (s : State) (d : Due) (k : BinClass) : WeakOrder (s.cheaper d k) where
  irrefl := by simp [State.cheaper]
  trans := by simp only [State.cheaper, decide_eq_true_eq]; omega
  split := by simp only [State.cheaper, decide_eq_true_eq]; omega

theorem State.best_eq_pick (s : State) (d : Due) (k : BinClass) (cands : List ColIx) :
    s.best d k cands = pick (s.cheaper d k) cands := by
  unfold State.best pick
  congr 1
  funext best c
  cases best <;> simp [pickStep, State.cheaper]

theorem State.best_eq_none {s : State} {d : Due} {k : BinClass} {cands : List ColIx} :
    s.best d k cands = none ↔ cands = [] := by
  rw [State.best_eq_pick, pick_eq_none (s.weakOrder_cheaper d k)]

/-- In an ascending list the best candidate wins, the lowest number among equals. -/
theorem State.best_eq_some {s : State} {d : Due} {k : BinClass} {cands : List ColIx} (h : cands.Pairwise (· < ·))
    {c : ColIx} : s.best d k cands = some c ↔ s.wins d k cands c := by
  rw [State.best_eq_pick, pick_eq_some (s.weakOrder_cheaper d k)]
  constructor
  · rintro ⟨before, after, rfl, hb, ha⟩
    refine ⟨by simp, fun e he => ?_⟩
    have hup := (List.pairwise_cons.1 (List.pairwise_append.1 h).2.1).1
    simp only [List.mem_append, List.mem_cons] at he
    rcases he with he | rfl | he
    · exact .inl (by simpa [State.cheaper] using hb e he)
    · exact .inr ⟨rfl, le_refl _⟩
    · have := ha e he
      simp only [State.cheaper, decide_eq_false_iff_not] at this
      exact (Nat.lt_or_eq_of_le (Nat.not_lt.1 this)).imp_right fun h => ⟨h, (hup e he).le⟩
  · rintro ⟨hm, hw⟩
    obtain ⟨before, after, rfl⟩ := List.append_of_mem hm
    refine ⟨before, after, rfl, fun x hx => ?_, fun x hx => ?_⟩
    · have hlt : x < c := (List.pairwise_append.1 h).2.2 x hx c (by simp)
      rcases hw x (by simp [hx]) with h | ⟨-, h⟩
      · simpa [State.cheaper] using h
      · exact absurd hlt (not_lt.2 h)
    · rcases hw x (by simp [hx]) with h | ⟨h, -⟩ <;> simp only [State.cheaper, decide_eq_false_iff_not] <;> omega

theorem State.best_bookingSet {s : State} {d : Due} {k : BinClass} {o : Port} {t : Region} {c : ColIx} :
    s.best d k (s.bookingSet o t) = some c ↔ s.wins d k (s.bookingSet o t) c :=
  State.best_eq_some (ColIx.pairwise_filter _)

theorem State.best_movingSet {s : State} {d : Due} {k : BinClass} {p t : Region} {c : ColIx} :
    s.best d k (s.movingSet p t) = some c ↔ s.wins d k (s.movingSet p t) c :=
  State.best_eq_some (ColIx.pairwise_filter _)

theorem State.best_digSet {s : State} {d : Due} {k : BinClass} {p t : Region} {source c : ColIx} :
    s.best d k (s.digSet p t source) = some c ↔ s.wins d k (s.digSet p t source) c :=
  State.best_eq_some (ColIx.pairwise_filter _)

theorem Handover.cls_eq (x : Handover) : x.cls = if x.budget = none then .ambient else .chilled := by
  cases h : x.budget <;> simp [Handover.cls, h]

/-- Settles O17. -/
theorem placementChoosesTheBest : Obligations.PlacementChoosesTheBest := by
  refine ⟨State.score_spec, fun s => ⟨fun _ => rfl, s.inServiceRoom_eq⟩, fun s => ⟨fun o t => ?_, fun p t source => ?_,
    fun p t => ?_⟩, fun s d k cands h => ⟨State.best_eq_none, fun c => State.best_eq_some h⟩, fun s x p source => ?_⟩
  · exact ⟨ColIx.pairwise_filter _, fun c => State.mem_bookingSet⟩
  · exact ⟨ColIx.pairwise_filter _, fun c => State.mem_digSet⟩
  · exact ⟨ColIx.pairwise_filter _, fun c => State.mem_movingSet⟩
  · rw [State.digTarget, Handover.cls_eq]

end Sys2Proof.Machine
end
-- ==== Sys2Proof/Proofs/Load.lean ====
section
/-! The Load Monitor: gates, setpoints, trend, and what a change of them posts and starts (O23). -/
namespace Sys2Proof.Machine

theorem Column.counted_eq (k : Column) : k.counted = (k.state != .unknown && k.state != .disabled) := by
  unfold Column.counted
  cases k.state <;> rfl

theorem State.occupancy_eq (s : State) : s.occupancy =
    ((ColIx.all.filter fun c => (s.col c).state != .unknown && (s.col c).state != .disabled).map
      fun c => (s.col c).stack.length + (s.col c).inbound.length).sum := by
  rw [State.occupancy, sum_map_ite_eq_filter]
  simp only [Column.counted_eq, Column.height]

theorem Setpoint.judge_forced {p : Setpoint} (h : p.forcing ≠ .automatic) (occ : Nat) : p.judge occ = p := by
  unfold Setpoint.judge
  cases hf : p.forcing with
  | automatic => exact absurd hf h
  | forcedOn | forcedOff => rfl

theorem Setpoint.judge_off {p : Setpoint} (h : p.forcing = .automatic) (ho : p.on = false) (occ : Nat) :
    p.judge occ = { p with on := decide (p.onLevel ≤ occ) } := by
  simp [Setpoint.judge, h, ho]

theorem Setpoint.judge_on {p : Setpoint} (h : p.forcing = .automatic) (ho : p.on = true) (occ : Nat) :
    p.judge occ = { p with on := decide (p.offLevel < occ) } := by
  have : (!decide (occ ≤ p.offLevel)) = decide (p.offLevel < occ) := by rw [← decide_not]; simp
  simp [Setpoint.judge, h, ho, this]

/-- A change of the Load Monitor, by what it posts and what it starts (R127, R132, R134, R135). -/
theorem Work.setLoad_eq (w : Work) (l : LoadMonitor) :
    w.setLoad l = {
      st := if w.st.load.high.on ≠ l.high.on ∨ w.st.load.full.on ≠ l.full.on ∨ w.st.load.trend ≠ l.trend then
        (w.st.setLoad l).postAll w.st.enabledRegions .load else w.st.setLoad l
      sel := if l.depositGate < w.st.load.depositGate ∨ l.liftGate < w.st.load.liftGate then ColIx.all ++ w.sel
        else w.sel } := by
  unfold Work.setLoad
  dsimp only
  by_cases hc : w.st.load.high.on ≠ l.high.on ∨ w.st.load.full.on ≠ l.full.on ∨ w.st.load.trend ≠ l.trend <;>
    by_cases hf : l.depositGate < w.st.load.depositGate ∨ l.liftGate < w.st.load.liftGate
  all_goals
    simp only [bne_iff_ne, Bool.or_eq_true, decide_eq_true_eq, or_assoc, hc, hf, if_true, if_false]
    rfl

/-- Settles O23. -/
theorem loadGatesSetpointsAndTrend : Obligations.LoadGatesSetpointsAndTrend := by
  refine ⟨State.occupancy_eq, fun _ => rfl, fun l => ⟨?_, ?_, ?_⟩, ⟨fun p occ => ⟨fun h => Setpoint.judge_forced h occ,
    fun h ho => Setpoint.judge_off h ho occ, fun h ho => Setpoint.judge_on h ho occ⟩, fun _ => rfl⟩, fun w l => ⟨fun h => ?_,
    fun h => ?_, rfl⟩⟩
  · unfold LoadMonitor.depositGate LoadMonitor.modeDepositGate LoadMonitor.setpointGate
    cases l.mode <;> rfl
  · unfold LoadMonitor.modeDepositGate
    cases l.mode <;> rfl
  · unfold LoadMonitor.liftGate
    cases l.mode <;> rfl
  · rw [Work.setLoad_eq, if_pos h]
  · rw [Work.setLoad_eq, if_neg h]

end Sys2Proof.Machine
end
-- ==== Sys2Proof/Proofs/Charging.lean ====
section
/-! When a record charges, and the warning and expiry of one that does (O25, O52). -/
namespace Sys2Proof.Machine

/-- The first of an ascending list for which a test holds, when the list leaves nothing out. -/
theorem find?_eq_some_of_ascending {n : Nat} {l : List (Fin n)} (hl : l.Pairwise (· < ·)) (every : ∀ i, i ∈ l)
    {f : Fin n → Bool} {i : Fin n} : l.find? f = some i ↔ f i = true ∧ ∀ j, j < i → f j = false := by
  rw [List.find?_eq_some_iff_append]
  constructor
  · rintro ⟨hi, before, after, rfl, hb⟩
    refine ⟨hi, fun j hj => ?_⟩
    have hmem : j ∈ before ∨ j ∈ i :: after := List.mem_append.1 (every j)
    rcases hmem with h | h
    · simpa using hb j h
    · rcases List.mem_cons.1 h with rfl | h
      · exact absurd hj (lt_irrefl _)
      · exact absurd ((List.pairwise_cons.1 (List.pairwise_append.1 hl).2.1).1 j h) (not_lt.2 hj.le)
  · rintro ⟨hi, hb⟩
    obtain ⟨before, after, rfl⟩ := List.append_of_mem (every i)
    refine ⟨hi, before, after, rfl, fun j hj => ?_⟩
    rw [hb j ((List.pairwise_append.1 hl).2.2 j hj i (by simp))]
    rfl

theorem HNum.mem_all (h : HNum) : h ∈ HNum.all := by revert h; decide

theorem State.inAmbient_some (s : State) (c : ColIx) :
    s.inAmbient (some c) = decide ((s.col c).cfg.cls = .ambient) := by
  simp only [State.inAmbient]
  cases (s.col c).cfg.cls <;> rfl

/-! ### The comparison of charging -/

section
variable {w : Work} {h : HNum} {x : Handover} {b : Budget} (hx : w.st.hand h = some x) (hb : x.budget = some b)
include hx

theorem Work.judgeCharging_ambient (hb : x.budget = none) : w.judgeCharging h = w := by
  simp [Work.judgeCharging, hx, hb]

include hb

theorem Work.judgeCharging_starts (hs : b.since = none) (hc : (!b.expired && w.st.chargeCond x) = true) :
    w.judgeCharging h =
      let started := w.up fun s => s.setHand h (some { x with budget := some (b.started w.st.clock w.st.limits.warn) })
      if !b.warned && decide (b.remaining ≤ w.st.limits.warn) then started.takeWarning h else started := by
  simp only [Work.judgeCharging, hx, hb, hs, hc]
  rfl

theorem Work.judgeCharging_stops {t : Seconds} (hs : b.since = some t) (hc : (!b.expired && w.st.chargeCond x) = false) :
    w.judgeCharging h = w.up fun s => s.setHand h (some { x with budget := some (b.stopped w.st.clock) }) := by
  simp only [Work.judgeCharging, hx, hb, hs, hc]

theorem Work.judgeCharging_stays (hs : b.since.isSome = (!b.expired && w.st.chargeCond x)) : w.judgeCharging h = w := by
  simp only [Work.judgeCharging, hx, hb]
  cases e : b.since with
  | none => rw [e] at hs; rw [← hs]; rfl
  | some t => rw [e] at hs; rw [← hs]; rfl

theorem Work.takeWarning_eq : w.takeWarning h = Work.up (Work.raiseUrgency (w.up fun s =>
      s.setHand h (some { x with budget := some { b with warned := true, warnAt := none } })) h 6)
    fun s => s.post (.region x.dest) (.warn h) := by
  simp [Work.takeWarning, hx, Work.up, State.modHand, hb]

end

/-- The charging condition, row by row (Table 6-1). -/
theorem State.chargeCond_spec (s : State) (x : Handover) (c : ColIx) (hc : x.column = some c) :
    let ambient : Bool := decide ((s.col c).cfg.cls = .ambient)
    (x.state = .booked ∨ x.state = .closing → s.chargeCond x = false) ∧
    (x.state = .landing → s.chargeCond x = x.holder.isSome) ∧
    (x.state = .stored ∨ x.state = .lifting ∨ x.state = .shifting → s.chargeCond x = ambient) ∧
    (x.state = .moving → s.chargeCond x = true) ∧
    ∀ d, x.state = .doubt → x.doubt = some d →
      (d.op = .deposit → s.chargeCond x = false) ∧ (d.op = .holding → s.chargeCond x = true) ∧
      (d.op = .lift ∨ d.op = .shift → s.chargeCond x = ambient) := by
  intro ambient
  refine ⟨?_, fun h => by simp [State.chargeCond, h], ?_, fun h => by simp [State.chargeCond, h], fun d h hd => ⟨fun ho => ?_,
    fun ho => ?_, ?_⟩⟩
  · rintro (h | h) <;> simp [State.chargeCond, h]
  · rintro (h | h | h) <;> simp [State.chargeCond, h, hc, State.inAmbient_some, ambient]
  · simp [State.chargeCond, h, hd, ho]
  · simp [State.chargeCond, h, hd, ho]
  · rintro (ho | ho) <;> simp [State.chargeCond, h, hd, ho, hc, State.inAmbient_some, ambient]

/-- Settles O25. -/
theorem chargingFollowsTheRecord : Obligations.ChargingFollowsTheRecord := by
  refine ⟨State.chargeCond_spec, fun w h x b hx hb => ?_, fun _ _ _ => rfl,
    fun x now => ⟨x.cls_eq, fun h => ?_, fun b hb => ⟨fun hs => ?_, fun t hs => ?_⟩⟩⟩
  · intro now warn charges started
    refine ⟨fun hs hc hw hlt => ?_, fun hs hc hw => ?_, fun hs hc hw hle => ?_, fun t hs hc => ?_,
      Work.judgeCharging_stays hx hb, Work.takeWarning_eq hx hb⟩
    · rw [Work.judgeCharging_starts hx hb hs hc]
      have : ¬ b.remaining ≤ w.st.limits.warn := Nat.not_le.2 hlt
      have hlt : w.st.limits.warn < b.remaining := hlt
      simp [hw, Budget.started, started, this, hlt, now, warn]
    · rw [Work.judgeCharging_starts hx hb hs hc]
      simp [hw, Budget.started, started, now]
    · rw [Work.judgeCharging_starts hx hb hs hc]
      have : ¬ w.st.limits.warn < b.remaining := Nat.not_lt.2 hle
      have hle : b.remaining ≤ w.st.limits.warn := hle
      simp [hw, Budget.started, started, this, hle, now]
    · rw [Work.judgeCharging_stops hx hb hs hc]
      simp [Budget.stopped, Budget.live, hs, elapsed, now]
  · simp [Handover.liveBudget, h]
  · simp [Handover.liveBudget, Budget.live, hb, hs]
  · simp [Handover.liveBudget, Budget.live, hb, hs, elapsed]

/-! ### Raises of urgency -/

theorem State.waitColumn_eq_some {s : State} {h : HNum} {c : ColIx} : s.waitColumn h = some c ↔
    (∃ cl ∈ (s.col c).waitList, cl.handover = h) ∧ ∀ d, d < c → ∀ cl ∈ (s.col d).waitList, cl.handover ≠ h := by
  rw [State.waitColumn, find?_eq_some_of_ascending (by decide) (fun c => ColIx.mem_all c)]
  simp

theorem State.waitColumn_eq_none {s : State} {h : HNum} :
    s.waitColumn h = none ↔ ∀ c, ∀ cl ∈ (s.col c).waitList, cl.handover ≠ h := by
  simp [State.waitColumn, ColIx.mem_all]

/-- A raise starts a selection where a claim for the record waits (R37). -/
theorem Work.raiseUrgency_spec (w : Work) (h : HNum) (u : Nat) (y : Handover) (hy : w.st.hand h = some y) :
    (u ≤ y.urgency → w.raiseUrgency h u = w) ∧
    (y.urgency < u →
      let raised := w.up fun s => s.setHand h (some { y with urgency := u })
      ((∀ c, ∀ cl ∈ (w.st.col c).waitList, cl.handover ≠ h) → w.raiseUrgency h u = raised) ∧
      ∀ c, (∃ cl ∈ (w.st.col c).waitList, cl.handover = h) →
        (∀ d, d < c → ∀ cl ∈ (w.st.col d).waitList, cl.handover ≠ h) → w.raiseUrgency h u = raised.start c) := by
  have same : (w.st.setHand h (some { y with urgency := u })).waitColumn h = w.st.waitColumn h := rfl
  refine ⟨fun hle => ?_, fun hlt => ⟨fun hn => ?_, fun c hc hbefore => ?_⟩⟩
  · simp [Work.raiseUrgency, hy, Nat.not_lt.2 hle]
  · simp [Work.raiseUrgency, hy, hlt, Work.up, same, State.waitColumn_eq_none.2 hn]
  · simp [Work.raiseUrgency, hy, hlt, Work.up, same, State.waitColumn_eq_some.2 ⟨hc, hbefore⟩]

/-! ### The deadlines -/

theorem Handover.robotNumber_eq (x : Handover) :
    x.robotNumber = (x.holder.map Robot.number).or (x.doubt.map fun d => d.robot.number) := by
  unfold Handover.robotNumber
  cases x.holder <;> cases x.doubt <;> rfl

theorem exec_exposureWarning_due {s : State} {h : HNum} {x : Handover} (hx : s.hand h = some x)
    (hd : x.warningDue s.clock = true) :
    exec (.exposureWarning h) s = .next (Work.takeWarning { st := s, sel := [] } h).finish := by
  simp [exec, execExposureWarning, State.exposureWarning, hx, hd, State.begin]

theorem exec_exposureExpiry_due {s : State} {h : HNum} {x : Handover} (hx : s.hand h = some x)
    (hd : x.expiryDue s.clock = true) :
    exec (.exposureExpiry h) s = .next (Work.up (Work.raiseUrgency
      (s.begin.up (·.modHand h fun r => { r with budget := r.budget.map Budget.expiredNow })) h 7)
      fun t => (t.capture 7 { s.errorNow .expired with
        port := some (.region x.dest), robot := x.robotNumber, handover := some h, column := x.column }).postAll
        [.region x.dest, .ps] (.expired h)).finish := by
  simp [exec, execExposureExpiry, State.exposureExpiry, hx, hd]

/-- Settles O52. -/
theorem exposureDeadlines : Obligations.ExposureDeadlines := by
  refine fun s h x b hx hb hs => ⟨fun hw => ?_, fun he => ?_, fun w => w.raiseUrgency_spec h⟩
  · exact exec_exposureWarning_due hx (by simp [Handover.warningDue, hb, hw, Option.isSome_iff_ne_none, hs])
  · intro spent expired
    rw [exec_exposureExpiry_due hx (by simp [Handover.expiryDue, hb, he, Option.isSome_iff_ne_none, hs])]
    simp only [Work.up, State.begin, State.modHand, hx, Option.map_some, hb, Handover.robotNumber_eq]
    rfl

end Sys2Proof.Machine
end
-- ==== Sys2Proof/Proofs/Time.lean ====
section
/-! Ticks, seconds and trend samples (O49), readings and settle expiries (O50). -/
namespace Sys2Proof.Machine

/-! ### Ticks, seconds, samples -/

theorem Column.tick_eq (k : Column) (steps : Nat) (x : Reading) : k.tick steps x = { k with
    candidate := x
    filterCount := if x = k.candidate then k.filterCount.map fun n => n - 1
      else if x = k.reading then none else some steps
    settleTimer := k.settleTimer.map fun n => n - 1
    grant := k.grant.map fun g => { g with timer := g.timer.map fun n => n - 1 } } := by
  unfold Column.tick Column.sampleGauge
  by_cases h : x = k.candidate
  · simp [h]
  · by_cases hr : x = k.reading
    · rw [if_pos h, if_neg (not_not.2 hr), if_neg h, if_pos hr]
    · rw [if_pos h, if_pos hr, if_neg h, if_neg hr]

theorem State.tick_of_waiting {s : State} (h : s.timeEventDue = true) (x : Vector Reading 8) : s.tick x = s := by
  simp [State.tick, h]

/-- A tick that comes: the columns, the count, and the advance that the tenth makes due. -/
theorem State.tick_eq {s : State} (hr : s.resetAsserted = false) (h : s.timeEventDue = false) (x : Vector Reading 8) :
    s.tick x = { s with columns := (s.tick x).columns, tickCount := if s.tickCount < 9 then s.tickCount + 1 else 0
                        advanceDue := decide (9 ≤ s.tickCount) } := by
  have hadv : s.advanceDue = false := by
    simp only [State.timeEventDue, Bool.or_eq_false_iff] at h
    exact h.1.1.1
  unfold State.tick
  rw [if_neg (by simp [hr, h]), State.countTick]
  by_cases ht : 9 ≤ s.tickCount
  · simp [ht, Nat.not_lt.2 ht]
  · simp [ht, Nat.not_le.1 ht, hadv]

/-- Settles O49. -/
theorem timePasses : Obligations.TimePasses := by
  refine ⟨fun s x hr => ⟨fun h => ?_, fun h => ⟨s.tick x, rfl, State.tick_eq hr h x, fun c => ?_⟩⟩,
    fun s hd he => ⟨s.advance, rfl, ?_, fun h => ?_⟩, fun s h => ?_⟩
  · rw [exec, execInterchangeTick, State.tick_of_waiting h]
  · rw [State.col_tick, if_neg (by simp [hr, h]), Column.tick_eq]
  · simp [State.advance, hd, he, sampleSecond]
    rfl
  · rw [State.hand_advance, if_pos (by simp [hd, he])]
    rfl
  · simp only [exec, execTrendSample, State.trendSample, h, if_true]
    rfl

/-! ### Readings -/

section
variable {s : State} {c : ColIx}

/-- A change of reading comes to what its gauge mode makes of it. -/
theorem State.readingChange_due (hf : (s.col c).filterCount = some 0) (he : s.advanceEventDue = false) :
    s.readingChange c =
      (let w := s.begin.up (·.modCol c fun k => { k with reading := k.candidate, filterCount := none })
       match (s.col c).cfg.gaugeMode with
       | .off => w
       | .watch => w.reportReading c (s.col c).reading (s.col c).candidate
       | .check => w.judgeReading c (s.col c).candidate).finish := by
  unfold State.readingChange
  simp only [hf, he, true_and, if_true] <;> rfl

theorem Work.reportReading_eq (w : Work) (c : ColIx) (old new : Reading) : w.reportReading c old new =
    if (w.st.col c).inService = true ∧ (if old < new then (w.st.col c).cfg.rise else (w.st.col c).cfg.fall) = true then
      w.up (·.post .ps (.gauge c)) else w := by
  simp only [Work.reportReading, Bool.and_eq_true]

end

/-- Settles O50. -/
theorem gaugeChangesAndSettleExpiries : Obligations.GaugeChangesAndSettleExpiries := by
  refine ⟨fun s c hf he => ?_, fun s c ht he => ?_⟩
  · intro k base after serves reported
    have run (w : Work) (hw : s.readingChange c = w.finish) : after w := by
      show exec (.gaugeReadingChange c) s = _
      rw [exec, execGaugeReadingChange, hw]
    have due := State.readingChange_due hf he
    have col : (base.st.col c) = { k with reading := k.candidate, filterCount := none } := by simp [base, k]
    have reports : (k.inService = true ∧ (if k.reading < k.candidate then k.cfg.rise else k.cfg.fall) = true) ↔
        serves ∧ reported := by
      rw [Column.inService_iff]
      simp only [serves, reported]
      split <;> rfl
    have report : base.reportReading c k.reading k.candidate =
        if k.inService = true ∧ (if k.reading < k.candidate then k.cfg.rise else k.cfg.fall) = true then
          base.up (·.post .ps (.gauge c)) else base := by
      rw [Work.reportReading_eq, col]
      rfl
    refine ⟨fun hm => run _ ?_, fun hm hs hr => run _ ?_, fun hm hn => run _ ?_, fun hm ho => run _ ?_,
      fun hm ho h7 => run _ ?_, fun hm hno hns => run _ ?_⟩
    · rw [due]; simp only [show (s.col c).cfg.gaugeMode = .off from hm]; rfl
    · rw [due]; simp only [show (s.col c).cfg.gaugeMode = .watch from hm]
      exact congrArg Work.finish (report.trans (if_pos (reports.2 ⟨hs, hr⟩)))
    · rw [due]; simp only [show (s.col c).cfg.gaugeMode = .watch from hm]
      exact congrArg Work.finish (report.trans (if_neg fun h => by
        obtain ⟨hs, hr⟩ := reports.1 h
        exact hn.elim (fun h => h hs) fun h => h hr))
    · rw [due]; simp only [show (s.col c).cfg.gaugeMode = .check from hm]
      have judged : base.judgeReading c k.candidate =
          base.enterFenced c (if k.candidate = 7 then .gaugeFault else .gaugeUnexpected) none := by
        simp only [Work.judgeReading, col, ho]
      exact congrArg Work.finish judged
    · rw [due]; simp only [show (s.col c).cfg.gaugeMode = .check from hm]
      have judged : base.judgeReading c k.candidate = base.enterFenced c .gaugeFault none := by
        simp only [Work.judgeReading, col, ho, h7, if_true]
      exact congrArg Work.finish judged
    · rw [due]; simp only [show (s.col c).cfg.gaugeMode = .check from hm]
      have judged : base.judgeReading c k.candidate = base := by
        unfold Work.judgeReading
        simp only [col]
        cases hst : k.state with
        | opened => exact absurd hst hno
        | settling => exact if_neg (hns hst)
        | unknown | granted | fenced | disabled => rfl
      exact congrArg Work.finish judged
  · intro k after opened base
    have run (w : Work) (hw : s.settleExpiry c = w.finish) : after w := by
      show exec (.settleExpiry c) s = _
      rw [exec, execSettleExpiry, hw]
    have openedEq : ((s.begin.up (·.modCol c fun k => { k with settleTimer := none })).up
        (·.modCol c fun k => { k with state := .opened })).start c = opened := by
      simp only [opened, Work.up, Work.start, State.begin, State.modCol_modCol]
    have due : s.settleExpiry c = (match k.cfg.gaugeMode with
        | .off => opened
        | .watch => if k.reading.toNat == k.stack.length then opened else opened.up (·.post .ps (.gauge c))
        | .check => if k.reading.toNat == k.stack.length then opened
          else base.enterFenced c (if k.reading = 7 then .gaugeFault else .gaugeMismatch) none).finish := by
      unfold State.settleExpiry
      simp only [ht, he, true_and, if_true, openedEq]
      rfl
    refine ⟨fun hm hr => run _ ?_, fun hm hr => run _ ?_, fun hm hr h7 => run _ ?_, fun hm hr h7 => run _ ?_⟩
    · have hr : (k.reading.toNat == k.stack.length) = true := by simpa using hr
      rw [due, hr]
      cases hg : k.cfg.gaugeMode with
      | off => exact absurd hg hm
      | watch | check => rfl
    · have hr : (k.reading.toNat == k.stack.length) = false := by simpa using hr
      rw [due, hm, hr]
      rfl
    · have hr : (k.reading.toNat == k.stack.length) = false := by simpa using hr
      rw [due, hm, hr]
      simp only [h7, if_true]
      rfl
    · have hr : (k.reading.toNat == k.stack.length) = false := by simpa using hr
      rw [due, hm, hr]
      simp only [h7, if_false]
      rfl

end Sys2Proof.Machine
end
-- ==== Sys2Proof/Proofs/Endings.lean ====
section
/-! How records and grants end: CLOSING, followers, completions, and the two timeouts (O26, O51). -/
namespace Sys2Proof.Machine

/-! ### CLOSING -/

/-- The budget fields of a record that charges no longer (R100). -/
def Budget.settled (b : Budget) (now : Seconds) : Budget :=
  match b.since with
  | some _ => b.stopped now
  | none => b

theorem Budget.settled_eq (b : Budget) (now : Seconds) : b.settled now = match b.since with
    | some t => { b with remaining := b.remaining - (now - t).toNat, since := none, expiryAt := none, warnAt := none }
    | none => b := by
  unfold Budget.settled
  cases h : b.since <;> simp [Budget.stopped, Budget.live, h, elapsed]

/-- The comparison of charging for a record that does not charge. -/
theorem Work.judgeCharging_off {w : Work} {h : HNum} {x : Handover} (hx : w.st.hand h = some x)
    (hc : w.st.chargeCond x = false) :
    w.judgeCharging h =
      w.up fun s => s.setHand h (some { x with budget := x.budget.map fun b => b.settled w.st.clock }) := by
  have same : (w.up fun s => s.setHand h (some x)) = w := by
    simp only [Work.up]; rw [State.setHand_self hx]
  cases hb : x.budget with
  | none =>
    rw [Work.judgeCharging_ambient hx hb, Option.map_none, ← hb]
    exact same.symm
  | some b =>
    cases hs : b.since with
    | none =>
      rw [Work.judgeCharging_stays hx hb (by simp [hs, hc])]
      have : b.settled w.st.clock = b := by simp [Budget.settled, hs]
      rw [Option.map_some, this, ← hb]
      exact same.symm
    | some t =>
      rw [Work.judgeCharging_stops hx hb hs (by simp [hc])]
      simp [Budget.settled, hs]

theorem Work.change_eq {w : Work} {h : HNum} {x : Handover} (hx : w.st.hand h = some x) (f : Handover → Handover) :
    w.change h f = (w.up fun s => s.setHand h (some (f x))).judgeCharging h := by
  unfold Work.change
  simp only [Work.up]
  rw [State.modHand_of_some hx]

theorem Work.change_none {w : Work} {h : HNum} (hx : w.st.hand h = none) (f : Handover → Handover) : w.change h f = w := by
  unfold Work.change
  have : (w.up fun s => s.modHand h f) = w := by simp only [Work.up]; rw [State.modHand_of_none hx]
  rw [this]
  simp [Work.judgeCharging, hx]

/-- A record goes over to a state in which it does not charge. -/
theorem Work.change_off {w : Work} {h : HNum} {x : Handover} (hx : w.st.hand h = some x) {f : Handover → Handover}
    (hc : w.st.chargeCond (f x) = false) : w.change h f = w.up fun s =>
      s.setHand h (some { f x with budget := (f x).budget.map fun b => b.settled w.st.clock }) := by
  rw [Work.change_eq hx,
    Work.judgeCharging_off (w := w.up fun s => s.setHand h (some (f x))) (x := f x) (by simp [Work.up]) hc]
  simp only [Work.up, State.setHand_setHand]
  rfl

theorem State.chargeCond_closing {s : State} {x : Handover} (h : x.state = .closing) : s.chargeCond x = false := by
  simp [State.chargeCond, h]

/-- With no port to wait for, or the notice's level at 0, the record goes FREE (R49). -/
theorem Work.close_frees {w : Work} {h : HNum} {x : Handover} (hx : w.st.hand h = some x) (reason : Reason)
    {ports : RegionSet} {n : Notice} (hw : w.st.level n.kind = 0 ∨ ports = 0) :
    w.close h reason ports n = w.up fun s => s.setHand h none := by
  have waiting : (if w.st.level n.kind = 0 then 0 else ports) = 0 := by
    rcases hw with hw | hw <;> simp [hw]
  unfold Work.close
  dsimp only
  rw [if_pos waiting, Work.change_off hx (State.chargeCond_closing rfl)]
  simp only [Work.up, State.setHand_setHand]

/-- With a port to wait for the record keeps what R49 lists, and the ending notice is posted. -/
theorem Work.close_waits {w : Work} {h : HNum} {x : Handover} (hx : w.st.hand h = some x) (reason : Reason)
    {ports : RegionSet} {n : Notice} (hl : w.st.level n.kind ≠ 0) (hp : ports ≠ 0) :
    w.close h reason ports n = w.up fun s => (s.setHand h (some {
      x with
      state := .closing, column := none, target := none, bookingTimer := none, holder := none,
      doubt := none, follower := none, budget := x.budget.map fun b => b.settled w.st.clock,
      closing := some ⟨reason, ports⟩ })).postAll (regionPorts ports) n := by
  unfold Work.close
  dsimp only
  rw [if_neg hl, if_neg hp, Work.change_off hx (State.chargeCond_closing rfl)]
  simp only [Work.up]
  rw [State.modHand_of_some (by rw [State.hand_setHand, if_pos rfl]), State.setHand_setHand]
  rfl

/-! ### Followers and completions -/

theorem Work.settleFollower_spec (w : Work) (c : ColIx) (h : HNum) (x : Handover) (hx : w.st.hand h = some x) :
    let k := w.st.col c
    let left := w.up fun s => s.setHand h (some { x with follower := none })
    let full : Prop := 6 ≤ k.waitList.length ∨ 4 ≤ (k.waitList.filter Claim.isRegion).length
    (x.follower = none → w.settleFollower c h = w) ∧
    ∀ f, x.follower = some f →
      (k.state = .fenced →
        w.settleFollower c h = left.up fun s => s.post (.region f.robot.port) (.dismissed h f.robot.number 0)) ∧
      (k.state ≠ .fenced → full →
        w.settleFollower c h = left.up fun s => s.post (.region f.robot.port) (.dismissed h f.robot.number 1)) ∧
      (k.state ≠ .fenced → ¬ full →
        w.settleFollower c h =
          left.join c { robot := f.robot, kind := .lift, handover := h, stamp := f.stamp, blocked := false }) := by
  intro k left full
  have isFull : (Config.waitRoom ≤ k.waitList.length ∨ Config.regionRoom ≤ k.regionClaims) ↔ full := Iff.rfl
  refine ⟨fun hf => by simp [Work.settleFollower, hx, hf], fun f hf => ⟨fun hk => ?_, fun hk hfull => ?_, fun hk hfull => ?_⟩⟩
  · unfold Work.settleFollower
    simp only [hx, hf]
    rw [if_pos hk]
    rfl
  · unfold Work.settleFollower
    simp only [hx, hf]
    rw [if_neg hk, if_pos (isFull.2 hfull)]
    rfl
  · unfold Work.settleFollower
    simp only [hx, hf]
    rw [if_neg hk, if_neg (mt isFull.1 hfull)]

theorem Work.settleOrOpen_settles (w : Work) {c : ColIx} (h : (w.st.col c).cfg.gaugeMode ≠ .off) :
    w.settleOrOpen c = w.up fun s => s.modCol c fun k =>
      { k with state := .settling, settleTimer := some (2 ^ s.limits.settleExp) } := by
  unfold Work.settleOrOpen
  cases hm : (w.st.col c).cfg.gaugeMode with
  | off => exact absurd hm h
  | watch | check => rfl

theorem Work.settleOrOpen_opens (w : Work) {c : ColIx} (h : (w.st.col c).cfg.gaugeMode = .off) :
    w.settleOrOpen c = (w.up fun s => s.modCol c fun k => { k with state := .opened }).start c := by
  unfold Work.settleOrOpen
  rw [h]

theorem Work.completeGrant_eq (w : Work) (c : ColIx) :
    w.completeGrant c =
      let left := w.up fun s => s.modCol c fun k => { k with grant := none }
      if (w.st.col c).fencePending then left.enterFenced c .supervisor none else left.settleOrOpen c := by
  unfold Work.completeGrant
  have : ((w.up fun s => s.modCol c fun k => { k with grant := none }).st.col c).fencePending =
      (w.st.col c).fencePending := by simp
  dsimp only
  rw [this]

theorem Work.completeGrant_spec (w : Work) (c : ColIx) :
    let k := w.st.col c
    (k.fencePending = true → w.completeGrant c =
      Work.enterFenced (w.up fun s => s.modCol c fun k => { k with grant := none }) c .supervisor none) ∧
    (k.fencePending = false → k.cfg.gaugeMode ≠ .off → w.completeGrant c = w.up fun s =>
      s.modCol c fun k => { k with grant := none, state := .settling, settleTimer := some (2 ^ s.limits.settleExp) }) ∧
    (k.fencePending = false → k.cfg.gaugeMode = .off → w.completeGrant c =
      (w.up fun s => s.modCol c fun k => { k with grant := none, state := .opened }).start c) := by
  intro k
  refine ⟨fun h => ?_, fun h hm => ?_, fun h hm => ?_⟩
  · rw [Work.completeGrant_eq, if_pos h]
  · rw [Work.completeGrant_eq, if_neg (by simp [k] at h; simp [h]), Work.settleOrOpen_settles _ (by simpa using hm)]
    simp only [Work.up, State.modCol_modCol, State.limits_modCol]
  · rw [Work.completeGrant_eq, if_neg (by simp [k] at h; simp [h]), Work.settleOrOpen_opens _ (by simpa using hm)]
    simp only [Work.up, State.modCol_modCol]

/-- Settles O26. -/
theorem recordsAndGrantsEnd : Obligations.RecordsAndGrantsEnd := by
  refine ⟨fun w h reason ports n x hx => ?_, Work.settleFollower_spec, Work.completeGrant_spec⟩
  intro budget closed
  refine ⟨Work.close_frees hx reason, fun hl hp => ?_⟩
  rw [Work.close_waits hx reason hl hp]
  simp only [Budget.settled_eq]
  rfl

/-! ### Timeouts -/

theorem exec_grantTimeout_due {s : State} {c : ColIx} {g : Grant} (hg : (s.col c).grant = some g) (ht : g.timer = some 0)
    (he : s.advanceEventDue = false) :
    exec (.grantTimeout c) s = .next ((Work.enterFenced (Work.change
      { st := s.modCol c fun k => { k with grant := none }, sel := [] } g.record
      fun x => { x with state := .doubt, doubt := some { op := g.op.kind, robot := g.claim.robot } })
      c .grantTimeout (some (g.claim.robot, g.record))).finish) := by
  simp only [exec, execGrantTimeout, State.grantTimeout, hg, ht, he, and_self, if_true]
  rfl

/-- The claim and the place in the inbound set of a BOOKED record go: selection starts in every OPEN column. -/
theorem Work.leave_leaveInbound (s : State) (c : ColIx) (h : HNum) :
    ((s.begin.leave c fun cl => cl.handover == h).leaveInbound c h).Same {
      st := s.modCol c fun k => { k with waitList := k.waitList.filter fun cl => cl.handover != h
                                         inbound := k.inbound.filter fun i => i != h }
      sel := ColIx.all } := by
  refine Work.Same.of_all ?_ (fun d => ?_) fun d => ColIx.mem_all d
  · simp only [Work.leaveInbound, Work.startAll, Work.up, Work.leave_st, State.begin, State.modCol_modCol]
    rfl
  · simp [Work.leaveInbound, Work.startAll, ColIx.mem_all]

theorem Work.withdraw_eq {w : Work} {h : HNum} {x : Handover} (hx : w.st.hand h = some x) (cause : Byte) :
    w.withdraw h cause = w.close h .withdrawn (originSet x.origin) (.withdrawn h x.bin cause) := by
  simp only [Work.withdraw, hx]

/-- A booking expiry (R45), up to the order of the selections it starts. -/
theorem State.bookingExpiry_due {s : State} {h : HNum} {x : Handover} {c : ColIx} (hx : s.hand h = some x)
    (hb : x.state = .booked) (ht : x.bookingTimer = some 0) (hc : x.column = some c) :
    s.bookingExpiry h = (((s.begin.leave c fun cl => cl.handover == h).leaveInbound c h).handOccupancy.withdraw h
      withdrawnLimit).finish := by
  simp only [State.bookingExpiry, hx, hb, ht, hc]

/-- Settles O51. -/
theorem grantsAndBookingsTimeOut : Obligations.GrantsAndBookingsTimeOut := by
  refine ⟨fun s c g hg ht he => ?_, fun s h x c hx hb ht hc => ?_⟩
  · intro rb
    exact exec_grantTimeout_due hg ht he
  · intro left
    have same := (Work.Adds.withdraw h withdrawnLimit).same
      (Work.Adds.handOccupancy.same (Work.leave_leaveInbound s c h))
    have stays : (Work.handOccupancy { st := left, sel := ColIx.all }).st.hand h = some x := by simpa [left] using hx
    simp only [exec, execBookingExpiry]
    rw [State.bookingExpiry_due hx hb ht hc, same.finish, Work.withdraw_eq stays]
    rfl

end Sys2Proof.Machine
end
-- ==== Sys2Proof/Proofs/Bookings.lean ====
section
/-! CANCEL and BOOK at the Handover Table (O18, O19, O20). -/
namespace Sys2Proof.Machine

/-! ### CANCEL -/

section
variable {t : State} {r : Region} {n : Byte} {h : HNum} {x : Handover}

theorem cancelOwner_badField {b : Byte} (hb : 31 < b) : cancelOwner r [n, b] t = t.refuse .badField [] := by
  have outside : Byte.below 32 b = none := Byte.below_of_le (by bv_omega)
  simp [cancelOwner, outside]

/-- CANCEL of a record that names one of the table. -/
theorem cancelOwner_free (hx : t.hand h = none) : cancelOwner r [n, byte h.val] t = t.refuse .stale [] := by
  simp [cancelOwner, Byte.below_byte (n := 32) (by decide) h, hx]

theorem cancelOwner_notYours (hx : t.hand h = some x) (ho : x.origin ≠ .region r) :
    cancelOwner r [n, byte h.val] t = t.refuse .notYours [] := by
  simp [cancelOwner, Byte.below_byte (n := 32) (by decide) h, hx, ho]

theorem cancelOwner_inProgress (hx : t.hand h = some x) (ho : x.origin = .region r) (hs : x.state = .landing) :
    cancelOwner r [n, byte h.val] t = t.refuse .inProgress [] := by
  simp [cancelOwner, Byte.below_byte (n := 32) (by decide) h, hx, ho, hs]

theorem cancelOwner_badState (hx : t.hand h = some x) (ho : x.origin = .region r) (hl : x.state ≠ .landing)
    (hb : x.state ≠ .booked) : cancelOwner r [n, byte h.val] t = t.refuse .badState [] := by
  simp only [cancelOwner, List.getD_cons_succ, List.getD_cons_zero, Byte.below_byte (n := 32) (by decide) h, hx, ho]
  cases hs : x.state <;> simp_all

theorem cancelOwner_frees {c : ColIx} (hx : t.hand h = some x) (ho : x.origin = .region r) (hs : x.state = .booked)
    (hc : x.column = some c) : cancelOwner r [n, byte h.val] t = {
      work := (((t.begin.leave c fun cl => cl.handover == h).leaveInbound c h).up (·.setHand h none)).handOccupancy
      result := .ok, data := byte h.val :: put24 (t.ports[r]).order x.bin } := by
  simp [cancelOwner, Byte.below_byte (n := 32) (by decide) h, hx, ho, hs, hc]

end

/-- Settles O20. -/
theorem cancelFreesABooking : Obligations.CancelFreesABooking := by
  intro s r n b body refused offered on
  have enabled := State.portOff_regionOn on
  have taken {h : HNum} {y : Reply} (hb : b = byte h.val)
      (e : cancelOwner r [n, byte h.val] (s.dropRequest (.region r)) = y) :
      exec (.cancel (.region r)) s =
        .next (y.work.finish.answered (.region r) .cancel body y.result y.data) := by
    subst hb
    exact exec_offered offered rfl rfl (.inl enabled) e
  have refusal {h : HNum} {why : Result} (hb : b = byte h.val)
      (e : cancelOwner r [n, byte h.val] (s.dropRequest (.region r)) = (s.dropRequest (.region r)).refuse why []) :
      refused why := by
    subst hb
    exact exec_offered_refused offered rfl rfl (.inl enabled) e
  refine ⟨fun hb => exec_offered_refused offered rfl rfl (.inl enabled) (cancelOwner_badField hb),
    fun h hb => ⟨fun hx => refusal hb (cancelOwner_free hx), fun x hx =>
      ⟨fun ho => refusal hb (cancelOwner_notYours hx ho), fun ho hs => refusal hb (cancelOwner_inProgress hx ho hs),
        fun ho hl hs => refusal hb (cancelOwner_badState hx ho hl hs), fun c ho hs hc => ?_⟩⟩⟩
  intro freed
  have same := Work.Adds.handOccupancy.same
    ((Work.Adds.up (·.setHand h none)).same (Work.leave_leaveInbound (s.dropRequest (.region r)) c h))
  refine (taken hb (cancelOwner_frees hx ho hs hc)).trans ?_
  rw [same.finish] <;> rfl

/-! ### The fields of a BOOK (R40, R57) -/

theorem clamp_eq {lo hi : Nat} (h : lo ≤ hi) (n : Nat) : clamp lo hi n = max lo (min hi n) := by
  unfold clamp; split <;> [omega; split <;> omega]

theorem put24_eq (o : FieldOrder) (v : BitVec 24) : ∃ x y z, put24 o v = [x, y, z] := by
  cases o <;> exact ⟨_, _, _, rfl⟩

theorem put16_eq (o : FieldOrder) (v : BitVec 16) : ∃ x y, put16 o v = [x, y] := by
  cases o <;> exact ⟨_, _, rfl⟩

/-- A due_in field as clamped and stored stands for the due it states. -/
theorem dueOf_clampDueIn (now : Seconds) (v : BitVec 16) : dueOf now (clampDueIn v.toNat) = statedDue now v := by
  have above : 4095 < v ↔ 4095 < v.toNat := by bv_omega
  have unknown : v = 4095 ↔ v.toNat = 4095 := by bv_omega
  have passed : v = 0 ↔ v.toNat = 0 := by bv_omega
  unfold clampDueIn statedDue dueOf
  simp only [above, unknown, passed]
  by_cases h : 4095 < v.toNat
  · rw [if_pos h, if_neg (by decide), if_neg (by decide), if_neg (by omega), if_neg (by omega), if_pos h]
    rfl
  · simp [h]

theorem clampBudget_eq_zero (v : BitVec 16) : clamp 0 3600 v.toNat = 0 ↔ v = 0 := by
  rw [clamp_eq (by decide)]
  constructor <;> intro h <;> bv_omega

theorem budgetOf_clamp (v : BitVec 16) : budgetOf (clamp 0 3600 v.toNat) = statedBudget v := by
  have most : clamp 0 3600 v.toNat = min v.toNat 3600 := by rw [clamp_eq (by decide)]; omega
  unfold budgetOf statedBudget
  simp only [clampBudget_eq_zero]
  rw [most]

theorem clampBudget_class (v : BitVec 16) :
    (if clamp 0 3600 v.toNat = 0 then BinClass.ambient else .chilled) = statedClass v := by
  unfold statedClass
  simp only [clampBudget_eq_zero]

/-- The fields a BOOK body states, when none of them is refused. -/
def statedBook (f : PortConfig) (bin : BinNo) (dest : Region) (urgency : Byte) (hd : Heading)
    (dueIn budget : BitVec 16) : BookRequest where
  bin := bin
  dest := dest
  urgency := max 1 (min 5 urgency.toNat)
  heading := f.headingFromLocal hd
  dueIn := clampDueIn dueIn.toNat
  budget := clamp 0 3600 budget.toNat

section
variable {f : PortConfig} {r : Region} {n urgency dst hdg : Byte} {bin : BinNo} {dueIn budget : BitVec 16}

theorem decodeBook_bookBody {dest : Region} {hd : Heading} (hbin : bin ≠ 0) (hdest : dest ≠ r) :
    decodeBook f r (bookBody f.order n bin (byte dest.val) urgency (byte hd.val) dueIn budget) =
      some (statedBook f bin dest urgency hd dueIn budget) := by
  obtain ⟨b0, b1, b2, eb⟩ := put24_eq f.order bin
  obtain ⟨d0, d1, ed⟩ := put16_eq f.order dueIn
  obtain ⟨g0, g1, eg⟩ := put16_eq f.order budget
  simp only [bookBody, eb, ed, eg, decodeBook, List.cons_append, List.nil_append,
    Byte.below_byte (n := 4) (by decide) dest, Byte.below_byte (n := 4) (by decide) hd, get24_of_put24 eb,
    get16_of_put16 ed, get16_of_put16 eg]
  rw [if_neg (not_or.2 ⟨hbin, hdest⟩), clamp_eq (by decide)]
  rfl

/-- The bin 0, a destination that names no port or the origin, and a heading that names none are refused (R41, test 3). -/
theorem decodeBook_badField (h : bin = 0 ∨ 3 < dst ∨ 3 < hdg ∨ dst = byte r.val) :
    decodeBook f r (bookBody f.order n bin dst urgency hdg dueIn budget) = none := by
  obtain ⟨b0, b1, b2, eb⟩ := put24_eq f.order bin
  obtain ⟨d0, d1, ed⟩ := put16_eq f.order dueIn
  obtain ⟨g0, g1, eg⟩ := put16_eq f.order budget
  simp only [bookBody, eb, ed, eg, decodeBook, List.cons_append, List.nil_append, get24_of_put24 eb]
  rcases Byte.below_cases (n := 4) (by decide) dst with hd | ⟨dest, rfl⟩
  · rw [Byte.below_of_le hd]
  rcases Byte.below_cases (n := 4) (by decide) hdg with hh | ⟨heading, rfl⟩
  · rw [Byte.below_of_le hh]
    cases Byte.below 4 (byte dest.val) <;> rfl
  have dstIn : ¬ 3 < byte dest.val := by
    have := toNat_byte (n := dest.val) (by omega)
    bv_omega
  have hdgIn : ¬ 3 < byte heading.val := by
    have := toNat_byte (n := heading.val) (by omega)
    bv_omega
  have refused : bin = 0 ∨ dest = r := by
    rcases h with h | h | h | h
    · exact .inl h
    · exact absurd h dstIn
    · exact absurd h hdgIn
    · exact .inr (Fin.ext (byte_injective (by omega) (by omega) h))
  rw [Byte.below_byte (n := 4) (by decide) dest, Byte.below_byte (n := 4) (by decide) heading]
  simp only
  rw [if_pos refused]

end

/-! ### The tests of a BOOK (R41) -/

theorem State.bookingSet_dropRequest (s : State) (p : Port) : (s.dropRequest p).bookingSet = s.bookingSet := rfl

theorem State.inServiceRoom_dropRequest (s : State) (p : Port) : (s.dropRequest p).inServiceRoom = s.inServiceRoom := rfl

theorem State.holdsBin_iff {s : State} {h : HNum} {bin : BinNo} : (match s.hand h with
    | some r => r.state != .closing && r.bin == bin
    | none => false) = true ↔ s.holdsBin h bin := by
  cases e : s.hand h <;> simp [State.holdsBin, e]

theorem State.binHolder_eq_some {s : State} {bin : BinNo} {h : HNum} :
    s.binHolder bin = some h ↔ s.holdsBin h bin ∧ ∀ k, k < h → ¬ s.holdsBin k bin := by
  rw [State.binHolder, find?_eq_some_of_ascending (by decide) HNum.mem_all]
  refine and_congr State.holdsBin_iff (forall₂_congr fun k _ => ?_)
  exact (Bool.not_eq_true _).symm.to_iff.trans (not_congr State.holdsBin_iff)

theorem State.binHolder_eq_none {s : State} {bin : BinNo} (h : ∀ k, ¬ s.holdsBin k bin) : s.binHolder bin = none := by
  cases e : s.binHolder bin with
  | none => rfl
  | some k => exact absurd (State.binHolder_eq_some.1 e).1 (h k)

theorem State.lowestFree_eq_some {s : State} {h : HNum} :
    s.lowestFree = some h ↔ s.hand h = none ∧ ∀ k, k < h → s.hand k ≠ none := by
  rw [State.lowestFree, find?_eq_some_of_ascending (by decide) HNum.mem_all]
  simp [Option.isSome_iff_ne_none]

theorem State.lowestFree_eq_none {s : State} : s.lowestFree = none ↔ ∀ k, s.hand k ≠ none := by
  simp [State.lowestFree, HNum.mem_all]

section
variable {t : State} {r : Region} {body : List Byte} {q : BookRequest}

theorem bookOwner_badField (hd : decodeBook t.ports[r] r body = none) : bookOwner r body t = t.refuse .badField [] := by
  simp only [bookOwner, hd]

theorem bookOwner_duplicate {h : HNum} (hd : decodeBook t.ports[r] r body = some q) (hb : t.binHolder q.bin = some h) :
    bookOwner r body t = t.refuse .duplicate [byte h.val] := by
  simp only [bookOwner, hd, hb]

theorem bookOwner_noRecord (hd : decodeBook t.ports[r] r body = some q) (hb : t.binHolder q.bin = none)
    (hf : t.lowestFree = none) : bookOwner r body t = t.refuse .noRecord [] := by
  simp only [bookOwner, hd, hb, hf]

theorem bookOwner_gated {h : HNum} (hd : decodeBook t.ports[r] r body = some q) (hb : t.binHolder q.bin = none)
    (hf : t.lowestFree = some h) (hg : q.urgency < t.load.depositGate) :
    bookOwner r body t = t.refuse .gated [byte t.load.depositGate, byte q.urgency] := by
  simp only [bookOwner, hd, hb, hf, if_pos hg]

theorem bookOwner_noColumn {h : HNum} (hd : decodeBook t.ports[r] r body = some q) (hb : t.binHolder q.bin = none)
    (hf : t.lowestFree = some h) (hg : t.load.depositGate ≤ q.urgency) (hc : t.bookingSet (.region r) q.dest = []) :
    bookOwner r body t = t.refuse .full [0, byte t.inServiceRoom] := by
  simp only [bookOwner, hd, hb, hf, if_neg (Nat.not_lt.2 hg), State.best_eq_none.2 hc]

theorem bookOwner_noReserve {h : HNum} (hd : decodeBook t.ports[r] r body = some q) (hb : t.binHolder q.bin = none)
    (hf : t.lowestFree = some h) (hg : t.load.depositGate ≤ q.urgency) (hc : t.bookingSet (.region r) q.dest ≠ [])
    (hr : t.inServiceRoom < t.limits.digReserve + 1) : bookOwner r body t =
      t.refuse .full [byte (t.bookingSet (.region r) q.dest).length, byte t.inServiceRoom] := by
  cases hbest : t.best (dueOf t.clock q.dueIn) (if q.budget = 0 then .ambient else .chilled)
      (t.bookingSet (.region r) q.dest) with
  | none => exact absurd (State.best_eq_none.1 hbest) hc
  | some c => simp only [bookOwner, hd, hb, hf, if_neg (Nat.not_lt.2 hg), hbest, if_pos hr]

theorem bookOwner_books {h : HNum} {c : ColIx} (hd : decodeBook t.ports[r] r body = some q)
    (hb : t.binHolder q.bin = none) (hf : t.lowestFree = some h) (hg : t.load.depositGate ≤ q.urgency)
    (hc : t.best (dueOf t.clock q.dueIn) (if q.budget = 0 then .ambient else .chilled)
      (t.bookingSet (.region r) q.dest) = some c)
    (hr : t.limits.digReserve + 1 ≤ t.inServiceRoom) :
    let booked := (t.setHand h (some (t.bookedRecord r q c))).joinInbound c h
    bookOwner r body t = {
      work := booked.begin.handOccupancy, result := .ok
      data := [byte h.val, byte (t.ports[r].toLocal c), byte (booked.col c).height] } := by
  simp only [bookOwner, hd, hb, hf, if_neg (Nat.not_lt.2 hg), hc, if_neg (Nat.not_lt.2 hr)]
  rfl

end

theorem length_insertHand {h : HNum} : ∀ {l : List HNum}, h ∉ l → (insertHand h l).length = l.length + 1
  | [], _ => rfl
  | x :: l, fresh => by
    obtain ⟨ne, fresh⟩ := not_or.1 (mt List.mem_cons.2 fresh)
    unfold insertHand
    split
    · rfl
    · rw [List.length_cons, List.length_cons, length_insertHand fresh]

/-- A record that joins an inbound set raises the column's height by one. -/
theorem Column.height_joinInbound {s : State} {c : ColIx} {h : HNum} (fresh : h ∉ (s.col c).inbound) :
    ((s.joinInbound c h).col c).height = (s.col c).stack.length + (s.col c).inbound.length + 1 := by
  simp [State.joinInbound, Column.height, length_insertHand fresh, Nat.add_assoc]

/-- The record a BOOK with these fields fills. -/
theorem State.bookedRecord_statedBook (s : State) (f : PortConfig) (r : Region) (bin : BinNo) (dest : Region)
    (urgency : Byte) (hd : Heading) (dueIn budget : BitVec 16) (c : ColIx) :
    s.bookedRecord r (statedBook f bin dest urgency hd dueIn budget) c = {
      state := .booked, bin := bin, origin := .region r, dest := dest, urgency := max 1 (min 5 urgency.toNat),
      due := statedDue s.clock dueIn, heading := f.headingFromLocal hd, column := some c, target := none,
      bookingTimer := some s.limits.booking, holder := none, doubt := none, budget := statedBudget budget,
      closing := none, follower := none } := by
  simp only [State.bookedRecord, statedBook, dueOf_clampDueIn, budgetOf_clamp]

theorem length_bookBody (o : FieldOrder) (n : Byte) (bin : BinNo) (dst urgency hdg : Byte) (dueIn budget : BitVec 16) :
    RequestKind.book.lengthOk (bookBody o n bin dst urgency hdg dueIn budget) = true := by
  cases o <;> rfl

/-- Settles O18. -/
theorem bookFillsLowestFreeRecord : Obligations.BookFillsLowestFreeRecord := by
  intro s r dest n urgency bin hd dueIn budget h c f u body offered on hbin hdest unheld free lowest gate wins reserve
    room fresh booked
  have columns : s.best (dueOf s.clock (clampDueIn dueIn.toNat))
      (if clamp 0 3600 budget.toNat = 0 then .ambient else .chilled) (s.bookingSet (.region r) dest) = some c := by
    rw [dueOf_clampDueIn, clampBudget_class]
    exact State.best_bookingSet.2 wins
  have owner := bookOwner_books (t := s.dropRequest (.region r)) (r := r) (body := body) (h := h) (c := c)
    (decodeBook_bookBody hbin hdest) (State.binHolder_eq_none unheld) (State.lowestFree_eq_some.2 ⟨free, lowest⟩) gate
    columns (show s.limits.digReserve + 1 ≤ s.inServiceRoom by omega)
  refine (exec_offered offered (length_bookBody ..) rfl (.inl (State.portOff_regionOn on)) owner).trans ?_
  have raised (x : Handover) := Column.height_joinInbound (s := (s.dropRequest (.region r)).setHand h (some x)) fresh
  simp only [raised]
  rw [State.bookedRecord_statedBook] <;> rfl

/-- Settles O19. -/
theorem bookRefusals : Obligations.BookRefusals := by
  intro s r n dst urgency hdg bin dueIn budget u body refused offered on
  have refusal {why : Result} {data : List Byte}
      (e : bookOwner r body (s.dropRequest (.region r)) = (s.dropRequest (.region r)).refuse why data) :
      refused why data :=
    exec_offered_refused offered (length_bookBody ..) rfl (.inl (State.portOff_regionOn on)) e
  refine ⟨fun bad => refusal (bookOwner_badField (decodeBook_badField bad)), ?_⟩
  intro dest hbin hdst hhdg hdest
  obtain ⟨hd, rfl⟩ : ∃ hd : Heading, hdg = byte hd.val := by
    rcases Byte.below_cases (n := 4) (by decide) hdg with out | named
    · exact absurd hhdg (by bv_omega)
    · exact named
  subst hdst
  have decoded : decodeBook (s.dropRequest (.region r)).ports[r] r body =
      some (statedBook s.ports[r] bin dest urgency hd dueIn budget) := decodeBook_bookBody hbin hdest
  refine ⟨fun h held lowest => refusal (bookOwner_duplicate decoded (State.binHolder_eq_some.2 ⟨held, lowest⟩)),
    fun unheld => ⟨fun used => refusal
      (bookOwner_noRecord decoded (State.binHolder_eq_none unheld) (State.lowestFree_eq_none.2 used)), fun free => ?_⟩⟩
  obtain ⟨h, lowest⟩ : ∃ h, (s.dropRequest (.region r)).lowestFree = some h := by
    refine Option.ne_none_iff_exists'.1 fun none => ?_
    obtain ⟨k, hk⟩ := free
    exact State.lowestFree_eq_none.1 none k hk
  have unheld' : (s.dropRequest (.region r)).binHolder bin = none := State.binHolder_eq_none unheld
  refine ⟨fun below => refusal (bookOwner_gated decoded unheld' lowest below), fun gate =>
    ⟨fun empty => ?_, fun some room => ?_⟩⟩
  · exact refusal (bookOwner_noColumn decoded unheld' lowest gate empty)
  · have short : s.inServiceRoom < s.limits.digReserve + 1 := by omega
    have owner := bookOwner_noReserve decoded unheld' lowest gate some short
    rw [State.bookingSet_dropRequest, State.inServiceRoom_dropRequest] at owner
    exact refusal owner

end Sys2Proof.Machine
end
-- ==== Sys2Proof/Proofs/ClaimRequests.lean ====
section
/-! Stamps, and CLAIM at the Claim Arbiter (O21, O22). -/
namespace Sys2Proof.Machine

/-! ### One change of every column, and of every record -/

theorem State.col_foldl_modCol (f : Column → Column) (c : ColIx) : ∀ {l : List ColIx}, l.Nodup → ∀ s : State,
    (l.foldl (fun s d => s.modCol d f) s).col c = if c ∈ l then f (s.col c) else s.col c
  | [], _, s => by simp
  | d :: l, nodup, s => by
    obtain ⟨new, nodup⟩ := List.nodup_cons.1 nodup
    rw [List.foldl_cons, State.col_foldl_modCol f c nodup, State.col_modCol]
    by_cases e : c = d
    · subst e; simp [new]
    · simp [e]

theorem State.hand_foldl_modHand (f : Handover → Handover) (h : HNum) : ∀ {l : List HNum}, l.Nodup → ∀ s : State,
    (l.foldl (fun s i => s.modHand i f) s).hand h = if h ∈ l then (s.hand h).map f else s.hand h
  | [], _, s => by simp
  | i :: l, nodup, s => by
    obtain ⟨new, nodup⟩ := List.nodup_cons.1 nodup
    rw [List.foldl_cons, State.hand_foldl_modHand f h nodup, State.hand_modHand]
    by_cases e : h = i
    · subst e; simp [new]
    · simp [e]

theorem ColIx.nodup_all : ColIx.all.Nodup := by decide
theorem HNum.nodup_all : HNum.all.Nodup := by decide

/-! ### Stamps (R69) -/

theorem State.col_renumber (s : State) (c : ColIx) : s.renumber.col c = (s.col c).restamp (rankOf s.stamps) := by
  unfold State.renumber
  simp only [State.col_setStamp]
  rw [foldl_keeps (fun s : State => s.col c) (fun s h => s.modHand h (Handover.restamp _)) fun s h => State.col_modHand ..,
    State.col_foldl_modCol _ c ColIx.nodup_all, if_pos (ColIx.mem_all c)]

theorem State.hand_renumber (s : State) (h : HNum) :
    s.renumber.hand h = (s.hand h).map (Handover.restamp (rankOf s.stamps)) := by
  unfold State.renumber
  simp only [State.hand_setStamp]
  rw [State.hand_foldl_modHand _ h HNum.nodup_all, if_pos (HNum.mem_all h),
    foldl_keeps (fun s : State => s.hand h) (fun s c => s.modCol c (Column.restamp _)) fun s c => State.hand_modCol ..]

/-- Renumbering keeps the order of age. -/
theorem rankOf_lt {stamps : List Nat} {a b : Nat} (ha : a ∈ stamps) (h : a < b) : rankOf stamps a < rankOf stamps b := by
  obtain ⟨before, after, rfl⟩ := List.append_of_mem ha
  have front := rankOf_mono before h.le
  have rear := rankOf_mono after h.le
  simp only [rankOf, List.filter_append, List.filter_cons, List.length_append] at *
  simp [h]
  omega

/-- There are as many new stamps as claims and followers. -/
theorem rankOf_lt_length {stamps : List Nat} {a : Nat} (ha : a ∈ stamps) : rankOf stamps a < stamps.length := by
  unfold rankOf
  refine lt_of_le_of_ne (List.length_filter_le ..) fun all => ?_
  have := List.length_filter_eq_length_iff.1 all a ha
  simp at this

theorem State.advanceStamp_of_max {s : State} (h : s.stampCounter = 4294967295) : s.advanceStamp = s.renumber := by
  rw [State.advanceStamp, if_pos (by simp [h, Config.maxStamp])]

theorem State.advanceStamp_of_lt {s : State} (h : s.stampCounter < 4294967295) :
    s.advanceStamp = { s with stampCounter := s.stampCounter + 1 } := by
  rw [State.advanceStamp, if_neg (by simp [Config.maxStamp]; omega)]
  rfl

theorem State.length_waitList_advanceStamp (s : State) (c : ColIx) :
    (s.advanceStamp.col c).waitList.length = (s.col c).waitList.length := by
  unfold State.advanceStamp
  split
  · simp [State.col_renumber, Column.restamp]
  · rfl

/-! ### Wait lists (R73) -/

/-- A claim that joins a list stands behind those of its age. -/
theorem insertClaim_eq (cl : Claim) : ∀ l : List Claim, insertClaim cl l =
    l.takeWhile (fun x => x.stamp ≤ cl.stamp) ++ cl :: l.dropWhile fun x => x.stamp ≤ cl.stamp
  | [] => rfl
  | x :: l => by
    by_cases h : cl.stamp < x.stamp
    · simp [insertClaim, h]
    · simp [insertClaim, h, Nat.not_lt.1 h, insertClaim_eq cl l]

/-- The newest claim stands last. -/
theorem insertClaim_newest {cl : Claim} {l : List Claim} (h : ∀ x ∈ l, x.stamp ≤ cl.stamp) :
    insertClaim cl l = l ++ [cl] := by
  have all : ∀ x ∈ l, decide (x.stamp ≤ cl.stamp) = true := fun x hx => decide_eq_true (h x hx)
  rw [insertClaim_eq, List.takeWhile_eq_self_iff.2 all, List.dropWhile_eq_nil_iff.2 all]

theorem length_insertClaim (cl : Claim) (l : List Claim) : (insertClaim cl l).length = l.length + 1 := by
  have parts := congrArg List.length (List.takeWhile_append_dropWhile (p := fun x : Claim => x.stamp ≤ cl.stamp) (l := l))
  rw [List.length_append] at parts
  rw [insertClaim_eq, List.length_append, List.length_cons]
  omega

theorem Work.length_waitList_joinNew (w : Work) (c : ColIx) (rb : Robot) (k : ClaimKind) (h : HNum) :
    ((w.joinNew c rb k h).st.col c).waitList.length = (w.st.col c).waitList.length + 1 := by
  simp only [Work.joinNew, Work.up, State.length_waitList_advanceStamp]
  simp [Work.join, Work.start, Work.up, length_insertClaim]

theorem Work.joinNew_newest {s : State} {c : ColIx} {rb : Robot} {k : ClaimKind} {h : HNum}
    (newest : ∀ cl ∈ (s.col c).waitList, cl.stamp ≤ s.stampCounter) : s.begin.joinNew c rb k h = {
      st := (s.modCol c fun k' => { k' with waitList := k'.waitList ++
        [{ robot := rb, kind := k, handover := h, stamp := s.stampCounter, blocked := false }] }).advanceStamp
      sel := [c] } := by
  have joined : (s.begin.join c { robot := rb, kind := k, handover := h, stamp := s.stampCounter, blocked := false }).st =
      s.modCol c fun k' => { k' with waitList := k'.waitList ++
        [{ robot := rb, kind := k, handover := h, stamp := s.stampCounter, blocked := false }] } := by
    show s.modCol c (fun k' => { k' with waitList := insertClaim _ k'.waitList }) = _
    refine State.modCol_congr ?_
    rw [insertClaim_newest (cl := { robot := rb, kind := k, handover := h, stamp := s.stampCounter, blocked := false }) newest]
  exact congrArg (fun t : State => ({ st := t.advanceStamp, sel := [c] } : Work)) joined

/-! ### Robots and records that have a claim -/

theorem Column.mem_claims {k : Column} {cl : Claim} : cl ∈ k.claims ↔ cl ∈ k.waitList ∨ ∃ g ∈ k.grant, g.claim = cl := by
  unfold Column.claims Column.grantClaim
  cases k.grant <;> simp [eq_comm]

theorem Column.any_claims (k : Column) (p : Claim → Bool) :
    k.claims.any p = true ↔ (∃ cl ∈ k.waitList, p cl = true) ∨ ∃ g ∈ k.grant, p g.claim = true := by
  simp only [List.any_eq_true, Column.mem_claims, or_and_right, exists_or]
  refine or_congr_right ⟨?_, ?_⟩
  · rintro ⟨_, ⟨g, hg, rfl⟩, hp⟩
    exact ⟨g, hg, hp⟩
  · rintro ⟨g, hg, hp⟩
    exact ⟨_, ⟨g, hg, rfl⟩, hp⟩

theorem State.robotBusy_iff {s : State} {rb : Robot} : s.robotBusy rb = true ↔
    (∃ c, (∃ cl ∈ (s.col c).waitList, cl.robot = rb) ∨ ∃ g ∈ (s.col c).grant, g.claim.robot = rb) ∨
      ∃ h, ∃ x ∈ s.hand h, ∃ f ∈ x.follower, f.robot = rb := by
  unfold State.robotBusy
  rw [Bool.or_eq_true, List.any_eq_true, List.any_eq_true]
  refine or_congr ?_ ?_
  · simp only [ColIx.mem_all, true_and, Column.any_claims, beq_iff_eq]
  · simp only [HNum.mem_all, true_and]
    refine exists_congr fun h => ?_
    cases hx : s.hand h with
    | none => simp
    | some x => cases hf : x.follower <;> simp [hf]

theorem State.recordClaimed_iff {s : State} {h : HNum} : s.recordClaimed h = true ↔
    ∃ c, (∃ cl ∈ (s.col c).waitList, cl.handover = h) ∨ ∃ g ∈ (s.col c).grant, g.claim.handover = h := by
  unfold State.recordClaimed
  rw [List.any_eq_true]
  simp only [ColIx.mem_all, true_and, Column.any_claims, beq_iff_eq]

/-! ### CLAIM (R70, R71) -/

section
variable {t : State} {r : Region} {n robot op : Byte} {h : HNum} {x : Handover} {body : List Byte} {q : ClaimRequest}

theorem decodeClaim_deposit : decodeClaim [n, robot, 0, byte h.val] = some { robot := robot, lift := false, handover := h } := by
  simp [decodeClaim, Byte.below_byte (n := 32) (by decide) h]

theorem decodeClaim_lift : decodeClaim [n, robot, 1, byte h.val] = some { robot := robot, lift := true, handover := h } := by
  simp [decodeClaim, Byte.below_byte (n := 32) (by decide) h]

theorem decodeClaim_badField {b : Byte} (bad : 31 < b ∨ 1 < op) : decodeClaim [n, robot, op, b] = none := by
  rcases Byte.below_cases (n := 32) (by decide) b with out | ⟨i, rfl⟩
  · simp [decodeClaim, Byte.below_of_le out]
  · have named := toNat_byte (n := i.val) (by omega)
    have high : 1 < op := bad.resolve_left (by bv_omega)
    simp only [decodeClaim, Byte.below_byte (n := 32) (by decide) i]
    rw [if_neg (by bv_omega), if_neg (by bv_omega)]

theorem claimOwner_badField (hd : decodeClaim body = none) : claimOwner r body t = t.refuse .badField [] := by
  simp only [claimOwner, hd]

theorem claimOwner_free (hd : decodeClaim body = some q) (hx : t.hand q.handover = none) :
    claimOwner r body t = t.refuse .stale [] := by
  simp only [claimOwner, hd, hx]

theorem claimOwner_record {why : Result} (hd : decodeClaim body = some q) (hx : t.hand q.handover = some x)
    (hw : q.recordTest r x = some why) : claimOwner r body t = t.refuse why [] := by
  simp only [claimOwner, hd, hx, hw]

theorem claimOwner_duplicate {c : ColIx} (hd : decodeClaim body = some q) (hx : t.hand q.handover = some x)
    (hw : q.recordTest r x = none) (hc : x.column = some c)
    (busy : t.robotBusy ⟨r, q.robot⟩ = true ∨ t.recordClaimed q.handover = true) :
    claimOwner r body t = t.refuse .duplicate [] := by
  simp only [claimOwner, hd, hx, hw, hc]
  rw [if_pos (by simpa using busy)]

theorem claimOwner_fenced {c : ColIx} (hd : decodeClaim body = some q) (hx : t.hand q.handover = some x)
    (hw : q.recordTest r x = none) (hc : x.column = some c) (hb : t.robotBusy ⟨r, q.robot⟩ = false)
    (hr : t.recordClaimed q.handover = false) (hk : (t.col c).state = .unknown ∨ (t.col c).state = .fenced) :
    claimOwner r body t = t.refuse .fenced [] := by
  simp only [claimOwner, hd, hx, hw, hc]
  rw [if_neg (by simp [hb, hr]), if_pos hk]

theorem claimOwner_busy {c : ColIx} (hd : decodeClaim body = some q) (hx : t.hand q.handover = some x)
    (hw : q.recordTest r x = none) (hc : x.column = some c) (hb : t.robotBusy ⟨r, q.robot⟩ = false)
    (hr : t.recordClaimed q.handover = false) (hu : (t.col c).state ≠ .unknown) (hf : (t.col c).state ≠ .fenced)
    (full : 6 ≤ (t.col c).waitList.length ∨ 4 ≤ (t.col c).regionClaims) :
    claimOwner r body t = t.refuse .busy [] := by
  simp only [claimOwner, hd, hx, hw, hc]
  rw [if_neg (by simp [hb, hr]), if_neg (not_or.2 ⟨hu, hf⟩),
    if_pos (show Config.waitRoom ≤ _ ∨ Config.regionRoom ≤ _ from full)]

theorem claimOwner_queues {c : ColIx} (hd : decodeClaim body = some q) (hx : t.hand q.handover = some x)
    (hw : q.recordTest r x = none) (hc : x.column = some c) (hb : t.robotBusy ⟨r, q.robot⟩ = false)
    (hr : t.recordClaimed q.handover = false) (hu : (t.col c).state ≠ .unknown) (hf : (t.col c).state ≠ .fenced)
    (room : (t.col c).waitList.length < 6) (regionRoom : (t.col c).regionClaims < 4) : claimOwner r body t = {
      work := t.begin.joinNew c ⟨r, q.robot⟩ q.kind q.handover, result := .queued
      data := [byte q.handover.val, byte (t.ports[r].toLocal c)] ++
        (if q.lift then [byte (t.position x q.handover)] else []) ++ [byte ((t.col c).waitList.length + 1)] } := by
  have free : ¬ (Config.waitRoom ≤ (t.col c).waitList.length ∨ Config.regionRoom ≤ (t.col c).regionClaims) :=
    not_or.2 ⟨Nat.not_le.2 room, Nat.not_le.2 regionRoom⟩
  simp only [claimOwner, hd, hx, hw, hc]
  rw [if_neg (by simp [hb, hr]), if_neg (not_or.2 ⟨hu, hf⟩), if_neg free, Work.length_waitList_joinNew]
  rfl

/-- Tests 3 and 4 of R70, for a DEPOSIT and for a LIFT. -/
theorem recordTest_closing (hs : x.state = .closing) : q.recordTest r x = some .stale := by
  simp [ClaimRequest.recordTest, hs]

theorem recordTest_deposit (hl : q.lift = false) (hs : x.state ≠ .closing) : q.recordTest r x =
    if x.origin ≠ .region r then some .notYours else if x.state ≠ .booked then some .badState else none := by
  simp [ClaimRequest.recordTest, hs, hl]

theorem recordTest_lift (hl : q.lift = true) (hs : x.state ≠ .closing) : q.recordTest r x =
    if x.dest ≠ r then some .notYours else if x.state ≠ .stored then some .badState else none := by
  simp [ClaimRequest.recordTest, hs, hl]

theorem recordTest_deposit_none (hl : q.lift = false) (ho : x.origin = .region r) (hs : x.state = .booked) :
    q.recordTest r x = none := by
  simp [ClaimRequest.recordTest, hs, hl, ho]

theorem recordTest_lift_none (hl : q.lift = true) (ho : x.dest = r) (hs : x.state = .stored) :
    q.recordTest r x = none := by
  simp [ClaimRequest.recordTest, hs, hl, ho]

end

/-- Settles O22. -/
theorem claimRefusals : Obligations.ClaimRefusals := by
  refine ⟨fun s => ⟨fun rb => State.robotBusy_iff, fun h => State.recordClaimed_iff⟩, ?_⟩
  intro s r n robot op b body refused offered on
  have refusal {why : Result}
      (e : claimOwner r body (s.dropRequest (.region r)) = (s.dropRequest (.region r)).refuse why []) : refused why :=
    exec_offered_refused offered rfl rfl (.inl (State.portOff_regionOn on)) e
  refine ⟨fun bad => refusal (claimOwner_badField (decodeClaim_badField bad)), fun h hb hop => ?_⟩
  subst hb
  obtain ⟨q, decoded, rfl, rfl, which⟩ : ∃ q : ClaimRequest, decodeClaim body = some q ∧ q.handover = h ∧
      q.robot = robot ∧ (op = 0 ∧ q.lift = false ∨ op = 1 ∧ q.lift = true) := by
    have : op = 0 ∨ op = 1 := by bv_omega
    rcases this with rfl | rfl
    · exact ⟨_, decodeClaim_deposit, rfl, rfl, .inl ⟨rfl, rfl⟩⟩
    · exact ⟨_, decodeClaim_lift, rfl, rfl, .inr ⟨rfl, rfl⟩⟩
  have deposits (h0 : op = 0) : q.lift = false := by
    rcases which with ⟨_, hl⟩ | ⟨h1, _⟩
    · exact hl
    · exact absurd (h0.symm.trans h1) (by decide)
  have lifts (h1 : op = 1) : q.lift = true := by
    rcases which with ⟨h0, _⟩ | ⟨_, hl⟩
    · exact absurd (h0.symm.trans h1) (by decide)
    · exact hl
  refine ⟨fun hx => refusal (claimOwner_free decoded hx), fun x hx =>
    ⟨fun hs => refusal (claimOwner_record decoded hx (recordTest_closing hs)), fun hs => ⟨fun h0 ho => ?_, fun h1 hd => ?_,
      fun h0 ho hb => ?_, fun h1 hd hst => ?_, fun c hc fits => ?_⟩⟩⟩
  · exact refusal (claimOwner_record decoded hx (by rw [recordTest_deposit (deposits h0) hs, if_pos ho]))
  · exact refusal (claimOwner_record decoded hx (by rw [recordTest_lift (lifts h1) hs, if_pos hd]))
  · exact refusal (claimOwner_record decoded hx
      (by rw [recordTest_deposit (deposits h0) hs, if_neg (not_not.2 ho), if_pos hb]))
  · exact refusal (claimOwner_record decoded hx
      (by rw [recordTest_lift (lifts h1) hs, if_neg (not_not.2 hd), if_pos hst]))
  · have passed : q.recordTest r x = none := by
      rcases fits with ⟨h0, ho, hb⟩ | ⟨h1, hd, hst⟩
      · exact recordTest_deposit_none (deposits h0) ho hb
      · exact recordTest_lift_none (lifts h1) hd hst
    exact ⟨fun busy => refusal (claimOwner_duplicate decoded hx passed hc busy), fun idle unclaimed =>
      ⟨fun out => refusal (claimOwner_fenced decoded hx passed hc idle unclaimed out), fun hu hf full =>
        refusal (claimOwner_busy decoded hx passed hc idle unclaimed hu hf full)⟩⟩

/-- Settles O21. -/
theorem claimJoinsTheWaitList : Obligations.ClaimJoinsTheWaitList := by
  refine ⟨?_, fun s top => ⟨?_, rankOf s.stamps, fun a ha b _ => rankOf_lt ha, fun a => rankOf_lt_length, fun c => ?_,
    fun h => ?_⟩, fun s => State.advanceStamp_of_lt, fun w c => ⟨fun cl => ?_, fun rb kind h => rfl⟩⟩
  · intro s r n robot lift h x c body offered on hx hc isLift isDeposit idle unclaimed hu hf room regionRoom newest claim
      joined
    obtain ⟨q, decoded, rfl, rfl, rfl⟩ : ∃ q : ClaimRequest, decodeClaim body = some q ∧ q.handover = h ∧
        q.robot = robot ∧ q.lift = lift := by
      cases lift
      · exact ⟨_, decodeClaim_deposit, rfl, rfl, rfl⟩
      · exact ⟨_, decodeClaim_lift, rfl, rfl, rfl⟩
    have passed : q.recordTest r x = none := by
      cases hl : q.lift
      · exact recordTest_deposit_none hl (isDeposit hl).1 (isDeposit hl).2
      · exact recordTest_lift_none hl (isLift hl).1 (isLift hl).2
    refine (exec_offered offered rfl rfl (.inl (State.portOff_regionOn on)) (claimOwner_queues
      (t := s.dropRequest (.region r)) decoded hx passed hc idle unclaimed hu hf room regionRoom)).trans ?_
    rw [Work.joinNew_newest (s := s.dropRequest (.region r)) newest, State.position, hc] <;> rfl
  · rw [State.advanceStamp_of_max top]; rfl
  · rw [State.advanceStamp_of_max top, State.col_renumber]; rfl
  · rw [State.advanceStamp_of_max top, State.hand_renumber]; rfl
  · simp only [Work.join, Work.start, Work.up, insertClaim_eq]

end Sys2Proof.Machine
end
-- ==== Sys2Proof/Proofs/Selections.lean ====
section
/-! Eligibility, the choice of a selection, and the grant it makes (O24). -/
namespace Sys2Proof.Machine

/-! ### Eligibility (R74) -/

theorem State.urgencyOf_eq (s : State) (h : HNum) : s.urgencyOf h = ((s.hand h).map Handover.urgency).getD 0 := by
  unfold State.urgencyOf; cases s.hand h <;> rfl

theorem State.rank_eq (s : State) (cl : Claim) :
    s.rank cl = if cl.kind = .holding then 7 else s.urgencyOf cl.handover := by
  unfold State.rank; cases cl.kind <;> rfl

theorem State.digPossible_iff {s : State} {c : ColIx} {p : Region} : s.digPossible c p = true ↔
    ∃ k x, (s.col c).stack.getLast? = some k ∧ s.hand k = some x ∧ x.state = .stored ∧ s.digSet p x.dest c ≠ [] := by
  unfold State.digPossible
  cases ht : (s.col c).stack.getLast? with
  | none => simp
  | some k => cases hx : s.hand k <;> simp [hx]

theorem State.digPossible_eq (s : State) (c : ColIx) (p : Region) : s.digPossible c p =
    (((s.col c).stack.getLast?).bind s.hand).any fun x => x.state == .stored && !(s.digSet p x.dest c).isEmpty := by
  unfold State.digPossible
  cases ht : (s.col c).stack.getLast? with
  | none => rfl
  | some k => cases hx : s.hand k <;> simp [hx]

theorem State.reachable_iff {s : State} {c : ColIx} {cl : Claim} : s.reachable c cl = true ↔
    (s.col c).stack.getLast? = some cl.handover ∨ s.digPossible c cl.robot.port = true := by
  simp [State.reachable, State.onTop]

theorem State.mark_eq (s : State) (c : ColIx) (cl : Claim) :
    s.mark c cl = { cl with blocked := cl.kind == .lift && !s.reachable c cl } := by
  unfold State.mark; cases cl.kind <;> rfl

/-- When a claim is eligible (R74). -/
theorem State.eligible_iff {s : State} {c : ColIx} {cl : Claim} : s.eligible c cl = true ↔
    cl.kind = .holding ∨ cl.kind = .deposit ∧ s.load.depositGate ≤ s.rank cl ∨
      cl.kind = .lift ∧ s.load.liftGate ≤ s.rank cl ∧ s.reachable c cl = true := by
  cases h : cl.kind <;> simp [State.eligible, State.rank, h]

/-! ### The choice (R75) -/

theorem State.weakOrder_preferred (s : State) : WeakOrder s.preferred where
  irrefl := by simp [State.preferred]
  trans := by simp only [State.preferred, Bool.or_eq_true, Bool.and_eq_true, decide_eq_true_eq, beq_iff_eq]; omega
  split := by simp only [State.preferred, Bool.or_eq_true, Bool.and_eq_true, decide_eq_true_eq, beq_iff_eq]; omega

theorem State.choose_eq_pick (s : State) (claims : List Claim) : s.choose claims = pick s.preferred claims := by
  unfold State.choose pick
  congr 1
  funext best cl
  cases best <;> rfl

theorem State.choose_eq_none {s : State} {claims : List Claim} : s.choose claims = none ↔ claims = [] := by
  rw [State.choose_eq_pick, pick_eq_none s.weakOrder_preferred]

theorem State.mem_of_choose {s : State} {claims : List Claim} {cl : Claim} (h : s.choose claims = some cl) : cl ∈ claims :=
  (Picked.of_pick s.weakOrder_preferred (s.choose_eq_pick claims ▸ h)).mem

/-- The chosen claim has the highest urgency, and is the oldest among equals. -/
theorem State.best_of_choose {s : State} {claims : List Claim} {cl x : Claim} (h : s.choose claims = some cl)
    (hx : x ∈ claims) : s.rank x < s.rank cl ∨ s.rank x = s.rank cl ∧ cl.stamp ≤ x.stamp := by
  have unbeaten := (Picked.of_pick s.weakOrder_preferred (s.choose_eq_pick claims ▸ h)).best s.weakOrder_preferred x hx
  simp only [State.preferred, Bool.or_eq_false_iff, Bool.and_eq_false_iff, decide_eq_false_iff_not, beq_eq_false_iff_ne] at unbeaten
  omega

/-! ### Placement looks at the columns of its candidates alone -/

theorem State.score_congr {s t : State} {e : ColIx} (hh : t.hand = s.hand) (hc : t.col e = s.col e) (d : Due)
    (k : BinClass) : t.score d k e = s.score d k e := by
  unfold State.score State.blocking
  rw [hh, hc]

theorem State.wins_congr {s t : State} {d : Due} {k : BinClass} {cands : List ColIx} {c : ColIx}
    (h : ∀ e ∈ cands, t.score d k e = s.score d k e) : t.wins d k cands c ↔ s.wins d k cands c :=
  and_congr_right fun hc => forall₂_congr fun e he => by rw [h c hc, h e he]

/-- The dig-target set leaves the source out. -/
theorem State.digSet_congr {s t : State} {p r : Region} {c : ColIx} (h : ∀ e, e ≠ c → t.col e = s.col e) :
    t.digSet p r c = s.digSet p r c := by
  refine List.filter_congr fun e _ => ?_
  by_cases he : e = c
  · simp [he]
  · rw [h e he]

theorem State.digTarget_congr {s t : State} {x : Handover} {p : Region} {c e : ColIx} (hh : t.hand = s.hand)
    (hc : ∀ e, e ≠ c → t.col e = s.col e) : t.digTarget x p c = some e ↔ s.wins x.due x.cls (s.digSet p x.dest c) e := by
  rw [State.digTarget, State.best_digSet, State.digSet_congr hc]
  exact State.wins_congr fun e he => State.score_congr hh (hc e (State.mem_digSet.1 he).2.1) ..

/-! ### The grant (R77, R78) -/

@[simp] theorem Work.limits_handOccupancy (w : Work) : w.handOccupancy.st.limits = w.st.limits := by
  obtain ⟨sets, hsets⟩ := w.setLoad_st_eq_with_load_pendingSets (w.st.load.judge w.st.occupancy)
  rw [Work.handOccupancy, hsets]

@[simp] theorem Work.level_handOccupancy (w : Work) : w.handOccupancy.st.level = w.st.level := by
  obtain ⟨sets, hsets⟩ := w.setLoad_st_eq_with_load_pendingSets (w.st.load.judge w.st.occupancy)
  rw [Work.handOccupancy, hsets] <;> rfl

theorem Work.leave_eq (w : Work) (c : ColIx) (p : Claim → Bool) : w.leave c p = {
    st := w.st.modCol c fun k => { k with waitList := k.waitList.filter fun cl => !p cl }
    sel := if 6 ≤ (w.st.col c).waitList.length ∧ ((w.st.col c).waitList.filter fun cl => !p cl).length < 6
      then ColIx.all ++ w.sel else w.sel } := by
  show (⟨(w.leave c p).st, (w.leave c p).sel⟩ : Work) = _
  rw [Work.leave_st, Work.leave_sel]

/-- The record that moves with a grant (Table 5-4). -/
def Operation.recordOf (op : Operation) (h : HNum) : HNum :=
  match op with
  | .shift k => k
  | .deposit | .lift | .holding => h

theorem Grant.record_eq (g : Grant) : g.record = g.op.recordOf g.claim.handover := by
  unfold Grant.record Operation.recordOf; rfl

/-- A claim leaves the list for the grant slot: notice sent is no and the timer not started, unless the level of GRANT is
0 (R78). -/
theorem Work.giveGrant_eq (w : Work) (c : ColIx) (cl : Claim) (op : Operation) : w.giveGrant c cl op =
    let untold : Bool := w.st.level .grant == 0
    let old := (w.st.col c).waitList
    Work.up (Work.judgeCharging {
        st := w.st.modCol c fun k => { k with
          state := .granted, waitList := old.filter fun x => x != cl
          grant := some {
            claim := { cl with blocked := false }, op := op, noticeSent := untold
            timer := if untold then some (10 * w.st.limits.grant) else none } }
        sel := if 6 ≤ old.length ∧ (old.filter fun x => x != cl).length < 6 then ColIx.all ++ w.sel else w.sel }
        (op.recordOf cl.handover))
      fun s => s.post (.region cl.robot.port) (.grant c) := by
  have left : (w.st.modCol c fun k => { k with waitList := k.waitList.filter fun x => !(x == cl) }) =
      w.st.modCol c fun k => { k with waitList := (w.st.col c).waitList.filter fun x => x != cl } := State.modCol_congr rfl
  unfold Work.giveGrant
  rw [Work.leave_eq, left]
  by_cases h : w.st.level .grant = 0
  · simp only [h, if_true, beq_self_eq_true, Grant.noticed_eq, Work.up, State.modCol_modCol, Grant.record_eq]
    rfl
  · have told : (w.st.level .grant == 0) = false := by simpa using h
    simp only [h, if_false, told, Work.up, State.modCol_modCol, Grant.record_eq]
    rfl

/-! ### The selection at one column (R74 to R77) -/

section
variable {w : Work} {c : ColIx}

theorem Work.select_of_idle (h : (w.st.col c).state ≠ .opened ∨ (w.st.col c).waitList = []) : w.select c = w := by
  unfold Work.select
  rw [if_neg fun both => h.elim (absurd both.1) (absurd · both.2)]

/-- The marks of a selection. -/
def State.marks (s : State) (c : ColIx) : List Claim := (s.col c).waitList.map (s.mark c)

/-- The marks are made. -/
def Work.marked (w : Work) (c : ColIx) : Work := w.up fun s => s.modCol c fun k => { k with waitList := w.st.marks c }

theorem Work.select_of_none (ho : (w.st.col c).state = .opened)
    (hn : w.st.choose ((w.st.marks c).filter (w.st.eligible c)) = none) (hw : (w.st.col c).waitList ≠ []) :
    w.select c = w.marked c := by
  unfold Work.select
  rw [if_pos ⟨ho, hw⟩]
  unfold State.marks at hn
  simp only [hn]
  rfl

theorem Work.select_of_some {cl : Claim} (ho : (w.st.col c).state = .opened)
    (hs : w.st.choose ((w.st.marks c).filter (w.st.eligible c)) = some cl) : w.select c = (w.marked c).grantTo c cl := by
  have waiting : (w.st.col c).waitList ≠ [] := by
    intro empty
    simp [State.marks, empty, State.choose] at hs
  unfold Work.select
  rw [if_pos ⟨ho, waiting⟩]
  unfold State.marks at hs
  simp only [hs]
  rfl

variable {cl : Claim}

theorem Work.grantTo_deposit (h : cl.kind = .deposit) : w.grantTo c cl =
    (w.up (·.modHand cl.handover fun r => { r with state := .landing, bookingTimer := none })).giveGrant c cl .deposit := by
  simp only [Work.grantTo, h]

theorem Work.grantTo_holding (h : cl.kind = .holding) : w.grantTo c cl =
    (w.up (·.modHand cl.handover fun r => { r with state := .landing })).giveGrant c cl .holding := by
  simp only [Work.grantTo, h]

theorem Work.grantTo_lift (h : cl.kind = .lift) (ht : w.st.onTop c cl.handover = true) : w.grantTo c cl =
    (w.up (·.modHand cl.handover fun r => { r with state := .lifting })).giveGrant c cl .lift := by
  simp only [Work.grantTo, h, ht, if_true]

theorem Work.grantTo_shift {k : HNum} {x : Handover} {t : ColIx} (h : cl.kind = .lift)
    (ht : (w.st.col c).stack.getLast? = some k) (hk : k ≠ cl.handover) (hx : w.st.hand k = some x)
    (hd : w.st.digTarget x cl.robot.port c = some t) : w.grantTo c cl =
    (Work.handOccupancy (w.up fun s => (s.setHand k (some { x with state := .shifting, target := some t })).modCol t
      fun i => { i with inbound := insertHand k i.inbound })).giveGrant c cl (.shift k) := by
  have covered : w.st.onTop c cl.handover = false := by simp [State.onTop, ht, hk]
  simp only [Work.grantTo, h, covered, ht, hx, hd, Work.up]
  rw [State.modHand_of_some hx]
  rfl

end

/-- Settles O24. -/
theorem selectionGrantsMostUrgentOldest : Obligations.SelectionGrantsMostUrgentOldest := by
  refine ⟨fun s c claims => ?_, fun w c => ?_⟩
  · intro urgency able
    have eligible (cl : Claim) : s.eligible c cl = true ↔ able cl := by
      rw [State.eligible_iff, State.reachable_iff, State.digPossible_iff, State.rank_eq]
    refine ⟨eligible, s.urgencyOf_eq, ?_, fun cl chosen => ?_⟩
    · rw [State.choose_eq_none, List.filter_eq_nil_iff]
      simp only [eligible]
    · obtain ⟨mem, elig⟩ := List.mem_filter.1 (State.mem_of_choose chosen)
      refine ⟨mem, (eligible cl).1 elig, fun x hx ax => ?_⟩
      have best := State.best_of_choose chosen (List.mem_filter.2 ⟨hx, (eligible x).2 ax⟩)
      rw [State.rank_eq, State.rank_eq] at best
      exact best
  · intro s top digs marked after
    have marks : marked = w.st.marks c := by
      refine List.map_congr_left fun cl _ => ?_
      rw [State.mark_eq, State.reachable, State.onTop, State.digPossible_eq]
    have marking : after = w.marked c := by
      simp only [after, Work.marked, marks]
    refine ⟨Work.select_of_idle, fun ho hw hn => marking ▸ Work.select_of_none ho (marks ▸ hn) hw, fun cl ho chosen => ?_⟩
    intro untold rest granted becomes
    have selected : w.select c = after.grantTo c cl := marking ▸ Work.select_of_some ho (marks ▸ chosen)
    have waiting (f : State → State) (hf : ∀ s d, ((f s).col d).waitList = (s.col d).waitList) :
        (((after.up f).st).col c).waitList = marked := by
      simp [Work.up, hf, after]
    have grants (v : Work) (op : Operation) (hv : (v.st.col c).waitList = marked) (hl : v.st.level .grant = s.level .grant)
        (hg : v.st.limits = s.limits) :
        v.giveGrant c cl op = granted v op (op.recordOf cl.handover) := by
      rw [Work.giveGrant_eq]
      simp only [hv, hl, hg] <;> rfl
    rw [selected]
    refine ⟨fun hk => ?_, fun hk => ?_, fun hk ht => ?_, fun k x t hk ht hne hx wins => ?_⟩
    · rw [Work.grantTo_deposit hk]
      exact grants _ _ (waiting _ fun _ _ => rfl) rfl rfl
    · rw [Work.grantTo_holding hk]
      exact grants _ _ (waiting _ fun _ _ => rfl) rfl rfl
    · have top' : after.st.onTop c cl.handover = true := by
        simpa [after, Work.up, State.onTop, top, s] using ht
      rw [Work.grantTo_lift hk top']
      exact grants _ _ (waiting _ fun _ _ => rfl) rfl rfl
    · have top' : (after.st.col c).stack.getLast? = some k := by simpa [after, Work.up, top, s] using ht
      have others (e : ColIx) (he : e ≠ c) : after.st.col e = s.col e := by simp [after, Work.up, he, s]
      have hands : after.st.hand = s.hand := funext fun i => State.hand_modCol ..
      have target : after.st.digTarget x cl.robot.port c = some t := (State.digTarget_congr hands others).2 wins
      have elsewhere : c ≠ t := fun e => (State.mem_digSet.1 wins.1).2.1 e.symm
      rw [Work.grantTo_shift hk top' hne hx target]
      refine grants _ (.shift k) ?_ ?_ ?_
      · simp [after, Work.up, elsewhere]
      · rw [Work.level_handOccupancy]
        rfl
      · rw [Work.limits_handOccupancy]
        rfl

end Sys2Proof.Machine
end
-- ==== Sys2Proof/Proofs/Leading.lean ====
section
/-! What a selection may change: no column opens, no list gains a claim, and a column in which something became eligible
is selected in again. -/
namespace Sys2Proof.Machine

/-! ### At one column -/

theorem length_le_insertHand (h : HNum) : ∀ l : List HNum, l.length ≤ (insertHand h l).length
  | [] => Nat.zero_le _
  | x :: l => by
    have ih := length_le_insertHand h l
    unfold insertHand
    split
    · simp
    · split <;> simp [ih]

/-- What a selection may do to a column. -/
structure Column.Leads (k k' : Column) : Prop where
  kept : k' = { k with state := k'.state, inbound := k'.inbound, waitList := k'.waitList, grant := k'.grant }
  shut : k.state ≠ .opened → k'.state = k.state ∧ k'.grant = k.grant ∧ k'.waitList = k.waitList
  inbound : ∀ h ∈ k.inbound, h ∈ k'.inbound
  room : k.inbound.length ≤ k'.inbound.length
  list : ∀ cl ∈ k'.waitList, ∃ cl' ∈ k.waitList, cl'.handover = cl.handover ∧ cl'.kind = cl.kind ∧ cl'.robot = cl.robot

namespace Column.Leads

theorem refl (k : Column) : k.Leads k where
  kept := rfl
  shut _ := ⟨rfl, rfl, rfl⟩
  inbound _ h := h
  room := le_refl _
  list cl hcl := ⟨cl, hcl, rfl, rfl, rfl⟩

variable {j k l : Column}

theorem trans (h : j.Leads k) (g : k.Leads l) : j.Leads l where
  kept := by rw [g.kept, h.kept]
  shut hj := by
    obtain ⟨hs, hg, hw⟩ := h.shut hj
    obtain ⟨gs, gg, gw⟩ := g.shut (hs ▸ hj)
    exact ⟨gs.trans hs, gg.trans hg, gw.trans hw⟩
  inbound i hi := g.inbound i (h.inbound i hi)
  room := h.room.trans g.room
  list cl hcl := by
    obtain ⟨b, hb, e1, e2, e3⟩ := g.list cl hcl
    obtain ⟨a, ha, f1, f2, f3⟩ := h.list b hb
    exact ⟨a, ha, f1.trans e1, f2.trans e2, f3.trans e3⟩

theorem opened (h : j.Leads k) (hk : k.state = .opened) : j.state = .opened := by
  by_contra hj
  exact hj ((h.shut hj).1 ▸ hk)

theorem stack (h : j.Leads k) : k.stack = j.stack := by rw [h.kept]
theorem cfg (h : j.Leads k) : k.cfg = j.cfg := by rw [h.kept]

theorem inService (h : j.Leads k) (hk : k.inService = true) : j.inService = true := by
  by_cases hj : j.state = .opened
  · simp [Column.inService, hj]
  · unfold Column.inService at hk ⊢
    rw [(h.shut hj).1] at hk
    exact hk

theorem freeRoom (h : j.Leads k) : k.freeRoom ≤ j.freeRoom := by
  have := h.room
  simp only [Column.freeRoom, h.stack, h.cfg]
  omega

/-- A record joins the inbound set. -/
theorem join (k : Column) (i : HNum) : k.Leads { k with inbound := insertHand i k.inbound } where
  kept := rfl
  shut _ := ⟨rfl, rfl, rfl⟩
  inbound h hh := insertHand_mem.2 (.inr hh)
  room := length_le_insertHand i k.inbound
  list cl hcl := ⟨cl, hcl, rfl, rfl, rfl⟩

end Column.Leads

/-! ### In the state -/

/-- What a selection leaves alone: all but columns, records, Load Monitor and pending sets. -/
def State.Frame (s t : State) : Prop :=
  t = { s with columns := t.columns, records := t.records, load := t.load, pendingSets := t.pendingSets }

namespace State.Frame

variable {s t u : State}

theorem refl (s : State) : s.Frame s := rfl

theorem trans (h : s.Frame t) (g : t.Frame u) : s.Frame u := by
  unfold State.Frame at *
  rw [g, h]

theorem post (s : State) (p : Port) (n : Notice) : s.Frame (s.post p n) := by
  obtain ⟨sets, e⟩ := s.post_eq_with_pendingSets p n
  rw [e]; rfl

end State.Frame

/-- What a part of a selection may do to the state. -/
structure State.Leads (s t : State) : Prop where
  frame : s.Frame t
  col : ∀ e, (s.col e).Leads (t.col e)
  stored : ∀ h y, t.hand h = some y → y.state = .stored → ∃ x, s.hand h = some x ∧ x.state = .stored ∧ x.dest = y.dest

namespace State.Leads

variable {s t u : State}

theorem refl (s : State) : s.Leads s := ⟨.refl s, fun e => .refl _, fun _ y hy hs => ⟨y, hy, hs, rfl⟩⟩

theorem trans (h : s.Leads t) (g : t.Leads u) : s.Leads u where
  frame := h.frame.trans g.frame
  col e := (h.col e).trans (g.col e)
  stored i z hz hs := by
    obtain ⟨y, hy, hys, hyd⟩ := g.stored i z hz hs
    obtain ⟨x, hx, hxs, hxd⟩ := h.stored i y hy hys
    exact ⟨x, hx, hxs, hxd.trans hyd⟩

/-- A change that leaves columns and records as they are. -/
theorem of_frame (f : s.Frame t) (hc : ∀ e, t.col e = s.col e) (hh : ∀ i, t.hand i = s.hand i) : s.Leads t where
  frame := f
  col e := hc e ▸ .refl _
  stored i y hy hs := ⟨y, hh i ▸ hy, hs, rfl⟩

theorem post (s : State) (p : Port) (n : Notice) : s.Leads (s.post p n) :=
  of_frame (.post ..) (fun _ => State.col_post ..) fun _ => State.hand_post ..

theorem modCol {c : ColIx} {f : Column → Column} (h : (s.col c).Leads (f (s.col c))) : s.Leads (s.modCol c f) where
  frame := rfl
  col e := by
    rw [State.col_modCol]
    split
    · rename_i h'; exact h' ▸ h
    · exact .refl _
  stored i y hy hs := ⟨y, by simpa using hy, hs, rfl⟩

/-- A record in use is changed, and is STORED only where it was. -/
theorem setHand {h : HNum} {y : Handover}
    (hs : y.state = .stored → ∃ x, s.hand h = some x ∧ x.state = .stored ∧ x.dest = y.dest) :
    s.Leads (s.setHand h (some y)) where
  frame := rfl
  col _ := by rw [State.col_setHand]; exact .refl _
  stored i z hz hzs := by
    rw [State.hand_setHand] at hz
    split at hz
    · rename_i e
      cases hz
      exact e ▸ hs hzs
    · exact ⟨z, hz, hzs, rfl⟩

/-- No dig-target set gains a column. -/
theorem digSet (h : s.Leads t) {p r : Region} {c e : ColIx}
    (hw : (t.col e).waitList.length < 6 → (s.col e).waitList.length < 6) (he : e ∈ t.digSet p r c) : e ∈ s.digSet p r c := by
  obtain ⟨hs, hne, hp, hr, hf, hl⟩ := State.mem_digSet.1 he
  rw [(h.col e).cfg] at hp hr
  exact State.mem_digSet.2 ⟨Column.inService_iff.1 ((h.col e).inService (Column.inService_iff.2 hs)), hne, hp, hr,
    hf.trans (h.col e).freeRoom, hw hl⟩

end State.Leads

/-- The claims of a record wait in one column (R68). -/
def State.OneList (s : State) : Prop :=
  ∀ c d, ∀ a ∈ (s.col c).waitList, ∀ b ∈ (s.col d).waitList, a.handover = b.handover → c = d

theorem State.Leads.oneList {s t : State} (h : s.Leads t) (one : s.OneList) : t.OneList := fun c d a ha b hb e => by
  obtain ⟨a', ha', ea, -⟩ := (h.col c).list a ha
  obtain ⟨b', hb', eb, -⟩ := (h.col d).list b hb
  exact one c d a' ha' b' hb' (ea.trans (e.trans eb.symm))

/-! ### With the selections it starts -/

/-- A part of a selection starts one wherever a claim becomes eligible. -/
structure Work.Guards (w v : Work) : Prop where
  state : w.st.Leads v.st
  sel : ∀ c ∈ w.sel, c ∈ v.sel
  gates : ∀ c, c ∉ v.sel → w.st.load.depositGate ≤ v.st.load.depositGate ∧ w.st.load.liftGate ≤ v.st.load.liftGate
  room : ∀ c, c ∉ v.sel → ∀ e, (v.st.col e).waitList.length < 6 → (w.st.col e).waitList.length < 6
  urgency : w.st.OneList → ∀ c, c ∉ v.sel → ∀ cl ∈ (v.st.col c).waitList,
    v.st.urgencyOf cl.handover ≤ w.st.urgencyOf cl.handover

namespace Work.Guards

variable {w v u : Work}

theorem refl (w : Work) : w.Guards w where
  state := .refl _
  sel _ h := h
  gates _ _ := ⟨le_refl _, le_refl _⟩
  room _ _ _ h := h
  urgency _ _ _ _ _ := le_refl _

theorem trans (h : w.Guards v) (g : v.Guards u) : w.Guards u where
  state := h.state.trans g.state
  sel c hc := g.sel c (h.sel c hc)
  gates c hc := by
    have late := g.gates c hc
    have early := h.gates c (mt (g.sel c) hc)
    exact ⟨early.1.trans late.1, early.2.trans late.2⟩
  room c hc e he := h.room c (mt (g.sel c) hc) e (g.room c hc e he)
  urgency one c hc cl hcl := by
    obtain ⟨cl', hcl', e, -⟩ := (g.state.col c).list cl hcl
    have early := h.urgency one c (mt (g.sel c) hc) cl' hcl'
    exact (g.urgency (h.state.oneList one) c hc cl hcl).trans (e ▸ early)

/-- A change that leaves the gates, the wait lists and the urgencies as they are. -/
theorem up {f : State → State} (h : w.st.Leads (f w.st)) (hl : (f w.st).load = w.st.load)
    (hw : ∀ e, ((f w.st).col e).waitList.length = (w.st.col e).waitList.length)
    (hu : ∀ i, (f w.st).urgencyOf i = w.st.urgencyOf i) : w.Guards (w.up f) where
  state := h
  sel _ h := h
  gates c _ := by simp only [Work.up, hl, le_refl, and_self]
  room c _ e he := hw e ▸ he
  urgency _ c _ cl _ := (hu cl.handover).le

theorem post (w : Work) (p : Port) (n : Notice) : w.Guards (w.up fun s => s.post p n) :=
  up (.post ..) (State.load_post ..) (fun e => by rw [State.col_post]) fun i => by
    unfold State.urgencyOf; rw [State.hand_post]

/-- A record is changed; its urgency stands, and it is STORED only where it was. -/
theorem setHand {h : HNum} {x y : Handover} (hx : w.st.hand h = some x) (hu : y.urgency = x.urgency)
    (hs : y.state = .stored → x.state = .stored ∧ x.dest = y.dest) : w.Guards (w.up fun s => s.setHand h (some y)) :=
  up (.setHand fun e => ⟨x, hx, hs e⟩) rfl (fun e => by rw [State.col_setHand]) fun i => by
    rw [State.urgencyOf_eq, State.urgencyOf_eq, State.hand_setHand]
    by_cases e : i = h
    · subst e; simp [hx, hu]
    · rw [if_neg e]

theorem handOccupancy (w : Work) : w.Guards w.handOccupancy := by
  have frame : w.st.Frame w.handOccupancy.st := by
    obtain ⟨sets, e⟩ := w.setLoad_st_eq_with_load_pendingSets (w.st.load.judge w.st.occupancy)
    rw [Work.handOccupancy, e]; rfl
  have leads : w.st.Leads w.handOccupancy.st :=
    .of_frame frame (fun e => Work.col_handOccupancy ..) fun i => Work.hand_handOccupancy ..
  have hsel : w.handOccupancy.sel = if (w.st.load.judge w.st.occupancy).depositGate < w.st.load.depositGate ∨
      (w.st.load.judge w.st.occupancy).liftGate < w.st.load.liftGate then ColIx.all ++ w.sel else w.sel := by
    rw [Work.handOccupancy, Work.setLoad_eq]
  have hload : w.handOccupancy.st.load = w.st.load.judge w.st.occupancy := by
    obtain ⟨sets, e⟩ := w.setLoad_st_eq_with_load_pendingSets (w.st.load.judge w.st.occupancy)
    rw [Work.handOccupancy, e]
  refine ⟨leads, fun c hc => ?_, fun c hc => ?_, fun c _ e he => ?_, fun _ c _ cl _ => ?_⟩
  · rw [hsel]; split <;> simp [hc]
  · rw [hload]
    rw [hsel] at hc
    split at hc
    · exact absurd (List.mem_append_left _ (ColIx.mem_all c)) hc
    · omega
  · rwa [Work.col_handOccupancy] at he
  · unfold State.urgencyOf
    rw [Work.hand_handOccupancy]

/-- A raise of a record's urgency starts a selection where its claim waits. -/
theorem raiseUrgency (w : Work) (h : HNum) (u : Nat) : w.Guards (w.raiseUrgency h u) := by
  cases hx : w.st.hand h with
  | none => simp only [Work.raiseUrgency, hx]; exact .refl _
  | some x =>
    obtain ⟨keeps, raises⟩ := w.raiseUrgency_spec h u x hx
    rcases Nat.lt_or_ge x.urgency u with hu | hu
    swap
    · rw [keeps hu]; exact .refl _
    obtain ⟨unclaimed, claimed⟩ := raises hu
    have leads : w.st.Leads (w.st.setHand h (some { x with urgency := u })) := .setHand fun e => ⟨x, hx, e, rfl⟩
    have others {i : HNum} (hi : i ≠ h) :
        (w.st.setHand h (some { x with urgency := u })).urgencyOf i = w.st.urgencyOf i := by
      unfold State.urgencyOf
      rw [State.hand_setHand, if_neg hi]
    cases hc : w.st.waitColumn h with
    | none =>
      have none := State.waitColumn_eq_none.1 hc
      rw [unclaimed none]
      refine ⟨leads, fun _ hc => hc, fun c _ => ⟨le_refl _, le_refl _⟩, fun c _ e he => by simpa [Work.up] using he,
        fun _ c _ cl hcl => (others (none c cl ?_)).le⟩
      simpa [Work.up] using hcl
    | some d =>
      obtain ⟨waits, first⟩ := State.waitColumn_eq_some.1 hc
      rw [claimed d waits first]
      refine ⟨leads, fun _ hc => List.mem_cons_of_mem _ hc, fun c _ => ⟨le_refl _, le_refl _⟩,
        fun c _ e he => by simpa [Work.up, Work.start] using he, fun one c hc cl hcl => (others fun e => ?_).le⟩
      obtain ⟨a, ha, ea⟩ := waits
      have hcl' : cl ∈ (w.st.col c).waitList := by simpa [Work.up, Work.start] using hcl
      exact hc (one c d cl hcl' a ha (e.trans ea.symm) ▸ List.mem_cons_self)

theorem takeWarning (w : Work) (h : HNum) : w.Guards (w.takeWarning h) := by
  unfold Work.takeWarning
  split
  · exact .refl _
  · rename_i x hx
    refine (trans ?_ (raiseUrgency _ h 6)).trans (post _ _ _)
    simp only [Work.up, State.modHand_of_some hx]
    exact setHand hx rfl fun e => ⟨e, rfl⟩

theorem judgeCharging (w : Work) (h : HNum) : w.Guards (w.judgeCharging h) := by
  unfold Work.judgeCharging
  split
  · exact .refl _
  · rename_i x hx
    split
    · exact .refl _
    · dsimp only
      split
      · split
        · refine trans ?_ (takeWarning _ _)
          exact setHand hx rfl fun e => ⟨e, rfl⟩
        · exact setHand hx rfl fun e => ⟨e, rfl⟩
      · exact setHand hx rfl fun e => ⟨e, rfl⟩
      · exact .refl _

/-- A claim that is eligible now was eligible before, unless a selection has been started in its column. -/
theorem eligible (g : w.Guards v) (one : w.st.OneList) {c : ColIx} (hc : c ∉ v.sel) {cl : Claim}
    (hcl : cl ∈ (v.st.col c).waitList) (h : v.st.eligible c cl = true) :
    ∃ cl' ∈ (w.st.col c).waitList, w.st.eligible c cl' = true := by
  obtain ⟨cl', hcl', hh, hk, hr⟩ := (g.state.col c).list cl hcl
  have urgent := g.urgency one c hc cl hcl
  obtain ⟨dep, lift⟩ := g.gates c hc
  have rank : v.st.rank cl ≤ w.st.rank cl' := by
    rw [State.rank_eq, State.rank_eq, hh, hk]
    split <;> omega
  refine ⟨cl', hcl', State.eligible_iff.2 ?_⟩
  rw [hk]
  refine (State.eligible_iff.1 h).imp id (Or.imp (fun ⟨k, e⟩ => ⟨k, by omega⟩) fun ⟨k, e, r⟩ => ⟨k, by omega, ?_⟩)
  rw [State.reachable_iff, (g.state.col c).stack, State.digPossible_iff] at r
  rw [State.reachable_iff, hh, hr, State.digPossible_iff]
  refine r.imp id ?_
  rintro ⟨k, y, top, hy, hys, set⟩
  obtain ⟨x, hx, hxs, hxd⟩ := g.state.stored k y hy hys
  obtain ⟨e, he⟩ := List.exists_mem_of_ne_nil _ set
  rw [(g.state.col c).stack] at top
  exact ⟨k, x, top, hx, hxs, List.ne_nil_of_mem (hxd ▸ g.state.digSet (g.room c hc e) he)⟩

end Work.Guards

end Sys2Proof.Machine
end
-- ==== Sys2Proof/Proofs/Rounds.lean ====
section
/-! The selections at the end of a step come to an end, and leave no eligible claim in a column they started in (O53). -/
namespace Sys2Proof.Machine

/-! ### A grant and a selection -/

theorem Work.Guards.giveGrant {w : Work} {c : ColIx} (cl : Claim) (op : Operation) (ho : (w.st.col c).state = .opened) :
    w.Guards (w.giveGrant c cl op) := by
  rw [Work.giveGrant_eq]
  extract_lets untold old
  refine Work.Guards.trans ?_ ((Work.Guards.judgeCharging _ _).trans (Work.Guards.post _ _ _))
  have leads : w.st.Leads (w.st.modCol c fun k => { k with
      state := .granted, waitList := old.filter fun x => x != cl
      grant := some {
        claim := { cl with blocked := false }, op := op, noticeSent := untold
        timer := if untold then some (10 * w.st.limits.grant) else none } }) :=
    .modCol ⟨rfl, fun h => absurd ho h, fun _ h => h, le_refl _, fun x hx => ⟨x, List.mem_of_mem_filter hx, rfl, rfl, rfl⟩⟩
  refine ⟨leads, fun d hd => ?_, fun d _ => ⟨le_refl _, le_refl _⟩, fun d hd e he => ?_, fun _ d _ x _ => le_refl _⟩
  · dsimp only
    split <;> simp [hd]
  · rw [State.col_modCol] at he
    split at he
    · rename_i same
      subst same
      by_contra full
      have fell : 6 ≤ old.length ∧ (old.filter fun x => x != cl).length < 6 := ⟨Nat.not_lt.1 full, he⟩
      refine hd ?_
      simp only [fell, and_self, if_true]
      exact List.mem_append_left _ (ColIx.mem_all d)
    · exact he

theorem Work.state_giveGrant (w : Work) (c : ColIx) (cl : Claim) (op : Operation) :
    ((w.giveGrant c cl op).st.col c).state = .granted := by
  rw [Work.giveGrant_eq]
  simp [Work.up]

theorem State.eligible_congr {s t : State} {c : ColIx} (hl : t.load = s.load) (hh : t.hand = s.hand)
    (hs : (t.col c).stack = (s.col c).stack) (hc : ∀ e, e ≠ c → t.col e = s.col e) (cl : Claim) :
    t.eligible c cl = s.eligible c cl := by
  unfold State.eligible State.reachable State.onTop State.digPossible State.urgencyOf
  simp only [hl, hh, hs, State.digSet_congr hc]

section
variable {w : Work} {c : ColIx}

theorem Work.eligible_marked (w : Work) (c : ColIx) (cl : Claim) :
    (w.marked c).st.eligible c cl = w.st.eligible c cl :=
  State.eligible_congr (s := w.st) (t := (w.marked c).st) rfl (funext fun _ => State.hand_modCol ..) (by simp [Work.marked, Work.up])
    (fun e he => by simp [Work.marked, Work.up, he]) cl

theorem Work.waitList_marked (w : Work) (c : ColIx) : ((w.marked c).st.col c).waitList = w.st.marks c := by
  simp [Work.marked, Work.up]

theorem Work.Guards.marked (ho : (w.st.col c).state = .opened) : w.Guards (w.marked c) := by
  refine .up (.modCol ⟨rfl, fun h => absurd ho h, fun _ h => h, le_refl _, fun x hx => ?_⟩) rfl (fun e => ?_) fun i => rfl
  · obtain ⟨y, hy, rfl⟩ := List.mem_map.1 hx
    exact ⟨y, hy, by rw [State.mark_eq], by rw [State.mark_eq], by rw [State.mark_eq]⟩
  · rw [State.col_modCol]
    split
    · rename_i same
      simp [State.marks, same]
    · rfl

/-- A record that a grant moves goes over to a state other than STORED. -/
theorem Work.Guards.modHand (w : Work) (h : HNum) {f : Handover → Handover} (hu : ∀ x, (f x).urgency = x.urgency)
    (hs : ∀ x, (f x).state ≠ .stored) : w.Guards (w.up (·.modHand h f)) := by
  cases hx : w.st.hand h with
  | none =>
    have same : w.up (·.modHand h f) = w := by simp only [Work.up]; rw [State.modHand_of_none hx]
    exact same.symm ▸ .refl w
  | some x =>
    have set : w.up (·.modHand h f) = w.up fun s => s.setHand h (some (f x)) := by
      simp only [Work.up]; rw [State.modHand_of_some hx]
    exact set.symm ▸ .setHand hx (hu x) fun e => absurd e (hs x)

theorem Work.Guards.joinInbound (w : Work) (t : ColIx) (k : HNum) :
    w.Guards (w.up fun s => s.modCol t fun i => { i with inbound := insertHand k i.inbound }) := by
  refine .up (.modCol (.join _ k)) rfl (fun e => ?_) fun i => rfl
  rw [State.col_modCol]
  split
  · rename_i same
    rw [same]
  · rfl

/-- An eligible claim is granted. -/
theorem Work.grantTo_of_eligible {cl : Claim} (ho : (w.st.col c).state = .opened) (he : w.st.eligible c cl = true) :
    ∃ v op, w.Guards v ∧ (v.st.col c).state = .opened ∧ w.grantTo c cl = v.giveGrant c cl op := by
  have stays {f : Handover → Handover} (hf : ∀ x, (f x).urgency = x.urgency ∧ (f x).state ≠ .stored) :
      w.Guards (w.up (·.modHand cl.handover f)) ∧ ((w.up (·.modHand cl.handover f)).st.col c).state = .opened :=
    ⟨.modHand w _ (fun x => (hf x).1) fun x => (hf x).2, by simp [Work.up, ho]⟩
  cases hk : cl.kind with
  | deposit =>
    obtain ⟨g, o⟩ := stays (f := fun r => { r with state := .landing, bookingTimer := none }) fun x => ⟨rfl, by simp⟩
    exact ⟨_, _, g, o, Work.grantTo_deposit hk⟩
  | holding =>
    obtain ⟨g, o⟩ := stays (f := fun r => { r with state := .landing }) fun x => ⟨rfl, by simp⟩
    exact ⟨_, _, g, o, Work.grantTo_holding hk⟩
  | lift =>
    by_cases ht : w.st.onTop c cl.handover = true
    · obtain ⟨g, o⟩ := stays (f := fun r => { r with state := .lifting }) fun x => ⟨rfl, by simp⟩
      exact ⟨_, _, g, o, Work.grantTo_lift hk ht⟩
    · have dig : w.st.digPossible c cl.robot.port = true := by
        have reach : w.st.reachable c cl = true := by
          simpa [hk] using (State.eligible_iff.1 he).resolve_left (by simp [hk])
            |>.resolve_left (by simp [hk]) |>.2.2
        simpa [State.reachable, ht] using reach
      obtain ⟨k, x, top, hx, hxs, set⟩ := State.digPossible_iff.1 dig
      have covered : k ≠ cl.handover := fun e => ht (by simp [State.onTop, top, e])
      obtain ⟨t, target⟩ : ∃ t, w.st.digTarget x cl.robot.port c = some t :=
        Option.ne_none_iff_exists'.1 fun none => set (State.best_eq_none.1 none)
      refine ⟨_, _, ?_, ?_, Work.grantTo_shift hk top covered hx target⟩
      · refine Work.Guards.trans ?_ (Work.Guards.handOccupancy _)
        refine Work.Guards.trans (v := w.up fun s => s.setHand k (some { x with state := .shifting, target := some t }))
          (.setHand hx rfl fun e => absurd e (by simp)) ?_
        exact .joinInbound _ t k
      · simp only [Work.col_handOccupancy, Work.up]
        rw [State.col_modCol]
        split
        · rename_i same; subst same; simp [ho]
        · simp [ho]

/-- A selection does nothing, or makes the marks alone, or grants. -/
theorem Work.select_cases (w : Work) (c : ColIx) :
    (w.select c = w ∧ ((w.st.col c).state ≠ .opened ∨ (w.st.col c).waitList = [])) ∨
    ((w.st.col c).state = .opened ∧ w.select c = w.marked c ∧ ∀ cl ∈ w.st.marks c, w.st.eligible c cl = false) ∨
    ((w.st.col c).state = .opened ∧ ∃ v cl op, w.Guards v ∧ (v.st.col c).state = .opened ∧
      w.select c = v.giveGrant c cl op) := by
  by_cases ho : (w.st.col c).state = .opened
  swap
  · exact .inl ⟨Work.select_of_idle (.inl ho), .inl ho⟩
  by_cases hw : (w.st.col c).waitList = []
  · exact .inl ⟨Work.select_of_idle (.inr hw), .inr hw⟩
  right
  cases chosen : w.st.choose ((w.st.marks c).filter (w.st.eligible c)) with
  | none =>
    refine .inl ⟨ho, Work.select_of_none ho chosen hw, fun cl hcl => ?_⟩
    simpa using List.filter_eq_nil_iff.1 (State.choose_eq_none.1 chosen) cl hcl
  | some cl =>
    have eligible : (w.marked c).st.eligible c cl = true := by
      rw [Work.eligible_marked]
      exact (List.mem_filter.1 (State.mem_of_choose chosen)).2
    obtain ⟨v, op, g, o, e⟩ := Work.grantTo_of_eligible (w := w.marked c) (by simp [Work.marked, Work.up, ho]) eligible
    exact .inr ⟨ho, v, cl, op, (Work.Guards.marked ho).trans g, o, (Work.select_of_some ho chosen).trans e⟩

theorem Work.Guards.select (w : Work) (c : ColIx) : w.Guards (w.select c) := by
  rcases w.select_cases c with ⟨e, -⟩ | ⟨ho, e, -⟩ | ⟨-, v, cl, op, g, o, e⟩ <;> rw [e]
  · exact .refl w
  · exact .marked ho
  · exact g.trans (.giveGrant cl op o)

/-! ### The columns that are OPEN -/

/-- The columns that are OPEN. -/
def State.openColumns (s : State) : Finset ColIx := Finset.univ.filter fun c => (s.col c).state = .opened

theorem State.mem_openColumns {s : State} {c : ColIx} : c ∈ s.openColumns ↔ (s.col c).state = .opened := by
  simp [State.openColumns]

theorem State.Leads.openColumns {s t : State} (h : s.Leads t) : t.openColumns ⊆ s.openColumns := fun c hc =>
  State.mem_openColumns.2 ((h.col c).opened (State.mem_openColumns.1 hc))

/-- A selection that starts another has granted its column. -/
theorem Work.select_progress (w : Work) (c : ColIx) :
    (w.select c).sel = w.sel ∨ (w.select c).st.openColumns ⊂ w.st.openColumns := by
  rcases w.select_cases c with ⟨e, -⟩ | ⟨-, e, -⟩ | ⟨ho, v, cl, op, g, o, e⟩
  · exact .inl (by rw [e])
  · exact .inl (by rw [e]; rfl)
  · have leads := (Work.Guards.select w c).state.openColumns
    refine .inr (Finset.ssubset_iff_subset_ne.2 ⟨leads, fun same => ?_⟩)
    have := State.mem_openColumns.1 (same.symm ▸ State.mem_openColumns.2 ho)
    rw [e, Work.state_giveGrant] at this
    cases this

/-! ### Columns that are settled -/

/-- A selection is started in the column, or it holds no claim to grant. -/
def Work.Settled (w : Work) (c : ColIx) : Prop :=
  c ∉ w.sel → (w.st.col c).state = .opened → ∀ cl ∈ (w.st.col c).waitList, w.st.eligible c cl = false

theorem Work.Guards.settled {v : Work} (g : w.Guards v) (one : w.st.OneList) (h : w.Settled c) : v.Settled c := by
  intro hc ho cl hcl
  by_contra able
  obtain ⟨cl', hcl', able'⟩ := g.eligible one hc hcl (by simpa using able)
  simp [h (mt (g.sel c) hc) ((g.state.col c).opened ho) cl' hcl'] at able'

theorem Work.select_settles (w : Work) (c : ColIx) : (w.select c).Settled c := by
  rcases w.select_cases c with ⟨e, idle⟩ | ⟨-, e, none⟩ | ⟨-, v, cl, op, -, -, e⟩ <;> rw [e] <;> intro _ ho
  · simp [idle.resolve_left (not_not.2 ho)]
  · intro cl hcl
    rw [Work.eligible_marked]
    exact none cl (Work.waitList_marked w c ▸ hcl)
  · rw [Work.state_giveGrant] at ho
    cases ho

end

/-! ### A round -/

/-- The selections of a round in some of the columns. -/
def Work.pass (started : List ColIx) (l : List ColIx) (v : Work) : Work :=
  l.foldl (fun v c => if c ∈ started then v.select c else v) v

theorem Work.round_eq (w : Work) : w.round = Work.pass w.sel ColIx.all { st := w.st, sel := [] } := rfl

section
variable {started : List ColIx}

theorem Work.pass_cons (d : ColIx) (l : List ColIx) (v : Work) :
    Work.pass started (d :: l) v = Work.pass started l (if d ∈ started then v.select d else v) := rfl

theorem Work.Guards.turn (v : Work) (d : ColIx) : v.Guards (if d ∈ started then v.select d else v) := by
  split
  · exact .select v d
  · exact .refl v

theorem Work.Guards.pass : ∀ (l : List ColIx) (v : Work), v.Guards (Work.pass started l v)
  | [], v => .refl v
  | d :: l, v => (Work.Guards.turn v d).trans (Work.Guards.pass l _)

theorem Work.pass_progress : ∀ (l : List ColIx) (v : Work),
    (Work.pass started l v).sel = v.sel ∨ (Work.pass started l v).st.openColumns ⊂ v.st.openColumns
  | [], _ => .inl rfl
  | d :: l, v => by
    rw [Work.pass_cons]
    have shrinks := (Work.Guards.pass (started := started) l (if d ∈ started then v.select d else v)).state.openColumns
    have first : (if d ∈ started then v.select d else v).sel = v.sel ∨
        (if d ∈ started then v.select d else v).st.openColumns ⊂ v.st.openColumns := by
      split
      · exact v.select_progress d
      · exact .inl rfl
    rcases first with same | less
    · refine (Work.pass_progress l _).imp (·.trans same) fun less => ?_
      exact Finset.ssubset_of_ssubset_of_subset less (Work.Guards.turn v d).state.openColumns
    · exact .inr (Finset.ssubset_of_subset_of_ssubset shrinks less)

theorem Work.pass_settled {c : ColIx} : ∀ (l : List ColIx) (v : Work), v.st.OneList →
    (c ∈ l ∧ c ∈ started) ∨ v.Settled c → (Work.pass started l v).Settled c
  | [], _, _, h => h.resolve_left (by simp)
  | d :: l, v, one, h => by
    rw [Work.pass_cons]
    have turn := Work.Guards.turn (started := started) v d
    refine Work.pass_settled l _ (turn.state.oneList one) ?_
    rcases h with ⟨mem, start⟩ | settled
    · rcases List.mem_cons.1 mem with rfl | mem
      · exact .inr (by rw [if_pos start]; exact v.select_settles c)
      · exact .inl ⟨mem, start⟩
    · exact .inr (turn.settled one settled)

end

theorem Work.round_leads (w : Work) : w.st.Leads w.round.st := by
  rw [Work.round_eq]
  exact (Work.Guards.pass ColIx.all { st := w.st, sel := [] }).state

theorem Work.round_settled {w : Work} {c : ColIx} (one : w.st.OneList) (h : w.Settled c) : w.round.Settled c := by
  rw [Work.round_eq]
  refine Work.pass_settled ColIx.all _ one ?_
  by_cases hc : c ∈ w.sel
  · exact .inl ⟨ColIx.mem_all c, hc⟩
  · exact .inr fun _ => h hc

theorem Work.round_progress (w : Work) : w.round.sel = [] ∨ w.round.st.openColumns ⊂ w.st.openColumns := by
  rw [Work.round_eq]
  exact Work.pass_progress ColIx.all { st := w.st, sel := [] }

/-! ### The rounds -/

theorem Work.rounds_succ {w : Work} (n : Nat) (h : w.sel ≠ []) : Work.rounds (n + 1) w = Work.rounds n w.round := by
  rw [Work.rounds, if_neg h]

theorem Work.rounds_leads : ∀ (n : Nat) (w : Work), w.st.Leads (Work.rounds n w).st
  | 0, w => .refl _
  | n + 1, w => by
    rw [Work.rounds]
    split
    · exact .refl _
    · exact w.round_leads.trans (Work.rounds_leads n _)

theorem Work.rounds_settled {c : ColIx} : ∀ (n : Nat) (w : Work), w.st.OneList → w.Settled c → (Work.rounds n w).Settled c
  | 0, _, _, h => h
  | n + 1, w, one, h => by
    rw [Work.rounds]
    split
    · exact h
    · exact Work.rounds_settled n _ (w.round_leads.oneList one) (Work.round_settled one h)

/-- A round that starts another takes a column out of OPEN, so more rounds than there are OPEN columns leave none to make. -/
theorem Work.rounds_end : ∀ (n : Nat) (w : Work), w.st.openColumns.card < n → (Work.rounds n w).sel = []
  | 0, _, h => absurd h (Nat.not_lt_zero _)
  | n + 1, w, h => by
    rw [Work.rounds]
    split
    · assumption
    · rcases w.round_progress with done | less
      · rw [Work.rounds_nil n done, done]
      · exact Work.rounds_end n _ (lt_of_lt_of_le (Finset.card_lt_card less) (Nat.le_of_lt_succ h))

theorem Work.rounds_nine_sel (w : Work) : (Work.rounds 9 w).sel = [] :=
  Work.rounds_end 9 w (Nat.lt_succ_of_le ((Finset.card_le_univ _).trans (by decide)))

/-- When no selection is left another round changes nothing. -/
theorem Work.rounds_stable : ∀ (n : Nat) (w : Work), (Work.rounds n w).sel = [] → Work.rounds (n + 1) w = Work.rounds n w
  | 0, w, h => Work.rounds_nil 1 h
  | n + 1, w, h => by
    by_cases e : w.sel = []
    · rw [Work.rounds_nil _ e, Work.rounds_nil _ e]
    · rw [Work.rounds_succ n e] at h ⊢
      rw [Work.rounds_succ (n + 1) e, Work.rounds_stable n _ h]

/-- A step is finished by one round and what that starts. -/
theorem Work.finish_round {w : Work} (h : w.sel ≠ []) : w.finish = w.round.finish := by
  have done := w.rounds_nine_sel
  unfold Work.finish
  rw [Work.rounds_succ 8 h] at done ⊢
  rw [Work.rounds_stable 8 _ done]

theorem Work.finish_of_quiet {w : Work} (h : w.st.quiet) : w.finish = w.st := by
  by_cases e : w.sel = []
  · exact Work.finish_nil e
  have idle (c : ColIx) : (if c ∈ w.sel then Work.select { st := w.st, sel := [] } c else { st := w.st, sel := [] }) =
      { st := w.st, sel := [] } := by
    split
    · refine Work.select_of_idle ?_
      by_cases ho : (w.st.col c).state = .opened
      · exact .inr (h c ho)
      · exact .inl ho
    · rfl
  have round : w.round = { st := w.st, sel := [] } := List.foldl_fixed' idle ColIx.all
  rw [Work.finish_round e, round, Work.finish_nil rfl]

/-- Settles O53: a round that starts another takes a column out of OPEN, so the rounds end; and a selection is started
wherever a claim becomes eligible. -/
theorem selectionsEndWithTheStep : Obligations.SelectionsEndWithTheStep := by
  intro w
  have leads : w.st.Leads w.finish := Work.rounds_leads 9 w
  refine ⟨fun c => rfl, rfl, rfl, w.rounds_nine_sel, Work.finish_nil, Work.finish_of_quiet, Work.finish_round,
    fun one c hc ho => ?_, leads.frame, closedAll_recordsContinue.finish w, fun c => ?_⟩
  · have settled : (Work.rounds 9 w).Settled c := Work.rounds_settled 9 w one fun h => absurd hc h
    exact settled (by simp [w.rounds_nine_sel]) ho
  · intro k k'
    exact ⟨(leads.col c).kept, (leads.col c).shut, (leads.col c).inbound⟩

end Sys2Proof.Machine
end
-- ==== Sys2Proof/Proofs/Replacement.lean ====
section
/-! What a fence does to one record (O28). -/
namespace Sys2Proof.Machine

theorem Column.reported_eq (k : Column) : k.reported = if k.cfg.gaugeMode = .off then 0 else k.reading := by
  unfold Column.reported; cases k.cfg.gaugeMode <;> rfl

theorem State.captureColumn_eq (s : State) (e : ErrorKind) (c : ColIx) (who : Option (Robot × HNum)) :
    s.captureColumn e c who = s.capture 6 {
      kind := e, port := who.map fun x => .region x.1.port, robot := who.map fun x => x.1.number
      handover := who.map fun x => x.2, column := some c, time := s.clock
      reading := some (if (s.col c).cfg.gaugeMode = .off then 0 else (s.col c).reading)
      stackLen := some (s.col c).stack.length } := by
  unfold State.captureColumn
  rw [Column.reported_eq]
  rfl

theorem Work.leaveInbound_eq (w : Work) (c : ColIx) (h : HNum) : w.leaveInbound c h = {
    st := w.st.modCol c fun k => { k with inbound := k.inbound.filter fun i => i != h }, sel := ColIx.all ++ w.sel } := rfl

/-- The one element of a list that a search can find. -/
theorem find?_eq_some_of_unique {α : Type} {l : List α} {p : α → Bool} {x : α} (hx : x ∈ l) (hp : p x = true)
    (one : ∀ y ∈ l, p y = true → y = x) : l.find? p = some x := by
  cases e : l.find? p with
  | none => exact absurd hp (List.find?_eq_none.1 e x hx)
  | some y => rw [one y (List.mem_of_find?_eq_some e) (List.find?_some e)]

section
variable {w : Work} {c : ColIx} {h : HNum} {x : Handover} (hx : w.st.hand h = some x)
include hx

theorem Work.replaceBooked_moves {d : ColIx} (hd : w.st.wins x.due x.cls (w.st.bookingSet x.origin x.dest) d) :
    w.replaceBooked c h = Work.up (Work.judgeCharging {
        st := ((w.st.modCol c fun k => { k with inbound := k.inbound.filter fun i => i != h }).modCol d
          fun k => { k with inbound := insertHand h k.inbound }).setHand h (some { x with column := some d })
        sel := ColIx.all ++ w.sel } h) fun s => s.post x.origin (.moved h) := by
  simp only [Work.replaceBooked, hx, State.best_bookingSet.2 hd]
  rw [Work.change_eq (x := x) (by simpa [Work.leaveInbound, Work.startAll, Work.up, State.joinInbound] using hx)]
  rfl

theorem Work.replaceBooked_withdraws (none : w.st.bookingSet x.origin x.dest = []) :
    w.replaceBooked c h = (w.leaveInbound c h).close h .withdrawn (originSet x.origin) (.withdrawn h x.bin 1) := by
  simp only [Work.replaceBooked, hx, State.best_eq_none.2 none]
  rw [Work.withdraw_eq (by simpa [Work.leaveInbound_eq] using hx)]
  rfl

theorem Work.replaceMoving_moves {rb : Robot} {cl : Claim} {d : ColIx} (hr : x.holder = some rb)
    (holding : (w.st.col c).waitList.find? (fun cl => cl.handover == h) = some cl)
    (hd : w.st.wins x.due x.cls (w.st.movingSet rb.port x.dest) d) :
    w.replaceMoving c h =
      (((((w.leaveInbound c h).leave c fun cl => cl.handover == h).up (·.joinInbound d h)).up fun s =>
        s.setHand h (some { x with column := some d })).judgeCharging h).join d cl := by
  simp only [Work.replaceMoving, hx, hr, holding, State.best_movingSet.2 hd]
  rw [Work.change_eq (x := x) (by simpa [Work.leaveInbound, Work.startAll, Work.up, State.joinInbound] using hx)]
  simp only [hr]

theorem Work.replaceMoving_handsBack {rb : Robot} (hr : x.holder = some rb) (none : w.st.movingSet rb.port x.dest = []) :
    w.replaceMoving c h = ((w.leave c fun cl => cl.handover == h).leaveInbound c h).handBack h c rb := by
  simp only [Work.replaceMoving, hx, hr, State.best_eq_none.2 none]

theorem Work.handBack_eq (rb : Robot) : w.handBack h c rb =
    (w.close h .handedBack (RegionSet.single rb.port ||| RegionSet.single x.dest) (.handedBack h x.bin rb)).up
      (·.captureColumn .handedBack c (some (rb, h))) := by
  simp only [Work.handBack, hx]

variable {source : ColIx} {g : Grant} (hs : x.column = some source) (hg : (w.st.col source).grant = some g)
include hs hg

theorem Work.newTarget_aims {d : ColIx} (hd : w.st.wins x.due x.cls (w.st.digSet g.claim.robot.port x.dest source) d) :
    w.newTarget c h = {
      st := ((w.st.modCol c fun k => { k with inbound := k.inbound.filter fun i => i != h }).modCol d
        fun k => { k with inbound := insertHand h k.inbound }).setHand h (some { x with target := some d })
      sel := ColIx.all ++ w.sel } := by
  have target : w.st.digTarget x g.claim.robot.port source = some d := State.best_digSet.2 hd
  simp only [Work.newTarget, hx, hs, hg, target, Work.leaveInbound_eq, Work.up, State.joinInbound]
  rw [State.modHand_of_some (r := x) (by simpa using hx)]
  simp only [hs]

theorem Work.newTarget_drops (empty : w.st.digSet g.claim.robot.port x.dest source = []) : w.newTarget c h = {
    st := (w.st.modCol c fun k => { k with inbound := k.inbound.filter fun i => i != h }).setHand h
      (some { x with target := none })
    sel := ColIx.all ++ w.sel } := by
  have target : w.st.digTarget x g.claim.robot.port source = none := State.best_eq_none.2 empty
  simp only [Work.newTarget, hx, hs, hg, target, Work.leaveInbound_eq, Work.up]
  rw [State.modHand_of_some (r := x) (by simpa using hx)]
  simp only [hs]

end

/-- Settles O28. -/
theorem recordsLeaveAFencedColumn : Obligations.RecordsLeaveAFencedColumn := by
  refine ⟨Work.leaveInbound_eq, fun w c h x hx => ?_⟩
  intro s left goes out
  refine ⟨fun d hd => Work.replaceBooked_moves hx hd, fun none => Work.replaceBooked_withdraws hx none,
    fun rb cl hr hcl hh one => ?_, fun rb => ?_, fun source g hs hg =>
      ⟨fun d hd => Work.newTarget_aims hx hs hg hd, fun none => Work.newTarget_drops hx hs hg none⟩⟩
  · intro others freed gone
    have freeing (l : List ColIx) : (if 6 ≤ (s.col c).waitList.length ∧ others.length < 6 then ColIx.all ++ l else l) =
        freed ++ l := by
      simp only [freed]; split <;> rfl
    have after : ((w.leaveInbound c h).leave c fun cl => cl.handover == h) =
        { st := gone, sel := freed ++ (ColIx.all ++ w.sel) } := by
      rw [Work.leave_eq, Work.leaveInbound_eq, ← freeing]
      simp only [State.col_modCol, if_true]
      exact congrArg (fun t => Work.mk t _) (State.modCol_congr (by simp [others, bne, s]))
    have before : ((w.leave c fun cl => cl.handover == h).leaveInbound c h) =
        { st := gone, sel := ColIx.all ++ (freed ++ w.sel) } := by
      rw [Work.leave_eq, Work.leaveInbound_eq, ← freeing]
      simp only [gone, left, State.modCol_modCol]
      exact congrArg (fun t => Work.mk t _) (State.modCol_congr (by simp [others, bne, s]))
    refine ⟨fun d hd => ?_, fun none => ?_⟩
    · rw [Work.replaceMoving_moves hx hr (find?_eq_some_of_unique hcl (by simpa using hh) fun y hy e =>
        one y hy (by simpa using e)) hd, after]
      rfl
    · rw [Work.replaceMoving_handsBack hx hr none, before]
  · rw [Work.handBack_eq hx]
    simp only [State.captureColumn_eq] <;> rfl

end Sys2Proof.Machine
end
-- ==== Sys2Proof/Proofs/FencedColumns.lean ====
section
/-! The entry of a column into FENCED (O27). -/
namespace Sys2Proof.Machine

/-! ### What is done to one record leaves the others alone -/

/-- Every record but one stands. -/
def State.OthersStand (h : HNum) (s t : State) : Prop := ∀ i, i ≠ h → t.hand i = s.hand i

namespace State.OthersStand

variable {h : HNum} {s t u : State}

theorem refl (h : HNum) (s : State) : OthersStand h s s := fun _ _ => rfl
theorem trans (a : OthersStand h s t) (b : OthersStand h t u) : OthersStand h s u :=
  fun i hi => (b i hi).trans (a i hi)
theorem setHand (h : HNum) (s : State) (x : Option Handover) : OthersStand h s (s.setHand h x) := fun i hi => by
  rw [State.hand_setHand, if_neg hi]
theorem modHand (h : HNum) (s : State) (f : Handover → Handover) : OthersStand h s (s.modHand h f) := setHand h s _
theorem of_hands (hh : ∀ i, t.hand i = s.hand i) : OthersStand h s t := fun i _ => hh i

end State.OthersStand

open State in
theorem Work.othersStand_raiseUrgency (w : Work) (h : HNum) (u : Nat) : OthersStand h w.st (w.raiseUrgency h u).st := by
  unfold Work.raiseUrgency
  split
  · exact .refl h _
  · split
    · dsimp only
      split <;> exact .setHand h _ _
    · exact .refl h _

open State in
theorem Work.othersStand_takeWarning (w : Work) (h : HNum) : OthersStand h w.st (w.takeWarning h).st := by
  unfold Work.takeWarning
  split
  · exact .refl h _
  · refine .trans ?_ (.of_hands fun i => State.hand_post ..)
    refine .trans ?_ (Work.othersStand_raiseUrgency _ h 6)
    exact .modHand h _ _

open State in
theorem Work.othersStand_judgeCharging (w : Work) (h : HNum) : OthersStand h w.st (w.judgeCharging h).st := by
  unfold Work.judgeCharging
  split
  · exact .refl h _
  · split
    · exact .refl h _
    · dsimp only
      split
      · split
        · refine .trans ?_ (Work.othersStand_takeWarning _ h)
          exact .setHand h _ _
        · exact .setHand h _ _
      · exact .setHand h _ _
      · exact .refl h _

open State in
theorem Work.othersStand_change (w : Work) (h : HNum) (f : Handover → Handover) :
    OthersStand h w.st (w.change h f).st :=
  (OthersStand.modHand h _ _).trans (Work.othersStand_judgeCharging _ h)

open State in
theorem Work.othersStand_close (w : Work) (h : HNum) (why : Reason) (ps : RegionSet) (n : Notice) :
    OthersStand h w.st (w.close h why ps n).st := by
  unfold Work.close
  dsimp only
  generalize (if w.st.level n.kind = 0 then 0 else ps) = waiting
  split
  · exact (Work.othersStand_change w h _).trans (.setHand h _ _)
  · refine .trans ?_ (.of_hands fun i => State.hand_postAll ..)
    exact (Work.othersStand_change w h _).trans (.modHand h _ _)

open State in
theorem Work.othersStand_withdraw (w : Work) (h : HNum) (cause : Byte) :
    OthersStand h w.st (w.withdraw h cause).st := by
  unfold Work.withdraw
  split
  · exact .refl h _
  · exact Work.othersStand_close w h _ _ _

open State in
theorem Work.othersStand_replaceBooked (w : Work) (c : ColIx) (h : HNum) :
    OthersStand h w.st (w.replaceBooked c h).st := by
  have left : OthersStand h w.st (w.leaveInbound c h).st := .of_hands fun i => by simp [Work.leaveInbound_eq]
  unfold Work.replaceBooked
  split
  · exact .refl h _
  · split
    · refine .trans ?_ (.of_hands fun i => State.hand_post ..)
      refine .trans ?_ (Work.othersStand_change _ h _)
      exact left.trans (.of_hands fun i => State.hand_modCol ..)
    · exact left.trans (Work.othersStand_withdraw _ h _)

/-! ### A FENCED column loses claims and inbound records alone -/

/-- A column loses claims and inbound records, and keeps the rest. -/
structure Column.Sheds (k k' : Column) : Prop where
  kept : k' = { k with waitList := k'.waitList, inbound := k'.inbound }
  waits : ∀ cl ∈ k'.waitList, cl ∈ k.waitList
  inbound : ∀ h ∈ k'.inbound, h ∈ k.inbound

namespace Column.Sheds

variable {j k l : Column}

theorem refl (k : Column) : k.Sheds k := ⟨rfl, fun _ h => h, fun _ h => h⟩

theorem trans (h : j.Sheds k) (g : k.Sheds l) : j.Sheds l where
  kept := by rw [g.kept, h.kept]
  waits cl hcl := h.waits cl (g.waits cl hcl)
  inbound i hi := h.inbound i (g.inbound i hi)

theorem of_eq (h : k = j) : j.Sheds k := h ▸ refl j

theorem state (h : j.Sheds k) : k.state = j.state := by rw [h.kept]

theorem leaveInbound (k : Column) (p : HNum → Bool) : k.Sheds { k with inbound := k.inbound.filter p } :=
  ⟨rfl, fun _ h => h, fun _ h => List.mem_of_mem_filter h⟩

theorem leave (k : Column) (p : Claim → Bool) : k.Sheds { k with waitList := k.waitList.filter p } :=
  ⟨rfl, fun _ h => List.mem_of_mem_filter h, fun _ h => h⟩

end Column.Sheds

section
variable {w : Work} {c : ColIx}

theorem Work.sheds_leaveInbound (w : Work) (c : ColIx) (h : HNum) :
    (w.st.col c).Sheds ((w.leaveInbound c h).st.col c) := by
  rw [Work.leaveInbound_eq, State.col_modCol, if_pos rfl]
  exact .leaveInbound _ _

theorem Work.sheds_leave (w : Work) (c : ColIx) (p : Claim → Bool) : (w.st.col c).Sheds ((w.leave c p).st.col c) := by
  rw [Work.leave_st, State.col_modCol, if_pos rfl]
  exact .leave _ _

/-- A FENCED column is in no candidate set. -/
theorem State.ne_of_inService {s : State} {c d : ColIx} (hk : (s.col c).state = .fenced)
    (hd : (s.col d).state = .opened ∨ (s.col d).state = .granted ∨ (s.col d).state = .settling) : c ≠ d := by
  rintro rfl
  simp [hk] at hd

theorem State.mem_of_best {s : State} {due : Due} {k : BinClass} {cands : List ColIx} {d : ColIx}
    (h : s.best due k cands = some d) : d ∈ cands :=
  (Picked.of_pick (s.weakOrder_cheaper due k) (s.best_eq_pick due k cands ▸ h)).mem

theorem State.inService_of_bookingSet {s : State} {o : Port} {t : Region} {d : ColIx} (h : d ∈ s.bookingSet o t) :
    (s.col d).state = .opened ∨ (s.col d).state = .granted ∨ (s.col d).state = .settling := by
  simp only [State.bookingSet, List.mem_filter, Bool.and_eq_true] at h
  exact Column.inService_iff.1 h.2.1.1.1

theorem Work.sheds_replaceBooked (hk : (w.st.col c).state = .fenced) (h : HNum) :
    (w.st.col c).Sheds ((w.replaceBooked c h).st.col c) := by
  have left := w.sheds_leaveInbound c h
  unfold Work.replaceBooked
  split
  · exact .refl _
  · split
    · rename_i d hd
      have other := State.ne_of_inService hk (State.inService_of_bookingSet (State.mem_of_best hd))
      refine left.trans (.of_eq ?_)
      simp [Work.up, State.joinInbound, other]
    · exact left.trans (.of_eq (by simp))

/-- A BOOKED record that is re-placed or withdrawn has left the inbound set. -/
theorem Work.replaceBooked_leaves (hk : (w.st.col c).state = .fenced) {h : HNum} (hx : w.st.hand h ≠ none) :
    h ∉ ((w.replaceBooked c h).st.col c).inbound := by
  have left : h ∉ ((w.leaveInbound c h).st.col c).inbound := by simp [Work.leaveInbound_eq]
  obtain ⟨x, hx⟩ := Option.ne_none_iff_exists'.1 hx
  unfold Work.replaceBooked
  simp only [hx]
  split
  · rename_i d hd
    have other := State.ne_of_inService hk (State.inService_of_bookingSet (State.mem_of_best hd))
    simpa [Work.up, State.joinInbound, other] using left
  · simpa using left

theorem Work.sheds_replaceMoving (hk : (w.st.col c).state = .fenced) (h : HNum) :
    (w.st.col c).Sheds ((w.replaceMoving c h).st.col c) := by
  unfold Work.replaceMoving
  split
  · exact .refl _
  · split
    · exact .refl _
    · dsimp only
      split
      · rename_i d hd
        have other := State.ne_of_inService hk (State.mem_movingSet.1 (State.mem_of_best hd)).1
        have left := (w.sheds_leaveInbound c h).trans (Work.sheds_leave _ c fun cl => cl.handover == h)
        refine left.trans (.of_eq ?_)
        split <;> simp [Work.up, Work.join, Work.start, State.joinInbound, other]
      · have left := (w.sheds_leave c fun cl => cl.handover == h).trans (Work.sheds_leaveInbound _ c h)
        exact left.trans (.of_eq (Work.col_handBack ..))

theorem Work.sheds_newTarget (hk : (w.st.col c).state = .fenced) (h : HNum) :
    (w.st.col c).Sheds ((w.newTarget c h).st.col c) := by
  have left := w.sheds_leaveInbound c h
  unfold Work.newTarget
  split
  · exact .refl _
  · split
    · exact .refl _
    · split
      · exact .refl _
      · split
        · rename_i d hd
          have other := State.ne_of_inService hk (State.mem_digSet.1 (State.mem_of_best hd)).1
          refine left.trans (.of_eq ?_)
          simp [Work.up, State.joinInbound, other]
        · exact left.trans (.of_eq (by simp [Work.up]))

/-- What each step does to a FENCED column, all of them do. -/
theorem Work.sheds_foldl {α : Type} {f : Work → α → Work}
    (step : ∀ (w : Work) (a : α), (w.st.col c).state = .fenced → (w.st.col c).Sheds ((f w a).st.col c)) :
    ∀ (l : List α) (w : Work), (w.st.col c).state = .fenced → (w.st.col c).Sheds ((l.foldl f w).st.col c)
  | [], _, _ => .refl _
  | a :: l, w, hk => (step w a hk).trans (Work.sheds_foldl step l (f w a) ((step w a hk).state.trans hk))

/-- Every record that is re-placed or withdrawn has left the inbound set. -/
theorem Work.replaceAllBooked_leaves : ∀ (l : List HNum) (w : Work), (w.st.col c).state = .fenced →
    ∀ h ∈ l, w.st.hand h ≠ none → h ∉ ((l.foldl (fun w h => w.replaceBooked c h) w).st.col c).inbound
  | [], _, _, _, hh, _ => absurd hh (by simp)
  | a :: l, w, hk, h, hh, hx => by
    have fenced : ((w.replaceBooked c a).st.col c).state = .fenced := (Work.sheds_replaceBooked hk a).state.trans hk
    rw [List.foldl_cons]
    by_cases e : h = a
    · subst e
      have rest := Work.sheds_foldl (c := c) (fun w h hk => Work.sheds_replaceBooked hk h) l (w.replaceBooked c h) fenced
      exact fun mem => Work.replaceBooked_leaves hk hx (rest.inbound h mem)
    · refine Work.replaceAllBooked_leaves l _ fenced h (List.mem_of_ne_of_mem e hh) ?_
      rw [Work.othersStand_replaceBooked w c a h e]
      exact hx

end

/-! ### The entry into FENCED (R28) -/

theorem Claim.isRegion_eq (cl : Claim) : cl.isRegion = (cl.kind != .holding) := by
  unfold Claim.isRegion; cases cl.kind <;> rfl

theorem State.inboundIn_eq (s : State) (c : ColIx) (st : HandState) : s.inboundIn c st =
    (s.col c).inbound.filter fun h => (s.hand h).any fun x => x.state == st := by
  unfold State.inboundIn
  congr 1
  funext h
  cases s.hand h <;> rfl

theorem State.shiftingInto_eq (s : State) (c : ColIx) : s.shiftingInto c =
    HNum.all.filter fun h => (s.hand h).any fun x =>
      x.state == .shifting && x.target == some c && x.column != some c := by
  unfold State.shiftingInto
  congr 1
  funext h
  cases s.hand h <;> rfl

/-- The column with its new state, before its promises go. -/
def Work.shut (w : Work) (c : ColIx) (cause : FenceCause) : Work := w.up fun s => s.modCol c fun k =>
  { k with state := .fenced, cause := some cause, fencePending := false, settleTimer := none }

/-- The capture of a fence, for every cause but SUPERVISOR. -/
def Work.captureFence (w : Work) (c : ColIx) (cause : FenceCause) (who : Option (Robot × HNum)) : Work :=
  match cause.errorKind with
  | some e => w.up (·.captureColumn e c who)
  | none => w

/-- The records of a fenced column are re-placed. -/
def Work.replaceAll (w : Work) (c : ColIx) : Work :=
  let w := (w.st.inboundIn c .booked).foldl (fun w h => w.replaceBooked c h) w
  let w := (w.st.inboundIn c .moving).foldl (fun w h => w.replaceMoving c h) w
  (w.st.shiftingInto c).foldl (fun w h => w.newTarget c h) w

theorem Work.enterFenced_eq (w : Work) (c : ColIx) (cause : FenceCause) (who : Option (Robot × HNum)) :
    w.enterFenced c cause who =
      (((((w.shut c cause).captureFence c cause who).dismissRegion c).replaceAll c).up (·.postFence c)).handOccupancy := rfl

section
variable (w : Work) (c : ColIx) (cause : FenceCause) (who : Option (Robot × HNum))

theorem Work.captureFence_frame :
    (w.captureFence c cause who).sel = w.sel ∧ (∀ d, (w.captureFence c cause who).st.col d = w.st.col d) ∧
      ∀ h, (w.captureFence c cause who).st.hand h = w.st.hand h := by
  unfold Work.captureFence
  split
  · exact ⟨rfl, fun d => State.col_capture .., fun h => State.hand_capture ..⟩
  · exact ⟨rfl, fun _ => rfl, fun _ => rfl⟩

theorem State.frame_foldl_dismiss (l : List Claim) (s : State) :
    (∀ d, (l.foldl (fun s cl => s.dismiss cl.handover cl.robot dismissedFenced) s).col d = s.col d) ∧
      ∀ h, (l.foldl (fun s cl => s.dismiss cl.handover cl.robot dismissedFenced) s).hand h = s.hand h :=
  ⟨fun d => foldl_keeps (fun s : State => s.col d) _ (fun _ _ => State.col_dismiss ..) l s,
    fun h => foldl_keeps (fun s : State => s.hand h) _ (fun _ _ => State.hand_dismiss ..) l s⟩

theorem Work.dismissRegion_frame :
    (w.dismissRegion c).st.col c = { w.st.col c with
      waitList := (w.st.col c).waitList.filter fun cl => cl.kind == .holding } ∧
    ∀ h, (w.dismissRegion c).st.hand h = w.st.hand h := by
  have kept : (fun cl : Claim => !cl.isRegion) = fun cl => cl.kind == .holding := by
    funext cl; simp [Claim.isRegion_eq, bne]
  unfold Work.dismissRegion
  simp only [Work.up, State.frame_foldl_dismiss, Work.leave_st, State.col_modCol, State.hand_modCol, if_true, kept,
    implies_true, and_self]

theorem Work.sheds_replaceAll (hk : (w.st.col c).state = .fenced) :
    (w.st.col c).Sheds ((w.replaceAll c).st.col c) ∧
      ∀ h ∈ ((w.replaceAll c).st.col c).inbound, ∀ x, w.st.hand h = some x → x.state ≠ .booked := by
  unfold Work.replaceAll
  extract_lets booked moved
  have first : (w.st.col c).Sheds (booked.st.col c) :=
    Work.sheds_foldl (fun w h hk => Work.sheds_replaceBooked hk h) _ w hk
  have second : (booked.st.col c).Sheds (moved.st.col c) :=
    Work.sheds_foldl (fun w h hk => Work.sheds_replaceMoving hk h) _ booked (first.state.trans hk)
  have third : (moved.st.col c).Sheds
      (((moved.st.shiftingInto c).foldl (fun w h => w.newTarget c h) moved).st.col c) :=
    Work.sheds_foldl (fun w h hk => Work.sheds_newTarget hk h) _ moved ((first.trans second).state.trans hk)
  refine ⟨(first.trans second).trans third, fun h hh x hx hb => ?_⟩
  have listed : h ∈ w.st.inboundIn c .booked := by
    rw [State.inboundIn_eq]
    exact List.mem_filter.2 ⟨((first.trans second).trans third).inbound h hh, by simp [hx, hb]⟩
  exact Work.replaceAllBooked_leaves _ w hk h listed (by simp [hx]) ((second.trans third).inbound h hh)

end

end Sys2Proof.Machine
end
-- ==== Sys2Proof/Proofs/FenceEntry.lean ====
section
/-! The entry of a column into FENCED clears its promises (O27). -/
namespace Sys2Proof.Machine

section
variable (w : Work) (c : ColIx) (cause : FenceCause) (who : Option (Robot × HNum))

theorem Work.dismissRegion_eq : w.dismissRegion c =
    let old := (w.st.col c).waitList
    let kept := old.filter fun cl => cl.kind == .holding
    { st := (old.filter fun cl => cl.kind != .holding).foldl
        (fun s cl => s.post (.region cl.robot.port) (.dismissed cl.handover cl.robot.number 0))
        (w.st.modCol c fun k => { k with waitList := kept })
      sel := if 6 ≤ old.length ∧ kept.length < 6 then ColIx.all ++ w.sel else w.sel } := by
  have goes : Claim.isRegion = fun cl => cl.kind != .holding := funext Claim.isRegion_eq
  have stays : (fun cl : Claim => !cl.isRegion) = fun cl => cl.kind == .holding := by
    funext cl; simp [Claim.isRegion_eq, bne]
  have left : (w.st.modCol c fun k => { k with waitList := k.waitList.filter fun cl => !cl.isRegion }) =
      w.st.modCol c fun k => { k with waitList := (w.st.col c).waitList.filter fun cl => cl.kind == .holding } :=
    State.modCol_congr (by rw [stays])
  unfold Work.dismissRegion
  rw [Work.leave_eq, left, stays, goes]
  rfl

theorem Work.shut_col : (w.shut c cause).st.col c = { w.st.col c with
    state := .fenced, cause := some cause, fencePending := false, settleTimer := none } := by
  simp [Work.shut, Work.up]

theorem Work.captureFence_eq :
    let k := w.st.col c
    let capture (e : ErrorKind) : Work := (w.shut c cause).up fun s => s.capture 6 {
      kind := e, port := who.map fun x => .region x.1.port, robot := who.map fun x => x.1.number
      handover := who.map fun x => x.2, column := some c, time := s.clock
      reading := some (if k.cfg.gaugeMode = .off then 0 else k.reading), stackLen := some k.stack.length }
    (w.shut c cause).captureFence c cause who = match cause with
      | .grantTimeout => capture .grantTimeout
      | .gaugeMismatch => capture .gaugeMismatch
      | .gaugeUnexpected => capture .gaugeUnexpected
      | .gaugeFault => capture .gaugeFault
      | .supervisor => w.shut c cause := by
  have captured (e : ErrorKind) : (w.shut c cause).up (·.captureColumn e c who) = (w.shut c cause).up fun s =>
      s.capture 6 {
        kind := e, port := who.map fun x => .region x.1.port, robot := who.map fun x => x.1.number
        handover := who.map fun x => x.2, column := some c, time := s.clock
        reading := some (if (w.st.col c).cfg.gaugeMode = .off then 0 else (w.st.col c).reading)
        stackLen := some (w.st.col c).stack.length } := by
    simp only [Work.up, State.captureColumn_eq, Work.shut_col]
  unfold Work.captureFence
  cases cause with
  | supervisor => rfl
  | grantTimeout | gaugeMismatch | gaugeUnexpected | gaugeFault => exact captured _

/-- What stands of a column that has entered FENCED. -/
theorem Work.col_enterFenced :
    let k := w.st.col c
    let k' := (w.enterFenced c cause who).st.col c
    k' = { k with state := .fenced, cause := some cause, fencePending := false, settleTimer := none
                  waitList := k'.waitList, inbound := k'.inbound } ∧
    (∀ cl ∈ k'.waitList, cl.kind = .holding ∧ cl ∈ k.waitList) ∧
    ∀ h ∈ k'.inbound, h ∈ k.inbound ∧ ∀ x, w.st.hand h = some x → x.state ≠ .booked := by
  obtain ⟨-, captureCol, captureHand⟩ := (w.shut c cause).captureFence_frame c cause who
  obtain ⟨dismissCol, dismissHand⟩ := ((w.shut c cause).captureFence c cause who).dismissRegion_frame c
  rw [captureCol, Work.shut_col] at dismissCol
  have hand (h : HNum) : (((w.shut c cause).captureFence c cause who).dismissRegion c).st.hand h = w.st.hand h :=
    ((dismissHand h).trans (captureHand h)).trans (by simp [Work.shut, Work.up])
  obtain ⟨sheds, unbooked⟩ := (((w.shut c cause).captureFence c cause who).dismissRegion c).sheds_replaceAll c
    (by rw [dismissCol])
  have column : (w.enterFenced c cause who).st.col c =
      ((((w.shut c cause).captureFence c cause who).dismissRegion c).replaceAll c).st.col c := by
    rw [Work.enterFenced_eq, Work.col_handOccupancy]
    exact State.col_postFence ..
  obtain ⟨kept, waits, inbound⟩ := sheds
  intro k k'
  simp only [k', column]
  refine ⟨kept.trans (by rw [dismissCol]), fun cl hcl => ?_, fun h hh => ⟨?_, fun x hx => ?_⟩⟩
  · have mem := waits cl hcl
    rw [dismissCol] at mem
    obtain ⟨mem, holding⟩ := List.mem_filter.1 mem
    exact ⟨by simpa using holding, mem⟩
  · have mem := inbound h hh
    rw [dismissCol] at mem
    exact mem
  · exact unbooked h hh x (hand h ▸ hx)

end

/-- Settles O27. -/
theorem fencingClearsPromises : Obligations.FencingClearsPromises := by
  intro w c cause who k k'
  obtain ⟨kept, waits, inbound⟩ := w.col_enterFenced c cause who
  refine ⟨⟨?_, ?_, ?_, ?_, ?_, ?_, ?_, ?_, waits, inbound⟩, ?_⟩
  · exact (congrArg Column.state kept :)
  · exact (congrArg Column.cause kept :)
  · exact (congrArg Column.fencePending kept :)
  · exact (congrArg Column.settleTimer kept :)
  · exact (congrArg Column.cfg kept :)
  · exact (congrArg Column.stack kept :)
  · exact (congrArg Column.grant kept :)
  · exact (congrArg Column.reading kept :)
  · intro entered capture captured kept' dismissed among replaced moved aimed
    have captures : (w.shut c cause).captureFence c cause who = captured := w.captureFence_eq c cause who
    have column : captured.st.col c = (w.shut c cause).st.col c :=
      captures ▸ ((w.shut c cause).captureFence_frame c cause who).2.1 c
    have selected : captured.sel = w.sel := captures ▸ ((w.shut c cause).captureFence_frame c cause who).1
    have dismisses : captured.dismissRegion c = dismissed := by
      rw [Work.dismissRegion_eq, column, Work.shut_col, selected]
    have replaces : dismissed.replaceAll c = aimed := by
      unfold Work.replaceAll
      simp only [State.inboundIn_eq, State.shiftingInto_eq]
      rfl
    have steps : w.enterFenced c cause who = (aimed.up (·.postFence c)).handOccupancy := by
      rw [Work.enterFenced_eq, captures, dismisses, replaces]
    have reach : (aimed.st.col c).cfg = k.cfg := by
      have cfg := congrArg Column.cfg kept
      rw [steps, Work.col_handOccupancy] at cfg
      simpa [Work.up] using cfg
    rw [steps]
    simp only [Work.up, State.postFence, reach] <;> rfl

end Sys2Proof.Machine
end
-- ==== Sys2Proof/Proofs/Standing.lean ====
section
/-! A record up to its urgency, its budget and its follower, which charging and renumbering alone change. -/
namespace Sys2Proof.Machine

/-- A record without its urgency, budget and follower. -/
def Handover.standing (x : Handover) : Handover := { x with urgency := 0, budget := none, follower := none }

def State.standing (s : State) (h : HNum) : Option Handover := (s.hand h).map Handover.standing

theorem State.standing_of_hand {s t : State} {i : HNum} (h : t.hand i = s.hand i) : t.standing i = s.standing i :=
  congrArg (Option.map Handover.standing) h

/-- A record is set that differs in urgency, budget or follower alone. -/
theorem State.standing_setHand {s : State} {h : HNum} {x y : Handover} (hx : s.hand h = some x)
    (hy : y.standing = x.standing) (i : HNum) : (s.setHand h (some y)).standing i = s.standing i := by
  unfold State.standing
  rw [State.hand_setHand]
  split
  · rename_i e
    rw [e, hx, Option.map_some, Option.map_some, hy]
  · rfl

@[simp] theorem State.standing_modCol (s : State) (c : ColIx) (f : Column → Column) (i : HNum) :
    (s.modCol c f).standing i = s.standing i := State.standing_of_hand (State.hand_modCol ..)
@[simp] theorem State.standing_post (s : State) (p : Port) (n : Notice) (i : HNum) :
    (s.post p n).standing i = s.standing i := State.standing_of_hand (State.hand_post ..)
@[simp] theorem Work.standing_handOccupancy (w : Work) (i : HNum) : w.handOccupancy.st.standing i = w.st.standing i :=
  State.standing_of_hand (Work.hand_handOccupancy ..)
@[simp] theorem Work.standing_join (w : Work) (c : ColIx) (cl : Claim) (i : HNum) :
    (w.join c cl).st.standing i = w.st.standing i := State.standing_modCol ..
@[simp] theorem Work.standing_leaveInbound (w : Work) (c : ColIx) (h i : HNum) :
    (w.leaveInbound c h).st.standing i = w.st.standing i := State.standing_modCol ..

@[simp] theorem State.standing_advanceStamp (s : State) (i : HNum) : s.advanceStamp.standing i = s.standing i := by
  unfold State.advanceStamp
  split
  · unfold State.standing
    rw [State.hand_renumber]
    cases s.hand i <;> rfl
  · rfl

@[simp] theorem Work.standing_joinNew (w : Work) (c : ColIx) (rb : Robot) (k : ClaimKind) (h i : HNum) :
    (w.joinNew c rb k h).st.standing i = w.st.standing i :=
  (State.standing_advanceStamp _ i).trans (Work.standing_join w c _ i)

@[simp] theorem Work.standing_raiseUrgency (w : Work) (h : HNum) (u : Nat) (i : HNum) :
    (w.raiseUrgency h u).st.standing i = w.st.standing i := by
  unfold Work.raiseUrgency
  split
  · rfl
  · rename_i x hx
    split
    · dsimp only
      split <;> exact State.standing_setHand hx (by exact rfl) i
    · rfl

@[simp] theorem Work.standing_takeWarning (w : Work) (h i : HNum) :
    (w.takeWarning h).st.standing i = w.st.standing i := by
  unfold Work.takeWarning
  split
  · rfl
  · rename_i x hx
    dsimp only [Work.up]
    rw [State.standing_post, Work.standing_raiseUrgency]
    dsimp only
    rw [State.modHand_of_some hx]
    exact State.standing_setHand hx (by exact rfl) i

@[simp] theorem Work.standing_judgeCharging (w : Work) (h i : HNum) :
    (w.judgeCharging h).st.standing i = w.st.standing i := by
  unfold Work.judgeCharging
  split
  · rfl
  · rename_i x hx
    split
    · rfl
    · dsimp only
      split
      · split
        · rw [Work.standing_takeWarning]
          exact State.standing_setHand hx (by exact rfl) i
        · exact State.standing_setHand hx (by exact rfl) i
      · exact State.standing_setHand hx (by exact rfl) i
      · rfl

/-- A record that is changed stands as its new fields say. -/
theorem Work.standing_change {w : Work} {h : HNum} {x : Handover} (hx : w.st.hand h = some x)
    (f : Handover → Handover) : (w.change h f).st.standing h = some (f x).standing := by
  rw [Work.change_eq hx, Work.standing_judgeCharging]
  simp [State.standing, Work.up]

theorem State.exists_of_standing {s : State} {h : HNum} {x : Handover} (e : s.standing h = some x.standing) :
    ∃ y, s.hand h = some y ∧ y.state = x.state ∧ y.column = x.column := by
  obtain ⟨y, hy, e⟩ := Option.map_eq_some_iff.1 e
  have state : y.standing.state = x.standing.state := congrArg Handover.state e
  have column : y.standing.column = x.standing.column := congrArg Handover.column e
  exact ⟨y, hy, state, column⟩

theorem State.stateByte_of_standing {s : State} {h : HNum} {x : Handover} (e : s.standing h = some x.standing) :
    s.stateByte h = x.state.code := by
  obtain ⟨y, hy, hs, -⟩ := State.exists_of_standing e
  simp [State.stateByte, hy, hs]

end Sys2Proof.Machine
end
-- ==== Sys2Proof/Proofs/Reports.lean ====
section
/-! The tests of a completion report, and the reports LANDED and RELEASE on time (O29, O30, O32). -/
namespace Sys2Proof.Machine

/-! ### Which grant or doubt a report reaches (R80) -/

section
variable {s : State} {rb : Robot} {h : HNum} {x : Handover} {c : ColIx} {g : Grant}

theorem State.grantOf_of_grantedTo (hg : s.grantedTo c g rb h) : s.grantOf rb h = some (c, g) := by
  obtain ⟨grant, robot, record, unique⟩ := hg
  unfold State.grantOf
  obtain ⟨before, after, all⟩ := List.append_of_mem (ColIx.mem_all c)
  have earlier : c ∉ before := by
    have nodup := ColIx.nodup_all
    rw [all] at nodup
    exact fun mem => (List.nodup_append.1 nodup).2.2 c mem c List.mem_cons_self rfl
  refine List.findSome?_eq_some_iff.2 ⟨before, c, after, all, by simp [grant, robot, record], fun e he => ?_⟩
  cases hg : (s.col e).grant with
  | none => rfl
  | some g' =>
    have other : ¬ (g'.claim.robot = rb ∧ g'.record = h) := fun both =>
      earlier (unique e g' (by simp [hg]) both.1 both.2 ▸ he)
    simp [other]

theorem State.grantOf_of_noGrantTo (hg : s.noGrantTo rb h) : s.grantOf rb h = none := by
  unfold State.grantOf
  refine List.findSome?_eq_none_iff.2 fun c _ => ?_
  cases hc : (s.col c).grant with
  | none => rfl
  | some g =>
    have other : ¬ (g.claim.robot = rb ∧ g.record = h) := fun both => hg c g (by simp [hc]) both.1 both.2
    simp [other]

theorem State.matchReport_on_time (hg : s.grantedTo c g rb h) :
    s.matchReport rb h x = some { column := c, op := g.op.kind, grant := some g } := by
  simp only [State.matchReport, State.grantOf_of_grantedTo hg]

theorem State.matchReport_late {d : Doubt} (hg : s.noGrantTo rb h) (hs : x.state = .doubt) (hd : x.doubt = some d)
    (hr : d.robot = rb) (hc : x.column = some c) :
    s.matchReport rb h x = some { column := c, op := d.op, grant := none } := by
  simp only [State.matchReport, State.grantOf_of_noGrantTo hg, hs, hd, hc, hr, if_true]

theorem State.matchReport_none (hg : s.noGrantTo rb h) (hx : x.state ≠ .doubt ∨ ∀ d ∈ x.doubt, d.robot ≠ rb) :
    s.matchReport rb h x = none := by
  simp only [State.matchReport, State.grantOf_of_noGrantTo hg]
  split
  · rename_i d c hs hd hc
    exact if_neg (hx.resolve_left (not_not.2 hs) d (by simp [hd]))
  · rfl

end

/-! ### The tests in order -/

section
variable {apply : State → Region → Robot → HNum → Handover → Matched → Option (Work × List Byte)} {t : State} {r : Region}
  {n robot : Byte} {h : HNum} {x : Handover}

theorem reportOwner_badField {b : Byte} (hb : 31 < b) :
    reportOwner apply r [n, robot, b] t = t.refuse .badField [] := by
  have outside : Byte.below 32 b = none := Byte.below_of_le (by bv_omega)
  simp [reportOwner, outside]

theorem reportOwner_free (hx : t.hand h = none) : reportOwner apply r [n, robot, byte h.val] t =
    (t.captureReport .staleReport ⟨r, robot⟩ h).refuse .stale [] := by
  simp [reportOwner, Byte.below_byte (n := 32) (by decide) h, hx]

theorem reportOwner_closing (hx : t.hand h = some x) (hs : x.state = .closing) :
    reportOwner apply r [n, robot, byte h.val] t = (t.captureReport .staleReport ⟨r, robot⟩ h).refuse .stale [] := by
  simp [reportOwner, Byte.below_byte (n := 32) (by decide) h, hx, hs]

theorem reportOwner_notGranted (hx : t.hand h = some x) (hs : x.state ≠ .closing)
    (hm : t.matchReport ⟨r, robot⟩ h x = none) : reportOwner apply r [n, robot, byte h.val] t =
      (t.captureReport .notGranted ⟨r, robot⟩ h).refuse .notGranted [] := by
  simp [reportOwner, Byte.below_byte (n := 32) (by decide) h, hx, hs, hm]

variable {m : Matched} (hx : t.hand h = some x) (hs : x.state ≠ .closing) (hm : t.matchReport ⟨r, robot⟩ h x = some m)
include hx hs hm

theorem reportOwner_badState (ha : apply t r ⟨r, robot⟩ h x m = none) :
    reportOwner apply r [n, robot, byte h.val] t = t.refuse .badState [] := by
  simp [reportOwner, Byte.below_byte (n := 32) (by decide) h, hx, hs, hm, ha]

theorem reportOwner_taken {w : Work} {data : List Byte} (ha : apply t r ⟨r, robot⟩ h x m = some (w, data)) :
    reportOwner apply r [n, robot, byte h.val] t = { work := w, result := m.result, data := data } := by
  simp [reportOwner, Byte.below_byte (n := 32) (by decide) h, hx, hs, hm, ha]

end

/-- What each report does once it has reached a grant or a doubt. -/
def RequestKind.report : RequestKind → State → Region → Robot → HNum → Handover → Matched → Option (Work × List Byte)
  | .landed => applyLanded
  | .lifted => applyLifted
  | .release => applyRelease
  | _ => fun _ _ _ _ _ _ => none

/-- The three completion reports. -/
def RequestKind.isReport (k : RequestKind) : Prop := k = .landed ∨ k = .lifted ∨ k = .release

section
variable {k : RequestKind} {s : State} {r : Region} {body : List Byte} {n robot b : Byte}

/-- An offered report is answered as its tests say. -/
theorem exec_report (hk : k.isReport) (offered : s.offers (.region r) k [n, robot, b]) (on : s.regionOn r) {y : Reply}
    (e : reportOwner k.report r [n, robot, b] (s.dropRequest (.region r)) = y) :
    exec (k.command (.region r)) s = .next (y.work.finish.answered (.region r) k [n, robot, b] y.result y.data) := by
  have enabled := State.portOff_regionOn on
  rcases hk with rfl | rfl | rfl <;> exact exec_offered offered rfl rfl (.inl enabled) e

theorem exec_report_refused (hk : k.isReport) (offered : s.offers (.region r) k [n, robot, b]) (on : s.regionOn r)
    {t : State} {why : Result}
    (e : reportOwner k.report r [n, robot, b] (s.dropRequest (.region r)) = t.refuse why []) :
    exec (k.command (.region r)) s = .next (t.answered (.region r) k [n, robot, b] why []) := by
  rw [exec_report hk offered on e, State.refuse, State.begin_finish]

end

/-- LANDED fits neither lift nor shift, LIFTED neither deposit nor holding landing (R80). -/
theorem report_unfit {k : RequestKind} {m : Matched}
    (h : k = .landed ∧ (m.op = .lift ∨ m.op = .shift) ∨ k = .lifted ∧ (m.op = .deposit ∨ m.op = .holding))
    (t : State) (r : Region) (rb : Robot) (i : HNum) (x : Handover) : k.report t r rb i x m = none := by
  rcases h with ⟨rfl, e | e⟩ | ⟨rfl, e | e⟩ <;> simp [RequestKind.report, applyLanded, applyLifted, e]

/-- Settles O29. -/
theorem reportRefusals : Obligations.ReportRefusals := by
  intro s r n robot b k hk p body refused offered on
  have report : k.isReport := by simpa [RequestKind.isReport] using hk
  have refusal {t : State} {why : Result}
      (e : reportOwner k.report r [n, robot, b] (s.dropRequest p) = t.refuse why []) :
      exec (k.command p) s = .next (t.answered p k body why []) := exec_report_refused report offered on e
  refine ⟨fun hb => refusal (reportOwner_badField hb), fun h hb => ?_⟩
  subst hb
  intro captured
  refine ⟨fun hx => refusal (reportOwner_free hx), fun x hx => ⟨fun hs => refusal (reportOwner_closing hx hs),
    fun hs hg hd => ?_, fun c g hs hg unfit => ?_, fun c d hs hd hr hc hg unfit => ?_⟩⟩
  · exact refusal (reportOwner_notGranted hx hs (State.matchReport_none (s := s.dropRequest p) hg hd))
  · exact refusal (reportOwner_badState hx hs (State.matchReport_on_time (s := s.dropRequest p) hg)
      (report_unfit unfit ..))
  · exact refusal (reportOwner_badState hx (by simp [hs])
      (State.matchReport_late (s := s.dropRequest p) hg hs hd hr hc) (report_unfit unfit ..))

end Sys2Proof.Machine
end
-- ==== Sys2Proof/Proofs/ReportsOnTime.lean ====
section
/-! LANDED and RELEASE, on time (O30, O32). -/
namespace Sys2Proof.Machine

/-- A report that passes the tests is answered with what it does. -/
theorem exec_report_taken {k : RequestKind} {s : State} {r : Region} {n robot : Byte} {h : HNum} {x : Handover}
    {m : Matched} {w : Work} {data : List Byte} (hk : k.isReport)
    (offered : s.offers (.region r) k [n, robot, byte h.val]) (on : s.regionOn r) (hx : s.hand h = some x)
    (hs : x.state ≠ .closing) (hm : (s.dropRequest (.region r)).matchReport ⟨r, robot⟩ h x = some m)
    (ha : k.report (s.dropRequest (.region r)) r ⟨r, robot⟩ h x m = some (w, data)) :
    exec (k.command (.region r)) s =
      .next (w.finish.answered (.region r) k [n, robot, byte h.val] m.result data) :=
  exec_report hk offered on (reportOwner_taken (t := s.dropRequest (.region r)) hx hs hm ha)

/-! ### LANDED (R81, R82) -/

theorem Work.stack_settleFollower (w : Work) (c : ColIx) (h : HNum) (d : ColIx) :
    ((w.settleFollower c h).st.col d).stack = (w.st.col d).stack := by
  unfold Work.settleFollower
  split
  · rfl
  · split
    · rfl
    · dsimp only
      split
      · simp [Work.up]
      · split
        · simp [Work.up]
        · simp only [Work.join, Work.start, Work.up, State.col_modCol]
          split <;> rename_i e
          · rw [e]; rfl
          · rfl

section
variable {t : State} {c : ColIx} {h : HNum} {x : Handover} (hx : t.hand h = some x)
include hx

/-- The record is STORED on top of the stack. -/
theorem landDeposit_eq : landDeposit t c h x = Work.judgeCharging {
    st := ((t.modCol c fun k => { k with inbound := k.inbound.filter fun i => i != h, stack := k.stack ++ [h] }).setHand h
      (some { x with state := .stored, doubt := none })).post (.region x.dest) (.ready h)
    sel := [] } h := by
  simp only [landDeposit, Work.up, State.begin, State.land]
  rw [State.modHand_of_some (r := x) (by simpa using hx)]

theorem landHolding_eq : landHolding t c h x = (Work.settleFollower {
    st := ((t.modCol c fun k => { k with inbound := k.inbound.filter fun i => i != h, stack := k.stack ++ [h] }).setHand h
      (some { x with state := .stored, doubt := none, holder := none })).post (.region x.dest) (.moved h)
    sel := [] } c h).judgeCharging h := by
  simp only [landHolding, Work.up, State.begin, State.land]
  rw [State.modHand_of_some (r := x) (by simpa using hx)]

theorem length_stack_landDeposit : ((landDeposit t c h x).st.col c).stack.length = (t.col c).stack.length + 1 := by
  rw [landDeposit_eq hx]
  simp

theorem length_stack_landHolding : ((landHolding t c h x).st.col c).stack.length = (t.col c).stack.length + 1 := by
  rw [landHolding_eq hx, Work.col_judgeCharging, Work.stack_settleFollower]
  simp

end

theorem applyLanded_deposit {t : State} {r : Region} {rb : Robot} {h : HNum} {x : Handover} {m : Matched}
    (hx : t.hand h = some x) (hm : m.op = .deposit) : applyLanded t r rb h x m =
      some ((landDeposit t m.column h x).endGrant m,
        [byte h.val, byte (t.ports[r].toLocal m.column), byte ((t.col m.column).stack.length + 1)]) := by
  simp only [applyLanded, hm, length_stack_landDeposit hx] <;> rfl

theorem applyLanded_holding {t : State} {r : Region} {rb : Robot} {h : HNum} {x : Handover} {m : Matched}
    (hx : t.hand h = some x) (hm : m.op = .holding) : applyLanded t r rb h x m =
      some ((landHolding t m.column h x).endGrant m,
        [byte h.val, byte (t.ports[r].toLocal m.column), byte ((t.col m.column).stack.length + 1)]) := by
  simp only [applyLanded, hm, length_stack_landHolding hx] <;> rfl

/-- Settles O30. -/
theorem landedStoresTheBin : Obligations.LandedStoresTheBin := by
  intro s r n robot h x c g p body data landed offered on hx hs hg
  have matched := State.matchReport_on_time (s := s.dropRequest p) (x := x) hg
  have taken {w : Work} {data : List Byte} (e : applyLanded (s.dropRequest p) r ⟨r, robot⟩ h x
      { column := c, op := g.op.kind, grant := some g } = some (w, data)) :
      exec (.landed p) s = .next (w.finish.answered p .landed body .ok data) :=
    exec_report_taken (k := .landed) (.inl rfl) offered on hx hs matched e
  refine ⟨fun hop => ?_, fun hop => ?_⟩
  · refine (taken (applyLanded_deposit (t := s.dropRequest p) hx (by simp [hop, Operation.kind]))).trans ?_
    rw [landDeposit_eq (t := s.dropRequest p) hx]
    rfl
  · refine (taken (applyLanded_holding (t := s.dropRequest p) hx (by simp [hop, Operation.kind]))).trans ?_
    rw [landHolding_eq (t := s.dropRequest p) hx]
    rfl

/-! ### RELEASE (R86) -/

theorem State.modHand_modHand (s : State) (h : HNum) (f g : Handover → Handover) :
    (s.modHand h f).modHand h g = s.modHand h fun x => g (f x) := by
  unfold State.modHand
  rw [State.setHand_setHand, State.hand_setHand, if_pos rfl, Option.map_map]
  rfl

theorem Work.dropTarget_of_none {w : Work} {h : HNum} {x : Handover} (hx : w.st.hand h = some x) (ht : x.target = none) :
    w.dropTarget h = w := by
  simp only [Work.dropTarget, hx, ht]

theorem Work.dropTarget_of_some {w : Work} {h : HNum} {x : Handover} {t : ColIx} (hx : w.st.hand h = some x)
    (ht : x.target = some t) :
    w.dropTarget h = (w.leaveInbound t h).up (·.modHand h fun r => { r with target := none }) := by
  simp only [Work.dropTarget, hx, ht]

theorem Work.putBack_of_none {w : Work} {h : HNum} {x : Handover} (hx : w.st.hand h = some x) (ht : x.target = none) :
    w.putBack h = w.change h fun r => { r with state := .stored, doubt := none } := by
  rw [Work.putBack, Work.dropTarget_of_none hx ht]

/-- The place in the target's inbound set is given up with the target. -/
theorem Work.putBack_of_some {w : Work} {h : HNum} {x : Handover} {t : ColIx} (hx : w.st.hand h = some x)
    (ht : x.target = some t) :
    w.putBack h = (w.leaveInbound t h).change h fun r => { r with state := .stored, doubt := none, target := none } := by
  rw [Work.putBack, Work.dropTarget_of_some hx ht]
  simp only [Work.change, Work.up, State.modHand_modHand]

/-- The ports to which a handed back bin is owed are never none. -/
theorem RegionSet.two_ne_zero (a b : Region) : RegionSet.single a ||| RegionSet.single b ≠ 0 := by
  revert a b; decide

/-- A bin that is handed back is CLOSING, or FREE with the notice's level at 0. -/
theorem Work.hand_handBack {w : Work} {h : HNum} {x : Handover} (hx : w.st.hand h = some x) (c : ColIx) (rb : Robot) :
    (w.st.level .handedBack = 0 → (w.handBack h c rb).st.hand h = none) ∧
      (w.st.level .handedBack ≠ 0 → ∃ y, (w.handBack h c rb).st.hand h = some y ∧ y.state = .closing) := by
  rw [Work.handBack_eq hx]
  refine ⟨fun hl => ?_, fun hl => ?_⟩
  · rw [Work.close_frees hx _ (n := .handedBack h x.bin rb) (.inl hl)]
    simp [Work.up, State.captureColumn]
  · rw [Work.close_waits hx _ (n := .handedBack h x.bin rb) hl (RegionSet.two_ne_zero _ _)]
    simp [Work.up, State.captureColumn]

theorem Work.stateByte_change {w : Work} {h : HNum} {x : Handover} (hx : w.st.hand h = some x)
    (f : Handover → Handover) : (w.change h f).st.stateByte h = (f x).state.code :=
  State.stateByte_of_standing (Work.standing_change hx f)

theorem Work.stateByte_join (w : Work) (c : ColIx) (cl : Claim) (h : HNum) :
    (w.join c cl).st.stateByte h = w.st.stateByte h := rfl

theorem Work.stateByte_handBack {w : Work} {h : HNum} {x : Handover} (hx : w.st.hand h = some x) (c : ColIx) (rb : Robot) :
    (w.handBack h c rb).st.stateByte h = if w.st.level .handedBack = 0 then 0 else 8 := by
  obtain ⟨free, waits⟩ := Work.hand_handBack hx c rb
  by_cases hl : w.st.level .handedBack = 0
  · rw [if_pos hl, State.stateByte, free hl]
  · obtain ⟨y, hy, closing⟩ := waits hl
    rw [if_neg hl, State.stateByte, hy]
    exact congrArg HandState.code closing

theorem Work.stateByte_handOccupancy (w : Work) (h : HNum) : w.handOccupancy.st.stateByte h = w.st.stateByte h := by
  unfold State.stateByte
  rw [Work.hand_handOccupancy]

section
variable {w : Work} {c : ColIx} {h : HNum} {x : Handover} {cl : Claim}

theorem Work.releaseHolding_joins (room : (w.st.col c).waitList.length < 6) :
    w.releaseHolding c h x cl = (w.setMoving h).join c cl := by
  rw [Work.releaseHolding, if_pos (show _ < Config.waitRoom from room)]

theorem Work.releaseHolding_moves {d : ColIx} (full : 6 ≤ (w.st.col c).waitList.length)
    (hd : w.st.best x.due x.cls (w.st.movingSet cl.robot.port x.dest) = some d) :
    w.releaseHolding c h x cl =
      ((((w.setMoving h).leaveInbound c h).up (·.joinInbound d h)).change h fun r => { r with column := some d }).join d cl := by
  rw [Work.releaseHolding, if_neg (show ¬ _ < Config.waitRoom from Nat.not_lt.2 full), hd]

theorem Work.releaseHolding_handsBack (full : 6 ≤ (w.st.col c).waitList.length)
    (hd : w.st.best x.due x.cls (w.st.movingSet cl.robot.port x.dest) = none) :
    w.releaseHolding c h x cl = (w.leaveInbound c h).handBack h c cl.robot := by
  rw [Work.releaseHolding, if_neg (show ¬ _ < Config.waitRoom from Nat.not_lt.2 full), hd]

end

/-- Settles O32. -/
theorem releaseReversesTheGrant : Obligations.ReleaseReversesTheGrant := by
  intro s r n robot h x c g p body taken ended moving offered on hx hs hg
  have matched := State.matchReport_on_time (s := s.dropRequest p) (x := x) hg
  have released {w : Work} {code : Byte} (e : applyRelease (s.dropRequest p) r ⟨r, robot⟩ h x
      { column := c, op := g.op.kind, grant := some g } = some (w.completeGrant c, [byte h.val, code])) : ended w code :=
    exec_report_taken (k := .release) (.inr (.inr rfl)) offered on hx hs matched e
  have put {t : State} {v : Work} (hv : v.st.hand h = some x) (f : Handover → Handover) (hf : (f x).state = .stored) :
      (v.change h f).st.stateByte h = 3 := by rw [Work.stateByte_change hv, hf]; rfl
  refine ⟨fun hop => released ?_, fun hop ht => released ?_, fun hop ht => released ?_, fun t hop ht => released ?_,
    fun hop room => released ?_, fun d hop full hd => released ?_, fun hop full hd => released ?_⟩
  · have code := Work.stateByte_change (w := taken) hx fun x =>
      { x with state := .booked, doubt := none, bookingTimer := some s.limits.booking }
    simp only [applyRelease, hop, Operation.kind]
    exact congrArg (fun b => some (_, [byte h.val, b])) code
  · simp only [applyRelease, hop, Operation.kind]
    rw [Work.putBack_of_none (w := (s.dropRequest p).begin) hx ht, Work.stateByte_change (w := (s.dropRequest p).begin) hx]
    rfl
  · simp only [applyRelease, hop]
    rw [Work.putBack_of_none (w := (s.dropRequest p).begin) hx ht, Work.stateByte_handOccupancy,
      Work.stateByte_change (w := (s.dropRequest p).begin) hx]
    rfl
  · simp only [applyRelease, hop]
    have stays : ((s.dropRequest p).begin.leaveInbound t h).st.hand h = some x := hx
    rw [Work.putBack_of_some (w := (s.dropRequest p).begin) hx ht, Work.stateByte_handOccupancy,
      Work.stateByte_change stays]
    rfl
  · simp only [applyRelease, hop, Operation.kind]
    rw [Work.releaseHolding_joins (w := (s.dropRequest p).begin) room, Work.stateByte_handOccupancy,
      Work.stateByte_join, Work.setMoving, Work.stateByte_change (w := (s.dropRequest p).begin) hx]
    rfl
  · simp only [applyRelease, hop, Operation.kind]
    obtain ⟨y, hy, moves, -⟩ := State.exists_of_standing
      (Work.standing_change (w := taken) hx fun x => { x with state := .moving, doubt := none })
    have stays : ((((s.dropRequest p).begin.setMoving h).leaveInbound c h).up (·.joinInbound d h)).st.hand h = some y := hy
    rw [Work.releaseHolding_moves (w := (s.dropRequest p).begin) full hd, Work.stateByte_handOccupancy,
      Work.stateByte_join, Work.stateByte_change stays, moves]
    rfl
  · simp only [applyRelease, hop, Operation.kind]
    rw [Work.releaseHolding_handsBack (w := (s.dropRequest p).begin) full hd, Work.stateByte_handOccupancy,
      Work.stateByte_handBack (w := (s.dropRequest p).begin.leaveInbound c h) (x := x) hx]
    rfl

end Sys2Proof.Machine
end
-- ==== Sys2Proof/Proofs/Lifting.lean ====
section
/-! LIFTED on time (O31), and what a late report shares with it. -/
namespace Sys2Proof.Machine

/-! ### The follower of a shifted record (R84, R92) -/

theorem Work.makeFollower_of_none {w : Work} {c : ColIx} {k : HNum}
    (h : ∀ cl ∈ (w.st.col c).waitList, cl.kind = .lift → cl.handover ≠ k) : w.makeFollower c k = w := by
  have search : ((w.st.col c).waitList.find? fun cl => cl.handover == k && cl.kind == .lift) = none :=
    List.find?_eq_none.2 fun cl hcl both => by
      simp only [Bool.and_eq_true, beq_iff_eq] at both
      exact h cl hcl both.2 both.1
  simp only [Work.makeFollower, search]

theorem Work.makeFollower_of_some {w : Work} {c : ColIx} {k : HNum} {x : Handover} {cl : Claim}
    (hx : w.st.hand k = some x) (hcl : cl ∈ (w.st.col c).waitList) (hk : cl.kind = .lift) (hh : cl.handover = k)
    (one : ∀ y ∈ (w.st.col c).waitList, y.kind = .lift → y.handover = k → y = cl) :
    let others := (w.st.col c).waitList.filter fun y => y != cl
    w.makeFollower c k = {
      st := (w.st.modCol c fun k => { k with waitList := others }).setHand k
        (some { x with follower := some { robot := cl.robot, stamp := cl.stamp } })
      sel := if 6 ≤ (w.st.col c).waitList.length ∧ others.length < 6 then ColIx.all ++ w.sel else w.sel } := by
  intro others
  have search : ((w.st.col c).waitList.find? fun cl => cl.handover == k && cl.kind == .lift) = some cl := by
    refine find?_eq_some_of_unique hcl (by simp [hk, hh]) fun y hy both => ?_
    simp only [Bool.and_eq_true, beq_iff_eq] at both
    exact one y hy both.2 both.1
  simp only [Work.makeFollower, search, Work.leave_eq, Work.up]
  rw [State.modHand_of_some (r := x) (by simpa using hx)]
  congr 2

/-- A follower leaves the record standing, and every column's state. -/
theorem Work.standing_makeFollower (w : Work) (c : ColIx) (k i : HNum) :
    (w.makeFollower c k).st.standing i = w.st.standing i := by
  unfold Work.makeFollower
  split
  · rfl
  · rename_i cl _
    have left : (w.leave c (· == cl)).st.standing i = w.st.standing i := by
      rw [Work.leave_st, State.standing_modCol]
    refine Eq.trans ?_ left
    dsimp only [Work.up]
    cases hx : (w.leave c (· == cl)).st.hand k with
    | none => rw [State.modHand_of_none hx]
    | some x =>
      rw [State.modHand_of_some hx]
      exact State.standing_setHand hx (by exact rfl) i

/-! ### The answer of a LIFTED on a SHIFT (R84) -/

section
variable {s : State} {f : PortConfig} {k : HNum}

theorem shiftAnswer_of_moving {x : Handover} {d : ColIx} (hx : s.hand k = some x) (hs : x.state = .moving)
    (hd : x.column = some d) : shiftAnswer s f k = [byte (f.toLocal d), Config.liftedOutcome true] := by
  simp only [shiftAnswer, hx, hs, hd, if_true] <;> rfl

theorem shiftAnswer_of_not_moving (h : ∀ x ∈ s.hand k, x.state ≠ .moving) :
    shiftAnswer s f k = [0xFF, Config.liftedOutcome false] := by
  unfold shiftAnswer
  split
  · rename_i x hx
    rw [if_neg (h x hx)] <;> rfl
  · rfl

theorem shiftAnswer_of_standing {x : Handover} {d : ColIx} (e : s.standing k = some x.standing) (hs : x.state = .moving)
    (hd : x.column = some d) : shiftAnswer s f k = [byte (f.toLocal d), Config.liftedOutcome true] := by
  obtain ⟨y, hy, state, column⟩ := State.exists_of_standing e
  exact shiftAnswer_of_moving hy (state.trans hs) (column.trans hd)

end

/-! ### The receiving column (R85) -/

/-- The record goes MOVING to column `d` with a HOLDING claim, of the stamp of the claim that ends or of the next one. -/
def Work.takeUp (w : Work) (k : HNum) (rb : Robot) (g : Option Grant) (d : ColIx) : Work :=
  let w := w.change k fun r =>
    { r with state := .moving, holder := some rb, doubt := none, column := some d, target := none }
  match g with
  | some g => w.join d { robot := rb, kind := .holding, handover := k, stamp := g.claim.stamp, blocked := false }
  | none => w.joinNew d rb .holding k

/-- The record has left the top of its source, with its follower. -/
def State.liftedOut (s : State) (source : ColIx) (k : HNum) : Work := (s.begin.liftTop source).makeFollower source k

theorem State.begin_liftTop (s : State) (c : ColIx) : s.begin.liftTop c =
    { st := s.modCol c fun k => { k with stack := k.stack.dropLast }, sel := ColIx.all } := by
  simp [Work.liftTop, Work.startAll, Work.up, State.begin]

theorem State.state_col_restamp (s : State) (c : ColIx) : (s.advanceStamp.col c).state = (s.col c).state := by
  unfold State.advanceStamp
  split
  · rw [State.col_renumber]; rfl
  · rfl

theorem Work.state_takeUp (w : Work) (k : HNum) (rb : Robot) (g : Option Grant) (d e : ColIx) :
    ((w.takeUp k rb g d).st.col e).state = (w.st.col e).state := by
  have joined (v : Work) (cl : Claim) : ((v.join d cl).st.col e).state = (v.st.col e).state := by
    simp only [Work.join, Work.start, Work.up, State.col_modCol]
    split
    · rename_i same; rw [same]
    · rfl
  unfold Work.takeUp
  cases g with
  | some g => simp only [joined, Work.col_change]
  | none => simp only [Work.joinNew, Work.up, State.state_col_restamp, joined, Work.col_change]

/-- The record is MOVING in column `d`. -/
theorem Work.standing_takeUp {w : Work} {k : HNum} {x : Handover} (hx : w.st.hand k = some x) (rb : Robot)
    (g : Option Grant) (d : ColIx) : (w.takeUp k rb g d).st.standing k =
      some { x with state := .moving, holder := some rb, doubt := none, column := some d, target := none }.standing := by
  have changed := Work.standing_change hx fun r =>
    { r with state := .moving, holder := some rb, doubt := none, column := some d, target := none }
  unfold Work.takeUp
  cases g with
  | some g => simp only [Work.standing_join, changed]
  | none => simp only [Work.standing_joinNew, changed]

section
variable {s : State} {c : ColIx} {k : HNum} {rb : Robot} {x : Handover} {g : Option Grant}

/-- The target that is held receives the record when it is in service and its list has room. -/
theorem liftShift_held {t : ColIx} (ht : x.target = some t) (room : ((s.liftedOut c k).st.col t).waitList.length < 6)
    (hf : ((s.liftedOut c k).st.col t).state ≠ .fenced) :
    liftShift s c k rb x g = ((s.liftedOut c k).takeUp k rb g t).handOccupancy := by
  have received : (s.liftedOut c k).receiveShift k x c rb.port = (s.liftedOut c k, some t) := by
    simp only [Work.receiveShift, ht]
    rw [if_pos (.inl room)]
  have open' : (((s.liftedOut c k).takeUp k rb g t).st.col t).state ≠ .fenced := by rwa [Work.state_takeUp]
  unfold liftShift
  simp only [State.liftedOut] at received
  simp only [received]
  exact congrArg Work.handOccupancy (if_neg open')

/-- Going to a FENCED target it is re-placed or handed back in the same step. -/
theorem liftShift_fenced {t : ColIx} (ht : x.target = some t) (hf : ((s.liftedOut c k).st.col t).state = .fenced) :
    liftShift s c k rb x g = (((s.liftedOut c k).takeUp k rb g t).replaceMoving t k).handOccupancy := by
  have received : (s.liftedOut c k).receiveShift k x c rb.port = (s.liftedOut c k, some t) := by
    simp only [Work.receiveShift, ht]
    rw [if_pos (.inr hf)]
  have shut : (((s.liftedOut c k).takeUp k rb g t).st.col t).state = .fenced := by rwa [Work.state_takeUp]
  unfold liftShift
  simp only [State.liftedOut] at received
  simp only [received]
  exact congrArg Work.handOccupancy (if_pos shut)

/-- The place in the inbound set of a target that does not receive the record is given up. -/
def Work.unaimed (w : Work) (x : Handover) (k : HNum) : Work :=
  match x.target with
  | some t => w.leaveInbound t k
  | none => w

variable (without : ∀ t ∈ x.target,
  6 ≤ ((s.liftedOut c k).st.col t).waitList.length ∧ ((s.liftedOut c k).st.col t).state ≠ .fenced)
include without

theorem Work.receiveShift_fresh : (s.liftedOut c k).receiveShift k x c rb.port =
    match ((s.liftedOut c k).unaimed x k).st.digTarget x rb.port c with
    | some d => (((s.liftedOut c k).unaimed x k).up (·.joinInbound d k), some d)
    | none => ((s.liftedOut c k).unaimed x k, none) := by
  unfold Work.receiveShift Work.unaimed
  cases ht : x.target with
  | none => rfl
  | some t =>
    obtain ⟨full, hf⟩ := without t (by simp [ht])
    exact if_neg (not_or.2 ⟨Nat.not_lt.2 full, hf⟩)

theorem liftShift_fresh {d : ColIx} (hd : ((s.liftedOut c k).unaimed x k).st.digTarget x rb.port c = some d) :
    liftShift s c k rb x g =
      ((((s.liftedOut c k).unaimed x k).up (·.joinInbound d k)).takeUp k rb g d).handOccupancy := by
  have received := Work.receiveShift_fresh (rb := rb) without
  rw [hd] at received
  have service := (State.mem_digSet.1 (State.mem_of_best hd)).1
  have open' : ((((((s.liftedOut c k).unaimed x k).up (·.joinInbound d k)).takeUp k rb g d)).st.col d).state ≠ .fenced := by
    rw [Work.state_takeUp]
    intro e
    simp [Work.up, State.joinInbound] at e
    simp [e] at service
  unfold liftShift
  simp only [State.liftedOut] at received
  simp only [received]
  exact congrArg Work.handOccupancy (if_neg open')

theorem liftShift_handsBack (hd : ((s.liftedOut c k).unaimed x k).st.digTarget x rb.port c = none) :
    liftShift s c k rb x g = (((s.liftedOut c k).unaimed x k).handBack k c rb).handOccupancy := by
  have received := Work.receiveShift_fresh (rb := rb) without
  rw [hd] at received
  unfold liftShift
  simp only [State.liftedOut] at received
  simp only [received]
  rfl

end

/-! ### LIFTED fits a lift and a shift (R83, R84) -/

section
variable {t : State} {r : Region} {rb : Robot} {h : HNum} {x : Handover} {m : Matched}

theorem applyLifted_lift (hm : m.op = .lift) : applyLifted t r rb h x m =
    some (Work.endGrant ((Work.handOccupancy {
        st := t.modCol m.column fun k => { k with stack := k.stack.dropLast }, sel := ColIx.all }).close h .delivered
          (originSet x.origin) (.delivered h)) m,
      byte h.val :: put24 t.ports[r].order x.bin ++ byte (t.ports[r].headingToLocal x.heading).val ::
        put16 t.ports[r].order (BitVec.ofNat 16 (x.liveBudget t.clock))) := by
  simp only [applyLifted, hm, liftLift, State.begin_liftTop] <;> rfl

theorem Work.endGrant_on_time (w : Work) (c : ColIx) (op : OpKind) (g : Grant) :
    w.endGrant { column := c, op := op, grant := some g } = w.completeGrant c := rfl

theorem applyLifted_shift {w : Work} (hm : m.op = .shift) (hw : liftShift t m.column h rb x m.grant = w) :
    applyLifted t r rb h x m =
      some (w.endGrant m, byte h.val :: put24 t.ports[r].order x.bin ++ shiftAnswer w.st t.ports[r] h) := by
  simp only [applyLifted, hm, hw]

/-- The record stands in the step as it stood before the report, but for a follower. -/
theorem State.standing_liftedOut (t : State) (c : ColIx) (k i : HNum) :
    (t.liftedOut c k).st.standing i = t.standing i := by
  rw [State.liftedOut, Work.standing_makeFollower, State.begin_liftTop, State.standing_modCol]

theorem Work.standing_unaimed (w : Work) (x : Handover) (k i : HNum) :
    (w.unaimed x k).st.standing i = w.st.standing i := by
  unfold Work.unaimed
  split
  · exact Work.standing_leaveInbound ..
  · rfl

/-- A record that is taken up is MOVING in its new column. -/
theorem shiftAnswer_takeUp {w : Work} (e : w.st.standing h = some x.standing) (g : Option Grant) (d : ColIx)
    (f : PortConfig) :
    shiftAnswer (w.takeUp h rb g d).handOccupancy.st f h = [byte (f.toLocal d), Config.liftedOutcome true] := by
  obtain ⟨y, hy, -⟩ := State.exists_of_standing e
  have stands := Work.standing_takeUp hy rb g d
  rw [← Work.standing_handOccupancy] at stands
  exact shiftAnswer_of_standing stands rfl rfl

/-- A record that is handed back is MOVING no longer. -/
theorem shiftAnswer_handBack {w : Work} (e : w.st.standing h = some x.standing) (c : ColIx) (f : PortConfig) :
    shiftAnswer (w.handBack h c rb).handOccupancy.st f h = [0xFF, Config.liftedOutcome false] := by
  obtain ⟨y, hy, -⟩ := State.exists_of_standing e
  obtain ⟨free, waits⟩ := Work.hand_handBack hy c rb
  refine shiftAnswer_of_not_moving fun z hz => ?_
  rw [Work.hand_handOccupancy] at hz
  by_cases hl : w.st.level .handedBack = 0
  · simp [free hl] at hz
  · obtain ⟨u, hu, closing⟩ := waits hl
    rw [hu] at hz
    obtain rfl := Option.some.inj hz
    simp [closing]

/-! The four ways of a LIFTED on a SHIFT. -/

variable (hm : m.op = .shift) (hx : t.hand h = some x)
include hm hx

theorem applyLifted_shift_held {d : ColIx} (ht : x.target = some d)
    (room : ((t.liftedOut m.column h).st.col d).waitList.length < 6)
    (hf : ((t.liftedOut m.column h).st.col d).state ≠ .fenced) :
    applyLifted t r rb h x m = some ((((t.liftedOut m.column h).takeUp h rb m.grant d).handOccupancy).endGrant m,
      byte h.val :: put24 t.ports[r].order x.bin ++ [byte (t.ports[r].toLocal d), Config.liftedOutcome true]) := by
  have stands : (t.liftedOut m.column h).st.standing h = some x.standing := by
    rw [State.standing_liftedOut, State.standing, hx, Option.map_some]
  rw [applyLifted_shift hm (liftShift_held ht room hf), shiftAnswer_takeUp stands]

omit hx in
theorem applyLifted_shift_fenced {d : ColIx} (ht : x.target = some d)
    (hf : ((t.liftedOut m.column h).st.col d).state = .fenced) :
    let w := (((t.liftedOut m.column h).takeUp h rb m.grant d).replaceMoving d h).handOccupancy
    applyLifted t r rb h x m = some (w.endGrant m,
      byte h.val :: put24 t.ports[r].order x.bin ++ shiftAnswer w.st t.ports[r] h) :=
  applyLifted_shift hm (liftShift_fenced ht hf)

variable (without : ∀ d ∈ x.target,
  6 ≤ ((t.liftedOut m.column h).st.col d).waitList.length ∧ ((t.liftedOut m.column h).st.col d).state ≠ .fenced)
include without

theorem applyLifted_shift_fresh {d : ColIx}
    (hd : ((t.liftedOut m.column h).unaimed x h).st.digTarget x rb.port m.column = some d) :
    applyLifted t r rb h x m =
      some ((((((t.liftedOut m.column h).unaimed x h).up (·.joinInbound d h)).takeUp h rb m.grant d).handOccupancy).endGrant m,
        byte h.val :: put24 t.ports[r].order x.bin ++ [byte (t.ports[r].toLocal d), Config.liftedOutcome true]) := by
  have stands : (((t.liftedOut m.column h).unaimed x h).up (·.joinInbound d h)).st.standing h = some x.standing := by
    rw [Work.up, State.joinInbound, State.standing_modCol, Work.standing_unaimed, State.standing_liftedOut,
      State.standing, hx, Option.map_some]
  rw [applyLifted_shift hm (liftShift_fresh without hd), shiftAnswer_takeUp stands]

theorem applyLifted_shift_handsBack
    (hd : ((t.liftedOut m.column h).unaimed x h).st.digTarget x rb.port m.column = none) :
    applyLifted t r rb h x m =
      some (((((t.liftedOut m.column h).unaimed x h).handBack h m.column rb).handOccupancy).endGrant m,
        byte h.val :: put24 t.ports[r].order x.bin ++ [0xFF, Config.liftedOutcome false]) := by
  have stands : ((t.liftedOut m.column h).unaimed x h).st.standing h = some x.standing := by
    rw [Work.standing_unaimed, State.standing_liftedOut, State.standing, hx, Option.map_some]
  rw [applyLifted_shift hm (liftShift_handsBack without hd), shiftAnswer_handBack stands]

end

/-- Settles O31. -/
theorem liftedMovesTheBin : Obligations.LiftedMovesTheBin := by
  refine ⟨fun w c k => ⟨Work.makeFollower_of_none, fun x cl hx hcl hk hh one => Work.makeFollower_of_some hx hcl hk hh one⟩,
    fun s f k => ⟨fun x d hx hs hd => shiftAnswer_of_moving hx hs hd, shiftAnswer_of_not_moving⟩, ?_, ?_⟩
  · intro s r n robot h x c g p f body lifted ports offered on hx hs hg hop
    have applied := applyLifted_lift (t := s.dropRequest p) (r := r) (rb := ⟨r, robot⟩) (h := h) (x := x)
      (m := { column := c, op := g.op.kind, grant := some g }) (by simp [hop, Operation.kind])
    rw [Work.endGrant_on_time] at applied
    have answered := exec_report_taken (k := .lifted) (.inr (.inl rfl)) offered on hx hs
      (State.matchReport_on_time (s := s.dropRequest p) hg) applied
    exact answered
  · intro s r n robot k x c g p f rb body out fresh front moved offered on hx hs hg hop
    have started : (s.dropRequest p).liftedOut c k = out := by
      rw [State.liftedOut, State.begin_liftTop]
    have shifted {w : Work} {data : List Byte} (ha : applyLifted (s.dropRequest p) r rb k x
        { column := c, op := g.op.kind, grant := some g } = some (w, data)) :
        exec (.lifted p) s = .next (w.finish.answered p .lifted body .ok data) :=
      exec_report_taken (k := .lifted) (.inr (.inl rfl)) offered on hx hs
        (State.matchReport_on_time (s := s.dropRequest p) hg) ha
    refine ⟨fun t ht room hf => ?_, fun t ht hf => ?_, fun without => ⟨fun d hd => ?_, fun hd => ?_⟩⟩
    · have owner := applyLifted_shift_held (t := s.dropRequest p) (r := r) (rb := rb)
        (m := { column := c, op := g.op.kind, grant := some g }) hop hx ht (started.symm ▸ room) (started.symm ▸ hf)
      rw [Work.endGrant_on_time, started] at owner
      have answered := shifted owner
      exact answered
    · have owner := applyLifted_shift_fenced (t := s.dropRequest p) (r := r) (rb := rb)
        (m := { column := c, op := g.op.kind, grant := some g }) hop ht (started.symm ▸ hf)
      simp only [Work.endGrant_on_time, started] at owner
      have answered := shifted owner
      exact answered
    · have owner := applyLifted_shift_fresh (t := s.dropRequest p) (r := r) (rb := rb)
        (m := { column := c, op := g.op.kind, grant := some g }) hop hx (started.symm ▸ without)
        (d := d) (by rw [started]; exact hd)
      rw [Work.endGrant_on_time, started] at owner
      have answered := shifted owner
      exact answered
    · have owner := applyLifted_shift_handsBack (t := s.dropRequest p) (r := r) (rb := rb)
        (m := { column := c, op := g.op.kind, grant := some g }) hop hx (started.symm ▸ without)
        (by rw [started]; exact hd)
      rw [Work.endGrant_on_time, started] at owner
      have answered := shifted owner
      exact answered

end Sys2Proof.Machine
end
-- ==== Sys2Proof/Proofs/LateReports.lean ====
section
/-! Late reports settle a record in DOUBT (O33). -/
namespace Sys2Proof.Machine

theorem Work.endGrant_late (w : Work) (c : ColIx) (op : OpKind) :
    w.endGrant { column := c, op := op, grant := none } = w := rfl

section
variable {t : State} {r : Region} {rb : Robot} {h : HNum} {x : Handover} {c : ColIx} {op : OpKind}
  (hx : t.hand h = some x)
include hx

theorem applyRelease_late_deposit : applyRelease t r rb h x { column := c, op := .deposit, grant := none } =
    some (((t.begin.change h fun r => { r with state := .booked, doubt := none, bookingTimer := some t.limits.booking }
      ).replaceBooked c h).handOccupancy, [byte h.val, 1]) := by
  have code := Work.stateByte_change (w := t.begin) hx fun x =>
    { x with state := .booked, doubt := none, bookingTimer := some t.limits.booking }
  simp only [applyRelease]
  exact congrArg (fun b => some (_, [byte h.val, b])) code

theorem applyRelease_late_lift (ht : x.target = none) :
    applyRelease t r rb h x { column := c, op := .lift, grant := none } =
      some (t.begin.change h fun r => { r with state := .stored, doubt := none }, [byte h.val, 3]) := by
  simp only [applyRelease, Work.endGrant_late]
  rw [Work.putBack_of_none (w := t.begin) hx ht, Work.stateByte_change (w := t.begin) hx] <;> rfl

theorem applyRelease_late_shift (ht : x.target = none) :
    applyRelease t r rb h x { column := c, op := .shift, grant := none } =
      some ((t.begin.change h fun r => { r with state := .stored, doubt := none }).handOccupancy, [byte h.val, 3]) := by
  simp only [applyRelease, Work.endGrant_late]
  rw [Work.putBack_of_none (w := t.begin) hx ht, Work.stateByte_handOccupancy,
    Work.stateByte_change (w := t.begin) hx] <;> rfl

theorem applyRelease_late_aimed {d : ColIx} (ht : x.target = some d) :
    applyRelease t r rb h x { column := c, op := .shift, grant := none } =
      some (((t.begin.leaveInbound d h).change h fun r =>
        { r with state := .stored, doubt := none, target := none }).handOccupancy, [byte h.val, 3]) := by
  have stays : (t.begin.leaveInbound d h).st.hand h = some x := hx
  simp only [applyRelease, Work.endGrant_late]
  rw [Work.putBack_of_some (w := t.begin) hx ht, Work.stateByte_handOccupancy, Work.stateByte_change stays] <;> rfl

omit hx in
theorem applyRelease_late_holding : applyRelease t r rb h x { column := c, op := .holding, grant := none } =
    some (((t.begin.change h fun r => { r with state := .moving, doubt := none }).joinNew c rb .holding h
      |>.replaceMoving c h).handOccupancy, [byte h.val, 6]) := rfl

end

/-- Settles O33. -/
theorem lateReportsSettleTheDoubt : Obligations.LateReportsSettleTheDoubt := by
  refine ⟨?_, ?_⟩
  · intro s r n robot h x c d p f rb body data landed lifted ports on hx hs hd hr hc hg
    have matched := State.matchReport_late (s := s.dropRequest p) hg hs hd hr hc
    have closing : x.state ≠ .closing := by simp [hs]
    have land {w : Work} {data : List Byte} (offered : s.offers p .landed body) (ha : applyLanded (s.dropRequest p) r rb h x
        { column := c, op := d.op, grant := none } = some (w, data)) :
        exec (.landed p) s = .next (w.finish.answered p .landed body .late data) :=
      exec_report_taken (k := .landed) (.inl rfl) offered on hx closing matched ha
    have lift {w : Work} {data : List Byte} (offered : s.offers p .lifted body) (ha : applyLifted (s.dropRequest p) r rb h x
        { column := c, op := d.op, grant := none } = some (w, data)) :
        exec (.lifted p) s = .next (w.finish.answered p .lifted body .late data) :=
      exec_report_taken (k := .lifted) (.inr (.inl rfl)) offered on hx closing matched ha
    refine ⟨fun hop offered => ?_, fun hop offered => ?_, fun hop offered => ?_, fun hop offered => ?_⟩
    · have owner := applyLanded_deposit (r := r) (rb := rb) (t := s.dropRequest p)
        (m := { column := c, op := d.op, grant := none }) hx hop
      rw [Work.endGrant_late, landDeposit_eq (t := s.dropRequest p) hx] at owner
      have answered := land offered owner
      exact answered
    · have owner := applyLanded_holding (r := r) (rb := rb) (t := s.dropRequest p)
        (m := { column := c, op := d.op, grant := none }) hx hop
      rw [Work.endGrant_late, landHolding_eq (t := s.dropRequest p) hx] at owner
      have answered := land offered owner
      exact answered
    · have owner := applyLifted_lift (t := s.dropRequest p) (r := r) (rb := rb) (h := h) (x := x)
        (m := { column := c, op := d.op, grant := none }) hop
      rw [Work.endGrant_late] at owner
      have answered := lift offered owner
      exact answered
    · intro out fresh front late moved
      have started : (s.dropRequest p).liftedOut c h = out := by
        rw [State.liftedOut, State.begin_liftTop]
      refine ⟨fun t ht room hf => ?_, fun t ht hf => ?_, fun without => ⟨fun e he => ?_, fun he => ?_⟩⟩
      · have owner := applyLifted_shift_held (t := s.dropRequest p) (r := r) (rb := rb)
          (m := { column := c, op := d.op, grant := none }) hop hx ht (started.symm ▸ room) (started.symm ▸ hf)
        rw [Work.endGrant_late, started] at owner
        have answered := lift offered owner
        exact answered
      · have owner := applyLifted_shift_fenced (t := s.dropRequest p) (r := r) (rb := rb)
          (m := { column := c, op := d.op, grant := none }) hop ht (started.symm ▸ hf)
        simp only [Work.endGrant_late, started] at owner
        have answered := lift offered owner
        exact answered
      · have owner := applyLifted_shift_fresh (t := s.dropRequest p) (r := r) (rb := rb)
          (m := { column := c, op := d.op, grant := none }) hop hx (started.symm ▸ without)
          (d := e) (by rw [started]; exact he)
        rw [Work.endGrant_late, started] at owner
        have answered := lift offered owner
        exact answered
      · have owner := applyLifted_shift_handsBack (t := s.dropRequest p) (r := r) (rb := rb)
          (m := { column := c, op := d.op, grant := none }) hop hx (started.symm ▸ without)
          (by rw [started]; exact he)
        rw [Work.endGrant_late, started] at owner
        have answered := lift offered owner
        exact answered
  · intro s r n robot h x c d p rb body taken late offered on hx hs hd hr hc hg
    have released {w : Work} {code : Byte} {op : OpKind} (hop : d.op = op) (ha : applyRelease (s.dropRequest p) r rb h x
        { column := c, op := op, grant := none } = some (w, [byte h.val, code])) : late w code := by
      subst hop
      exact exec_report_taken (k := .release) (.inr (.inr rfl)) offered on hx (by simp [hs])
        (State.matchReport_late (s := s.dropRequest p) hg hs hd hr hc) ha
    refine ⟨fun hop => released hop (applyRelease_late_deposit (t := s.dropRequest p) hx),
      fun hop ht => released hop (applyRelease_late_lift (t := s.dropRequest p) hx ht),
      fun hop ht => released hop (applyRelease_late_shift (t := s.dropRequest p) hx ht), fun t hop ht => ?_,
      fun hop => released hop applyRelease_late_holding⟩
    have owner := released hop (applyRelease_late_aimed (t := s.dropRequest p) hx ht)
    rw [Work.leaveInbound_eq] at owner
    exact owner

end Sys2Proof.Machine
end
-- ==== Sys2Proof/Proofs/Removal.lean ====
section
/-! The removal of items from pending sets: what it leaves, the grants it tells, and the waiting sets it empties
(R52, R152). -/
namespace Sys2Proof.Machine

/-! ### Waiting sets -/

/-- A record that port `r` no longer waits for: FREE when that empties the waiting set (R50). -/
def Handover.released (r : Region) (x : Handover) : Option Handover :=
  match x.closing with
  | none => some x
  | some cl =>
    if RegionSet.has cl.waiting r then
      if RegionSet.without cl.waiting r = 0 then none
      else some { x with closing := some { cl with waiting := RegionSet.without cl.waiting r } }
    else some x

theorem State.hand_releaseWaiting (s : State) (r : Region) (h i : HNum) :
    (s.releaseWaiting r h).hand i = if i = h then (s.hand h).bind (Handover.released r) else s.hand i := by
  have same : (if i = h then s.hand h else s.hand i) = s.hand i := by
    split
    · rename_i e; rw [e]
    · rfl
  cases hx : s.hand h with
  | none =>
    rw [← hx, State.releaseWaiting, hx]
    simpa [hx] using same.symm
  | some x =>
    cases hc : x.closing with
    | none =>
      simp only [State.releaseWaiting, hx, hc, Option.bind_some, Handover.released]
      rw [← hx, same]
    | some cl =>
      by_cases hw : RegionSet.has cl.waiting r = true
      · rw [State.releaseWaiting_eq hx hc hw, State.hand_setHand, Option.bind_some]
        simp only [Handover.released, hc, hw, if_true]
      · simp only [State.releaseWaiting, hx, hc, Option.bind_some, Handover.released, if_neg hw]
        rw [← hx, same]

/-- What stays of record `x` when the ports for which `told` holds no longer wait. -/
def Handover.LetGo (told : Region → Prop) (x : Handover) (y : Option Handover) : Prop :=
  match x.closing with
  | none => y = some x
  | some cl => ∃ left : RegionSet,
      (∀ r, RegionSet.has left r = true ↔ RegionSet.has cl.waiting r = true ∧ ¬ told r) ∧
      y = if left = cl.waiting then some x
        else if left = 0 then none else some { x with closing := some { cl with waiting := left } }

theorem RegionSet.has_without (a : RegionSet) (r q : Region) :
    RegionSet.has (RegionSet.without a r) q = true ↔ RegionSet.has a q = true ∧ q ≠ r := by
  revert a r q; decide

theorem RegionSet.ext_has {a b : RegionSet} (h : ∀ r, RegionSet.has a r = true ↔ RegionSet.has b r = true) : a = b := by
  revert a b; decide

theorem RegionSet.without_of_not_has {a : RegionSet} {r : Region} (h : RegionSet.has a r ≠ true) :
    RegionSet.without a r = a := by
  revert a r; decide

theorem RegionSet.has_zero (r : Region) : RegionSet.has 0 r = false := by revert r; decide

namespace Handover.LetGo

variable {told : Region → Prop} {x : Handover} {y : Option Handover}

theorem start (x : Handover) : x.LetGo (fun _ => False) (some x) := by
  unfold Handover.LetGo
  split
  · rfl
  · rename_i cl _
    exact ⟨cl.waiting, by simp, by simp⟩

theorem congr {told' : Region → Prop} (h : x.LetGo told y) (same : ∀ r, told r ↔ told' r) : x.LetGo told' y := by
  have : told = told' := funext fun r => propext (same r)
  exact this ▸ h

/-- One more port no longer waits. -/
theorem released (h : x.LetGo told y) (r : Region) : x.LetGo (fun q => told q ∨ q = r) (y.bind (Handover.released r)) := by
  unfold Handover.LetGo at h ⊢
  cases hc : x.closing with
  | none =>
    rw [hc] at h
    subst h
    simp [Handover.released, hc]
  | some cl =>
    rw [hc] at h
    obtain ⟨left, hleft, rfl⟩ := h
    refine ⟨RegionSet.without left r, fun q => ?_, ?_⟩
    · rw [RegionSet.has_without, hleft]
      tauto
    have within (e : RegionSet.without left r = cl.waiting) : left = cl.waiting := RegionSet.ext_has fun q =>
      ⟨fun hq => ((hleft q).1 hq).1, fun hq => ((RegionSet.has_without ..).1 (e ▸ hq)).1⟩
    by_cases whole : left = cl.waiting
    · subst whole
      simp only [if_true, Option.bind_some, Handover.released, hc]
      by_cases hr : RegionSet.has cl.waiting r = true
      · have less : RegionSet.without cl.waiting r ≠ cl.waiting := fun e =>
          ((RegionSet.has_without ..).1 (e.symm ▸ hr : RegionSet.has (RegionSet.without cl.waiting r) r = true)).2 rfl
        rw [if_pos hr, if_neg less]
      · rw [if_neg hr, RegionSet.without_of_not_has hr, if_pos rfl]
    · rw [if_neg whole, if_neg fun e => whole (within e)]
      by_cases none : left = 0
      · subst none
        rw [if_pos rfl, if_pos (RegionSet.without_of_not_has (ne_of_eq_of_ne (RegionSet.has_zero r) (by decide)))]
        rfl
      · rw [if_neg none, Option.bind_some]
        simp only [Handover.released]
        by_cases hr : RegionSet.has left r = true
        · rw [if_pos hr]
        · rw [if_neg hr, RegionSet.without_of_not_has hr, if_neg none]

end Handover.LetGo

/-! ### One item -/

/-- An ending notice of record `h`. -/
def Notice.Ends (n : Notice) (h : HNum) : Prop :=
  (n.kind = .withdrawn ∨ n.kind = .delivered ∨ n.kind = .handedBack) ∧ n.subject = some h.val

theorem Grant.noticed_noticed (g : Grant) (ticks : Nat) : (g.noticed ticks).noticed ticks = g.noticed ticks := by
  simp [Grant.noticed_eq]

/-- A grant whose notice counts as sent for one of the reasons given. -/
def Grant.toldIf (ticks : Nat) (told : Grant → Prop) [DecidablePred told] (g : Grant) : Grant :=
  if told g then g.noticed ticks else g

/-- All but columns, records and pending sets stand. -/
def State.Spares (s t : State) : Prop :=
  t = { s with columns := t.columns, records := t.records, pendingSets := t.pendingSets }

namespace State.Spares

variable {s t u : State}

theorem refl (s : State) : s.Spares s := rfl

theorem trans (h : s.Spares t) (g : t.Spares u) : s.Spares u := by
  unfold State.Spares at *
  rw [g, h]

theorem modCol (s : State) (c : ColIx) (f : Column → Column) : s.Spares (s.modCol c f) := rfl

theorem modHand (s : State) (h : HNum) (f : Handover → Handover) : s.Spares (s.modHand h f) := rfl

theorem limits (h : s.Spares t) : t.limits = s.limits := by rw [h]

theorem foldl {α : Type} {f : State → α → State} (step : ∀ (s : State) (a : α), s.Spares (f s a)) : ∀ (l : List α) (s : State),
    s.Spares (l.foldl f s)
  | [], s => refl s
  | a :: l, s => (step s a).trans (foldl step l (f s a))

end State.Spares

section
variable (s : State) (p : Port) (n : Notice)

theorem State.spares_releaseWaiting (r : Region) (h : HNum) : s.Spares (s.releaseWaiting r h) := by
  unfold State.releaseWaiting
  split
  · exact .refl s
  · split
    · exact .refl s
    · split
      · dsimp only; split <;> rfl
      · exact .refl s

theorem State.spares_noticeGone : s.Spares (s.noticeGone p n) := by
  unfold State.noticeGone
  split
  · unfold State.grantNoticed
    split
    · exact .refl s
    · split
      · rfl
      · exact .refl s
  · exact s.spares_releaseWaiting ..
  · exact s.spares_releaseWaiting ..
  · exact s.spares_releaseWaiting ..
  · exact .refl s

theorem State.pendingSets_releaseWaiting (r : Region) (h : HNum) : (s.releaseWaiting r h).pendingSets = s.pendingSets := by
  unfold State.releaseWaiting
  split
  · rfl
  · split
    · rfl
    · split
      · dsimp only; split <;> rfl
      · rfl

theorem State.pendingSets_noticeGone : (s.noticeGone p n).pendingSets = s.pendingSets := by
  unfold State.noticeGone
  split
  · unfold State.grantNoticed
    split
    · rfl
    · split <;> rfl
  · exact s.pendingSets_releaseWaiting ..
  · exact s.pendingSets_releaseWaiting ..
  · exact s.pendingSets_releaseWaiting ..
  · rfl

/-- The removal of a GRANT item counts as its sending; any other leaves the columns alone. -/
theorem State.col_noticeGone (c : ColIx) : (s.noticeGone p n).col c = { s.col c with
    grant := (s.col c).grant.map (Grant.toldIf (10 * s.limits.grant) fun g => n = .grant c ∧ p = .region g.claim.robot.port) } := by
  by_cases hn : ∃ d, n = .grant d
  · obtain ⟨d, rfl⟩ := hn
    have gone : s.noticeGone p (.grant d) = s.grantNoticed p d := rfl
    rw [gone]
    by_cases hd : d = c
    · subst hd
      cases hg : (s.col d).grant with
      | none =>
        simp only [State.grantNoticed, hg, Option.map_none]
        rw [← hg]
      | some g =>
        by_cases hp : Port.region g.claim.robot.port = p
        · rw [State.grantNoticed_eq hg hp, State.col_modCol, if_pos rfl]
          simp [Grant.toldIf, hp, Grant.noticed_eq]
        · simp only [State.grantNoticed, hg, if_neg hp, Option.map_some, Grant.toldIf]
          rw [if_neg fun both => hp both.2.symm, ← hg]
    · have others : (s.grantNoticed p d).col c = s.col c := by
        unfold State.grantNoticed
        split
        · rfl
        · split
          · rw [State.col_modCol, if_neg (Ne.symm hd)]
          · rfl
      have untold : (Grant.toldIf (10 * s.limits.grant) fun g => Notice.grant d = .grant c ∧ p = .region g.claim.robot.port) =
          id := by
        funext g
        simp [Grant.toldIf, hd]
      rw [others, untold, Option.map_id]
      rfl
  · have untold : (Grant.toldIf (10 * s.limits.grant) fun g => n = .grant c ∧ p = .region g.claim.robot.port) = id := by
      funext g
      exact if_neg fun both => hn ⟨c, both.1⟩
    have stands : (s.noticeGone p n).columns = s.columns := by
      cases n <;> cases p <;> simp at hn <;> simp [State.noticeGone]
    rw [State.col_eq_of_columns stands, untold, Option.map_id]
    rfl

theorem State.hand_noticeGone_ends {r : Region} {h : HNum} (hn : n.Ends h) :
    (s.noticeGone (.region r) n).hand h = (s.hand h).bind (Handover.released r) := by
  rw [State.noticeGone_ending hn.1 hn.2, State.hand_releaseWaiting, if_pos rfl]

theorem State.hand_noticeGone_other {h : HNum} (hn : ¬ (n.Ends h ∧ ∃ r, p = .region r)) :
    (s.noticeGone p n).hand h = s.hand h := by
  by_cases hg : ∃ d, n = .grant d
  · obtain ⟨d, rfl⟩ := hg
    have gone : s.noticeGone p (.grant d) = s.grantNoticed p d := rfl
    rw [gone, State.grantNoticed]
    split
    · rfl
    · split
      · exact State.hand_modCol ..
      · rfl
  · cases p with
    | ps => cases n <;> simp at hg <;> rfl
    | region r =>
      by_cases ending : n.kind = .withdrawn ∨ n.kind = .delivered ∨ n.kind = .handedBack
      · obtain ⟨i, hi⟩ : ∃ i : HNum, n.subject = some i.val := by
          cases n <;> simp [Notice.kind] at ending <;> exact ⟨_, rfl⟩
        have other : h ≠ i := fun e => hn ⟨⟨ending, e ▸ hi⟩, r, rfl⟩
        rw [State.noticeGone_ending ending hi, State.hand_releaseWaiting, if_neg other]
      · obtain ⟨hw, hd, hb⟩ : n.kind ≠ .withdrawn ∧ n.kind ≠ .delivered ∧ n.kind ≠ .handedBack := by
          simpa only [not_or] using ending
        have notGrant : n.kind ≠ .grant := fun e => hg (by cases n <;> simp [Notice.kind] at e ⊢)
        rw [State.noticeGone_other notGrant hw hd hb]

end

/-! ### Items of one port -/

theorem Grant.toldIf_toldIf (ticks : Nat) (a b : Grant → Prop) [DecidablePred a] [DecidablePred b]
    [DecidablePred fun g => a g ∨ b g] (keep : ∀ g, b (g.noticed ticks) ↔ b g) (o : Option Grant) :
    (o.map (Grant.toldIf ticks a)).map (Grant.toldIf ticks b) = o.map (Grant.toldIf ticks fun g => a g ∨ b g) := by
  rw [Option.map_map]
  congr 1
  funext g
  by_cases ha : a g <;> by_cases hb : b g <;>
    simp [Grant.toldIf, ha, hb, keep, Grant.noticed_noticed]

section
variable (p : Port)

theorem State.spares_foldl_noticeGone (l : List Notice) (s : State) :
    s.Spares (l.foldl (fun s n => s.noticeGone p n) s) := .foldl (fun s n => s.spares_noticeGone p n) l s

theorem State.col_foldl_noticeGone (c : ColIx) : ∀ (l : List Notice) (s : State),
    (l.foldl (fun s n => s.noticeGone p n) s).col c = { s.col c with
      grant := (s.col c).grant.map
        (Grant.toldIf (10 * s.limits.grant) fun g => Notice.grant c ∈ l ∧ p = .region g.claim.robot.port) }
  | [], s => by
    have untold : (Grant.toldIf (10 * s.limits.grant) fun g => Notice.grant c ∈ [] ∧ p = .region g.claim.robot.port) = id := by
      funext g
      exact if_neg (by simp)
    rw [untold, Option.map_id]
    rfl
  | n :: l, s => by
    rw [List.foldl_cons, State.col_foldl_noticeGone c l, State.col_noticeGone, (s.spares_noticeGone p n).limits]
    simp only
    rw [Grant.toldIf_toldIf _ _ _ fun g => by simp [Grant.noticed_eq]]
    congr 2
    unfold Grant.toldIf
    funext g
    congr 1
    simp only [List.mem_cons, or_and_right, eq_comm]

end

theorem State.hand_foldl_noticeGone {x : Handover} {h : HNum} : ∀ (p : Port) (l : List Notice) {told : Region → Prop} {s : State},
    x.LetGo told (s.hand h) →
      x.LetGo (fun q => told q ∨ p = .region q ∧ ∃ n ∈ l, n.Ends h) ((l.foldl (fun s n => s.noticeGone p n) s).hand h)
  | _, [], _, _, start => start.congr (by simp)
  | p, n :: l, told, s, start => by
    rw [List.foldl_cons]
    by_cases hn : n.Ends h ∧ ∃ r, p = .region r
    · obtain ⟨ends, r, rfl⟩ := hn
      have first := start.released r
      rw [← State.hand_noticeGone_ends s n ends] at first
      refine (State.hand_foldl_noticeGone _ l first).congr fun q => ?_
      simp only [Port.region.injEq, List.mem_cons, exists_eq_or_imp]
      constructor
      · rintro ((h | h) | ⟨h, m⟩)
        · exact .inl h
        · exact .inr ⟨h.symm, .inl ends⟩
        · exact .inr ⟨h, .inr m⟩
      · rintro (h | ⟨h, -⟩)
        · exact .inl (.inl h)
        · exact .inl (.inr h.symm)
    · rw [← State.hand_noticeGone_other s p n hn] at start
      refine (State.hand_foldl_noticeGone p l start).congr fun q => or_congr_right (and_congr_right fun hq => ?_)
      have not : ¬ n.Ends h := fun e => hn ⟨e, q, hq⟩
      simp [not]

/-- A record that is FREE stays so. -/
theorem State.hand_none_foldl_noticeGone {h : HNum} : ∀ (p : Port) (l : List Notice) {s : State}, s.hand h = none →
    (l.foldl (fun s n => s.noticeGone p n) s).hand h = none
  | _, [], _, free => free
  | p, n :: l, s, free => by
    rw [List.foldl_cons]
    refine State.hand_none_foldl_noticeGone p l ?_
    by_cases hn : n.Ends h ∧ ∃ r, p = .region r
    · obtain ⟨ends, r, rfl⟩ := hn
      rw [State.hand_noticeGone_ends s n ends, free]
      rfl
    · rw [State.hand_noticeGone_other s p n hn, free]

/-! ### The removal from one port's set -/

section
variable (s : State) (p : Port) (f : Notice → Bool)

theorem State.spares_removeItems : s.Spares (s.removeItems p f) :=
  State.Spares.trans (t := s.modPending p fun l => l.filter fun n => !f n) rfl (State.spares_foldl_noticeGone ..)

theorem State.pendingSet_removeItems (q : Port) :
    (s.removeItems p f).pendingSet q = if q = p then (s.pendingSet p).filter fun n => !f n else s.pendingSet q := by
  have stands : (s.removeItems p f).pendingSets = (s.modPending p (·.filter fun n => !f n)).pendingSets :=
    foldl_keeps State.pendingSets _ (fun s n => s.pendingSets_noticeGone p n) _ _
  have same : (s.removeItems p f).pendingSet q = (s.modPending p (·.filter fun n => !f n)).pendingSet q := by
    unfold State.pendingSet; rw [stands]
  rw [same, State.pendingSet_modPending]

theorem State.col_removeItems (c : ColIx) : (s.removeItems p f).col c = { s.col c with
    grant := (s.col c).grant.map (Grant.toldIf (10 * s.limits.grant) fun g =>
      Notice.grant c ∈ (s.pendingSet p).filter f ∧ p = .region g.claim.robot.port) } := by
  rw [State.removeItems, State.col_foldl_noticeGone] <;> rfl

theorem State.hand_removeItems {s : State} {x : Handover} {h : HNum} {told : Region → Prop}
    (start : x.LetGo told (s.hand h)) : x.LetGo (fun q => told q ∨ p = .region q ∧ ∃ n ∈ (s.pendingSet p).filter f, n.Ends h)
      ((s.removeItems p f).hand h) := State.hand_foldl_noticeGone p _ start

theorem State.hand_none_removeItems {s : State} {h : HNum} (free : s.hand h = none) : (s.removeItems p f).hand h = none :=
  State.hand_none_foldl_noticeGone p _ free

end

end Sys2Proof.Machine
end
-- ==== Sys2Proof/Proofs/Restart.lean ====
section
/-! REGION RESTART lets go of what a port holds (O34). -/
namespace Sys2Proof.Machine

/-! ### Claims leave every list -/

section
variable (q : Claim → Bool)

theorem Work.st_foldl_leave : ∀ (l : List ColIx) (w : Work), (l.foldl (fun w c => w.leave c q) w).st =
    l.foldl (fun s c => s.modCol c fun k => { k with waitList := k.waitList.filter fun cl => !q cl }) w.st
  | [], _ => rfl
  | c :: l, w => by
    rw [List.foldl_cons, Work.st_foldl_leave l, Work.leave_st]
    rfl

/-- A list that falls from 6 claims to fewer starts every selection. -/
theorem Work.mem_sel_foldl_leave {e : ColIx} : ∀ (l : List ColIx) (w : Work), l.Nodup →
    (e ∈ (l.foldl (fun w c => w.leave c q) w).sel ↔ e ∈ w.sel ∨ ∃ d ∈ l, 6 ≤ (w.st.col d).waitList.length ∧
      ((w.st.col d).waitList.filter fun cl => !q cl).length < 6)
  | [], w, _ => by simp
  | c :: l, w, nodup => by
    obtain ⟨new, nodup⟩ := List.nodup_cons.1 nodup
    have later : ∀ d ∈ l, (w.leave c q).st.col d = w.st.col d := fun d hd => by
      have other : d ≠ c := fun e => new (e ▸ hd)
      rw [Work.leave_st, State.col_modCol, if_neg other]
    have first : e ∈ (w.leave c q).sel ↔ e ∈ w.sel ∨ 6 ≤ (w.st.col c).waitList.length ∧
        ((w.st.col c).waitList.filter fun cl => !q cl).length < 6 := by
      rw [Work.leave_sel]
      split <;> rename_i fell
      · simp [ColIx.mem_all, fell]
      · simp [fell]
    rw [List.foldl_cons, Work.mem_sel_foldl_leave l _ nodup, first, or_assoc]
    refine or_congr_right ?_
    simp only [List.mem_cons, or_and_right, exists_or, exists_eq_left]
    exact or_congr_right (exists_congr fun d => and_congr_right fun hd => by rw [later d hd])

theorem Work.col_leaveAll (w : Work) (c : ColIx) : (ColIx.all.foldl (fun w c => w.leave c q) w).st.col c =
    { w.st.col c with waitList := (w.st.col c).waitList.filter fun cl => !q cl } := by
  rw [Work.st_foldl_leave, State.col_foldl_modCol _ c ColIx.nodup_all, if_pos (ColIx.mem_all c)]

theorem Work.hand_leaveAll (w : Work) (h : HNum) :
    (ColIx.all.foldl (fun w c => w.leave c q) w).st.hand h = w.st.hand h := by
  rw [Work.st_foldl_leave]
  exact foldl_keeps (fun s : State => s.hand h) _ (fun _ _ => State.hand_modCol ..) _ _

theorem Work.pendingSet_leaveAll (w : Work) (p : Port) :
    (ColIx.all.foldl (fun w c => w.leave c q) w).st.pendingSet p = w.st.pendingSet p := by
  rw [Work.st_foldl_leave]
  exact foldl_keeps (fun s : State => s.pendingSet p) _ (fun _ _ => State.pendingSet_modCol ..) _ _

theorem Work.spares_leaveAll (w : Work) : w.st.Spares (ColIx.all.foldl (fun w c => w.leave c q) w).st := by
  rw [Work.st_foldl_leave]
  exact .foldl (fun _ _ => .modCol ..) _ _

end

/-! ### Followers and waiting sets -/

/-- A record without a follower of the port's robots. -/
def Handover.unfollowed (r : Region) (x : Handover) : Handover :=
  { x with follower := x.follower.filter fun f => f.robot.port != r }

section
variable (s : State) (r : Region)

theorem State.hand_dropFollowers (h : HNum) : (s.dropFollowers r).hand h = (s.hand h).map (Handover.unfollowed r) := by
  unfold State.dropFollowers
  rw [State.hand_foldl_modHand _ h HNum.nodup_all, if_pos (HNum.mem_all h)]
  congr 1
  funext x
  unfold Handover.unfollowed
  cases hf : x.follower with
  | none =>
    simp only [Option.filter_none]
    rw [← hf]
  | some f =>
    by_cases hp : f.robot.port = r
    · have gone : (some f).filter (fun f => f.robot.port != r) = none := by simp [hp]
      rw [gone]
      exact if_pos hp
    · have stays : (some f).filter (fun f => f.robot.port != r) = some f := by simp [hp]
      rw [stays]
      refine (if_neg hp).trans ?_
      rw [← hf]

theorem State.col_dropFollowers (c : ColIx) : (s.dropFollowers r).col c = s.col c :=
  foldl_keeps (fun s : State => s.col c) _ (fun _ _ => State.col_modHand ..) _ _

theorem State.pendingSet_dropFollowers (p : Port) : (s.dropFollowers r).pendingSet p = s.pendingSet p :=
  foldl_keeps (fun s : State => s.pendingSet p) _ (fun _ _ => State.pendingSet_modHand ..) _ _

theorem State.spares_dropFollowers : s.Spares (s.dropFollowers r) :=
  .foldl (fun _ _ => .modHand ..) _ _

theorem State.hand_releaseAll (h : HNum) : ∀ {l : List HNum}, l.Nodup → ∀ s : State,
    (l.foldl (fun s h => s.releaseWaiting r h) s).hand h =
      if h ∈ l then (s.hand h).bind (Handover.released r) else s.hand h
  | [], _, s => by simp
  | i :: l, nodup, s => by
    obtain ⟨new, nodup⟩ := List.nodup_cons.1 nodup
    rw [List.foldl_cons, State.hand_releaseAll h nodup, State.hand_releaseWaiting]
    by_cases e : h = i
    · subst e; simp [new]
    · simp [e]

end

/-- When one port alone has been told, the record has been released by it. -/
theorem Handover.LetGo.eq_released {r : Region} {x : Handover} {y : Option Handover} (h : x.LetGo (fun q => q = r) y) :
    y = x.released r := by
  unfold Handover.LetGo at h
  unfold Handover.released
  cases hc : x.closing with
  | none => rw [hc] at h; exact h
  | some cl =>
    rw [hc] at h
    obtain ⟨left, hleft, rfl⟩ := h
    have without : left = RegionSet.without cl.waiting r := RegionSet.ext_has fun q => by
      rw [hleft, RegionSet.has_without]
    subst without
    by_cases hw : RegionSet.has cl.waiting r = true
    · have less : RegionSet.without cl.waiting r ≠ cl.waiting := fun e =>
        ((RegionSet.has_without ..).1 (e.symm ▸ hw : RegionSet.has (RegionSet.without cl.waiting r) r = true)).2 rfl
      simp only [hw, if_true, if_neg less]
    · simp only [hw, RegionSet.without_of_not_has hw, if_true]
      rfl

theorem length_filter_of_imp {α : Type} {p q : α → Bool} (h : ∀ a, p a = true → q a = true) : ∀ l : List α,
    (l.filter q).length = (l.filter p).length + (l.filter fun a => !p a && q a).length
  | [] => rfl
  | a :: l => by
    have ih := length_filter_of_imp h l
    by_cases hp : p a = true
    · simp [hp, h a hp, ih]; omega
    · by_cases hq : q a = true
      · simp [hp, hq, ih]; omega
      · simp [hp, hq, ih]

/-- The records that became FREE. -/
theorem State.freeCount_sub {s t : State} (h : ∀ i, s.hand i = none → t.hand i = none) :
    t.freeCount - s.freeCount = (HNum.all.filter fun i => (s.hand i).isSome && (t.hand i).isNone).length := by
  have split := length_filter_of_imp (p := fun i => (s.hand i).isNone) (q := fun i => (t.hand i).isNone)
    (fun i hi => by simpa using h i (by simpa using hi)) HNum.all
  have some : (fun i => !(s.hand i).isNone && (t.hand i).isNone) = fun i => (s.hand i).isSome && (t.hand i).isNone := by
    funext i; cases s.hand i <;> rfl
  rw [State.freeCount, State.freeCount, split, some]
  omega

/-! ### REGION RESTART (R52) -/

theorem Handover.restarted_eq (r : Region) (x : Handover) : x.restarted r = (x.unfollowed r).released r := by
  unfold Handover.restarted Handover.released Handover.unfollowed
  cases hc : x.closing <;> rfl

theorem regionClaimOf_eq (r : Region) : regionClaimOf r = fun cl => cl.kind != .holding && cl.robot.port == r := by
  funext cl
  rw [regionClaimOf, Claim.isRegion_eq]

section
variable (t : State) (r : Region)

/-- What REGION RESTART makes of the state, before its selections. -/
def State.restarted : Work :=
  ((ColIx.all.foldl (fun w c => w.leave c (regionClaimOf r)) t.begin).up fun s =>
    (s.dropFollowers r).removeItems (.region r) fun _ => true).up fun s =>
      HNum.all.foldl (fun s h => s.releaseWaiting r h) s

theorem restartOwner_eq (body : List Byte) : restartOwner r body t = {
    work := t.restarted r, result := .ok
    data := [byte (t.waitingOf r), byte ((t.restarted r).st.freeCount - t.freeCount)] } := by
  unfold restartOwner State.restarted
  rfl

theorem State.st_restarted : (t.restarted r).st = HNum.all.foldl (fun s h => s.releaseWaiting r h)
    (((ColIx.all.foldl (fun w c => w.leave c (regionClaimOf r)) t.begin).st.dropFollowers r).removeItems (.region r)
      fun _ => true) := by
  simp only [State.restarted, Work.up]

theorem State.spares_restarted : t.Spares (t.restarted r).st := by
  rw [State.st_restarted]
  refine State.Spares.trans ?_ (.foldl (fun s h => s.spares_releaseWaiting r h) _ _)
  refine State.Spares.trans ?_ (State.spares_removeItems ..)
  exact (t.begin.spares_leaveAll _).trans (State.spares_dropFollowers ..)

theorem State.pendingSet_restarted (q : Port) :
    (t.restarted r).st.pendingSet q = if q = .region r then [] else t.pendingSet q := by
  rw [State.st_restarted]
  rw [foldl_keeps (fun s : State => s.pendingSet q) (fun s h => s.releaseWaiting r h) fun s h => by
    unfold State.pendingSet; rw [State.pendingSets_releaseWaiting]]
  rw [State.pendingSet_removeItems, State.pendingSet_dropFollowers, State.pendingSet_dropFollowers,
    Work.pendingSet_leaveAll, Work.pendingSet_leaveAll]
  simp [State.begin]

theorem State.col_restarted (c : ColIx) : (t.restarted r).st.col c = { t.col c with
    waitList := (t.col c).waitList.filter fun cl => !regionClaimOf r cl
    grant := (t.col c).grant.map (Grant.toldIf (10 * t.limits.grant) fun g =>
      Notice.grant c ∈ t.pendingSet (.region r) ∧ Port.region r = .region g.claim.robot.port) } := by
  have limits : ((ColIx.all.foldl (fun w c => w.leave c (regionClaimOf r)) t.begin).st.dropFollowers r).limits = t.limits :=
    ((t.begin.spares_leaveAll _).trans (State.spares_dropFollowers ..)).limits
  rw [State.st_restarted]
  rw [foldl_keeps (fun s : State => s.col c) (fun s h => s.releaseWaiting r h) fun s h =>
    State.col_eq_of_columns (State.columns_releaseWaiting ..) c]
  rw [State.col_removeItems, limits, State.col_dropFollowers, Work.col_leaveAll, State.pendingSet_dropFollowers,
    Work.pendingSet_leaveAll, List.filter_eq_self.2 fun _ _ => rfl]
  rfl

theorem State.hand_restarted (h : HNum) : (t.restarted r).st.hand h = (t.hand h).bind (Handover.restarted r) := by
  rw [State.st_restarted, State.hand_releaseAll r h HNum.nodup_all, if_pos (HNum.mem_all h)]
  have dropped : (((ColIx.all.foldl (fun w c => w.leave c (regionClaimOf r)) t.begin).st.dropFollowers r).hand h) =
      (t.hand h).map (Handover.unfollowed r) := by
    rw [State.hand_dropFollowers, Work.hand_leaveAll]
    rfl
  cases hx : t.hand h with
  | none =>
    rw [hx] at dropped
    rw [State.hand_none_removeItems _ _ dropped]
    rfl
  | some x =>
    have start : (x.unfollowed r).LetGo (fun _ => False) _ := .start _
    rw [hx, Option.map_some] at dropped
    rw [← dropped] at start
    rw [Option.bind_some, Handover.restarted_eq]
    refine (((State.hand_removeItems (.region r) (fun _ => true) start).released r).congr fun q => ?_).eq_released
    simp only [Port.region.injEq, false_or]
    constructor
    · rintro (⟨e, -⟩ | e)
      · exact e.symm
      · exact e
    · exact .inr

theorem State.mem_sel_restarted (c : ColIx) : c ∈ (t.restarted r).sel ↔
    ∃ d, 6 ≤ (t.col d).waitList.length ∧ ((t.restarted r).st.col d).waitList.length < 6 := by
  have sel : (t.restarted r).sel = (ColIx.all.foldl (fun w c => w.leave c (regionClaimOf r)) t.begin).sel := by
    simp only [State.restarted, Work.up]
  rw [sel, Work.mem_sel_foldl_leave _ _ _ ColIx.nodup_all]
  simp only [State.col_restarted, ColIx.mem_all, true_and, State.begin, List.not_mem_nil, false_or]

end

/-- Settles O34. -/
theorem regionRestartLetsGo : Obligations.RegionRestartLetsGo := by
  intro s r n p gone offered on
  refine ⟨(s.dropRequest p).restarted r, ?_, State.spares_restarted .., fun q => State.pendingSet_restarted ..,
    fun h => State.hand_restarted .., fun c => ?_, fun c => State.mem_sel_restarted ..⟩
  · have answered := exec_offered offered rfl rfl (.inl (State.portOff_regionOn on))
      (restartOwner_eq (s.dropRequest p) r [n])
    have freed : ((s.dropRequest p).restarted r).st.freeCount - (s.dropRequest p).freeCount =
        (HNum.all.filter fun h => (s.hand h).isSome && (((s.dropRequest p).restarted r).st.hand h).isNone).length :=
      State.freeCount_sub fun i hi => by rw [State.hand_restarted, hi]; rfl
    have waited : (s.dropRequest p).waitingOf r = (ColIx.all.map fun c => ((s.col c).waitList.filter gone).length).sum := by
      rw [State.waitingOf, regionClaimOf_eq]
      rfl
    rw [← freed, ← waited]
    exact answered
  · rw [State.col_restarted, regionClaimOf_eq]
    have told : (Grant.toldIf (10 * (s.dropRequest p).limits.grant) fun g =>
        Notice.grant c ∈ (s.dropRequest p).pendingSet (.region r) ∧ Port.region r = .region g.claim.robot.port) =
        fun g => if Notice.grant c ∈ s.pendingSet p ∧ g.claim.robot.port = r then
          { g with noticeSent := true, timer := some (g.timer.getD (10 * s.limits.grant)) } else g := by
      funext g
      simp only [Grant.toldIf, Grant.noticed_eq, Port.region.injEq, eq_comm, State.limits_dropRequest,
        State.pendingSet_dropRequest, p]
    rw [told] <;> rfl

end Sys2Proof.Machine
end
-- ==== Sys2Proof/Proofs/Levels.lean ====
section
/-! CONFIGURE NOTICES sets a level, and a level of 0 removes a kind's items (O42). -/
namespace Sys2Proof.Machine

/-! ### The removal from every port's set (R152) -/

theorem Grant.toldIf_congr (ticks : Nat) {a b : Grant → Prop} [DecidablePred a] [DecidablePred b] (h : ∀ g, a g ↔ b g) :
    Grant.toldIf ticks a = Grant.toldIf ticks b := by
  funext g
  simp only [Grant.toldIf, h]

section
variable (f : Notice → Bool)

theorem State.spares_removeAll (l : List Port) (s : State) : s.Spares (l.foldl (fun s p => s.removeItems p f) s) :=
  .foldl (fun s p => s.spares_removeItems p f) l s

theorem State.pendingSet_removeAll (q : Port) : ∀ {l : List Port}, l.Nodup → ∀ s : State,
    (l.foldl (fun s p => s.removeItems p f) s).pendingSet q =
      if q ∈ l then (s.pendingSet q).filter fun n => !f n else s.pendingSet q
  | [], _, s => by simp
  | p :: l, nodup, s => by
    obtain ⟨new, nodup⟩ := List.nodup_cons.1 nodup
    rw [List.foldl_cons, State.pendingSet_removeAll q nodup, State.pendingSet_removeItems]
    by_cases e : q = p
    · subst e; simp [new]
    · simp [e]

/-- The sets of the ports that come later stand. -/
theorem State.pendingSet_removeItems_of_mem (s : State) {p q : Port} {l : List Port} (new : p ∉ l) (hq : q ∈ l) :
    (s.removeItems p f).pendingSet q = s.pendingSet q := by
  have other : q ≠ p := fun e => new (e ▸ hq)
  rw [State.pendingSet_removeItems, if_neg other]

theorem State.col_removeAll (c : ColIx) : ∀ {l : List Port}, l.Nodup → ∀ s : State,
    (l.foldl (fun s p => s.removeItems p f) s).col c = { s.col c with
      grant := (s.col c).grant.map (Grant.toldIf (10 * s.limits.grant) fun g =>
        ∃ p ∈ l, Notice.grant c ∈ (s.pendingSet p).filter f ∧ p = .region g.claim.robot.port) }
  | [], _, s => by
    have untold : (Grant.toldIf (10 * s.limits.grant) fun g =>
        ∃ p ∈ [], Notice.grant c ∈ (s.pendingSet p).filter f ∧ p = .region g.claim.robot.port) = id := by
      funext g
      exact if_neg (by simp)
    rw [untold, Option.map_id]
    rfl
  | p :: l, nodup, s => by
    obtain ⟨new, nodup⟩ := List.nodup_cons.1 nodup
    rw [List.foldl_cons, State.col_removeAll c nodup, State.col_removeItems, (s.spares_removeItems p f).limits]
    simp only
    rw [Grant.toldIf_toldIf _ _ _ fun g => by simp [Grant.noticed_eq]]
    congr 2
    unfold Grant.toldIf
    funext g
    congr 1
    simp only [List.mem_cons, or_and_right, exists_or, exists_eq_left]
    refine propext (or_congr_right (exists_congr fun q => and_congr_right fun hq => ?_))
    rw [State.pendingSet_removeItems_of_mem f s new hq]

theorem State.hand_removeAll {x : Handover} {h : HNum} : ∀ {l : List Port}, l.Nodup → ∀ {told : Region → Prop} {s : State},
    x.LetGo told (s.hand h) →
      x.LetGo (fun r => told r ∨ ∃ p ∈ l, p = .region r ∧ ∃ n ∈ (s.pendingSet p).filter f, n.Ends h)
        ((l.foldl (fun s p => s.removeItems p f) s).hand h)
  | [], _, _, _, start => start.congr (by simp)
  | p :: l, nodup, told, s, start => by
    obtain ⟨new, nodup⟩ := List.nodup_cons.1 nodup
    rw [List.foldl_cons]
    refine (State.hand_removeAll nodup (State.hand_removeItems p f start)).congr fun r => ?_
    simp only [List.mem_cons, or_and_right (a := _ = p), exists_or, exists_eq_left, or_assoc]
    refine or_congr_right (or_congr_right (exists_congr fun q => and_congr_right fun hq => ?_))
    rw [State.pendingSet_removeItems_of_mem f s new hq]

theorem State.hand_none_removeAll {h : HNum} : ∀ (l : List Port) {s : State}, s.hand h = none →
    (l.foldl (fun s p => s.removeItems p f) s).hand h = none
  | [], _, free => free
  | p :: l, _, free => State.hand_none_removeAll l (State.hand_none_removeItems p f free)

end

/-- An item that is no ending notice leaves the records alone. -/
theorem State.records_noticeGone (s : State) (p : Port) {n : Notice} (hw : n.kind ≠ .withdrawn) (hd : n.kind ≠ .delivered)
    (hb : n.kind ≠ .handedBack) : (s.noticeGone p n).records = s.records := by
  by_cases hg : n.kind = .grant
  · obtain ⟨c, rfl⟩ : ∃ c, n = .grant c := by cases n <;> simp [Notice.kind] at hg ⊢
    show (s.grantNoticed p c).records = s.records
    unfold State.grantNoticed
    split
    · rfl
    · split <;> rfl
  · rw [State.noticeGone_other hg hw hd hb]

section
variable {s : State} {k : NoticeKind}

theorem State.records_removeItems (p : Port) (hk : k ≠ .withdrawn ∧ k ≠ .delivered ∧ k ≠ .handedBack) :
    (s.removeItems p fun n => n.kind == k).records = s.records := by
  have keeps : ∀ (l : List Notice), (∀ n ∈ l, n.kind = k) → ∀ t : State,
      (l.foldl (fun s n => s.noticeGone p n) t).records = t.records := by
    intro l
    induction l with
    | nil => exact fun _ _ => rfl
    | cons n l ih =>
      intro kinds t
      have hn : n.kind = k := kinds n List.mem_cons_self
      rw [List.foldl_cons, ih fun m hm => kinds m (List.mem_cons_of_mem _ hm)]
      exact State.records_noticeGone t p (hn ▸ hk.1) (hn ▸ hk.2.1) (hn ▸ hk.2.2)
  exact keeps _ (fun n hn => by simpa using (List.mem_filter.1 hn).2) _

theorem State.records_removeKind (hk : k ≠ .withdrawn ∧ k ≠ .delivered ∧ k ≠ .handedBack) :
    (s.removeKind k).records = s.records :=
  foldl_keeps State.records _ (fun _ p => State.records_removeItems p hk) _ _

theorem Port.nodup_all : Port.all.Nodup := by decide
theorem Port.mem_all (p : Port) : p ∈ Port.all := by
  cases p with
  | ps => decide
  | region r => revert r; decide

theorem State.pendingSet_removeKind (p : Port) : (s.removeKind k).pendingSet p = (s.pendingSet p).filter fun n => n.kind != k := by
  rw [State.removeKind, State.pendingSet_removeAll _ p Port.nodup_all, if_pos (Port.mem_all p)]
  rfl

theorem State.col_removeKind (c : ColIx) : (s.removeKind k).col c = { s.col c with
    grant := (s.col c).grant.map (Grant.toldIf (10 * s.limits.grant) fun g =>
      k = .grant ∧ Notice.grant c ∈ s.pendingSet (.region g.claim.robot.port)) } := by
  have told : (Grant.toldIf (10 * s.limits.grant) fun g => ∃ p ∈ Port.all,
        Notice.grant c ∈ (s.pendingSet p).filter (fun n => n.kind == k) ∧ p = .region g.claim.robot.port) =
      Grant.toldIf (10 * s.limits.grant) fun g => k = .grant ∧ Notice.grant c ∈ s.pendingSet (.region g.claim.robot.port) := by
    refine Grant.toldIf_congr _ fun g =>
      ⟨?_, fun ⟨kind, mem⟩ => ⟨_, Port.mem_all _, List.mem_filter.2 ⟨mem, by simp [Notice.kind, kind]⟩, rfl⟩⟩
    rintro ⟨p, -, mem, rfl⟩
    obtain ⟨mem, kind⟩ := List.mem_filter.1 mem
    exact ⟨(beq_iff_eq.1 kind).symm, mem⟩
  rw [State.removeKind, State.col_removeAll _ c Port.nodup_all, told]

theorem State.hand_removeKind (hk : k = .withdrawn ∨ k = .delivered ∨ k = .handedBack) {x : Handover} {h : HNum}
    (hx : s.hand h = some x) :
    x.LetGo (fun r => ∃ i ∈ s.pendingSet (.region r), i.kind = k ∧ i.subject = some h.val) ((s.removeKind k).hand h) := by
  have start : x.LetGo (fun _ => False) (s.hand h) := hx ▸ .start x
  refine (State.hand_removeAll (fun n => n.kind == k) Port.nodup_all start).congr fun r => ?_
  simp only [false_or]
  constructor
  · rintro ⟨_, -, rfl, n, mem, -, subject⟩
    obtain ⟨mem, kind⟩ := List.mem_filter.1 mem
    exact ⟨n, mem, beq_iff_eq.1 kind, subject⟩
  · rintro ⟨n, mem, kind, subject⟩
    exact ⟨_, Port.mem_all _, rfl, n, List.mem_filter.2 ⟨mem, beq_iff_eq.2 kind⟩, kind ▸ hk, subject⟩

end

/-! ### What stays of a record -/

namespace Handover.LetGo

variable {told : Region → Prop} {x : Handover} {y : Option Handover} {cl : Closing}

theorem of_open (h : x.LetGo told y) (hc : x.closing = none) : y = some x := by
  unfold Handover.LetGo at h
  rw [hc] at h
  exact h

theorem of_closing (h : x.LetGo told y) (hc : x.closing = some cl) : ∃ left : RegionSet,
    (∀ r, RegionSet.has left r = true ↔ RegionSet.has cl.waiting r = true ∧ ¬ told r) ∧
      y = if left = cl.waiting then some x
        else if left = 0 then none else some { x with closing := some { cl with waiting := left } } := by
  unfold Handover.LetGo at h
  rw [hc] at h
  exact h

theorem untold (h : x.LetGo told y) (hc : x.closing = some cl) (none : ∀ r, RegionSet.has cl.waiting r = true → ¬ told r) :
    y = some x := by
  obtain ⟨left, hleft, rfl⟩ := h.of_closing hc
  exact if_pos (RegionSet.ext_has fun r => ⟨fun hr => ((hleft r).1 hr).1, fun hr => (hleft r).2 ⟨hr, none r hr⟩⟩)

theorem all_told (h : x.LetGo told y) (hc : x.closing = some cl) (some : cl.waiting ≠ 0)
    (all : ∀ r, RegionSet.has cl.waiting r = true → told r) : y = none := by
  obtain ⟨left, hleft, rfl⟩ := h.of_closing hc
  have empty : left = 0 := RegionSet.ext_has fun r => by
    rw [hleft, RegionSet.has_zero]
    simpa using all r
  subst empty
  rw [if_neg fun e => some e.symm, if_pos rfl]

theorem some_untold (h : x.LetGo told y) (hc : x.closing = some cl) (waits : ∃ r, RegionSet.has cl.waiting r = true ∧ ¬ told r) :
    ∃ left, y = some { x with closing := some { cl with waiting := left } } ∧
      ∀ r, RegionSet.has left r = true ↔ RegionSet.has cl.waiting r = true ∧ ¬ told r := by
  obtain ⟨left, hleft, rfl⟩ := h.of_closing hc
  refine ⟨left, ?_, hleft⟩
  split
  · rename_i same
    subst same
    rw [← hc]
  · obtain ⟨r, hr⟩ := waits
    have nonempty : left ≠ 0 := fun e => by
      have := (hleft r).2 hr
      rw [e, RegionSet.has_zero] at this
      cases this
    rw [if_neg nonempty]

end Handover.LetGo

/-! ### CONFIGURE NOTICES (R151, R152) -/

theorem noticeKindOf_eq_none {b : Byte} (h : 13 < b) : noticeKindOf b = none :=
  List.getElem?_eq_none (by simp only [List.length_cons, List.length_nil]; bv_omega)

theorem noticeKindOf_ix (k : NoticeKind) : noticeKindOf (byte k.ix.val) = some k := by cases k <;> rfl

section
variable {t : State} {n b lvl : Byte} {k : NoticeKind}

theorem configureNoticesOwner_badField (h : 13 < b) : configureNoticesOwner [n, b, lvl] t = t.refuse .badField [] := by
  simp [configureNoticesOwner, noticeKindOf_eq_none h]

theorem configureNoticesOwner_reset : configureNoticesOwner [n, 0, lvl] t = t.refuse .ok [0, 7, 0] := rfl

theorem configureNoticesOwner_kind (hk : k ≠ .reset) : configureNoticesOwner [n, byte k.ix.val, lvl] t =
    if min 7 lvl.toNat = 0 then
      ((t.setLevel k (min 7 lvl.toNat)).removeKind k).refuse .ok [byte k.ix.val, 0, byte (t.pendingOf k)]
    else (t.setLevel k (min 7 lvl.toNat)).refuse .ok [byte k.ix.val, byte (min 7 lvl.toNat), 0] := by
  have level : clamp 0 7 lvl.toNat = min 7 lvl.toNat := by rw [clamp_eq (by decide)]; omega
  simp only [configureNoticesOwner, List.getD_cons_succ, List.getD_cons_zero, noticeKindOf_ix, level]

end

/-- Settles O42. -/
theorem configureNoticesSetsALevel : Obligations.ConfigureNoticesSetsALevel := by
  intro s n b lvl body answers offered
  have refusal {t : State} {why : Result} {data : List Byte}
      (e : configureNoticesOwner body (s.dropRequest .ps) = t.refuse why data) : answers t why data :=
    exec_offered_refused offered rfl rfl (.inl rfl) e
  refine ⟨fun h => refusal (configureNoticesOwner_badField h), fun h => refusal (by subst h; exact configureNoticesOwner_reset),
    fun k hk hb => ?_⟩
  subst hb
  intro set
  have kind := configureNoticesOwner_kind (n := n) (lvl := lvl) (t := s.dropRequest .ps) hk
  refine ⟨fun hl => ?_, fun hl => ?_⟩
  · have positive : min 7 lvl.toNat ≠ 0 := by
      have : lvl.toNat ≠ 0 := fun e => hl (BitVec.eq_of_toNat_eq (by simpa using e))
      omega
    rw [if_neg positive] at kind
    exact refusal kind
  · subst hl
    rw [if_pos (by rfl)] at kind
    refine ⟨set.removeKind k, refusal kind, State.spares_removeAll .., fun p => State.pendingSet_removeKind p, fun c => ?_,
      fun other => State.records_removeKind other, fun ending h => ?_⟩
    · have told : (Grant.toldIf (10 * set.limits.grant) fun g =>
            k = .grant ∧ Notice.grant c ∈ set.pendingSet (.region g.claim.robot.port)) =
          fun g => if k = .grant ∧ Notice.grant c ∈ s.pendingSet (.region g.claim.robot.port) then
            { g with noticeSent := true, timer := some (g.timer.getD (10 * s.limits.grant)) } else g := by
        funext g
        simp only [Grant.toldIf, Grant.noticed_eq] <;> rfl
      rw [State.col_removeKind, told] <;> rfl
    · intro told
      have letGo {x : Handover} (hx : s.hand h = some x) : x.LetGo told ((set.removeKind k).hand h) :=
        State.hand_removeKind (s := set) ending hx
      exact ⟨fun x cl hx hc none => (letGo hx).untold hc none, fun x cl hx hc some all => (letGo hx).all_told hc some all,
        fun x cl hx hc waits => (letGo hx).some_untold hc waits, fun free => State.hand_none_removeAll _ _ free,
        fun x hx hc => (letGo hx).of_open hc⟩

end Sys2Proof.Machine
end
-- ==== Sys2Proof/Proofs/Configuration.lean ====
section
/-! CONFIGURE PORT and CONFIGURE LIMITS (O41). -/
namespace Sys2Proof.Machine

/-! ### The codes that name no value -/

theorem flagOf_code (b : Bool) : flagOf (flagCode b) = some b := by cases b <;> rfl

theorem fieldOrderOf_code (o : FieldOrder) : fieldOrderOf o.code = some o := by cases o <;> rfl

theorem flagOf_eq_none {b : Byte} (h : 1 < b) : flagOf b = none := by
  have zero : b ≠ 0 := by bv_omega
  have one : b ≠ 1 := by bv_omega
  rw [flagOf, if_neg zero, if_neg one]

theorem fieldOrderOf_eq_none {b : Byte} (h : 1 < b) : fieldOrderOf b = none := by
  have zero : b ≠ 0 := by bv_omega
  have one : b ≠ 1 := by bv_omega
  rw [fieldOrderOf, if_neg zero, if_neg one]

/-! ### CONFIGURE PORT (R8) -/

theorem clamp_rotation (rot : Byte) :
    Fin.ofNat 4 (clamp 0 3 rot.toNat) = if rot = 0 then 0 else if rot = 1 then 1 else if rot = 2 then 2 else (3 : Fin 4) := by
  rw [clamp_eq (by decide)]
  by_cases zero : rot = 0
  · subst zero; rfl
  by_cases one : rot = 1
  · subst one; rfl
  by_cases two : rot = 2
  · subst two; rfl
  have above : 2 < rot.toNat := by bv_omega
  have value : max 0 (min 3 rot.toNat) = 3 := by omega
  rw [value, if_neg zero, if_neg one, if_neg two]
  rfl

theorem decodePortConfig_codes (n p rot : Byte) (en mirror : Bool) (o : FieldOrder) :
    decodePortConfig [n, p, flagCode en, rot, flagCode mirror, o.code] =
      some { enabled := en, rotation := if rot = 0 then 0 else if rot = 1 then 1 else if rot = 2 then 2 else 3,
             mirror := mirror, order := o } := by
  simp only [decodePortConfig, flagOf_code, fieldOrderOf_code, clamp_rotation]

theorem decodePortConfig_eq_none {n p en rot mirror order : Byte} (h : 1 < en ∨ 1 < mirror ∨ 1 < order) :
    decodePortConfig [n, p, en, rot, mirror, order] = none := by
  rcases h with h | h | h
  · simp only [decodePortConfig, flagOf_eq_none h]
  · simp only [decodePortConfig, flagOf_eq_none h]
    cases flagOf en <;> rfl
  · simp only [decodePortConfig, fieldOrderOf_eq_none h]
    cases flagOf en <;> cases flagOf mirror <;> rfl

/-- What keeps a port's configuration from changing (R8, step 4). -/
theorem State.portBusy_iff {s : State} {r : Region} : s.portBusy r = true ↔
    (∃ c, ∃ cl ∈ (s.col c).waitList, cl.robot.port = r) ∨ (∃ c, ∃ g ∈ (s.col c).grant, g.claim.robot.port = r) ∨
      ∃ h, ∃ x ∈ s.hand h, x.origin = .region r ∨ x.dest = r := by
  have claims (c : ColIx) : ((s.col c).claims.any fun cl => cl.robot.port == r) = true ↔
      (∃ cl ∈ (s.col c).waitList, cl.robot.port = r) ∨ ∃ g ∈ (s.col c).grant, g.claim.robot.port = r := by
    simpa using Column.any_claims (s.col c) fun cl => cl.robot.port == r
  have ends (h : HNum) : (match s.hand h with
      | some x => x.origin == .region r || x.dest == r
      | none => false) = true ↔ ∃ x ∈ s.hand h, x.origin = .region r ∨ x.dest = r := by
    cases s.hand h <;> simp
  rw [State.portBusy, Bool.or_eq_true, List.any_eq_true, List.any_eq_true]
  simp only [claims, ColIx.mem_all, HNum.mem_all, true_and, exists_or, or_assoc]
  exact or_congr_right (or_congr_right (exists_congr ends))

section
variable {t : State} {body : List Byte} {r : Region}

theorem configurePortOwner_noPort (h : 3 < body.getD 1 0) :
    configurePortOwner body t = t.refuse .badField Config.configOfNoPort.toList := by
  unfold configurePortOwner
  rw [Byte.below_of_le (by bv_omega)]

theorem configurePortOwner_badField (hr : body.getD 1 0 = byte r.val) (hd : decodePortConfig body = none) :
    configurePortOwner body t = t.refuse .badField t.ports[r].bytes := by
  unfold configurePortOwner
  rw [hr, Byte.below_byte (n := 4) (by decide) r, hd]

theorem configurePortOwner_decoded {new : PortConfig} (hr : body.getD 1 0 = byte r.val) (hd : decodePortConfig body = some new) :
    configurePortOwner body t =
      if new ≠ t.ports[r] ∧ t.portBusy r = true then t.refuse .badState t.ports[r].bytes
      else (t.setPort r new).refuse .ok new.bytes := by
  unfold configurePortOwner
  rw [hr, Byte.below_byte (n := 4) (by decide) r, hd]

end

/-! ### CONFIGURE LIMITS (R145) -/

theorem configureLimitsOwner_eq (n grant dig steps settle : Byte) (booking warn : BitVec 16) (t : State) :
    configureLimitsOwner (n :: put16 .lowFirst booking ++ [grant, dig] ++ put16 .lowFirst warn ++ [steps, settle]) t =
      let new : Limits := {
        booking := max 30 (min 900 booking.toNat), grant := max 10 (min 120 grant.toNat), digReserve := min 8 dig.toNat,
        warn := max 10 (min 600 warn.toNat), filterSteps := max 1 (min 8 steps.toNat),
        settleExp := max 1 (min 4 settle.toNat) }
      (t.setLimits new).refuse .ok (new.bytes .lowFirst) := by
  obtain ⟨b₀, b₁, hb⟩ := put16_eq .lowFirst booking
  obtain ⟨w₀, w₁, hw⟩ := put16_eq .lowFirst warn
  have reserve : clamp 0 8 dig.toNat = min 8 dig.toNat := by rw [clamp_eq (by decide)]; exact Nat.max_eq_right (Nat.zero_le _)
  rw [hb, hw]
  simp only [configureLimitsOwner, List.cons_append, List.nil_append, decodeLimits, get16_of_put16 hb, get16_of_put16 hw,
    reserve]
  simp only [clamp_eq (show 30 ≤ 900 by decide), clamp_eq (show 10 ≤ 120 by decide), clamp_eq (show 10 ≤ 600 by decide),
    clamp_eq (show 1 ≤ 8 by decide), clamp_eq (show 1 ≤ 4 by decide)]

/-! ### The limits after REINITIALIZE -/

theorem State.limits_takeRequest {k : RequestKind} {p : Port} {owner : List Byte → State → Reply}
    (h : ∀ body t, (owner body t).work.finish.limits = t.limits) (s : State) : (s.takeRequest k p owner).limits = s.limits := by
  have judged (f : Machine.Frame) (t : State) : (t.judgeRequest k p f (owner f.body)).work.finish.limits = t.limits := by
    unfold State.judgeRequest
    split
    · rw [State.refuse, State.begin_finish]
      exact State.limits_capture ..
    · split
      · rw [State.refuse, State.begin_finish]
      · split
        · rw [State.refuse, State.begin_finish]
        · exact h f.body t
  unfold State.takeRequest
  split
  · rfl
  · split
    · exact judged ..
    · rfl

theorem limits_reinitializeOwner (body : List Byte) (t : State) : (reinitializeOwner body t).work.finish.limits = t.limits := by
  have empty (c : ColIx) : (t.forget.begin.handOccupancy.st.col c).waitList = [] := by
    rw [State.col, Work.columns_handOccupancy]
    exact State.waitList_forget t c
  rw [reinitializeOwner, Work.finish_of_waitLists_nil empty, Work.limits_handOccupancy]
  rfl

/-- Settles O41. -/
theorem configurePortAndLimits : Obligations.ConfigurePortAndLimits := by
  refine ⟨fun s n rot r en mirror o => ?_, fun s n en rot mirror order r => ?_, fun s n b rest length hb offered => ?_,
    fun s n grant dig steps settle booking warn => ?_, fun s t h => ?_, fun s t h => ?_⟩
  · intro old new body bytes busy offered
    have owner := configurePortOwner_decoded (t := s.dropRequest .ps) (r := r) rfl (decodePortConfig_codes n (byte r.val) rot en mirror o)
    have busy_iff : (s.dropRequest .ps).portBusy r = true ↔ busy := State.portBusy_iff
    refine ⟨fun h => ?_, fun differs h => ?_⟩
    · rw [if_neg fun ⟨differs, isBusy⟩ => h.elim differs fun free => free (busy_iff.1 isBusy)] at owner
      exact exec_offered_refused offered rfl rfl (.inl rfl) owner
    · rw [if_pos ⟨differs, busy_iff.2 h⟩] at owner
      exact exec_offered_refused offered rfl rfl (.inl rfl) owner
  · intro body f offered bad
    exact exec_offered_refused offered rfl rfl (.inl rfl) (configurePortOwner_badField (r := r) rfl (decodePortConfig_eq_none bad))
  · exact ⟨_, Vector.length_toList, exec_offered_refused offered (by simp [RequestKind.lengthOk, length]) rfl (.inl rfl)
      (configurePortOwner_noPort hb)⟩
  · intro body new
    refine ⟨fun offered => ?_, fun r offered => ?_⟩
    · exact exec_offered_refused offered rfl rfl (.inl rfl) (configureLimitsOwner_eq n ..)
    · exact exec_offered_notPermitted offered rfl rfl
  · rcases h with h | h <;> · obtain rfl := Host.Outcome.next.inj h; rfl
  · obtain rfl := Host.Outcome.next.inj h
    exact State.limits_takeRequest limits_reinitializeOwner s

end Sys2Proof.Machine
end
-- ==== Sys2Proof/Proofs/LoadCommands.lean ====
section
/-! CONFIGURE LOAD, SET MODE and FORCE (O43). -/
namespace Sys2Proof.Machine

/-! ### CONFIGURE LOAD (R129) -/

theorem Setpoint.withLevels_eq (p : Setpoint) (on off : Byte) : p.withLevels on off =
    { p with onLevel := max 1 (min 48 on.toNat), offLevel := min (min 48 off.toNat) (max 1 (min 48 on.toNat) - 1) } := by
  have lower : (if max 1 (min 48 on.toNat) ≤ max 0 (min 48 off.toNat) then max 1 (min 48 on.toNat) - 1
      else max 0 (min 48 off.toNat)) = min (min 48 off.toNat) (max 1 (min 48 on.toNat) - 1) := by
    split <;> omega
  simp only [Setpoint.withLevels, clamp_eq (show 1 ≤ 48 by decide), clamp_eq (show 0 ≤ 48 by decide), lower]

theorem Setpoint.onLevel_judge (occ : Nat) (p : Setpoint) : (p.judge occ).onLevel = p.onLevel := by
  unfold Setpoint.judge
  split <;> [split <;> rfl; rfl; rfl]

theorem Setpoint.offLevel_judge (occ : Nat) (p : Setpoint) : (p.judge occ).offLevel = p.offLevel := by
  unfold Setpoint.judge
  split <;> [split <;> rfl; rfl; rfl]

theorem Setpoint.forcing_judge (occ : Nat) (p : Setpoint) : (p.judge occ).forcing = p.forcing := by
  unfold Setpoint.judge
  split <;> [split <;> rfl; rfl; rfl]

theorem decodeLoad_eq (l : LoadMonitor) (n hOn hOff fOn fOff high step : Byte) :
    decodeLoad l [n, hOn, hOff, fOn, fOff, high, step] = some { l with
      high := l.high.withLevels hOn hOff
      full := l.full.withLevels fOn fOff
      highLevel := max 2 (min 7 high.toNat), trendStep := max 1 (min 8 step.toNat) } := by
  simp only [decodeLoad, clamp_eq (show 2 ≤ 7 by decide), clamp_eq (show 1 ≤ 8 by decide)]

theorem configureLoadOwner_decoded {body : List Byte} {t : State} {l : LoadMonitor} (h : decodeLoad t.load body = some l) :
    configureLoadOwner body t =
      let new := (l.judge t.occupancy).judgeTrend
      { work := t.begin.setLoad new, result := .ok,
        data := [byte l.high.onLevel, byte l.high.offLevel, byte l.full.onLevel, byte l.full.offLevel, byte l.highLevel,
          byte l.trendStep, flagCode new.high.on, l.high.forcing.code, flagCode new.full.on, l.full.forcing.code,
          new.trend.code] } := by
  simp only [configureLoadOwner, h, LoadMonitor.judge, LoadMonitor.judgeTrend, Setpoint.onLevel_judge,
    Setpoint.offLevel_judge, Setpoint.forcing_judge]

/-! ### SET MODE (R126) -/

theorem modeOf_code (m : Mode) : modeOf m.code = some m := by cases m <;> rfl

theorem modeOf_eq_none {b : Byte} (h : 3 < b) : modeOf b = none := by
  have zero : b ≠ 0 := by bv_omega
  have one : b ≠ 1 := by bv_omega
  have two : b ≠ 2 := by bv_omega
  have three : b ≠ 3 := by bv_omega
  rw [modeOf, if_neg zero, if_neg one, if_neg two, if_neg three]

section
variable {n b hold : Byte} {t : State}

theorem setModeOwner_badField (h : 3 < b) : setModeOwner [n, b, hold] t = t.refuse .badField [] := by
  simp [setModeOwner, modeOf_eq_none h]

/-- A change of the mode touches no setpoint and no trend, so nothing is posted. -/
theorem setModeOwner_mode (m : Mode) : setModeOwner [n, m.code, hold] t =
    let l := { t.load with mode := m, holdLevel := max 2 (min 7 hold.toNat) }
    { work := {
        st := t.setLoad l
        sel := if l.depositGate < t.load.depositGate ∨ l.liftGate < t.load.liftGate then ColIx.all else [] }
      result := .ok
      data := [m.code, byte l.holdLevel, byte l.modeDepositGate, byte l.liftGate, byte l.depositGate] } := by
  simp only [setModeOwner, List.getD_cons_succ, List.getD_cons_zero, modeOf_code, clamp_eq (show 2 ≤ 7 by decide),
    Work.setLoad_eq, LoadMonitor.gateBytes]
  simp [State.begin]

end

/-! ### FORCE (R131) -/

/-- A setpoint after the action of a FORCE: ON, OFF, or AUTOMATIC judged on an occupancy. -/
def Setpoint.afterForce (occ : Nat) (act : Byte) (x : Setpoint) : Setpoint :=
  if act = 0 then { x with forcing := .forcedOn, on := true }
  else if act = 1 then { x with forcing := .forcedOff, on := false }
  else { x with forcing := .automatic
                on := if x.onLevel ≤ occ ∧ x.on = false then true
                      else if occ ≤ x.offLevel ∧ x.on = true then false else x.on }

theorem Setpoint.judge_automatic (occ : Nat) (x : Setpoint) : Setpoint.judge occ { x with forcing := .automatic } =
    { x with forcing := .automatic
             on := if x.onLevel ≤ occ ∧ x.on = false then true
                   else if occ ≤ x.offLevel ∧ x.on = true then false else x.on } := by
  rcases Bool.eq_false_or_eq_true x.on with on | on
  · rw [Setpoint.judge_on (p := { x with forcing := .automatic }) rfl on]
    by_cases h : occ ≤ x.offLevel <;> simp [h, on, Nat.not_lt.2, Nat.lt_of_not_le]
  · rw [Setpoint.judge_off (p := { x with forcing := .automatic }) rfl on]
    by_cases h : x.onLevel ≤ occ <;> simp [h, on]

theorem Setpoint.forced_eq {act : Byte} (h : act ≤ 2) (x : Setpoint) (occ : Nat) :
    x.forced occ act = some (x.afterForce occ act) := by
  unfold Setpoint.forced Setpoint.afterForce
  by_cases zero : act = 0
  · simp [zero]
  by_cases one : act = 1
  · simp [one]
  have two : act = 2 := by bv_omega
  rw [if_neg zero, if_neg one, if_neg zero, if_neg one, if_pos two, Setpoint.judge_automatic]

theorem Setpoint.forced_eq_none {act : Byte} (h : 2 < act) (x : Setpoint) (occ : Nat) : x.forced occ act = none := by
  have zero : act ≠ 0 := by bv_omega
  have one : act ≠ 1 := by bv_omega
  have two : act ≠ 2 := by bv_omega
  rw [Setpoint.forced, if_neg zero, if_neg one, if_neg two]

/-- The reply to a FORCE that has brought a setpoint to `x` and the Load Monitor to `l`. -/
def State.forceReply (t : State) (x : Setpoint) (l : LoadMonitor) : Reply :=
  { work := t.begin.setLoad l, result := .ok, data := [flagCode x.on, x.forcing.code, byte l.depositGate] }

section
variable {n sp act : Byte} {t : State}

theorem forceOwner_high (h : act ≤ 2) : forceOwner [n, 0, act] t =
    t.forceReply (t.load.high.afterForce t.occupancy act) { t.load with high := t.load.high.afterForce t.occupancy act } := by
  simp [forceOwner, Setpoint.forced_eq h, State.forceReply]

theorem forceOwner_full (h : act ≤ 2) : forceOwner [n, 1, act] t =
    t.forceReply (t.load.full.afterForce t.occupancy act) { t.load with full := t.load.full.afterForce t.occupancy act } := by
  simp [forceOwner, Setpoint.forced_eq h, State.forceReply]

theorem forceOwner_badField (h : 1 < sp ∨ 2 < act) : forceOwner [n, sp, act] t = t.refuse .badField [] := by
  rcases h with h | h
  · have zero : sp ≠ 0 := by bv_omega
    have one : sp ≠ 1 := by bv_omega
    simp only [forceOwner, List.getD_cons_succ, List.getD_cons_zero]
    rw [if_neg zero, if_neg one]
  · simp [forceOwner, Setpoint.forced_eq_none h]

end

/-- Settles O43. -/
theorem loadModeAndForce : Obligations.LoadModeAndForce := by
  refine ⟨fun s n hOn hOff fOn fOff high step => ?_, fun s n b hold => ?_, fun s n sp act => ?_⟩
  · intro body on off l new offered
    have owner := configureLoadOwner_decoded (t := s.dropRequest .ps) (decodeLoad_eq s.load n hOn hOff fOn fOff high step)
    simp only [Setpoint.withLevels_eq] at owner
    exact exec_offered offered rfl rfl (.inl rfl) owner
  · intro body
    refine ⟨fun offered m hm => ?_, fun h offered => ?_, fun r offered => ?_⟩
    · subst hm
      exact exec_offered offered rfl rfl (.inl rfl) (setModeOwner_mode m)
    · exact exec_offered_refused offered rfl rfl (.inl rfl) (setModeOwner_badField h)
    · exact exec_offered_notPermitted offered rfl rfl
  · intro body forced done offered
    refine ⟨fun h hs => ?_, fun h hs => ?_, fun h => ?_⟩
    · subst hs
      exact exec_offered offered rfl rfl (.inl rfl) (forceOwner_high h)
    · subst hs
      exact exec_offered offered rfl rfl (.inl rfl) (forceOwner_full h)
    · exact exec_offered_refused offered rfl rfl (.inl rfl) (forceOwner_badField h)

end Sys2Proof.Machine
end
-- ==== Sys2Proof/Proofs/FenceRestore.lean ====
section
/-! FENCE and RESTORE (O44). -/
namespace Sys2Proof.Machine

/-! ### FENCE (R26) -/

section
variable {n b : Byte} {c : ColIx} {t : State}

theorem fenceOwner_badField (h : 7 < b) : fenceOwner [n, b] t = t.refuse .badField [] := by
  simp only [fenceOwner, List.getD_cons_succ, List.getD_cons_zero]
  rw [Byte.below_of_le (by bv_omega)]

/-- What FENCE does to a column, by the column's state. -/
theorem fenceOwner_column : fenceOwner [n, byte c.val] t =
    match (t.col c).state with
    | .opened | .settling => { work := t.begin.enterFenced c .supervisor none, result := .ok, data := [] }
    | .granted => (t.modCol c fun k => { k with fencePending := true }).refuse .ok []
    | .fenced => t.refuse .ok []
    | .unknown | .disabled => t.refuse .badState [] := by
  simp only [fenceOwner, List.getD_cons_succ, List.getD_cons_zero, Byte.below_byte (show 8 ≤ 256 by decide) c] <;> rfl

theorem fenceOwner_enters (h : (t.col c).state = .opened ∨ (t.col c).state = .settling) :
    fenceOwner [n, byte c.val] t = { work := t.begin.enterFenced c .supervisor none, result := .ok, data := [] } := by
  rw [fenceOwner_column]
  rcases h with h | h <;> rw [h]

theorem fenceOwner_granted (h : (t.col c).state = .granted) :
    fenceOwner [n, byte c.val] t = (t.modCol c fun k => { k with fencePending := true }).refuse .ok [] := by
  rw [fenceOwner_column, h]

theorem fenceOwner_fenced (h : (t.col c).state = .fenced) : fenceOwner [n, byte c.val] t = t.refuse .ok [] := by
  rw [fenceOwner_column, h]

theorem fenceOwner_badState (h : (t.col c).state = .unknown ∨ (t.col c).state = .disabled) :
    fenceOwner [n, byte c.val] t = t.refuse .badState [] := by
  rw [fenceOwner_column]
  rcases h with h | h <;> rw [h]

/-! ### RESTORE (R114, R27) -/

/-- A DOUBT record names the column. -/
def State.Doubts (s : State) (c : ColIx) (h : HNum) : Prop := ∃ x, s.hand h = some x ∧ x.state = .doubt ∧ x.column = some c

theorem State.doubts_iff {s : State} {h : HNum} : (match s.hand h with
    | some x => x.state == .doubt && x.column == some c
    | none => false) = true ↔ s.Doubts c h := by
  unfold State.Doubts
  cases s.hand h <;> simp

theorem State.doubtAt_eq_some {s : State} {h : HNum} (doubted : s.Doubts c h) (first : ∀ i, i < h → ¬ s.Doubts c i) :
    s.doubtAt c = some h :=
  (find?_eq_some_of_ascending (by decide) HNum.mem_all).2
    ⟨State.doubts_iff.2 doubted, fun i hi => Bool.eq_false_iff.2 fun e => first i hi (State.doubts_iff.1 e)⟩

theorem State.doubtAt_eq_none {s : State} (undoubted : ∀ h, ¬ s.Doubts c h) : s.doubtAt c = none :=
  List.find?_eq_none.2 fun h _ e => undoubted h (State.doubts_iff.1 e)

theorem restoreOwner_badField (h : 7 < b) : restoreOwner [n, b] t = t.refuse .badField [] := by
  simp only [restoreOwner, List.getD_cons_succ, List.getD_cons_zero]
  rw [Byte.below_of_le (by bv_omega)]

theorem restoreOwner_column : restoreOwner [n, byte c.val] t =
    if (t.col c).state ≠ .fenced then t.refuse .badState [(t.col c).state.code]
    else match t.doubtAt c with
      | some h => t.refuse .doubt [byte h.val]
      | none =>
        if (t.col c).cfg.gaugeMode = .check ∧ (t.col c).readingMatches = false then
          t.refuse .mismatch [byte (t.col c).reported.toNat, byte (t.col c).stack.length]
        else {
          work := Work.startAll (t.begin.up fun s => (s.modCol c fun k => { k with state := .opened, cause := none }).postFence c)
          result := .ok
          data := [ColState.opened.code, byte (t.col c).stack.length, byte (t.col c).reported.toNat] } := by
  simp only [restoreOwner, List.getD_cons_succ, List.getD_cons_zero, Byte.below_byte (show 8 ≤ 256 by decide) c] <;> rfl

theorem restoreOwner_badState (h : (t.col c).state ≠ .fenced) :
    restoreOwner [n, byte c.val] t = t.refuse .badState [(t.col c).state.code] := by
  rw [restoreOwner_column, if_pos h]

theorem restoreOwner_doubt {h : HNum} (fenced : (t.col c).state = .fenced) (hd : t.doubtAt c = some h) :
    restoreOwner [n, byte c.val] t = t.refuse .doubt [byte h.val] := by
  rw [restoreOwner_column, if_neg (not_not_intro fenced), hd]

theorem restoreOwner_mismatch (fenced : (t.col c).state = .fenced) (hd : t.doubtAt c = none)
    (check : (t.col c).cfg.gaugeMode = .check) (differs : (t.col c).reading.toNat ≠ (t.col c).stack.length) :
    restoreOwner [n, byte c.val] t = t.refuse .mismatch [byte (t.col c).reading.toNat, byte (t.col c).stack.length] := by
  have unmatched : (t.col c).readingMatches = false := by simpa [Column.readingMatches] using differs
  rw [restoreOwner_column, if_neg (not_not_intro fenced), hd]
  simp only
  rw [if_pos ⟨check, unmatched⟩, Column.reported_eq, check]
  rfl

theorem restoreOwner_opens (fenced : (t.col c).state = .fenced) (hd : t.doubtAt c = none)
    (fits : (t.col c).cfg.gaugeMode = .check → (t.col c).reading.toNat = (t.col c).stack.length) :
    restoreOwner [n, byte c.val] t = {
      work := {
        st := (t.modCol c fun k => { k with state := .opened, cause := none }).postAll
          ((RegionSet.members (t.col c).cfg.reach).map .region ++ [.ps]) (.fence c)
        sel := ColIx.all }
      result := .ok
      data := [1, byte (t.col c).stack.length,
        if (t.col c).cfg.gaugeMode = .off then 0 else byte (t.col c).reading.toNat] } := by
  have matched : ¬ ((t.col c).cfg.gaugeMode = .check ∧ (t.col c).readingMatches = false) := fun ⟨check, unmatched⟩ => by
    simp [Column.readingMatches, fits check] at unmatched
  have reported : byte (t.col c).reported.toNat =
      if (t.col c).cfg.gaugeMode = .off then 0 else byte (t.col c).reading.toNat := by
    rw [Column.reported_eq]
    split <;> rfl
  have reach : ((t.modCol c fun k => { k with state := .opened, cause := none }).col c).cfg = (t.col c).cfg := by simp
  rw [restoreOwner_column, if_neg (not_not_intro fenced), hd]
  simp only
  rw [if_neg matched, reported, Work.startAll, Work.up]
  simp only [State.begin, State.postFence, reach, List.append_nil] <;> rfl

end

/-- Settles O44. -/
theorem fenceAndRestore : Obligations.FenceAndRestore := by
  refine ⟨fun s n b => ?_, fun s n b => ?_⟩
  · intro body answers offered
    have refusal {t : State} {x : Result} (e : fenceOwner body (s.dropRequest .ps) = t.refuse x []) : answers t x :=
      exec_offered_refused offered rfl rfl (.inl rfl) e
    refine ⟨fun h => refusal (fenceOwner_badField h), fun c hb => ?_⟩
    subst hb
    exact ⟨fun h => exec_offered offered rfl rfl (.inl rfl) (fenceOwner_enters (t := s.dropRequest .ps) h),
      fun h => refusal (fenceOwner_granted (t := s.dropRequest .ps) h),
      fun h => refusal (fenceOwner_fenced (t := s.dropRequest .ps) h),
      fun h => refusal (fenceOwner_badState (t := s.dropRequest .ps) h)⟩
  · intro body answers refused offered
    have refusal {x : Result} {data : List Byte}
        (e : restoreOwner body (s.dropRequest .ps) = (s.dropRequest .ps).refuse x data) : refused x data :=
      exec_offered_refused offered rfl rfl (.inl rfl) e
    refine ⟨fun h => refusal (restoreOwner_badField h), fun c hb => ?_⟩
    subst hb
    intro k reported doubted matching
    refine ⟨fun h => refusal (restoreOwner_badState (t := s.dropRequest .ps) h), fun h fenced isDoubted first => ?_,
      fun fenced none unmatched => ?_, fun fenced none fits => ?_⟩
    · exact refusal (restoreOwner_doubt (t := s.dropRequest .ps) fenced (State.doubtAt_eq_some isDoubted first))
    · obtain ⟨check, differs⟩ := Classical.not_imp.1 unmatched
      exact refusal (restoreOwner_mismatch (t := s.dropRequest .ps) fenced (State.doubtAt_eq_none none) check differs)
    · have owner := restoreOwner_opens (n := n) (t := s.dropRequest .ps) fenced (State.doubtAt_eq_none none) fits
      have column : (s.dropRequest .ps).col c = k := rfl
      rw [column] at owner
      have answered := exec_offered offered rfl rfl (.inl rfl) owner
      exact answered

end Sys2Proof.Machine
end
-- ==== Sys2Proof/Proofs/Reinitialize.lean ====
section
/-! REINITIALIZE forgets the bins (O48). -/
namespace Sys2Proof.Machine

/-! ### The RESET item stands first -/

theorem Notice.same_reset (n : Notice) : n.same .reset = true ↔ n = .reset := by
  cases n <;> simp [Notice.same, Notice.kind, Notice.subject]

theorem head?_joinSet {items : List Notice} (h : items.head? = some .reset) (n : Notice) :
    (joinSet n items).head? = some .reset := by
  obtain ⟨rest, rfl⟩ : ∃ rest, items = .reset :: rest := by
    cases items with
    | nil => cases h
    | cons m rest => exact ⟨rest, by rw [Option.some.inj h]⟩
  have kept : (if n.same .reset then n else .reset) = .reset := by
    split
    · exact (Notice.same_reset n).1 ‹_›
    · rfl
  unfold joinSet
  split
  · simp [kept]
  · rfl

theorem State.head?_post {s : State} {p : Port} (h : (s.pendingSet p).head? = some .reset) (q : Port) (n : Notice) :
    ((s.post q n).pendingSet p).head? = some .reset := by
  rw [State.pendingSet_post]
  split
  · rename_i posted
    exact head?_joinSet (posted.1 ▸ h) n
  · exact h

theorem State.head?_postAll {s : State} {p : Port} (h : (s.pendingSet p).head? = some .reset) (ports : List Port)
    (n : Notice) : ((s.postAll ports n).pendingSet p).head? = some .reset := by
  unfold State.postAll
  induction ports generalizing s with
  | nil => exact h
  | cons q ports ih => exact ih (s.head?_post h q n)

theorem Work.head?_setLoad {w : Work} {p : Port} (h : (w.st.pendingSet p).head? = some .reset) (l : LoadMonitor) :
    ((w.setLoad l).st.pendingSet p).head? = some .reset := by
  rw [Work.setLoad_eq]
  simp only
  split
  · exact State.head?_postAll (s := w.st.setLoad l) h ..
  · exact h

/-! ### A part that holds no bin (R122, R124) -/

theorem State.occupancy_forget (s : State) : s.forget.occupancy = 0 := by
  have empty (c : ColIx) : (s.forget.col c).height = 0 := by
    simp [State.forget, State.col, Column.reinitialized, Column.height]
  rw [State.occupancy]
  simp only [empty, ite_self]
  decide

theorem Setpoint.judge_zero {p : Setpoint} (h : p.forcing = .automatic) (level : 1 ≤ p.onLevel) : (p.judge 0).on = false := by
  rcases Bool.eq_false_or_eq_true p.on with on | off
  · rw [Setpoint.judge_on h on]; simp
  · rw [Setpoint.judge_off h off]; simp; omega

/-- Settles O48. -/
theorem reinitializeForgetsTheBins : Obligations.ReinitializeForgetsTheBins := by
  intro s n offered kept
  have forgotten : (s.dropRequest .ps).forget = kept := rfl
  have taken := exec_reinitialize_offered offered
  have load : kept.begin.handOccupancy.st.load = s.load.judge 0 := by
    rw [Work.handOccupancy, ← forgotten]
    show ((s.dropRequest .ps).forget.begin.setLoad (s.load.judge (s.dropRequest .ps).forget.occupancy)).st.load = _
    rw [State.occupancy_forget]
    obtain ⟨sets, hsets⟩ := (s.dropRequest .ps).forget.begin.setLoad_st_eq_with_load_pendingSets (s.load.judge 0)
    rw [hsets]
  rw [forgotten] at taken
  refine ⟨_, taken, rfl, ?_, fun p => ?_, fun inRange => ⟨fun h => ?_, fun h => ?_⟩⟩
  · have columns : (kept.begin.handOccupancy.st.answered .ps .reinitialize [n] .ok []).columns = kept.columns :=
      Work.columns_handOccupancy _
    simp only [State.occupancy, State.col, columns]
    exact State.occupancy_forget (s.dropRequest .ps)
  · exact Work.head?_setLoad (w := kept.begin) (by rw [← forgotten, State.begin, State.pendingSet_forget]; rfl) _
  · show kept.begin.handOccupancy.st.load.high.on = false
    rw [load]
    exact Setpoint.judge_zero h inRange.load.high.onLevel.1
  · show kept.begin.handOccupancy.st.load.full.on = false
    rw [load]
    exact Setpoint.judge_zero h inRange.load.full.onLevel.1

end Sys2Proof.Machine
end
-- ==== Sys2Proof/Proofs/OneClaim.lean ====
section
/-! Where a record's one claim stands (R95). -/
namespace Sys2Proof.Machine

/-! ### Lists with one member of a kind -/

section
variable {α β : Type} {l : List α} {p : α → Bool}

theorem filter_eq_nil_of_rest {x a : α} {rest : List α} {i : Nat} (one : ((x :: rest).filter p).length = 1)
    (ha : rest[i]? = some a) (hp : p a = true) : p x = false := by
  by_contra hx
  have member : a ∈ rest.filter p := List.mem_filter.2 ⟨List.mem_of_getElem? ha, hp⟩
  rw [List.filter_cons_of_pos (by simpa using hx), List.length_cons] at one
  have := List.length_pos_of_mem member
  omega

/-- The only member of a kind is the one that is found, at its own place. -/
theorem find?_findIdx_of_one : ∀ {l : List α} {i : Nat} {a : α}, (l.filter p).length = 1 → l[i]? = some a → p a = true →
    l.find? p = some a ∧ l.findIdx p = i
  | [], _, _, _, h, _ => by simp at h
  | x :: l, 0, a, _, h, hp => by
    obtain rfl : x = a := by simpa using h
    simp [hp, List.findIdx_cons]
  | x :: l, i + 1, a, one, h, hp => by
    have rest : l[i]? = some a := by simpa using h
    have other : p x = false := filter_eq_nil_of_rest one rest hp
    rw [List.filter_cons_of_neg (by simp [other])] at one
    obtain ⟨found, place⟩ := find?_findIdx_of_one one rest hp
    simp [List.findIdx_cons, other, found, place]

theorem findSome?_of_unique {l : List α} {f : α → Option β} {a : α} {b : β} (ha : a ∈ l) (hf : f a = some b)
    (one : ∀ x, x ≠ a → f x = none) : l.findSome? f = some b := by
  induction l with
  | nil => cases ha
  | cons x l ih =>
    by_cases e : x = a
    · rw [e, List.findSome?_cons, hf]
    · rw [List.findSome?_cons, one x e]
      exact ih ((List.mem_cons.1 ha).resolve_left fun h => e h.symm)

end

/-! ### The place of a record's claim -/

section
variable {s : State} {h : HNum}

/-- The claims of a column for a record. -/
def State.claimsFor (s : State) (h : HNum) (c : ColIx) : List Claim := (s.col c).claims.filter fun cl => cl.handover == h

theorem State.length_allClaims_filter : (s.allClaims.filter fun cl => cl.handover == h).length = ∑ c, (s.claimsFor h c).length := by
  rw [Fin.sum_univ_def, State.allClaims, List.filter_flatMap, List.length_flatMap]
  rfl

theorem State.claimsFor_eq (c : ColIx) : s.claimsFor h c =
    (s.col c).waitList.filter (fun cl => cl.handover == h) ++ (s.col c).grantClaim.filter fun cl => cl.handover == h := by
  rw [State.claimsFor, Column.claims, List.filter_append]

/-- A record with one claim has it in one column. -/
theorem State.one_claim (one : (s.allClaims.filter fun cl => cl.handover == h).length = 1) {c : ColIx}
    (hc : s.claimsFor h c ≠ []) : (s.claimsFor h c).length = 1 ∧ ∀ d, d ≠ c → s.claimsFor h d = [] := by
  rw [State.length_allClaims_filter] at one
  have split := Finset.add_sum_erase Finset.univ (fun c => (s.claimsFor h c).length) (Finset.mem_univ c)
  have here : 1 ≤ (s.claimsFor h c).length := List.length_pos_iff.2 hc
  have rest : ∑ d ∈ Finset.univ.erase c, (s.claimsFor h d).length = 0 := by omega
  refine ⟨by omega, fun d hd => List.length_eq_zero_iff.1 ?_⟩
  exact Finset.sum_eq_zero_iff.1 rest d (Finset.mem_erase.2 ⟨hd, Finset.mem_univ d⟩)

/-- Where one column holds a claim for a record. -/
def State.placeIn (s : State) (h : HNum) (c : ColIx) : Option ClaimPlace :=
  match (s.col c).grant with
  | some g => if g.claim.handover = h then some (.granted c g) else State.claimPlace.waitPlace h c (s.col c)
  | none => State.claimPlace.waitPlace h c (s.col c)

theorem State.claimPlace_eq : s.claimPlace h = ColIx.all.findSome? (s.placeIn h) := rfl

theorem waitPlace_eq_none {c : ColIx} {k : Column} (absent : k.waitList.filter (fun cl => cl.handover == h) = []) :
    State.claimPlace.waitPlace h c k = none := by
  have unfound : k.waitList.find? (fun cl => cl.handover == h) = none :=
    List.find?_eq_none.2 fun x hx hp => List.filter_eq_nil_iff.1 absent x hx hp
  rw [State.claimPlace.waitPlace, unfound]
  rfl

theorem State.placeIn_eq_none {c : ColIx} (absent : s.claimsFor h c = []) : s.placeIn h c = none := by
  rw [State.claimsFor_eq, List.append_eq_nil_iff] at absent
  obtain ⟨unlisted, ungranted⟩ := absent
  unfold State.placeIn
  split
  · rename_i g hg
    have other : g.claim.handover ≠ h := by simpa [Column.grantClaim, hg] using ungranted
    rw [if_neg other, waitPlace_eq_none unlisted]
  · exact waitPlace_eq_none unlisted

theorem State.claimPlace_eq_none (absent : s.recordClaimed h = false) : s.claimPlace h = none := by
  rw [State.claimPlace_eq, List.findSome?_eq_none_iff]
  intro c _
  refine State.placeIn_eq_none (List.filter_eq_nil_iff.2 fun cl hcl hp => ?_)
  have claimed : s.recordClaimed h = true := List.any_eq_true.2 ⟨c, ColIx.mem_all c, List.any_eq_true.2 ⟨cl, hcl, hp⟩⟩
  rw [absent] at claimed
  cases claimed

section
variable (one : (s.allClaims.filter fun cl => cl.handover == h).length = 1) {c : ColIx}
include one

theorem State.claimPlace_of_one {x : ClaimPlace} (hc : s.claimsFor h c ≠ []) (hx : s.placeIn h c = some x) :
    s.claimPlace h = some x := by
  rw [State.claimPlace_eq]
  exact findSome?_of_unique (ColIx.mem_all c) hx fun d hd => State.placeIn_eq_none ((State.one_claim one hc).2 d hd)

theorem State.claimPlace_waiting {i : Nat} {cl : Claim} (hi : (s.col c).waitList[i]? = some cl) (hh : cl.handover = h) :
    s.claimPlace h = some (.waiting c i cl) := by
  have hp : (cl.handover == h) = true := beq_iff_eq.2 hh
  have listed : cl ∈ (s.col c).waitList.filter fun cl => cl.handover == h :=
    List.mem_filter.2 ⟨List.mem_of_getElem? hi, hp⟩
  have here : s.claimsFor h c ≠ [] := by
    rw [State.claimsFor_eq]
    exact List.append_ne_nil_of_left_ne_nil (List.ne_nil_of_mem listed) _
  have single := (State.one_claim one here).1
  rw [State.claimsFor_eq, List.length_append] at single
  have positive := List.length_pos_of_mem listed
  have alone : ((s.col c).waitList.filter fun cl => cl.handover == h).length = 1 := by omega
  obtain ⟨found, place⟩ := find?_findIdx_of_one alone hi hp
  have waits : State.claimPlace.waitPlace h c (s.col c) = some (.waiting c i cl) := by
    rw [State.claimPlace.waitPlace, found, place]
    rfl
  have ungranted : (s.col c).grantClaim.filter (fun cl => cl.handover == h) = [] := List.length_eq_zero_iff.1 (by omega)
  refine State.claimPlace_of_one one here ?_
  unfold State.placeIn
  split
  · rename_i g hg
    have other : g.claim.handover ≠ h := by simpa [Column.grantClaim, hg] using ungranted
    rw [if_neg other, waits]
  · exact waits

theorem State.claimPlace_granted {g : Grant} (hg : (s.col c).grant = some g) (hh : g.claim.handover = h) :
    s.claimPlace h = some (.granted c g) := by
  have here : s.claimsFor h c ≠ [] := by
    rw [State.claimsFor_eq]
    exact List.append_ne_nil_of_right_ne_nil _ (by simp [Column.grantClaim, hg, hh])
  refine State.claimPlace_of_one one here ?_
  simp only [State.placeIn, hg]
  rw [if_pos hh]

end

end

end Sys2Proof.Machine
end
-- ==== Sys2Proof/Proofs/Queries.lean ====
section
/-! QUERY HANDOVER, QUERY COLUMN and QUERY ERROR (O35). -/
namespace Sys2Proof.Machine

/-! ### Items that may be absent (R148) -/

theorem optByte_eq {α : Type} (f : α → Byte) (x : Option α) : optByte f x = (x.map f).getD 0xFF := by cases x <;> rfl

theorem optNat16_eq (o : FieldOrder) (x : Option Nat) :
    optNat16 o x = ((x.map (BitVec.ofNat 16)).map (put16 o)).getD [0xFF, 0xFF] := by cases x <;> rfl

/-! ### QUERY HANDOVER (R53, R95) -/

theorem State.recordItems_eq (s : State) (f : PortConfig) (h : HNum) (x : Handover) :
    let column (c : Option ColIx) : Byte := (c.map fun c => byte (f.toLocal c)).getD 0xFF
    let two (x : Option (BitVec 16)) : List Byte := (x.map (put16 f.order)).getD [0xFF, 0xFF]
    let count (x : Option Nat) : List Byte := two (x.map (BitVec.ofNat 16))
    s.recordItems f h x =
      [x.state.code, byte h.val] ++ put24 f.order x.bin ++ [if x.budget.isSome then 1 else 0,
        (match x.origin with | .region r => byte r.val | .ps => 4), byte x.dest.val, byte x.urgency, x.due.code] ++
      two (match x.due with | .pending t => some (t - s.clock) | .passed => none | .unknown => none) ++
      [byte (f.headingToLocal x.heading).val, column x.column, column x.target] ++ count x.bookingTimer ++
      [(x.holder.map fun r => byte r.port.val).getD 0xFF, (x.holder.map Robot.number).getD 0xFF,
        (x.doubt.map fun d => d.op.code).getD 0xFF, (x.doubt.map fun d => byte d.robot.port.val).getD 0xFF,
        (x.doubt.map fun d => d.robot.number).getD 0xFF] ++
      count (some (match x.budget with
        | none => 65535
        | some d => match d.since with | some t => d.remaining - (s.clock - t).toNat | none => d.remaining)) ++
      two (x.budget.bind Budget.since) ++
      [(x.budget.map fun d => flagCode d.warned).getD 0xFF, (x.budget.map fun d => flagCode d.expired).getD 0xFF,
        (x.closing.map fun y => y.reason.code).getD 0xFF, (x.closing.map fun y => y.waiting.setWidth 8).getD 0xFF] := by
  have cls : x.cls.code = if x.budget.isSome then 1 else 0 := by unfold Handover.cls; split <;> rfl
  have origin : portCode x.origin = match x.origin with | .region r => byte r.val | .ps => 4 := by cases x.origin <;> rfl
  simp only [State.recordItems, PortConfig.columnByte_eq, optByte_eq, optNat16_eq, Handover.liveBudget_eq, cls, origin]
  cases x.due <;> cases x.budget.bind Budget.since <;> rfl

section
variable {s : State} {f : PortConfig} {h : HNum} {x : Handover}

theorem State.handoverData_free (hx : s.hand h = none) : s.handoverData f h = [0] := by rw [State.handoverData, hx]

theorem State.handoverData_follower (hx : s.hand h = some x) {y : Follower} (hy : x.follower = some y) :
    s.handoverData f h = s.recordItems f h x ++ followerItems y := by
  rw [State.handoverData, hx]
  simp only [State.relationItems, hy]

theorem State.handoverData_unclaimed (hx : s.hand h = some x) (alone : x.follower = none) (absent : s.claimPlace h = none) :
    s.handoverData f h = s.recordItems f h x ++ 0 :: List.replicate 11 absentByte := by
  rw [State.handoverData, hx]
  simp only [State.relationItems, alone, absent]

theorem State.handoverData_claimed (hx : s.hand h = some x) (alone : x.follower = none) {place : ClaimPlace}
    (at_ : s.claimPlace h = some place) : s.handoverData f h = s.recordItems f h x ++ s.claimItems f place := by
  rw [State.handoverData, hx]
  simp only [State.relationItems, alone, at_]

theorem State.closingHolder_eq_some {bin : BinNo} : s.closingHolder bin = some h ↔
    (∃ x, s.hand h = some x ∧ x.state = .closing ∧ x.bin = bin) ∧
      ∀ k, k < h → ¬ ∃ x, s.hand k = some x ∧ x.state = .closing ∧ x.bin = bin := by
  have holds (k : HNum) : (match s.hand k with
      | some r => r.state == .closing && r.bin == bin
      | none => false) = true ↔ ∃ x, s.hand k = some x ∧ x.state = .closing ∧ x.bin = bin := by
    cases s.hand k <;> simp
  rw [State.closingHolder, find?_eq_some_of_ascending (by decide) HNum.mem_all]
  refine and_congr (holds h) (forall₂_congr fun k _ => ?_)
  exact (Bool.not_eq_true _).symm.to_iff.trans (not_congr (holds k))

theorem State.closingHolder_eq_none {bin : BinNo} (absent : ∀ k, ∀ x ∈ s.hand k, x.bin ≠ bin) : s.closingHolder bin = none := by
  cases e : s.closingHolder bin with
  | none => rfl
  | some k =>
    obtain ⟨⟨x, hx, -, hbin⟩, -⟩ := State.closingHolder_eq_some.1 e
    exact absurd hbin (absent k x hx)

end

section
variable {p : Port} {n b : Byte} {v : BinNo} {t : State}

/-- The bin or handover number that a QUERY HANDOVER carries, read back in the port's field order. -/
theorem queryHandoverOwner_read : queryHandoverOwner p (n :: b :: put24 (t.view p).order v) t =
    if b = 0 then
      if h : v.toNat < 32 then t.refuse .ok (t.handoverData (t.view p) ⟨v.toNat, h⟩) else t.refuse .badField []
    else if b = 1 then
      if v = 0 then t.refuse .badField []
      else match t.binHolder v, t.closingHolder v with
        | some h, _ => t.refuse .ok (t.handoverData (t.view p) h)
        | none, some h => t.refuse .ok (t.handoverData (t.view p) h)
        | none, none => t.refuse .stale []
    else t.refuse .badField [] := by
  obtain ⟨x, y, z, hv⟩ := put24_eq (t.view p).order v
  simp only [queryHandoverOwner, hv, List.getD_cons_succ, List.getD_cons_zero, get24_of_put24 hv] <;> rfl

theorem queryHandoverOwner_number {h : HNum} (hv : v.toNat = h.val) :
    queryHandoverOwner p (n :: 0 :: put24 (t.view p).order v) t = t.refuse .ok (t.handoverData (t.view p) h) := by
  have below : v.toNat < 32 := hv ▸ h.isLt
  rw [queryHandoverOwner_read, if_pos rfl, dif_pos below]
  simp only [hv]

theorem queryHandoverOwner_noNumber (hv : 31 < v.toNat) :
    queryHandoverOwner p (n :: 0 :: put24 (t.view p).order v) t = t.refuse .badField [] := by
  rw [queryHandoverOwner_read, if_pos rfl, dif_neg (by omega)]

theorem queryHandoverOwner_noBin : queryHandoverOwner p (n :: 1 :: put24 (t.view p).order 0) t = t.refuse .badField [] := by
  rw [queryHandoverOwner_read, if_neg (by decide), if_pos rfl, if_pos rfl]

theorem queryHandoverOwner_bin (hv : v ≠ 0) : queryHandoverOwner p (n :: 1 :: put24 (t.view p).order v) t =
    match t.binHolder v, t.closingHolder v with
      | some h, _ => t.refuse .ok (t.handoverData (t.view p) h)
      | none, some h => t.refuse .ok (t.handoverData (t.view p) h)
      | none, none => t.refuse .stale [] := by
  rw [queryHandoverOwner_read, if_neg (by decide), if_pos rfl, if_neg hv] <;> rfl

theorem queryHandoverOwner_inUse (hv : v ≠ 0) {h : HNum} (held : t.holdsBin h v) (lowest : ∀ k, k < h → ¬ t.holdsBin k v) :
    queryHandoverOwner p (n :: 1 :: put24 (t.view p).order v) t = t.refuse .ok (t.handoverData (t.view p) h) := by
  rw [queryHandoverOwner_bin hv, State.binHolder_eq_some.2 ⟨held, lowest⟩]

theorem queryHandoverOwner_closing (hv : v ≠ 0) (unheld : ∀ k, ¬ t.holdsBin k v) {h : HNum}
    (holds : ∃ x, t.hand h = some x ∧ x.bin = v) (lowest : ∀ k, k < h → ∀ x ∈ t.hand k, x.bin ≠ v) :
    queryHandoverOwner p (n :: 1 :: put24 (t.view p).order v) t = t.refuse .ok (t.handoverData (t.view p) h) := by
  obtain ⟨x, hx, hbin⟩ := holds
  have closing : x.state = .closing := by
    by_contra open_
    exact unheld h ⟨x, hx, open_, hbin⟩
  have found : t.closingHolder v = some h := State.closingHolder_eq_some.2
    ⟨⟨x, hx, closing, hbin⟩, fun k hk ⟨y, hy, _, hybin⟩ => lowest k hk y hy hybin⟩
  rw [queryHandoverOwner_bin hv, State.binHolder_eq_none unheld, found]

theorem queryHandoverOwner_stale (hv : v ≠ 0) (absent : ∀ k, ∀ x ∈ t.hand k, x.bin ≠ v) :
    queryHandoverOwner p (n :: 1 :: put24 (t.view p).order v) t = t.refuse .stale [] := by
  have unheld : ∀ k, ¬ t.holdsBin k v := fun k ⟨x, hx, _, hbin⟩ => absent k x hx hbin
  rw [queryHandoverOwner_bin hv, State.binHolder_eq_none unheld, State.closingHolder_eq_none absent]

theorem queryHandoverOwner_badSelector (hb : 1 < b) :
    queryHandoverOwner p (n :: b :: put24 (t.view p).order v) t = t.refuse .badField [] := by
  have zero : b ≠ 0 := by bv_omega
  have one : b ≠ 1 := by bv_omega
  rw [queryHandoverOwner_read, if_neg zero, if_neg one]

end

/-! ### QUERY COLUMN (R35) -/

/-- The entries of a list of records that are all in use. -/
theorem State.flatMap_entryBytes {s : State} {o : FieldOrder} {hs : List HNum} (used : ∀ h ∈ hs, s.hand h ≠ none) :
    hs.flatMap (s.entryBytes o) =
      hs.flatMap fun h => ((s.hand h).map fun x => byte h.val :: put24 o x.bin ++ [x.state.code]).getD [] := by
  refine List.flatMap_congr fun h hh => ?_
  obtain ⟨x, hx⟩ := Option.ne_none_iff_exists'.1 (used h hh)
  rw [State.entryBytes, hx]
  rfl

theorem State.columnData_eq {s : State} (f : PortConfig) {c : ColIx} (used : ∀ h ∈ (s.col c).stack ++ (s.col c).inbound, s.hand h ≠ none) :
    let k := s.col c
    let entries (hs : List HNum) : List Byte := byte hs.length :: hs.flatMap fun h =>
      ((s.hand h).map fun x => byte h.val :: put24 f.order x.bin ++ [x.state.code]).getD []
    s.columnData f c =
      [byte (f.toLocal c), k.state.code, (k.cause.map FenceCause.code).getD 0xFF, flagCode k.fencePending,
        flagCode k.cfg.enabled, k.cfg.cls.code, byte k.cfg.depth, k.cfg.reach.setWidth 8, k.cfg.gaugeMode.code,
        flagCode k.cfg.rise, flagCode k.cfg.fall] ++ entries k.stack ++ entries k.inbound ++
      [byte (k.cfg.depth - k.stack.length - k.inbound.length), byte k.waitList.length,
        byte (k.waitList.filter fun cl => cl.kind != .holding).length,
        if k.cfg.gaugeMode = .off then 0 else byte k.reading.toNat] := by
  intro k entries
  have stack := State.flatMap_entryBytes (o := f.order) fun h hh => used h (List.mem_append_left _ hh)
  have inbound := State.flatMap_entryBytes (o := f.order) fun h hh => used h (List.mem_append_right _ hh)
  have region : Claim.isRegion = fun cl => cl.kind != .holding := by
    funext cl
    unfold Claim.isRegion
    cases cl.kind <;> rfl
  have reported : byte k.reported.toNat = if k.cfg.gaugeMode = .off then 0 else byte k.reading.toNat := by
    rw [Column.reported_eq]
    split <;> rfl
  simp only [State.columnData, stack, inbound, optByte_eq, Column.regionClaims, region]
  rw [reported]
  simp only [ColumnConfig.bytes, setByte, PortConfig.columnByte, Column.freeRoom, List.append_assoc, List.cons_append,
    List.nil_append, entries, k]

section
variable {p : Port} {n b : Byte} {t : State}

theorem queryColumnOwner_column {c : ColIx} (hc : b.toNat = (t.view p).toLocal c) :
    queryColumnOwner p [n, b] t = t.refuse .ok (t.columnData (t.view p) c) := by
  simp only [queryColumnOwner, List.getD_cons_succ, List.getD_cons_zero, hc, PortConfig.fromLocal_toLocal]

theorem queryColumnOwner_badField (hb : 7 < b) : queryColumnOwner p [n, b] t = t.refuse .badField [] := by
  have above : 7 < b.toNat := by bv_omega
  simp only [queryColumnOwner, List.getD_cons_succ, List.getD_cons_zero, PortConfig.fromLocal_of_lt _ above]

/-! ### QUERY ERROR (R147) -/

theorem queryErrorOwner_group (g : Fin 8) : queryErrorOwner p [n, byte g.val] t = t.refuse .ok ((t.group g).flags ++
    match (t.group g).captured with
    | some e => e.bytes (t.view p)
    | none => []) := by
  simp only [queryErrorOwner, List.getD_cons_succ, List.getD_cons_zero, Byte.below_byte (show 8 ≤ 256 by decide) g] <;> rfl

theorem queryErrorOwner_captured {g : Fin 8} {e : Capture} (he : (t.group g).captured = some e) :
    queryErrorOwner p [n, byte g.val] t = t.refuse .ok
      ([1, if (t.group g).multi then 1 else 0, e.kind.code,
        (match e.port with | some (.region r) => byte r.val | some .ps => 4 | none => 0xFF),
        e.robot.getD 0xFF, (e.handover.map fun h => byte h.val).getD 0xFF,
        (e.column.map fun c => byte ((t.view p).toLocal c)).getD 0xFF] ++ put16 (t.view p).order e.time ++
       [(e.reading.map fun x => byte x.toNat).getD 0xFF, (e.stackLen.map byte).getD 0xFF]) := by
  have port : optByte portCode e.port = match e.port with | some (.region r) => byte r.val | some .ps => 4 | none => 0xFF := by
    rcases e.port with _ | _ | _ <;> rfl
  rw [queryErrorOwner_group]
  simp only [he, ErrorGroup.flags, Capture.bytes, port]
  simp only [optByte_eq, PortConfig.columnByte_eq, Option.map_id]
  rfl

theorem queryErrorOwner_empty {g : Fin 8} (he : (t.group g).captured = none) :
    queryErrorOwner p [n, byte g.val] t = t.refuse .ok [0, if (t.group g).multi then 1 else 0] := by
  rw [queryErrorOwner_group]
  simp only [he, ErrorGroup.flags]
  rfl

theorem queryErrorOwner_badField (hb : 7 < b) : queryErrorOwner p [n, b] t = t.refuse .badField [] := by
  simp only [queryErrorOwner, List.getD_cons_succ, List.getD_cons_zero]
  rw [Byte.below_of_le (by bv_omega)]

end

/-- Settles O35. -/
theorem queriesAnswerAndChangeNothing : Obligations.QueriesAnswerAndChangeNothing := by
  intro s p n b v f answers flag column two count record given
  have handover {body : List Byte} (offered : s.offers p .queryHandover body) (len : body.length = 5) {why : Result}
      {data : List Byte} (e : queryHandoverOwner p body (s.dropRequest p) = (s.dropRequest p).refuse why data) :
      answers .queryHandover body why data :=
    exec_offered_refused offered (by simp [RequestKind.lengthOk, len]) rfl (.inr rfl) e
  have small {k : RequestKind} {body : List Byte} (hk : k = .queryColumn ∨ k = .queryError) (offered : s.offers p k body)
      (len : body.length = 2) {why : Result} {data : List Byte}
      (e : k.owner p body (s.dropRequest p) = (s.dropRequest p).refuse why data) : answers k body why data := by
    rcases hk with rfl | rfl
    · exact exec_offered_refused offered (by simp [RequestKind.lengthOk, len]) rfl (.inr rfl) e
    · exact exec_offered_refused offered (by simp [RequestKind.lengthOk, len]) rfl (.inr rfl) e
  have five (b : Byte) : (n :: b :: put24 f.order v).length = 5 := by
    obtain ⟨x, y, z, e⟩ := put24_eq f.order v
    rw [e]
    rfl
  have gives {h : HNum} {body : List Byte} (given' : answers .queryHandover body .ok (s.handoverData f h)) : given h body := by
    have items (x : Handover) : s.recordItems f h x = record h x := State.recordItems_eq ..
    refine ⟨fun free => ?_, fun x hx => ⟨fun y hy => ?_, fun alone => ⟨fun unclaimed => ?_, fun one =>
      ⟨fun c i cl hi hh => ?_, fun c g hg hh => ?_⟩⟩⟩⟩
    · rw [State.handoverData_free free] at given'
      exact given'
    · rw [State.handoverData_follower hx hy, items] at given'
      rw [List.append_assoc]
      exact given'
    · rw [State.handoverData_unclaimed hx alone (State.claimPlace_eq_none unclaimed), items] at given'
      exact given'
    · rw [State.handoverData_claimed hx alone (State.claimPlace_waiting one hi hh), items] at given'
      simp only [State.claimItems, PortConfig.columnByte_eq] at given'
      exact given'
    · rw [State.handoverData_claimed hx alone (State.claimPlace_granted one hg hh), items] at given'
      have target : s.claimItems f (.granted c g) = [1, byte g.claim.robot.port.val, g.claim.robot.number, g.claim.kind.code, 2,
          column (some c), 0xFF, g.op.kind.code,
          (match g.op with
            | .shift i => column ((s.hand i).bind fun y => y.target)
            | .deposit | .lift | .holding => 0xFF),
          flag g.noticeSent] ++ count g.timer := by
        simp only [State.claimItems, PortConfig.columnByte_eq, optNat16_eq]
        cases g.op <;> rfl
      rw [target] at given'
      rw [List.append_assoc]
      exact given'
  refine ⟨fun offered => ⟨fun h hv => ?_, fun hv => ?_⟩, fun offered => ⟨fun hv => ?_, fun h hv held lowest => ?_,
    fun h hv unheld holds lowest => ?_, fun hv absent => ?_⟩, fun hb offered => ?_,
    fun offered => ⟨fun c hc => ?_, fun hb => ?_⟩, fun offered => ⟨fun g hg => ⟨fun e he => ?_, fun he => ?_⟩, fun hb => ?_⟩⟩
  · exact gives (handover offered (five 0) (queryHandoverOwner_number (t := s.dropRequest p) hv))
  · exact handover offered (five 0) (queryHandoverOwner_noNumber (t := s.dropRequest p) hv)
  · subst hv
    exact handover offered (five 1) (queryHandoverOwner_noBin (t := s.dropRequest p))
  · exact gives (handover offered (five 1) (queryHandoverOwner_inUse (t := s.dropRequest p) hv held lowest))
  · exact gives (handover offered (five 1) (queryHandoverOwner_closing (t := s.dropRequest p) hv unheld holds lowest))
  · exact handover offered (five 1) (queryHandoverOwner_stale (t := s.dropRequest p) hv absent)
  · exact handover offered (five b) (queryHandoverOwner_badSelector (t := s.dropRequest p) hb)
  · intro k g entries region used
    have read : b = byte (f.toLocal c) := by rw [← hc]; simp [byte]
    have given' := small (.inl rfl) offered rfl (queryColumnOwner_column (t := s.dropRequest p) hc)
    rw [State.columnData_eq (s := s.dropRequest p) ((s.dropRequest p).view p) used] at given'
    rw [read] at given' ⊢
    exact given'
  · exact small (.inl rfl) offered rfl (queryColumnOwner_badField (t := s.dropRequest p) hb)
  · subst hg
    exact small (.inr rfl) offered rfl (queryErrorOwner_captured (t := s.dropRequest p) he)
  · subst hg
    exact small (.inr rfl) offered rfl (queryErrorOwner_empty (t := s.dropRequest p) he)
  · exact small (.inr rfl) offered rfl (queryErrorOwner_badField (t := s.dropRequest p) hb)

end Sys2Proof.Machine
end
-- ==== Sys2Proof/Proofs/ConfigureColumn.lean ====
section
/-! CONFIGURE COLUMN makes all its changes or none (O40). -/
namespace Sys2Proof.Machine

/-! ### Reading a configuration (R2, R144) -/

theorem binClassOf_code (k : BinClass) : binClassOf k.code = some k := by cases k <;> rfl

theorem gaugeModeOf_code (g : GaugeMode) : gaugeModeOf g.code = some g := by cases g <;> rfl

theorem reachOf_setWidth (reach : RegionSet) : reachOf (reach.setWidth 8) = some reach := by
  have below : (reach.setWidth 8).toNat < 16 := by rw [BitVec.toNat_setWidth]; omega
  have kept : ∀ r : BitVec 4, (r.setWidth 8).extractLsb' 0 4 = r := by decide
  rw [reachOf, if_pos below, kept reach]

theorem binClassOf_eq_none {b : Byte} (h : 1 < b) : binClassOf b = none := by
  have zero : b ≠ 0 := by bv_omega
  have one : b ≠ 1 := by bv_omega
  rw [binClassOf, if_neg zero, if_neg one]

theorem gaugeModeOf_eq_none {b : Byte} (h : 2 < b) : gaugeModeOf b = none := by
  have zero : b ≠ 0 := by bv_omega
  have one : b ≠ 1 := by bv_omega
  have two : b ≠ 2 := by bv_omega
  rw [gaugeModeOf, if_neg zero, if_neg one, if_neg two]

theorem reachOf_eq_none {b : Byte} (h : 15 < b) : reachOf b = none := if_neg (by bv_omega)

theorem decodeColumnConfig_codes (n c depth : Byte) (en rise fall : Bool) (cls : BinClass) (reach : RegionSet)
    (gauge : GaugeMode) :
    decodeColumnConfig [n, c, flagCode en, cls.code, depth, reach.setWidth 8, gauge.code, flagCode rise, flagCode fall] =
      some { enabled := en, cls := cls, depth := max 2 (min 6 depth.toNat), reach := reach, gaugeMode := gauge,
             rise := rise, fall := fall } := by
  simp only [decodeColumnConfig, flagOf_code, binClassOf_code, reachOf_setWidth, gaugeModeOf_code,
    clamp_eq (show 2 ≤ 6 by decide)]

theorem decodeColumnConfig_eq_none {n c en cls depth reach gauge rise fall : Byte}
    (h : 1 < en ∨ 1 < cls ∨ 15 < reach ∨ 2 < gauge ∨ 1 < rise ∨ 1 < fall) :
    decodeColumnConfig [n, c, en, cls, depth, reach, gauge, rise, fall] = none := by
  simp only [decodeColumnConfig]
  split
  · rename_i hen hcls hreach hgauge hrise hfall
    rcases h with h | h | h | h | h | h
    · rw [flagOf_eq_none h] at hen; cases hen
    · rw [binClassOf_eq_none h] at hcls; cases hcls
    · rw [reachOf_eq_none h] at hreach; cases hreach
    · rw [gaugeModeOf_eq_none h] at hgauge; cases hgauge
    · rw [flagOf_eq_none h] at hrise; cases hrise
    · rw [flagOf_eq_none h] at hfall; cases hfall
  · rfl

/-! ### The conditions of the changes (R3 to R6) -/

theorem Handover.needs_stack {x : Handover} {q : Region} : x.needs false q = false ↔ x.origin ≠ .region q ∧ x.dest ≠ q := by
  simp [Handover.needs]

theorem Handover.needs_inbound {x : Handover} {q : Region} :
    x.needs true q = false ↔ (x.origin ≠ .region q ∧ x.dest ≠ q) ∧ ∀ rb ∈ x.holder, rb.port ≠ q := by
  have holder : (match x.holder with | some rb => rb.port == q | none => false) = false ↔ ∀ rb ∈ x.holder, rb.port ≠ q := by
    cases x.holder <;> simp
  unfold Handover.needs
  rw [Bool.or_eq_false_iff, Bool.true_and, Bool.or_eq_false_iff, beq_eq_false_iff_ne, beq_eq_false_iff_ne]
  exact and_congr_right' holder

section
variable {s : State} {c : ColIx} {gone : Region → Bool}

/-- No record of a list needs a port that goes. -/
theorem State.any_needed {inbound : Bool} {hs : List HNum} : (hs.any fun h =>
      match s.hand h with
      | some r => Region.all.any fun p => gone p && r.needs inbound p
      | none => false) = false ↔ ∀ h ∈ hs, ∀ x ∈ s.hand h, ∀ q, gone q = true → x.needs inbound q = false := by
  rw [List.any_eq_false]
  refine forall₂_congr fun h _ => ?_
  have every : ∀ q : Region, q ∈ Region.all := by decide
  cases s.hand h <;> simp [every]

theorem State.any_shifted : (HNum.all.any fun h =>
      match s.hand h with
      | some r => r.target == some c && (match s.shiftPort h r with | some p => gone p | none => false)
      | none => false) = false ↔
    ∀ h, ∀ x ∈ s.hand h, x.target = some c → ∀ q, s.shiftPort h x = some q → gone q = false := by
  rw [List.any_eq_false]
  simp only [HNum.mem_all, forall_true_left]
  refine forall_congr' fun h => ?_
  cases s.hand h with
  | none => simp
  | some x => cases e : s.shiftPort h x <;> simp [e]

/-- A change of the reach set meets its condition (R5). -/
theorem State.reachHeld_eq_false : s.reachHeld c gone = false ↔ (s.col c).state ≠ .granted ∧ (s.col c).waitList = [] ∧
    (∀ h ∈ (s.col c).stack, ∀ x ∈ s.hand h, ∀ q, gone q = true → x.needs false q = false) ∧
    (∀ h ∈ (s.col c).inbound, ∀ x ∈ s.hand h, ∀ q, gone q = true → x.needs true q = false) ∧
    ∀ h, ∀ x ∈ s.hand h, x.target = some c → ∀ q, s.shiftPort h x = some q → gone q = false := by
  unfold State.reachHeld
  simp only [Bool.or_eq_false_iff, beq_eq_false_iff_ne, Bool.not_eq_false', List.isEmpty_iff, and_assoc]
  refine and_congr_right' (and_congr_right' (and_congr ?_ (and_congr ?_ ?_)))
  · exact State.any_needed
  · exact State.any_needed
  · exact State.any_shifted

/-- Every change of a configuration meets its condition (R3 to R6). -/
def State.Allows (s : State) (c : ColIx) (new : ColumnConfig) : Prop :=
  let k := s.col c
  let old := k.cfg
  let empty : Prop := k.stack = [] ∧ k.inbound = []
  let lost (q : Region) : Prop := RegionSet.has old.reach q = true ∧ RegionSet.has new.reach q = false
  (old.enabled = true → new.enabled = false → (k.state = .opened ∨ k.state = .fenced) ∧ empty ∧ k.waitList = []) ∧
  (new.depth ≠ old.depth → k.stack.length + k.inbound.length ≤ new.depth) ∧ (new.cls ≠ old.cls → empty) ∧
  (new.reach ≠ old.reach → k.state ≠ .granted ∧ k.waitList = [] ∧ ∀ q, lost q →
    (∀ h ∈ k.stack ++ k.inbound, ∀ x ∈ s.hand h, x.origin ≠ .region q ∧ x.dest ≠ q) ∧
    (∀ h ∈ k.inbound, ∀ x ∈ s.hand h, ∀ rb ∈ x.holder, rb.port ≠ q) ∧
    ∀ h, ∀ x ∈ s.hand h, x.target = some c → s.shiftPort h x ≠ some q) ∧
  (new.gaugeMode ≠ old.gaugeMode → k.state ≠ .granted ∧ k.state ≠ .settling)

theorem Column.height_eq_zero {k : Column} : k.height = 0 ↔ k.stack = [] ∧ k.inbound = [] := by
  simp [Column.height]

theorem State.reach_allowed {new : RegionSet} :
    (s.reachHeld c fun p => RegionSet.has (s.col c).cfg.reach p && !RegionSet.has new p) = false ↔
      (s.col c).state ≠ .granted ∧ (s.col c).waitList = [] ∧
      ∀ q, RegionSet.has (s.col c).cfg.reach q = true ∧ RegionSet.has new q = false →
        (∀ h ∈ (s.col c).stack ++ (s.col c).inbound, ∀ x ∈ s.hand h, x.origin ≠ .region q ∧ x.dest ≠ q) ∧
        (∀ h ∈ (s.col c).inbound, ∀ x ∈ s.hand h, ∀ rb ∈ x.holder, rb.port ≠ q) ∧
        ∀ h, ∀ x ∈ s.hand h, x.target = some c → s.shiftPort h x ≠ some q := by
  rw [State.reachHeld_eq_false]
  simp only [Handover.needs_stack, Handover.needs_inbound, Bool.and_eq_true, Bool.not_eq_true', List.mem_append]
  refine and_congr_right' (and_congr_right' ⟨fun ⟨stack, inbound, shifted⟩ q lost => ⟨?_, ?_, ?_⟩, fun each => ⟨?_, ?_, ?_⟩⟩)
  · exact fun h hh x hx => hh.elim (fun hh => stack h hh x hx q lost) fun hh => (inbound h hh x hx q lost).1
  · exact fun h hh x hx => (inbound h hh x hx q lost).2
  · intro h x hx target port
    have stays := shifted h x hx target q port
    rw [lost.1, lost.2] at stays
    cases stays
  · exact fun h hh x hx q lost => (each q lost).1 h (.inl hh) x hx
  · exact fun h hh x hx q lost => ⟨(each q lost).1 h (.inr hh) x hx, (each q lost).2.1 h hh x hx⟩
  · intro h x hx target q port
    by_contra gone
    exact (each q (by simpa using gone)).2.2 h x hx target port

theorem State.changesAllowed_iff {new : ColumnConfig} : s.changesAllowed c new = true ↔ s.Allows c new := by
  unfold State.changesAllowed State.Allows
  simp only [Bool.and_eq_true, Bool.or_eq_true, Bool.not_eq_true', beq_iff_eq, bne_iff_ne, decide_eq_true_eq,
    Column.height_eq_zero, List.isEmpty_iff, State.reach_allowed, and_assoc]
  refine and_congr ?_ (and_congr ?_ (and_congr ?_ (and_congr ?_ ?_)))
  · cases (s.col c).cfg.enabled <;> cases new.enabled <;> simp
  all_goals exact or_iff_not_imp_left

end

/-! ### The changes, all at once -/

section
variable (t : State) (c : ColIx) (new : ColumnConfig)

/-- The column after its changes, and the columns in which they start selection (R4, R76). -/
def State.configured : Work where
  st := t.modCol c fun k => k.reconfigured new
  sel := if (t.col c).cfg.depth < new.depth ∨ ∃ q, RegionSet.has new.reach q = true ∧ RegionSet.has (t.col c).cfg.reach q = false
    then ColIx.all else []

/-- The changes before the occupancy and the fence, as CONFIGURE COLUMN makes them. -/
def State.reconfiguring : Work :=
  let w := t.begin.up (·.modCol c fun k => k.reconfigured new)
  let w := if (t.col c).cfg.depth < new.depth then w.startAll else w
  if Region.all.any fun p => RegionSet.has new.reach p && !RegionSet.has (t.col c).cfg.reach p then w.startAll else w

theorem State.reconfiguring_same : (t.reconfiguring c new).Same (t.configured c new) := by
  have added : (Region.all.any fun p => RegionSet.has new.reach p && !RegionSet.has (t.col c).cfg.reach p) = true ↔
      ∃ q, RegionSet.has new.reach q = true ∧ RegionSet.has (t.col c).cfg.reach q = false := by
    have every : ∀ q : Region, q ∈ Region.all := by decide
    simp [every]
  refine ⟨?_, fun d => ?_⟩
  · unfold State.reconfiguring
    simp only
    split <;> split <;> rfl
  · unfold State.reconfiguring State.configured
    simp only [added]
    by_cases depth : (t.col c).cfg.depth < new.depth <;>
      by_cases port : ∃ q, RegionSet.has new.reach q = true ∧ RegionSet.has (t.col c).cfg.reach q = false <;>
      simp only [depth, port, if_true, if_false, true_or, or_true, or_false, Work.startAll, Work.up, State.begin,
        List.append_nil, List.mem_append, or_self]

theorem State.col_reconfiguring : (t.reconfiguring c new).st.col c = (t.col c).reconfigured new := by
  rw [(t.reconfiguring_same c new).st]
  simp [State.configured]

variable {t c new}

theorem Column.state_reconfigured_of_ne {k : Column} (h : new.enabled ≠ k.cfg.enabled) : (k.reconfigured new).state ≠ .opened := by
  unfold Column.reconfigured
  cases old : k.cfg.enabled <;> cases en : new.enabled
  · exact absurd (en.trans old.symm) h
  · simp
  · simp
  · exact absurd (en.trans old.symm) h

theorem Column.reconfigured_of_eq {k : Column} (h : new.enabled = k.cfg.enabled) : k.reconfigured new = { k with cfg := new } := by
  unfold Column.reconfigured
  rw [h]
  cases k.cfg.enabled <;> rfl

theorem Column.reconfigured_eq (k : Column) : k.reconfigured new =
    if k.cfg.enabled = true ∧ new.enabled = false then
      { k with cfg := new, state := .disabled, cause := none, fencePending := false }
    else if k.cfg.enabled = false ∧ new.enabled = true then { k with cfg := new, state := .unknown }
    else { k with cfg := new } := by
  unfold Column.reconfigured
  cases k.cfg.enabled <;> cases new.enabled <;> rfl

/-- A disabled or an enabled column hands its occupancy on, and is not fenced (entry 13). -/
theorem configureColumn_enabled (h : new.enabled ≠ (t.col c).cfg.enabled) :
    (configureColumn t c new).finish = (t.configured c new).handOccupancy.finish := by
  have shut : ¬ (((t.col c).cfg.gaugeMode != .check && new.gaugeMode == .check &&
      ((t.reconfiguring c new).handOccupancy.st.col c).state == .opened &&
      ((t.reconfiguring c new).handOccupancy.st.col c).reading == 7) = true) := by
    rw [Work.col_handOccupancy, State.col_reconfiguring]
    simp [Column.state_reconfigured_of_ne h]
  have changed : ((t.col c).cfg.enabled != new.enabled) = true := by simpa using h.symm
  have work : configureColumn t c new = (t.reconfiguring c new).handOccupancy := by
    unfold configureColumn
    simp only
    rw [if_pos changed]
    exact if_neg shut
  rw [work]
  exact (Work.Adds.handOccupancy.same (t.reconfiguring_same c new)).finish

section
variable (h : new.enabled = (t.col c).cfg.enabled)
include h

theorem configureColumn_fence_iff :
    ((t.col c).cfg.gaugeMode != .check && new.gaugeMode == .check && ((t.reconfiguring c new).st.col c).state == .opened &&
      ((t.reconfiguring c new).st.col c).reading == 7) = true ↔
    (t.col c).state = .opened ∧ new.gaugeMode = .check ∧ (t.col c).cfg.gaugeMode ≠ .check ∧ (t.col c).reading = 7 := by
  rw [State.col_reconfiguring, Column.reconfigured_of_eq h]
  simp only [Bool.and_eq_true, bne_iff_ne, beq_iff_eq]
  tauto

theorem configureColumn_stays (unfenced : ¬ ((t.col c).state = .opened ∧ new.gaugeMode = .check ∧
      (t.col c).cfg.gaugeMode ≠ .check ∧ (t.col c).reading = 7)) :
    (configureColumn t c new).finish = (t.configured c new).finish := by
  have unchanged : ¬ (((t.col c).cfg.enabled != new.enabled) = true) := by simp [h]
  have work : configureColumn t c new = t.reconfiguring c new := by
    unfold configureColumn
    simp only
    rw [if_neg unchanged]
    exact if_neg fun e => unfenced ((configureColumn_fence_iff h).1 e)
  rw [work]
  exact (t.reconfiguring_same c new).finish

theorem configureColumn_fences (fenced : (t.col c).state = .opened ∧ new.gaugeMode = .check ∧
      (t.col c).cfg.gaugeMode ≠ .check ∧ (t.col c).reading = 7) :
    (configureColumn t c new).finish = ((t.configured c new).enterFenced c .gaugeFault none).finish := by
  have unchanged : ¬ (((t.col c).cfg.enabled != new.enabled) = true) := by simp [h]
  have work : configureColumn t c new = (t.reconfiguring c new).enterFenced c .gaugeFault none := by
    unfold configureColumn
    simp only
    rw [if_neg unchanged]
    exact if_pos ((configureColumn_fence_iff h).2 fenced)
  rw [work]
  exact ((Work.Adds.enterFenced c .gaugeFault none).same (t.reconfiguring_same c new)).finish

end

end

/-! ### The request -/

section
variable {t : State} {body : List Byte} {c : ColIx} {new : ColumnConfig}

theorem configureColumnOwner_noColumn (h : 7 < body.getD 1 0) :
    configureColumnOwner body t = t.refuse .badField Config.configOfNoColumn.toList := by
  unfold configureColumnOwner
  rw [Byte.below_of_le (by bv_omega)]

theorem configureColumnOwner_badField (hc : body.getD 1 0 = byte c.val) (hd : decodeColumnConfig body = none) :
    configureColumnOwner body t = t.refuse .badField (t.col c).cfg.bytes := by
  unfold configureColumnOwner
  rw [hc, Byte.below_byte (n := 8) (by decide) c, hd]

section
variable (hc : body.getD 1 0 = byte c.val) (hd : decodeColumnConfig body = some new)
include hc hd

theorem configureColumnOwner_badState (h : ¬ t.Allows c new) :
    configureColumnOwner body t = t.refuse .badState (t.col c).cfg.bytes := by
  unfold configureColumnOwner
  rw [hc, Byte.below_byte (n := 8) (by decide) c, hd]
  exact if_neg fun e => h (State.changesAllowed_iff.1 e)

theorem configureColumnOwner_changes (h : t.Allows c new) :
    configureColumnOwner body t = { work := configureColumn t c new, result := .ok, data := new.bytes } := by
  unfold configureColumnOwner
  rw [hc, Byte.below_byte (n := 8) (by decide) c, hd]
  exact if_pos (State.changesAllowed_iff.2 h)

end

end

/-- Settles O40. -/
theorem configureColumnChangesAllOrNone : Obligations.ConfigureColumnChangesAllOrNone := by
  refine ⟨fun s n depth c en rise fall cls reach gauge => ?_, fun s n en cls depth reach gauge rise fall c => ?_,
    fun s n b rest length hb offered => ?_⟩
  · intro k old new body bytes empty lost allowed changed base offered
    have decoded : decodeColumnConfig body = some new := decodeColumnConfig_codes ..
    have same : allowed = (s.dropRequest .ps).Allows c new := rfl
    have from_base : (s.dropRequest .ps).configured c new = base := by
      have column : (s.dropRequest .ps).modCol c (fun k => k.reconfigured new) = (s.dropRequest .ps).modCol c fun _ => changed :=
        State.modCol_congr (Column.reconfigured_eq k)
      rw [State.configured, column] <;> rfl
    have changes (h : allowed) := exec_offered offered rfl rfl (.inl rfl)
      (configureColumnOwner_changes (t := s.dropRequest .ps) rfl decoded (same ▸ h))
    refine ⟨fun h => ?_, fun h differs => ?_, fun h stays unfenced => ?_, fun h stays opened check other reading => ?_⟩
    · exact exec_offered_refused offered rfl rfl (.inl rfl)
        (configureColumnOwner_badState (t := s.dropRequest .ps) rfl decoded fun e => h (same ▸ e))
    · have done := changes h
      rw [configureColumn_enabled (t := s.dropRequest .ps) (c := c) (new := new) differs, from_base] at done
      exact done
    · have done := changes h
      rw [configureColumn_stays (t := s.dropRequest .ps) (c := c) (new := new) stays unfenced, from_base] at done
      exact done
    · have done := changes h
      rw [configureColumn_fences (t := s.dropRequest .ps) (c := c) (new := new) stays ⟨opened, check, other, reading⟩, from_base] at done
      exact done
  · intro body g offered bad
    exact exec_offered_refused offered rfl rfl (.inl rfl)
      (configureColumnOwner_badField (t := s.dropRequest .ps) rfl (decodeColumnConfig_eq_none bad))
  · exact ⟨_, Vector.length_toList, exec_offered_refused offered (by simp [RequestKind.lengthOk, length]) rfl (.inl rfl)
      (configureColumnOwner_noColumn hb)⟩

end Sys2Proof.Machine
end
-- ==== Sys2Proof/Proofs/AmendRecords.lean ====
section
/-! What an AMEND does to one record (O47). -/
namespace Sys2Proof.Machine

theorem State.hand_setHand_same (s : State) (h : HNum) (r : Option Handover) : (s.setHand h r).hand h = r := by simp

/-! ### A stack record (R118) -/

section
variable {w : Work} {c : ColIx} {es : List AmendEntry} {h : HNum} {x : Handover} (hx : w.st.hand h = some x)
include hx

theorem Work.dropTarget_eq {t : ColIx} (ht : x.target = some t) : w.dropTarget h = {
    st := (w.st.modCol t fun k => { k with inbound := k.inbound.filter fun i => i != h }).setHand h
      (some { x with target := none })
    sel := ColIx.all ++ w.sel } := by
  have kept (f : Column → Column) : (w.st.modCol t f).hand h = some x := (State.hand_modCol ..).trans hx
  rw [Work.dropTarget_of_some hx ht, Work.leaveInbound_eq, Work.up]
  simp only
  rw [State.modHand_of_some (kept _)]

/-- A record without the target it held, and the step that took it. -/
theorem Work.dropTarget_hand : (w.dropTarget h).st.hand h = some { x with target := none } := by
  cases ht : x.target with
  | none => rw [Work.dropTarget_of_none hx ht, hx, ← ht]
  | some t => rw [Work.dropTarget_eq hx ht]; exact State.hand_setHand_same ..

theorem Work.dropTarget_clock : (w.dropTarget h).st.clock = w.st.clock := by
  cases ht : x.target with
  | none => rw [Work.dropTarget_of_none hx ht]
  | some t => rw [Work.dropTarget_eq hx ht]; rfl

theorem Work.amendStack_listed {e : AmendEntry} (he : es.find? (fun e => e.bin == x.bin) = some e) :
    w.amendStack c es h =
      (w.dropTarget h).up fun s => s.setHand h (some (({ x with target := none } : Handover).restated c w.st.clock e)) := by
  simp only [Work.amendStack, hx, he, Work.up]
  rw [State.modHand_of_some (Work.dropTarget_hand hx), Work.dropTarget_clock hx]

theorem Work.amendStack_unlisted (he : es.find? (fun e => e.bin == x.bin) = none) :
    w.amendStack c es h = Work.close {
      st := (w.dropTarget h).st.modCol c fun k => { k with stack := k.stack.filter fun i => i != h }
      sel := ColIx.all ++ (w.dropTarget h).sel } h .removed (RegionSet.single x.dest) (.withdrawn h x.bin 2) := by
  simp only [Work.amendStack, hx, he] <;> rfl

/-! ### An inbound record in DOUBT (R119) -/

theorem Work.amendInbound_listed {e : AmendEntry} (he : es.find? (fun e => e.bin == x.bin) = some e) :
    w.amendInbound c es h = Work.amendFollower {
      st := (w.st.modCol c fun k => { k with inbound := k.inbound.filter fun i => i != h }).setHand h
        (some (x.restated c w.st.clock e))
      sel := w.sel } c h := by
  have kept (f : Column → Column) : (w.st.modCol c f).hand h = some x := (State.hand_modCol ..).trans hx
  simp only [Work.amendInbound, hx, he, Work.up]
  rw [State.modHand_of_some (kept _)] <;> rfl

theorem Work.amendInbound_booked (he : es.find? (fun e => e.bin == x.bin) = none) {d : Doubt} (hd : x.doubt = some d)
    (op : d.op = .deposit) :
    w.amendInbound c es h = Work.up (Work.judgeCharging { st := w.st.setHand h (some { x with
      state := .booked, doubt := none, bookingTimer := some w.st.limits.booking }), sel := w.sel } h)
      fun s => s.post x.origin (.moved h) := by
  have other : d.op ≠ .holding := by rw [op]; decide
  simp only [Work.amendInbound, hx, he, hd]
  rw [if_neg other, Work.rebook, Work.change_eq hx] <;> rfl

theorem Work.amendInbound_moving (he : es.find? (fun e => e.bin == x.bin) = none) {d : Doubt} (hd : x.doubt = some d)
    (op : d.op = .holding) {rb : Robot} (hr : x.holder = some rb) :
    w.amendInbound c es h = (Work.judgeCharging
      { st := w.st.setHand h (some { x with state := .moving, doubt := none }), sel := w.sel } h).joinNew c rb .holding h := by
  have released : w.amendInbound c es h = (w.setMoving h).joinNew c rb .holding h := by
    simp only [Work.amendInbound, hx, he, hd, hr]
    rw [if_pos op]
  rw [released, Work.setMoving, Work.change_eq hx] <;> rfl

end

section
variable {w : Work} {c : ColIx} {h : HNum} {x : Handover} (hx : w.st.hand h = some x)
include hx

theorem Work.amendFollower_none (hf : x.follower = none) : w.amendFollower c h = w := by
  simp only [Work.amendFollower, hx, hf]

theorem Work.amendFollower_joins {f : Follower} (hf : x.follower = some f) (same : f.robot.port = x.dest) :
    w.amendFollower c h = (w.up fun s => s.setHand h (some { x with follower := none })).join c
      { robot := f.robot, kind := .lift, handover := h, stamp := f.stamp, blocked := false } := by
  simp only [Work.amendFollower, hx, hf]
  rw [if_pos same]

theorem Work.amendFollower_dismissed {f : Follower} (hf : x.follower = some f) (other : f.robot.port ≠ x.dest) :
    w.amendFollower c h = (w.up fun s => s.setHand h (some { x with follower := none })).up fun s =>
      s.post (.region f.robot.port) (.dismissed h f.robot.number 2) := by
  simp only [Work.amendFollower, hx, hf]
  rw [if_neg other]
  rfl

end

/-! ### The record of an entry (R117, R120) -/

section
variable {s : State} {c : ColIx}

theorem State.ownHolder_eq_some {bin : BinNo} {h : HNum} : s.ownHolder c bin = some h ↔
    s.holdsBin h bin ∧ (∀ i, i < h → ¬ s.holdsBin i bin) ∧ ∃ x, s.hand h = some x ∧ x.column = some c := by
  rw [← and_assoc, ← State.binHolder_eq_some]
  unfold State.ownHolder
  cases hb : s.binHolder bin with
  | none => simp
  | some k =>
    simp only
    cases hk : s.hand k with
    | none =>
      simp only [Option.some.injEq, reduceCtorEq, false_iff]
      rintro ⟨rfl, x, hx, -⟩
      rw [hk] at hx
      cases hx
    | some r =>
      simp only [Option.some.injEq]
      split
      · rename_i column
        exact ⟨fun e => ⟨Option.some.inj e, r, Option.some.inj e ▸ hk, column⟩, fun ⟨e, _⟩ => congrArg some e⟩
      · rename_i column
        refine ⟨fun e => (nomatch e), ?_⟩
        rintro ⟨rfl, x, hx, hc⟩
        rw [hk] at hx
        cases hx
        exact absurd hc column

theorem State.amendCreate_known {e : AmendEntry} {h : HNum} (own : s.ownHolder c e.bin = some h) : s.amendCreate c e = s := by
  simp only [State.amendCreate, own]

theorem State.amendCreate_new {e : AmendEntry} {h : HNum} (own : s.ownHolder c e.bin = none) (free : s.lowestFree = some h) :
    s.amendCreate c e = s.setHand h (some (e.newRecord c s.clock)) := by
  simp only [State.amendCreate, own, free]

end

/-- Settles O47. -/
theorem amendSettlesEachRecord : Obligations.AmendSettlesEachRecord := by
  intro w c es s dueOf budgetOf
  refine ⟨fun h x hx => ?_, fun bin h => State.ownHolder_eq_some, fun e => ⟨fun h own => State.amendCreate_known own,
    fun h own free lowest => ?_⟩⟩
  · intro entry restated loose base lone
    have dropped : w.dropTarget h = base := by
      cases ht : x.target with
      | none => rw [Work.dropTarget_of_none hx ht]; simp only [base, ht]
      | some t => rw [Work.dropTarget_eq hx ht]; simp only [base, ht] <;> rfl
    refine ⟨fun e he => ⟨?_, fun hf => ?_, fun f hf => ?_⟩, fun he => ⟨?_, fun d hd => ⟨fun op => ?_, fun rb op hr => ?_⟩⟩⟩
    · rw [Work.amendStack_listed hx he, dropped] <;> rfl
    · rw [Work.amendInbound_listed hx he, Work.amendFollower_none (x := restated x e) (State.hand_setHand_same ..) hf] <;> rfl
    · intro left
      rw [Work.amendInbound_listed hx he]
      refine ⟨fun same => ?_, fun other => ?_⟩
      · rw [Work.amendFollower_joins (x := restated x e) (State.hand_setHand_same ..) hf same]
        simp only [Work.up, State.setHand_setHand] <;> rfl
      · rw [Work.amendFollower_dismissed (x := restated x e) (State.hand_setHand_same ..) hf other]
        simp only [Work.up, State.setHand_setHand] <;> rfl
    · rw [Work.amendStack_unlisted hx he, dropped]
    · exact Work.amendInbound_booked hx he hd op
    · exact Work.amendInbound_moving hx he hd op hr
  · exact State.amendCreate_new own (State.lowestFree_eq_some.2 ⟨free, lowest⟩)

end Sys2Proof.Machine
end
-- ==== Sys2Proof/Proofs/AmendEntries.lean ====
section
/-! The entries of an AMEND as they are read (R116). -/
namespace Sys2Proof.Machine

/-- An entry as it is stated: the quantities clamped to their ranges (R144). -/
def statedEntry (bin : BinNo) (dest : Region) (urg : Byte) (hd : Heading) (dueIn budget : BitVec 16) : AmendEntry where
  bin := bin
  dest := dest
  urgency := max 1 (min 7 urg.toNat)
  heading := hd
  dueIn := if 4095 < dueIn then 4094 else dueIn.toNat
  budget := min 3600 budget.toNat

theorem length_entryBody (bin : BinNo) (dest : Region) (urg : Byte) (hd : Heading) (dueIn budget : BitVec 16) :
    (entryBody bin dest urg hd dueIn budget).length = 10 := by
  simp [entryBody]

theorem decodeEntry_refused {bin : BinNo} {dst urg hd : Byte} {dueIn budget : BitVec 16} (bad : bin = 0 ∨ 3 < dst ∨ 3 < hd) :
    decodeEntry (put24 .lowFirst bin ++ [dst, urg, hd] ++ put16 .lowFirst dueIn ++ put16 .lowFirst budget) = none := by
  obtain ⟨b₀, b₁, b₂, hb⟩ := put24_eq .lowFirst bin
  obtain ⟨d₀, d₁, hd'⟩ := put16_eq .lowFirst dueIn
  obtain ⟨g₀, g₁, hg⟩ := put16_eq .lowFirst budget
  rw [hb, hd', hg]
  simp only [List.cons_append, List.nil_append, decodeEntry, get24_of_put24 hb]
  rcases bad with h | h | h
  · split
    · exact if_pos h
    · rfl
  · rw [Byte.below_of_le (n := 4) (b := dst) (by bv_omega)]
  · rw [Byte.below_of_le (n := 4) (b := hd) (by bv_omega)]
    cases Byte.below 4 dst <;> rfl

theorem decodeEntry_entryBody {bin : BinNo} (hbin : bin ≠ 0) (dest : Region) (urg : Byte) (hd : Heading)
    (dueIn budget : BitVec 16) :
    decodeEntry (entryBody bin dest urg hd dueIn budget) = some (statedEntry bin dest urg hd dueIn budget) := by
  obtain ⟨b₀, b₁, b₂, hb⟩ := put24_eq .lowFirst bin
  obtain ⟨d₀, d₁, hd'⟩ := put16_eq .lowFirst dueIn
  obtain ⟨g₀, g₁, hg⟩ := put16_eq .lowFirst budget
  have least : clamp 0 3600 budget.toNat = min 3600 budget.toNat := by
    rw [clamp_eq (by decide)]
    exact Nat.max_eq_right (Nat.zero_le _)
  have above : 4095 < dueIn.toNat ↔ 4095 < dueIn := by bv_omega
  rw [entryBody, hb, hd', hg]
  simp only [List.cons_append, List.nil_append, decodeEntry, get24_of_put24 hb, get16_of_put16 hd', get16_of_put16 hg,
    Byte.below_byte (show 4 ≤ 256 by decide), least, clamp_eq (show 1 ≤ 7 by decide), clampDueIn, above]
  rw [if_neg hbin]
  rfl

/-- The first entry of a list is read before the others. -/
theorem decodeEntries_cons {first rest : List Byte} (h : first.length = 10) (n pos : Nat) :
    decodeEntries (n + 1) pos (first ++ rest) =
      match decodeEntry first with
      | none => .error pos
      | some e =>
        match decodeEntries n (pos + 1) rest with
        | .error p => .error p
        | .ok es => .ok (e :: es) := by
  rw [decodeEntries, List.take_left' h, List.drop_left' h] <;> rfl

/-- Entries that are all accepted are read up to what follows them. -/
theorem decodeEntries_append (n : Nat) (rest : List Byte) :
    ∀ {fields : List (BinNo × Region × Byte × Heading × BitVec 16 × BitVec 16)} (_ : ∀ x ∈ fields, x.1 ≠ 0) (pos : Nat),
    decodeEntries (fields.length + n) pos
        ((fields.flatMap fun (bin, dest, urg, hd, dueIn, budget) => entryBody bin dest urg hd dueIn budget) ++ rest) =
      match decodeEntries n (pos + fields.length) rest with
      | .error p => .error p
      | .ok es => .ok ((fields.map fun (bin, dest, urg, hd, dueIn, budget) => statedEntry bin dest urg hd dueIn budget) ++ es)
  | [], _, pos => by
    simp only [List.length_nil, Nat.zero_add, List.flatMap_nil, List.nil_append, Nat.add_zero, List.map_nil]
    cases decodeEntries n pos rest <;> rfl
  | (bin, dest, urg, hd, dueIn, budget) :: fields, bins, pos => by
    obtain ⟨hbin, others⟩ := List.forall_mem_cons.1 bins
    have later : pos + 1 + fields.length = pos + (fields.length + 1) := by omega
    rw [List.length_cons, Nat.add_right_comm, List.flatMap_cons, List.append_assoc,
      decodeEntries_cons (length_entryBody ..), decodeEntry_entryBody hbin, decodeEntries_append n rest others, later]
    cases decodeEntries n (pos + (fields.length + 1)) rest <;> rfl

theorem decodeEntries_stated {fields : List (BinNo × Region × Byte × Heading × BitVec 16 × BitVec 16)}
    (bins : ∀ x ∈ fields, x.1 ≠ 0) (pos : Nat) :
    decodeEntries fields.length pos
        (fields.flatMap fun (bin, dest, urg, hd, dueIn, budget) => entryBody bin dest urg hd dueIn budget) =
      .ok (fields.map fun (bin, dest, urg, hd, dueIn, budget) => statedEntry bin dest urg hd dueIn budget) := by
  have read := decodeEntries_append 0 [] bins pos
  simpa [decodeEntries] using read

theorem decodeEntries_error {fields : List (BinNo × Region × Byte × Heading × BitVec 16 × BitVec 16)}
    (bins : ∀ x ∈ fields, x.1 ≠ 0) (pos : Nat) {bad : List Byte} (length : bad.length = 10) (hbad : decodeEntry bad = none)
    (rest : List Byte) (m : Nat) :
    decodeEntries (fields.length + 1 + m) pos
        ((fields.flatMap fun (bin, dest, urg, hd, dueIn, budget) => entryBody bin dest urg hd dueIn budget) ++ bad ++ rest) =
      .error (pos + fields.length) := by
  have order : fields.length + 1 + m = fields.length + (m + 1) := by omega
  rw [order, List.append_assoc, decodeEntries_append (m + 1) (bad ++ rest) bins, decodeEntries_cons length, hbad]

end Sys2Proof.Machine
end
-- ==== Sys2Proof/Proofs/AmendRefusals.lean ====
section
/-! The refusals of an AMEND, in their order (O45). -/
namespace Sys2Proof.Machine

/-! ### The first place of a list -/

/-- The first entry of a list of which `p` holds stands at place `i`. -/
def FirstAt (es : List AmendEntry) (p : Nat → AmendEntry → Prop) (i : Nat) : Prop :=
  (∃ e, es[i]? = some e ∧ p i e) ∧ ∀ j e, j < i → es[j]? = some e → ¬ p j e

section
variable {es : List AmendEntry}

theorem getElem?_lt {i : Nat} {e : AmendEntry} (h : es[i]? = some e) : i < es.length := (List.getElem?_eq_some_iff.1 h).1

theorem findSome?_range {β : Type} {f : Nat → Option β} {b : β} {i : Nat} (hi : f i = some b) (before : ∀ j, j < i → f j = none) :
    ∀ {n : Nat}, i < n → (List.range n).findSome? f = some b
  | n + 1, h => by
    rw [List.range_succ, List.findSome?_append]
    rcases Nat.lt_succ_iff_lt_or_eq.1 h with lt | rfl
    · rw [findSome?_range hi before lt]
      rfl
    · have earlier : (List.range i).findSome? f = none :=
        List.findSome?_eq_none_iff.2 fun j hj => before j (List.mem_range.1 hj)
      rw [earlier]
      simp [hi]

/-- A bin is listed a second time at place `i` (R117, test 2). -/
def RepeatedAt (es : List AmendEntry) (i : Nat) (e : AmendEntry) : Prop := ∃ j x, j < i ∧ es[j]? = some x ∧ x.bin = e.bin

theorem any_take_iff {i : Nat} {e : AmendEntry} : ((es.take i).any fun x => x.bin == e.bin) = true ↔ RepeatedAt es i e := by
  rw [List.any_eq_true]
  constructor
  · rintro ⟨x, hx, same⟩
    obtain ⟨j, hj⟩ := List.mem_iff_getElem?.1 hx
    have below : j < i := (List.getElem?_eq_some_iff.1 hj).1.trans_le (List.length_take_le ..)
    rw [List.getElem?_take_of_lt below] at hj
    exact ⟨j, x, below, hj, beq_iff_eq.1 same⟩
  · rintro ⟨j, x, below, hj, same⟩
    rw [← List.getElem?_take_of_lt below] at hj
    exact ⟨x, List.mem_of_getElem? hj, beq_iff_eq.2 same⟩

theorem repeatedAt_eq_some {i : Nat} : repeatedAt es = some i ↔ FirstAt es (RepeatedAt es) i := by
  have test (j : Nat) : (match es[j]? with
      | some e => (es.take j).any fun x => x.bin == e.bin
      | none => false) = true ↔ ∃ e, es[j]? = some e ∧ RepeatedAt es j e := by
    cases es[j]? with
    | none => simp
    | some e => simpa using any_take_iff
  unfold repeatedAt FirstAt
  rw [List.find?_range_eq_some]
  refine ⟨fun ⟨here, _, before⟩ => ⟨(test i).1 here, fun j e hj he hr => ?_⟩, fun ⟨here, before⟩ => ⟨(test i).2 here, ?_, fun j hj => ?_⟩⟩
  · have earlier := before j hj
    rw [Bool.not_eq_true', Bool.eq_false_iff] at earlier
    exact earlier ((test j).2 ⟨e, he, hr⟩)
  · obtain ⟨e, he, -⟩ := here
    exact List.mem_range.2 (getElem?_lt he)
  · rw [Bool.not_eq_true', Bool.eq_false_iff]
    intro h
    obtain ⟨e, he, hr⟩ := (test j).1 h
    exact before j e hj he hr

theorem repeatedAt_eq_none (absent : ∀ i, ¬ FirstAt es (RepeatedAt es) i) : repeatedAt es = none := by
  cases e : repeatedAt es with
  | none => rfl
  | some i => exact absurd (repeatedAt_eq_some.1 e) (absent i)

end

/-! ### Whose record holds a bin (R116, R117) -/

section
variable {s : State} {c : ColIx} {es : List AmendEntry}

/-- The record in use of column `c` with a bin. -/
def State.ownRecord (s : State) (c : ColIx) (bin : BinNo) : Option Handover :=
  ((s.binHolder bin).bind s.hand).filter fun x => x.column == some c

theorem State.binHolder_any (s : State) (bin : BinNo) :
    (HNum.all.find? fun h => (s.hand h).any fun x => x.state != .closing && x.bin == bin) = s.binHolder bin := by
  unfold State.binHolder
  congr 1
  funext h
  cases s.hand h <;> rfl

theorem State.ownHolder_cases (s : State) (c : ColIx) (bin : BinNo) :
    s.binHolder bin = none ∧ s.ownHolder c bin = none ∧ s.otherHolder c bin = none ∧ s.ownRecord c bin = none ∨
    ∃ h x, s.binHolder bin = some h ∧ s.hand h = some x ∧
      (x.column = some c ∧ s.ownHolder c bin = some h ∧ s.otherHolder c bin = none ∧ s.ownRecord c bin = some x ∨
        x.column ≠ some c ∧ s.ownHolder c bin = none ∧ s.otherHolder c bin = some h ∧ s.ownRecord c bin = none) := by
  unfold State.ownHolder State.otherHolder State.ownRecord
  cases hb : s.binHolder bin with
  | none => exact .inl ⟨rfl, rfl, rfl, rfl⟩
  | some h =>
    obtain ⟨⟨x, hx, -⟩, -⟩ := State.binHolder_eq_some.1 hb
    have hx : s.hand h = some x := hx
    refine .inr ⟨h, x, rfl, hx, ?_⟩
    by_cases column : x.column = some c <;> simp [hx, column]

theorem State.bind_ownHolder (bin : BinNo) : (s.ownHolder c bin).bind s.hand = s.ownRecord c bin := by
  rcases s.ownHolder_cases c bin with ⟨-, own, -, record⟩ | ⟨h, x, -, hx, ⟨-, own, -, record⟩ | ⟨-, own, -, record⟩⟩
  · rw [own, record]; rfl
  · rw [own, record]; exact hx
  · rw [own, record]; rfl

theorem State.isNone_ownHolder (bin : BinNo) : (s.ownHolder c bin).isNone = (s.ownRecord c bin).isNone := by
  rcases s.ownHolder_cases c bin with ⟨-, own, -, record⟩ | ⟨h, x, -, hx, ⟨-, own, -, record⟩ | ⟨-, own, -, record⟩⟩ <;>
    rw [own, record] <;> rfl

theorem State.otherHolder_eq (bin : BinNo) :
    s.otherHolder c bin = if s.ownRecord c bin = none then s.binHolder bin else none := by
  rcases s.ownHolder_cases c bin with ⟨hb, -, other, record⟩ | ⟨h, x, hb, -, ⟨-, -, other, record⟩ | ⟨-, -, other, record⟩⟩ <;>
    rw [other, record] <;> simp [hb]

/-- An entry whose destination is the region origin of the record that holds its bin (R116, test 4). -/
theorem State.selfHanded_eq_some {i : Nat} : s.selfHanded c es = some i ↔
    FirstAt es (fun _ e => ∃ x ∈ s.ownRecord c e.bin, x.origin = .region e.dest) i := by
  have test (e : AmendEntry) : (match s.ownHolder c e.bin with
      | some h =>
        match s.hand h with
        | some r => r.origin == .region e.dest
        | none => false
      | none => false) = true ↔ ∃ x ∈ s.ownRecord c e.bin, x.origin = .region e.dest := by
    rw [← State.bind_ownHolder]
    cases s.ownHolder c e.bin with
    | none => simp
    | some h =>
      simp only [Option.bind_some]
      rcases s.hand h with _ | x <;> simp
  unfold State.selfHanded FirstAt
  rw [List.findIdx?_eq_some_iff_getElem]
  constructor
  · rintro ⟨hi, here, before⟩
    refine ⟨⟨_, List.getElem?_eq_getElem hi, (test _).1 here⟩, fun j e hj he h => ?_⟩
    obtain ⟨inside, rfl⟩ := List.getElem?_eq_some_iff.1 he
    exact before j hj ((test _).2 h)
  · rintro ⟨⟨e, he, here⟩, before⟩
    obtain ⟨hi, rfl⟩ := List.getElem?_eq_some_iff.1 he
    exact ⟨hi, (test _).2 here, fun j hj h => before j _ hj (List.getElem?_eq_getElem (hj.trans hi)) ((test _).1 h)⟩

theorem State.selfHanded_eq_none (absent : ∀ i, ¬ FirstAt es (fun _ e => ∃ x ∈ s.ownRecord c e.bin, x.origin = .region e.dest) i) :
    s.selfHanded c es = none := by
  cases e : s.selfHanded c es with
  | none => rfl
  | some i => exact absurd (State.selfHanded_eq_some.1 e) (absent i)

/-- The first entry whose bin a record in use of no column `c` holds (R117, test 2). -/
theorem State.heldElsewhere_eq_some {i : Nat} {e : AmendEntry} {h : HNum}
    (first : FirstAt es (fun _ e => s.otherHolder c e.bin ≠ none) i) (he : es[i]? = some e) (other : s.otherHolder c e.bin = some h) :
    s.heldElsewhere c es = some (i, h) := by
  refine findSome?_range ?_ (fun j hj => ?_) (getElem?_lt he)
  · simp only [he, other, Option.map_some]
  · cases ej : es[j]? with
    | none => rfl
    | some x =>
      have absent : s.otherHolder c x.bin = none := not_not.1 (first.2 j x hj ej)
      simp only [absent, Option.map_none]

theorem State.heldElsewhere_eq_none (absent : ∀ e ∈ es, s.otherHolder c e.bin = none) : s.heldElsewhere c es = none := by
  refine List.findSome?_eq_none_iff.2 fun i _ => ?_
  cases e : es[i]? with
  | none => rfl
  | some x => simp only [absent x (List.mem_of_getElem? e), Option.map_none]

/-! ### The two tests for a bin that is known twice (entry 11) -/

theorem State.amendDuplicate_twice {i : Nat} (twice : repeatedAt es = some i) (held : s.heldElsewhere c es = none) :
    s.amendDuplicate c es = some [byte i, 0xFF] := by
  unfold State.amendDuplicate
  rw [twice, held]
  exact ite_self _

theorem State.amendDuplicate_held {i : Nat} {h : HNum} (twice : repeatedAt es = none) (held : s.heldElsewhere c es = some (i, h)) :
    s.amendDuplicate c es = some [byte i, byte h.val] := by
  unfold State.amendDuplicate
  rw [twice, held]
  exact ite_self _

theorem State.amendDuplicate_both {i j : Nat} {h : HNum} (twice : repeatedAt es = some j) (held : s.heldElsewhere c es = some (i, h)) :
    s.amendDuplicate c es = some [byte j, 0xFF] ∨ s.amendDuplicate c es = some [byte i, byte h.val] := by
  unfold State.amendDuplicate
  rw [twice, held]
  simp only
  split
  · exact .inl rfl
  · exact .inr rfl

theorem State.amendDuplicate_none (twice : repeatedAt es = none) (held : s.heldElsewhere c es = none) :
    s.amendDuplicate c es = none := by
  unfold State.amendDuplicate
  rw [twice, held]
  exact ite_self _

/-! ### How many records an AMEND needs and has (R117, tests 3 and 4) -/

theorem State.isListed_eq (s : State) (es : List AmendEntry) (h : HNum) :
    s.isListed es h = (s.hand h).any fun x => es.any fun e => e.bin == x.bin := by
  unfold State.isListed
  cases s.hand h <;> rfl

theorem State.needed_eq : s.needed c es = (es.filter fun e => (s.ownRecord c e.bin).isNone).length := by
  simp only [State.needed, State.isNone_ownHolder]

theorem State.unlisted_eq : s.unlisted c es =
    (s.col c).stack.filter fun h => !(s.hand h).any fun x => es.any fun e => e.bin == x.bin := by
  simp only [State.unlisted, State.isListed_eq]

theorem State.inboundDoubts_eq : s.inboundDoubts c =
    (s.col c).inbound.filter fun h => (s.hand h).any fun x => x.state == .doubt && x.column == some c := by
  unfold State.inboundDoubts
  refine List.filter_congr fun h _ => ?_
  cases s.hand h <;> rfl

theorem State.remaining_eq : s.remaining c es =
    ((s.inboundDoubts c).filter fun h => !(s.hand h).any fun x => es.any fun e => e.bin == x.bin).length +
    (HNum.all.filter fun h => (s.hand h).any fun x => x.state == .doubt && x.target == some c && x.column != some c).length := by
  have shifted : (fun h => match s.hand h with
      | some r => r.state == .doubt && r.target == some c && r.column != some c
      | none => false) = fun h => (s.hand h).any fun x => x.state == .doubt && x.target == some c && x.column != some c := by
    funext h
    cases s.hand h <;> rfl
  unfold State.remaining
  simp only [State.isListed_eq]
  exact congrArg _ (congrArg (fun f => (HNum.all.filter f).length) shifted)

/-! ### The tests in their order -/

section
variable {n b count : Byte} {rest : List Byte}

theorem amendOwner_noColumn (h : 7 < b) : amendOwner (n :: b :: count :: rest) s = s.refuse .badField [] := by
  simp only [amendOwner, List.getD_cons_succ, List.getD_cons_zero]
  rw [Byte.below_of_le (by bv_omega)]

theorem amendOwner_tooMany (h : (s.col c).cfg.depth < count.toNat) :
    amendOwner (n :: byte c.val :: count :: rest) s = s.refuse .badField [] := by
  simp only [amendOwner, List.getD_cons_succ, List.getD_cons_zero]
  rw [Byte.below_byte (n := 8) (by decide) c]
  exact if_pos h

/-- A list no longer than the column's depth is read. -/
theorem amendOwner_read (fits : count.toNat ≤ (s.col c).cfg.depth) :
    amendOwner (n :: byte c.val :: count :: rest) s =
      match decodeEntries count.toNat 0 rest with
      | .error i => s.refuse .badField [byte i]
      | .ok es =>
        match s.selfHanded c es with
        | some i => s.refuse .badField [byte i]
        | none => amendJudged s c es := by
  simp only [amendOwner, List.getD_cons_succ, List.getD_cons_zero]
  rw [Byte.below_byte (n := 8) (by decide) c]
  exact if_neg (Nat.not_lt.2 fits)

theorem amendOwner_badEntry (fits : count.toNat ≤ (s.col c).cfg.depth) {i : Nat} (h : decodeEntries count.toNat 0 rest = .error i) :
    amendOwner (n :: byte c.val :: count :: rest) s = s.refuse .badField [byte i] := by
  rw [amendOwner_read fits, h]

section
variable (fits : count.toNat ≤ (s.col c).cfg.depth) (read : decodeEntries count.toNat 0 rest = .ok es)
include fits read

theorem amendOwner_selfHanded {i : Nat} (h : s.selfHanded c es = some i) :
    amendOwner (n :: byte c.val :: count :: rest) s = s.refuse .badField [byte i] := by
  rw [amendOwner_read fits, read]
  simp only [h]

theorem amendOwner_judged (h : s.selfHanded c es = none) :
    amendOwner (n :: byte c.val :: count :: rest) s = amendJudged s c es := by
  rw [amendOwner_read fits, read]
  simp only [h]

end

end

theorem amendJudged_badState (h : (s.col c).state ≠ .unknown ∧ (s.col c).state ≠ .fenced) :
    amendJudged s c es = s.refuse .badState [(s.col c).state.code] := if_pos h

section
variable (open_ : (s.col c).state = .unknown ∨ (s.col c).state = .fenced)
include open_

theorem amendJudged_duplicate {data : List Byte} (h : s.amendDuplicate c es = some data) :
    amendJudged s c es = s.refuse .duplicate data := by
  unfold amendJudged
  rw [if_neg fun x => open_.elim x.1 x.2, h]

section
variable (distinct : s.amendDuplicate c es = none)
include distinct

theorem amendJudged_noRecord (h : s.available c es < s.needed c es) :
    amendJudged s c es = s.refuse .noRecord [byte (s.needed c es), byte (s.available c es)] := by
  unfold amendJudged
  rw [if_neg fun x => open_.elim x.1 x.2, distinct]
  exact if_pos h

theorem amendJudged_full (enough : s.needed c es ≤ s.available c es) (h : (s.col c).cfg.depth < es.length + s.remaining c es) :
    amendJudged s c es = s.refuse .full [byte es.length, byte (s.remaining c es)] := by
  unfold amendJudged
  rw [if_neg fun x => open_.elim x.1 x.2, distinct]
  simp only
  rw [if_neg (Nat.not_lt.2 enough), if_pos h]

end

end

end

/-- Settles O45. -/
theorem amendRefusals : Obligations.AmendRefusals := by
  refine ⟨⟨fun bin dst urg hd dueIn budget => decodeEntry_refused, ?_⟩, ?_⟩
  · intro fields pos bytes bins
    exact ⟨decodeEntries_stated bins pos, fun bad rest m length hbad => decodeEntries_error bins pos length hbad rest m⟩
  intro s n b count rest length body refused offered
  have refusal {x : Result} {data : List Byte} (e : amendOwner body (s.dropRequest .ps) = (s.dropRequest .ps).refuse x data) :
      refused x data :=
    exec_offered_refused offered (by simp [RequestKind.lengthOk, body, length]; omega) rfl (.inl rfl) e
  refine ⟨fun h => refusal (amendOwner_noColumn h), fun c hb => ?_⟩
  subst hb
  intro k
  refine ⟨fun h => refusal (amendOwner_tooMany (s := s.dropRequest .ps) h), fun fits =>
    ⟨fun i h => refusal (amendOwner_badEntry (s := s.dropRequest .ps) fits h), fun es read => ?_⟩⟩
  intro holder own other toItself elsewhere again first listed
  have own_eq (e : AmendEntry) : own e = s.ownRecord c e.bin := by
    simp only [own, holder, State.binHolder_any]
    rfl
  have other_eq (e : AmendEntry) : other e = (s.dropRequest .ps).otherHolder c e.bin := by
    rw [State.otherHolder_eq]
    simp only [other, own_eq, holder, State.binHolder_any]
    rfl
  have toItself_eq : toItself = fun _ e => ∃ x ∈ (s.dropRequest .ps).ownRecord c e.bin, x.origin = .region e.dest := by
    funext _ e
    simp only [toItself, own_eq]
    rfl
  have elsewhere_eq : elsewhere = fun _ e => (s.dropRequest .ps).otherHolder c e.bin ≠ none := by
    funext _ e
    simp only [elsewhere, other_eq]
  rw [toItself_eq, elsewhere_eq]
  have judged {x : Result} {data : List Byte} (selfless : (s.dropRequest .ps).selfHanded c es = none)
      (e : amendJudged (s.dropRequest .ps) c es = (s.dropRequest .ps).refuse x data) : refused x data :=
    refusal ((amendOwner_judged (s := s.dropRequest .ps) fits read selfless).trans e)
  refine ⟨fun i h => refusal (amendOwner_selfHanded (s := s.dropRequest .ps) fits read (State.selfHanded_eq_some.2 h)),
    fun none => ?_⟩
  have selfless : (s.dropRequest .ps).selfHanded c es = .none := State.selfHanded_eq_none none
  refine ⟨fun known served => judged selfless (amendJudged_badState (s := s.dropRequest .ps) ⟨known, served⟩), fun state => ?_⟩
  refine ⟨fun i twice alone => ?_, fun i e h held he hh => ⟨fun once => ?_, fun j twice => ?_⟩, fun once alone => ?_⟩
  · have unheld : (s.dropRequest .ps).heldElsewhere c es = .none :=
      State.heldElsewhere_eq_none fun e he => (other_eq e).symm.trans (alone e he)
    exact judged selfless (amendJudged_duplicate (s := s.dropRequest .ps) state
      (State.amendDuplicate_twice (repeatedAt_eq_some.2 twice) unheld))
  · exact judged selfless (amendJudged_duplicate (s := s.dropRequest .ps) state
      (State.amendDuplicate_held (repeatedAt_eq_none once) (State.heldElsewhere_eq_some held he ((other_eq e).symm.trans hh))))
  · refine (State.amendDuplicate_both (repeatedAt_eq_some.2 twice)
      (State.heldElsewhere_eq_some held he ((other_eq e).symm.trans hh))).imp (fun d => ?_) fun d => ?_
    · exact judged selfless (amendJudged_duplicate (s := s.dropRequest .ps) state d)
    · exact judged selfless (amendJudged_duplicate (s := s.dropRequest .ps) state d)
  · have distinct : (s.dropRequest .ps).amendDuplicate c es = .none := State.amendDuplicate_none (repeatedAt_eq_none once)
      (State.heldElsewhere_eq_none fun e he => (other_eq e).symm.trans (alone e he))
    intro needed available released shifted
    have needed_eq : (s.dropRequest .ps).needed c es = needed := by
      rw [State.needed_eq]
      simp only [needed, own_eq]
      rfl
    have available_eq : (s.dropRequest .ps).available c es = available := by
      unfold State.available
      rw [State.unlisted_eq]
      rfl
    have remaining_eq : (s.dropRequest .ps).remaining c es = released + shifted := by
      rw [State.remaining_eq, State.inboundDoubts_eq, List.filter_filter]
      exact congrArg₂ (· + ·) (congrArg List.length (List.filter_congr fun h _ => Bool.and_comm ..)) rfl
    refine ⟨fun short => ?_, fun enough above => ?_⟩
    · have refusing := amendJudged_noRecord (s := s.dropRequest .ps) state distinct (by rw [needed_eq, available_eq]; exact short)
      rw [needed_eq, available_eq] at refusing
      exact judged selfless refusing
    · have refusing := amendJudged_full (s := s.dropRequest .ps) state distinct (by rw [needed_eq, available_eq]; exact enough)
        (by rw [remaining_eq]; exact above)
      rw [remaining_eq] at refusing
      exact judged selfless refusing

end Sys2Proof.Machine
end
-- ==== Sys2Proof/Proofs/AmendRun.lean ====
section
/-! An AMEND that passes the tests of R116 and R117: its steps and its answer (O46). -/
namespace Sys2Proof.Machine

/-! ### What no step of an AMEND touches -/

theorem State.levels_post (s : State) (p : Port) (n : Notice) : (s.post p n).levels = s.levels := by
  obtain ⟨_, h⟩ := s.post_eq_with_pendingSets p n
  rw [h]

theorem State.levels_capture (s : State) (g : Fin 8) (e : Capture) : (s.capture g e).levels = s.levels := by
  unfold State.capture
  split
  · exact State.levels_post ..
  · rfl

/-- The columns keep their configuration, and the notices their levels. -/
def State.CfgStands (s t : State) : Prop := (∀ d, (t.col d).cfg = (s.col d).cfg) ∧ t.levels = s.levels

theorem closed_cfgStands : Closed State.CfgStands where
  refl _ := ⟨fun _ => rfl, rfl⟩
  trans h g := ⟨fun d => (g.1 d).trans (h.1 d), g.2.trans h.2⟩
  col s c f hf := by
    refine ⟨fun d => ?_, rfl⟩
    rw [State.col_modCol]
    split
    · rename_i e
      exact e ▸ (hf (s.col c)).1
    · rfl
  hand _ _ _ _ := ⟨fun _ => rfl, rfl⟩
  free _ _ := ⟨fun _ => rfl, rfl⟩
  post s p n := ⟨fun d => by rw [State.col_post], State.levels_post ..⟩
  drop _ _ _ _ := ⟨fun _ => rfl, rfl⟩
  capture s g e := ⟨fun d => by rw [State.col_capture], State.levels_capture ..⟩
  load _ _ _ := ⟨fun _ => rfl, rfl⟩
  stamp _ _ := ⟨fun _ => rfl, rfl⟩

/-! ### The steps of an AMEND, each named (R118 to R120) -/

section
variable (t : State) (c : ColIx) (es : List AmendEntry)

/-- The records of the old stack, settled (R118). -/
def State.amendSettled : Work := (t.col c).stack.foldl (fun w h => Work.amendStack w c es h) t.begin

/-- The inbound records in DOUBT, settled (R119). -/
def State.amendFreed : Work := (t.inboundDoubts c).foldl (fun w h => w.amendInbound c es h) (t.amendSettled c es)

/-- The new records made (R120, step 1). -/
def State.amendMade : Work := es.foldl (fun w e => w.up fun s => s.amendCreate c e) (t.amendFreed c es)

/-- The new stack, bottom to top. -/
def State.amendList : List HNum := es.filterMap fun e => (t.amendMade c es).st.ownHolder c e.bin

/-- The new stack in place, and the charging of its records judged (R120, steps 2 and 3). -/
def State.amendCharged : Work := (t.amendList c es).foldl Work.judgeCharging
  ((t.amendMade c es).up fun s => s.modCol c fun k => { k with stack := t.amendList c es, cause := none })

/-- The column in SETTLING or OPEN (R120, step 4). -/
def State.amendEntered : Work :=
  if (t.col c).cfg.gaugeMode = .off then
    ((t.amendCharged c es).up fun s => s.modCol c fun k => { k with state := .opened }).start c
  else (t.amendCharged c es).up fun s => s.modCol c fun k =>
    { k with state := .settling, settleTimer := some (2 ^ s.limits.settleExp) }

/-- FENCE posted for a column that was FENCED, and READY for each record (R120, step 5). -/
def State.amendTold : Work :=
  Work.up (if (t.col c).state = .fenced then (t.amendEntered c es).up fun s =>
      s.postAll ((RegionSet.members (t.col c).cfg.reach).map .region ++ [.ps]) (.fence c) else t.amendEntered c es)
    fun s => (t.amendList c es).foldl (fun s h => ((s.hand h).map fun x => s.post (.region x.dest) (.ready h)).getD s) s

end

section
variable {t : State} {c : ColIx} {es : List AmendEntry}

theorem State.cfgStands_amendCreate {e : AmendEntry} (s : State) : s.CfgStands (s.amendCreate c e) := by
  unfold State.amendCreate
  split
  · exact closed_cfgStands.refl _
  · split
    · exact ⟨fun _ => rfl, rfl⟩
    · exact closed_cfgStands.refl _

theorem State.col_amendCharged (d : ColIx) : (t.amendCharged c es).st.col d =
    if d = c then { (t.amendMade c es).st.col c with stack := t.amendList c es, cause := none } else (t.amendMade c es).st.col d := by
  unfold State.amendCharged
  rw [foldl_keeps (fun w : Work => w.st.col d) Work.judgeCharging (fun w h => Work.col_judgeCharging w h d), Work.up,
    State.col_modCol]

theorem State.col_amendEntered : (t.amendEntered c es).st.col c = if (t.col c).cfg.gaugeMode = .off then
      { (t.amendCharged c es).st.col c with state := .opened }
    else { (t.amendCharged c es).st.col c with
      state := .settling, settleTimer := some (2 ^ (t.amendCharged c es).st.limits.settleExp) } := by
  unfold State.amendEntered
  split <;> simp [Work.up, Work.start]

theorem State.stack_amendEntered : ((t.amendEntered c es).st.col c).stack = t.amendList c es := by
  rw [State.col_amendEntered]
  split <;> rw [State.col_amendCharged, if_pos rfl]

theorem State.code_amendEntered : ((t.amendEntered c es).st.col c).state.code =
    if (t.col c).cfg.gaugeMode = .off then 1 else 3 := by
  rw [State.col_amendEntered]
  split <;> rfl

theorem State.col_amendTold : (t.amendTold c es).st.col c = (t.amendEntered c es).st.col c := by
  unfold State.amendTold
  rw [Work.up]
  simp only
  have ready (l : List HNum) (s : State) :
      (l.foldl (fun s h => ((s.hand h).map fun x => s.post (.region x.dest) (.ready h)).getD s) s).col c = s.col c := by
    refine foldl_keeps (fun s : State => s.col c) _ (fun s h => ?_) l s
    cases s.hand h <;> simp
  rw [ready]
  split
  · exact State.col_postAll ..
  · rfl

section
variable (ok : ∀ e ∈ es, e.InRange)
include ok

theorem State.cfgStands_amendStack (w : Work) (h : HNum) : w.st.CfgStands (w.amendStack c es h).st :=
  closed_cfgStands.amendStack (fun _ _ _ _ => ⟨fun _ => rfl, rfl⟩) w c es h ok

theorem State.cfgStands_amendInbound (w : Work) (h : HNum) : w.st.CfgStands (w.amendInbound c es h).st :=
  closed_cfgStands.amendInbound (fun _ _ _ _ => ⟨fun _ => rfl, rfl⟩) w c es h ok

theorem State.cfgStands_amendMade : t.CfgStands (t.amendMade c es).st := by
  have settled : t.CfgStands (t.amendSettled c es).st :=
    closed_cfgStands.foldl Work.st _ (fun w h => State.cfgStands_amendStack ok w h) _ t.begin
  have freed : (t.amendSettled c es).st.CfgStands (t.amendFreed c es).st :=
    closed_cfgStands.foldl Work.st _ (fun w h => State.cfgStands_amendInbound ok w h) _ _
  have made : (t.amendFreed c es).st.CfgStands (t.amendMade c es).st :=
    closed_cfgStands.foldl Work.st _ (fun w e => State.cfgStands_amendCreate w.st) _ _
  exact closed_cfgStands.trans settled (closed_cfgStands.trans freed made)

theorem State.cfg_amendCharged : ((t.amendCharged c es).st.col c).cfg = (t.col c).cfg := by
  rw [State.col_amendCharged, if_pos rfl]
  exact (State.cfgStands_amendMade ok).1 c

theorem State.cfg_amendEntered : ((t.amendEntered c es).st.col c).cfg = (t.col c).cfg := by
  rw [State.col_amendEntered]
  split <;> exact State.cfg_amendCharged ok

/-- The steps of an AMEND, one after another (R118 to R120). -/
theorem amendApply_eq : amendApply t c es = (t.amendTold c es).handOccupancy.startAll := by
  have entered : (t.amendCharged c es).settleOrOpen c = t.amendEntered c es := by
    unfold State.amendEntered
    split
    · rename_i off
      exact Work.settleOrOpen_opens _ ((congrArg ColumnConfig.gaugeMode (State.cfg_amendCharged ok)).trans off)
    · rename_i on
      exact Work.settleOrOpen_settles _ fun off => on ((congrArg ColumnConfig.gaugeMode (State.cfg_amendCharged ok)).symm.trans off)
  have fence : (t.amendEntered c es).up (·.postFence c) = (t.amendEntered c es).up fun s =>
      s.postAll ((RegionSet.members (t.col c).cfg.reach).map .region ++ [.ps]) (.fence c) := by
    simp only [Work.up, State.postFence, State.cfg_amendEntered ok]
    rfl
  have ready : State.postReady = fun s h => ((s.hand h).map fun x => s.post (.region x.dest) (.ready h)).getD s := by
    funext s h
    unfold State.postReady
    cases s.hand h <;> rfl
  have wasFenced : ((t.col c).state == .fenced) = true ↔ (t.col c).state = .fenced := beq_iff_eq
  calc amendApply t c es
    _ = (Work.up (if ((t.col c).state == .fenced) = true then ((t.amendCharged c es).settleOrOpen c).up (·.postFence c)
          else (t.amendCharged c es).settleOrOpen c) fun s =>
        (t.amendList c es).foldl State.postReady s).handOccupancy.startAll := rfl
    _ = _ := by
      rw [entered, fence, ready]
      unfold State.amendTold
      simp only [wasFenced]

end

/-! ### An AMEND that is accepted -/

/-- An AMEND that passes every test of R116 and R117. -/
structure State.TakesList (t : State) (c : ColIx) (es : List AmendEntry) : Prop where
  served : (t.col c).state = .unknown ∨ (t.col c).state = .fenced
  distinct : es.Pairwise fun a b => a.bin ≠ b.bin
  own : ∀ e ∈ es, ∀ h, ∀ x ∈ t.hand h, x.state ≠ .closing → x.bin = e.bin → x.column = some c ∧ x.origin ≠ .region e.dest
  enough : t.needed c es ≤ t.available c es
  room : es.length + t.remaining c es ≤ (t.col c).cfg.depth

namespace State.TakesList

variable (takes : t.TakesList c es)
include takes

theorem selfHanded : t.selfHanded c es = none := by
  refine State.selfHanded_eq_none fun i ⟨⟨e, he, x, hx, self⟩, _⟩ => ?_
  rcases t.ownHolder_cases c e.bin with ⟨-, -, -, record⟩ | ⟨h, y, hb, hy, ⟨-, -, -, record⟩ | ⟨-, -, -, record⟩⟩ <;>
    rw [record] at hx <;> cases hx
  obtain ⟨⟨z, hz, used, bin⟩, -⟩ := State.binHolder_eq_some.1 hb
  obtain rfl : z = x := Option.some.inj ((Option.mem_def.1 hz).symm.trans hy)
  exact (takes.own e (List.mem_of_getElem? he) h z hz used bin).2 self

theorem otherHolder {e : AmendEntry} (he : e ∈ es) : t.otherHolder c e.bin = none := by
  rcases t.ownHolder_cases c e.bin with ⟨-, -, other, -⟩ | ⟨h, y, hb, hy, ⟨-, -, other, -⟩ | ⟨foreign, -, -, -⟩⟩
  · exact other
  · exact other
  · obtain ⟨⟨z, hz, used, bin⟩, -⟩ := State.binHolder_eq_some.1 hb
    obtain rfl : z = y := Option.some.inj ((Option.mem_def.1 hz).symm.trans hy)
    exact absurd (takes.own e he h z hz used bin).1 foreign

theorem repeatedAt : repeatedAt es = none := by
  refine repeatedAt_eq_none fun i ⟨⟨e, he, j, x, below, hj, same⟩, _⟩ => ?_
  obtain ⟨hi, rfl⟩ := List.getElem?_eq_some_iff.1 he
  obtain ⟨hj', rfl⟩ := List.getElem?_eq_some_iff.1 hj
  exact List.pairwise_iff_getElem.1 takes.distinct j i hj' hi below same

theorem amendDuplicate : t.amendDuplicate c es = none :=
  State.amendDuplicate_none takes.repeatedAt (State.heldElsewhere_eq_none fun _ he => takes.otherHolder he)

/-- The answer to an AMEND, and the steps it makes. -/
theorem amendJudged (ok : ∀ e ∈ es, e.InRange) : amendJudged t c es = {
    work := (t.amendTold c es).handOccupancy.startAll, result := .ok
    data := [byte c.val, if (t.col c).cfg.gaugeMode = .off then 1 else 3, byte (t.amendList c es).length] ++
      (t.amendList c es).map (fun h => byte h.val) ++
      [byte (es.length - t.needed c es), byte (t.needed c es), byte (t.unlisted c es).length,
        byte ((t.inboundDoubts c).filter fun h => !t.isListed es h).length] } := by
  have column : ((t.amendTold c es).handOccupancy.startAll.st.col c) = (t.amendEntered c es).st.col c := by
    rw [Work.startAll_st, Work.col_handOccupancy, State.col_amendTold]
  unfold Machine.amendJudged
  rw [if_neg fun x => takes.served.elim x.1 x.2, takes.amendDuplicate]
  simp only
  rw [if_neg (Nat.not_lt.2 takes.enough), if_neg (Nat.not_lt.2 takes.room), amendApply_eq ok, column,
    State.stack_amendEntered, State.code_amendEntered]

end State.TakesList

end

end Sys2Proof.Machine
end
-- ==== Sys2Proof/Proofs/AmendList.lean ====
section
/-! After an AMEND the stack holds the bins of its list (O46). -/
namespace Sys2Proof.Machine

/-! ### What an AMEND leaves of a record -/

/-- How a record stands before and after the settling of a column by a list (R118, R119): none is made, one whose bin is
listed stays in use, and one in use holds the bin it held, in its column or in `c`. -/
structure Handover.Settled (c : ColIx) (es : List AmendEntry) (a b : Option Handover) : Prop where
  doubt : ∀ y ∈ b, y.doubt ≠ none → y.state ≠ .closing
  free : a = none → b = none
  listed : ∀ x ∈ a, x.state ≠ .closing → (∃ e ∈ es, e.bin = x.bin) → ∃ y ∈ b, y.state ≠ .closing ∧ y.bin = x.bin
  used : ∀ y ∈ b, y.state ≠ .closing → y.column = some c ∨ ∃ x ∈ a, x.state ≠ .closing ∧ x.bin = y.bin ∧ x.column = y.column

/-- Every record of one state is left so in another, where those of the first have a doubt only in use. -/
def State.Settled (c : ColIx) (es : List AmendEntry) (s t : State) : Prop :=
  ∀ i, (∀ x ∈ s.standing i, x.doubt ≠ none → x.state ≠ .closing) → Handover.Settled c es (s.standing i) (t.standing i)

section
variable {c : ColIx} {es : List AmendEntry}

theorem Handover.Settled.refl {a : Option Handover} (ha : ∀ x ∈ a, x.doubt ≠ none → x.state ≠ .closing) :
    Handover.Settled c es a a where
  doubt := ha
  free := id
  listed x hx used _ := ⟨x, hx, used, rfl⟩
  used y hy used := .inr ⟨y, hy, used, rfl, rfl⟩

theorem State.Settled.refl (s : State) : State.Settled c es s s := fun _ => Handover.Settled.refl

theorem State.Settled.trans {s t u : State} (h : State.Settled c es s t) (g : State.Settled c es t u) :
    State.Settled c es s u := by
  intro i ha
  have first := h i ha
  have second := g i first.doubt
  refine ⟨second.doubt, fun e => second.free (first.free e), fun x hx used he => ?_, fun z hz used => ?_⟩
  · obtain ⟨y, hy, yused, ybin⟩ := first.listed x hx used he
    obtain ⟨z, hz, zused, zbin⟩ := second.listed y hy yused (ybin ▸ he)
    exact ⟨z, hz, zused, zbin.trans ybin⟩
  · rcases second.used z hz used with here | ⟨y, hy, yused, ybin, ycol⟩
    · exact .inl here
    · rcases first.used y hy yused with here | ⟨x, hx, xused, xbin, xcol⟩
      · exact .inl (ycol.symm.trans here)
      · exact .inr ⟨x, hx, xused, xbin.trans ybin, xcol.trans ycol⟩

theorem State.Settled.foldl {α : Type} {f : Work → α → Work} (step : ∀ w a, State.Settled c es w.st (f w a).st) :
    ∀ (l : List α) (w : Work), State.Settled c es w.st (l.foldl f w).st
  | [], w => .refl w.st
  | a :: l, w => (step w a).trans (State.Settled.foldl step l (f w a))

/-- A step that leaves all records but one. -/
theorem State.Settled.of_one {s t : State} {h : HNum} (others : ∀ i, i ≠ h → t.standing i = s.standing i)
    (this : (∀ x ∈ s.standing h, x.doubt ≠ none → x.state ≠ .closing) → Handover.Settled c es (s.standing h) (t.standing h)) :
    State.Settled c es s t := fun i ha => by
  by_cases e : i = h
  · subst e
    exact this ha
  · rw [others i e]
    exact .refl ha

/-- A record restated by its entry. -/
theorem Handover.Settled.restated {x y : Handover} (state : y.state = .stored)
    (bin : y.bin = x.bin) (column : y.column = some c) : Handover.Settled c es (some x) (some y) where
  doubt := by rintro _ ⟨⟩ _; rw [state]; decide
  free e := by cases e
  listed := by rintro _ ⟨⟩ _ _; exact ⟨y, rfl, by rw [state]; decide, bin⟩
  used := by rintro _ ⟨⟩ _; exact .inl column

/-- A record whose bin is not listed, and that goes on in use. -/
theorem Handover.Settled.goesOn {x y : Handover} (used : x.state ≠ .closing) (state : y.state ≠ .closing)
    (bin : y.bin = x.bin) (column : y.column = x.column) : Handover.Settled c es (some x) (some y) where
  doubt := by rintro _ ⟨⟩ _; exact state
  free e := by cases e
  listed := by rintro _ ⟨⟩ _ _; exact ⟨y, rfl, state, bin⟩
  used := by rintro _ ⟨⟩ _; exact .inr ⟨x, rfl, used, bin.symm, column.symm⟩

/-- A record whose bin is not listed, and that ends. -/
theorem Handover.Settled.ends {x : Handover} {b : Option Handover} (unlisted : ∀ e ∈ es, e.bin ≠ x.bin)
    (hb : ∀ y ∈ b, y.state = .closing ∧ y.doubt = none) : Handover.Settled c es (some x) b where
  doubt y hy doubt := absurd (hb y hy).2 doubt
  free e := by cases e
  listed := by rintro _ ⟨⟩ _ ⟨e, he, bin⟩; exact absurd bin (unlisted e he)
  used y hy used := absurd (hb y hy).1 used

theorem unlisted_of_find? {x : Handover} (h : es.find? (fun e => e.bin == x.bin) = none) : ∀ e ∈ es, e.bin ≠ x.bin :=
  fun e he => by simpa using List.find?_eq_none.1 h e he

/-! ### The settling of a record (R118, R119) -/

theorem State.OthersStand.standing {s t : State} {h : HNum} (stand : State.OthersStand h s t) (i : HNum) (hi : i ≠ h) :
    t.standing i = s.standing i := State.standing_of_hand (stand i hi)

theorem Work.othersStand_dropTarget (w : Work) (h : HNum) : State.OthersStand h w.st (w.dropTarget h).st := by
  unfold Work.dropTarget
  split
  · split
    · rename_i t _
      have left : State.OthersStand h w.st (w.leaveInbound t h).st := .of_hands fun i => by simp [Work.leaveInbound_eq]
      exact left.trans (State.OthersStand.modHand h _ _)
    · exact .refl h _
  · exact .refl h _

theorem Work.hand_close {w : Work} {h : HNum} {x : Handover} (hx : w.st.hand h = some x) (why : Reason) (ports : RegionSet)
    (n : Notice) : ∀ y ∈ (w.close h why ports n).st.hand h, y.state = .closing ∧ y.doubt = none := by
  intro y hy
  by_cases waits : w.st.level n.kind ≠ 0 ∧ ports ≠ 0
  · rw [Work.close_waits hx why waits.1 waits.2, Work.up] at hy
    simp only [State.hand_postAll, State.hand_setHand_same] at hy
    cases hy
    exact ⟨rfl, rfl⟩
  · rw [Work.close_frees hx why (by tauto), Work.up] at hy
    simp only [State.hand_setHand_same] at hy
    cases hy

/-- The settling of a stack record leaves the others. -/
theorem Work.othersStand_amendStack (w : Work) (h : HNum) : State.OthersStand h w.st (w.amendStack c es h).st := by
  have dropped := w.othersStand_dropTarget h
  cases hx : w.st.hand h with
  | none =>
    have same : w.amendStack c es h = w := by simp only [Work.amendStack, hx]
    rw [same]
    exact .refl h _
  | some x =>
    cases he : es.find? fun e => e.bin == x.bin with
    | some e =>
      rw [Work.amendStack_listed hx he]
      exact dropped.trans (State.OthersStand.setHand h _ _)
    | none =>
      rw [Work.amendStack_unlisted hx he]
      have place : State.OthersStand h (w.dropTarget h).st ((w.dropTarget h).st.modCol c fun k =>
          { k with stack := k.stack.filter fun i => i != h }) := .of_hands fun i => State.hand_modCol ..
      have closed (t : State) (sel : List ColIx) := Work.othersStand_close { st := t, sel := sel } h .removed
        (RegionSet.single x.dest) (.withdrawn h x.bin 2)
      exact (dropped.trans place).trans (closed _ _)

theorem State.settled_amendStack (w : Work) (h : HNum) : State.Settled c es w.st (w.amendStack c es h).st := by
  cases hx : w.st.hand h with
  | none =>
    have same : w.amendStack c es h = w := by simp only [Work.amendStack, hx]
    rw [same]
    exact .refl _
  | some x =>
    have before : w.st.standing h = some x.standing := by rw [State.standing, hx]; rfl
    refine State.Settled.of_one (Work.othersStand_amendStack w h).standing fun _ => ?_
    cases he : es.find? fun e => e.bin == x.bin with
    | some e =>
      rw [Work.amendStack_listed hx he, before, Work.up, State.standing, State.hand_setHand_same]
      exact .restated rfl rfl rfl
    | none =>
      rw [Work.amendStack_unlisted hx he, before]
      refine .ends (unlisted_of_find? he) fun y hy => ?_
      obtain ⟨z, hz, rfl⟩ := Option.map_eq_some_iff.1 hy
      have at_ : ((w.dropTarget h).st.modCol c fun k => { k with stack := k.stack.filter fun i => i != h }).hand h =
        some { x with target := none } := (State.hand_modCol ..).trans (Work.dropTarget_hand hx)
      exact Work.hand_close (w := { st := _, sel := ColIx.all ++ (w.dropTarget h).sel }) at_ _ _ _ z hz

theorem Work.standing_amendFollower {w : Work} {h : HNum} (i : HNum) : (w.amendFollower c h).st.standing i = w.st.standing i := by
  unfold Work.amendFollower
  split
  · rfl
  · rename_i x hx
    split
    · rfl
    · have emptied : (w.st.setHand h (some { x with follower := none })).standing i = w.st.standing i :=
        State.standing_setHand hx (by exact rfl) i
      dsimp only
      split
      · exact (Work.standing_join ..).trans emptied
      · exact (State.standing_post ..).trans emptied

/-- A change of one record leaves the standing of the others. -/
theorem Work.standing_change_of_ne {w : Work} {h i : HNum} (hi : i ≠ h) (f : Handover → Handover) :
    (w.change h f).st.standing i = w.st.standing i := by
  rw [Work.change, Work.standing_judgeCharging]
  exact (State.OthersStand.modHand h _ _).standing i hi

theorem State.settled_amendInbound (w : Work) (h : HNum) : State.Settled c es w.st (w.amendInbound c es h).st := by
  cases hx : w.st.hand h with
  | none =>
    have same : w.amendInbound c es h = w := by simp only [Work.amendInbound, hx]
    rw [same]
    exact .refl _
  | some x =>
    have before : w.st.standing h = some x.standing := by rw [State.standing, hx]; rfl
    cases he : es.find? fun e => e.bin == x.bin with
    | some e =>
      rw [Work.amendInbound_listed hx he]
      refine State.Settled.of_one (h := h) (fun i hi => ?_) fun _ => ?_
      · rw [Work.standing_amendFollower, State.standing, State.hand_setHand, if_neg hi]
        exact State.standing_modCol ..
      · rw [before, Work.standing_amendFollower, State.standing, State.hand_setHand_same]
        exact .restated rfl rfl rfl
    | none =>
      cases hd : x.doubt with
      | none =>
        have same : w.amendInbound c es h = w := by simp only [Work.amendInbound, hx, he, hd]
        rw [same]
        exact .refl _
      | some d =>
        have doubted (ha : ∀ y ∈ w.st.standing h, y.doubt ≠ none → y.state ≠ .closing) : x.standing.state ≠ .closing :=
          ha x.standing (by rw [before]; rfl) (by show x.doubt ≠ none; rw [hd]; exact Option.some_ne_none d)
        have moves (rb : Option Robot) : State.Settled c es w.st (match rb with
            | some rb => (w.setMoving h).joinNew c rb .holding h
            | none => w.setMoving h).st := by
          have standing (i : HNum) : (match rb with
              | some rb => (w.setMoving h).joinNew c rb .holding h
              | none => w.setMoving h).st.standing i = (w.setMoving h).st.standing i := by
            cases rb with
            | none => rfl
            | some rb => exact Work.standing_joinNew ..
          refine State.Settled.of_one (h := h) (fun i hi => ?_) fun ha => ?_
          · rw [standing, Work.setMoving, Work.standing_change_of_ne hi]
          · rw [standing, before, Work.setMoving, Work.standing_change hx]
            exact .goesOn (doubted ha) (fun e => by cases e) rfl rfl
        simp only [Work.amendInbound, hx, he, hd]
        split
        · exact moves x.holder
        · refine State.Settled.of_one (h := h) (fun i hi => ?_) fun ha => ?_
          · rw [Work.up, State.standing_post, Work.rebook, Work.standing_change_of_ne hi]
          · rw [before, Work.up, State.standing_post, Work.rebook, Work.standing_change hx]
            exact .goesOn (doubted ha) (fun e => by cases e) rfl rfl

theorem State.settled_amendSettled (t : State) : State.Settled c es t (t.amendSettled c es).st :=
  State.Settled.foldl (fun w h => State.settled_amendStack w h) _ t.begin

theorem State.settled_amendFreed (t : State) : State.Settled c es t (t.amendFreed c es).st :=
  t.settled_amendSettled.trans (State.Settled.foldl (fun w h => State.settled_amendInbound w h) _ _)

end

end Sys2Proof.Machine
end
-- ==== Sys2Proof/Proofs/AmendNew.lean ====
section
/-! The records that an AMEND makes are enough for its list (O46). -/
namespace Sys2Proof.Machine

section
variable {c : ColIx} {es : List AmendEntry}

/-! ### Records in use -/

/-- The records in use that hold a bin of the list are records of the column. -/
def State.Owns (s : State) (c : ColIx) (es : List AmendEntry) : Prop :=
  ∀ h, ∀ x ∈ s.hand h, x.state ≠ .closing → (∃ e ∈ es, e.bin = x.bin) → x.column = some c

/-- With the records of the list its column's own, a bin has an own record when a record in use holds it. -/
theorem State.Owns.ownHolder_ne_none {s : State} (owns : s.Owns c es) {e : AmendEntry} (he : e ∈ es) :
    s.ownHolder c e.bin ≠ none ↔ ∃ h, s.holdsBin h e.bin := by
  constructor
  · intro known
    obtain ⟨h, hh⟩ := Option.ne_none_iff_exists'.1 known
    exact ⟨h, (State.ownHolder_eq_some.1 hh).1⟩
  · rintro ⟨h, held⟩
    rcases s.ownHolder_cases c e.bin with ⟨hb, -⟩ | ⟨i, x, hb, hx, ⟨-, own, -⟩ | ⟨foreign, -⟩⟩
    · have unheld : ¬ s.holdsBin h e.bin := fun held => by
        have := List.find?_eq_none.1 hb h (HNum.mem_all h)
        exact this (State.holdsBin_iff.2 held)
      exact absurd held unheld
    · rw [own]
      exact Option.some_ne_none i
    · obtain ⟨⟨y, hy, used, bin⟩, -⟩ := State.binHolder_eq_some.1 hb
      obtain rfl : y = x := Option.some.inj ((Option.mem_def.1 hy).symm.trans hx)
      exact absurd (owns i y hy used ⟨e, he, bin.symm⟩) foreign

theorem State.holdsBin_of_standing {s : State} {h : HNum} {bin : BinNo} :
    s.holdsBin h bin ↔ ∃ x ∈ s.standing h, x.state ≠ .closing ∧ x.bin = bin := by
  unfold State.holdsBin State.standing
  cases s.hand h with
  | none => simp
  | some x => simp [Handover.standing]

section
variable {s t : State} (sound : ∀ h, ∀ x ∈ s.hand h, x.doubt ≠ none → x.state ≠ .closing) (settled : State.Settled c es s t)
include sound settled

theorem State.Settled.at_ (h : HNum) : Handover.Settled c es (s.standing h) (t.standing h) :=
  settled h fun y hy doubt => by
    obtain ⟨x, hx, rfl⟩ := Option.map_eq_some_iff.1 hy
    exact sound h x hx doubt

theorem State.Settled.hand_none {h : HNum} (free : s.hand h = none) : t.hand h = none := by
  have := (settled.at_ sound h).free (by rw [State.standing, free]; rfl)
  exact Option.map_eq_none_iff.1 this

theorem State.Settled.owns (owns : s.Owns c es) : t.Owns c es := by
  intro h y hy used listed
  have after : y.standing ∈ t.standing h := by rw [State.standing, Option.mem_def.1 hy]; rfl
  rcases (settled.at_ sound h).used y.standing after used with here | ⟨x, hx, xused, bin, column⟩
  · exact here
  · obtain ⟨z, hz, rfl⟩ := Option.map_eq_some_iff.1 hx
    obtain ⟨e, he, ebin⟩ := listed
    exact column.symm.trans (owns h z hz xused ⟨e, he, ebin.trans bin.symm⟩)

theorem State.Settled.holdsBin {h : HNum} {e : AmendEntry} (he : e ∈ es) (held : s.holdsBin h e.bin) : t.holdsBin h e.bin := by
  rw [State.holdsBin_of_standing] at held ⊢
  obtain ⟨x, hx, used, bin⟩ := held
  obtain ⟨y, hy, yused, ybin⟩ := (settled.at_ sound h).listed x hx used ⟨e, he, bin.symm⟩
  exact ⟨y, hy, yused, ybin.trans bin⟩

end

/-! ### The records that become FREE (R117, test 3) -/

theorem State.freeCount_mono {s t : State} (h : ∀ i, s.hand i = none → t.hand i = none) : s.freeCount ≤ t.freeCount :=
  (List.monotone_filter_right HNum.all fun i hi => by simpa using h i (by simpa using hi)).length_le

theorem Work.amendStack_frees {w : Work} {h : HNum} {x : Handover} (hx : w.st.hand h = some x)
    (unlisted : ∀ e ∈ es, e.bin ≠ x.bin) (level : w.st.level .withdrawn = 0) : (w.amendStack c es h).st.hand h = none := by
  have he : es.find? (fun e => e.bin == x.bin) = none := List.find?_eq_none.2 fun e he => by simpa using unlisted e he
  have levels : (w.dropTarget h).st.levels = w.st.levels := (closed_cfgStands.dropTarget w h).2
  have silent : (w.dropTarget h).st.level .withdrawn = 0 := by
    rw [State.level, levels]
    exact level
  have unstacked : ({ st := (w.dropTarget h).st.modCol c fun k => { k with stack := k.stack.filter fun i => i != h }
                      sel := ColIx.all ++ (w.dropTarget h).sel } : Work).st.hand h = some { x with target := none } :=
    (State.hand_modCol ..).trans (Work.dropTarget_hand hx)
  rw [Work.amendStack_unlisted hx he, Work.close_frees unstacked (n := .withdrawn h x.bin 2) .removed (.inl silent)]
  exact State.hand_setHand_same ..

/-- A record that a fold of the settling visits is FREE after it, where its bin is not listed and WITHDRAWN has level 0. -/
theorem Work.foldl_amendStack_frees (ok : ∀ e ∈ es, e.InRange) {h : HNum} {x : Handover} (unlisted : ∀ e ∈ es, e.bin ≠ x.bin) :
    ∀ {l : List HNum}, h ∈ l → ∀ {w : Work}, w.st.hand h = some x → w.st.level .withdrawn = 0 →
      (l.foldl (fun w h => w.amendStack c es h) w).st.hand h = none
  | a :: l, mem, w, hx, level => by
    rw [List.foldl_cons]
    by_cases e : h = a
    · subst e
      have freed := Work.amendStack_frees (c := c) hx unlisted level
      have rest := State.Settled.foldl (fun w h => State.settled_amendStack (c := c) (es := es) w h) l (w.amendStack c es h)
      have gone : (w.amendStack c es h).st.standing h = none := by rw [State.standing, freed]; rfl
      have after := (rest h (by rw [gone]; simp)).free gone
      exact Option.map_eq_none_iff.1 after
    · have stays : (w.amendStack c es a).st.hand h = some x := (Work.othersStand_amendStack w a h e).trans hx
      have levels := (State.cfgStands_amendStack (c := c) ok w a).2
      refine Work.foldl_amendStack_frees ok unlisted ((List.mem_cons.1 mem).resolve_left e) stays ?_
      rw [State.level, levels]
      exact level

/-- The records that are available are FREE once the old stack is settled. -/
theorem State.available_le (ok : ∀ e ∈ es, e.InRange) {t : State} (acc : t.Accounted)
    (sound : ∀ h, ∀ x ∈ t.hand h, x.doubt ≠ none → x.state ≠ .closing) : t.available c es ≤ (t.amendFreed c es).st.freeCount := by
  have settled := t.settled_amendFreed (c := c) (es := es)
  have still (i : HNum) (free : t.hand i = none) : (t.amendFreed c es).st.hand i = none := settled.hand_none sound free
  have mono := State.freeCount_mono still
  unfold State.available
  split
  · rename_i level
    have freed : (t.unlisted c es).length ≤ (t.amendFreed c es).st.freeCount - t.freeCount := by
      rw [State.freeCount_sub still]
      have distinct : (t.unlisted c es).Nodup := (acc.records.once c).filter _
      refine (distinct.subperm fun h hh => List.mem_filter.2 ⟨HNum.mem_all h, ?_⟩).length_le
      obtain ⟨stacked, unlisted⟩ := List.mem_filter.1 hh
      obtain ⟨x, hx, -⟩ := (acc.records.stack c h).1 stacked
      have hx : t.hand h = some x := hx
      have absent : ∀ e ∈ es, e.bin ≠ x.bin := by simpa [State.isListed, hx] using unlisted
      have gone : (t.amendSettled c es).st.hand h = none :=
        Work.foldl_amendStack_frees (c := c) ok absent stacked (w := t.begin) hx level
      have rest := State.Settled.foldl (fun w h => State.settled_amendInbound (c := c) (es := es) w h) (t.inboundDoubts c)
        (t.amendSettled c es)
      have standing : (t.amendSettled c es).st.standing h = none := by rw [State.standing, gone]; rfl
      have after : (t.amendFreed c es).st.standing h = none := (rest h (by rw [standing]; simp)).free standing
      have free : (t.amendFreed c es).st.hand h = none := Option.map_eq_none_iff.1 after
      simp [hx, free]
    omega
  · omega

/-! ### The records that are made (R120, step 1) -/

section
variable {s : State} {h : HNum} {x : Handover}

theorem State.holdsBin_setHand (free : s.hand h = none) {i : HNum} {bin : BinNo} :
    (s.setHand h (some x)).holdsBin i bin ↔ i = h ∧ x.state ≠ .closing ∧ x.bin = bin ∨ s.holdsBin i bin := by
  unfold State.holdsBin
  rw [State.hand_setHand]
  by_cases e : i = h
  · subst e
    simp [free]
  · simp [e]

/-- Setting one record takes one FREE record at most. -/
theorem State.freeCount_setHand : s.freeCount ≤ (s.setHand h (some x)).freeCount + 1 := by
  have still (i : HNum) (hi : (s.setHand h (some x)).hand i = none) : s.hand i = none := by
    rw [State.hand_setHand] at hi
    split at hi
    · cases hi
    · exact hi
  have one : s.freeCount - (s.setHand h (some x)).freeCount ≤ [h].length := by
    rw [State.freeCount_sub still]
    refine ((HNum.nodup_all.filter _).subperm fun i hi => ?_).length_le
    have taken := (List.mem_filter.1 hi).2
    by_contra other
    rw [State.hand_setHand, if_neg (by simpa using other)] at taken
    cases e : s.hand i <;> simp [e] at taken
  simp only [List.length_singleton] at one
  omega

end

theorem State.lowestFree_of_pos {s : State} (h : 0 < s.freeCount) : ∃ i, s.lowestFree = some i := by
  refine Option.ne_none_iff_exists'.1 fun none => ?_
  have used := State.lowestFree_eq_none.1 none
  have empty : s.freeCount = 0 := by
    rw [State.freeCount, List.length_eq_zero_iff, List.filter_eq_nil_iff]
    intro i _ free
    exact used i (by simpa using free)
  omega

/-- The entry of a list that is made a record, in a part with a FREE record for each entry that needs one. -/
structure State.Creates (c : ColIx) (es : List AmendEntry) (l : List AmendEntry) (s : State) : Prop where
  owns : s.Owns c es
  members : ∀ e ∈ l, e ∈ es
  distinct : l.Pairwise fun a b => a.bin ≠ b.bin
  room : (l.filter fun e => (s.ownHolder c e.bin).isNone).length ≤ s.freeCount

theorem State.Creates.step {e : AmendEntry} {l : List AmendEntry} {s : State} (creates : s.Creates c es (e :: l)) :
    (s.amendCreate c e).Creates c es l ∧ (∃ h, (s.amendCreate c e).holdsBin h e.bin) ∧
      ∀ h bin, s.holdsBin h bin → (s.amendCreate c e).holdsBin h bin := by
  obtain ⟨owns, members, distinct, room⟩ := creates
  obtain ⟨he, members⟩ := List.forall_mem_cons.1 members
  obtain ⟨new, distinct⟩ := List.pairwise_cons.1 distinct
  cases own : s.ownHolder c e.bin with
  | some h =>
    rw [State.amendCreate_known own]
    rw [List.filter_cons_of_neg (by simp [own])] at room
    exact ⟨⟨owns, members, distinct, room⟩, ⟨h, (State.ownHolder_eq_some.1 own).1⟩, fun _ _ held => held⟩
  | none =>
    rw [List.filter_cons_of_pos (by simp [own]), List.length_cons] at room
    obtain ⟨h, lowest⟩ := State.lowestFree_of_pos (s := s) (by omega)
    have free := (State.lowestFree_eq_some.1 lowest).1
    rw [State.amendCreate_new own lowest]
    have holds {i : HNum} {bin : BinNo} := State.holdsBin_setHand (x := e.newRecord c s.clock) free (i := i) (bin := bin)
    have owns' : (s.setHand h (some (e.newRecord c s.clock))).Owns c es := by
      intro i y hy used listed
      rw [State.hand_setHand] at hy
      split at hy
      · cases hy; rfl
      · exact owns i y hy used listed
    refine ⟨⟨owns', members, distinct, ?_⟩, ⟨h, holds.2 (.inl ⟨rfl, by simp [AmendEntry.newRecord], rfl⟩)⟩,
      fun _ _ held => holds.2 (.inr held)⟩
    have fewer : (l.filter fun x => ((s.setHand h (some (e.newRecord c s.clock))).ownHolder c x.bin).isNone).length ≤
        (l.filter fun x => (s.ownHolder c x.bin).isNone).length := by
      rw [← List.countP_eq_length_filter, ← List.countP_eq_length_filter]
      refine List.countP_mono_left fun x hx unknown => ?_
      by_contra known
      have held := (owns.ownHolder_ne_none (members x hx)).1 fun none => known (by rw [none]; rfl)
      obtain ⟨i, hi⟩ := held
      have := (owns'.ownHolder_ne_none (members x hx)).2 ⟨i, holds.2 (.inr hi)⟩
      exact this (by simpa using unknown)
    have := State.freeCount_setHand (s := s) (h := h) (x := e.newRecord c s.clock)
    omega

theorem State.Creates.all : ∀ {l : List AmendEntry} {s : State}, s.Creates c es l →
    (l.foldl (State.amendCreate · c) s).Owns c es ∧
      (∀ e ∈ l, ∃ h, (l.foldl (State.amendCreate · c) s).holdsBin h e.bin) ∧
      ∀ h bin, s.holdsBin h bin → (l.foldl (State.amendCreate · c) s).holdsBin h bin
  | [], _, creates => ⟨creates.owns, by simp, fun _ _ held => held⟩
  | e :: l, s, creates => by
    obtain ⟨next, ⟨h, held⟩, kept⟩ := creates.step
    obtain ⟨owns, each, goes⟩ := State.Creates.all next
    rw [List.foldl_cons]
    exact ⟨owns, List.forall_mem_cons.2 ⟨⟨h, goes h _ held⟩, each⟩, fun i bin hi => goes i bin (kept i bin hi)⟩

/-! ### The bins of the new stack -/

theorem State.st_amendMade (t : State) : (t.amendMade c es).st = es.foldl (State.amendCreate · c) (t.amendFreed c es).st := by
  unfold State.amendMade
  generalize t.amendFreed c es = w
  have go (l : List AmendEntry) (w : Work) :
      (l.foldl (fun w e => w.up fun s => s.amendCreate c e) w).st = l.foldl (State.amendCreate · c) w.st := by
    induction l generalizing w with
    | nil => rfl
    | cons e l ih => rw [List.foldl_cons, List.foldl_cons, ih] <;> rfl
  exact go es w

theorem map_filterMap {α β γ : Type} {f : α → Option β} {g : β → γ} {k : α → γ} : ∀ {l : List α},
    (∀ a ∈ l, ∃ b, f a = some b ∧ g b = k a) → (l.filterMap f).map g = l.map k
  | [], _ => rfl
  | a :: l, h => by
    obtain ⟨⟨b, hb, hg⟩, rest⟩ := List.forall_mem_cons.1 h
    rw [List.filterMap_cons_some hb, List.map_cons, List.map_cons, hg, map_filterMap rest]

theorem State.TakesList.map_amendList {t : State} (ok : ∀ e ∈ es, e.InRange) (takes : t.TakesList c es) (acc : t.Accounted) :
    (t.amendList c es).map (fun h => ((t.amendMade c es).st.hand h).map Handover.bin) = es.map fun e => some e.bin := by
  have sound : ∀ h, ∀ x ∈ t.hand h, x.doubt ≠ none → x.state ≠ .closing := fun h x hx doubt => by
    rw [((acc.records.fits h x hx).doubt).1 (Option.isSome_iff_ne_none.2 doubt)]
    decide
  have owns : t.Owns c es := fun h x hx used ⟨e, he, bin⟩ => (takes.own e he h x hx used bin.symm).1
  have settled := t.settled_amendFreed (c := c) (es := es)
  have after := settled.owns sound owns
  have creates : (t.amendFreed c es).st.Creates c es es := by
    refine ⟨after, fun _ he => he, takes.distinct, le_trans ?_ (takes.enough.trans (State.available_le ok acc sound))⟩
    rw [State.needed, ← List.countP_eq_length_filter, ← List.countP_eq_length_filter]
    refine List.countP_mono_left fun e he unknown => ?_
    by_contra known
    obtain ⟨h, held⟩ := (owns.ownHolder_ne_none he).1 fun none => known (by rw [none]; rfl)
    exact (after.ownHolder_ne_none he).2 ⟨h, settled.holdsBin sound he held⟩ (by simpa using unknown)
  obtain ⟨owned, each, -⟩ := creates.all
  rw [← State.st_amendMade] at owned each
  refine map_filterMap fun e he => ?_
  obtain ⟨h, hh⟩ := Option.ne_none_iff_exists'.1 ((owned.ownHolder_ne_none he).2 (each e he))
  obtain ⟨⟨x, hx, -, bin⟩, -⟩ := State.ownHolder_eq_some.1 hh
  exact ⟨h, hh, by rw [Option.mem_def.1 hx, Option.map_some, bin]⟩

end

end Sys2Proof.Machine
end
-- ==== Sys2Proof/Proofs/AmendColumn.lean ====
section
/-! AMEND re-inventories a column (O46). -/
namespace Sys2Proof.Machine

/-! ### The request -/

theorem exec_amend_taken {s : State} {n count : Byte} {rest : List Byte} {c : ColIx} {es : List AmendEntry}
    (offered : s.offers .ps .amend (n :: byte c.val :: count :: rest)) (length : rest.length = 10 * count.toNat)
    (read : decodeEntries count.toNat 0 rest = .ok es) (fits : count.toNat ≤ (s.col c).cfg.depth)
    (takes : (s.dropRequest .ps).TakesList c es) :
    exec (.amend .ps) s = .next (((s.dropRequest .ps).amendTold c es).handOccupancy.startAll.finish.answered .ps .amend
      (n :: byte c.val :: count :: rest) .ok
      ([byte c.val, if ((s.dropRequest .ps).col c).cfg.gaugeMode = .off then 1 else 3, byte ((s.dropRequest .ps).amendList c es).length] ++
        ((s.dropRequest .ps).amendList c es).map (fun h => byte h.val) ++
        [byte (es.length - (s.dropRequest .ps).needed c es), byte ((s.dropRequest .ps).needed c es),
          byte ((s.dropRequest .ps).unlisted c es).length,
          byte (((s.dropRequest .ps).inboundDoubts c).filter fun h => !(s.dropRequest .ps).isListed es h).length])) := by
  have ok := decodeEntries_inRange _ _ _ _ read
  have owner := (amendOwner_judged (n := n) (s := s.dropRequest .ps) fits read takes.selfHanded).trans (takes.amendJudged ok)
  have answered := exec_offered offered (by simp [RequestKind.lengthOk, length]; omega) rfl (.inl rfl) owner
  exact answered

/-! ### A column with nothing inbound -/

section
variable {t : State} {c : ColIx} {es : List AmendEntry}

/-- The column enters SETTLING or OPEN, without a cause (R120, step 4). -/
def State.amendEnter (t : State) (c : ColIx) (w : Work) : Work :=
  if (t.col c).cfg.gaugeMode = .off then
    Work.start (w.up fun s => s.modCol c fun k => { k with state := .opened, cause := none }) c
  else w.up fun s => s.modCol c fun k =>
    { k with state := .settling, cause := none, settleTimer := some (2 ^ s.limits.settleExp) }

theorem State.amendEntered_eq {w : Work} (charged : t.amendCharged c es = w.up fun s => s.modCol c fun k => { k with cause := none }) :
    t.amendEntered c es = t.amendEnter c w := by
  unfold State.amendEntered State.amendEnter
  rw [charged]
  split <;> simp only [Work.up, State.modCol_modCol, State.limits_modCol]

/-- FENCE is posted for a column that was FENCED. -/
def State.amendFence (t : State) (c : ColIx) (w : Work) : Work :=
  if (t.col c).state = .fenced then w.up fun s =>
    s.postAll ((RegionSet.members (t.col c).cfg.reach).map .region ++ [.ps]) (.fence c) else w

theorem State.amendTold_nil (list : t.amendList c es = []) : t.amendTold c es = t.amendFence c (t.amendEntered c es) := by
  unfold State.amendTold
  rw [list]
  rfl

/-- READY is posted for the one record of the new stack. -/
theorem State.amendTold_one {h : HNum} {x : Handover} (list : t.amendList c es = [h])
    (stands : (t.amendCharged c es).st.standing h = some x.standing) :
    t.amendTold c es = (t.amendFence c (t.amendEntered c es)).up fun s => s.post (.region x.dest) (.ready h) := by
  have entered : (t.amendEntered c es).st.hand h = (t.amendCharged c es).st.hand h := by
    unfold State.amendEntered
    split <;> exact State.hand_modCol ..
  have fenced : (t.amendFence c (t.amendEntered c es)).st.hand h = (t.amendEntered c es).st.hand h := by
    unfold State.amendFence
    split
    · exact State.hand_postAll ..
    · rfl
  obtain ⟨y, hy, same⟩ := Option.map_eq_some_iff.1 stands
  have dest : y.dest = x.dest := by
    have := congrArg Handover.dest same
    exact this
  have told : t.amendTold c es = (t.amendFence c (t.amendEntered c es)).up fun s =>
      [h].foldl (fun s h => ((s.hand h).map fun x => s.post (.region x.dest) (.ready h)).getD s) s := by
    unfold State.amendTold
    rw [list]
    rfl
  rw [told]
  simp only [Work.up, List.foldl_cons, List.foldl_nil, fenced, entered, hy, Option.map_some, Option.getD_some, dest]

section
variable (inbound : (t.col c).inbound = [])
include inbound

theorem State.inboundDoubts_nil : t.inboundDoubts c = [] := by rw [State.inboundDoubts, inbound]; rfl

theorem State.amendFreed_of_empty : t.amendFreed c es = t.amendSettled c es := by
  rw [State.amendFreed, State.inboundDoubts_nil inbound]
  rfl

theorem State.remaining_zero (untargeted : ∀ i, ∀ y ∈ t.hand i, y.target ≠ some c) : t.remaining c es = 0 := by
  have none : (HNum.all.filter fun h => (t.hand h).any fun x => x.state == .doubt && x.target == some c && x.column != some c) = [] := by
    refine List.filter_eq_nil_iff.2 fun h _ => ?_
    cases hx : t.hand h with
    | none => simp
    | some x =>
      have := untargeted h x hx
      simp [this]
  rw [State.remaining_eq, State.inboundDoubts_nil inbound, none]
  rfl

end

/-! ### A list of one entry, and the empty list -/

theorem State.TakesList.nil (served : (t.col c).state = .unknown ∨ (t.col c).state = .fenced)
    (inbound : (t.col c).inbound = []) (untargeted : ∀ i, ∀ y ∈ t.hand i, y.target ≠ some c) : t.TakesList c [] where
  served := served
  distinct := .nil
  own := by simp
  enough := Nat.zero_le _
  room := by simp [State.remaining_zero inbound untargeted]

theorem State.TakesList.one {e : AmendEntry} (served : (t.col c).state = .unknown ∨ (t.col c).state = .fenced)
    (inbound : (t.col c).inbound = []) (untargeted : ∀ i, ∀ y ∈ t.hand i, y.target ≠ some c)
    (own : ∀ h, ∀ x ∈ t.hand h, x.state ≠ .closing → x.bin = e.bin → x.column = some c ∧ x.origin ≠ .region e.dest)
    (enough : t.needed c [e] ≤ t.freeCount) (depth : 1 ≤ (t.col c).cfg.depth) : t.TakesList c [e] where
  served := served
  distinct := List.pairwise_singleton _ _
  own := by simpa using own
  enough := enough.trans (Nat.le_add_right _ _)
  room := by simpa [State.remaining_zero inbound untargeted] using depth

theorem State.needed_nil : t.needed c [] = 0 := rfl

theorem decodeEntries_one {bin : BinNo} (hbin : bin ≠ 0) (dest : Region) (urg : Byte) (hd : Heading) (dueIn budget : BitVec 16) :
    decodeEntries (1 : Byte).toNat 0 (entryBody bin dest urg hd dueIn budget) = .ok [statedEntry bin dest urg hd dueIn budget] := by
  have read := decodeEntries_stated (fields := [(bin, dest, urg, hd, dueIn, budget)]) (by simpa using hbin) 0
  simpa using read

theorem dueOf_statedEntry (now : Seconds) (bin : BinNo) (dest : Region) (urg : Byte) (hd : Heading) (dueIn budget : BitVec 16) :
    dueOf now (statedEntry bin dest urg hd dueIn budget).dueIn = statedDue now dueIn := by
  have above : 4095 < dueIn ↔ 4095 < dueIn.toNat := by bv_omega
  rw [← dueOf_clampDueIn, clampDueIn, statedEntry]
  simp only [above]

theorem budgetOf_statedEntry (bin : BinNo) (dest : Region) (urg : Byte) (hd : Heading) (dueIn budget : BitVec 16) :
    budgetOf (statedEntry bin dest urg hd dueIn budget).budget = statedBudget budget := by
  rw [← budgetOf_clamp, statedEntry, clamp_eq (by decide), Nat.max_eq_right (Nat.zero_le _)]

end

end Sys2Proof.Machine
end
-- ==== Sys2Proof/Proofs/AmendReinventory.lean ====
section
/-! The three forms of an AMEND that O46 states. -/
namespace Sys2Proof.Machine

section
variable {t : State} {c : ColIx} {es : List AmendEntry}

/-- A column whose charging is judged has no cause left. -/
theorem State.amendEntered_of_charged : t.amendEntered c es = t.amendEnter c (t.amendCharged c es) := by
  refine State.amendEntered_eq ?_
  have cause : ((t.amendCharged c es).st.col c).cause = none := by rw [State.col_amendCharged, if_pos rfl]
  have same : (t.amendCharged c es).st.modCol c (fun k => { k with cause := none }) = (t.amendCharged c es).st :=
    State.modCol_self (by rw [← cause])
  rw [Work.up, same]

/-- The stack is set to a list and the cause is gone, where the stack holds that list already. -/
theorem State.modCol_stack {s : State} {l : List HNum} (stack : (s.col c).stack = l) :
    s.modCol c (fun k => { k with stack := l, cause := none }) = s.modCol c fun k => { k with cause := none } :=
  State.modCol_congr (by rw [← stack])

/-- The new stack of one entry whose bin has a record of the column. -/
theorem State.amendList_one {e : AmendEntry} {h : HNum} {s : State} (made : t.amendMade c [e] = { st := s, sel := [] })
    (own : s.ownHolder c e.bin = some h) : t.amendList c [e] = [h] := by
  rw [State.amendList, made]
  exact List.filterMap_cons_some (f := fun e : AmendEntry => s.ownHolder c e.bin) own

/-- The new stack of one record, its charging judged. -/
theorem State.amendCharged_one {h : HNum} {s : State} (made : (t.amendMade c es) = { st := s, sel := [] })
    (list : t.amendList c es = [h]) :
    t.amendCharged c es = Work.judgeCharging { st := s.modCol c fun k => { k with stack := [h], cause := none }, sel := [] } h := by
  rw [State.amendCharged, list, made]
  rfl

theorem State.unlisted_empty (stack : (t.col c).stack = []) : t.unlisted c es = [] := by rw [State.unlisted, stack]; rfl

/-! ### An empty UNKNOWN or FENCED column taken into service -/

theorem State.amendFreed_empty (stack : (t.col c).stack = []) (inbound : (t.col c).inbound = []) (es : List AmendEntry) :
    t.amendFreed c es = t.begin := by
  rw [State.amendFreed_of_empty inbound, State.amendSettled, stack]
  rfl

theorem State.amendTold_empty (stack : (t.col c).stack = []) (inbound : (t.col c).inbound = []) :
    t.amendTold c [] = t.amendFence c (t.amendEnter c t.begin) := by
  have made : t.amendMade c [] = t.begin := State.amendFreed_empty stack inbound []
  have charged : t.amendCharged c [] = t.begin.up fun s => s.modCol c fun k => { k with cause := none } := by
    have bare : t.amendCharged c [] = t.begin.up fun s => s.modCol c fun k => { k with stack := [], cause := none } := by
      rw [← made]; rfl
    rw [bare, Work.up, Work.up]
    exact congrArg (fun s => Work.mk s []) (State.modCol_stack (s := t) stack)
  rw [State.amendTold_nil rfl, State.amendEntered_eq charged]

section
variable {e : AmendEntry} (unheld : ∀ i, ¬ t.holdsBin i e.bin)
include unheld

theorem State.ownHolder_of_unheld : t.ownHolder c e.bin = none := by
  rw [State.ownHolder, State.binHolder_eq_none unheld]

theorem State.needed_new : t.needed c [e] = 1 := by
  rw [State.needed, List.filter_cons_of_pos (by rw [State.ownHolder_of_unheld unheld]; rfl)]
  rfl

section
variable (stack : (t.col c).stack = []) (inbound : (t.col c).inbound = []) {h : HNum} (free : t.hand h = none)
  (lowest : ∀ i, i < h → t.hand i ≠ none)
include stack inbound free lowest

theorem State.amendMade_new : t.amendMade c [e] = { st := t.setHand h (some (e.newRecord c t.clock)), sel := [] } := by
  have created := State.amendCreate_new (c := c) (State.ownHolder_of_unheld unheld) (State.lowestFree_eq_some.2 ⟨free, lowest⟩)
  rw [State.amendMade, State.amendFreed_empty stack inbound, List.foldl_cons, List.foldl_nil, Work.up]
  exact congrArg (fun s => Work.mk s []) created

theorem State.amendList_new : t.amendList c [e] = [h] := by
  have own : (t.setHand h (some (e.newRecord c t.clock))).ownHolder c e.bin = some h := by
    refine State.ownHolder_eq_some.2 ⟨(State.holdsBin_setHand free).2 (.inl ⟨rfl, by simp [AmendEntry.newRecord], rfl⟩),
      fun i hi held => ?_, e.newRecord c t.clock, State.hand_setHand_same .., rfl⟩
    exact ((State.holdsBin_setHand free).1 held).elim (fun x => absurd x.1 hi.ne) (unheld i)
  exact State.amendList_one (State.amendMade_new unheld stack inbound free lowest) own

/-- The steps of an AMEND with one bin that no record in use holds. -/
theorem State.amendTold_new : t.amendTold c [e] =
    (t.amendFence c (t.amendEnter c (Work.judgeCharging {
      st := (t.setHand h (some (e.newRecord c t.clock))).modCol c fun k => { k with stack := [h], cause := none }, sel := [] } h))).up
      fun s => s.post (.region e.dest) (.ready h) := by
  have list := State.amendList_new (t := t) unheld stack inbound free lowest
  have charged := State.amendCharged_one (State.amendMade_new unheld stack inbound free lowest) list
  have stands : (t.amendCharged c [e]).st.standing h = some (e.newRecord c t.clock).standing := by
    rw [charged, Work.standing_judgeCharging, State.standing, State.hand_modCol, State.hand_setHand_same]
    rfl
  rw [State.amendTold_one list stands, State.amendEntered_of_charged, charged]
  rfl

end

end

/-! ### A FENCED column that holds one STORED record -/

/-- A record restated holds its bin, in its column. -/
theorem State.ownHolder_restated {h : HNum} {x : Handover} {e : AmendEntry} (bin : e.bin = x.bin)
    (alone : ∀ i, t.holdsBin i x.bin → i = h) : (t.setHand h (some (x.restated c t.clock e))).ownHolder c e.bin = some h := by
  refine State.ownHolder_eq_some.2 ⟨⟨x.restated c t.clock e, State.hand_setHand_same .., by simp [Handover.restated], bin.symm⟩,
    fun i hi held => ?_, _, State.hand_setHand_same .., rfl⟩
  obtain ⟨y, hy, used, ybin⟩ := held
  rw [State.hand_setHand, if_neg hi.ne] at hy
  exact absurd (alone i ⟨y, hy, used, ybin.trans bin⟩) hi.ne

/-- A STORED record of the column, alone with its bin, is the one that holds it. -/
theorem State.ownHolder_stored {h : HNum} {x : Handover} {bin : BinNo} (hx : t.hand h = some x) (hb : x.bin = bin)
    (alone : ∀ i, t.holdsBin i bin → i = h) (stored : x.state = .stored) (column : x.column = some c) :
    t.ownHolder c bin = some h :=
  State.ownHolder_eq_some.2 ⟨⟨x, hx, by rw [stored]; decide, hb⟩, fun i hi held => absurd (alone i held) hi.ne, x, hx, column⟩

section
variable {h : HNum} {x : Handover} (stack : (t.col c).stack = [h]) (inbound : (t.col c).inbound = [])
  (hx : t.hand h = some x) (loose : x.target = none)
include stack inbound hx loose

/-- Its bin is not listed. -/
theorem State.amendTold_removed : t.amendTold c [] = t.amendFence c (t.amendEnter c (Work.close
    { st := t.modCol c fun k => { k with stack := [] }, sel := ColIx.all } h .removed (RegionSet.single x.dest)
      (.withdrawn h x.bin 2))) := by
  have dropped : t.begin.dropTarget h = t.begin := Work.dropTarget_of_none (w := t.begin) hx loose
  have emptied : (t.modCol c fun k => { k with stack := k.stack.filter fun i => i != h }) = t.modCol c fun k => { k with stack := [] } :=
    State.modCol_congr (by rw [stack]; simp)
  have made : t.amendMade c [] = Work.close { st := t.modCol c fun k => { k with stack := [] }, sel := ColIx.all } h .removed
      (RegionSet.single x.dest) (.withdrawn h x.bin 2) := by
    show t.amendFreed c [] = _
    rw [State.amendFreed_of_empty inbound, State.amendSettled, stack, List.foldl_cons, List.foldl_nil,
      Work.amendStack_unlisted (w := t.begin) hx rfl, dropped, ← emptied] <;> rfl
  have charged : t.amendCharged c [] = (t.amendMade c []).up fun s => s.modCol c fun k => { k with cause := none } := by
    have empty : ((t.amendMade c []).st.col c).stack = [] := by
      rw [made, Work.col_close]
      simp
    have bare : t.amendCharged c [] = (t.amendMade c []).up fun s => s.modCol c fun k => { k with stack := [], cause := none } := rfl
    rw [bare, Work.up, Work.up, State.modCol_stack empty]
  rw [State.amendTold_nil rfl, State.amendEntered_eq charged, made]

section
variable {e : AmendEntry} (bin : e.bin = x.bin) (alone : ∀ i, t.holdsBin i x.bin → i = h)
include bin alone

theorem State.amendMade_restated : t.amendMade c [e] = { st := t.setHand h (some (x.restated c t.clock e)), sel := [] } := by
  have dropped : t.begin.dropTarget h = t.begin := Work.dropTarget_of_none (w := t.begin) hx loose
  have found : [e].find? (fun e => e.bin == x.bin) = some e := by simp [bin]
  have same : ({ x with target := none } : Handover) = x := by rw [← loose]
  have settled : t.amendFreed c [e] = { st := t.setHand h (some (x.restated c t.clock e)), sel := [] } := by
    rw [State.amendFreed_of_empty inbound, State.amendSettled, stack, List.foldl_cons, List.foldl_nil,
      Work.amendStack_listed (w := t.begin) hx found, dropped, same] <;> rfl
  rw [State.amendMade, settled, List.foldl_cons, List.foldl_nil, Work.up,
    State.amendCreate_known (State.ownHolder_restated bin alone)]

theorem State.amendList_restated : t.amendList c [e] = [h] := by
  exact State.amendList_one (State.amendMade_restated stack inbound hx loose bin alone) (State.ownHolder_restated bin alone)

/-- Its bin is listed. -/
theorem State.amendTold_restated : t.amendTold c [e] =
    (t.amendFence c (t.amendEnter c (Work.judgeCharging {
      st := (t.setHand h (some (x.restated c t.clock e))).modCol c fun k => { k with cause := none }, sel := [] } h))).up
      fun s => s.post (.region e.dest) (.ready h) := by
  have list := State.amendList_restated stack inbound hx loose bin alone
  have charged := State.amendCharged_one (State.amendMade_restated stack inbound hx loose bin alone) list
  rw [State.modCol_stack (s := t.setHand h (some (x.restated c t.clock e))) stack] at charged
  have stands : (t.amendCharged c [e]).st.standing h = some (x.restated c t.clock e).standing := by
    rw [charged, Work.standing_judgeCharging, State.standing, State.hand_modCol, State.hand_setHand_same]
    rfl
  rw [State.amendTold_one list stands, State.amendEntered_of_charged, charged]
  rfl

end

end

end

end Sys2Proof.Machine
end
-- ==== Sys2Proof/Proofs/AmendObligation.lean ====
section
/-! AMEND re-inventories a column (O46). -/
namespace Sys2Proof.Machine

theorem AmendEntry.newRecord_stated (c : ColIx) (now : Seconds) (bin : BinNo) (dest : Region) (urg : Byte) (hd : Heading)
    (dueIn budget : BitVec 16) : (statedEntry bin dest urg hd dueIn budget).newRecord c now = {
      state := .stored, bin := bin, origin := .ps, dest := dest, urgency := max 1 (min 7 urg.toNat),
      due := statedDue now dueIn, heading := hd, column := some c, target := none, bookingTimer := none,
      holder := none, doubt := none, budget := statedBudget budget, closing := none, follower := none } := by
  rw [AmendEntry.newRecord, dueOf_statedEntry, budgetOf_statedEntry]
  rfl

theorem Handover.restated_stated (x : Handover) (c : ColIx) (now : Seconds) (bin : BinNo) (dest : Region) (urg : Byte)
    (hd : Heading) (dueIn budget : BitVec 16) : x.restated c now (statedEntry bin dest urg hd dueIn budget) = { x with
      state := .stored, dest := dest, urgency := max 1 (min 7 urg.toNat), heading := hd,
      due := statedDue now dueIn, budget := statedBudget budget, column := some c, bookingTimer := none,
      holder := none, doubt := none } := by
  rw [Handover.restated, dueOf_statedEntry, budgetOf_statedEntry]
  rfl

section
variable {s : State} {c : ColIx} {es : List AmendEntry}

/-- How many entries of a list name a bin that no record in use holds. -/
theorem State.needed_unknown (own : ∀ e ∈ es, ∀ h, ∀ x ∈ s.hand h, x.state ≠ .closing → x.bin = e.bin → x.column = some c) :
    s.needed c es = (es.filter fun e =>
      !HNum.all.any fun h => (s.hand h).any fun x => x.state != .closing && x.bin == e.bin).length := by
  unfold State.needed
  refine congrArg List.length (List.filter_congr fun e he => ?_)
  have owns : s.Owns c [e] := fun h x hx used ⟨e', he', bin⟩ => by
    obtain rfl := List.mem_singleton.1 he'
    exact own e' he h x hx used bin.symm
  have held (h : HNum) : ((s.hand h).any fun x => x.state != .closing && x.bin == e.bin) = true ↔ s.holdsBin h e.bin := by
    unfold State.holdsBin
    cases s.hand h <;> simp
  have known : (HNum.all.any fun h => (s.hand h).any fun x => x.state != .closing && x.bin == e.bin) = true ↔
      s.ownHolder c e.bin ≠ none := by
    rw [owns.ownHolder_ne_none List.mem_cons_self, List.any_eq_true]
    simp only [held, HNum.mem_all, true_and]
  rw [Bool.eq_iff_iff, Bool.not_eq_true', Bool.eq_false_iff, ne_eq, known, not_not, Option.isNone_iff_eq_none]

end

section
variable {t : State} {c : ColIx}

theorem State.freeCount_pos {h : HNum} (free : t.hand h = none) : 1 ≤ t.freeCount :=
  List.length_pos_of_mem (List.mem_filter.2 ⟨HNum.mem_all h, by rw [free]; rfl⟩)

theorem State.needed_of_own {e : AmendEntry} {h : HNum} (own : t.ownHolder c e.bin = some h) : t.needed c [e] = 0 := by
  rw [State.needed, List.filter_cons_of_neg (by simp [own])]
  rfl

section
variable {h : HNum} {x : Handover} (stack : (t.col c).stack = [h]) (hx : t.hand h = some x)
include stack hx

theorem State.unlisted_listed {e : AmendEntry} (bin : e.bin = x.bin) : t.unlisted c [e] = [] := by
  rw [State.unlisted, stack, List.filter_cons_of_neg (by simp [State.isListed, hx, bin])]
  rfl

theorem State.unlisted_nil : t.unlisted c [] = [h] := by
  rw [State.unlisted, stack, List.filter_cons_of_pos (by simp [State.isListed, hx])]
  rfl

end

end

/-- The account is of records, columns and claims, none of which the taking of a request touches. -/
theorem State.Accounted.dropRequest {s : State} (acc : s.Accounted) (p : Port) : (s.dropRequest p).Accounted where
  controlled := acc.controlled
  ordered := acc.ordered
  records := { acc.records with }
  columns := { acc.columns with }
  claims := { acc.claims with }

/-- Settles O46. -/
theorem amendReinventoriesAColumn : Obligations.AmendReinventoriesAColumn := by
  refine ⟨?empty, ?stored, ?general⟩
  case empty =>
    intro s n urg bin dest hd dueIn budget c h k code enter told x taken placed one served stack inbound untargeted
    refine ⟨fun offered => ?_, fun offered hbin depth unheld free lowest => ?_⟩
    · have takes : taken.TakesList c [] := .nil served inbound untargeted
      have done := exec_amend_taken offered rfl rfl (Nat.zero_le _) takes
      rw [State.amendTold_empty (t := taken) stack inbound, State.unlisted_empty (t := taken) stack,
        State.inboundDoubts_nil (t := taken) inbound] at done
      exact done
    · have needed : taken.needed c [statedEntry bin dest urg hd dueIn budget] = 1 := State.needed_new unheld
      have takes : taken.TakesList c [statedEntry bin dest urg hd dueIn budget] :=
        .one served inbound untargeted (fun i y hy used ybin => absurd ⟨y, hy, used, ybin⟩ (unheld i))
          (needed.trans_le (State.freeCount_pos (t := taken) free)) depth
      have done := exec_amend_taken offered (length_entryBody ..) (decodeEntries_one hbin ..) depth takes
      rw [State.amendTold_new (t := taken) (e := statedEntry bin dest urg hd dueIn budget) unheld stack inbound free lowest,
        State.amendList_new (t := taken) (e := statedEntry bin dest urg hd dueIn budget) unheld stack inbound free lowest,
        needed, State.unlisted_empty (t := taken) stack, State.inboundDoubts_nil (t := taken) inbound,
        AmendEntry.newRecord_stated] at done
      exact done
  case stored =>
    intro s n urg dest hd dueIn budget c h x k code enter restated taken placed one fenced stack inbound hx stored column loose
      untargeted
    have fence (w : Work) : taken.amendFence c w = w.up fun s =>
        s.postAll ((RegionSet.members k.cfg.reach).map .region ++ [.ps]) (.fence c) := if_pos fenced
    refine ⟨fun offered hbin depth origin alone => ?_, fun offered => ?_⟩
    · have own : taken.ownHolder c x.bin = some h := State.ownHolder_stored (t := taken) hx rfl alone stored column
      have needed : taken.needed c [statedEntry x.bin dest urg hd dueIn budget] = 0 := State.needed_of_own own
      have takes : taken.TakesList c [statedEntry x.bin dest urg hd dueIn budget] := by
        refine .one (.inr fenced) inbound untargeted (fun i y hy used ybin => ?_) (needed.trans_le (Nat.zero_le _)) depth
        obtain rfl := alone i ⟨y, hy, used, ybin⟩
        obtain rfl : y = x := Option.some.inj ((Option.mem_def.1 hy).symm.trans hx)
        exact ⟨column, origin⟩
      have done := exec_amend_taken offered (length_entryBody ..) (decodeEntries_one hbin ..) depth takes
      rw [State.amendTold_restated (t := taken) (e := statedEntry x.bin dest urg hd dueIn budget) stack inbound hx loose rfl alone,
        State.amendList_restated (t := taken) (e := statedEntry x.bin dest urg hd dueIn budget) stack inbound hx loose rfl alone,
        needed, State.unlisted_listed (t := taken) (e := statedEntry x.bin dest urg hd dueIn budget) stack hx rfl,
        State.inboundDoubts_nil (t := taken) inbound, Handover.restated_stated, fence] at done
      exact done
    · have takes : taken.TakesList c [] := .nil (.inr fenced) inbound untargeted
      have done := exec_amend_taken offered rfl rfl (Nat.zero_le _) takes
      rw [State.amendTold_removed (t := taken) stack inbound hx loose, State.unlisted_nil (t := taken) stack hx,
        State.inboundDoubts_nil (t := taken) inbound, fence] at done
      exact done
  case general =>
    intro s n count rest c es body k listed known unlisted needed doubts released shifted offered length read fits served distinct
      own enough room settled freed made stack judged entered told ready
    have needed_eq : (s.dropRequest .ps).needed c es = needed :=
      State.needed_unknown (s := s.dropRequest .ps) fun e he h x hx used bin => (own e he h x hx used bin).1
    have unlisted_eq : (s.dropRequest .ps).unlisted c es = unlisted := State.unlisted_eq
    have doubts_eq : (s.dropRequest .ps).inboundDoubts c = doubts := State.inboundDoubts_eq
    have released_eq : (((s.dropRequest .ps).inboundDoubts c).filter fun h => !(s.dropRequest .ps).isListed es h).length = released := by
      rw [doubts_eq]
      simp only [State.isListed_eq]
      rfl
    have takes : (s.dropRequest .ps).TakesList c es := by
      refine ⟨served, distinct, own, ?_, ?_⟩
      · rw [needed_eq, State.available, unlisted_eq]
        exact enough
      · rw [State.remaining_eq, doubts_eq]
        exact room
    have freed_eq : (s.dropRequest .ps).amendFreed c es = freed := by
      rw [State.amendFreed, doubts_eq]
      rfl
    have made_eq : (s.dropRequest .ps).amendMade c es = made := by
      rw [State.amendMade, freed_eq]
    have list_eq : (s.dropRequest .ps).amendList c es = stack := by
      rw [State.amendList, made_eq]
    have told_eq : (s.dropRequest .ps).amendTold c es = ready := by
      rw [State.amendTold, State.amendEntered, State.amendCharged, list_eq, made_eq]
      rfl
    refine ⟨?_, fun acc => ?_⟩
    · have done := exec_amend_taken offered length read fits takes
      rw [told_eq, list_eq, needed_eq, unlisted_eq, released_eq] at done
      exact done
    · have bins := takes.map_amendList (decodeEntries_inRange _ _ _ _ read) (acc.dropRequest .ps)
      rw [list_eq, made_eq] at bins
      exact bins

end Sys2Proof.Machine
end

