-- ==== Sys2Proof/Proofs/CalmUpdates.lean ====
section
/-! Predicates that every update keeps which leaves the control fields of the columns: the state, and whether a grant, a
cause, a pending fence, a settle timer and the enabled flag stand. Most operations make such updates alone, and what
they keep is said here once; the ones that turn a column from one state to another are in the next file. -/
namespace Sys2Proof.Machine

/-- The fields of a column of which `Column.Controlled` speaks. -/
def Column.control (k : Column) : ColState × Bool × Bool × Bool × Bool × Bool :=
  (k.state, k.grant.isSome, k.cause.isSome, k.fencePending, k.settleTimer.isSome, k.cfg.enabled)

theorem Column.control_eq {j k : Column} (h : j.control = k.control) : j.state = k.state ∧
    j.grant.isSome = k.grant.isSome ∧ j.cause.isSome = k.cause.isSome ∧ j.fencePending = k.fencePending ∧
    j.settleTimer.isSome = k.settleTimer.isSome ∧ j.cfg.enabled = k.cfg.enabled := by
  simpa [Column.control] using h

theorem Column.Controlled.of_control {j k : Column} (h : j.control = k.control) (hk : k.Controlled) :
    j.Controlled := by
  obtain ⟨hstate, hgrant, hcause, hpending, hsettle, henabled⟩ := Column.control_eq h
  constructor
  · rw [hgrant, hstate]; exact hk.grant
  · rw [hcause, hstate]; exact hk.cause
  · rw [hpending, hstate]; exact hk.fencePending
  · rw [hsettle, hstate]; exact hk.settle
  · rw [henabled, hstate]; exact hk.enabled

/-- A predicate that is kept across the updates which leave the control fields of the columns, a post among them and the
removal of an item not. -/
structure Calm (P : State → Prop) : Prop where
  col : ∀ {s} c f, (∀ k, (f k).control = k.control) → P s → P (s.modCol c f)
  hand : ∀ {s} h x, P s → P (s.setHand h x)
  post : ∀ {s} p n, P s → P (s.post p n)
  capture : ∀ {s} g e, P s → P (s.capture g e)
  load : ∀ {s} l, P s → P (s.setLoad l)
  stamp : ∀ {s} n, P s → P (s.setStamp n)

variable {P : State → Prop}

/-- A fold keeps what each of its steps keeps. -/
theorem foldl_invariant {α β : Type} {Q : β → Prop} {f : β → α → β} (step : ∀ b a, Q b → Q (f b a)) (l : List α)
    {b : β} (hb : Q b) : Q (l.foldl f b) := by
  induction l generalizing b with
  | nil => exact hb
  | cons a l ih => exact ih (step b a hb)

namespace Calm

/-! ### The updates of Ops.lean -/

theorem modHand (F : Calm P) {s : State} (hs : P s) (h : HNum) (f : Handover → Handover) : P (s.modHand h f) :=
  F.hand h _ hs

theorem postAll (F : Calm P) {s : State} (hs : P s) (ps : List Port) (n : Notice) : P (s.postAll ps n) :=
  foldl_invariant (fun _ p => F.post p n) ps hs

theorem setLoad (F : Calm P) {w : Work} (hw : P w.st) (l : LoadMonitor) : P (w.setLoad l).st := by
  have hload := F.load l hw
  unfold Work.setLoad
  dsimp only
  split <;> split <;>
    simp only [Work.startAll_st, Work.up_st, hload, F.postAll hload]

theorem handOccupancy (F : Calm P) {w : Work} (hw : P w.st) : P w.handOccupancy.st := F.setLoad hw _

theorem join (F : Calm P) {w : Work} (hw : P w.st) (c : ColIx) (cl : Claim) : P (w.join c cl).st :=
  F.col c (fun k => { k with waitList := insertClaim cl k.waitList }) (fun _ => rfl) hw

theorem leave (F : Calm P) {w : Work} (hw : P w.st) (c : ColIx) (p : Claim → Bool) : P (w.leave c p).st := by
  have gone : P (w.st.modCol c fun k => { k with waitList := (w.st.col c).waitList.filter fun cl => !p cl }) :=
    F.col c _ (fun _ => rfl) hw
  unfold Work.leave
  dsimp only
  split <;> exact gone

theorem renumber (F : Calm P) {s : State} (hs : P s) : P s.renumber := by
  have columns (f : Nat → Nat) : P (ColIx.all.foldl (fun s c => s.modCol c (Column.restamp f)) s) :=
    foldl_invariant (Q := P) (f := fun s c => s.modCol c (Column.restamp f))
      (fun _ c ht => F.col c _ (fun k => by simp [Column.control, Column.restamp]) ht) ColIx.all hs
  have records (f : Nat → Nat) {t : State} (ht : P t) :
      P (HNum.all.foldl (fun s h => s.modHand h (Handover.restamp f)) t) :=
    foldl_invariant (Q := P) (f := fun s h => s.modHand h (Handover.restamp f)) (fun _ h ht => F.modHand ht h _)
      HNum.all ht
  exact F.stamp _ (records _ (columns _))

theorem advanceStamp (F : Calm P) {s : State} (hs : P s) : P s.advanceStamp := by
  unfold State.advanceStamp
  split
  · exact F.renumber hs
  · exact F.stamp _ hs

theorem joinNew (F : Calm P) {w : Work} (hw : P w.st) (c : ColIx) (rb : Robot) (k : ClaimKind) (h : HNum) :
    P (w.joinNew c rb k h).st := F.advanceStamp (F.join hw c _)

theorem joinInbound (F : Calm P) {s : State} (hs : P s) (c : ColIx) (h : HNum) : P (s.joinInbound c h) :=
  F.col c _ (fun _ => rfl) hs

theorem leaveInbound (F : Calm P) {w : Work} (hw : P w.st) (c : ColIx) (h : HNum) : P (w.leaveInbound c h).st :=
  F.col c (fun k => { k with inbound := k.inbound.filter (· != h) }) (fun _ => rfl) hw

theorem land (F : Calm P) {s : State} (hs : P s) (c : ColIx) (h : HNum) : P (s.land c h) :=
  F.col c _ (fun _ => rfl) hs

theorem liftTop (F : Calm P) {w : Work} (hw : P w.st) (c : ColIx) : P (w.liftTop c).st :=
  F.col c (fun k => { k with stack := k.stack.dropLast }) (fun _ => rfl) hw

theorem dropTarget (F : Calm P) {w : Work} (hw : P w.st) (h : HNum) : P (w.dropTarget h).st := by
  unfold Work.dropTarget
  split
  · split
    · exact F.modHand (F.leaveInbound hw _ h) h _
    · exact hw
  · exact hw

/-! ### Exposure -/

theorem raiseUrgency (F : Calm P) {w : Work} (hw : P w.st) (h : HNum) (u : Nat) : P (w.raiseUrgency h u).st := by
  unfold Work.raiseUrgency
  split
  · exact hw
  · split
    · dsimp only
      split <;> exact F.hand h _ hw
    · exact hw

theorem takeWarning (F : Calm P) {w : Work} (hw : P w.st) (h : HNum) : P (w.takeWarning h).st := by
  unfold Work.takeWarning
  split
  · exact hw
  · exact F.post _ _ (F.raiseUrgency (F.modHand hw h _) h 6)

theorem judgeCharging (F : Calm P) {w : Work} (hw : P w.st) (h : HNum) : P (w.judgeCharging h).st := by
  unfold Work.judgeCharging
  split
  · exact hw
  · split
    · exact hw
    · dsimp only
      split
      · split
        · exact F.takeWarning (F.hand h _ hw) h
        · exact F.hand h _ hw
      · exact F.hand h _ hw
      · exact hw

theorem change (F : Calm P) {w : Work} (hw : P w.st) (h : HNum) (f : Handover → Handover) : P (w.change h f).st :=
  F.judgeCharging (F.modHand hw h f) h

/-! ### Endings and what a fence does to records -/

theorem close (F : Calm P) {w : Work} (hw : P w.st) (h : HNum) (why : Reason) (ps : RegionSet) (n : Notice) :
    P (w.close h why ps n).st := by
  unfold Work.close
  extract_lets waiting v
  have closing : P v.st := F.change hw h _
  split
  · exact F.hand h _ closing
  · exact F.postAll (F.modHand closing h _) _ n

theorem releaseWaiting (F : Calm P) {s : State} (hs : P s) (r : Region) (h : HNum) : P (s.releaseWaiting r h) := by
  unfold State.releaseWaiting
  split
  · exact hs
  · split
    · exact hs
    · split
      · dsimp only
        split <;> exact F.hand h _ hs
      · exact hs

theorem withdraw (F : Calm P) {w : Work} (hw : P w.st) (h : HNum) (cause : Byte) : P (w.withdraw h cause).st := by
  unfold Work.withdraw
  split
  · exact hw
  · exact F.close hw h _ _ _

theorem handBack (F : Calm P) {w : Work} (hw : P w.st) (h : HNum) (c : ColIx) (rb : Robot) :
    P (w.handBack h c rb).st := by
  unfold Work.handBack
  split
  · exact hw
  · exact F.capture _ _ (F.close hw h _ _ _)

theorem replaceBooked (F : Calm P) {w : Work} (hw : P w.st) (c : ColIx) (h : HNum) : P (w.replaceBooked c h).st := by
  unfold Work.replaceBooked
  split
  · exact hw
  · split
    · exact F.post _ _ (F.change (F.joinInbound (F.leaveInbound hw c h) _ h) h _)
    · exact F.withdraw (F.leaveInbound hw c h) h _

theorem replaceMoving (F : Calm P) {w : Work} (hw : P w.st) (c : ColIx) (h : HNum) : P (w.replaceMoving c h).st := by
  unfold Work.replaceMoving
  split
  · exact hw
  · split
    · exact hw
    · dsimp only
      split
      next d _ =>
        have joined := F.joinInbound (F.leave (F.leaveInbound hw c h) c fun cl => cl.handover == h) d h
        have moved := F.change (w := Work.up _ fun s => s.joinInbound d h) joined h fun r => { r with column := some d }
        split
        · exact F.join moved d _
        · exact moved
      · exact F.handBack (F.leaveInbound (F.leave hw c _) c h) h c _

theorem newTarget (F : Calm P) {w : Work} (hw : P w.st) (c : ColIx) (h : HNum) : P (w.newTarget c h).st := by
  unfold Work.newTarget
  split
  · exact hw
  · split
    · exact hw
    · split
      · exact hw
      · split
        · exact F.modHand (F.joinInbound (F.leaveInbound hw c h) _ h) h _
        · exact F.modHand (F.leaveInbound hw c h) h _

theorem dismissRegion (F : Calm P) {w : Work} (hw : P w.st) (c : ColIx) : P (w.dismissRegion c).st :=
  foldl_invariant (fun _ _ => F.post _ _) _ (F.leave hw c _)

/-- The entry into FENCED, once the column itself has entered it. -/
theorem enterFenced (F : Calm P) {w : Work} {c : ColIx} {cause : FenceCause} (hw : P (w.st.modCol c fun k =>
      { k with state := .fenced, cause := some cause, fencePending := false, settleTimer := none }))
    (who : Option (Robot × HNum)) : P (w.enterFenced c cause who).st := by
  unfold Work.enterFenced
  dsimp only
  refine F.handOccupancy (F.postAll ?_ _ _)
  refine foldl_invariant (Q := fun w : Work => P w.st) (fun w h hw => F.newTarget hw c h) _ ?_
  refine foldl_invariant (Q := fun w : Work => P w.st) (fun w h hw => F.replaceMoving hw c h) _ ?_
  refine foldl_invariant (Q := fun w : Work => P w.st) (fun w h hw => F.replaceBooked hw c h) _ ?_
  refine F.dismissRegion ?_ c
  split
  · exact F.capture _ _ hw
  · exact hw

/-! ### Notices -/

theorem grantNoticed (F : Calm P) {s : State} (hs : P s) (p : Port) (c : ColIx) : P (s.grantNoticed p c) := by
  unfold State.grantNoticed
  split
  · exact hs
  next g hg =>
    split
    · rw [State.modCol_congr (g := fun k => { k with grant := k.grant.map fun _ => g.noticed s.grantTicks })
        (by rw [hg]; rfl)]
      exact F.col c _ (fun k => by simp [Column.control]) hs
    · exact hs

theorem noticeGone (F : Calm P) {s : State} (hs : P s) (p : Port) (n : Notice) : P (s.noticeGone p n) := by
  unfold State.noticeGone
  split
  · exact F.grantNoticed hs _ _
  · exact F.releaseWaiting hs _ _
  · exact F.releaseWaiting hs _ _
  · exact F.releaseWaiting hs _ _
  · exact hs

/-! ### Reports -/

theorem settleFollower (F : Calm P) {w : Work} (hw : P w.st) (c : ColIx) (h : HNum) : P (w.settleFollower c h).st := by
  unfold Work.settleFollower
  split
  · exact hw
  next r _ =>
    have dropped := F.hand h (some { r with follower := none }) hw
    split
    · exact hw
    · dsimp only
      split
      · exact F.post _ _ dropped
      · split
        · exact F.post _ _ dropped
        · exact F.join (w := w.up fun s => s.setHand h _) dropped c _

theorem landDeposit (F : Calm P) {s : State} (hs : P s) (c : ColIx) (h : HNum) (x : Handover) :
    P (landDeposit s c h x).st := F.judgeCharging (F.post _ _ (F.modHand (F.land hs c h) h _)) h

theorem landHolding (F : Calm P) {s : State} (hs : P s) (c : ColIx) (h : HNum) (x : Handover) :
    P (landHolding s c h x).st :=
  F.judgeCharging (F.settleFollower (F.post _ _ (F.modHand (F.land hs c h) h _)) c h) h

theorem liftLift (F : Calm P) {s : State} (hs : P s) (c : ColIx) (h : HNum) (x : Handover) :
    P (liftLift s c h x).st := F.close (F.handOccupancy (F.liftTop (w := s.begin) hs c)) h _ _ _

theorem receiveShift (F : Calm P) {w : Work} (hw : P w.st) (k : HNum) (x : Handover) (source : ColIx)
    (port : Region) : P (w.receiveShift k x source port).1.st := by
  unfold Work.receiveShift
  dsimp only
  split
  · split
    · exact hw
    · split
      · exact F.joinInbound (F.leaveInbound hw _ k) _ k
      · exact F.leaveInbound hw _ k
  · split
    · exact F.joinInbound hw _ k
    · exact hw

theorem makeFollower (F : Calm P) {w : Work} (hw : P w.st) (c : ColIx) (k : HNum) : P (w.makeFollower c k).st := by
  unfold Work.makeFollower
  split
  · exact hw
  · exact F.modHand (F.leave hw c _) k _

theorem liftShift (F : Calm P) {s : State} (hs : P s) (source : ColIx) (k : HNum) (rb : Robot) (x : Handover)
    (g : Option Grant) : P (liftShift s source k rb x g).st := by
  have received := F.receiveShift (F.makeFollower (F.liftTop (w := s.begin) hs source) source k) k x source rb.port
  unfold Machine.liftShift
  extract_lets w₀
  change P (w₀.receiveShift k x source rb.port).1.st at received
  generalize w₀.receiveShift k x source rb.port = found at received
  obtain ⟨w, found⟩ := found
  dsimp only at received ⊢
  refine F.handOccupancy ?_
  cases found with
  | none => exact F.handBack received k source rb
  | some d =>
    have moving := F.change received k fun r =>
      { r with state := .moving, holder := some rb, doubt := none, column := some d, target := none }
    cases g with
    | none =>
      dsimp only
      split
      · exact F.replaceMoving (F.joinNew moving d rb .holding k) d k
      · exact F.joinNew moving d rb .holding k
    | some g =>
      dsimp only
      split
      · exact F.replaceMoving (F.join moving d _) d k
      · exact F.join moving d _

theorem rebook (F : Calm P) {w : Work} (hw : P w.st) (h : HNum) : P (w.rebook h).st := F.change hw h _

theorem putBack (F : Calm P) {w : Work} (hw : P w.st) (h : HNum) : P (w.putBack h).st :=
  F.change (F.dropTarget hw h) h _

theorem setMoving (F : Calm P) {w : Work} (hw : P w.st) (h : HNum) : P (w.setMoving h).st := F.change hw h _

theorem releaseHolding (F : Calm P) {w : Work} (hw : P w.st) (c : ColIx) (h : HNum) (x : Handover) (cl : Claim) :
    P (w.releaseHolding c h x cl).st := by
  unfold Work.releaseHolding
  split
  · exact F.join (F.setMoving hw h) c cl
  · split
    · exact F.join (F.change (F.joinInbound (F.leaveInbound (F.setMoving hw h) c h) _ h) h _) _ cl
    · exact F.handBack (F.leaveInbound hw c h) h c _

theorem lateReleaseHolding (F : Calm P) {w : Work} (hw : P w.st) (c : ColIx) (h : HNum) (rb : Robot) :
    P (w.lateReleaseHolding c h rb).st := F.replaceMoving (F.joinNew (F.setMoving hw h) c rb .holding h) c h

/-! ### AMEND -/

theorem amendStack (F : Calm P) {w : Work} (hw : P w.st) (c : ColIx) (es : List AmendEntry) (h : HNum) :
    P (w.amendStack c es h).st := by
  unfold Work.amendStack
  split
  · exact hw
  · have dropped := F.dropTarget hw h
    dsimp only
    split
    · exact F.modHand dropped h _
    · refine F.close ?_ h _ _ _
      exact F.col c (fun k => { k with stack := k.stack.filter (· != h) }) (fun _ => rfl) dropped

theorem amendFollower (F : Calm P) {w : Work} (hw : P w.st) (c : ColIx) (h : HNum) : P (w.amendFollower c h).st := by
  unfold Work.amendFollower
  split
  · exact hw
  next r _ =>
    have dropped := F.hand h (some { r with follower := none }) hw
    split
    · exact hw
    · dsimp only
      split
      · exact F.join (w := w.up fun s => s.setHand h _) dropped c _
      · exact F.post _ _ dropped

theorem amendInbound (F : Calm P) {w : Work} (hw : P w.st) (c : ColIx) (es : List AmendEntry) (h : HNum) :
    P (w.amendInbound c es h).st := by
  unfold Work.amendInbound
  split
  · exact hw
  · split
    · refine F.amendFollower (F.modHand ?_ h _) c h
      exact F.col c (fun k => { k with inbound := k.inbound.filter (· != h) }) (fun _ => rfl) hw
    · split
      · split
        · split
          · exact F.joinNew (F.setMoving hw h) c _ .holding h
          · exact F.setMoving hw h
        · exact F.post _ _ (F.rebook hw h)
      · exact hw

theorem amendCreate (F : Calm P) {s : State} (hs : P s) (c : ColIx) (e : AmendEntry) : P (s.amendCreate c e) := by
  unfold State.amendCreate
  split
  · exact hs
  · split
    · exact F.hand _ _ hs
    · exact hs

theorem postReady (F : Calm P) {s : State} (hs : P s) (h : HNum) : P (s.postReady h) := by
  unfold State.postReady
  split
  · exact F.post _ _ hs
  · exact hs

end Calm

/-! ### Predicates on the control fields alone -/

/-- A predicate that the control fields of the columns decide. -/
theorem Calm.of_control (same : ∀ {s t : State}, (∀ c, (t.col c).control = (s.col c).control) → P s → P t) :
    Calm P where
  col c f hf := same fun d => by rw [State.col_modCol]; split <;> [(rename_i e; rw [e]; exact hf _); rfl]
  hand h x := same fun d => by rw [State.col_setHand]
  post p n := same fun d => by rw [State.col_post]
  capture g e := same fun d => by rw [State.col_capture]
  load l := same fun d => by rw [State.col_setLoad]
  stamp n := same fun d => by rw [State.col_setStamp]

/-- The control fields of a column stand. -/
theorem calm_control (c : ColIx) (x : ColState × Bool × Bool × Bool × Bool × Bool) :
    Calm fun s => (s.col c).control = x := .of_control fun h hs => (h c).trans hs

/-- A change of a column that the control fields decide, as far as it changes them. -/
def ActsOnControl (f : Column → Column) : Prop := ∀ j k : Column, j.control = k.control → (f j).control = (f k).control

theorem calm_columnsControlled : Calm State.ColumnsControlled := .of_control fun h hs c => (hs c).of_control (h c)

theorem calm_controlledLater (c : ColIx) {f : Column → Column} (hf : ActsOnControl f) :
    Calm fun s => (s.modCol c f).ColumnsControlled :=
  .of_control fun {s t} h hs d => (hs d).of_control <| by
    rw [State.col_modCol, State.col_modCol]
    split <;> [(rename_i e; subst e; exact hf _ _ (h _)); exact h d]

end Sys2Proof.Machine
end

