-- ==== Sys2Proof/Proofs/SteadyOperations.lean ====
section
/-! What the operations keep that turn a column from one state to another: a grant and its end, the entry into FENCED,
into service, and a new configuration. -/
namespace Sys2Proof.Machine

/-- A predicate that a calm update keeps, and a change of one column under which that column keeps its laws. A change of
a column may also come later in a step than what it belongs to. -/
structure SteadyColumns (P : State → Prop) : Prop extends Calm P where
  turn : ∀ {s : State} c f, P s → ((s.col c).Controlled → (f (s.col c)).Controlled) → P (s.modCol c f)
  later : ∀ c {f}, ActsOnControl f → Calm fun s => P (s.modCol c f)

variable {P : State → Prop}

/-! ### The turns of a column -/

namespace Column.Controlled

variable {k : Column}

theorem no_grant (hk : k.Controlled) (h : k.state ≠ .granted) : k.grant = none :=
  Option.not_isSome_iff_eq_none.1 fun e => h (hk.grant.1 e)

theorem no_cause (hk : k.Controlled) (h : k.state ≠ .fenced) : k.cause = none :=
  Option.not_isSome_iff_eq_none.1 fun e => h (hk.cause.1 e)

theorem not_pending (hk : k.Controlled) (h : k.state ≠ .granted) : k.fencePending = false :=
  Bool.eq_false_iff.2 fun e => h (hk.fencePending e)

theorem no_timer (hk : k.Controlled) (h : k.state ≠ .settling) : k.settleTimer = none :=
  Option.not_isSome_iff_eq_none.1 fun e => h (hk.settle e)

theorem is_enabled (hk : k.Controlled) (h : k.state ≠ .disabled) : k.cfg.enabled = true := by
  simpa using fun e => h (hk.enabled.1 e)

/-- An OPEN column is granted. -/
theorem granted (hk : k.Controlled) (h : k.state = .opened) (g : Grant) :
    Column.Controlled { k with state := .granted, grant := some g } where
  grant := by simp
  cause := by simp [hk.no_cause (by simp [h])]
  fencePending _ := rfl
  settle e := by simp [hk.no_timer (by simp [h])] at e
  enabled := by simp [hk.is_enabled (by simp [h])]

/-- A column whose grant has ended, or that had none, is fenced. -/
theorem fenced (hk : k.Controlled) (h : k.state ≠ .disabled) (cause : FenceCause) : Column.Controlled
    { k with grant := none, state := .fenced, cause := some cause, fencePending := false, settleTimer := none } where
  grant := by simp
  cause := by simp
  fencePending e := by cases e
  settle e := by cases e
  enabled := by simp [hk.is_enabled h]

/-- A column goes to SETTLING with no grant and no cause. -/
theorem settles (hk : k.Controlled) (h : k.state ≠ .disabled) (n : Nat) : Column.Controlled
    { k with grant := none, cause := none, fencePending := false, state := .settling, settleTimer := some n } where
  grant := by simp
  cause := by simp
  fencePending e := by cases e
  settle _ := rfl
  enabled := by simp [hk.is_enabled h]

/-- A column goes to OPEN with no grant and no cause, its settle timer gone. -/
theorem opens (hk : k.Controlled) (h : k.state ≠ .disabled) : Column.Controlled
    { k with grant := none, cause := none, fencePending := false, state := .opened, settleTimer := none } where
  grant := by simp
  cause := by simp
  fencePending e := by cases e
  settle e := by cases e
  enabled := by simp [hk.is_enabled h]

end Column.Controlled

namespace SteadyColumns

/-! ### Fencing and selection -/

/-- A column with no grant, neither GRANTED nor DISABLED, enters FENCED. -/
theorem enterFenced (F : SteadyColumns P) {w : Work} (hw : P w.st) {c : ColIx} (hg : (w.st.col c).state ≠ .granted)
    (hd : (w.st.col c).state ≠ .disabled) (cause : FenceCause) (who : Option (Robot × HNum)) :
    P (w.enterFenced c cause who).st :=
  F.toCalm.enterFenced (F.turn c _ hw fun hk => by
    have entered := hk.fenced hd cause
    rwa [← hk.no_grant hg] at entered) who

theorem giveGrant (F : SteadyColumns P) {w : Work} (hw : P w.st) {c : ColIx} (ho : (w.st.col c).state = .opened)
    (cl : Claim) (op : Operation) : P (w.giveGrant c cl op).st := by
  have left : ((w.leave c (· == cl)).st.col c).control = (w.st.col c).control := (calm_control c _).leave rfl c _
  have still : ((w.leave c (· == cl)).st.col c).state = .opened := (Column.control_eq left).1.trans ho
  unfold Work.giveGrant
  extract_lets fresh g left granted
  have turned : P granted.st :=
    F.turn c (fun k => { k with state := .granted, grant := some g }) (F.leave hw c _) fun hk => hk.granted still g
  exact F.post _ _ (F.judgeCharging turned g.record)

theorem grantTo (F : SteadyColumns P) {w : Work} (hw : P w.st) {c : ColIx} (ho : (w.st.col c).state = .opened)
    (cl : Claim) : P (w.grantTo c cl).st := by
  unfold Work.grantTo
  have placed (f : Handover → Handover) (op : Operation) :
      P ((w.up (·.modHand cl.handover f)).giveGrant c cl op).st :=
    F.giveGrant (w := w.up (·.modHand cl.handover f)) (F.modHand hw cl.handover f) ho cl op
  split
  · exact placed _ _
  · exact placed _ _
  · split
    · exact placed _ _
    · split
      · exact hw
      next k _ =>
        split
        · exact hw
        · split
          · exact hw
          next t _ =>
            let shifting (r : Handover) : Handover := { r with state := .shifting, target := some t }
            have moved {Q : State → Prop} (G : Calm Q) (h : Q w.st) :
                Q (((w.up (·.modHand k shifting)).up (·.joinInbound t k)).handOccupancy).st :=
              G.handOccupancy (G.joinInbound (G.modHand h k shifting) t k)
            refine F.giveGrant (moved F.toCalm hw) ?_ cl _
            exact (Column.control_eq (moved (calm_control c (w.st.col c).control) rfl)).1.trans ho

theorem select (F : SteadyColumns P) {w : Work} (hw : P w.st) (c : ColIx) : P (w.select c).st := by
  unfold Work.select
  dsimp only
  split
  next h =>
    have marked : P (w.st.modCol c fun k => { k with waitList := (w.st.col c).waitList.map (w.st.mark c) }) :=
      F.col c _ (fun _ => rfl) hw
    split
    · exact F.grantTo marked (by simpa using h.1) _
    · exact marked
  · exact hw

theorem rounds (F : SteadyColumns P) : ∀ (n : Nat) {w : Work}, P w.st → P (Work.rounds n w).st
  | 0, _, hw => hw
  | n + 1, w, hw => by
    unfold Work.rounds
    split
    · exact hw
    · refine F.rounds n (foldl_invariant (Q := fun w : Work => P w.st) (fun v c hv => ?_) _ hw)
      split
      · exact F.select hv c
      · exact hv

/-- The selections at the end of a step. -/
theorem finish (F : SteadyColumns P) {w : Work} (hw : P w.st) : P w.finish := F.rounds 9 hw

/-! ### The end of a grant -/

/-- The entry into service, for a column that may stand in either state of service. -/
theorem settleOrOpen {w : Work} {c : ColIx}
    (settles : ∀ n, P (w.st.modCol c fun k => { k with state := .settling, settleTimer := some n }))
    (opens : P (w.st.modCol c fun k => { k with state := .opened })) : P (w.settleOrOpen c).st := by
  unfold Work.settleOrOpen
  split
  · exact settles _
  · exact settles _
  · exact opens

theorem completeGrant (F : SteadyColumns P) {w : Work} (hw : P w.st) {c : ColIx}
    (hg : (w.st.col c).grant.isSome = true) : P (w.completeGrant c).st := by
  have enabled (hk : (w.st.col c).Controlled) : (w.st.col c).state ≠ .disabled := by simp [hk.grant.1 hg]
  have noCause (hk : (w.st.col c).Controlled) : (w.st.col c).cause = none := hk.no_cause (by simp [hk.grant.1 hg])
  have noTimer (hk : (w.st.col c).Controlled) : (w.st.col c).settleTimer = none := hk.no_timer (by simp [hk.grant.1 hg])
  unfold Work.completeGrant
  dsimp only
  split
  · refine F.toCalm.enterFenced ?_ none
    rw [Work.up_st, State.modCol_modCol]
    exact F.turn c _ hw fun hk => hk.fenced (enabled hk) .supervisor
  next notPending =>
    have notPending : (w.st.col c).fencePending = false := by simpa using notPending
    refine settleOrOpen (fun n => ?_) ?_ <;> rw [Work.up_st, State.modCol_modCol]
    · exact F.turn c _ hw fun hk => by
        have settled := hk.settles (enabled hk) n
        rwa [← noCause hk, ← notPending] at settled
    · exact F.turn c _ hw fun hk => by
        have opened := hk.opens (enabled hk)
        rwa [← noCause hk, ← notPending, ← noTimer hk] at opened

theorem endGrant (F : SteadyColumns P) {w : Work} (hw : P w.st) {m : Matched}
    (hg : m.grant.isSome = true → (w.st.col m.column).grant.isSome = true) : P (w.endGrant m).st := by
  unfold Work.endGrant
  split
  next h => exact F.completeGrant hw (hg h)
  · exact hw

end SteadyColumns

end Sys2Proof.Machine
end

