-- ==== Sys2Proof/Proofs/SteadyOwners.lean ====
section
/-! What the owners of requests keep, for the predicates of the file before. -/
namespace Sys2Proof.Machine

/-- A predicate that every update of the part keeps which gives its columns their laws and takes no notice away, but
the notices of a kind other than RESET. -/
structure SteadyPart (P : State → Prop) : Prop extends SteadyColumns P where
  clear : ∀ {s} g, P s → P (s.modGroup g fun _ => { captured := none, multi := false })
  port : ∀ {s} r f, P s → P (s.setPort r f)
  limits : ∀ {s} l, P s → P (s.setLimits l)
  level : ∀ {s} (k : NoticeKind) n, k ≠ .reset → n ≤ 7 → P s → P (s.setLevel k n)
  removed : ∀ {s} q (k : NoticeKind), k ≠ .reset → P s → P (s.modPending q (·.filter fun n => !(n.kind == k)))
  tick : ∀ {s} g, P s → P (s.tick g)
  advance : ∀ {s : State}, P s → P s.advance
  sampled : ∀ {s : State}, P s → P { s with trendDue := false }
  forget : ∀ {s : State}, P s → P s.forget
  release : ∀ {s : State}, P s → P { s with resetAsserted := false }
  power : ∀ (s : State) asserted, P (s.powered asserted)
  queue : ∀ {s : State} rest, P s → P { s with pending := rest }
  edge : ∀ {s : State} q, P s → P (s.fillEdge q)

/-- A predicate that the updates of one port's link unit and pending set keep. -/
structure LetsGo (P : State → Prop) (q : Port) : Prop where
  link : ∀ {s : State} f, P s → P (s.modLink q f)
  drop : ∀ {s : State} f, P s → P (s.modPending q f)

variable {P : State → Prop}

/-- A FENCED column returns to OPEN. -/
theorem Column.Controlled.restored {k : Column} (hk : k.Controlled) (h : k.state = .fenced) :
    Column.Controlled { k with state := .opened, cause := none } where
  grant := by simp [hk.no_grant (by simp [h])]
  cause := by simp
  fencePending e := by simp [hk.not_pending (by simp [h])] at e
  settle e := by simp [hk.no_timer (by simp [h])] at e
  enabled := by simp [hk.is_enabled (by simp [h])]

/-! ### Booking and claims -/

namespace Calm

theorem postFence (F : Calm P) {s : State} (hs : P s) (c : ColIx) : P (s.postFence c) := F.postAll hs _ _

theorem bookOwner (F : Calm P) {s : State} (hs : P s) (r : Region) (body : List Byte) :
    P (bookOwner r body s).work.st := by
  unfold Machine.bookOwner
  dsimp only
  split
  · exact hs
  · split
    · exact hs
    · split
      · exact hs
      · split
        · exact hs
        · split
          · exact hs
          · split
            · exact hs
            · exact F.handOccupancy (w := State.begin _) (F.joinInbound (F.hand _ _ hs) _ _)

theorem cancelOwner (F : Calm P) {s : State} (hs : P s) (r : Region) (body : List Byte) :
    P (cancelOwner r body s).work.st := by
  unfold Machine.cancelOwner
  split
  · exact hs
  next h _ =>
    split
    · exact hs
    · split
      · exact hs
      · split
        · exact hs
        next c _ _ =>
          dsimp only
          refine F.handOccupancy ?_
          exact F.hand h _ (F.leaveInbound (F.leave (w := s.begin) hs c _) c h)
        · exact hs

theorem claimOwner (F : Calm P) {s : State} (hs : P s) (r : Region) (body : List Byte) :
    P (claimOwner r body s).work.st := by
  unfold Machine.claimOwner
  split
  · exact hs
  · split
    · exact hs
    · split
      · exact hs
      · exact hs
      · dsimp only
        split
        · exact hs
        · split
          · exact hs
          · split
            · exact hs
            · exact F.joinNew (w := s.begin) hs _ _ _ _

theorem dropFollowers (F : Calm P) {s : State} (hs : P s) (r : Region) : P (s.dropFollowers r) :=
  foldl_invariant (Q := P) (fun _ h ht => F.modHand ht h _) _ hs

theorem removeItems (F : Calm P) {s : State} {q : Port} {f : Notice → Bool}
    (hs : P (s.modPending q (·.filter fun n => !f n))) : P (s.removeItems q f) :=
  foldl_invariant (Q := P) (fun _ n ht => F.noticeGone ht q n) _ hs

theorem restartOwner (F : Calm P) {r : Region} (G : LetsGo P (.region r)) {s : State} (hs : P s) (body : List Byte) :
    P (restartOwner r body s).work.st := by
  have left : P (ColIx.all.foldl (fun w c => Work.leave w c (regionClaimOf r)) s.begin).st :=
    foldl_invariant (Q := fun w : Work => P w.st) (fun w c hw => F.leave hw c _) ColIx.all hs
  unfold Machine.restartOwner
  extract_lets w₁ w₂ w₃
  change P w₁.st at left
  clear_value w₁
  have removed : P w₂.st := F.removeItems (G.drop _ (F.dropFollowers left r))
  clear_value w₂
  have released (l : List HNum) : P (l.foldl (fun s h => s.releaseWaiting r h) w₂.st) :=
    foldl_invariant (Q := P) (f := fun s h => s.releaseWaiting r h) (fun _ h ht => F.releaseWaiting ht r h) l removed
  simp only [w₃, Work.up_st]
  exact released _

end Calm

/-! ### Reports -/

/-- A report on time has a grant at its column. -/
theorem State.isSome_grant_of_matchReport {s : State} {rb : Robot} {h : HNum} {x : Handover} {m : Matched}
    (hm : s.matchReport rb h x = some m) (ht : m.grant.isSome = true) : (s.col m.column).grant.isSome = true := by
  unfold State.matchReport at hm
  split at hm
  next c g hg =>
    cases hm
    obtain ⟨d, -, hd⟩ := List.exists_of_findSome?_eq_some hg
    split at hd
    next g' hg' =>
      split at hd
      · cases hd
        simp [hg']
      · cases hd
    · cases hd
  · split at hm
    · split at hm
      · cases hm
        cases ht
      · cases hm
    · cases hm

namespace SteadyColumns

theorem reportOwner (F : SteadyColumns P)
    {apply : State → Region → Robot → HNum → Handover → Matched → Option (Work × List Byte)}
    (rule : ∀ {s r rb h x m w d}, P s → (m.grant.isSome = true → (s.col m.column).grant.isSome = true) →
      apply s r rb h x m = some (w, d) → P w.st) {s : State} (hs : P s) (r : Region) (body : List Byte) :
    P (reportOwner apply r body s).work.st := by
  unfold Machine.reportOwner
  dsimp only
  split
  · exact hs
  · split
    · exact F.capture _ _ hs
    · split
      · exact F.capture _ _ hs
      · split
        · exact F.capture _ _ hs
        next m hm =>
          split
          · exact hs
          next w d e => exact rule hs (State.isSome_grant_of_matchReport hm) e

/-- A calm part of a report, and then the end of its grant. -/
theorem endReport (F : SteadyColumns P) {s : State} {m : Matched}
    (hm : m.grant.isSome = true → (s.col m.column).grant.isSome = true) {w : Work}
    (calm : ∀ {Q : State → Prop}, Calm Q → Q s → Q w.st) (hs : P s) : P (w.endGrant m).st :=
  F.endGrant (calm F.toCalm hs) fun ht => by
    have stands := calm (calm_control m.column (s.col m.column).control) rfl
    rw [(Column.control_eq stands).2.1]
    exact hm ht

theorem applyLanded (F : SteadyColumns P) {s : State} {r : Region} {rb : Robot} {h : HNum} {x : Handover} {m : Matched}
    {w : Work} {d : List Byte} (hs : P s) (hm : m.grant.isSome = true → (s.col m.column).grant.isSome = true)
    (e : applyLanded s r rb h x m = some (w, d)) : P w.st := by
  unfold Machine.applyLanded at e
  split at e <;> cases e
  · exact F.endReport hm (fun G hs => G.landDeposit hs m.column h x) hs
  · exact F.endReport hm (fun G hs => G.landHolding hs m.column h x) hs

theorem applyLifted (F : SteadyColumns P) {s : State} {r : Region} {rb : Robot} {h : HNum} {x : Handover} {m : Matched}
    {w : Work} {d : List Byte} (hs : P s) (hm : m.grant.isSome = true → (s.col m.column).grant.isSome = true)
    (e : applyLifted s r rb h x m = some (w, d)) : P w.st := by
  unfold Machine.applyLifted at e
  dsimp only at e
  split at e <;> cases e
  · exact F.endReport hm (fun G hs => G.liftLift hs m.column h x) hs
  · exact F.endReport hm (fun G hs => G.liftShift hs m.column h rb x m.grant) hs

theorem applyRelease (F : SteadyColumns P) {s : State} {r : Region} {rb : Robot} {h : HNum} {x : Handover} {m : Matched}
    {w : Work} {d : List Byte} (hs : P s) (hm : m.grant.isSome = true → (s.col m.column).grant.isSome = true)
    (e : applyRelease s r rb h x m = some (w, d)) : P w.st := by
  unfold Machine.applyRelease at e
  dsimp only at e
  split at e <;> cases e
  · exact F.endReport hm (fun G hs => G.rebook (w := s.begin) hs h) hs
  · exact F.handOccupancy (F.replaceBooked (F.rebook (w := s.begin) hs h) _ _)
  · exact F.endReport hm (fun G hs => G.putBack (w := s.begin) hs h) hs
  · exact F.endReport hm (fun G hs => G.handOccupancy (G.putBack (w := s.begin) hs h)) hs
  · exact F.endReport hm (fun G hs => G.handOccupancy (G.releaseHolding (w := s.begin) hs _ h x _)) hs
  · exact F.handOccupancy (F.lateReleaseHolding (w := s.begin) hs _ h rb)

/-! ### FENCE, RESTORE and AMEND -/

theorem fenceOwner (F : SteadyColumns P) {s : State} (hs : P s) (body : List Byte) :
    P (fenceOwner body s).work.st := by
  unfold Machine.fenceOwner
  split
  · exact hs
  next c _ =>
    have enters (hg : (s.col c).state ≠ .granted) (hd : (s.col c).state ≠ .disabled) :
        P (s.begin.enterFenced c .supervisor none).st := F.enterFenced (w := s.begin) hs hg hd _ _
    split
    next h => exact enters (by simp [h]) (by simp [h])
    next h => exact enters (by simp [h]) (by simp [h])
    next h =>
      exact F.turn c (fun k => { k with fencePending := true }) hs fun hk =>
        ⟨hk.grant, hk.cause, fun _ => h, hk.settle, hk.enabled⟩
    · exact hs
    · exact hs
    · exact hs

theorem restoreOwner (F : SteadyColumns P) {s : State} (hs : P s) (body : List Byte) :
    P (restoreOwner body s).work.st := by
  unfold Machine.restoreOwner
  split
  · exact hs
  next c _ =>
    dsimp only
    split
    · exact hs
    next fenced =>
      have fenced : (s.col c).state = .fenced := by simpa using fenced
      split
      · exact hs
      · split
        · exact hs
        · exact F.postFence (F.turn c (fun k => { k with state := .opened, cause := none }) hs fun hk =>
            hk.restored fenced) c

end SteadyColumns

/-- The steps of an AMEND before its column turns. -/
theorem Calm.amendMade (F : Calm P) {s : State} (hs : P s) (c : ColIx) (es : List AmendEntry) :
    P (s.amendMade c es).st := by
  refine foldl_invariant (Q := fun w : Work => P w.st) (fun w e hw => F.amendCreate hw c e) _ ?_
  refine foldl_invariant (Q := fun w : Work => P w.st) (fun w h hw => F.amendInbound hw c es h) _ ?_
  exact foldl_invariant (Q := fun w : Work => P w.st) (fun w h hw => F.amendStack hw c es h) _ hs

end Sys2Proof.Machine
end

