-- ==== Sys2Proof/Proofs/SteadySteps.lean ====
section
/-! What AMEND, the configuration requests, the timed events and every command keep, for the predicates of the files
before. -/
namespace Sys2Proof.Machine

variable {P : State → Prop}

/-! ### AMEND -/

/-- The column of an AMEND, its cause gone, goes to SETTLING. -/
theorem Column.Controlled.amended_settles {k : Column} (hk : k.Controlled) (h : k.state = .unknown ∨ k.state = .fenced)
    (stack : List HNum) (n : Nat) :
    Column.Controlled { k with stack := stack, cause := none, state := .settling, settleTimer := some n } where
  grant := by simp [hk.no_grant (by rcases h with h | h <;> simp [h])]
  cause := by simp
  fencePending e := by simp [hk.not_pending (by rcases h with h | h <;> simp [h])] at e
  settle _ := rfl
  enabled := by simp [hk.is_enabled (by rcases h with h | h <;> simp [h])]

/-- The column of an AMEND, its cause gone, goes to OPEN. -/
theorem Column.Controlled.amended_opens {k : Column} (hk : k.Controlled) (h : k.state = .unknown ∨ k.state = .fenced)
    (stack : List HNum) : Column.Controlled { k with stack := stack, cause := none, state := .opened } where
  grant := by simp [hk.no_grant (by rcases h with h | h <;> simp [h])]
  cause := by simp
  fencePending e := by simp [hk.not_pending (by rcases h with h | h <;> simp [h])] at e
  settle e := by simp [hk.no_timer (by rcases h with h | h <;> simp [h])] at e
  enabled := by simp [hk.is_enabled (by rcases h with h | h <;> simp [h])]

theorem actsOnControl_state (st : ColState) : ActsOnControl fun k => { k with state := st } := fun j k h => by
  obtain ⟨-, hgrant, hcause, hpending, hsettle, henabled⟩ := Column.control_eq h
  simp [Column.control, hgrant, hcause, hpending, hsettle, henabled]

theorem actsOnControl_settles (n : Nat) :
    ActsOnControl fun k => { k with state := .settling, settleTimer := some n } := fun j k h => by
  obtain ⟨-, hgrant, hcause, hpending, -, henabled⟩ := Column.control_eq h
  simp [Column.control, hgrant, hcause, hpending, henabled]

theorem actsOnControl_fences (cause : FenceCause) : ActsOnControl fun k =>
    { k with state := .fenced, cause := some cause, fencePending := false, settleTimer := none } := fun j k h => by
  obtain ⟨-, hgrant, -, -, -, henabled⟩ := Column.control_eq h
  simp [Column.control, hgrant, henabled]

namespace SteadyColumns

theorem amendEntered (F : SteadyColumns P) {s : State} (hs : P s) {c : ColIx} (es : List AmendEntry)
    (h : (s.col c).state = .unknown ∨ (s.col c).state = .fenced) : P (s.amendEntered c es).st := by
  have made : P (s.amendMade c es).st := F.toCalm.amendMade hs c es
  have stands : ((s.amendMade c es).st.col c).control = (s.col c).control := (calm_control c _).amendMade rfl c es
  have h : ((s.amendMade c es).st.col c).state = .unknown ∨ ((s.amendMade c es).st.col c).state = .fenced := by
    rwa [(Column.control_eq stands).1]
  have charged {f : Column → Column} (hf : ActsOnControl f)
      (turns : P (((s.amendMade c es).st.modCol c fun k =>
        { k with stack := s.amendList c es, cause := none }).modCol c f)) :
      P ((s.amendCharged c es).st.modCol c f) :=
    foldl_invariant (Q := fun w : Work => P (w.st.modCol c f)) (fun w h hw => (F.later c hf).judgeCharging hw h) _ turns
  unfold State.amendEntered
  split
  · refine charged (actsOnControl_state .opened) ?_
    rw [State.modCol_modCol]
    exact F.turn c _ made fun hk => hk.amended_opens h _
  · refine charged (actsOnControl_settles _) ?_
    rw [State.modCol_modCol]
    exact F.turn c _ made fun hk => hk.amended_settles h _ _

theorem amendApply (F : SteadyColumns P) {s : State} (hs : P s) {c : ColIx} {es : List AmendEntry}
    (ok : ∀ e ∈ es, e.InRange) (h : (s.col c).state = .unknown ∨ (s.col c).state = .fenced) :
    P (amendApply s c es).st := by
  have entered := F.amendEntered hs es h
  rw [amendApply_eq ok]
  refine F.handOccupancy (foldl_invariant (Q := P) (fun t h ht => ?_) _ ?_)
  · cases t.hand h with
    | none => exact ht
    | some x => exact F.post _ _ ht
  · split
    · exact F.postAll entered _ _
    · exact entered

theorem amendOwner (F : SteadyColumns P) {s : State} (hs : P s) (body : List Byte) :
    P (amendOwner body s).work.st := by
  unfold Machine.amendOwner
  dsimp only
  split
  · exact hs
  · split
    · exact hs
    · split
      · exact hs
      next es hes =>
        split
        · exact hs
        next c _ _ _ _ =>
          unfold amendJudged
          dsimp only
          split
          · exact hs
          next h =>
            split
            · exact hs
            · split
              · exact hs
              · split
                · exact hs
                · exact F.amendApply hs (decodeEntries_inRange _ _ _ _ hes) (by tauto)

end SteadyColumns

/-! ### Configuration -/

/-- A column that is reconfigured as R3 to R6 allow. -/
theorem Column.Controlled.reconfigured {k : Column} (hk : k.Controlled) {new : ColumnConfig}
    (allowed : new.enabled = false → k.cfg.enabled = true → k.state = .opened ∨ k.state = .fenced) :
    (k.reconfigured new).Controlled := by
  rw [Column.reconfigured_eq]
  split
  next h =>
    have state := allowed h.2 h.1
    exact {
      grant := by simp [hk.no_grant (by rcases state with e | e <;> simp [e])]
      cause := by simp
      fencePending := fun e => by cases e
      settle := fun e => by simp [hk.no_timer (by rcases state with e | e <;> simp [e])] at e
      enabled := by simp [h.2] }
  · split
    next h =>
      have state : k.state = .disabled := hk.enabled.1 h.1
      exact {
        grant := by simp [hk.no_grant (by simp [state])]
        cause := by simp [hk.no_cause (by simp [state])]
        fencePending := fun e => by simp [hk.not_pending (by simp [state])] at e
        settle := fun e => by simp [hk.no_timer (by simp [state])] at e
        enabled := by simp [h.2] }
    next h₁ h₂ =>
      have same : new.enabled = k.cfg.enabled := by
        cases hn : new.enabled <;> cases ho : k.cfg.enabled <;> simp_all
      exact ⟨hk.grant, hk.cause, hk.fencePending, hk.settle, same ▸ hk.enabled⟩

theorem State.disabling_of_changesAllowed {s : State} {c : ColIx} {new : ColumnConfig}
    (h : s.changesAllowed c new = true) (hn : new.enabled = false) (ho : (s.col c).cfg.enabled = true) :
    (s.col c).state = .opened ∨ (s.col c).state = .fenced := by
  unfold State.changesAllowed at h
  simp only [Bool.and_eq_true, Bool.or_eq_true, hn, ho, Bool.not_true, Bool.false_eq_true, false_or,
    beq_iff_eq] at h
  exact h.1.1.1.1.1.1

namespace SteadyColumns

theorem configureColumn (F : SteadyColumns P) {s : State} (hs : P s) {c : ColIx} {new : ColumnConfig}
    (h : s.changesAllowed c new = true) : P (configureColumn s c new).st := by
  unfold Machine.configureColumn
  extract_lets old w₁ w₂ w₃ w₄ k
  have configured : P w₁.st := F.turn c (fun k => k.reconfigured new) hs fun hk => hk.reconfigured (State.disabling_of_changesAllowed h)
  clear_value w₁
  have deepened : P w₂.st := by
    simp only [w₂]
    split <;> exact configured
  clear_value w₂
  have reached : P w₃.st := by
    simp only [w₃]
    split <;> exact deepened
  clear_value w₃
  have handed : P w₄.st := by
    simp only [w₄]
    split
    · exact F.handOccupancy reached
    · exact reached
  split
  next hcheck =>
    have opened : (w₄.st.col c).state = .opened := by
      simp only [Bool.and_eq_true, beq_iff_eq] at hcheck
      exact hcheck.1.2
    exact F.enterFenced handed (by simp [opened]) (by simp [opened]) _ _
  · exact handed

theorem configureColumnOwner (F : SteadyColumns P) {s : State} (hs : P s) (body : List Byte) :
    P (configureColumnOwner body s).work.st := by
  unfold Machine.configureColumnOwner
  split
  · exact hs
  · split
    · exact hs
    · split
      next h => exact F.configureColumn hs h
      · exact hs

/-! ### Timed events -/

theorem reportReading (F : SteadyColumns P) {w : Work} (hw : P w.st) (c : ColIx) (old new : Reading) :
    P (w.reportReading c old new).st := by
  have posted (b : Bool) : P (if b = true then w.up (·.post .ps (.gauge c)) else w).st := by
    cases b with
    | false => exact hw
    | true => exact F.post _ _ hw
  exact posted _

theorem readingChange (F : SteadyColumns P) {s : State} (hs : P s) (c : ColIx) : P (s.readingChange c) := by
  unfold State.readingChange
  extract_lets k w read
  split
  · have changed : P w.st := F.col c (fun k => { k with reading := k.candidate, filterCount := none }) (fun _ => rfl) hs
    clear_value w
    refine F.finish ?_
    simp only [read]
    split
    · exact changed
    · exact F.reportReading changed c _ _
    · unfold Work.judgeReading
      split
      next h => exact F.enterFenced changed (by simp [h]) (by simp [h]) _ _
      next h =>
        split
        · exact F.enterFenced changed (by simp [h]) (by simp [h]) _ _
        · exact changed
      all_goals exact changed
  · exact hs

theorem settleExpiry (F : SteadyColumns P) {s : State} (hs : P s) (c : ColIx) : P (s.settleExpiry c) := by
  unfold State.settleExpiry
  extract_lets k w opened matching judged
  split
  next h =>
    have settling (hk : (s.col c).Controlled) : (s.col c).state = .settling := hk.settle (by simp [k] at h; simp [h.1])
    have opens : P opened.st := by
      show P ((s.modCol c fun k => { k with settleTimer := none }).modCol c fun k => { k with state := .opened })
      rw [State.modCol_modCol]
      exact F.turn c _ hs fun hk => by
        have opened := hk.opens (by simp [settling hk])
        rwa [← hk.no_grant (by simp [settling hk]), ← hk.no_cause (by simp [settling hk]),
          ← hk.not_pending (by simp [settling hk])] at opened
    have fences (cause : FenceCause) : P (w.enterFenced c cause none).st := by
      refine F.toCalm.enterFenced ?_ none
      show P ((s.modCol c fun k => { k with settleTimer := none }).modCol c _)
      rw [State.modCol_modCol]
      exact F.turn c _ hs fun hk => by
        have fenced := hk.fenced (by simp [settling hk]) cause
        rwa [← hk.no_grant (by simp [settling hk])] at fenced
    clear_value opened w
    refine F.finish ?_
    simp only [judged]
    split
    · exact opens
    · split
      · exact opens
      · exact F.post _ _ opens
    · split
      · exact opens
      · exact fences _
  · exact hs

theorem grantTimeout (F : SteadyColumns P) {s : State} (hs : P s) (c : ColIx) : P (s.grantTimeout c) := by
  unfold State.grantTimeout
  split
  · exact hs
  next g hg =>
    dsimp only
    split
    · refine F.finish (F.toCalm.enterFenced ((F.later c (actsOnControl_fences _)).change (w := Work.up _ _) ?_ _ _) _)
      show P ((s.modCol c fun k => { k with grant := none }).modCol c _)
      rw [State.modCol_modCol]
      exact F.turn c _ hs fun hk => hk.fenced (by simp [hk.grant.1 (by simp [hg])]) _
    · exact hs

theorem bookingExpiry (F : SteadyColumns P) {s : State} (hs : P s) (h : HNum) : P (s.bookingExpiry h) := by
  unfold State.bookingExpiry
  split
  · exact hs
  · split
    next c _ _ _ =>
      exact F.finish (F.withdraw (F.handOccupancy (F.leaveInbound (F.leave (w := s.begin) hs c _) c h)) h _)
    · exact hs

theorem exposureWarning (F : SteadyColumns P) {s : State} (hs : P s) (h : HNum) : P (s.exposureWarning h) := by
  unfold State.exposureWarning
  split
  · exact hs
  · split
    · exact F.finish (F.takeWarning (w := s.begin) hs h)
    · exact hs

theorem exposureExpiry (F : SteadyColumns P) {s : State} (hs : P s) (h : HNum) : P (s.exposureExpiry h) := by
  unfold State.exposureExpiry
  split
  · exact hs
  · dsimp only
    split
    · have spent := F.modHand hs h fun r => { r with budget := r.budget.map Budget.expiredNow }
      exact F.finish (F.postAll (F.capture _ _ (F.raiseUrgency (w := s.begin.up (·.modHand h _)) spent h 7)) _ _)
    · exact hs

end SteadyColumns

end Sys2Proof.Machine
end

