-- ==== Sys2Proof/Proofs/SteadyCommands.lean ====
section
/-! What every command and every step keeps, for the predicates of the files before, and the laws of the columns (O56). -/
namespace Sys2Proof.Machine

variable {P : State → Prop}

/-! ### The edges of a link -/

theorem Calm.byteEdge (F : Calm P) {q : Port} (G : LetsGo P q) {s : State} (hs : P s) (b : Byte) (e : Bool) :
    P (s.byteEdge q b e) := by
  unfold State.byteEdge State.received
  dsimp only
  split
  · exact G.link _ (F.capture _ _ (G.link _ hs))
  · exact G.link _ (G.link _ hs)

theorem LetsGo.heldEdge {q : Port} (G : LetsGo P q) {s : State} (hs : P s) : P (s.heldEdge q) := by
  unfold State.heldEdge
  split
  · dsimp only
    refine G.link _ (G.link _ ?_)
    split
    · exact G.drop _ hs
    · exact hs
  · exact G.link _ hs

theorem Calm.fillEdge (F : Calm P) {q : Port} (G : LetsGo P q) {s : State} (hs : P s) : P (s.fillEdge q) := by
  unfold State.fillEdge
  split
  · exact hs
  · split
    · exact F.byteEdge G hs 0 false
    · exact G.heldEdge hs

/-- An answer after the selections of its step. -/
theorem SteadyColumns.answer (F : SteadyColumns P) {q : Port} (G : LetsGo P q) {y : Reply} (hy : P y.work.st)
    (f : Frame) : P (y.answer q f) := by
  unfold Reply.answer State.pushAnswer
  exact G.link _ (F.finish hy)

/-! ### The port of a command -/

/-- The port whose request or link a command is about. -/
def commandPort : Sys2Proof.Instr → Option Port
  | .frameBegin q _ _ | .controllerFrame q _ | .turnFalls q | .sendAnswer q | .sendNotice q | .requestOfUnknownKind q
  | .book q | .cancel q | .claim q | .landed q | .lifted q | .release q | .regionRestart q | .queryHandover q
  | .queryColumn q | .queryStatus q | .queryError q | .clearErrors q | .configureColumn q | .configurePort q
  | .configureLimits q | .configureLoad q | .configureNotices q | .setMode q | .force q | .fence q | .restore q
  | .amend q | .reinitialize q => some q
  | .powerOn | .resetInput | .resetRelease | .interchangeTick _ | .gaugeReadingChange _ | .grantTimeout _
  | .settleExpiry _ | .secondsAdvance | .bookingExpiry _ | .exposureWarning _ | .exposureExpiry _ | .trendSample => none

/-- A command of a port is one of its link's commands, or takes a request. -/
theorem portCommand_cases {c : Sys2Proof.Instr} {q : Port} (hc : commandPort c = some q) :
    (∃ k : RequestKind, c = k.command q) ∨ (∃ b e, c = .frameBegin q b e) ∨ (∃ bytes, c = .controllerFrame q bytes) ∨
      c = .turnFalls q ∨ c = .sendAnswer q ∨ c = .sendNotice q ∨ c = .requestOfUnknownKind q := by
  cases c <;> cases hc
  case frameBegin => simp
  case controllerFrame => simp
  case turnFalls => simp
  case sendAnswer => simp
  case sendNotice => simp
  case requestOfUnknownKind => simp
  case book => exact .inl ⟨.book, rfl⟩
  case cancel => exact .inl ⟨.cancel, rfl⟩
  case claim => exact .inl ⟨.claim, rfl⟩
  case landed => exact .inl ⟨.landed, rfl⟩
  case lifted => exact .inl ⟨.lifted, rfl⟩
  case release => exact .inl ⟨.release, rfl⟩
  case regionRestart => exact .inl ⟨.regionRestart, rfl⟩
  case queryHandover => exact .inl ⟨.queryHandover, rfl⟩
  case queryColumn => exact .inl ⟨.queryColumn, rfl⟩
  case queryStatus => exact .inl ⟨.queryStatus, rfl⟩
  case queryError => exact .inl ⟨.queryError, rfl⟩
  case clearErrors => exact .inl ⟨.clearErrors, rfl⟩
  case configureColumn => exact .inl ⟨.configureColumn, rfl⟩
  case configurePort => exact .inl ⟨.configurePort, rfl⟩
  case configureLimits => exact .inl ⟨.configureLimits, rfl⟩
  case configureLoad => exact .inl ⟨.configureLoad, rfl⟩
  case configureNotices => exact .inl ⟨.configureNotices, rfl⟩
  case setMode => exact .inl ⟨.setMode, rfl⟩
  case force => exact .inl ⟨.force, rfl⟩
  case fence => exact .inl ⟨.fence, rfl⟩
  case restore => exact .inl ⟨.restore, rfl⟩
  case amend => exact .inl ⟨.amend, rfl⟩
  case reinitialize => exact .inl ⟨.reinitialize, rfl⟩

namespace SteadyPart

/-! ### The owners of configuration -/

theorem removeKind (F : SteadyPart P) {s : State} (hs : P s) {k : NoticeKind} (hk : k ≠ .reset) : P (s.removeKind k) :=
  foldl_invariant (Q := P) (fun _ q ht => F.toCalm.removeItems (F.removed q k hk ht)) _ hs

theorem configureNoticesOwner (F : SteadyPart P) {s : State} (hs : P s) (body : List Byte) :
    P (configureNoticesOwner body s).work.st := by
  unfold Machine.configureNoticesOwner
  split
  · exact hs
  · exact hs
  next k hk _ =>
    extract_lets level set
    have set' : P set := F.level k level hk (clamp_bounds (by omega) _).2 hs
    clear_value set
    split
    · dsimp only [State.refuse_work, State.begin_st]
      exact F.removeKind set' hk
    · exact set'

theorem configurePortOwner (F : SteadyPart P) {s : State} (hs : P s) (body : List Byte) :
    P (configurePortOwner body s).work.st := by
  unfold Machine.configurePortOwner
  split
  · exact hs
  · split
    · exact hs
    · split
      · exact hs
      · exact F.port _ _ hs

theorem configureLimitsOwner (F : SteadyPart P) {s : State} (hs : P s) (body : List Byte) :
    P (configureLimitsOwner body s).work.st := by
  unfold Machine.configureLimitsOwner
  split
  · exact hs
  · exact F.limits _ hs

theorem configureLoadOwner (F : SteadyPart P) {s : State} (hs : P s) (body : List Byte) :
    P (configureLoadOwner body s).work.st := by
  unfold Machine.configureLoadOwner
  split
  · exact hs
  · exact F.toCalm.setLoad (w := s.begin) hs _

theorem setModeOwner (F : SteadyPart P) {s : State} (hs : P s) (body : List Byte) :
    P (setModeOwner body s).work.st := by
  unfold Machine.setModeOwner
  split
  · exact hs
  · exact F.toCalm.setLoad (w := s.begin) hs _

theorem forceOwner (F : SteadyPart P) {s : State} (hs : P s) (body : List Byte) : P (forceOwner body s).work.st := by
  have done (l : LoadMonitor) : P (s.begin.setLoad l).st := F.toCalm.setLoad (w := s.begin) hs l
  unfold Machine.forceOwner
  dsimp only
  split
  · split
    · exact done _
    · exact hs
  · split
    · split
      · exact done _
      · exact hs
    · exact hs

theorem clearErrorsOwner (F : SteadyPart P) {s : State} (hs : P s) (body : List Byte) :
    P (clearErrorsOwner body s).work.st := by
  unfold Machine.clearErrorsOwner
  split
  · exact hs
  · exact F.clear _ hs

/-! ### Requests -/

theorem regionOwner {q : Port} {owner : Region → List Byte → State → Reply} {body : List Byte} {s : State}
    (hs : P s) (own : ∀ r, q = .region r → P (owner r body s).work.st) : P (regionOwner q owner body s).work.st := by
  unfold Machine.regionOwner
  split
  · exact own _ rfl
  · exact hs

/-- The owner of every request, for a port that lets go. -/
theorem owner (F : SteadyPart P) {q : Port} (G : LetsGo P q) (k : RequestKind) (body : List Byte) {s : State} (hs : P s) :
    P (k.owner q body s).work.st := by
  cases k with
  | book => exact regionOwner hs fun r _ => F.toCalm.bookOwner hs r body
  | cancel => exact regionOwner hs fun r _ => F.toCalm.cancelOwner hs r body
  | claim => exact regionOwner hs fun r _ => F.toCalm.claimOwner hs r body
  | landed => exact regionOwner hs fun r _ => F.reportOwner F.applyLanded hs r body
  | lifted => exact regionOwner hs fun r _ => F.reportOwner F.applyLifted hs r body
  | release => exact regionOwner hs fun r _ => F.reportOwner F.applyRelease hs r body
  | regionRestart => exact regionOwner hs fun r hr => F.toCalm.restartOwner (hr ▸ G) hs body
  | queryHandover => simpa only [RequestKind.owner, Closed.queryHandoverOwner_st, State.begin_st] using hs
  | queryColumn => simpa only [RequestKind.owner, Closed.queryColumnOwner_st, State.begin_st] using hs
  | queryStatus => exact hs
  | queryError => simpa only [RequestKind.owner, Closed.queryErrorOwner_st, State.begin_st] using hs
  | clearErrors => exact F.clearErrorsOwner hs body
  | configureColumn => exact F.configureColumnOwner hs body
  | configurePort => exact F.configurePortOwner hs body
  | configureLimits => exact F.configureLimitsOwner hs body
  | configureLoad => exact F.configureLoadOwner hs body
  | configureNotices => exact F.configureNoticesOwner hs body
  | setMode => exact F.setModeOwner hs body
  | force => exact F.forceOwner hs body
  | fence => exact F.fenceOwner hs body
  | restore => exact F.restoreOwner hs body
  | amend => exact F.amendOwner hs body
  | reinitialize => exact F.handOccupancy (w := s.forget.begin) (F.forget hs)

theorem takeRequest (F : SteadyPart P) {q : Port} (G : LetsGo P q) (k : RequestKind) {s : State} (hs : P s) :
    P (s.takeRequest k q (k.owner q)) := by
  have taken : P (s.dropRequest q) := G.link _ hs
  rcases s.takeRequest_cases k q with h | ⟨f, -, -, h⟩
  · rw [h]
    exact hs
  · rw [h]
    refine F.answer G ?_ f
    unfold State.judgeRequest
    split
    · exact F.capture _ _ taken
    · split
      · exact taken
      · split
        · exact taken
        · exact F.owner G k f.body taken

/-! ### The commands of a link -/

theorem awaitPace {q : Port} (G : LetsGo P q) : ∀ (n : Nat) {s : State}, P s → P (s.awaitPace q n)
  | 0, _, hs => hs
  | n + 1, s, hs => by
    unfold State.awaitPace
    split
    · exact hs
    · exact awaitPace G n (G.heldEdge hs)

theorem awaitTurn (F : SteadyPart P) (q : Port) : ∀ (n : Nat) {s : State}, P s → P (s.awaitTurn q n)
  | 0, _, hs => hs
  | n + 1, s, hs => by
    unfold State.awaitTurn
    split
    · exact hs
    · exact F.awaitTurn q n (F.edge q hs)

theorem awaitFall {q : Port} (G : LetsGo P q) : ∀ (n : Nat) {s : State}, P s → P (s.awaitFall q n)
  | 0, _, hs => hs
  | n + 1, s, hs => by
    unfold State.awaitFall
    split
    · exact hs
    · exact awaitFall G n (G.link _ hs)

theorem presentByte (F : SteadyPart P) {q : Port} (G : LetsGo P q) {s t : State} {b : Byte} {e : Bool} (hs : P s)
    (h : s.presentByte q b e = some t) : P t := by
  simp only [State.presentByte, Option.ite_none_right_eq_some, Option.some.injEq] at h
  rw [← h.2]
  exact F.byteEdge G (awaitPace G 2 hs) b e

theorem takeBytes (F : SteadyPart P) {q : Port} (G : LetsGo P q) : ∀ (bs : List BusByte) {s : State}, P s →
    P (State.takeBytes q bs s)
  | [], _, hs => hs
  | (b, e) :: bs, s, hs => by
    unfold State.takeBytes
    split
    next t h => exact F.takeBytes G bs (F.presentByte G hs h)
    · exact hs

theorem frameBegin (F : SteadyPart P) {q : Port} (G : LetsGo P q) {s : State} (hs : P s) (b : Byte) (e : Bool) :
    P (if (s.link q).rx = .betweenFrames then (s.presentByte q b e).getD s else s) := by
  split
  · cases h : s.presentByte q b e with
    | none => exact hs
    | some t => exact F.presentByte G hs h
  · exact hs

theorem turnFalls {q : Port} (G : LetsGo P q) {s t : State} (hs : P s) (h : exec (.turnFalls q) s = .next t) : P t := by
  simp only [exec, execTurnFalls] at h
  injection h with h
  subst h
  split
  · split
    · exact G.link _ (awaitFall G _ hs)
    · exact hs
  · exact hs

theorem sendAnswer (F : SteadyPart P) {q : Port} (G : LetsGo P q) {s t : State} (hs : P s)
    (h : exec (.sendAnswer q) s = .next t) : P t := by
  simp only [exec, execSendAnswer] at h
  injection h with h
  subst h
  split
  · exact G.link _ (F.awaitTurn q 2 hs)
  · exact hs

theorem sendNotice (F : SteadyPart P) {q : Port} (G : LetsGo P q) {s t : State} (hs : P s)
    (h : exec (.sendNotice q) s = .next t) : P t := by
  simp only [exec, execSendNotice] at h
  injection h with h
  subst h
  have awaited := F.awaitTurn q 2 hs
  split
  · split
    · exact G.heldEdge awaited
    · exact G.link _ (F.noticeGone (G.drop _ awaited) _ _)
  · exact hs

theorem unknownKind (F : SteadyPart P) {q : Port} (G : LetsGo P q) {s t : State} (hs : P s)
    (h : exec (.requestOfUnknownKind q) s = .next t) : P t := by
  simp only [exec, execRequestOfUnknownKind] at h
  injection h with h
  subst h
  split
  · exact hs
  · split
    · exact hs
    · have taken : P (s.dropRequest q) := G.link _ hs
      exact F.answer G (F.capture _ _ taken) _

/-! ### Every command -/

/-- A command of a port that lets go. -/
theorem portCommand (F : SteadyPart P) {q : Port} (G : LetsGo P q) {c : Sys2Proof.Instr} (hc : commandPort c = some q)
    {s t : State} (hs : P s) (h : exec c s = .next t) : P t := by
  rcases portCommand_cases hc with ⟨k, rfl⟩ | ⟨b, e, rfl⟩ | ⟨bytes, rfl⟩ | rfl | rfl | rfl | rfl
  · rw [exec_command] at h
    cases h
    exact F.takeRequest G k hs
  · cases h
    exact F.frameBegin G hs b e
  · cases h
    exact F.takeBytes G bytes hs
  · exact turnFalls G hs h
  · exact F.sendAnswer G hs h
  · exact F.sendNotice G hs h
  · exact F.unknownKind G hs h

/-- A command of no port: power, RESET and the timed events. -/
theorem eventCommand (F : SteadyPart P) {c : Sys2Proof.Instr} (hc : commandPort c = none) {s t : State} (hs : P s)
    (h : exec c s = .next t) : P t := by
  cases c <;> simp only [commandPort, reduceCtorEq] at hc
  case powerOn => exact takes_of_exec_eq (R := fun _ t => P t) (exec_powerOn s) h (F.power s false)
  case resetInput => exact takes_of_exec_eq (R := fun _ t => P t) (exec_resetInput s) h (F.power s true)
  case resetRelease => cases h; exact F.release hs
  case interchangeTick g => cases h; exact F.tick g hs
  case gaugeReadingChange d => cases h; exact F.readingChange hs d
  case grantTimeout d => cases h; exact F.grantTimeout hs d
  case settleExpiry d => cases h; exact F.settleExpiry hs d
  case secondsAdvance => cases h; exact F.advance hs
  case bookingExpiry i => cases h; exact F.bookingExpiry hs i
  case exposureWarning i => cases h; exact F.exposureWarning hs i
  case exposureExpiry i => cases h; exact F.exposureExpiry hs i
  case trendSample =>
    cases h
    unfold State.trendSample
    split
    · exact F.sampled (F.finish (F.toCalm.setLoad (w := s.begin) hs _))
    · exact hs

/-- A step, for a predicate that each port's commands keep. -/
theorem step (F : SteadyPart P) {s t : State} (hs : P s)
    (ports : ∀ {u c q}, P u → s.pending.head? = some c → commandPort c = some q → exec c u = .next t → P t)
    (h : step s = .next t) : P t := by
  unfold Machine.step at h
  split at h
  · cases h
    unfold State.lclkEdge
    split
    · exact hs
    · exact foldl_invariant (Q := P) (fun _ q ht => F.edge q ht) _ hs
  next c rest hp =>
    have queued : P { s with pending := rest } := F.queue rest hs
    cases hc : commandPort c with
    | none => exact F.eventCommand hc queued h
    | some q => exact ports queued (by rw [hp]; rfl) hc h

end SteadyPart

/-! ### The control fields of the columns -/

theorem letsGo_columnsControlled (q : Port) : LetsGo State.ColumnsControlled q where
  link _ hs := hs
  drop _ hs := hs

theorem steadyColumns_columnsControlled : SteadyColumns State.ColumnsControlled where
  toCalm := calm_columnsControlled
  turn c f hs hf d := by
    rw [State.col_modCol]
    split
    next e => exact e ▸ hf (hs c)
    next => exact hs d
  later c _ hf := calm_controlledLater c hf

theorem Column.control_tick (k : Column) (steps : Nat) (x : Reading) : (k.tick steps x).control = k.control := by
  unfold Column.tick Column.sampleGauge Column.control
  split <;> simp

theorem Column.controlled_reinitialized (k : Column) : k.reinitialized.Controlled := by
  constructor <;> simp [Column.reinitialized] <;> split <;> simp_all

theorem steadyPart_columnsControlled : SteadyPart State.ColumnsControlled where
  toSteadyColumns := steadyColumns_columnsControlled
  clear _ hs := hs
  port _ _ hs := hs
  limits _ hs := hs
  level _ _ _ _ hs := hs
  removed _ _ _ hs := hs
  tick g hs d := (hs d).of_control (by
    rw [State.col_tick]
    split
    · rfl
    · exact Column.control_tick ..)
  advance hs d := by rw [State.col_advance]; exact hs d
  sampled hs := hs
  forget hs d := by rw [State.col_forget]; exact Column.controlled_reinitialized _
  release hs := hs
  power s asserted d := by rw [State.col_powered]; exact Column.controlled_initial d
  queue _ hs := hs
  edge q hs := calm_columnsControlled.fillEdge (letsGo_columnsControlled q) hs

/-- Settles O56: the control fields by what every step keeps of them, and the order of the lists by the closure of the
order under every update of the part. -/
theorem columnsKeepTheirLaws : Obligations.ColumnsKeepTheirLaws := by
  refine ⟨fun s t hs h => ?_, fun s t hs h => ?_⟩
  · exact steadyPart_columnsControlled.step hs (fun {_ _ q} hu _ hc he =>
      steadyPart_columnsControlled.portCommand (letsGo_columnsControlled q) hc hu he) h
  · exact closedStep_columnsOrdered.step (fun _ _ h => h) h hs

end Sys2Proof.Machine
end

