-- ==== Sys2Proof/Proofs/FirstFrame.lean ====
section
/-! The first frame that a port sends is its RESET notice (O55). -/
namespace Sys2Proof.Machine

namespace State.AwaitsReset

variable {s t : State} {p : Port}

/-- What leaves the link unit, the pending set and the levels leaves the port waiting. -/
theorem of_same (hs : s.AwaitsReset p) (link : t.link p = s.link p) (items : t.pendingSet p = s.pendingSet p)
    (level : ∀ k, t.level k = s.level k) : t.AwaitsReset p where
  link := link.trans hs.link
  first := by rw [items]; exact hs.first
  level := by simpa only [level] using hs.level

theorem items_eq (hs : s.AwaitsReset p) : s.pendingSet p = .reset :: (s.pendingSet p).tail :=
  (List.cons_head?_tail hs.first).symm

/-! ### Nothing happens on the link until SEND NOTICE -/

theorem pace (hs : s.AwaitsReset p) : s.pace p = false := by
  simp [State.pace, hs.link, LinkUnit.initial]

theorem mayTurn (hs : s.AwaitsReset p) : s.mayTurn p = !s.resetAsserted := by
  simp [State.mayTurn, hs.link, LinkUnit.initial]

/-- The RESET item is chosen (R153). -/
theorem nextNotice (hs : s.AwaitsReset p) :
    s.nextNotice p (s.pendingSet p).length (s.pendingSet p) = (some .reset, (s.pendingSet p).tail) := by
  have first : s.firstItem (s.pendingSet p) = some .reset := by
    rw [State.firstItem_eq_some]
    refine ⟨[], (s.pendingSet p).tail, hs.items_eq, fun x hx => (List.not_mem_nil hx).elim, fun x _ => ?_⟩
    simpa [State.outranks, Notice.kind, hs.level.1] using hs.level.2 x.kind
  have chosen := State.nextNotice_first_valid (p := p) (s.pendingSet p).tail.length first rfl
  rw [hs.items_eq] at chosen ⊢
  simpa using chosen

theorem something (hs : s.AwaitsReset p) : s.something p = true := by
  simp [State.something, hs.nextNotice]

theorem waits (hs : s.AwaitsReset p) : s.hasWaiting p = true := by
  rw [State.hasWaiting, hs.items_eq]
  simp

/-- While RESET is asserted an edge leaves the link unit prepared for the turn. -/
theorem edge_asserted (hs : s.AwaitsReset p) :
    (s.modLink p fun u => { u with window := false, prepared := s.hasWaiting p }) = s :=
  State.modLink_self (by rw [hs.link, hs.waits]; rfl)

theorem fillEdge (hs : s.AwaitsReset p) : s.fillEdge p = s := by
  cases hr : s.resetAsserted with
  | false =>
    have rise : s.riseDue p = true := by simp [State.riseDue, hs.mayTurn, hr, hs.something]
    simp [State.fillEdge, rise]
  | true =>
    have free : (s.link p).Free := by rw [hs.link]; exact ⟨rfl, by decide, rfl⟩
    rw [State.fillEdge_controller free (by rw [hs.link]; rfl) (by rw [hs.mayTurn, hr]; rfl)]
    exact hs.edge_asserted

theorem heldEdge (hs : s.AwaitsReset p) (hr : s.resetAsserted = true) : s.heldEdge p = s := by
  rw [State.heldEdge_unprepared (by rw [hs.link]; rfl) (by rw [hs.link]; rfl) (by rw [hs.mayTurn, hr]; rfl)]
  exact hs.edge_asserted

theorem awaitPace (hs : s.AwaitsReset p) (n : Nat) : s.awaitPace p n = s := by
  induction n with
  | zero => rfl
  | succ n ih =>
    unfold State.awaitPace
    split
    · rfl
    next h =>
      have hr : s.resetAsserted = true := by
        by_contra hr
        simp [State.riseDue, hs.mayTurn, hs.something, hr] at h
      rw [hs.heldEdge hr, ih]

theorem awaitTurn (hs : s.AwaitsReset p) (n : Nat) : s.awaitTurn p n = s := by
  induction n with
  | zero => rfl
  | succ n ih =>
    unfold State.awaitTurn
    split
    · rfl
    · rw [hs.fillEdge, ih]

theorem presentByte (hs : s.AwaitsReset p) (b : Byte) (e : Bool) : s.presentByte p b e = none := by
  simp [State.presentByte, hs.awaitPace, hs.pace]

theorem exec_sendAnswer (hs : s.AwaitsReset p) : exec (.sendAnswer p) s = .next s := by
  have nothing : (s.link p).answers = [] := by rw [hs.link]; rfl
  simp only [exec, execSendAnswer, hs.awaitTurn, nothing]
  cases s.mayTurn p <;> rfl

theorem exec_turnFalls (hs : s.AwaitsReset p) : exec (.turnFalls p) s = .next s := by
  simp only [exec, execTurnFalls, hs.link, LinkUnit.initial]

theorem exec_frameBegin (hs : s.AwaitsReset p) (b : Byte) (e : Bool) : exec (.frameBegin p b e) s = .next s := by
  simp [exec, execFrameBegin, hs.presentByte]

theorem exec_controllerFrame (hs : s.AwaitsReset p) (bytes : List BusByte) :
    exec (.controllerFrame p bytes) s = .next s := by
  simp only [exec, execControllerFrame]
  cases bytes with
  | nil => rfl
  | cons b bytes =>
    unfold State.takeBytes
    simp only [hs.presentByte]

theorem exec_request (hs : s.AwaitsReset p) (k : RequestKind) : exec (k.command p) s = .next s := by
  rw [exec_command, State.takeRequest_waiting (.inr (.inr fun f hf => by simp [hs.link, LinkUnit.initial] at hf))]

theorem exec_unknownKind (hs : s.AwaitsReset p) : exec (.requestOfUnknownKind p) s = .next s := by
  have none_ : s.oldestRequest p = none := by
    unfold State.oldestRequest
    split
    · rfl
    · simp [hs.link, LinkUnit.initial]
  simp only [exec, execRequestOfUnknownKind, none_]

theorem exec_sendNotice_asserted (hs : s.AwaitsReset p) (hr : s.resetAsserted = true) :
    exec (.sendNotice p) s = .next s := by
  simp [exec, execSendNotice, hs.awaitTurn, hs.mayTurn, hr]

theorem exec_sendNotice (hs : s.AwaitsReset p) (hr : s.resetAsserted = false) : exec (.sendNotice p) s =
    .next ((s.modPending p List.tail).modLink p fun u => { u with
      bus := .turning, prepared := false
      sending := some { bytes := frameBytes 0x81 ([0, 0xFF] ++ put16 (s.view p).order s.clock), sent := 0 } }) := by
  have body : s.noticeBody p .reset = [0, 0xFF] ++ put16 (s.view p).order s.clock := rfl
  have turns : (s.mayTurn p && (s.link p).answers.isEmpty) = true := by
    simp [hs.mayTurn, hr, hs.link, LinkUnit.initial]
  simp only [exec, execSendNotice, hs.awaitTurn, turns, ite_true, hs.nextNotice, body, State.noticeGone]
  rw [State.modPending_congr (g := List.tail) rfl]
  congr 1
  refine State.modLink_congr ?_
  rw [State.link_modPending, hs.link]
  rfl

end State.AwaitsReset

/-! ### What other commands leave -/

section
variable {p : Port}

theorem State.AwaitsReset.post {s : State} (hs : s.AwaitsReset p) (q : Port) (n : Notice) :
    (s.post q n).AwaitsReset p where
  link := by rw [State.link_post, hs.link]
  first := State.head?_post hs.first q n
  level := by simpa only [State.level_post] using hs.level

theorem calm_awaitsReset : Calm fun s => s.AwaitsReset p where
  col _ _ _ hs := hs.of_same rfl rfl fun _ => rfl
  hand _ _ hs := hs.of_same rfl rfl fun _ => rfl
  post q n hs := hs.post q n
  capture {s} g e hs := by
    unfold State.capture
    split
    · exact (hs.of_same (t := s.modGroup g _) rfl rfl fun _ => rfl).post _ _
    · exact hs.of_same rfl rfl fun _ => rfl
  load _ hs := hs.of_same rfl rfl fun _ => rfl
  stamp _ hs := hs.of_same rfl rfl fun _ => rfl

theorem State.awaitsReset_modCol (s : State) (c : ColIx) (f : Column → Column) :
    (s.modCol c f).AwaitsReset p ↔ s.AwaitsReset p :=
  ⟨fun hs => hs.of_same rfl rfl fun _ => rfl, fun hs => hs.of_same rfl rfl fun _ => rfl⟩

theorem steadyColumns_awaitsReset : SteadyColumns fun s => s.AwaitsReset p where
  toCalm := calm_awaitsReset
  turn c f hs _ := (State.awaitsReset_modCol _ c f).2 hs
  later c f _ := by
    simp only [State.awaitsReset_modCol]
    exact calm_awaitsReset

/-- Another port's link unit and pending set. -/
theorem letsGo_awaitsReset {q : Port} (other : p ≠ q) : LetsGo (fun s => s.AwaitsReset p) q where
  link f hs := hs.of_same (by rw [State.link_modLink, if_neg other]) rfl fun _ => rfl
  drop f hs := hs.of_same rfl (by rw [State.pendingSet_modPending, if_neg other]) fun _ => rfl

theorem State.AwaitsReset.removed {s : State} (hs : s.AwaitsReset p) (q : Port) {k : NoticeKind} (hk : k ≠ .reset) :
    (s.modPending q (·.filter fun n => !(n.kind == k))).AwaitsReset p where
  link := hs.link
  first := by
    rw [State.pendingSet_modPending]
    split
    next e =>
      subst e
      have kept : (!((Notice.reset).kind == k)) = true := by simpa [Notice.kind] using hk.symm
      rw [hs.items_eq, List.filter_cons, if_pos kept]
      rfl
    next => exact hs.first
  level := hs.level

theorem State.AwaitsReset.levels {s : State} (hs : s.AwaitsReset p) {k : NoticeKind} {n : Nat} (hk : k ≠ .reset)
    (hn : n ≤ 7) : (s.setLevel k n).AwaitsReset p where
  link := hs.link
  first := hs.first
  level := by
    simp only [State.level_setLevel]
    refine ⟨by rw [if_neg hk.symm]; exact hs.level.1, fun m => ?_⟩
    split
    · exact hn
    · exact hs.level.2 m

theorem State.AwaitsReset.tick {s : State} (hs : s.AwaitsReset p) (g : Vector Reading 8) : (s.tick g).AwaitsReset p := by
  unfold State.tick State.countTick
  split
  · exact hs
  · split <;> exact hs.of_same rfl rfl fun _ => rfl

theorem steadyPart_awaitsReset : SteadyPart fun s => s.AwaitsReset p where
  toSteadyColumns := steadyColumns_awaitsReset
  clear _ hs := hs.of_same rfl rfl fun _ => rfl
  port _ _ hs := hs.of_same rfl rfl fun _ => rfl
  limits _ hs := hs.of_same rfl rfl fun _ => rfl
  level _ _ hk hn hs := hs.levels hk hn
  removed q _ hk hs := hs.removed q hk
  tick g hs := hs.tick g
  advance {s} hs := by
    unfold State.advance
    split
    · exact hs.of_same rfl rfl fun _ => rfl
    · exact hs
  sampled hs := hs.of_same rfl rfl fun _ => rfl
  forget {s} hs := ⟨hs.link, by rw [State.pendingSet_forget]; rfl, hs.level⟩
  release hs := hs.of_same rfl rfl fun _ => rfl
  power s asserted := (State.awaitsReset_reset p).of_same rfl rfl fun _ => rfl
  queue _ hs := hs.of_same rfl rfl fun _ => rfl
  edge {s} q hs := by
    by_cases e : p = q
    · subst e
      rw [hs.fillEdge]
      exact hs
    · exact calm_awaitsReset.fillEdge (letsGo_awaitsReset e) hs

/-- A command of the port itself, SEND NOTICE apart, changes nothing. -/
theorem State.AwaitsReset.exec_portCommand {s : State} (hs : s.AwaitsReset p) {c : Sys2Proof.Instr}
    (hc : commandPort c = some p) (other : c ≠ .sendNotice p) : exec c s = .next s := by
  rcases portCommand_cases hc with ⟨k, rfl⟩ | ⟨b, e, rfl⟩ | ⟨bytes, rfl⟩ | rfl | rfl | rfl | rfl
  · exact hs.exec_request k
  · exact hs.exec_frameBegin b e
  · exact hs.exec_controllerFrame bytes
  · exact hs.exec_turnFalls
  · exact hs.exec_sendAnswer
  · exact absurd rfl other
  · exact hs.exec_unknownKind

theorem State.AwaitsReset.step {s t : State} (hs : s.AwaitsReset p) (other : s.pending.head? ≠ some (.sendNotice p))
    (h : step s = .next t) : t.AwaitsReset p := by
  refine steadyPart_awaitsReset.step hs (fun {u c q} hu hc hq he => ?_) h
  by_cases e : p = q
  · subst e
    rw [hu.exec_portCommand hq fun e => other (by rw [hc, e])] at he
    cases he
    exact hu
  · exact steadyPart_awaitsReset.portCommand (letsGo_awaitsReset e) hq hu he

end

/-- Settles O55: the distinct items by their closure under every update of the part; the wait for the RESET notice by
what every command but the port's own SEND NOTICE leaves of it. -/
theorem noticesStayDistinct : Obligations.NoticesStayDistinct :=
  ⟨fun _ _ hs h => closedStep_noticesDistinct.step (fun _ _ h => h) h hs, fun _ _ hs =>
    ⟨fun _ other h => hs.step other h,
      ⟨hs.exec_sendAnswer, hs.exec_turnFalls, hs.exec_frameBegin, hs.exec_controllerFrame⟩,
      hs.exec_sendNotice_asserted, hs.exec_sendNotice⟩⟩

end Sys2Proof.Machine
end

