-- ==== Sys2Proof/Proofs/Ledger.lean ====
section
/-! The ledger of records, columns and claims: what the account of `State.Accounted` speaks of, and no more (O57). An
update that does not touch the account leaves the ledger as it is. -/
namespace Sys2Proof.Machine

/-! ### What the account sees -/

/-- A claim without its stamp and its mark. -/
def Claim.entry (cl : Claim) : Claim := { cl with stamp := 0, blocked := false }

/-- A grant without its notice and its timer. -/
def Grant.entry (g : Grant) : Grant := { g with claim := g.claim.entry, noticeSent := false, timer := none }

/-- A record without what the account does not speak of: of a timer, a closing reason and a follower's stamp only
whether they stand. -/
def Handover.entry (x : Handover) : Handover := { x with
  origin := .ps, dest := 0, urgency := 0, due := .unknown, heading := 0, budget := none
  bookingTimer := x.bookingTimer.map fun _ => 0
  closing := x.closing.map fun _ => ⟨.delivered, 0⟩
  follower := x.follower.map fun f => { f with stamp := 0 } }

/-- The books of a column: the inbound set as a set, the wait list without its order. -/
structure Books where
  state : ColState
  depth : Nat
  stack : List HNum
  inbound : Finset HNum
  waits : Multiset Claim
  grant : Option Grant

def Column.books (k : Column) : Books where
  state := k.state
  depth := k.cfg.depth
  stack := k.stack
  inbound := k.inbound.toFinset
  waits := (k.waitList.map Claim.entry : List Claim)
  grant := k.grant.map Grant.entry

/-- The records and the books of the columns. -/
@[ext] structure Ledger where
  hand : HNum → Option Handover
  book : ColIx → Books

def State.ledger (s : State) : Ledger where
  hand h := (s.hand h).map Handover.entry
  book c := (s.col c).books

def Ledger.setHand (L : Ledger) (h : HNum) (x : Option Handover) : Ledger :=
  { L with hand := fun i => if i = h then x else L.hand i }

def Ledger.modBook (L : Ledger) (c : ColIx) (f : Books → Books) : Ledger :=
  { L with book := fun d => if d = c then f (L.book d) else L.book d }

section
variable (L : Ledger)

@[simp] theorem Ledger.hand_setHand (h i : HNum) (x : Option Handover) :
    (L.setHand h x).hand i = if i = h then x else L.hand i := rfl
@[simp] theorem Ledger.book_setHand (h : HNum) (x : Option Handover) : (L.setHand h x).book = L.book := rfl
@[simp] theorem Ledger.hand_modBook (c : ColIx) (f : Books → Books) : (L.modBook c f).hand = L.hand := rfl
@[simp] theorem Ledger.book_modBook (c d : ColIx) (f : Books → Books) :
    (L.modBook c f).book d = if d = c then f (L.book d) else L.book d := rfl

end

/-! ### Entries say the same -/

section
variable (x : Handover) (cl : Claim) (g : Grant)

@[simp] theorem Handover.entry_state : x.entry.state = x.state := rfl
@[simp] theorem Handover.entry_bin : x.entry.bin = x.bin := rfl
@[simp] theorem Handover.entry_column : x.entry.column = x.column := rfl
@[simp] theorem Handover.entry_target : x.entry.target = x.target := rfl
@[simp] theorem Handover.entry_holder : x.entry.holder = x.holder := rfl
@[simp] theorem Handover.entry_doubt : x.entry.doubt = x.doubt := rfl
@[simp] theorem Handover.entry_stacked : x.entry.stacked = x.stacked := rfl
@[simp] theorem Handover.entry_awaited : x.entry.awaited = x.awaited := rfl
@[simp] theorem Handover.entry_shifted : x.entry.shifted = x.shifted := rfl
@[simp] theorem Handover.entry_isSome_follower : x.entry.follower.isSome = x.follower.isSome := Option.isSome_map
@[simp] theorem Handover.entry_follower (rb : Robot) :
    (x.entry.follower.any fun f => f.robot == rb) = x.follower.any fun f => f.robot == rb := by
  cases h : x.follower <;> simp [Handover.entry, h]

theorem Handover.fits_entry : x.entry.Fits ↔ x.Fits := by
  have timer : x.entry.bookingTimer.isSome = x.bookingTimer.isSome := Option.isSome_map
  have closing : x.entry.closing.isSome = x.closing.isSome := Option.isSome_map
  constructor <;> rintro ⟨h₁, h₂, h₃, h₄, h₅, h₆, h₇, h₈, h₉⟩
  · exact ⟨h₁, by rwa [closing] at h₂, by rwa [timer] at h₃, h₄, h₅, h₆, h₇, h₈, by simpa using h₉⟩
  · exact ⟨h₁, by rwa [closing], by rwa [timer], h₄, h₅, h₆, h₇, h₈, by simpa using h₉⟩

@[simp] theorem Claim.entry_robot : cl.entry.robot = cl.robot := rfl
@[simp] theorem Claim.entry_kind : cl.entry.kind = cl.kind := rfl
@[simp] theorem Claim.entry_handover : cl.entry.handover = cl.handover := rfl
@[simp] theorem Claim.entry_isRegion : cl.entry.isRegion = cl.isRegion := rfl
@[simp] theorem Claim.entry_suits : cl.entry.suits x.entry = cl.suits x := rfl
@[simp] theorem Grant.entry_claim : g.entry.claim = g.claim.entry := rfl
@[simp] theorem Grant.entry_op : g.entry.op = g.op := rfl
@[simp] theorem Grant.entry_record : g.entry.record = g.record := rfl
@[simp] theorem Grant.entry_suits : g.entry.suits x.entry = g.suits x := rfl
@[simp] theorem Grant.entry_noticed (n : Nat) : (g.noticed n).entry = g.entry := by
  simp [Grant.entry, Grant.claim_noticed, Grant.op_noticed]

end

theorem State.mem_ledger_hand {s : State} {h : HNum} {y : Handover} :
    y ∈ s.ledger.hand h ↔ ∃ x ∈ s.hand h, x.entry = y := Option.mem_map

/-! ### Updates and the ledger -/

/-- A change of a column that its books follow. -/
theorem State.ledger_modCol {s : State} {c : ColIx} {f : Column → Column} {g : Books → Books}
    (h : (f (s.col c)).books = g (s.col c).books) : (s.modCol c f).ledger = s.ledger.modBook c g := by
  ext1
  · rfl
  · funext d
    simp only [State.ledger, Ledger.modBook, State.col_modCol]
    split
    next e => subst e; exact h
    next => rfl

theorem Ledger.modBook_self {L : Ledger} {c : ColIx} {f : Books → Books} (h : f (L.book c) = L.book c) :
    L.modBook c f = L := by
  ext1
  · rfl
  · funext d
    simp only [Ledger.book_modBook]
    split
    next e => subst e; exact h
    next => rfl

/-- A change of a column that its books do not see. -/
theorem State.ledger_modCol_same {s : State} {c : ColIx} {f : Column → Column}
    (h : (f (s.col c)).books = (s.col c).books) : (s.modCol c f).ledger = s.ledger := by
  rw [State.ledger_modCol (g := id) h, Ledger.modBook_self rfl]

theorem State.ledger_setHand (s : State) (h : HNum) (x : Option Handover) :
    (s.setHand h x).ledger = s.ledger.setHand h (x.map Handover.entry) := by
  ext1
  · funext i
    simp only [State.ledger, Ledger.setHand, State.hand_setHand]
    split <;> rfl
  · rfl

theorem State.ledger_modHand {s : State} {h : HNum} {x : Handover} (hx : s.hand h = some x) (f : Handover → Handover) :
    (s.modHand h f).ledger = s.ledger.setHand h (some (f x).entry) := by
  rw [State.modHand_of_some hx, State.ledger_setHand]
  rfl

theorem Ledger.setHand_self {L : Ledger} {h : HNum} {x : Option Handover} (e : L.hand h = x) : L.setHand h x = L := by
  ext1
  · funext i
    simp only [Ledger.hand_setHand]
    split
    next hi => rw [hi, e]
    next => rfl
  · rfl

/-- A change of a record that its entry does not see. -/
theorem State.ledger_setHand_same {s : State} {h : HNum} {x y : Handover} (hx : s.hand h = some x)
    (same : y.entry = x.entry) : (s.setHand h (some y)).ledger = s.ledger := by
  rw [State.ledger_setHand]
  exact Ledger.setHand_self (by simp [State.ledger, hx, same])

theorem State.ledger_modHand_same {s : State} {h : HNum} {f : Handover → Handover} (same : ∀ x, (f x).entry = x.entry) :
    (s.modHand h f).ledger = s.ledger := by
  cases hx : s.hand h with
  | none => rw [State.modHand_of_none hx]
  | some x => rw [State.modHand_of_some hx, State.ledger_setHand_same hx (same x)]

@[simp] theorem State.ledger_post (s : State) (p : Port) (n : Notice) : (s.post p n).ledger = s.ledger := by
  unfold State.post
  split <;> rfl

@[simp] theorem State.ledger_postAll (s : State) (ps : List Port) (n : Notice) : (s.postAll ps n).ledger = s.ledger :=
  foldl_keeps State.ledger _ (fun s p => s.ledger_post p n) ps s

@[simp] theorem State.ledger_capture (s : State) (g : Fin 8) (e : Capture) : (s.capture g e).ledger = s.ledger := by
  unfold State.capture
  split
  · rw [State.ledger_post]; rfl
  · rfl

@[simp] theorem Work.ledger_setLoad (w : Work) (l : LoadMonitor) : (w.setLoad l).st.ledger = w.st.ledger := by
  rw [Work.setLoad_eq]
  dsimp only
  split
  · rw [State.ledger_postAll]; rfl
  · rfl

@[simp] theorem Work.ledger_handOccupancy (w : Work) : w.handOccupancy.st.ledger = w.st.ledger := w.ledger_setLoad _

theorem Column.books_restamp (f : Nat → Nat) (k : Column) : (k.restamp f).books = k.books := by
  simp only [Column.books, Column.restamp, List.map_map, Option.map_map]
  rfl

theorem State.ledger_renumber (s : State) : s.renumber.ledger = s.ledger := by
  have columns (f : Nat → Nat) (t : State) :
      (ColIx.all.foldl (fun s c => s.modCol c (Column.restamp f)) t).ledger = t.ledger :=
    foldl_keeps State.ledger (fun s c => s.modCol c (Column.restamp f))
      (fun t c => State.ledger_modCol_same (Column.books_restamp f _)) ColIx.all t
  have records (f : Nat → Nat) (t : State) :
      (HNum.all.foldl (fun s h => s.modHand h (Handover.restamp f)) t).ledger = t.ledger :=
    foldl_keeps State.ledger (fun s h => s.modHand h (Handover.restamp f)) (fun t h => State.ledger_modHand_same fun x => by
      cases e : x.follower <;> simp [Handover.entry, Handover.restamp, e]) HNum.all t
  have stamped (t : State) (n : Nat) : (t.setStamp n).ledger = t.ledger := rfl
  unfold State.renumber
  dsimp only
  rw [stamped, records, columns]

@[simp] theorem State.ledger_advanceStamp (s : State) : s.advanceStamp.ledger = s.ledger := by
  unfold State.advanceStamp
  split
  · exact s.ledger_renumber
  · rfl

@[simp] theorem Work.ledger_raiseUrgency (w : Work) (h : HNum) (u : Nat) :
    (w.raiseUrgency h u).st.ledger = w.st.ledger := by
  unfold Work.raiseUrgency
  split
  · rfl
  next x hx =>
    split
    · dsimp only
      split <;> exact State.ledger_setHand_same hx rfl
    · rfl

@[simp] theorem Work.ledger_takeWarning (w : Work) (h : HNum) : (w.takeWarning h).st.ledger = w.st.ledger := by
  unfold Work.takeWarning
  split
  · rfl
  · rw [Work.up_st, State.ledger_post, Work.ledger_raiseUrgency]
    exact State.ledger_modHand_same fun _ => rfl

@[simp] theorem Work.ledger_judgeCharging (w : Work) (h : HNum) : (w.judgeCharging h).st.ledger = w.st.ledger := by
  unfold Work.judgeCharging
  split
  · rfl
  next x hx =>
    split
    · rfl
    · dsimp only
      split
      · split
        · rw [Work.ledger_takeWarning]
          exact State.ledger_setHand_same hx rfl
        · exact State.ledger_setHand_same hx rfl
      · exact State.ledger_setHand_same hx rfl
      · rfl

theorem Work.ledger_change {w : Work} {h : HNum} {x : Handover} (hx : w.st.hand h = some x) (f : Handover → Handover) :
    (w.change h f).st.ledger = w.st.ledger.setHand h (some (f x).entry) := by
  rw [Work.change, Work.ledger_judgeCharging]
  exact State.ledger_modHand hx f

@[simp] theorem State.ledger_grantNoticed (s : State) (p : Port) (c : ColIx) :
    (s.grantNoticed p c).ledger = s.ledger := by
  unfold State.grantNoticed
  split
  · rfl
  next g hg =>
    split
    · exact State.ledger_modCol_same (by simp [Column.books, hg])
    · rfl

/-! ### Columns and their claims -/

theorem insertClaim_perm (cl : Claim) (l : List Claim) : (insertClaim cl l).Perm (cl :: l) := by
  induction l with
  | nil => exact .refl _
  | cons x l ih =>
    unfold insertClaim
    split
    · exact .refl _
    · exact (ih.cons x).trans (.swap _ _ _)

theorem Work.ledger_join (w : Work) (c : ColIx) (cl : Claim) :
    (w.join c cl).st.ledger = w.st.ledger.modBook c fun b => { b with waits := cl.entry ::ₘ b.waits } :=
  State.ledger_modCol (by
    have same := (insertClaim_perm cl (w.st.col c).waitList).map Claim.entry
    simp [Column.books, Multiset.coe_eq_coe.2 same])

theorem Work.ledger_joinNew (w : Work) (c : ColIx) (rb : Robot) (k : ClaimKind) (h : HNum) :
    (w.joinNew c rb k h).st.ledger = w.st.ledger.modBook c fun b => { b with
      waits := { robot := rb, kind := k, handover := h, stamp := 0, blocked := false } ::ₘ b.waits } := by
  rw [Work.joinNew, Work.up_st, State.ledger_advanceStamp]
  exact Work.ledger_join ..

/-- Claims that an entry tells leave a wait list. -/
theorem Work.ledger_leave (w : Work) (c : ColIx) {p : Claim → Bool} {e : Claim → Bool}
    (h : ∀ cl ∈ (w.st.col c).waitList, p cl = e cl.entry) : (w.leave c p).st.ledger =
      w.st.ledger.modBook c fun b => { b with waits := b.waits.filter fun cl => e cl = false } := by
  rw [Work.leave_st]
  refine State.ledger_modCol ?_
  have same : (w.st.col c).waitList.filter (fun cl => !p cl) = (w.st.col c).waitList.filter fun cl => !e cl.entry :=
    List.filter_congr fun cl hcl => by rw [h cl hcl]
  simp [Column.books, same, List.filter_map, Function.comp_def]

theorem toFinset_insertHand (h : HNum) (l : List HNum) : (insertHand h l).toFinset = insert h l.toFinset := by
  ext i
  simp [insertHand_mem]

theorem State.ledger_joinInbound (s : State) (c : ColIx) (h : HNum) :
    (s.joinInbound c h).ledger = s.ledger.modBook c fun b => { b with inbound := insert h b.inbound } :=
  State.ledger_modCol (by simp [Column.books, toFinset_insertHand])

theorem toFinset_filter_ne (h : HNum) (l : List HNum) : (l.filter (· != h)).toFinset = l.toFinset.erase h := by
  ext i
  simp [and_comm]

theorem Work.ledger_leaveInbound (w : Work) (c : ColIx) (h : HNum) :
    (w.leaveInbound c h).st.ledger = w.st.ledger.modBook c fun b => { b with inbound := b.inbound.erase h } :=
  State.ledger_modCol (by simp only [Column.books, toFinset_filter_ne])

theorem State.ledger_land (s : State) (c : ColIx) (h : HNum) : (s.land c h).ledger =
    s.ledger.modBook c fun b => { b with inbound := b.inbound.erase h, stack := b.stack ++ [h] } :=
  State.ledger_modCol (by simp only [Column.books, toFinset_filter_ne])

theorem Work.ledger_liftTop (w : Work) (c : ColIx) : (w.liftTop c).st.ledger =
    w.st.ledger.modBook c fun b => { b with stack := b.stack.dropLast } :=
  State.ledger_modCol rfl

end Sys2Proof.Machine
end

