-- ==== Sys2Proof/Proofs/Account.lean ====
section
/-! The account in terms of the ledger (O57). A step passes through states in which the account holds but for one column
that is being fenced, or for one record whose grant has just ended; the account therefore takes both as exceptions. -/
namespace Sys2Proof.Machine

/-! ### How often a claim stands in the ledger -/

/-- Every claim of a column, waiting or granted. -/
def Books.claims (b : Books) : Multiset Claim :=
  b.waits + match b.grant with
    | some g => {g.claim}
    | none => 0

/-- How many claims of the part satisfy `p`. -/
def Ledger.count (L : Ledger) (p : Claim → Bool) : Nat := ∑ c, (L.book c).claims.countP (p · = true)

/-- A record has the robot as its follower. -/
def followedBy (rb : Robot) (x : Option Handover) : Bool := x.any fun x => x.follower.any fun f => f.robot == rb

/-- How many followers a robot is. -/
def Ledger.followersOf (L : Ledger) (rb : Robot) : Nat := ∑ h, if followedBy rb (L.hand h) = true then 1 else 0

theorem Ledger.count_modBook (L : Ledger) (c : ColIx) (f : Books → Books) (p : Claim → Bool) :
    (L.modBook c f).count p + (L.book c).claims.countP (p · = true) =
      L.count p + (f (L.book c)).claims.countP (p · = true) := by
  have others : ∑ d ∈ Finset.univ.erase c, ((L.modBook c f).book d).claims.countP (p · = true) =
      ∑ d ∈ Finset.univ.erase c, (L.book d).claims.countP (p · = true) :=
    Finset.sum_congr rfl fun d hd => by rw [Ledger.book_modBook, if_neg (Finset.ne_of_mem_erase hd)]
  have new := Finset.add_sum_erase Finset.univ (fun d => ((L.modBook c f).book d).claims.countP (p · = true))
    (Finset.mem_univ c)
  have old := Finset.add_sum_erase Finset.univ (fun d => (L.book d).claims.countP (p · = true)) (Finset.mem_univ c)
  simp only [Ledger.book_modBook, ite_true] at new others
  simp only [Ledger.count, Ledger.book_modBook]
  omega

@[simp] theorem Ledger.count_setHand (L : Ledger) (h : HNum) (x : Option Handover) (p : Claim → Bool) :
    (L.setHand h x).count p = L.count p := rfl

theorem Ledger.countP_le_count (L : Ledger) (c : ColIx) (p : Claim → Bool) :
    (L.book c).claims.countP (p · = true) ≤ L.count p :=
  Finset.single_le_sum (f := fun d => (L.book d).claims.countP (p · = true)) (fun _ _ => Nat.zero_le _)
    (Finset.mem_univ c)

theorem Ledger.count_eq_zero {L : Ledger} {p : Claim → Bool} :
    L.count p = 0 ↔ ∀ c, ∀ cl ∈ (L.book c).claims, p cl = false := by
  simp [Ledger.count, Multiset.countP_eq_zero]

theorem Ledger.count_mono (L : Ledger) {p r : Claim → Bool} (h : ∀ cl, p cl = true → r cl = true) :
    L.count p ≤ L.count r :=
  Finset.sum_le_sum fun c _ => by
    rw [Multiset.countP_eq_card_filter, Multiset.countP_eq_card_filter]
    exact Multiset.card_le_card (Multiset.monotone_filter_right _ h)

theorem Ledger.followersOf_setHand (L : Ledger) (h : HNum) (x : Option Handover) (rb : Robot) :
    (L.setHand h x).followersOf rb + (if followedBy rb (L.hand h) = true then 1 else 0) =
      L.followersOf rb + if followedBy rb x = true then 1 else 0 := by
  have others : ∑ i ∈ Finset.univ.erase h, (if followedBy rb ((L.setHand h x).hand i) = true then 1 else 0) =
      ∑ i ∈ Finset.univ.erase h, if followedBy rb (L.hand i) = true then 1 else 0 :=
    Finset.sum_congr rfl fun i hi => by rw [Ledger.hand_setHand, if_neg (Finset.ne_of_mem_erase hi)]
  have new := Finset.add_sum_erase Finset.univ
    (fun i => if followedBy rb ((L.setHand h x).hand i) = true then 1 else 0) (Finset.mem_univ h)
  have old := Finset.add_sum_erase Finset.univ (fun i => if followedBy rb (L.hand i) = true then 1 else 0)
    (Finset.mem_univ h)
  simp only [Ledger.hand_setHand, ite_true] at new others
  simp only [Ledger.followersOf, Ledger.hand_setHand]
  omega

@[simp] theorem Ledger.followersOf_modBook (L : Ledger) (c : ColIx) (f : Books → Books) (rb : Robot) :
    (L.modBook c f).followersOf rb = L.followersOf rb := rfl

/-! ### The account -/

/-- The record stands in the stack of the column (R17). -/
def Handover.standsIn (x : Handover) (c : ColIx) : Prop := x.stacked = true ∧ x.column = some c

/-- The record stands in the inbound set of the column (R17). -/
def Handover.inboundTo (x : Handover) (c : ColIx) : Prop :=
  x.awaited = true ∧ x.column = some c ∨ x.shifted = true ∧ x.target = some c

/-- The records of a grant are as its operation requires (R77). -/
structure Ledger.Backs (L : Ledger) (c : ColIx) (g : Grant) : Prop where
  record : ∃ x ∈ L.hand g.record, x.column = some c ∧ g.suits x = true
  top : g.claim.kind = .lift → (L.book c).stack.getLast? = some g.record
  claimed : g.record ≠ g.claim.handover → ∃ y ∈ L.hand g.claim.handover, y.column = some c ∧ y.state = .stored

/-- A robot may have one claim that `q` holds of, or be one follower. A column that `fencing` holds of is being fenced,
and its wait list and inbound set are not judged; a record that `loose` holds of is not asked for its grant. -/
structure Ledger.Ok (q : Claim → Bool) (fencing : ColIx → Prop) (loose : HNum → Prop) (L : Ledger) : Prop where
  fits : ∀ h, ∀ x ∈ L.hand h, x.Fits
  once : ∀ c, (L.book c).stack.Nodup
  stack : ∀ c h, h ∈ (L.book c).stack ↔ ∃ x ∈ L.hand h, x.standsIn c
  inbound : ∀ c h, h ∈ (L.book c).inbound ↔ ∃ x ∈ L.hand h, x.inboundTo c
  bins : ∀ h i, ∀ x ∈ L.hand h, ∀ y ∈ L.hand i, x.state ≠ .closing → y.state ≠ .closing → x.bin = y.bin → h = i
  room : ∀ c, (L.book c).stack.length + (L.book c).inbound.card ≤ (L.book c).depth
  waits : ∀ c, (L.book c).waits.card ≤ 6
  regions : ∀ c, (L.book c).waits.countP (Claim.isRegion · = true) ≤ 4
  empty : ∀ c, (L.book c).state = .unknown ∨ (L.book c).state = .disabled →
    (L.book c).stack = [] ∧ (L.book c).inbound = ∅ ∧ (L.book c).waits = 0
  fencedWaits : ∀ c, ¬ fencing c → (L.book c).state = .fenced → (L.book c).waits = 0
  fencedInbound : ∀ c, ¬ fencing c → (L.book c).state = .fenced → ∀ h ∈ (L.book c).inbound, ∀ x ∈ L.hand h,
    x.state = .doubt
  granting : ∀ c, (L.book c).grant.isSome = true → (L.book c).state = .granted
  doubt : ∀ h, ∀ x ∈ L.hand h, x.state = .doubt → ∀ c ∈ x.column, (L.book c).state = .fenced ∧
    (x.stacked = true → (L.book c).stack.getLast? = some h) ∧
    ∀ i, ∀ y ∈ L.hand i, y.state = .doubt → y.column = some c → i = h
  waiting : ∀ c, ∀ cl ∈ (L.book c).waits, ∃ x ∈ L.hand cl.handover, x.column = some c ∧ cl.suits x = true
  grant : ∀ c, ∀ g ∈ (L.book c).grant, L.Backs c g
  granted : ∀ h, ¬ loose h → ∀ x ∈ L.hand h, x.state = .landing ∨ x.state = .lifting ∨ x.state = .shifting →
    ∃ c, x.column = some c ∧ ∃ g ∈ (L.book c).grant, g.record = h
  record : ∀ h, L.count (fun cl => cl.handover == h) ≤ 1
  robots : ∀ rb, L.count (fun cl => q cl && cl.robot == rb) + L.followersOf rb ≤ 1

/-- No column is being fenced. -/
def noColumn : ColIx → Prop := fun _ => False

/-- No record has lost its grant. -/
def noRecord : HNum → Prop := fun _ => False

/-! ### The account of a state is that of its ledger -/

theorem ColIx.all_eq : ColIx.all = List.finRange 8 := by decide
theorem HNum.all_eq : HNum.all = List.finRange 32 := by decide

theorem Column.claims_entry (k : Column) : k.books.claims = ((k.claims.map Claim.entry : List Claim) : Multiset Claim) := by
  unfold Books.claims Column.claims Column.grantClaim Column.books
  cases k.grant with
  | none => simp
  | some g =>
    rw [List.map_append]
    exact Multiset.coe_add _ [g.claim.entry]

/-- How many members of a list satisfy `p`, as a sum. -/
theorem sum_map_ite_eq_countP {α : Type} (p : α → Bool) (l : List α) :
    (l.map fun a => if p a = true then 1 else 0).sum = l.countP p := by
  induction l with
  | nil => rfl
  | cons a l ih => rw [List.map_cons, List.sum_cons, ih, List.countP_cons, Nat.add_comm]

theorem State.count_ledger (s : State) {p : Claim → Bool} (hp : ∀ cl, p cl.entry = p cl) :
    s.ledger.count p = (s.allClaims.filter p).length := by
  have same (c : ColIx) : (s.ledger.book c).claims.countP (p · = true) = ((s.col c).claims.filter p).length := by
    show (s.col c).books.claims.countP (p · = true) = _
    rw [Column.claims_entry, Multiset.coe_countP, List.countP_map, ← List.countP_eq_length_filter]
    exact List.countP_congr fun cl _ => by simp [hp]
  rw [State.allClaims, ColIx.all_eq, List.filter_flatMap, List.length_flatMap, Ledger.count, Fin.sum_univ_def]
  simp only [same]

theorem State.followersOf_ledger (s : State) (rb : Robot) : s.ledger.followersOf rb = s.followersOf rb := by
  have same (h : HNum) : followedBy rb (s.ledger.hand h) = (s.hand h).any fun x => x.follower.any fun f => f.robot == rb := by
    unfold followedBy State.ledger
    cases e : s.hand h <;> simp [e]
  rw [State.followersOf, HNum.all_eq, ← List.countP_eq_length_filter, Ledger.followersOf]
  simp only [same]
  rw [Fin.sum_univ_def, sum_map_ite_eq_countP]

end Sys2Proof.Machine
end

