-- ==== Sys2Proof/Proofs/AccountOfState.lean ====
section
/-! The account of a state and the account of its ledger say the same (O57). -/
namespace Sys2Proof.Machine

variable {s : State}

theorem State.forall_entry {h : HNum} {p : Handover → Prop} :
    (∀ y ∈ s.ledger.hand h, p y) ↔ ∀ x ∈ s.hand h, p x.entry := by
  simp [State.ledger]

theorem State.exists_entry {h : HNum} {p : Handover → Prop} :
    (∃ y ∈ s.ledger.hand h, p y) ↔ ∃ x ∈ s.hand h, p x.entry := by
  simp [State.ledger]

theorem State.forall_wait {c : ColIx} {p : Claim → Prop} :
    (∀ cl ∈ (s.ledger.book c).waits, p cl) ↔ ∀ cl ∈ (s.col c).waitList, p cl.entry := by
  simp [State.ledger, Column.books]

theorem State.forall_grant {c : ColIx} {p : Grant → Prop} :
    (∀ g ∈ (s.ledger.book c).grant, p g) ↔ ∀ g ∈ (s.col c).grant, p g.entry := by
  simp [State.ledger, Column.books]

theorem State.exists_grant {c : ColIx} {p : Grant → Prop} :
    (∃ g ∈ (s.ledger.book c).grant, p g) ↔ ∃ g ∈ (s.col c).grant, p g.entry := by
  simp [State.ledger, Column.books]

theorem State.mem_ledger_inbound {c : ColIx} {h : HNum} : h ∈ (s.ledger.book c).inbound ↔ h ∈ (s.col c).inbound :=
  List.mem_toFinset

theorem State.ledger_waits_card (c : ColIx) : (s.ledger.book c).waits.card = (s.col c).waitList.length := by
  simp [State.ledger, Column.books]

theorem State.ledger_regions (c : ColIx) : (s.ledger.book c).waits.countP (Claim.isRegion · = true) =
    ((s.col c).waitList.filter Claim.isRegion).length := by
  show Multiset.countP _ ((((s.col c).waitList.map Claim.entry : List Claim)) : Multiset Claim) = _
  rw [Multiset.coe_countP, List.countP_map, ← List.countP_eq_length_filter]
  exact List.countP_congr fun cl _ => by simp

theorem State.ledger_waits_eq_zero {c : ColIx} : (s.ledger.book c).waits = 0 ↔ (s.col c).waitList = [] := by
  simp [State.ledger, Column.books]

theorem State.backs_iff {c : ColIx} {g : Grant} : s.ledger.Backs c g.entry ↔
    (∃ x ∈ s.hand g.record, x.column = some c ∧ g.suits x = true) ∧
      (g.claim.kind = .lift → (s.col c).stack.getLast? = some g.record) ∧
      (g.record ≠ g.claim.handover → ∃ y ∈ s.hand g.claim.handover, y.column = some c ∧ y.state = .stored) := by
  constructor
  · rintro ⟨record, top, claimed⟩
    exact ⟨State.exists_entry.1 record, top, fun ne => State.exists_entry.1 (claimed ne)⟩
  · rintro ⟨record, top, claimed⟩
    exact ⟨State.exists_entry.2 record, top, fun ne => State.exists_entry.2 (claimed ne)⟩

/-- The account of a state, with what is asked of its robots, is the account of its ledger. -/
theorem State.Accounted.ok (ha : s.Accounted) {q : Claim → Bool} (hq : ∀ cl : Claim, q cl.entry = q cl)
    (once : ∀ rb, (s.allClaims.filter fun cl => q cl && cl.robot == rb).length + s.followersOf rb ≤ 1) :
    s.ledger.Ok q noColumn noRecord := by
  obtain ⟨controlled, ordered, ⟨fits, nodup, stack, inbound, bins⟩, ⟨room, waits, empty, fenced, doubt⟩,
    ⟨waiting, grant, granted, record, -⟩⟩ := ha
  constructor
  case fits => exact fun h => State.forall_entry.2 fun x hx => x.fits_entry.2 (fits h x hx)
  case once => exact nodup
  case stack => exact fun c h => (stack c h).trans (State.exists_entry (p := fun x => x.standsIn c)).symm
  case inbound => exact fun c h => State.mem_ledger_inbound.trans ((inbound c h).trans (State.exists_entry (p := fun x => x.inboundTo c)).symm)
  case bins =>
    exact fun h i => State.forall_entry.2 fun x hx => State.forall_entry.2 fun y hy => bins h i x hx y hy
  case room =>
    exact fun c => (Nat.add_le_add_left (List.toFinset_card_le _) _).trans (room c)
  case waits => exact fun c => by rw [State.ledger_waits_card]; exact (waits c).1
  case regions => exact fun c => by rw [State.ledger_regions]; exact (waits c).2
  case empty =>
    intro c hc
    obtain ⟨hs, hi, hw⟩ := empty c hc
    exact ⟨hs, by simp [State.ledger, Column.books, hi], State.ledger_waits_eq_zero.2 hw⟩
  case fencedWaits => exact fun c _ hc => State.ledger_waits_eq_zero.2 (fenced c hc).1
  case fencedInbound =>
    exact fun c _ hc h hh => State.forall_entry.2 ((fenced c hc).2 h (State.mem_ledger_inbound.1 hh))
  case granting => exact fun c hc => (controlled c).grant.1 (by rwa [← Option.isSome_map (f := Grant.entry)])
  case doubt =>
    refine fun h => State.forall_entry.2 fun x hx hd c hc => ?_
    obtain ⟨hf, ht, alone⟩ := doubt h x hx hd c hc
    exact ⟨hf, ht, fun i => State.forall_entry.2 (alone i)⟩
  case waiting =>
    exact fun c => State.forall_wait.2 fun cl hcl => State.exists_entry.2 (waiting c cl hcl)
  case grant => exact fun c => State.forall_grant.2 fun g hg => State.backs_iff.2 (grant c g hg)
  case granted =>
    refine fun h _ => State.forall_entry.2 fun x hx hs => ?_
    obtain ⟨c, hc, g, hg, e⟩ := granted h x hx hs
    exact ⟨c, hc, State.exists_grant.2 ⟨g, hg, e⟩⟩
  case record => exact fun h => by rw [State.count_ledger s fun _ => rfl]; exact record h
  case robots =>
    exact fun rb => by rw [State.count_ledger s fun cl => by simp [hq], State.followersOf_ledger]; exact once rb

theorem State.Accounted.ok_region (ha : s.Accounted) : s.ledger.Ok Claim.isRegion noColumn noRecord :=
  ha.ok (fun _ => rfl) ha.claims.region

theorem State.RobotsClaimOnce.ok (once : s.RobotsClaimOnce) (ha : s.Accounted) :
    s.ledger.Ok (fun _ => true) noColumn noRecord :=
  ha.ok (fun _ => rfl) (fun rb => by simpa using once rb)

theorem State.robotsClaimOnce_of_ok (ok : s.ledger.Ok (fun _ => true) noColumn noRecord) : s.RobotsClaimOnce := by
  intro rb
  have once := ok.robots rb
  rw [State.count_ledger s fun _ => rfl, State.followersOf_ledger] at once
  simpa using once

theorem State.accounted_of_ok (controlled : s.ColumnsControlled) (ordered : s.ColumnsOrdered)
    (ok : s.ledger.Ok Claim.isRegion noColumn noRecord) : s.Accounted where
  controlled := controlled
  ordered := ordered
  records := {
    fits := fun h x hx => x.fits_entry.1 (State.forall_entry.1 (ok.fits h) x hx)
    once := ok.once
    stack := fun c h => (ok.stack c h).trans State.exists_entry
    inbound := fun c h => State.mem_ledger_inbound.symm.trans ((ok.inbound c h).trans State.exists_entry)
    bins := fun h i x hx => State.forall_entry.1 (State.forall_entry.1 (ok.bins h i) x hx) }
  columns := {
    room := fun c => by
      have card : (s.ledger.book c).inbound.card = (s.col c).inbound.length :=
        List.toFinset_card_of_nodup ((ordered c).inbound.imp fun h => ne_of_lt h)
      have room := ok.room c
      rwa [card] at room
    waits := fun c => ⟨by simpa only [State.ledger_waits_card] using ok.waits c,
      by simpa only [State.ledger_regions] using ok.regions c⟩
    empty := fun c hc => by
      obtain ⟨hs, hi, hw⟩ := ok.empty c hc
      exact ⟨hs, List.toFinset_eq_empty_iff _ |>.1 hi, State.ledger_waits_eq_zero.1 hw⟩
    fenced := fun c hc => ⟨State.ledger_waits_eq_zero.1 (ok.fencedWaits c id hc), fun h hh =>
      State.forall_entry.1 (ok.fencedInbound c id hc h (State.mem_ledger_inbound.2 hh))⟩
    doubt := fun h x hx hd c hc => by
      obtain ⟨hf, ht, alone⟩ := State.forall_entry.1 (ok.doubt h) x hx hd c hc
      exact ⟨hf, ht, fun i => State.forall_entry.1 (alone i)⟩ }
  claims := {
    waiting := fun c cl hcl => State.exists_entry.1 (State.forall_wait.1 (ok.waiting c) cl hcl)
    grant := fun c g hg => State.backs_iff.1 (State.forall_grant.1 (ok.grant c) g hg)
    granted := fun h x hx hs => by
      obtain ⟨c, hc, hg⟩ := State.forall_entry.1 (ok.granted h id) x hx hs
      exact ⟨c, hc, State.exists_grant.1 hg⟩
    record := fun h => by
      have once := ok.record h
      rwa [State.count_ledger s fun _ => rfl] at once
    region := fun rb => by
      have once := ok.robots rb
      rwa [State.count_ledger s fun _ => rfl, State.followersOf_ledger] at once }

end Sys2Proof.Machine
end

