-- ==== Sys2Proof/Proofs/AccountOfColumns.lean ====
section
/-! Changes of a column's wait list, grant, state and configuration, and what each needs to keep the account (O57). -/
namespace Sys2Proof.Machine

variable {q : Claim → Bool} {fencing : ColIx → Prop} {loose : HNum → Prop} {L : Ledger}

/-- The ledger with other wait lists. -/
def Ledger.withWaits (L : Ledger) (w : ColIx → Multiset Claim) : Ledger :=
  { L with book := fun d => { L.book d with waits := w d } }

theorem Ledger.modBook_waits (L : Ledger) (c : ColIx) (f : Multiset Claim → Multiset Claim) :
    (L.modBook c fun b => { b with waits := f b.waits }) =
      L.withWaits fun d => if d = c then f (L.book d).waits else (L.book d).waits := by
  ext1
  · rfl
  · funext d
    simp only [Ledger.book_modBook, Ledger.withWaits]
    split <;> rfl

theorem Ledger.count_join (L : Ledger) (c : ColIx) (cl : Claim) (p : Claim → Bool) :
    (L.modBook c fun b => { b with waits := cl ::ₘ b.waits }).count p = L.count p + if p cl = true then 1 else 0 := by
  have sum := L.count_modBook c (fun b => { b with waits := cl ::ₘ b.waits }) p
  have part : (Books.claims { L.book c with waits := cl ::ₘ (L.book c).waits }).countP (p · = true) =
      (L.book c).claims.countP (p · = true) + if p cl = true then 1 else 0 := by
    unfold Books.claims
    rw [Multiset.cons_add, Multiset.countP_cons]
  dsimp only at sum part
  omega

/-- The ledger with other grants. -/
def Ledger.withGrants (L : Ledger) (γ : ColIx → Option Grant) : Ledger :=
  { L with book := fun d => { L.book d with grant := γ d } }

theorem Ledger.modBook_grant (L : Ledger) (c : ColIx) (g : Option Grant) :
    (L.modBook c fun b => { b with grant := g }) = L.withGrants fun d => if d = c then g else (L.book d).grant := by
  ext1
  · rfl
  · funext d
    simp only [Ledger.book_modBook, Ledger.withGrants]
    split <;> rfl

theorem Ledger.count_ungrant {L : Ledger} {c : ColIx} {g : Grant} (hg : (L.book c).grant = some g) (p : Claim → Bool) :
    (L.modBook c fun b => { b with grant := none }).count p + (if p g.claim = true then 1 else 0) = L.count p := by
  have sum := L.count_modBook c (fun b => { b with grant := none }) p
  have old : (L.book c).claims.countP (p · = true) =
      (L.book c).waits.countP (p · = true) + if p g.claim = true then 1 else 0 := by
    simp only [Books.claims, hg, Multiset.countP_add, ← Multiset.cons_zero, Multiset.countP_cons, Multiset.countP_zero, zero_add]
  have new : (Books.claims { L.book c with grant := none }).countP (p · = true) = (L.book c).waits.countP (p · = true) := by
    simp only [Books.claims, add_zero]
  dsimp only at sum new
  omega

theorem Ledger.count_grant {L : Ledger} {c : ColIx} (free : (L.book c).grant = none) (g : Grant) (p : Claim → Bool) :
    (L.modBook c fun b => { b with grant := some g }).count p = L.count p + if p g.claim = true then 1 else 0 := by
  have sum := L.count_modBook c (fun b => { b with grant := some g }) p
  have old : (L.book c).claims.countP (p · = true) = (L.book c).waits.countP (p · = true) := by
    simp only [Books.claims, free, add_zero]
  have new : (Books.claims { L.book c with grant := some g }).countP (p · = true) =
      (L.book c).waits.countP (p · = true) + if p g.claim = true then 1 else 0 := by
    simp only [Books.claims, Multiset.countP_add, ← Multiset.cons_zero, Multiset.countP_cons, Multiset.countP_zero, zero_add]
  dsimp only at sum new
  omega

/-- The ledger with other column states. -/
def Ledger.withStates (L : Ledger) (σ : ColIx → ColState) : Ledger :=
  { L with book := fun d => { L.book d with state := σ d } }

theorem Ledger.modBook_state (L : Ledger) (c : ColIx) (st : ColState) :
    (L.modBook c fun b => { b with state := st }) = L.withStates fun d => if d = c then st else (L.book d).state := by
  ext1
  · rfl
  · funext d
    simp only [Ledger.book_modBook, Ledger.withStates]
    split <;> rfl

/-- The ledger with other depths. -/
def Ledger.withDepths (L : Ledger) (δ : ColIx → Nat) : Ledger :=
  { L with book := fun d => { L.book d with depth := δ d } }

theorem Ledger.modBook_depth (L : Ledger) (c : ColIx) (n : Nat) :
    (L.modBook c fun b => { b with depth := n }) = L.withDepths fun d => if d = c then n else (L.book d).depth := by
  ext1
  · rfl
  · funext d
    simp only [Ledger.book_modBook, Ledger.withDepths]
    split <;> rfl

namespace Ledger.Ok

/-- More exceptions ask for less. -/
theorem weaken (ok : L.Ok q fencing loose) {fencing' : ColIx → Prop} {loose' : HNum → Prop}
    (hf : ∀ c, fencing c → fencing' c) (hl : ∀ h, loose h → loose' h) : L.Ok q fencing' loose' :=
  { ok with
    fencedWaits := fun c hc => ok.fencedWaits c (hc ∘ hf c)
    fencedInbound := fun c hc => ok.fencedInbound c (hc ∘ hf c)
    granted := fun h hh => ok.granted h (hh ∘ hl h) }

/-! ### Where a record stands -/

theorem mem_stack (ok : L.Ok q fencing loose) {h : HNum} {x : Handover} (hx : L.hand h = some x) {c : ColIx} :
    h ∈ (L.book c).stack ↔ x.standsIn c := by simp [ok.stack c h, hx]

theorem mem_inbound (ok : L.Ok q fencing loose) {h : HNum} {x : Handover} (hx : L.hand h = some x) {c : ColIx} :
    h ∈ (L.book c).inbound ↔ x.inboundTo c := by simp [ok.inbound c h, hx]

theorem not_mem_stack_of_free (ok : L.Ok q fencing loose) {h : HNum} (hx : L.hand h = none) (c : ColIx) :
    h ∉ (L.book c).stack := by simp [ok.stack c h, hx]

theorem not_mem_inbound_of_free (ok : L.Ok q fencing loose) {h : HNum} (hx : L.hand h = none) (c : ColIx) :
    h ∉ (L.book c).inbound := by simp [ok.inbound c h, hx]

/-! ### Wait lists -/

/-- What the account asks of the wait lists. -/
theorem withWaits (ok : L.Ok q fencing loose) {w : ColIx → Multiset Claim} (room : ∀ d, (w d).card ≤ 6)
    (regions : ∀ d, (w d).countP (Claim.isRegion · = true) ≤ 4)
    (empty : ∀ d, (L.book d).state = .unknown ∨ (L.book d).state = .disabled → w d = 0)
    (fenced : ∀ d, ¬ fencing d → (L.book d).state = .fenced → w d = 0)
    (waiting : ∀ d, ∀ cl ∈ w d, ∃ x ∈ L.hand cl.handover, x.column = some d ∧ cl.suits x = true)
    (record : ∀ h, (L.withWaits w).count (fun cl => cl.handover == h) ≤ 1)
    (robots : ∀ rb, (L.withWaits w).count (fun cl => q cl && cl.robot == rb) + L.followersOf rb ≤ 1) :
    (L.withWaits w).Ok q fencing loose where
  fits := ok.fits
  once := ok.once
  stack := ok.stack
  inbound := ok.inbound
  bins := ok.bins
  room := ok.room
  waits := room
  regions := regions
  empty d hd := ⟨(ok.empty d hd).1, (ok.empty d hd).2.1, empty d hd⟩
  fencedWaits := fenced
  fencedInbound := ok.fencedInbound
  granting := ok.granting
  doubt := ok.doubt
  waiting := waiting
  grant d g hg := ⟨(ok.grant d g hg).record, (ok.grant d g hg).top, (ok.grant d g hg).claimed⟩
  granted := ok.granted
  record := record
  robots := robots

/-- Claims leave a wait list. -/
theorem shed (ok : L.Ok q fencing loose) (c : ColIx) {f : Multiset Claim → Multiset Claim} (hf : ∀ m, f m ≤ m) :
    (L.modBook c fun b => { b with waits := f b.waits }).Ok q fencing loose := by
  have count (p : Claim → Bool) : (L.modBook c fun b => { b with waits := f b.waits }).count p ≤ L.count p := by
    have sum := L.count_modBook c (fun b => { b with waits := f b.waits }) p
    have part := Multiset.countP_le_of_le (p · = true) (add_le_add_left (hf (L.book c).waits)
      (match (L.book c).grant with | some g => {g.claim} | none => 0))
    have same : (L.book c).claims.countP (p · = true) = Multiset.countP (p · = true) ((L.book c).waits +
      match (L.book c).grant with | some g => {g.claim} | none => 0) := rfl
    exact Nat.le_of_add_le_add_right (sum.trans_le (Nat.add_le_add_left part _))
  have fewer (d : ColIx) : (if d = c then f (L.book d).waits else (L.book d).waits) ≤ (L.book d).waits := by
    split
    · exact hf _
    · exact le_refl _
  rw [Ledger.modBook_waits] at count ⊢
  refine ok.withWaits (fun d => (Multiset.card_le_card (fewer d)).trans (ok.waits d))
    (fun d => (Multiset.countP_le_of_le _ (fewer d)).trans (ok.regions d))
    (fun d hd => Multiset.le_zero.1 ((ok.empty d hd).2.2 ▸ fewer d))
    (fun d hd hs => Multiset.le_zero.1 (ok.fencedWaits d hd hs ▸ fewer d))
    (fun d cl hcl => ok.waiting d cl (Multiset.mem_of_le (fewer d) hcl))
    (fun h => (count _).trans (ok.record h))
    (fun rb => (Nat.add_le_add_right (count _) _).trans (ok.robots rb))

/-- A claim joins a wait list that has room for it. -/
theorem join (ok : L.Ok q fencing loose) {c : ColIx} {cl : Claim} (room : (L.book c).waits.card < 6)
    (region : cl.isRegion = true → (L.book c).waits.countP (Claim.isRegion · = true) < 4)
    (state : (L.book c).state ≠ .unknown ∧ (L.book c).state ≠ .disabled)
    (fenced : (L.book c).state = .fenced → fencing c)
    (suits : ∃ x ∈ L.hand cl.handover, x.column = some c ∧ cl.suits x = true)
    (record : L.count (fun d => d.handover == cl.handover) = 0)
    (robot : q cl = true → L.count (fun d => q d && d.robot == cl.robot) + L.followersOf cl.robot = 0) :
    (L.modBook c fun b => { b with waits := cl ::ₘ b.waits }).Ok q fencing loose := by
  have count := L.count_join c cl
  rw [Ledger.modBook_waits] at count ⊢
  refine ok.withWaits (fun d => ?_) (fun d => ?_) (fun d hd => ?_) (fun d hd hs => ?_) (fun d => ?_) (fun h => ?_)
    (fun rb => ?_)
  · split
    next e => subst e; rw [Multiset.card_cons]; exact room
    next => exact ok.waits d
  · split
    next e =>
      subst e
      rw [Multiset.countP_cons]
      split
      next hr => exact region hr
      next => exact ok.regions d
    next => exact ok.regions d
  · rw [if_neg (by rintro rfl; exact hd.elim state.1 state.2)]
    exact (ok.empty d hd).2.2
  · rw [if_neg (by rintro rfl; exact hd (fenced hs))]
    exact ok.fencedWaits d hd hs
  · split
    next e =>
      subst e
      intro x hx
      rcases Multiset.mem_cons.1 hx with rfl | hx
      · exact suits
      · exact ok.waiting d x hx
    next => exact ok.waiting d
  · rw [count]
    split
    next e => rw [← beq_iff_eq.1 e, record]
    next => exact ok.record h
  · rw [count]
    split
    next e =>
      simp only [Bool.and_eq_true, beq_iff_eq] at e
      have free := robot e.1
      rw [e.2] at free
      omega
    next => exact ok.robots rb

/-! ### Grants -/

/-- What the account asks of the grants. -/
theorem withGrants (ok : L.Ok q fencing loose) {γ : ColIx → Option Grant} {loose' : HNum → Prop}
    (granting : ∀ d, (γ d).isSome = true → (L.book d).state = .granted) (grant : ∀ d, ∀ g ∈ γ d, L.Backs d g)
    (granted : ∀ h, ¬ loose' h → ∀ x ∈ L.hand h, x.state = .landing ∨ x.state = .lifting ∨ x.state = .shifting →
      ∃ c, x.column = some c ∧ ∃ g ∈ γ c, g.record = h)
    (record : ∀ h, (L.withGrants γ).count (fun cl => cl.handover == h) ≤ 1)
    (robots : ∀ rb, (L.withGrants γ).count (fun cl => q cl && cl.robot == rb) + L.followersOf rb ≤ 1) :
    (L.withGrants γ).Ok q fencing loose' where
  fits := ok.fits
  once := ok.once
  stack := ok.stack
  inbound := ok.inbound
  bins := ok.bins
  room := ok.room
  waits := ok.waits
  regions := ok.regions
  empty := ok.empty
  fencedWaits := ok.fencedWaits
  fencedInbound := ok.fencedInbound
  granting := granting
  doubt := ok.doubt
  waiting := ok.waiting
  grant d g hg := ⟨(grant d g hg).record, (grant d g hg).top, (grant d g hg).claimed⟩
  granted := granted
  record := record
  robots := robots

/-- A grant ends, and its record is not asked for it. -/
theorem ungrant (ok : L.Ok q fencing loose) {c : ColIx} {g : Grant} (hg : (L.book c).grant = some g) :
    (L.modBook c fun b => { b with grant := none }).Ok q fencing fun i => loose i ∨ i = g.record := by
  have count (p : Claim → Bool) : (L.modBook c fun b => { b with grant := none }).count p ≤ L.count p :=
    Nat.le_of_add_right_le (Ledger.count_ungrant hg p).le
  rw [Ledger.modBook_grant] at count ⊢
  refine ok.withGrants (fun d hd => ?_) (fun d g' hg' => ?_) (fun h hh x hx hs => ?_)
    (fun h => (count _).trans (ok.record h)) (fun rb => (Nat.add_le_add_right (count _) _).trans (ok.robots rb))
  · split at hd
    · cases hd
    · exact ok.granting d hd
  · split at hg'
    · cases hg'
    · exact ok.grant d g' hg'
  · obtain ⟨d, hd, g', hg', e⟩ := ok.granted h (fun hl => hh (.inl hl)) x hx hs
    refine ⟨d, hd, g', ?_, e⟩
    rw [if_neg]
    · exact hg'
    · rintro rfl
      rw [hg, Option.mem_some_iff] at hg'
      exact hh (.inr (hg' ▸ e.symm))

/-- A column without a grant is granted to a claim that waits nowhere. -/
theorem giveGrant (ok : L.Ok q fencing loose) {c : ColIx} {g : Grant} (free : (L.book c).grant = none)
    (state : (L.book c).state = .granted) (backs : L.Backs c g) (record : L.count (fun cl => cl.handover == g.claim.handover) = 0)
    (robot : q g.claim = true → L.count (fun cl => q cl && cl.robot == g.claim.robot) + L.followersOf g.claim.robot = 0) :
    (L.modBook c fun b => { b with grant := some g }).Ok q fencing fun i => loose i ∧ i ≠ g.record := by
  have count := Ledger.count_grant free g
  rw [Ledger.modBook_grant] at count ⊢
  refine ok.withGrants (fun d hd => ?_) (fun d g' hg' => ?_) (fun h hh x hx hs => ?_) (fun h => ?_) fun rb => ?_
  · split at hd
    next e => subst e; exact state
    next => exact ok.granting d hd
  · split at hg'
    next e =>
      subst e
      obtain rfl : g = g' := by simpa using hg'
      exact backs
    next => exact ok.grant d g' hg'
  · by_cases e : h = g.record
    · subst e
      obtain ⟨y, hy, hc, -⟩ := backs.record
      obtain rfl : x = y := Option.mem_unique hx hy
      exact ⟨c, hc, g, by simp, rfl⟩
    · obtain ⟨d, hd, g', hg', eq⟩ := ok.granted h (fun hl => hh ⟨hl, e⟩) x hx hs
      refine ⟨d, hd, g', ?_, eq⟩
      rw [if_neg]
      · exact hg'
      · rintro rfl
        rw [free] at hg'
        cases hg'
  · rw [count]
    split
    next e => rw [← beq_iff_eq.1 e, record]
    next => exact ok.record h
  · rw [count]
    split
    next e =>
      simp only [Bool.and_eq_true, beq_iff_eq] at e
      have free := robot e.1
      rw [e.2] at free
      omega
    next => exact ok.robots rb

/-! ### States and depths -/

/-- A column takes another state. -/
theorem turn (ok : L.Ok q fencing loose) {c : ColIx} {st : ColState} {fencing' : ColIx → Prop}
    (others : ∀ d, d ≠ c → fencing d → fencing' d)
    (empty : st = .unknown ∨ st = .disabled → (L.book c).stack = [] ∧ (L.book c).inbound = ∅ ∧ (L.book c).waits = 0)
    (fenced : st = .fenced → ¬ fencing' c → (L.book c).waits = 0 ∧
      ∀ h ∈ (L.book c).inbound, ∀ x ∈ L.hand h, x.state = .doubt)
    (doubt : st ≠ .fenced → ∀ h, ∀ x ∈ L.hand h, x.state = .doubt → x.column ≠ some c)
    (free : (L.book c).grant = none) :
    (L.modBook c fun b => { b with state := st }).Ok q fencing' loose := by
  rw [Ledger.modBook_state]
  constructor
  case fits => exact ok.fits
  case once => exact ok.once
  case stack => exact ok.stack
  case inbound => exact ok.inbound
  case bins => exact ok.bins
  case room => exact ok.room
  case waits => exact ok.waits
  case regions => exact ok.regions
  case empty =>
    intro d hd
    dsimp only [Ledger.withStates] at hd ⊢
    split at hd
    next e => subst e; exact empty hd
    next => exact ok.empty d hd
  case fencedWaits =>
    intro d hf hd
    dsimp only [Ledger.withStates] at hd ⊢
    split at hd
    next e => subst e; exact (fenced hd hf).1
    next e => exact ok.fencedWaits d (fun h => hf (others d e h)) hd
  case fencedInbound =>
    intro d hf hd
    dsimp only [Ledger.withStates] at hd ⊢
    split at hd
    next e => subst e; exact (fenced hd hf).2
    next e => exact ok.fencedInbound d (fun h => hf (others d e h)) hd
  case granting =>
    intro d hd
    dsimp only [Ledger.withStates] at hd ⊢
    split
    next e => subst e; rw [free] at hd; cases hd
    next => exact ok.granting d hd
  case doubt =>
    intro h x hx hs d hd
    obtain ⟨state, top, alone⟩ := ok.doubt h x hx hs d hd
    refine ⟨?_, top, alone⟩
    dsimp only [Ledger.withStates]
    split
    next e =>
      subst e
      by_contra ne
      exact doubt ne h x hx hs hd
    next => exact state
  case waiting => exact ok.waiting
  case grant => exact fun d g hg => ⟨(ok.grant d g hg).record, (ok.grant d g hg).top, (ok.grant d g hg).claimed⟩
  case granted => exact ok.granted
  case record => exact ok.record
  case robots => exact ok.robots

/-- A column that stands neither UNKNOWN nor DISABLED nor FENCED takes another such state. -/
theorem serve (ok : L.Ok q fencing loose) {c : ColIx} {st : ColState}
    (new : st ≠ .unknown ∧ st ≠ .disabled ∧ st ≠ .fenced) (old : (L.book c).state ≠ .fenced)
    (free : (L.book c).grant = none) : (L.modBook c fun b => { b with state := st }).Ok q fencing loose :=
  ok.turn (fun _ _ h => h) (fun h => (h.elim new.1 new.2.1).elim) (fun h => (new.2.2 h).elim)
    (fun _ h x hx hs hc => old (ok.doubt h x hx hs c hc).1) free

/-- A column takes a depth that its records do not exceed. -/
theorem deepen (ok : L.Ok q fencing loose) {c : ColIx} {n : Nat}
    (room : (L.book c).stack.length + (L.book c).inbound.card ≤ n) :
    (L.modBook c fun b => { b with depth := n }).Ok q fencing loose := by
  rw [Ledger.modBook_depth]
  exact { ok with
    fits := ok.fits
    room := fun d => by
      dsimp only [Ledger.withDepths]
      split
      next e => subst e; exact room
      next => exact ok.room d
    grant := fun d g hg => ⟨(ok.grant d g hg).record, (ok.grant d g hg).top, (ok.grant d g hg).claimed⟩ }

end Ledger.Ok

end Sys2Proof.Machine
end

