-- ==== Sys2Proof/Proofs/AccountOfRecords.lean ====
section
/-! A record that goes to another place, or is made, or ends, and what it needs to keep the account (O57). -/
namespace Sys2Proof.Machine

variable {q : Claim → Bool} {fencing : ColIx → Prop} {loose loose' : HNum → Prop} {L L' : Ledger} {h : HNum}
  {o : Option Handover}

/-! ### A record stands in one place -/

theorem Handover.not_stacked_of_awaited {x : Handover} (h : x.awaited = true) : x.stacked = false := by
  unfold Handover.awaited at h
  unfold Handover.stacked
  cases hs : x.state <;> rw [hs] at h <;> try simp at h ⊢
  cases hd : x.doubt with
  | none => rfl
  | some d =>
    rw [hd] at h
    cases ho : d.op <;> simp_all

theorem Handover.Fits.apart {x : Handover} (fits : x.Fits) {c : ColIx} (stands : x.standsIn c) : ¬ x.inboundTo c := by
  rintro (⟨ha, -⟩ | ⟨-, ht⟩)
  · exact absurd stands.1 (by simp [x.not_stacked_of_awaited ha])
  · exact (fits.target (by simp [ht])).2 (ht.trans stands.2.symm)

/-! ### A record is put in its place -/

/-- No lift waits for the top of the column's stack but the record's own, and no other record in DOUBT is the top. -/
def Ledger.TopFree (L : Ledger) (h : HNum) (c : ColIx) : Prop :=
  (∀ g ∈ (L.book c).grant, g.claim.kind = .lift → g.record = h) ∧
    ∀ i, i ≠ h → ∀ z ∈ L.hand i, z.state = .doubt → z.stacked = true → z.column ≠ some c

/-- `L'` is `L` but that record `h` has become `o`, and stands where `o` says; nothing else changes place, and another
record stays on top of its stack unless that may change. -/
structure Ledger.Puts (L : Ledger) (h : HNum) (o : Option Handover) (L' : Ledger) : Prop where
  self : L'.hand h = o
  other : ∀ i, i ≠ h → L'.hand i = L.hand i
  state : ∀ c, (L'.book c).state = (L.book c).state
  depth : ∀ c, (L'.book c).depth = (L.book c).depth
  waits : ∀ c, (L'.book c).waits = (L.book c).waits
  grant : ∀ c, (L'.book c).grant = (L.book c).grant
  stack : ∀ c i, i ∈ (L'.book c).stack ↔ i ≠ h ∧ i ∈ (L.book c).stack ∨ i = h ∧ ∃ y ∈ o, y.standsIn c
  inbound : ∀ c i, i ∈ (L'.book c).inbound ↔ i ≠ h ∧ i ∈ (L.book c).inbound ∨ i = h ∧ ∃ y ∈ o, y.inboundTo c
  once : ∀ c, (L'.book c).stack.Nodup
  last : ∀ c, (∀ i, i ≠ h → (L.book c).stack.getLast? = some i → (L'.book c).stack.getLast? = some i) ∨ L.TopFree h c

/-- What the new record must be to keep the account. -/
structure Ledger.Admits (q : Claim → Bool) (fencing : ColIx → Prop) (loose : HNum → Prop) (L : Ledger) (h : HNum)
    (y : Handover) : Prop where
  fits : y.Fits
  bins : y.state ≠ .closing → ∀ i, i ≠ h → ∀ z ∈ L.hand i, z.state ≠ .closing → y.bin ≠ z.bin
  room : ∀ c, y.standsIn c ∨ y.inboundTo c → h ∈ (L.book c).stack ∨ h ∈ (L.book c).inbound ∨
    (L.book c).stack.length + (L.book c).inbound.card < (L.book c).depth
  served : ∀ c, y.standsIn c ∨ y.inboundTo c → (L.book c).state ≠ .unknown ∧ (L.book c).state ≠ .disabled
  fenced : ∀ c, y.inboundTo c → ¬ fencing c → (L.book c).state = .fenced → y.state = .doubt
  doubt : y.state = .doubt → ∀ c ∈ y.column, (L.book c).state = .fenced ∧
    ∀ i, i ≠ h → ∀ z ∈ L.hand i, z.state = .doubt → z.column ≠ some c
  granted : ¬ loose h → y.state = .landing ∨ y.state = .lifting ∨ y.state = .shifting →
    ∃ c, y.column = some c ∧ ∃ g ∈ (L.book c).grant, g.record = h
  follower : ∀ rb, followedBy rb (some y) = true → followedBy rb (L.hand h) = true ∨
    L.count (fun cl => q cl && cl.robot == rb) + L.followersOf rb = 0

namespace Ledger.Puts

variable (m : L.Puts h o L')
include m

theorem hand_eq : L'.hand = (L.setHand h o).hand := by
  funext i
  rw [Ledger.hand_setHand]
  split
  next e => rw [e, m.self]
  next e => exact m.other i e

theorem count (p : Claim → Bool) : L'.count p = L.count p := by
  refine Finset.sum_congr rfl fun c _ => ?_
  rw [Books.claims, Books.claims, m.waits, m.grant]

theorem followersOf (rb : Robot) : L'.followersOf rb = (L.setHand h o).followersOf rb := by
  unfold Ledger.followersOf
  rw [m.hand_eq]

theorem room (ok : L.Ok q fencing loose) (fits : ∀ y ∈ o, y.Fits) {c : ColIx}
    (roomy : ∀ y ∈ o, y.standsIn c ∨ y.inboundTo c → h ∈ (L.book c).stack ∨ h ∈ (L.book c).inbound ∨
      (L.book c).stack.length + (L.book c).inbound.card < (L.book c).depth) :
    (L'.book c).stack.length + (L'.book c).inbound.card ≤ (L'.book c).depth := by
  have apart {M : Ledger} (once : (M.book c).stack.Nodup)
      (no : ∀ i, i ∈ (M.book c).stack → i ∉ (M.book c).inbound) :
      (M.book c).stack.length + (M.book c).inbound.card = ((M.book c).stack.toFinset ∪ (M.book c).inbound).card := by
    rw [Finset.card_union_of_disjoint, List.toFinset_card_of_nodup once]
    exact Finset.disjoint_left.2 fun i hi => no i (List.mem_toFinset.1 hi)
  have old := apart (ok.once c) fun i hi hj => by
    obtain ⟨x, hx, stands⟩ := (ok.stack c i).1 hi
    exact (ok.fits i x hx).apart stands ((ok.mem_inbound hx).1 hj)
  have new := apart (m.once c) fun i hi hj => by
    rcases (m.stack c i).1 hi with ⟨ne, hs⟩ | ⟨rfl, y, hy, stands⟩
    · rcases (m.inbound c i).1 hj with ⟨-, hb⟩ | ⟨e, -⟩
      · obtain ⟨x, hx, stands⟩ := (ok.stack c i).1 hs
        exact (ok.fits i x hx).apart stands ((ok.mem_inbound hx).1 hb)
      · exact ne e
    · rcases (m.inbound c i).1 hj with ⟨ne, -⟩ | ⟨-, z, hz, inb⟩
      · exact ne rfl
      · exact (fits y hy).apart stands (Option.mem_unique hz hy ▸ inb)
  have full := ok.room c
  rw [old] at full roomy
  rw [new, m.depth]
  have sub : (L'.book c).stack.toFinset ∪ (L'.book c).inbound ⊆
      insert h (((L.book c).stack.toFinset ∪ (L.book c).inbound).erase h) := fun i hi => by
    simp only [Finset.mem_union, List.mem_toFinset, m.stack, m.inbound] at hi
    simp only [Finset.mem_insert, Finset.mem_erase, Finset.mem_union, List.mem_toFinset]
    tauto
  by_cases stays : h ∈ (L.book c).stack.toFinset ∪ (L.book c).inbound
  · rw [Finset.insert_erase stays] at sub
    exact (Finset.card_le_card sub).trans full
  · rw [Finset.erase_eq_of_notMem stays] at sub
    by_cases placed : ∃ y ∈ o, y.standsIn c ∨ y.inboundTo c
    · obtain ⟨y, hy, hp⟩ := placed
      have space := roomy y hy hp
      simp only [Finset.mem_union, List.mem_toFinset, not_or] at stays
      have space := (space.resolve_left stays.1).resolve_left stays.2
      exact (Finset.card_le_card sub).trans ((Finset.card_insert_le _ _).trans space)
    · refine (Finset.card_le_card fun i hi => ?_).trans full
      rcases Finset.mem_insert.1 (sub hi) with rfl | hi'
      · simp only [Finset.mem_union, List.mem_toFinset, m.stack, m.inbound] at hi
        exact (placed (by
          rcases hi with (⟨ne, -⟩ | ⟨-, y, hy, hp⟩) | ⟨ne, -⟩ | ⟨-, y, hy, hp⟩
          · exact absurd rfl ne
          · exact ⟨y, hy, .inl hp⟩
          · exact absurd rfl ne
          · exact ⟨y, hy, .inr hp⟩)).elim
      · exact hi'

/-- The record in its new place keeps the account, when the claims and grants that name it suit it there. -/
theorem ok (ok : L.Ok q fencing loose) (allowed : ∀ y ∈ o, L.Admits q fencing loose' h y)
    (loosen : ∀ i, i ≠ h → loose i → loose' i)
    (top : ∀ y ∈ o, y.state = .doubt → y.stacked = true → ∀ c ∈ y.column, (L'.book c).stack.getLast? = some h)
    (waiting : ∀ c, ∀ cl ∈ (L.book c).waits, cl.handover = h → ∃ y ∈ o, y.column = some c ∧ cl.suits y = true)
    (grants : ∀ c, ∀ g ∈ (L.book c).grant, g.record = h ∨ g.claim.handover = h → L'.Backs c g) :
    L'.Ok q fencing loose' := by
  constructor
  case fits =>
    intro i x hx
    by_cases e : i = h
    · rw [e, m.self] at hx
      exact (allowed x hx).fits
    · rw [m.other i e] at hx
      exact ok.fits i x hx
  case once => exact m.once
  case stack =>
    intro c i
    rw [m.stack]
    by_cases e : i = h
    · subst e; simp [m.self]
    · simp [e, m.other i e, ok.stack c i]
  case inbound =>
    intro c i
    rw [m.inbound]
    by_cases e : i = h
    · subst e; simp [m.self]
    · simp [e, m.other i e, ok.inbound c i]
  case bins =>
    intro i j x hx y hy hxc hyc same
    by_cases ei : i = h <;> by_cases ej : j = h
    · rw [ei, ej]
    · rw [ei, m.self] at hx
      rw [m.other j ej] at hy
      exact ((allowed x hx).bins hxc j ej y hy hyc same).elim
    · rw [ej, m.self] at hy
      rw [m.other i ei] at hx
      exact ((allowed y hy).bins hyc i ei x hx hxc same.symm).elim
    · rw [m.other i ei] at hx
      rw [m.other j ej] at hy
      exact ok.bins i j x hx y hy hxc hyc same
  case room => exact fun c => m.room ok (fun y hy => (allowed y hy).fits) fun y hy hp => (allowed y hy).room c hp
  case waits => exact fun c => by rw [m.waits]; exact ok.waits c
  case regions => exact fun c => by rw [m.waits]; exact ok.regions c
  case empty =>
    intro c hc
    rw [m.state] at hc
    obtain ⟨hs, hi, hw⟩ := ok.empty c hc
    have nowhere : ¬ ∃ y ∈ o, y.standsIn c ∨ y.inboundTo c := fun ⟨y, hy, hp⟩ => by
      obtain ⟨hu, hd⟩ := (allowed y hy).served c hp
      exact hc.elim hu hd
    refine ⟨List.eq_nil_iff_forall_not_mem.2 fun i hi' => ?_, Finset.eq_empty_iff_forall_notMem.2 fun i hi' => ?_,
      by rw [m.waits, hw]⟩
    · rcases (m.stack c i).1 hi' with ⟨-, hm⟩ | ⟨-, y, hy, hp⟩
      · rw [hs] at hm; cases hm
      · exact nowhere ⟨y, hy, .inl hp⟩
    · rcases (m.inbound c i).1 hi' with ⟨-, hm⟩ | ⟨-, y, hy, hp⟩
      · rw [hi] at hm; cases hm
      · exact nowhere ⟨y, hy, .inr hp⟩
  case fencedWaits => exact fun c hf hc => by rw [m.waits]; rw [m.state] at hc; exact ok.fencedWaits c hf hc
  case fencedInbound =>
    intro c hf hc i hi x hx
    rw [m.state] at hc
    rcases (m.inbound c i).1 hi with ⟨ne, hm⟩ | ⟨rfl, y, hy, hp⟩
    · rw [m.other i ne] at hx
      exact ok.fencedInbound c hf hc i hm x hx
    · rw [m.self] at hx
      obtain rfl := Option.mem_unique hx hy
      exact (allowed x hx).fenced c hp hf hc
  case granting => exact fun c hc => by rw [m.grant] at hc; rw [m.state]; exact ok.granting c hc
  case doubt =>
    intro i x hx hs c hc
    by_cases e : i = h
    · rw [e, m.self] at hx
      obtain ⟨state, alone⟩ := (allowed x hx).doubt hs c hc
      refine ⟨by rw [m.state, state], fun hst => e ▸ top x hx hs hst c hc, fun j y hy hyd hyc => ?_⟩
      by_contra ne
      rw [e] at ne
      rw [m.other j ne] at hy
      exact alone j ne y hy hyd hyc
    · rw [m.other i e] at hx
      obtain ⟨state, last, alone⟩ := ok.doubt i x hx hs c hc
      refine ⟨by rw [m.state, state], fun hst => ?_, fun j y hy hyd hyc => ?_⟩
      · rcases m.last c with keeps | ⟨-, free⟩
        · exact keeps i e (last hst)
        · exact (free i e x hx hs hst hc).elim
      · by_cases ej : j = h
        · rw [ej, m.self] at hy
          exact (((allowed y hy).doubt hyd c hyc).2 i e x hx hs hc).elim
        · rw [m.other j ej] at hy
          exact alone j y hy hyd hyc
  case waiting =>
    intro c cl hcl
    rw [m.waits] at hcl
    by_cases e : cl.handover = h
    · rw [e, m.self]
      exact waiting c cl hcl e
    · rw [m.other _ e]
      exact ok.waiting c cl hcl
  case grant =>
    intro c g hg
    rw [m.grant] at hg
    by_cases e : g.record = h ∨ g.claim.handover = h
    · exact grants c g hg e
    · obtain ⟨er, ec⟩ := not_or.1 e
      obtain ⟨record, last, claimed⟩ := ok.grant c g hg
      refine ⟨by rwa [m.other _ er], fun hk => ?_, by rwa [m.other _ ec]⟩
      rcases m.last c with keeps | ⟨free, -⟩
      · exact keeps _ er (last hk)
      · exact (er (free g hg hk)).elim
  case granted =>
    intro i hi x hx hs
    simp only [m.grant]
    by_cases e : i = h
    · rw [e, m.self] at hx
      rw [e] at hi ⊢
      exact (allowed x hx).granted hi hs
    · rw [m.other i e] at hx
      exact ok.granted i (fun hl => hi (loosen i e hl)) x hx hs
  case record => exact fun i => by rw [m.count]; exact ok.record i
  case robots =>
    intro rb
    rw [m.count, m.followersOf]
    have old := ok.robots rb
    have sum := L.followersOf_setHand h o rb
    by_cases hf : followedBy rb o = true
    · rw [if_pos hf] at sum
      obtain ⟨y, rfl⟩ : ∃ y, o = some y := by
        cases o with
        | none => cases hf
        | some y => exact ⟨y, rfl⟩
      rcases (allowed y rfl).follower rb hf with hb | hz
      · rw [if_pos hb] at sum
        omega
      · omega
    · rw [if_neg hf] at sum
      omega

end Ledger.Puts

end Sys2Proof.Machine
end

