-- ==== Sys2Proof/Proofs/Moves.lean ====
section
/-! The moves of a record from place to place in the ledger, one at a time and put together (O57). -/
namespace Sys2Proof.Machine

variable {q : Claim → Bool} {fencing : ColIx → Prop} {loose loose' : HNum → Prop} {L L' L'' : Ledger} {h : HNum}
  {o : Option Handover} {x y : Handover} {c d : ColIx}

/-! ### The moves -/

def Ledger.erase (L : Ledger) (c : ColIx) (h : HNum) : Ledger :=
  L.modBook c fun b => { b with inbound := b.inbound.erase h }
def Ledger.insert (L : Ledger) (c : ColIx) (h : HNum) : Ledger :=
  L.modBook c fun b => { b with inbound := Insert.insert h b.inbound }
def Ledger.push (L : Ledger) (c : ColIx) (h : HNum) : Ledger := L.modBook c fun b => { b with stack := b.stack ++ [h] }
def Ledger.pop (L : Ledger) (c : ColIx) : Ledger := L.modBook c fun b => { b with stack := b.stack.dropLast }
/-- The record leaves the stack, wherever in it. -/
def Ledger.pull (L : Ledger) (c : ColIx) (h : HNum) : Ledger :=
  L.modBook c fun b => { b with stack := b.stack.filter (· != h) }
/-- The claims for a record leave a wait list. -/
def Ledger.shed (L : Ledger) (c : ColIx) (h : HNum) : Ledger :=
  L.modBook c fun b => { b with waits := b.waits.filter fun cl => (cl.handover == h) = false }
def Ledger.join (L : Ledger) (c : ColIx) (cl : Claim) : Ledger := L.modBook c fun b => { b with waits := cl ::ₘ b.waits }
def Ledger.turn (L : Ledger) (c : ColIx) (st : ColState) : Ledger := L.modBook c fun b => { b with state := st }
def Ledger.setGrant (L : Ledger) (c : ColIx) (g : Option Grant) : Ledger := L.modBook c fun b => { b with grant := g }

/-- The ledger as it will stand when the grant of a column has ended. -/
def Ledger.without (o : Option ColIx) (L : Ledger) : Ledger :=
  match o with
  | none => L
  | some c => L.setGrant c none

theorem Ledger.modBook_comm {f g : Books → Books} (comm : ∀ b, f (g b) = g (f b)) :
    (L.modBook c f).modBook d g = (L.modBook d g).modBook c f := by
  ext1
  · rfl
  · funext e
    simp only [Ledger.book_modBook]
    split <;> split <;> simp [comm]

/-- Updates of one book follow one another. -/
theorem Ledger.modBook_modBook {f g : Books → Books} : (L.modBook c f).modBook c g = L.modBook c fun b => g (f b) := by
  ext1
  · rfl
  · funext e
    simp only [Ledger.book_modBook]
    split <;> rfl

theorem Ledger.without_modBook {f : Books → Books} (e : Option ColIx)
    (comm : ∀ b, f { b with grant := none } = { f b with grant := none }) :
    (L.modBook c f).without e = (L.without e).modBook c f := by
  cases e with
  | none => rfl
  | some e => exact Ledger.modBook_comm (f := f) (g := fun b => { b with grant := none }) comm

section
variable (L) (e : Option ColIx) (c h)

@[simp] theorem Ledger.without_none : L.without none = L := rfl
@[simp] theorem Ledger.hand_without : (L.without e).hand = L.hand := by cases e <;> rfl
@[simp] theorem Ledger.without_setHand (o : Option Handover) : (L.setHand h o).without e = (L.without e).setHand h o := by
  cases e <;> rfl
@[simp] theorem Ledger.without_erase : (L.erase c h).without e = (L.without e).erase c h :=
  Ledger.without_modBook e fun _ => rfl
@[simp] theorem Ledger.without_insert : (L.insert c h).without e = (L.without e).insert c h :=
  Ledger.without_modBook e fun _ => rfl
@[simp] theorem Ledger.without_push : (L.push c h).without e = (L.without e).push c h :=
  Ledger.without_modBook e fun _ => rfl
@[simp] theorem Ledger.without_pop : (L.pop c).without e = (L.without e).pop c :=
  Ledger.without_modBook e fun _ => rfl
@[simp] theorem Ledger.without_shed : (L.shed c h).without e = (L.without e).shed c h :=
  Ledger.without_modBook e fun _ => rfl
@[simp] theorem Ledger.without_join (cl : Claim) : (L.join c cl).without e = (L.without e).join c cl :=
  Ledger.without_modBook e fun _ => rfl
@[simp] theorem Ledger.without_turn (st : ColState) : (L.turn c st).without e = (L.without e).turn c st :=
  Ledger.without_modBook e fun _ => rfl

@[simp] theorem Ledger.hand_erase : (L.erase c h).hand = L.hand := rfl
@[simp] theorem Ledger.hand_insert : (L.insert c h).hand = L.hand := rfl
@[simp] theorem Ledger.hand_push : (L.push c h).hand = L.hand := rfl
@[simp] theorem Ledger.hand_pop : (L.pop c).hand = L.hand := rfl
@[simp] theorem Ledger.hand_pull : (L.pull c h).hand = L.hand := rfl
@[simp] theorem Ledger.hand_shed : (L.shed c h).hand = L.hand := rfl
@[simp] theorem Ledger.hand_join (cl : Claim) : (L.join c cl).hand = L.hand := rfl
@[simp] theorem Ledger.hand_turn (st : ColState) : (L.turn c st).hand = L.hand := rfl
@[simp] theorem Ledger.hand_setGrant (g : Option Grant) : (L.setGrant c g).hand = L.hand := rfl

variable (d : ColIx)

theorem Ledger.book_without : (L.without e).book d =
    if e = some d then { L.book d with grant := none } else L.book d := by
  cases e with
  | none => rfl
  | some c =>
    rw [Ledger.without, Ledger.setGrant, Ledger.book_modBook]
    simp only [Option.some_inj, eq_comm]

@[simp] theorem Ledger.waits_without : ((L.without e).book d).waits = (L.book d).waits := by
  rw [Ledger.book_without]; split <;> rfl
@[simp] theorem Ledger.state_without : ((L.without e).book d).state = (L.book d).state := by
  rw [Ledger.book_without]; split <;> rfl
@[simp] theorem Ledger.depth_without : ((L.without e).book d).depth = (L.book d).depth := by
  rw [Ledger.book_without]; split <;> rfl
@[simp] theorem Ledger.stack_without : ((L.without e).book d).stack = (L.book d).stack := by
  rw [Ledger.book_without]; split <;> rfl
@[simp] theorem Ledger.inbound_without : ((L.without e).book d).inbound = (L.book d).inbound := by
  rw [Ledger.book_without]; split <;> rfl

theorem Ledger.book_erase : (L.erase c h).book d =
    if d = c then { L.book d with inbound := (L.book d).inbound.erase h } else L.book d := rfl
theorem Ledger.book_insert : (L.insert c h).book d =
    if d = c then { L.book d with inbound := Insert.insert h (L.book d).inbound } else L.book d := rfl
theorem Ledger.book_push : (L.push c h).book d =
    if d = c then { L.book d with stack := (L.book d).stack ++ [h] } else L.book d := rfl
theorem Ledger.book_pop : (L.pop c).book d =
    if d = c then { L.book d with stack := (L.book d).stack.dropLast } else L.book d := rfl
theorem Ledger.book_pull : (L.pull c h).book d =
    if d = c then { L.book d with stack := (L.book d).stack.filter (· != h) } else L.book d := rfl
theorem Ledger.book_shed : (L.shed c h).book d = if d = c then
    { L.book d with waits := (L.book d).waits.filter fun cl => (cl.handover == h) = false } else L.book d := rfl
theorem Ledger.book_join (cl : Claim) : (L.join c cl).book d =
    if d = c then { L.book d with waits := cl ::ₘ (L.book d).waits } else L.book d := rfl
theorem Ledger.book_turn (st : ColState) : (L.turn c st).book d =
    if d = c then { L.book d with state := st } else L.book d := rfl
theorem Ledger.book_setGrant (g : Option Grant) : (L.setGrant c g).book d =
    if d = c then { L.book d with grant := g } else L.book d := rfl

end

/-! ### Where the moved record stands -/

section
variable (L) (c d h)

theorem Ledger.mem_erase : h ∈ ((L.erase c h).book d).inbound ↔ d ≠ c ∧ h ∈ (L.book d).inbound := by
  rw [Ledger.book_erase]; split <;> simp [*]
theorem Ledger.mem_insert : h ∈ ((L.insert c h).book d).inbound ↔ d = c ∨ h ∈ (L.book d).inbound := by
  rw [Ledger.book_insert]; split <;> simp [*]
theorem Ledger.mem_push : h ∈ ((L.push c h).book d).stack ↔ d = c ∨ h ∈ (L.book d).stack := by
  rw [Ledger.book_push]; split <;> simp [*]
theorem Ledger.mem_pull : h ∈ ((L.pull c h).book d).stack ↔ d ≠ c ∧ h ∈ (L.book d).stack := by
  rw [Ledger.book_pull]; split <;> simp [*]

@[simp] theorem Ledger.stack_erase : ((L.erase c h).book d).stack = (L.book d).stack := by
  rw [Ledger.book_erase]; split <;> rfl
@[simp] theorem Ledger.stack_insert : ((L.insert c h).book d).stack = (L.book d).stack := by
  rw [Ledger.book_insert]; split <;> rfl
@[simp] theorem Ledger.inbound_push : ((L.push c h).book d).inbound = (L.book d).inbound := by
  rw [Ledger.book_push]; split <;> rfl
@[simp] theorem Ledger.inbound_pop : ((L.pop c).book d).inbound = (L.book d).inbound := by
  rw [Ledger.book_pop]; split <;> rfl
@[simp] theorem Ledger.inbound_pull : ((L.pull c h).book d).inbound = (L.book d).inbound := by
  rw [Ledger.book_pull]; split <;> rfl

end

/-- A member of a list stays last where it stays. -/
theorem getLast?_filter_of_last {α : Type} {l : List α} {a : α} {p : α → Bool} (last : l.getLast? = some a)
    (ha : p a = true) : (l.filter p).getLast? = some a := by
  obtain ⟨ys, rfl⟩ := List.getLast?_eq_some_iff.1 last
  simp [List.filter_append, ha]

/-- To lift the top off a stack is to pull it out. -/
theorem Ledger.pop_eq_pull (once : (L.book c).stack.Nodup) (top : (L.book c).stack.getLast? = some h) :
    L.pop c = L.pull c h := by
  refine Ledger.ext rfl (funext fun d => ?_)
  rw [Ledger.book_pop, Ledger.book_pull]
  split
  next e =>
    subst e
    obtain ⟨ys, e⟩ := List.getLast?_eq_some_iff.1 top
    rw [e] at once ⊢
    have out : ∀ i ∈ ys, i ≠ h := fun i hi e => (List.disjoint_of_nodup_append once) (e ▸ hi) (List.mem_singleton_self h)
    simp [List.filter_append, List.filter_eq_self.2 fun i hi => bne_iff_ne.2 (out i hi)]
  next => rfl

/-! ### Moves of one record -/

/-- `L'` is `L` but for what record `h` is and where it stands. -/
structure Ledger.Moves (h : HNum) (L L' : Ledger) : Prop where
  other : ∀ i, i ≠ h → L'.hand i = L.hand i
  state : ∀ c, (L'.book c).state = (L.book c).state
  depth : ∀ c, (L'.book c).depth = (L.book c).depth
  waits : ∀ c, (L'.book c).waits = (L.book c).waits
  grant : ∀ c, (L'.book c).grant = (L.book c).grant
  stack : ∀ c i, i ≠ h → (i ∈ (L'.book c).stack ↔ i ∈ (L.book c).stack)
  inbound : ∀ c i, i ≠ h → (i ∈ (L'.book c).inbound ↔ i ∈ (L.book c).inbound)
  once : ∀ c, (L'.book c).stack.Nodup
  last : ∀ c, (∀ i, i ≠ h → (L.book c).stack.getLast? = some i → (L'.book c).stack.getLast? = some i) ∨ L.TopFree h c

namespace Ledger.Moves

theorem refl (once : ∀ c, (L.book c).stack.Nodup) : L.Moves h L :=
  ⟨fun _ _ => rfl, fun _ => rfl, fun _ => rfl, fun _ => rfl, fun _ => rfl, fun _ _ _ => .rfl, fun _ _ _ => .rfl, once,
    fun _ => .inl fun _ _ => id⟩

variable (m : L.Moves h L')
include m

theorem setHand (o : Option Handover) : L.Moves h (L'.setHand h o) :=
  { m with other := fun i hi => by rw [Ledger.hand_setHand, if_neg hi, m.other i hi] }

theorem erase (c : ColIx) : L.Moves h (L'.erase c h) where
  other := m.other
  state d := by rw [Ledger.book_erase, ← m.state]; split <;> rfl
  depth d := by rw [Ledger.book_erase, ← m.depth]; split <;> rfl
  waits d := by rw [Ledger.book_erase, ← m.waits]; split <;> rfl
  grant d := by rw [Ledger.book_erase, ← m.grant]; split <;> rfl
  stack d i hi := by rw [Ledger.stack_erase, m.stack d i hi]
  inbound d i hi := by rw [← m.inbound d i hi, Ledger.book_erase]; split <;> simp [hi]
  once d := by rw [Ledger.stack_erase]; exact m.once d
  last d := by rw [Ledger.stack_erase]; exact m.last d

theorem insert (c : ColIx) : L.Moves h (L'.insert c h) where
  other := m.other
  state d := by rw [Ledger.book_insert, ← m.state]; split <;> rfl
  depth d := by rw [Ledger.book_insert, ← m.depth]; split <;> rfl
  waits d := by rw [Ledger.book_insert, ← m.waits]; split <;> rfl
  grant d := by rw [Ledger.book_insert, ← m.grant]; split <;> rfl
  stack d i hi := by rw [Ledger.stack_insert, m.stack d i hi]
  inbound d i hi := by rw [← m.inbound d i hi, Ledger.book_insert]; split <;> simp [hi]
  once d := by rw [Ledger.stack_insert]; exact m.once d
  last d := by rw [Ledger.stack_insert]; exact m.last d

theorem push {c : ColIx} (out : h ∉ (L'.book c).stack) (free : L.TopFree h c) : L.Moves h (L'.push c h) where
  other := m.other
  state d := by rw [Ledger.book_push, ← m.state]; split <;> rfl
  depth d := by rw [Ledger.book_push, ← m.depth]; split <;> rfl
  waits d := by rw [Ledger.book_push, ← m.waits]; split <;> rfl
  grant d := by rw [Ledger.book_push, ← m.grant]; split <;> rfl
  stack d i hi := by rw [← m.stack d i hi, Ledger.book_push]; split <;> simp [hi]
  inbound d i hi := by rw [Ledger.inbound_push, m.inbound d i hi]
  once d := by
    rw [Ledger.book_push]
    split
    next e => subst e; exact List.nodup_append.2 ⟨m.once d, List.nodup_singleton h, by simp; exact fun i hi e => out (e ▸ hi)⟩
    next => exact m.once d
  last d := by
    rw [Ledger.book_push]
    split
    next e => subst e; exact .inr free
    next => exact m.last d

theorem pull (c : ColIx) : L.Moves h (L'.pull c h) where
  other := m.other
  state d := by rw [Ledger.book_pull, ← m.state]; split <;> rfl
  depth d := by rw [Ledger.book_pull, ← m.depth]; split <;> rfl
  waits d := by rw [Ledger.book_pull, ← m.waits]; split <;> rfl
  grant d := by rw [Ledger.book_pull, ← m.grant]; split <;> rfl
  stack d i hi := by rw [← m.stack d i hi, Ledger.book_pull]; split <;> simp [hi]
  inbound d i hi := by rw [Ledger.inbound_pull, m.inbound d i hi]
  once d := by
    rw [Ledger.book_pull]
    split
    · exact (m.once d).filter _
    · exact m.once d
  last d := by
    refine (m.last d).imp_left fun keeps i hi hl => ?_
    rw [Ledger.book_pull]
    split
    · exact getLast?_filter_of_last (keeps i hi hl) (by simp [hi])
    · exact keeps i hi hl

theorem pop {c : ColIx} (top : (L'.book c).stack.getLast? = some h) : L.Moves h (L'.pop c) :=
  Ledger.pop_eq_pull (m.once c) top ▸ m.pull c

/-- The record is put where it says it stands. -/
theorem puts (self : L'.hand h = o) (stack : ∀ c, h ∈ (L'.book c).stack ↔ ∃ y ∈ o, y.standsIn c)
    (inbound : ∀ c, h ∈ (L'.book c).inbound ↔ ∃ y ∈ o, y.inboundTo c) : L.Puts h o L' where
  self := self
  other := m.other
  state := m.state
  depth := m.depth
  waits := m.waits
  grant := m.grant
  stack c i := by
    by_cases e : i = h
    · subst e; simp [stack]
    · simp [e, m.stack c i e]
  inbound c i := by
    by_cases e : i = h
    · subst e; simp [inbound]
    · simp [e, m.inbound c i e]
  once := m.once
  last := m.last

end Ledger.Moves

end Sys2Proof.Machine
end

