-- ==== Sys2Proof/Proofs/AccountOfPlaces.lean ====
section
/-! What the account says of one record's claims and grants, and which puts keep the account (O57). -/
namespace Sys2Proof.Machine

variable {q : Claim → Bool} {fencing : ColIx → Prop} {loose loose' : HNum → Prop} {L L' : Ledger} {h : HNum}
  {o : Option Handover} {x y : Handover} {c d : ColIx} {g : Grant}

/-! ### The claims and grants of a record -/

/-- No claim for the record waits. -/
def Ledger.Unclaimed (L : Ledger) (h : HNum) : Prop := ∀ c, ∀ cl ∈ (L.book c).waits, cl.handover ≠ h

/-- No grant names the record, as its own or as that of its claim. -/
def Ledger.Idle (L : Ledger) (h : HNum) : Prop := ∀ c, ∀ g ∈ (L.book c).grant, g.record ≠ h ∧ g.claim.handover ≠ h

theorem Ledger.mem_claims {cl : Claim} :
    cl ∈ (L.book c).claims ↔ cl ∈ (L.book c).waits ∨ ∃ g ∈ (L.book c).grant, g.claim = cl := by
  unfold Books.claims
  cases (L.book c).grant <;> simp [eq_comm]

/-- A change of a book that leaves its claims. -/
theorem Ledger.count_modBook_same {f : Books → Books} (same : ∀ b, (f b).claims = b.claims) (p : Claim → Bool) :
    (L.modBook c f).count p = L.count p := by
  have sum := L.count_modBook c f p
  rw [same] at sum
  omega

section
variable (L) (c h) (p : Claim → Bool)
@[simp] theorem Ledger.count_erase : (L.erase c h).count p = L.count p := by
  unfold Ledger.erase; exact Ledger.count_modBook_same (by intro; rfl) p
@[simp] theorem Ledger.count_insert : (L.insert c h).count p = L.count p := by
  unfold Ledger.insert; exact Ledger.count_modBook_same (by intro; rfl) p
@[simp] theorem Ledger.count_push : (L.push c h).count p = L.count p := by
  unfold Ledger.push; exact Ledger.count_modBook_same (by intro; rfl) p
@[simp] theorem Ledger.count_pop : (L.pop c).count p = L.count p := by
  unfold Ledger.pop; exact Ledger.count_modBook_same (by intro; rfl) p
@[simp] theorem Ledger.count_turn (st : ColState) : (L.turn c st).count p = L.count p := by
  unfold Ledger.turn; exact Ledger.count_modBook_same (by intro; rfl) p
end

section
variable (L) (c h) (rb : Robot)
@[simp] theorem Ledger.followersOf_erase : (L.erase c h).followersOf rb = L.followersOf rb := rfl
@[simp] theorem Ledger.followersOf_insert : (L.insert c h).followersOf rb = L.followersOf rb := rfl
@[simp] theorem Ledger.followersOf_push : (L.push c h).followersOf rb = L.followersOf rb := rfl
@[simp] theorem Ledger.followersOf_pop : (L.pop c).followersOf rb = L.followersOf rb := rfl
@[simp] theorem Ledger.followersOf_shed : (L.shed c h).followersOf rb = L.followersOf rb := rfl
@[simp] theorem Ledger.followersOf_turn (st : ColState) : (L.turn c st).followersOf rb = L.followersOf rb := rfl
@[simp] theorem Ledger.followersOf_setGrant (g : Option Grant) : (L.setGrant c g).followersOf rb = L.followersOf rb := rfl
end

/-- A record that is followed as before. -/
theorem Ledger.followersOf_setHand_same {rb : Robot} (same : followedBy rb o = followedBy rb (L.hand h)) :
    (L.setHand h o).followersOf rb = L.followersOf rb := by
  have sum := L.followersOf_setHand h o rb
  rw [same] at sum
  omega

theorem Ledger.count_handover_eq_zero (unclaimed : L.Unclaimed h) (idle : L.Idle h) :
    L.count (fun cl => cl.handover == h) = 0 := by
  refine Ledger.count_eq_zero.2 fun c cl hcl => ?_
  rcases Ledger.mem_claims.1 hcl with hw | ⟨g, hg, rfl⟩
  · simpa using unclaimed c cl hw
  · simpa using (idle c g hg).2

theorem Grant.state_of_suits (h : g.suits x = true) : x.state = .landing ∨ x.state = .lifting ∨ x.state = .shifting := by
  unfold Grant.suits at h
  split at h <;> simp only [Bool.and_eq_true, beq_iff_eq] at h <;> simp [h]

theorem Claim.state_of_suits {cl : Claim} (h : cl.suits x = true) :
    x.state = .booked ∨ x.state = .stored ∨ x.state = .shifting ∨ x.state = .moving := by
  unfold Claim.suits at h
  split at h <;> simp only [Bool.and_eq_true, Bool.or_eq_true, beq_iff_eq] at h <;> tauto

namespace Ledger.Ok

variable (ok : L.Ok q fencing loose)
include ok

/-- The claims for a record wait at its column. -/
theorem column_of_wait {cl : Claim} (hcl : cl ∈ (L.book c).waits) (hx : L.hand cl.handover = some x) :
    x.column = some c ∧ cl.suits x = true := by
  obtain ⟨y, hy, suits⟩ := ok.waiting c cl hcl
  obtain rfl := Option.mem_unique hx hy
  exact suits

theorem unclaimed_of_free (hx : L.hand h = none) : L.Unclaimed h := by
  rintro c cl hcl rfl
  obtain ⟨y, hy, -⟩ := ok.waiting c cl hcl
  simp [hx] at hy

theorem idle_of_free (hx : L.hand h = none) : L.Idle h := by
  intro c g hg
  obtain ⟨⟨y, hy, -⟩, -, claimed⟩ := ok.grant c g hg
  refine ⟨fun e => ?_, fun e => ?_⟩
  · simp [e, hx] at hy
  · obtain ⟨z, hz, -⟩ := claimed fun same => by simp [same.trans e, hx] at hy
    simp [e, hx] at hz

/-- A record that is neither stored nor in a grant's state has no grant. -/
theorem idle_of_state (hx : L.hand h = some x)
    (state : x.state ≠ .landing ∧ x.state ≠ .lifting ∧ x.state ≠ .shifting ∧ x.state ≠ .stored) : L.Idle h := by
  intro c g hg
  obtain ⟨⟨y, hy, -, suits⟩, -, claimed⟩ := ok.grant c g hg
  have own : g.record ≠ h := by
    rintro rfl
    obtain rfl := Option.mem_unique hx hy
    have := Grant.state_of_suits suits
    tauto
  refine ⟨own, ?_⟩
  rintro rfl
  obtain ⟨z, hz, -, stored⟩ := claimed own
  obtain rfl := Option.mem_unique hx hz
  exact state.2.2.2 stored

/-- A stored record has a grant only at its column. -/
theorem idle_of_stored (hx : L.hand h = some x) (stored : x.state = .stored) (hc : x.column = some c)
    (free : (L.book c).grant = none) : L.Idle h := by
  intro d g hg
  obtain ⟨⟨y, hy, -, suits⟩, -, claimed⟩ := ok.grant d g hg
  have own : g.record ≠ h := by
    rintro rfl
    obtain rfl := Option.mem_unique hx hy
    have := Grant.state_of_suits suits
    simp [stored] at this
  refine ⟨own, ?_⟩
  rintro rfl
  obtain ⟨z, hz, hd, -⟩ := claimed own
  obtain rfl := Option.mem_unique hx hz
  obtain rfl : c = d := Option.some_inj.1 (hc.symm.trans hd)
  simp [free] at hg

/-- The record of a grant that ends is named by no other. -/
theorem idle_ungranted (hg : (L.book c).grant = some g) : (L.setGrant c none).Idle g.record := by
  obtain ⟨⟨x, hx, hc, suits⟩, -, -⟩ := ok.grant c g hg
  intro d g' hg'
  rw [Ledger.book_setGrant] at hg'
  split at hg'
  · cases hg'
  next ne =>
    obtain ⟨⟨y, hy, hd, -⟩, -, claimed⟩ := ok.grant d g' hg'
    have own : g'.record ≠ g.record := fun e => by
      rw [e] at hy
      obtain rfl := Option.mem_unique hx hy
      exact ne (Option.some_inj.1 (hd.symm.trans hc))
    refine ⟨own, fun e => ?_⟩
    obtain ⟨z, hz, -, stored⟩ := claimed (e ▸ own)
    rw [e] at hz
    obtain rfl := Option.mem_unique hx hz
    have := Grant.state_of_suits suits
    simp [stored] at this

/-- The claims for a record leave its column. -/
theorem shedHand (c : ColIx) (h : HNum) : (L.shed c h).Ok q fencing loose :=
  ok.shed c (f := fun m => m.filter fun cl => (cl.handover == h) = false) fun _ => Multiset.filter_le _ _

theorem unclaimed_shed (at_ : ∀ x ∈ L.hand h, x.column = some c) : (L.shed c h).Unclaimed h := by
  intro d cl hcl e
  rw [Ledger.book_shed] at hcl
  split at hcl
  · simp [e] at hcl
  next ne =>
    obtain ⟨x, hx, hd, -⟩ := ok.waiting d cl hcl
    exact ne (Option.some_inj.1 (hd.symm.trans (at_ x (e ▸ hx))))

/-- A column in which a record stands is neither UNKNOWN nor DISABLED. -/
theorem served (hx : L.hand h = some x) (stands : x.standsIn c ∨ x.inboundTo c) :
    (L.book c).state ≠ .unknown ∧ (L.book c).state ≠ .disabled := by
  refine not_or.1 fun hc => ?_
  obtain ⟨hs, hi, -⟩ := ok.empty c hc
  rcases stands with hp | hp
  · simpa [hs] using (ok.mem_stack hx).2 hp
  · simpa [hi] using (ok.mem_inbound hx).2 hp

end Ledger.Ok

theorem Ledger.Idle.shed (idle : L.Idle h) (c : ColIx) (i : HNum) : (L.shed c i).Idle h := fun d g hg => idle d g (by
  rw [Ledger.book_shed] at hg
  split at hg <;> exact hg)

/-! ### A record that ends -/

/-- The record waits for its ending notices alone. -/
def Handover.Ended (y : Handover) : Prop := y.state = .closing ∧ y.Fits

theorem Handover.Ended.nowhere (e : y.Ended) (c : ColIx) : ¬ y.standsIn c ∧ ¬ y.inboundTo c := by
  simp [Handover.standsIn, Handover.inboundTo, Handover.stacked, Handover.awaited, Handover.shifted, e.1]

theorem Handover.Ended.not_followed (e : y.Ended) (rb : Robot) : followedBy rb (some y) = false := by
  have holder : y.holder = none := by
    by_contra ne
    simpa [e.1] using e.2.carried (Option.isSome_iff_ne_none.2 ne)
  have follower : y.follower = none := by
    by_contra ne
    simpa [holder] using e.2.follower (Option.isSome_iff_ne_none.2 ne)
  simp [followedBy, follower]

/-- A record that has no claim and no grant ends. -/
theorem Ledger.Ok.retire (ok : L.Ok q fencing loose) (p : L.Puts h o L') (ended : ∀ y ∈ o, y.Ended)
    (unclaimed : L.Unclaimed h) (idle : L.Idle h) (loosen : ∀ i, i ≠ h → loose i → loose' i) :
    L'.Ok q fencing loose' := by
  refine p.ok ok (fun y hy => ?_) loosen (fun y hy hd => ?_) (fun c cl hcl e => (unclaimed c cl hcl e).elim)
    fun c g hg e => ?_
  · obtain ⟨nowhere, fits⟩ := And.intro (ended y hy).nowhere (ended y hy).2
    have state := (ended y hy).1
    refine ⟨fits, fun ne => (ne state).elim, fun c hp => (not_or.2 (nowhere c) hp).elim,
      fun c hp => (not_or.2 (nowhere c) hp).elim, fun c hp => ((nowhere c).2 hp).elim,
      fun hd => by simp [state] at hd, fun _ hg => by simp [state] at hg, fun rb hf => ?_⟩
    simp [(ended y hy).not_followed rb] at hf
  · simp [(ended y hy).1] at hd
  · exact (e.elim (idle c g hg).1 (idle c g hg).2).elim

/-! ### A record that goes on -/

/-- What a record in use becomes, and where: still the same bin and followed by no other robot, in a place that it had
or that has room. -/
structure Ledger.Follows (fencing : ColIx → Prop) (loose : HNum → Prop) (L : Ledger) (h : HNum) (x y : Handover) :
    Prop where
  fits : y.Fits
  inUse : x.state ≠ .closing
  bin : y.bin = x.bin
  follower : ∀ rb, followedBy rb (some y) = true → followedBy rb (some x) = true
  place : ∀ c, y.standsIn c ∨ y.inboundTo c → x.standsIn c ∨ x.inboundTo c ∨
    (L.book c).stack.length + (L.book c).inbound.card < (L.book c).depth ∧
      (L.book c).state ≠ .unknown ∧ (L.book c).state ≠ .disabled
  fenced : ∀ c, y.inboundTo c → ¬ fencing c → (L.book c).state ≠ .fenced ∨ y.state = .doubt
  doubt : y.state = .doubt → x.state = .doubt ∧ y.column = x.column
  granted : y.state = .landing ∨ y.state = .lifting ∨ y.state = .shifting → loose h ∨
    ∃ c, y.column = some c ∧ ∃ g ∈ (L.book c).grant, g.record = h

theorem Ledger.Follows.admits (f : L.Follows fencing loose' h x y) (ok : L.Ok q fencing loose) (hx : L.hand h = some x) :
    L.Admits q fencing loose' h y where
  fits := f.fits
  bins _ i hi z hz hzc e := hi (ok.bins i h z hz x hx hzc f.inUse (e.symm.trans f.bin))
  room c hp := by
    rcases f.place c hp with hs | hi | ⟨room, -⟩
    · exact .inl ((ok.mem_stack hx).2 hs)
    · exact .inr (.inl ((ok.mem_inbound hx).2 hi))
    · exact .inr (.inr room)
  served c hp := by
    rcases f.place c hp with hs | hi | ⟨-, served⟩
    · exact ok.served hx (.inl hs)
    · exact ok.served hx (.inr hi)
    · exact served
  fenced c hp hf hc := (f.fenced c hp hf).resolve_left (not_not.2 hc)
  doubt hd c hc := by
    obtain ⟨state, col⟩ := f.doubt hd
    obtain ⟨fenced, -, alone⟩ := ok.doubt h x hx state c (col ▸ hc)
    exact ⟨fenced, fun i hi z hz hzd hzc => hi (alone i z hz hzd hzc)⟩
  granted hl hs := (f.granted hs).resolve_left hl
  follower rb hf := .inl (by rw [hx]; exact f.follower rb hf)

/-- A record that is not in DOUBT goes on, as its claims and grants need it. -/
theorem Ledger.Ok.proceed (ok : L.Ok q fencing loose) (hx : L.hand h = some x) (p : L.Puts h (some y) L')
    (f : L.Follows fencing loose' h x y) (calm : y.state ≠ .doubt) (loosen : ∀ i, i ≠ h → loose i → loose' i)
    (waiting : ∀ c, ∀ cl ∈ (L.book c).waits, cl.handover = h → y.column = some c ∧ cl.suits y = true)
    (grants : ∀ c, ∀ g ∈ (L.book c).grant, g.record = h ∨ g.claim.handover = h → L'.Backs c g) :
    L'.Ok q fencing loose' :=
  p.ok ok (fun z hz => by cases hz; exact f.admits ok hx) loosen (fun z hz hd => by cases hz; exact (calm hd).elim)
    (fun c cl hcl e => ⟨y, rfl, waiting c cl hcl e⟩) grants

/-! ### The puts -/

namespace Ledger.Ok

variable (ok : L.Ok q fencing loose)
include ok

theorem moves (h : HNum) : L.Moves h L := .refl ok.once

variable (hx : L.hand h = some x)
include hx

/-- The record stays where it stands. -/
theorem puts_inPlace (stands : ∀ c, y.standsIn c ↔ x.standsIn c) (inbound : ∀ c, y.inboundTo c ↔ x.inboundTo c) :
    L.Puts h (some y) (L.setHand h (some y)) :=
  ((ok.moves h).setHand _).puts (by simp) (fun c => by simp [ok.mem_stack hx, stands])
    fun c => by simp [ok.mem_inbound hx, inbound]

/-- The record leaves an inbound set and joins another. -/
theorem puts_across (stands : ∀ e, y.standsIn e ↔ x.standsIn e) (inbound : ∀ e, x.inboundTo e → e = c)
    (into : ∀ e, y.inboundTo e ↔ e = d) : L.Puts h (some y) (((L.erase c h).insert d h).setHand h (some y)) :=
  ((((ok.moves h).erase c).insert d).setHand _).puts (by simp) (fun e => by simp [ok.mem_stack hx, stands])
    fun e => by
      simp only [Ledger.book_setHand, Ledger.mem_insert, Ledger.mem_erase, ok.mem_inbound hx, Option.mem_some_iff,
        exists_eq_left', into]
      exact or_iff_left fun hp => hp.1 (inbound e hp.2)

/-- The record leaves an inbound set. -/
theorem puts_out (stands : ∀ e, (∃ y ∈ o, y.standsIn e) ↔ x.standsIn e) (inbound : ∀ e, x.inboundTo e → e = c)
    (out : ∀ y ∈ o, ∀ e, ¬ y.inboundTo e) : L.Puts h o ((L.erase c h).setHand h o) :=
  (((ok.moves h).erase c).setHand _).puts (by simp)
    (fun e => by rw [Ledger.book_setHand, Ledger.stack_erase, ok.mem_stack hx, stands])
    fun e => by
      simp only [Ledger.book_setHand, Ledger.mem_erase, ok.mem_inbound hx]
      exact ⟨fun hp => (hp.1 (inbound e hp.2)).elim, fun ⟨y, hy, hp⟩ => (out y hy e hp).elim⟩

/-- The record goes from an inbound set to the top of the same column's stack. -/
theorem puts_landed (free : L.TopFree h c) (stands : ∀ e, ¬ x.standsIn e) (inbound : ∀ e, x.inboundTo e → e = c)
    (onTop : ∀ e, y.standsIn e ↔ e = c) (out : ∀ e, ¬ y.inboundTo e) :
    L.Puts h (some y) (((L.erase c h).push c h).setHand h (some y)) := by
  have absent : h ∉ ((L.erase c h).book c).stack := by
    rw [Ledger.stack_erase, ok.mem_stack hx]
    exact stands c
  refine ((((ok.moves h).erase c).push absent free).setHand _).puts (by simp) (fun e => ?_) fun e => ?_
  · simp only [Ledger.book_setHand, Ledger.mem_push, Ledger.stack_erase, ok.mem_stack hx, Option.mem_some_iff,
      exists_eq_left', onTop]
    exact or_iff_left (stands e)
  · simp only [Ledger.book_setHand, Ledger.inbound_push, Ledger.mem_erase, ok.mem_inbound hx, Option.mem_some_iff,
      exists_eq_left']
    exact ⟨fun hp => (hp.1 (inbound e hp.2)).elim, fun hp => (out e hp).elim⟩

end Ledger.Ok

end Sys2Proof.Machine
end

