-- ==== Sys2Proof/Proofs/AccountOfRecordStates.lean ====
section
/-! What a record that fits its state has and where it stands, state by state; and the ledger of an ending (O57). -/
namespace Sys2Proof.Machine

variable {q : Claim → Bool} {fencing : ColIx → Prop} {loose loose' : HNum → Prop} {L L' : Ledger} {h : HNum}
  {x y : Handover} {c d : ColIx} {g : Grant}

/-! ### The fields of a record in its state -/

namespace Handover.Fits

variable (fits : x.Fits)
include fits

theorem doubt_eq_none (hs : x.state ≠ .doubt) : x.doubt = none :=
  Option.not_isSome_iff_eq_none.1 fun h => hs (fits.doubt.1 h)

theorem closing_eq_none (hs : x.state ≠ .closing) : x.closing = none :=
  Option.not_isSome_iff_eq_none.1 fun h => hs (fits.closing.1 h)

theorem timer_eq_none (hs : x.state ≠ .booked) : x.bookingTimer = none :=
  Option.not_isSome_iff_eq_none.1 fun h => hs (fits.booking.1 h)

theorem target_eq_none (hs : x.shifted = false) : x.target = none :=
  Option.not_isSome_iff_eq_none.1 fun h => by simp [(fits.target h).1] at hs

theorem holder_eq_none (hs : x.state ≠ .moving ∧ x.state ≠ .landing ∧ x.state ≠ .doubt) : x.holder = none :=
  Option.not_isSome_iff_eq_none.1 fun h => by have := fits.carried h; tauto

theorem follower_eq_none (hh : x.holder = none) : x.follower = none :=
  Option.not_isSome_iff_eq_none.1 fun h => by simpa [hh] using fits.follower h

theorem column_isSome (hs : x.state ≠ .closing) : ∃ c, x.column = some c := Option.isSome_iff_exists.1 (fits.column.2 hs)

end Handover.Fits

/-! ### Where it stands -/

/-- The states in which a record stands in a stack. -/
theorem Handover.stacked_eq (x : Handover) : x.stacked = (x.state == .stored || x.state == .lifting ||
    x.state == .shifting || (x.state == .doubt && x.doubt.any fun d => d.op == .lift || d.op == .shift)) := by
  unfold Handover.stacked
  cases x.state <;> cases x.doubt <;> simp

theorem Handover.awaited_eq (x : Handover) : x.awaited = (x.state == .booked || x.state == .landing ||
    x.state == .moving || (x.state == .doubt && x.doubt.any fun d => d.op == .deposit || d.op == .holding)) := by
  unfold Handover.awaited
  cases x.state <;> cases x.doubt <;> simp

theorem Handover.shifted_eq (x : Handover) : x.shifted =
    (x.state == .shifting || (x.state == .doubt && x.doubt.any fun d => d.op == .shift)) := by
  unfold Handover.shifted
  cases x.state <;> cases x.doubt <;> simp

/-- A record that is booked, landing or moving. -/
def Handover.Coming (x : Handover) : Prop := x.state = .booked ∨ x.state = .landing ∨ x.state = .moving

theorem Handover.Coming.awaited (hx : x.Coming) : x.awaited = true := by
  rcases hx with e | e | e <;> simp [Handover.awaited_eq, e]

theorem Handover.Coming.stacked (hx : x.Coming) : x.stacked = false := Handover.not_stacked_of_awaited hx.awaited

theorem Handover.Coming.shifted (hx : x.Coming) : x.shifted = false := by
  rcases hx with e | e | e <;> simp [Handover.shifted_eq, e]

theorem Handover.Coming.standsIn (hx : x.Coming) (c : ColIx) : ¬ x.standsIn c := by
  simp [Handover.standsIn, hx.stacked]

theorem Handover.Coming.inboundTo (hx : x.Coming) : x.inboundTo c ↔ x.column = some c := by
  simp [Handover.inboundTo, hx.awaited, hx.shifted]

theorem Handover.standsIn_of_stored (hx : x.state = .stored) : x.standsIn c ↔ x.column = some c := by
  simp [Handover.standsIn, Handover.stacked_eq, hx]

theorem Handover.not_inboundTo_of_stored (hx : x.state = .stored) : ¬ x.inboundTo c := by
  simp [Handover.inboundTo, Handover.awaited_eq, Handover.shifted_eq, hx]

theorem Handover.standsIn_of_shifting (hx : x.state = .shifting) : x.standsIn c ↔ x.column = some c := by
  simp [Handover.standsIn, Handover.stacked_eq, hx]

theorem Handover.inboundTo_of_shifting (hx : x.state = .shifting) : x.inboundTo c ↔ x.target = some c := by
  simp [Handover.inboundTo, Handover.awaited_eq, Handover.shifted_eq, hx]

@[simp] theorem Handover.entry_standsIn : x.entry.standsIn c ↔ x.standsIn c := .rfl
@[simp] theorem Handover.entry_inboundTo : x.entry.inboundTo c ↔ x.inboundTo c := .rfl

theorem Handover.followedBy_entry (rb : Robot) :
    followedBy rb (some x.entry) = x.follower.any fun f => f.robot == rb := x.entry_follower rb

/-! ### The state's records in its ledger -/

theorem State.ledger_hand {s : State} (hx : s.hand h = some x) : s.ledger.hand h = some x.entry := by
  simp [State.ledger, hx]

theorem State.ledger_hand_none {s : State} (hx : s.hand h = none) : s.ledger.hand h = none := by
  simp [State.ledger, hx]

theorem Ledger.Ok.fits_hand {s : State} {e : Option ColIx} (ok : (s.ledger.without e).Ok q fencing loose)
    (hx : s.hand h = some x) : x.Fits :=
  x.fits_entry.1 (ok.fits h x.entry (by rw [Ledger.hand_without]; exact State.ledger_hand hx))

/-- A column that admits a record: in service, with free room. -/
def Ledger.Takes (L : Ledger) (c : ColIx) : Prop :=
  (L.book c).stack.length + (L.book c).inbound.card < (L.book c).depth ∧
    ((L.book c).state = .opened ∨ (L.book c).state = .granted ∨ (L.book c).state = .settling)

theorem State.ledger_takes {s : State} (service : (s.col c).inService = true) (room : 1 ≤ (s.col c).freeRoom) :
    s.ledger.Takes c := by
  refine ⟨?_, Column.inService_iff.1 service⟩
  have card : (s.ledger.book c).inbound.card ≤ (s.col c).inbound.length := List.toFinset_card_le _
  have depth : (s.ledger.book c).depth = (s.col c).cfg.depth := rfl
  have stack : (s.ledger.book c).stack = (s.col c).stack := rfl
  unfold Column.freeRoom at room
  rw [depth, stack]
  omega

theorem Ledger.Takes.place (t : L.Takes c) : (L.book c).stack.length + (L.book c).inbound.card < (L.book c).depth ∧
    (L.book c).state ≠ .unknown ∧ (L.book c).state ≠ .disabled := by
  refine ⟨t.1, ?_⟩
  rcases t.2 with e | e | e <;> simp [e]

theorem Ledger.Takes.not_fenced (t : L.Takes c) : (L.book c).state ≠ .fenced := by
  rcases t.2 with e | e | e <;> simp [e]

theorem Ledger.Takes.without (t : L.Takes c) (e : Option ColIx) : (L.without e).Takes c := by
  simpa [Ledger.Takes] using t

theorem State.takes_of_bookingSet {s : State} {p : Port} {r : Region} (hd : d ∈ s.bookingSet p r) : s.ledger.Takes d := by
  simp only [State.bookingSet, List.mem_filter, Bool.and_eq_true, decide_eq_true_eq] at hd
  exact State.ledger_takes hd.2.1.1.1 hd.2.2

theorem State.takes_of_movingSet {s : State} {p r : Region} (hd : d ∈ s.movingSet p r) :
    s.ledger.Takes d ∧ (s.ledger.book d).waits.card < 6 := by
  simp only [State.movingSet, List.mem_filter, Bool.and_eq_true, decide_eq_true_eq] at hd
  exact ⟨State.ledger_takes hd.2.1.1.1.1 hd.2.1.2, (State.ledger_waits_card d).trans_lt hd.2.2⟩

theorem State.takes_of_digTarget {s : State} {p : Region} (hd : s.digTarget x p c = some d) :
    s.ledger.Takes d ∧ (s.ledger.book d).waits.card < 6 ∧ d ≠ c := by
  have mem := State.mem_of_best hd
  simp only [State.digSet, List.mem_filter, Bool.and_eq_true, decide_eq_true_eq, bne_iff_ne] at mem
  exact ⟨State.ledger_takes mem.2.1.1.1.1.1 mem.2.1.2, (State.ledger_waits_card d).trans_lt mem.2.2,
    mem.2.1.1.1.1.2⟩

/-! ### Endings -/

/-- A record that is closed becomes FREE or waits for its ending notices; nothing else in the ledger changes. -/
theorem Work.ledger_close {w : Work} (hx : w.st.hand h = some x) (reason : Reason) (ports : RegionSet) (n : Notice) :
    ∃ o, (w.close h reason ports n).st.ledger = w.st.ledger.setHand h o ∧ ∀ y ∈ o, y.Ended := by
  have twice (s : State) (a b : Option Handover) : (s.ledger.setHand h a).setHand h b = s.ledger.setHand h b := by
    refine Ledger.ext (funext fun i => ?_) rfl
    simp only [Ledger.hand_setHand]
    split <;> rfl
  unfold Work.close
  extract_lets waiting w₁
  have ledger₁ : w₁.st.ledger = w.st.ledger.setHand h (some ({ x with
      state := .closing, closing := some ⟨reason, waiting⟩ } : Handover).entry) := Work.ledger_change hx _
  obtain ⟨z, hz, closing⟩ : ∃ z, w₁.st.hand h = some z ∧ z.entry = ({ x with
      state := .closing, closing := some ⟨reason, waiting⟩ } : Handover).entry :=
    State.mem_ledger_hand.1 (by rw [ledger₁]; simp)
  split
  · refine ⟨none, ?_, fun y hy => by cases hy⟩
    rw [Work.up_st, State.ledger_setHand, ledger₁, twice]
    rfl
  · refine ⟨some z.closed.entry, ?_, fun y hy => ?_⟩
    · rw [Work.up_st, State.ledger_postAll, State.ledger_modHand hz, ledger₁, twice]
    · cases hy
      have state : z.state = .closing := by rw [← z.entry_state, closing]; rfl
      have reason : z.closing.isSome = true := by
        have := congrArg (fun y : Handover => y.closing.isSome) closing
        simpa [Handover.entry] using this
      refine ⟨state, Handover.fits_entry _ |>.2 ?_⟩
      constructor <;> simp [Handover.closed, state, reason]

theorem Work.ledger_withdraw {w : Work} (hx : w.st.hand h = some x) (cause : Byte) :
    ∃ o, (w.withdraw h cause).st.ledger = w.st.ledger.setHand h o ∧ ∀ y ∈ o, y.Ended := by
  rw [Work.withdraw_eq hx]
  exact Work.ledger_close hx ..

theorem Work.ledger_handBack {w : Work} (hx : w.st.hand h = some x) (c : ColIx) (rb : Robot) :
    ∃ o, (w.handBack h c rb).st.ledger = w.st.ledger.setHand h o ∧ ∀ y ∈ o, y.Ended := by
  rw [Work.handBack_eq hx, Work.up_st, State.captureColumn, State.ledger_capture]
  exact Work.ledger_close hx ..

end Sys2Proof.Machine
end

