-- ==== Sys2Proof/Proofs/AccountOfFencing.lean ====
section
/-! What the re-placements of a fenced column's records do to the account (O57). -/
namespace Sys2Proof.Machine

variable {q : Claim → Bool} {fencing : ColIx → Prop} {loose loose' : HNum → Prop} {L L' L'' : Ledger} {h : HNum}
  {x y : Handover} {c d : ColIx} {g : Grant} {e : Option ColIx} {w : Work}

/-- A record that names another column. -/
def Handover.goneTo (x : Handover) (d : ColIx) : Handover := { x with column := some d }

@[simp] theorem Handover.state_goneTo (x : Handover) (d : ColIx) : (x.goneTo d).state = x.state := rfl
@[simp] theorem Handover.target_goneTo (x : Handover) (d : ColIx) : (x.goneTo d).target = x.target := rfl
@[simp] theorem Handover.column_goneTo (x : Handover) (d : ColIx) : (x.goneTo d).column = some d := rfl

/-! ### A record leaves a column -/

/-- Records that are gone have left column `c` with their claims; the other records and the grants are as they were. -/
structure Ledger.Clears (c : ColIx) (gone : HNum → Prop) (L L' : Ledger) : Prop where
  inbound : ∀ i, i ∈ (L'.book c).inbound ↔ i ∈ (L.book c).inbound ∧ ¬ gone i
  waits : ∀ cl, cl ∈ (L'.book c).waits ↔ cl ∈ (L.book c).waits ∧ ¬ gone cl.handover
  other : ∀ i, ¬ gone i → L'.hand i = L.hand i
  state : ∀ d, (L'.book d).state = (L.book d).state
  grant : ∀ d, (L'.book d).grant = (L.book d).grant

theorem Ledger.shed_of_unclaimed (unclaimed : L.Unclaimed h) : L.shed c h = L :=
  Ledger.modBook_self (by
    have all : ((L.book c).waits.filter fun cl => (cl.handover == h) = false) = (L.book c).waits :=
      Multiset.filter_eq_self.2 fun cl hcl => by simpa using unclaimed c cl hcl
    rw [all])

/-- The record goes from the column to another. -/
theorem Ledger.clears_across (L : Ledger) (y : Option Handover) (ne : d ≠ c) :
    L.Clears c (· = h) ((((L.shed c h).erase c h).insert d h).setHand h y) where
  inbound i := by simp [Ledger.book_insert, Ledger.book_erase, Ledger.book_shed, ne.symm, and_comm]
  waits cl := by simp [Ledger.book_insert, Ledger.book_erase, Ledger.book_shed, ne.symm]
  other i hi := by simp [hi]
  state d := by simp only [Ledger.book_setHand, Ledger.book_insert, Ledger.book_erase, Ledger.book_shed]; split <;> split <;> rfl
  grant d := by simp only [Ledger.book_setHand, Ledger.book_insert, Ledger.book_erase, Ledger.book_shed]; split <;> split <;> rfl

/-- The record leaves the column. -/
theorem Ledger.clears_out (L : Ledger) (y : Option Handover) :
    L.Clears c (· = h) (((L.shed c h).erase c h).setHand h y) where
  inbound i := by simp [Ledger.book_erase, Ledger.book_shed, and_comm]
  waits cl := by simp [Ledger.book_erase, Ledger.book_shed]
  other i hi := by simp [hi]
  state d := by simp only [Ledger.book_setHand, Ledger.book_erase, Ledger.book_shed]; split <;> rfl
  grant d := by simp only [Ledger.book_setHand, Ledger.book_erase, Ledger.book_shed]; split <;> rfl

/-- A claim that joins another column's list changes nothing for this one. -/
theorem Ledger.Clears.join {gone : HNum → Prop} (k : L.Clears c gone L') (ne : d ≠ c) (cl : Claim) :
    L.Clears c gone (L'.join d cl) where
  inbound i := by rw [Ledger.book_join, if_neg ne.symm, k.inbound]
  waits i := by rw [Ledger.book_join, if_neg ne.symm, k.waits]
  other := k.other
  state i := by rw [Ledger.book_join, ← k.state i]; split <;> rfl
  grant i := by rw [Ledger.book_join, ← k.grant i]; split <;> rfl

/-! ### A record that comes to another column -/

/-- A booked or moving record goes to a column that takes it. -/
theorem Ledger.Ok.goAcross (ok : L.Ok q fencing loose) (hx : L.hand h = some x.entry)
    (coming : x.state = .booked ∨ x.state = .moving) (hc : x.column = some c) (takes : L.Takes d)
    (unclaimed : L.Unclaimed h) :
    (((L.erase c h).insert d h).setHand h (some (x.goneTo d).entry)).Ok q fencing loose := by
  have fits := x.fits_entry.1 (ok.fits h x.entry hx)
  have hcx : x.entry.Coming := coming.elim .inl fun e => .inr (.inr e)
  have hcy : (x.goneTo d).entry.Coming := hcx
  have calm : x.state ≠ .doubt ∧ x.state ≠ .closing := by rcases coming with s | s <;> simp [s]
  have idle : L.Idle h := ok.idle_of_state hx (by rcases coming with s | s <;> simp [s])
  have target : x.target = none := fits.target_eq_none hcx.shifted
  refine ok.proceed hx (ok.puts_across hx (fun e => iff_of_false (hcy.standsIn e) (hcx.standsIn e))
    (fun e he => ?_) fun e => ?_) ⟨?_, calm.2, rfl, fun rb => ?_, fun e he => ?_, fun e he _ => ?_, ?_, ?_⟩ calm.1
    (fun _ _ => id) (fun e cl hcl h => (unclaimed e cl hcl h).elim) fun e g hg h => (h.elim (idle e g hg).1 (idle e g hg).2).elim
  · exact Option.some_inj.1 ((hcx.inboundTo.1 he).symm.trans hc)
  · rw [hcy.inboundTo]
    exact Option.some_inj.trans eq_comm
  · rw [Handover.fits_entry]
    exact { fits with
      column := iff_of_true rfl calm.2
      target := fun h => by simp [target] at h }
  · exact id
  · right; right
    obtain rfl : d = e := by simpa [hcy.standsIn e, hcy.inboundTo] using he
    exact takes.place
  · left
    obtain rfl : d = e := by simpa [hcy.inboundTo] using he
    exact takes.not_fenced
  · exact fun hd => (calm.1 hd).elim
  · exact fun hl => by rcases coming with s | s <;> simp [s] at hl

/-- A booked or moving record leaves its column and ends. -/
theorem Ledger.Ok.goOut {o : Option Handover} (ok : L.Ok q fencing loose) (hx : L.hand h = some x.entry)
    (coming : x.Coming) (hc : x.column = some c) (ended : ∀ y ∈ o, y.Ended)
    (unclaimed : L.Unclaimed h) (idle : L.Idle h) (loosen : ∀ i, i ≠ h → loose i → loose' i) :
    ((L.erase c h).setHand h o).Ok q fencing loose' := by
  have hcx : x.entry.Coming := coming
  refine ok.retire (ok.puts_out hx (fun e => iff_of_false ?_ (hcx.standsIn e)) (fun e he => ?_) fun y hy e => ?_)
    ended unclaimed idle loosen
  · rintro ⟨y, hy, hp⟩
    exact ((ended y hy).nowhere e).1 hp
  · exact Option.some_inj.1 ((hcx.inboundTo.1 he).symm.trans hc)
  · exact ((ended y hy).nowhere e).2

/-! ### Re-placements -/

/-- A BOOKED record without a claim is re-placed (R29). -/
theorem Work.replaceBooked_ok (ok : w.st.ledger.Ok q fencing loose) (hx : w.st.hand h = some x)
    (booked : x.state = .booked) (hc : x.column = some c) (fenced : (w.st.ledger.book c).state = .fenced)
    (unclaimed : w.st.ledger.Unclaimed h) :
    (w.replaceBooked c h).st.ledger.Ok q fencing loose ∧ w.st.ledger.Clears c (· = h) (w.replaceBooked c h).st.ledger := by
  have hL := State.ledger_hand hx
  have noShed := Ledger.shed_of_unclaimed (c := c) unclaimed
  cases best : w.st.best x.due x.cls (w.st.bookingSet x.origin x.dest) with
  | some d =>
    have takes := State.takes_of_bookingSet (State.mem_of_best best)
    have ne : d ≠ c := fun e => takes.not_fenced (e ▸ fenced)
    have ledger : (w.replaceBooked c h).st.ledger =
        ((w.st.ledger.erase c h).insert d h).setHand h (some (x.goneTo d).entry) := by
      unfold Work.replaceBooked
      simp only [hx, best]
      rw [Work.up_st, State.ledger_post, Work.ledger_change (x := x) (by simpa [State.joinInbound, Work.leaveInbound_eq] using hx), Work.up_st,
        State.ledger_joinInbound, Work.ledger_leaveInbound]
      rfl
    rw [ledger]
    refine ⟨ok.goAcross hL (.inl booked) hc takes unclaimed, ?_⟩
    have clears := w.st.ledger.clears_across (h := h) (some (x.goneTo d).entry) ne
    rwa [noShed] at clears
  | none =>
    obtain ⟨o, ledger, ended⟩ := Work.ledger_withdraw (w := w.leaveInbound c h) (x := x)
      (by simpa [Work.leaveInbound_eq] using hx) withdrawnFenced
    have ledger : (w.replaceBooked c h).st.ledger = (w.st.ledger.erase c h).setHand h o := by
      unfold Work.replaceBooked
      simp only [hx, best]
      rw [ledger, Work.ledger_leaveInbound]
      rfl
    rw [ledger]
    refine ⟨ok.goOut hL (.inl booked) hc ended unclaimed (ok.idle_of_state hL (by simp [booked])) fun _ _ => id, ?_⟩
    have clears := w.st.ledger.clears_out (c := c) (h := h) o
    rwa [noShed] at clears

/-! ### A claim that goes with its record -/

theorem Ledger.count_shed {cl : Claim} (hcl : cl ∈ (L.book c).waits) (hh : cl.handover = h) {p : Claim → Bool}
    (hp : p cl = true) : (L.shed c h).count p + 1 ≤ L.count p := by
  have sum := L.count_modBook c (fun b => { b with waits := b.waits.filter fun cl => (cl.handover == h) = false }) p
  have split := Multiset.filter_add_not (fun cl : Claim => (cl.handover == h) = false) (L.book c).waits
  have gone : cl ∈ (L.book c).waits.filter fun cl => ¬ (cl.handover == h) = false :=
    Multiset.mem_filter.2 ⟨hcl, by simp [hh]⟩
  have one : 0 < ((L.book c).waits.filter fun cl => ¬ (cl.handover == h) = false).countP (p · = true) :=
    Multiset.countP_pos.2 ⟨cl, gone, hp⟩
  have parts := congrArg (Multiset.countP (p · = true)) split
  rw [Multiset.countP_add] at parts
  simp only [Books.claims, Multiset.countP_add] at sum
  unfold Ledger.shed
  omega

theorem Ledger.count_shed_le (L : Ledger) (c : ColIx) (h : HNum) (p : Claim → Bool) : (L.shed c h).count p ≤ L.count p := by
  have sum := L.count_modBook c (fun b => { b with waits := b.waits.filter fun cl => (cl.handover == h) = false }) p
  have part := Multiset.countP_le_of_le (p · = true)
    (Multiset.filter_le (fun cl : Claim => (cl.handover == h) = false) (L.book c).waits)
  simp only [Books.claims, Multiset.countP_add] at sum
  unfold Ledger.shed
  omega

/-- A HOLDING claim joins at the column of its record, which is moving. -/
theorem Ledger.Ok.joinHolding (ok : L.Ok q fencing loose) {cl : Claim} (kind : cl.kind = .holding)
    (hx : L.hand cl.handover = some x) (hc : x.column = some d) (moving : x.state = .moving)
    (holder : x.holder = some cl.robot) (room : (L.book d).waits.card < 6)
    (fenced : (L.book d).state = .fenced → fencing d) (unclaimed : L.Unclaimed cl.handover)
    (robot : q cl = true → L.count (fun k => q k && k.robot == cl.robot) + L.followersOf cl.robot = 0) :
    (L.join d cl).Ok q fencing loose :=
  ok.join room (fun hr => by simp [Claim.isRegion, kind] at hr)
    (ok.served hx (.inr ((Handover.Coming.inboundTo (.inr (.inr moving))).2 hc))) fenced
    ⟨x, hx, hc, by simp [Claim.suits, kind, moving, holder]⟩
    (Ledger.count_handover_eq_zero unclaimed (ok.idle_of_state hx (by simp [moving]))) robot

theorem Work.ledger_leaveHand (w : Work) (c : ColIx) (h : HNum) :
    (w.leave c fun cl => cl.handover == h).st.ledger = w.st.ledger.shed c h :=
  w.ledger_leave c (e := fun cl => cl.handover == h) fun _ _ => rfl

theorem Ledger.erase_shed (L : Ledger) (c : ColIx) (h : HNum) : (L.erase c h).shed c h = (L.shed c h).erase c h :=
  Ledger.modBook_comm fun _ => rfl

/-- The claims for a moving record are its holder's. -/
theorem Ledger.Ok.holding_of_wait (ok : L.Ok q fencing loose) (hx : L.hand h = some x) (moving : x.state = .moving)
    {cl : Claim} (hcl : cl ∈ (L.book c).waits) (hh : cl.handover = h) :
    cl.kind = .holding ∧ x.holder = some cl.robot := by
  subst hh
  have suits := (ok.column_of_wait hcl hx).2
  unfold Claim.suits at suits
  split at suits <;> simp_all

/-- A claim that has left a list with its record is its robot's no more. -/
theorem Ledger.Ok.robot_of_shed (ok : L.Ok q fencing loose) {cl : Claim} (hcl : cl ∈ (L.book c).waits)
    (hh : cl.handover = h) (hq : q cl = true) :
    (L.shed c h).count (fun k => q k && k.robot == cl.robot) + L.followersOf cl.robot = 0 := by
  have one := ok.robots cl.robot
  have less := Ledger.count_shed hcl hh (p := fun k => q k && k.robot == cl.robot) (by simp [hq])
  omega

/-- A moving record goes across with its HOLDING claim. -/
theorem Ledger.Ok.carry (ok : L.Ok q fencing loose) (hx : L.hand h = some x.entry) (moving : x.state = .moving)
    (hc : x.column = some c) (ne : d ≠ c) (takes : L.Takes d) (room : (L.book d).waits.card < 6) {cl : Claim}
    (hcl : cl ∈ (L.book c).waits) (hh : cl.handover = h) :
    (((((L.shed c h).erase c h).insert d h).setHand h (some (x.goneTo d).entry)).join d cl).Ok q fencing loose := by
  have book : (L.shed c h).book d = L.book d := by rw [Ledger.book_shed, if_neg ne]
  have left := ok.shedHand c h
  have unclaimed : (L.shed c h).Unclaimed h :=
    ok.unclaimed_shed fun y hy => by obtain rfl := Option.mem_unique hx hy; exact hc
  obtain ⟨kind, holder⟩ := ok.holding_of_wait hx moving hcl hh
  have across := left.goAcross hx (.inr moving) hc (d := d) (by unfold Ledger.Takes; rwa [book]) unclaimed
  refine across.joinHolding (x := (x.goneTo d).entry) kind (by simp [hh]) rfl moving holder ?_ ?_ ?_ fun hq => ?_
  · simpa [Ledger.book_insert, Ledger.book_erase, ne, book] using room
  · intro hf
    exact absurd hf (by simpa [Ledger.book_insert, Ledger.book_erase, ne, book] using takes.not_fenced)
  · intro i k hk
    refine hh ▸ unclaimed i k ?_
    simp only [Ledger.book_setHand, Ledger.book_insert, Ledger.book_erase] at hk
    split at hk <;> split at hk <;> exact hk
  · rw [Ledger.followersOf_setHand_same (by simp [hx, Handover.followedBy_entry, Handover.goneTo])]
    simpa using ok.robot_of_shed hcl hh hq

/-- A moving record without a claim that waits. -/
theorem Work.ledger_movedAcross (hx : w.st.hand h = some x) : ((((w.leaveInbound c h).leave c fun cl =>
    cl.handover == h).up (·.joinInbound d h)).change h fun r => { r with column := some d }).st.ledger =
      (((w.st.ledger.shed c h).erase c h).insert d h).setHand h (some (x.goneTo d).entry) := by
  rw [Work.ledger_change (x := x) (by simpa [State.joinInbound, Work.leaveInbound_eq] using hx), Work.up_st,
    State.ledger_joinInbound, Work.ledger_leaveHand, Work.ledger_leaveInbound]
  exact congrArg (fun L : Ledger => (L.insert d h).setHand h _) (Ledger.erase_shed ..)

/-- A MOVING record goes with its HOLDING claim to another column, or is handed back (R30). -/
theorem Work.replaceMoving_ok (ok : (w.st.ledger.without e).Ok q fencing loose) (hx : w.st.hand h = some x)
    (moving : x.state = .moving) (hc : x.column = some c) (fenced : (w.st.ledger.book c).state = .fenced) :
    ((w.replaceMoving c h).st.ledger.without e).Ok q fencing loose ∧
      (w.st.ledger.without e).Clears c (· = h) ((w.replaceMoving c h).st.ledger.without e) := by
  have hL : (w.st.ledger.without e).hand h = some x.entry := by rw [Ledger.hand_without, State.ledger_hand hx]
  obtain ⟨rb, holder⟩ := Option.isSome_iff_exists.1 ((ok.fits_hand hx).moving moving)
  have left := ok.shedHand c h
  have unclaimed : ((w.st.ledger.without e).shed c h).Unclaimed h :=
    ok.unclaimed_shed fun y hy => by obtain rfl := Option.mem_unique hL hy; exact hc
  cases best : w.st.best x.due x.cls (w.st.movingSet rb.port x.dest) with
  | none =>
    obtain ⟨o, ledger, ended⟩ := Work.ledger_handBack (w := (w.leave c fun cl => cl.handover == h).leaveInbound c h)
      (x := x) (h := h) (by simpa [Work.leaveInbound_eq] using hx) c rb
    have ledger : (w.replaceMoving c h).st.ledger = ((w.st.ledger.shed c h).erase c h).setHand h o := by
      unfold Work.replaceMoving
      simp only [hx, holder, best]
      rw [ledger, Work.ledger_leaveInbound, Work.ledger_leaveHand]
      rfl
    rw [ledger, Ledger.without_setHand, Ledger.without_erase, Ledger.without_shed]
    exact ⟨left.goOut hL (.inr (.inr moving)) hc ended unclaimed (left.idle_of_state hL (by simp [moving])) fun _ _ => id,
      Ledger.clears_out _ _⟩
  | some d =>
    obtain ⟨takes, room⟩ := State.takes_of_movingSet (State.mem_of_best best)
    have ne : d ≠ c := fun e => takes.not_fenced (e ▸ fenced)
    have clears := (w.st.ledger.without e).clears_across (h := h) (some (x.goneTo d).entry) ne
    cases hf : (w.st.col c).waitList.find? fun cl => cl.handover == h with
    | none =>
      have ledger : (w.replaceMoving c h).st.ledger =
          (((w.st.ledger.shed c h).erase c h).insert d h).setHand h (some (x.goneTo d).entry) := by
        rw [← Work.ledger_movedAcross hx]
        simp only [Work.replaceMoving, hx, holder, best, hf]
      rw [ledger, Ledger.without_setHand, Ledger.without_insert, Ledger.without_erase, Ledger.without_shed]
      refine ⟨left.goAcross hL (.inr moving) hc ?_ unclaimed, clears⟩
      unfold Ledger.Takes
      rw [Ledger.book_shed, if_neg ne]
      exact takes.without e
    | some cl =>
      have hh : cl.entry.handover = h := by simpa using List.find?_some hf
      have mem : cl.entry ∈ ((w.st.ledger.without e).book c).waits := by
        rw [Ledger.waits_without]
        exact List.mem_map_of_mem (List.mem_of_find?_eq_some hf)
      have ledger : (w.replaceMoving c h).st.ledger =
          ((((w.st.ledger.shed c h).erase c h).insert d h).setHand h (some (x.goneTo d).entry)).join d cl.entry := by
        rw [← Work.ledger_movedAcross hx]
        simp only [Work.replaceMoving, hx, holder, best, hf]
        exact Work.ledger_join ..
      rw [ledger, Ledger.without_join, Ledger.without_setHand, Ledger.without_insert, Ledger.without_erase,
        Ledger.without_shed]
      exact ⟨ok.carry hL moving hc ne (takes.without e) (by simpa using room) mem hh, clears.join ne _⟩

end Sys2Proof.Machine
end

