-- ==== Sys2Proof/Proofs/AccountOfFences.lean ====
section
/-! The entry of a column into FENCED keeps the account (O57). -/
namespace Sys2Proof.Machine

variable {q : Claim → Bool} {fencing : ColIx → Prop} {loose loose' : HNum → Prop} {L L' L'' : Ledger} {h : HNum}
  {x y : Handover} {c d : ColIx} {g : Grant} {w : Work}

/-! ### A new target -/

/-- A record with another target, or none. -/
def Handover.aimed (x : Handover) (t : Option ColIx) : Handover := { x with target := t }

@[simp] theorem Handover.state_aimed (x : Handover) (t : Option ColIx) : (x.aimed t).state = x.state := rfl
@[simp] theorem Handover.column_aimed (x : Handover) (t : Option ColIx) : (x.aimed t).column = x.column := rfl
@[simp] theorem Handover.target_aimed (x : Handover) (t : Option ColIx) : (x.aimed t).target = t := rfl

/-- A grant is backed by a record that changes nothing a grant asks for. -/
theorem Ledger.Backs.recast (b : L.Backs c g) (hx : L.hand h = some x) (hy : L'.hand h = some y)
    (other : ∀ i, i ≠ h → L'.hand i = L.hand i) (col : y.column = x.column) (state : y.state = x.state)
    (holder : y.holder = x.holder) (top : (L'.book c).stack = (L.book c).stack) : L'.Backs c g := by
  have same (i : HNum) (z : Handover) (hz : L.hand i = some z) : ∃ z' ∈ L'.hand i, z'.column = z.column ∧
      z'.state = z.state ∧ g.suits z' = g.suits z := by
    by_cases e : i = h
    · subst e
      obtain rfl := Option.mem_unique hx hz
      exact ⟨y, hy, col, state, by unfold Grant.suits; rw [state, holder]⟩
    · exact ⟨z, by rw [other i e]; exact hz, rfl, rfl, rfl⟩
  obtain ⟨⟨z, hz, hc, suits⟩, last, claimed⟩ := b
  refine ⟨?_, fun hk => by rw [top]; exact last hk, fun ne => ?_⟩
  · obtain ⟨z', hz', hc', -, hs⟩ := same _ z hz
    exact ⟨z', hz', hc'.trans hc, hs.trans suits⟩
  · obtain ⟨y, hy, hyc, stored⟩ := claimed ne
    obtain ⟨y', hy', hyc', hys, -⟩ := same _ y hy
    exact ⟨y', hy', hyc'.trans hyc, hys.trans stored⟩

/-- A SHIFTING record takes another target, or none. -/
theorem Ledger.Ok.retarget (ok : L.Ok q fencing loose) (hx : L.hand h = some x.entry) (shifting : x.state = .shifting)
    {t : Option ColIx} (p : L.Puts h (some (x.aimed t).entry) L') (away : ∀ d ∈ t, x.column ≠ some d)
    (takes : ∀ d ∈ t, L.Takes d) (stack : ∀ e, (L'.book e).stack = (L.book e).stack) : L'.Ok q fencing loose := by
  have fits := x.fits_entry.1 (ok.fits h x.entry hx)
  have calm : x.state ≠ .doubt ∧ x.state ≠ .closing := by simp [shifting]
  have aim (e : ColIx) : (x.aimed t).entry.inboundTo e → t = some e :=
    (Handover.inboundTo_of_shifting (x := (x.aimed t).entry) shifting).1
  refine ok.proceed hx p ⟨?_, calm.2, rfl, fun rb => id, fun e he => ?_, fun e he _ => ?_, fun hd => (calm.1 hd).elim,
    fun hs => ?_⟩ calm.1 (fun _ _ => id) (fun e cl hcl hh => ?_) fun e g hg _ =>
      (ok.grant e g hg).recast hx p.self p.other rfl rfl rfl (stack e)
  · rw [Handover.fits_entry]
    exact { fits with
      target := fun ht => ⟨by simp [Handover.shifted_eq, shifting], by
        obtain ⟨d, hd⟩ := Option.isSome_iff_exists.1 ht
        rw [hd]
        exact (away d hd).symm⟩ }
  · rcases he with hs | hi
    · exact .inl hs
    · exact .inr (.inr (takes e (aim e hi)).place)
  · exact .inl (takes e (aim e he)).not_fenced
  · by_cases hl : loose h
    · exact .inl hl
    · exact .inr (ok.granted h hl x.entry hx hs)
  · subst hh
    have suits := ok.column_of_wait hcl hx
    exact suits

theorem Work.ledger_aimed (hx : w.st.hand h = some x) (t : Option ColIx) :
    (w.up (·.modHand h fun r => { r with target := t })).st.ledger =
      w.st.ledger.setHand h (some (x.aimed t).entry) := State.ledger_modHand hx _

/-- A SHIFTING record whose target is fenced takes another target, or none (R31). -/
theorem Work.newTarget_ok (ok : w.st.ledger.Ok q fencing noRecord) (hx : w.st.hand h = some x)
    (shifting : x.state = .shifting) (ht : x.target = some c) (fenced : (w.st.ledger.book c).state = .fenced) :
    (w.newTarget c h).st.ledger.Ok q fencing noRecord ∧
      w.st.ledger.Clears c (· = h) (w.newTarget c h).st.ledger := by
  have hL := State.ledger_hand hx
  have fits : x.Fits := x.fits_entry.1 (ok.fits h x.entry hL)
  obtain ⟨source, hs, g, hg, -⟩ := ok.granted h id x.entry hL (.inr (.inr shifting))
  obtain ⟨g', hg', -⟩ := Option.mem_map.1 hg
  have hg' : (w.st.col source).grant = some g' := hg'
  have ne : source ≠ c := fun e => (fits.target (by simp [ht])).2 (by rw [ht, ← e]; exact hs.symm)
  have noShed : w.st.ledger.shed c h = w.st.ledger := by
    refine Ledger.modBook_self ?_
    have all : ((w.st.ledger.book c).waits.filter fun cl => (cl.handover == h) = false) = (w.st.ledger.book c).waits :=
      Multiset.filter_eq_self.2 fun cl hcl => by
        rw [beq_eq_false_iff_ne]
        rintro rfl
        exact ne (Option.some_inj.1 (hs.symm.trans (ok.column_of_wait hcl hL).1))
    rw [all]
  have stands (t : Option ColIx) (e : ColIx) : (x.aimed t).entry.standsIn e ↔ x.entry.standsIn e := by
    rw [Handover.standsIn_of_shifting (x := (x.aimed t).entry) shifting, Handover.standsIn_of_shifting (x := x.entry) shifting]
    rfl
  have from_ (e : ColIx) (he : x.entry.inboundTo e) : e = c := by
    rw [Handover.inboundTo_of_shifting (x := x.entry) shifting] at he
    exact Option.some_inj.1 (he.symm.trans ht)
  have left : (w.leaveInbound c h).st.hand h = some x := by simpa [Work.leaveInbound_eq] using hx
  cases target : w.st.digTarget x g'.claim.robot.port source with
  | some d =>
    obtain ⟨takes, -, away⟩ := State.takes_of_digTarget target
    have nd : d ≠ c := fun e => takes.not_fenced (e ▸ fenced)
    have ledger : (w.newTarget c h).st.ledger =
        ((w.st.ledger.erase c h).insert d h).setHand h (some (x.aimed (some d)).entry) := by
      unfold Work.newTarget
      simp only [hx, show x.column = some source from hs, hg', target]
      rw [Work.ledger_aimed (x := x) (by simpa [State.joinInbound] using left), Work.up_st, State.ledger_joinInbound,
        Work.ledger_leaveInbound]
      rfl
    rw [ledger]
    refine ⟨ok.retarget hL shifting (ok.puts_across hL (stands _) from_ fun e => ?_) (fun e he => ?_) (fun e he => ?_)
      fun e => by simp, ?_⟩
    · rw [Handover.inboundTo_of_shifting (x := (x.aimed (some d)).entry) shifting]
      exact Option.some_inj.trans eq_comm
    · cases he
      exact fun e => away (Option.some_inj.1 (e.symm.trans hs))
    · cases he
      exact takes
    · have clears := w.st.ledger.clears_across (h := h) (some (x.aimed (some d)).entry) nd
      rwa [noShed] at clears
  | none =>
    have ledger : (w.newTarget c h).st.ledger = (w.st.ledger.erase c h).setHand h (some (x.aimed none).entry) := by
      unfold Work.newTarget
      simp only [hx, show x.column = some source from hs, hg', target]
      rw [Work.ledger_aimed (x := x) left, Work.ledger_leaveInbound]
      rfl
    rw [ledger]
    refine ⟨ok.retarget hL shifting (ok.puts_out hL (fun e => ?_) from_ fun y hy e he => ?_) (fun e he => by cases he)
      (fun e he => by cases he) fun e => by simp, ?_⟩
    · simpa using stands none e
    · cases hy
      rw [Handover.inboundTo_of_shifting (x := (x.aimed none).entry) shifting] at he
      cases he
    · have clears := w.st.ledger.clears_out (c := c) (h := h) (some (x.aimed none).entry)
      rwa [noShed] at clears

end Sys2Proof.Machine
end

