-- ==== Sys2Proof/Proofs/AccountOfEntries.lean ====
section
/-! The entry into FENCED, step by step (O57). -/
namespace Sys2Proof.Machine

variable {q : Claim → Bool} {fencing : ColIx → Prop} {loose loose' : HNum → Prop} {L L' L'' : Ledger} {h : HNum}
  {x y : Handover} {c d : ColIx} {g : Grant} {w : Work}

theorem Ledger.Clears.refl (L : Ledger) (c : ColIx) : L.Clears c (fun _ => False) L :=
  ⟨by simp, by simp, fun _ _ => rfl, fun _ => rfl, fun _ => rfl⟩

theorem Ledger.Clears.trans {p r : HNum → Prop} (a : L.Clears c p L') (b : L'.Clears c r L'') :
    L.Clears c (fun i => p i ∨ r i) L'' where
  inbound i := by rw [b.inbound, a.inbound]; tauto
  waits cl := by rw [b.waits, a.waits]; tauto
  other i hi := (b.other i fun h => hi (.inr h)).trans (a.other i fun h => hi (.inl h))
  state d := (b.state d).trans (a.state d)
  grant d := (b.grant d).trans (a.grant d)

/-- A column in the middle of its entry into FENCED: its grant and its region claims have gone. -/
structure Ledger.Entering (q : Claim → Bool) (c : ColIx) (L : Ledger) : Prop where
  ok : L.Ok q (· = c) noRecord
  fenced : (L.book c).state = .fenced
  free : (L.book c).grant = none
  holding : ∀ cl ∈ (L.book c).waits, cl.isRegion = false

theorem Ledger.Entering.cleared (k : L.Entering q c) (ok : L'.Ok q (· = c) noRecord) {gone : HNum → Prop}
    (clears : L.Clears c gone L') : L'.Entering q c :=
  ⟨ok, (clears.state c).trans k.fenced, (clears.grant c).trans k.free, fun cl hcl =>
    k.holding cl ((clears.waits cl).1 hcl).1⟩

/-- The records of a list leave the column one after another. -/
theorem Ledger.Entering.foldl {f : Work → HNum → Work} {ready : Handover → Prop}
    (step : ∀ (w : Work) h x, w.st.ledger.Entering q c → w.st.ledger.hand h = some x → ready x →
      (f w h).st.ledger.Ok q (· = c) noRecord ∧ w.st.ledger.Clears c (· = h) (f w h).st.ledger) :
    ∀ (l : List HNum) (w : Work), l.Nodup → w.st.ledger.Entering q c →
      (∀ h ∈ l, ∃ x ∈ w.st.ledger.hand h, ready x) →
      (l.foldl f w).st.ledger.Entering q c ∧ w.st.ledger.Clears c (· ∈ l) (l.foldl f w).st.ledger
  | [], w, _, k, _ => ⟨k, by simpa using Ledger.Clears.refl w.st.ledger c⟩
  | h :: l, w, nodup, k, all => by
    obtain ⟨x, hx, rx⟩ := all h (List.mem_cons_self ..)
    obtain ⟨ok, clears⟩ := step w h x k hx rx
    obtain ⟨out, nodup⟩ := List.nodup_cons.1 nodup
    obtain ⟨k', clears'⟩ := Ledger.Entering.foldl step l (f w h) nodup (k.cleared ok clears) fun i hi => by
      rw [clears.other i fun e => out (e ▸ hi)]
      exact all i (List.mem_cons_of_mem _ hi)
    refine ⟨k', ?_⟩
    have both := clears.trans clears'
    simpa only [List.foldl_cons, List.mem_cons] using both

/-! ### The lists of records -/

theorem State.mem_inboundIn {s : State} {st : HandState} :
    h ∈ s.inboundIn c st ↔ h ∈ (s.ledger.book c).inbound ∧ ∃ x ∈ s.ledger.hand h, x.state = st := by
  rw [State.mem_ledger_inbound, State.exists_entry, State.inboundIn, List.mem_filter]
  cases s.hand h <;> simp

theorem State.mem_shiftingInto {s : State} : h ∈ s.shiftingInto c ↔
    ∃ x ∈ s.ledger.hand h, x.state = .shifting ∧ x.target = some c ∧ x.column ≠ some c := by
  rw [State.exists_entry, State.shiftingInto, List.mem_filter]
  have mem : h ∈ HNum.all := by rw [HNum.all_eq]; exact List.mem_finRange h
  cases s.hand h <;> simp [mem, and_assoc]

theorem State.ColumnsOrdered.nodup_inboundIn {s : State} (ordered : s.ColumnsOrdered) (c : ColIx) (st : HandState) :
    (s.inboundIn c st).Nodup :=
  ((ordered c).inbound.imp fun h => ne_of_lt h).filter _

theorem State.nodup_shiftingInto (s : State) (c : ColIx) : (s.shiftingInto c).Nodup := by
  unfold State.shiftingInto
  rw [HNum.all_eq]
  exact (List.nodup_finRange 32).filter _

/-! ### The steps -/

theorem Ledger.Ok.column_of_coming (ok : L.Ok q fencing loose) (hx : L.hand h = some x) (coming : x.Coming)
    (mem : h ∈ (L.book c).inbound) : x.column = some c := coming.inboundTo.1 ((ok.mem_inbound hx).1 mem)

/-- The BOOKED records leave. -/
theorem Ledger.Entering.booked (k : w.st.ledger.Entering q c) (ordered : w.st.ColumnsOrdered) :
    ((w.st.inboundIn c .booked).foldl (fun w h => w.replaceBooked c h) w).st.ledger.Entering q c ∧
      w.st.ledger.Clears c (· ∈ w.st.inboundIn c .booked)
        ((w.st.inboundIn c .booked).foldl (fun w h => w.replaceBooked c h) w).st.ledger := by
  refine Ledger.Entering.foldl (ready := fun x => x.state = .booked ∧ x.column = some c) (fun w h x k hx ⟨hs, hc⟩ => ?_) _ w
    (ordered.nodup_inboundIn c _) k fun h hh => ?_
  · have unclaimed : w.st.ledger.Unclaimed h := by
      rintro d cl hcl rfl
      obtain ⟨hd, suits⟩ := k.ok.column_of_wait hcl hx
      obtain rfl : d = c := Option.some_inj.1 (hd.symm.trans hc)
      have holding := k.holding cl hcl
      unfold Claim.suits at suits
      split at suits <;> simp_all [Claim.isRegion]
    obtain ⟨x, stands, rfl⟩ := State.mem_ledger_hand.1 hx
    exact Work.replaceBooked_ok k.ok stands hs hc k.fenced unclaimed
  · obtain ⟨mem, x, hx, hs⟩ := State.mem_inboundIn.1 hh
    exact ⟨x, hx, hs, k.ok.column_of_coming hx (.inl hs) mem⟩

/-- The MOVING records leave. -/
theorem Ledger.Entering.moving (k : w.st.ledger.Entering q c) (ordered : w.st.ColumnsOrdered) :
    ((w.st.inboundIn c .moving).foldl (fun w h => w.replaceMoving c h) w).st.ledger.Entering q c ∧
      w.st.ledger.Clears c (· ∈ w.st.inboundIn c .moving)
        ((w.st.inboundIn c .moving).foldl (fun w h => w.replaceMoving c h) w).st.ledger := by
  refine Ledger.Entering.foldl (ready := fun x => x.state = .moving ∧ x.column = some c) (fun w h x k hx ⟨hs, hc⟩ => ?_) _ w
    (ordered.nodup_inboundIn c _) k fun h hh => ?_
  · obtain ⟨x, stands, rfl⟩ := State.mem_ledger_hand.1 hx
    exact Work.replaceMoving_ok (e := none) k.ok stands hs hc k.fenced
  · obtain ⟨mem, x, hx, hs⟩ := State.mem_inboundIn.1 hh
    exact ⟨x, hx, hs, k.ok.column_of_coming hx (.inr (.inr hs)) mem⟩

/-- The SHIFTING records take other targets. -/
theorem Ledger.Entering.shifting (k : w.st.ledger.Entering q c) :
    ((w.st.shiftingInto c).foldl (fun w h => w.newTarget c h) w).st.ledger.Entering q c ∧
      w.st.ledger.Clears c (· ∈ w.st.shiftingInto c)
        ((w.st.shiftingInto c).foldl (fun w h => w.newTarget c h) w).st.ledger := by
  refine Ledger.Entering.foldl (ready := fun x => x.state = .shifting ∧ x.target = some c) (fun w h x k hx ⟨hs, ht⟩ => ?_) _ w
    (w.st.nodup_shiftingInto c) k fun h hh => ?_
  · obtain ⟨x, stands, rfl⟩ := State.mem_ledger_hand.1 hx
    exact Work.newTarget_ok k.ok stands hs ht k.fenced
  · obtain ⟨x, hx, hs, ht, -⟩ := State.mem_shiftingInto.1 hh
    exact ⟨x, hx, hs, ht⟩

/-- A claim that waits at a column that is being fenced is that of a MOVING record there. -/
theorem Ledger.Entering.moving_of_wait (k : L.Entering q c) {cl : Claim} (hcl : cl ∈ (L.book c).waits) :
    cl.handover ∈ (L.book c).inbound ∧ ∃ x ∈ L.hand cl.handover, x.state = .moving := by
  obtain ⟨x, hx, hc, suits⟩ := k.ok.waiting c cl hcl
  have holding := k.holding cl hcl
  have moving : x.state = .moving := by
    unfold Claim.suits at suits
    split at suits <;> simp_all [Claim.isRegion]
  exact ⟨(k.ok.mem_inbound hx).2 ((Handover.Coming.inboundTo (.inr (.inr moving))).2 hc), x, hx, moving⟩

/-- What may stand inbound to a column without a grant. -/
theorem Ledger.Entering.state_of_inbound (k : L.Entering q c) (hx : L.hand h = some x) (mem : h ∈ (L.book c).inbound) :
    x.state = .booked ∨ x.state = .moving ∨ x.state = .doubt ∨
      x.state = .shifting ∧ x.target = some c ∧ x.column ≠ some c := by
  have fits := k.ok.fits h x hx
  rcases (k.ok.mem_inbound hx).1 mem with ⟨ha, hc⟩ | ⟨hs, ht⟩
  · simp only [Handover.awaited_eq, Bool.or_eq_true, Bool.and_eq_true, beq_iff_eq] at ha
    rcases ha with ((booked | landing) | moving) | ⟨doubt, -⟩
    · exact .inl booked
    · obtain ⟨d, hd, g, hg, -⟩ := k.ok.granted h id x hx (.inl landing)
      obtain rfl : d = c := Option.some_inj.1 (hd.symm.trans hc)
      simp [k.free] at hg
    · exact .inr (.inl moving)
    · exact .inr (.inr (.inl doubt))
  · have away := (fits.target (by simp [ht])).2
    simp only [Handover.shifted_eq, Bool.or_eq_true, Bool.and_eq_true, beq_iff_eq] at hs
    rcases hs with shifting | ⟨doubt, -⟩
    · exact .inr (.inr (.inr ⟨shifting, ht, fun e => away (ht.trans e.symm)⟩))
    · exact .inr (.inr (.inl doubt))

/-- Records that no step has touched are as they were. -/
theorem Ledger.Clears.was {gone : HNum → Prop} (k : L.Clears c gone L') (mem : h ∈ (L'.book c).inbound) :
    h ∈ (L.book c).inbound ∧ L'.hand h = L.hand h ∧ ¬ gone h := by
  obtain ⟨old, stays⟩ := (k.inbound h).1 mem
  exact ⟨old, k.other h stays, stays⟩

/-- After the three re-placements the column holds what a FENCED column may. -/
theorem Work.replaceAll_ok (k : w.st.ledger.Entering q c) (ordered : w.st.ColumnsOrdered) :
    let a := (w.st.inboundIn c .booked).foldl (fun w h => w.replaceBooked c h) w
    let b := (a.st.inboundIn c .moving).foldl (fun w h => w.replaceMoving c h) a
    ((b.st.shiftingInto c).foldl (fun w h => w.newTarget c h) b).st.ledger.Ok q noColumn noRecord := by
  intro a b
  have F : Closed fun s t => s.ColumnsOrdered → t.ColumnsOrdered := closedStep_columnsOrdered.toClosed
  have ordered₁ : a.st.ColumnsOrdered := F.foldl Work.st _ (fun w h => F.replaceBooked w c h) _ w ordered
  obtain ⟨k₁, clears₁⟩ : a.st.ledger.Entering q c ∧ w.st.ledger.Clears c (· ∈ w.st.inboundIn c .booked) a.st.ledger :=
    k.booked ordered
  obtain ⟨k₂, clears₂⟩ : b.st.ledger.Entering q c ∧ a.st.ledger.Clears c (· ∈ a.st.inboundIn c .moving) b.st.ledger :=
    k₁.moving ordered₁
  obtain ⟨k₃, clears₃⟩ := k₂.shifting
  have noWaits : ∀ cl, cl ∉ (b.st.ledger.book c).waits := fun cl hcl => by
    obtain ⟨old, stays⟩ := (clears₂.waits cl).1 hcl
    exact stays (State.mem_inboundIn.2 (k₁.moving_of_wait old))
  have doubts : ∀ h x, h ∈ (((b.st.shiftingInto c).foldl (fun w h => w.newTarget c h) b).st.ledger.book c).inbound →
      ((b.st.shiftingInto c).foldl (fun w h => w.newTarget c h) b).st.ledger.hand h = some x → x.state = .doubt := by
    intro h x mem hx
    obtain ⟨mem₂, same₃, stays₃⟩ := clears₃.was mem
    obtain ⟨mem₁, same₂, stays₂⟩ := clears₂.was mem₂
    obtain ⟨mem₀, same₁, stays₁⟩ := clears₁.was mem₁
    rcases k₃.state_of_inbound hx mem with hs | hs | hs | ⟨hs, ht, hc⟩
    · exact (stays₁ (State.mem_inboundIn.2 ⟨mem₀, x, by rw [← same₁, ← same₂, ← same₃]; exact hx, hs⟩)).elim
    · exact (stays₂ (State.mem_inboundIn.2 ⟨mem₁, x, by rw [← same₂, ← same₃]; exact hx, hs⟩)).elim
    · exact hs
    · exact (stays₃ (State.mem_shiftingInto.2 ⟨x, by rw [← same₃]; exact hx, hs, ht, hc⟩)).elim
  exact { k₃.ok with
    fencedWaits := fun d _ hd => by
      by_cases e : d = c
      · subst e
        exact Multiset.eq_zero_of_forall_notMem fun cl hcl => noWaits cl ((clears₃.waits cl).1 hcl).1
      · exact k₃.ok.fencedWaits d e hd
    fencedInbound := fun d _ hd h hh x hx => by
      by_cases e : d = c
      · subst e
        exact doubts h x hh hx
      · exact k₃.ok.fencedInbound d e hd h hh x hx }

/-- The region claims of a column are dismissed. -/
def Ledger.dismiss (L : Ledger) (c : ColIx) : Ledger :=
  L.modBook c fun b => { b with waits := b.waits.filter fun cl => cl.isRegion = false }

/-- A column without a grant enters FENCED; its region claims need not be in order, for they are dismissed. -/
theorem Work.enterFenced_dismissing_ok {cause : FenceCause} {who : Option (Robot × HNum)} (ordered : w.st.ColumnsOrdered)
    (ok : ((w.st.ledger.turn c .fenced).dismiss c).Ok q (· = c) noRecord) (free : (w.st.ledger.book c).grant = none) :
    (w.enterFenced c cause who).st.ledger.Ok q noColumn noRecord := by
  have F : Closed fun s t => s.ColumnsOrdered → t.ColumnsOrdered := closedStep_columnsOrdered.toClosed
  unfold Work.enterFenced
  extract_lets w₁ w₂ w₃ w₄ w₅ w₆
  have ordered₁ : w₁.st.ColumnsOrdered := F.upCol w c (fun k =>
    { k with state := .fenced, cause := some cause, fencePending := false, settleTimer := none })
    (.control fun _ => ⟨rfl, rfl, rfl⟩) ordered
  have ledger₁ : w₁.st.ledger = w.st.ledger.turn c .fenced := State.ledger_modCol rfl
  have ordered₂ : w₂.st.ColumnsOrdered := by
    show (match cause.errorKind with | some e => w₁.up (·.captureColumn e c who) | none => w₁).st.ColumnsOrdered
    split
    · exact F.captureColumn _ _ _ _ ordered₁
    · exact ordered₁
  have ledger₂ : w₂.st.ledger = w.st.ledger.turn c .fenced := by
    rw [← ledger₁]
    show (match cause.errorKind with | some e => w₁.up (·.captureColumn e c who) | none => w₁).st.ledger = _
    split
    · exact State.ledger_capture ..
    · rfl
  have ledger₃ : w₃.st.ledger = (w.st.ledger.turn c .fenced).dismiss c := by
    show (w₂.dismissRegion c).st.ledger = _
    unfold Work.dismissRegion
    rw [Work.up_st, foldl_keeps State.ledger _ fun s (cl : Claim) => by exact State.ledger_post .., ← ledger₂]
    exact w₂.ledger_leave c fun cl _ => rfl
  have entering : w₃.st.ledger.Entering q c := by
    rw [ledger₃]
    refine ⟨ok, ?_, ?_, ?_⟩
    · simp [Ledger.dismiss, Ledger.book_turn]
    · simpa [Ledger.dismiss, Ledger.book_turn] using free
    · simp [Ledger.dismiss, Ledger.book_turn]
  rw [Work.ledger_handOccupancy, Work.up_st, State.postFence, State.ledger_postAll]
  exact Work.replaceAll_ok entering (F.dismissRegion w₂ c ordered₂)

/-- A column without a grant enters FENCED. -/
theorem Work.enterFenced_ok {cause : FenceCause} {who : Option (Robot × HNum)} (ordered : w.st.ColumnsOrdered)
    (ok : (w.st.ledger.turn c .fenced).Ok q (· = c) noRecord) (free : (w.st.ledger.book c).grant = none) :
    (w.enterFenced c cause who).st.ledger.Ok q noColumn noRecord :=
  Work.enterFenced_dismissing_ok ordered
    (ok.shed c (f := fun m => m.filter fun cl => cl.isRegion = false) fun _ => Multiset.filter_le _ _) free

end Sys2Proof.Machine
end

