-- ==== Sys2Proof/Proofs/AccountOfGrants.lean ====
section
/-! The end of a grant, and the grant that a selection makes, keep the account (O57). -/
namespace Sys2Proof.Machine

variable {q : Claim → Bool} {fencing : ColIx → Prop} {loose loose' : HNum → Prop} {L L' L₁ : Ledger} {h : HNum}
  {x y : Handover} {c d : ColIx} {g : Grant} {cl : Claim} {w : Work}

/-! ### The end of a grant -/

/-- A column without a grant is marked FENCED, and is then being fenced. -/
theorem Ledger.Ok.toFence (ok : L.Ok q noColumn noRecord) (free : (L.book c).grant = none) :
    (L.turn c .fenced).Ok q (· = c) noRecord :=
  ok.turn (fun _ _ h => h.elim) (fun h => by simp at h) (fun _ h => (h rfl).elim) (fun h => (h rfl).elim) free

theorem Work.ledger_settleOrOpen (w : Work) (c : ColIx) : (w.settleOrOpen c).st.ledger = w.st.ledger.turn c .settling ∨
    (w.settleOrOpen c).st.ledger = w.st.ledger.turn c .opened := by
  unfold Work.settleOrOpen
  split
  · exact .inl (State.ledger_modCol rfl)
  · exact .inl (State.ledger_modCol rfl)
  · exact .inr (State.ledger_modCol rfl)

/-- A column that is not FENCED enters service. -/
theorem Work.settleOrOpen_ok (ok : w.st.ledger.Ok q fencing loose) (free : (w.st.ledger.book c).grant = none)
    (state : (w.st.ledger.book c).state ≠ .fenced) : (w.settleOrOpen c).st.ledger.Ok q fencing loose := by
  rcases w.ledger_settleOrOpen c with e | e <;> rw [e]
  · exact ok.serve (by simp) state free
  · exact ok.serve (by simp) state free

/-- A column whose grant has ended leaves GRANTED (R22). -/
theorem Work.completeGrant_ok (ordered : w.st.ColumnsOrdered) (ok : (w.st.ledger.without (some c)).Ok q noColumn noRecord)
    (state : (w.st.ledger.book c).state ≠ .fenced) : (w.completeGrant c).st.ledger.Ok q noColumn noRecord := by
  have F : Closed fun s t => s.ColumnsOrdered → t.ColumnsOrdered := closedStep_columnsOrdered.toClosed
  unfold Work.completeGrant
  extract_lets w₁
  have ordered₁ : w₁.st.ColumnsOrdered := F.upCol w c (fun k => { k with grant := none }) (.control fun _ => ⟨rfl, rfl, rfl⟩) ordered
  have ledger₁ : w₁.st.ledger = w.st.ledger.without (some c) :=
    State.ledger_modCol (g := fun b => { b with grant := none }) rfl
  have free : (w₁.st.ledger.book c).grant = none := by simp [ledger₁, Ledger.book_without]
  rw [← ledger₁] at ok
  split
  · exact Work.enterFenced_ok ordered₁ (ok.toFence free) free
  · exact Work.settleOrOpen_ok ok free (by simpa [ledger₁] using state)

/-! ### A record changes in place -/

/-- A record that no grant names changes where it stands. -/
theorem Ledger.Ok.restate (ok : L.Ok q fencing loose) (hx : L.hand h = some x) (fits : y.Fits) (inUse : x.state ≠ .closing)
    (bin : y.bin = x.bin) (follower : y.follower = x.follower) (stands : ∀ c, y.standsIn c ↔ x.standsIn c)
    (inbound : ∀ c, y.inboundTo c ↔ x.inboundTo c) (calm : y.state ≠ .doubt)
    (fenced : ∀ c, y.inboundTo c → ¬ fencing c → (L.book c).state ≠ .fenced)
    (granted : y.state = .landing ∨ y.state = .lifting ∨ y.state = .shifting → loose' h)
    (loosen : ∀ i, i ≠ h → loose i → loose' i) (idle : L.Idle h)
    (waiting : ∀ c, ∀ cl ∈ (L.book c).waits, cl.handover = h → y.column = some c ∧ cl.suits y = true) :
    (L.setHand h (some y)).Ok q fencing loose' :=
  ok.proceed hx (ok.puts_inPlace hx stands inbound)
    ⟨fits, inUse, bin, fun rb => by simp [followedBy, follower], fun c hp => by
      rcases hp with hs | hi
      · exact .inl ((stands c).1 hs)
      · exact .inr (.inl ((inbound c).1 hi)), fun c hp hf => .inl (fenced c hp hf), fun hd => (calm hd).elim,
      fun hs => .inl (granted hs)⟩ calm loosen waiting fun c g hg hn => (hn.elim (idle c g hg).1 (idle c g hg).2).elim

/-! ### The grant -/

/-- A claim that has left its wait list, and whose record has been put where the grant needs it, is granted. -/
theorem Ledger.Ok.award (ok : L.Ok q noColumn noRecord) (opened : (L.book c).state = .opened)
    (hcl : g.claim ∈ (L.book c).waits) (p : (L.shed c g.claim.handover).Puts g.record (some y) L₁)
    (ok₁ : L₁.Ok q noColumn (· = g.record))
    (followed : ∀ rb, followedBy rb (some y) = followedBy rb (L.hand g.record)) (backs : L₁.Backs c g) :
    ((L₁.turn c .granted).setGrant c (some g)).Ok q noColumn noRecord := by
  have free : (L.book c).grant = none := by
    by_contra ne
    have := ok.granting c (Option.isSome_iff_ne_none.2 ne)
    simp [opened] at this
  have state₁ : (L₁.book c).state = .opened := by rw [p.state, Ledger.book_shed, if_pos rfl]; exact opened
  have free₁ : (L₁.book c).grant = none := by rw [p.grant, Ledger.book_shed, if_pos rfl]; exact free
  have turned : (L₁.turn c .granted).Ok q noColumn (· = g.record) := ok₁.serve (by simp) (by simp [state₁]) free₁
  have named : (L.shed c g.claim.handover).count (fun k => k.handover == g.claim.handover) = 0 := by
    have one := ok.record g.claim.handover
    have less := Ledger.count_shed hcl rfl (p := fun k => k.handover == g.claim.handover) (by simp)
    omega
  have given := turned.giveGrant (c := c) (g := g) (by simp [Ledger.book_turn, free₁]) (by simp [Ledger.book_turn])
    ⟨backs.record, by simpa [Ledger.book_turn] using backs.top, backs.claimed⟩ (by rw [Ledger.count_turn, p.count, named])
    fun hq => by
      rw [Ledger.count_turn, p.count, Ledger.followersOf_turn, p.followersOf,
        Ledger.followersOf_setHand_same (L := L.shed c _) (followed _), Ledger.followersOf_shed]
      exact ok.robot_of_shed hcl rfl hq
  exact given.weaken (fun _ => id) fun _ hl => hl.2 hl.1

/-! ### Granting at the part -/

/-- The claims of a wait list that name one record are one. -/
theorem Ledger.Ok.wait_unique {s : State} (ok : s.ledger.Ok q fencing loose) {a b : Claim} (ha : a ∈ (s.col c).waitList)
    (hb : b ∈ (s.col c).waitList) (same : a.handover = b.handover) : a = b := by
  by_contra ne
  have one := (s.ledger.countP_le_count c fun cl => cl.handover == b.handover).trans (ok.record b.handover)
  have part : (s.ledger.book c).claims = (((s.col c).waitList.map Claim.entry : List Claim) : Multiset Claim) + _ := rfl
  rw [part, Multiset.countP_add, Multiset.coe_countP, List.countP_map] at one
  have two : 2 ≤ (s.col c).waitList.countP ((fun cl => decide ((cl.handover == b.handover) = true)) ∘ Claim.entry) := by
    obtain ⟨l₁, l₂, e⟩ := List.append_of_mem hb
    rw [e] at ha ⊢
    have rest : a ∈ l₁ ++ l₂ := by
      simp only [List.mem_append, List.mem_cons] at ha ⊢
      tauto
    have pos : 0 < (l₁ ++ l₂).countP ((fun cl => decide ((cl.handover == b.handover) = true)) ∘ Claim.entry) :=
      List.countP_pos_iff.2 ⟨a, rest, by simp [same]⟩
    simp only [List.countP_append, List.countP_cons, Function.comp_apply, Claim.entry_handover, beq_self_eq_true,
      decide_true, if_true] at pos ⊢
    omega
  omega

/-- A claim leaves its list: the claims for its record do. -/
theorem Work.ledger_leaveClaim (unique : ∀ k ∈ (w.st.col c).waitList, k.handover = cl.handover → k = cl) :
    (w.leave c (· == cl)).st.ledger = w.st.ledger.shed c cl.handover :=
  w.ledger_leave c (e := fun k => k.handover == cl.handover) fun k hk => by
    rw [Bool.eq_iff_iff, beq_iff_eq, beq_iff_eq]
    exact ⟨fun e => by rw [e, Claim.entry_handover], unique k hk⟩

/-- The grant that a claim is given, as its column's books show it. -/
def Claim.given (cl : Claim) (op : Operation) : Grant :=
  { claim := cl.entry, op := op, noticeSent := false, timer := none }

theorem Work.ledger_giveGrant (unique : ∀ k ∈ (w.st.col c).waitList, k.handover = cl.handover → k = cl) (op : Operation) :
    (w.giveGrant c cl op).st.ledger =
      ((w.st.ledger.shed c cl.handover).turn c .granted).setGrant c (some (cl.given op)) := by
  unfold Work.giveGrant
  extract_lets g₀ g w₁ w₂
  have entry : g.entry = cl.given op := by
    show (if w.st.level .grant = 0 then g₀.noticed w.st.grantTicks else g₀).entry = _
    split
    · rw [Grant.entry_noticed]; rfl
    · rfl
  rw [Work.up_st, State.ledger_post, Work.ledger_judgeCharging]
  show (w₁.st.modCol c fun k => { k with state := .granted, grant := some g }).ledger = _
  have leave : w₁.st.ledger = w.st.ledger.shed c cl.handover := Work.ledger_leaveClaim unique
  rw [← leave]
  refine (State.ledger_modCol (g := fun b => { b with state := .granted, grant := some (cl.given op) }) ?_).trans
    (Ledger.modBook_modBook (f := fun b => { b with state := .granted })
      (g := fun b => { b with grant := some (cl.given op) })).symm
  simp [Column.books, entry]

end Sys2Proof.Machine
end

