-- ==== Sys2Proof/Proofs/AccountOfSelections.lean ====
section
/-! The selections at the end of a step keep the account (O57). -/
namespace Sys2Proof.Machine

variable {q : Claim → Bool} {fencing : ColIx → Prop} {loose loose' : HNum → Prop} {L L' L₁ : Ledger} {h : HNum}
  {x y : Handover} {c d : ColIx} {g : Grant} {cl : Claim} {w : Work}

/-! ### A claim of a wait list -/

theorem State.entry_mem_waits {s : State} (hcl : cl ∈ (s.col c).waitList) : cl.entry ∈ (s.ledger.book c).waits :=
  List.mem_map_of_mem hcl

/-- The record of a claim that waits. -/
theorem State.record_of_wait {s : State} (ok : s.ledger.Ok q fencing loose) (hcl : cl ∈ (s.col c).waitList) :
    ∃ x, s.hand cl.handover = some x ∧ x.column = some c ∧ cl.suits x = true := by
  obtain ⟨y, hy, hc, suits⟩ := ok.waiting c cl.entry (State.entry_mem_waits hcl)
  obtain ⟨x, hx, rfl⟩ := State.mem_ledger_hand.1 hy
  exact ⟨x, hx, hc, suits⟩

theorem Ledger.Ok.free_of_opened (ok : L.Ok q fencing loose) (opened : (L.book c).state = .opened) :
    (L.book c).grant = none := by
  by_contra ne
  have := ok.granting c (Option.isSome_iff_ne_none.2 ne)
  simp [opened] at this

/-- A record that stands inbound and is not in DOUBT is not at a FENCED column. -/
theorem Ledger.Ok.not_fenced_of_inbound (ok : L.Ok q noColumn loose) (hx : L.hand h = some x) (calm : x.state ≠ .doubt)
    (hi : x.inboundTo c) : (L.book c).state ≠ .fenced := fun hf =>
  calm (ok.fencedInbound c id hf h ((ok.mem_inbound hx).2 hi) x hx)

/-! ### A grant that leaves its record where it stands -/

/-- How a grant of a claim for its own record leaves the record: in its place, and in the state of the grant. -/
structure Handover.Granted (x y : Handover) : Prop where
  fits : x.Fits → y.Fits
  bin : y.bin = x.bin
  follower : y.follower = x.follower
  column : y.column = x.column
  stands : ∀ c, y.standsIn c ↔ x.standsIn c
  inbound : ∀ c, y.inboundTo c ↔ x.inboundTo c
  old : x.state ≠ .closing ∧ x.state ≠ .doubt
  new : y.state = .landing ∨ y.state = .lifting ∨ y.state = .shifting

theorem Work.award_inPlace {f : Handover → Handover} {op : Operation} (ok : w.st.ledger.Ok q noColumn noRecord)
    (opened : (w.st.col c).state = .opened) (hcl : cl ∈ (w.st.col c).waitList) (hx : w.st.hand cl.handover = some x)
    (hc : x.column = some c) (own : (cl.given op).record = cl.handover) (granted : x.Granted (f x))
    (idle : w.st.ledger.Idle cl.handover) (suits : (cl.given op).suits (f x) = true)
    (top : cl.kind = .lift → (w.st.col c).stack.getLast? = some cl.handover) :
    ((w.up (·.modHand cl.handover f)).giveGrant c cl op).st.ledger.Ok q noColumn noRecord := by
  have hL := State.ledger_hand hx
  have fits := x.fits_entry.1 (ok.fits _ _ hL)
  have left := ok.shedHand c cl.handover
  have unclaimed : (w.st.ledger.shed c cl.handover).Unclaimed cl.handover :=
    ok.unclaimed_shed fun z hz => by obtain rfl := Option.mem_unique hL hz; exact hc
  have calm : (f x).state ≠ .doubt := by rcases granted.new with e | e | e <;> simp [e]
  have ledger : ((w.up (·.modHand cl.handover f)).giveGrant c cl op).st.ledger =
      (((w.st.ledger.shed c cl.handover).setHand cl.handover (some (f x).entry)).turn c .granted).setGrant c
        (some (cl.given op)) := by
    rw [Work.ledger_giveGrant fun k hk e => ok.wait_unique (by simpa using hk) hcl e, Work.up_st, State.ledger_modHand hx]
    rfl
  have p : (w.st.ledger.shed c cl.handover).Puts cl.handover (some (f x).entry)
      ((w.st.ledger.shed c cl.handover).setHand cl.handover (some (f x).entry)) :=
    left.puts_inPlace hL granted.stands granted.inbound
  rw [ledger]
  refine ok.award (g := cl.given op) opened (State.entry_mem_waits hcl) (by rw [own]; exact p) ?_ (fun rb => ?_) ⟨?_, ?_, ?_⟩
  · refine left.restate hL ((f x).fits_entry.2 (granted.fits fits)) granted.old.1 granted.bin
      (by simp [Handover.entry, granted.follower]) granted.stands granted.inbound calm
      (fun e he _ => left.not_fenced_of_inbound hL granted.old.2 ((granted.inbound e).1 he)) (fun _ => own.symm)
      (fun i _ hl => hl.elim) (idle.shed _ _) fun e k hk hh => (unclaimed e k hk hh).elim
  · rw [own, hL, Handover.followedBy_entry, Handover.followedBy_entry, granted.follower]
  · exact ⟨(f x).entry, by simp [own], granted.column.trans hc, suits⟩
  · intro hk
    rw [own, Ledger.book_setHand, Ledger.book_shed, if_pos rfl]
    exact top hk
  · exact fun ne => (ne own).elim

/-! ### A SHIFT -/

/-- The top record starts a shift: its place in the target's inbound set is taken (R77). -/
def Handover.shiftsTo (x : Handover) (t : ColIx) : Handover := { x with state := .shifting, target := some t }

@[simp] theorem Handover.state_shiftsTo (x : Handover) (t : ColIx) : (x.shiftsTo t).state = .shifting := rfl

theorem Ledger.insert_shed (L : Ledger) (c d : ColIx) (i h : HNum) : (L.insert d i).shed c h = (L.shed c h).insert d i :=
  Ledger.modBook_comm fun _ => rfl

theorem Work.award_shift {k : HNum} {t : ColIx} (ok : w.st.ledger.Ok q noColumn noRecord)
    (opened : (w.st.col c).state = .opened) (hcl : cl ∈ (w.st.col c).waitList) (lift : cl.kind = .lift)
    (top : (w.st.col c).stack.getLast? = some k) (ne : k ≠ cl.handover) (hx : w.st.hand k = some x)
    (stored : x.state = .stored) (target : w.st.digTarget x cl.robot.port c = some t) :
    ((((w.up (·.modHand k fun r => { r with state := .shifting, target := some t })).up (·.joinInbound t k)).handOccupancy)
      |>.giveGrant c cl (.shift k)).st.ledger.Ok q noColumn noRecord := by
  have hL := State.ledger_hand hx
  have fits := x.fits_entry.1 (ok.fits _ _ hL)
  have free := ok.free_of_opened (c := c) opened
  have hc : x.column = some c := ((ok.mem_stack hL).1 (List.mem_of_getLast? top)).2
  obtain ⟨takes, -, away⟩ := State.takes_of_digTarget target
  obtain ⟨z, hz, hzc, suits⟩ := State.record_of_wait ok hcl
  have zStored : z.state = .stored := by
    rcases (by simpa [Claim.suits, lift] using suits : z.state = .stored ∨ z.state = .shifting) with s | s
    · exact s
    · obtain ⟨d, hd, g, hg, -⟩ := ok.granted cl.handover id z.entry (State.ledger_hand hz) (.inr (.inr s))
      obtain rfl : d = c := Option.some_inj.1 (hd.symm.trans hzc)
      simp [free] at hg
  have left := ok.shedHand c cl.handover
  have book : (w.st.ledger.shed c cl.handover).book t = w.st.ledger.book t := by rw [Ledger.book_shed, if_neg away]
  set L := w.st.ledger.shed c cl.handover with hLdef
  have ledger : ((((w.up (·.modHand k fun r => { r with state := .shifting, target := some t })).up
      (·.joinInbound t k)).handOccupancy).giveGrant c cl (.shift k)).st.ledger =
      (((L.insert t k).setHand k (some (x.shiftsTo t).entry)).turn c .granted).setGrant c (some (cl.given (.shift k))) := by
    rw [Work.ledger_giveGrant, Work.ledger_handOccupancy, Work.up_st, State.ledger_joinInbound, Work.up_st,
      State.ledger_modHand hx]
    · show ((((w.st.ledger.insert t k).shed c cl.handover).setHand k _).turn c .granted).setGrant c _ = _
      rw [Ledger.insert_shed]
      rfl
    · intro i hi e
      refine ok.wait_unique (c := c) ?_ hcl e
      simp only [Work.col_handOccupancy, Work.up_st, State.joinInbound, State.col_modCol, State.col_modHand] at hi
      split at hi
      next e => rw [e]; exact hi
      next => exact hi
  have shifting : (x.shiftsTo t).entry.state = .shifting := rfl
  have p : L.Puts k (some (x.shiftsTo t).entry) ((L.insert t k).setHand k (some (x.shiftsTo t).entry)) := by
    refine (((left.moves k).insert t).setHand _).puts (by simp) (fun e => ?_) fun e => ?_
    · rw [Ledger.book_setHand, Ledger.stack_insert, left.mem_stack (x := x.entry) hL,
        Handover.standsIn_of_stored (x := x.entry) stored]
      simp only [Option.mem_some_iff, exists_eq_left', Handover.standsIn_of_shifting shifting]
      rfl
    · rw [Ledger.book_setHand, Ledger.mem_insert, left.mem_inbound (x := x.entry) hL]
      simp only [Option.mem_some_iff, exists_eq_left', Handover.inboundTo_of_shifting shifting,
        Handover.not_inboundTo_of_stored (x := x.entry) stored, or_false]
      exact eq_comm.trans Option.some_inj.symm
  rw [ledger]
  refine ok.award (g := cl.given (.shift k)) opened (State.entry_mem_waits hcl) p ?_ (fun rb => ?_) ⟨?_, ?_, ?_⟩
  · have idle : L.Idle k := (ok.idle_of_stored hL stored hc free).shed _ _
    refine left.proceed (x := x.entry) hL p ⟨?_, by simp [stored], rfl, fun rb => id, fun e he => ?_, fun e he _ => ?_,
      fun hd => by simp at hd, fun _ => .inl rfl⟩ (by simp) (fun i _ hl => hl.elim)
      (fun e i hi hh => ?_) fun e g hg hn => (hn.elim (idle e g hg).1 (idle e g hg).2).elim
    · rw [Handover.fits_entry]
      have notBooked : x.state ≠ .booked := by simp [stored]
      exact {
        doubt := by simp [Handover.shiftsTo, fits.doubt_eq_none (by simp [stored])]
        closing := by simp [Handover.shiftsTo, fits.closing_eq_none (by simp [stored])]
        booking := by simp [Handover.shiftsTo, fits.timer_eq_none notBooked]
        column := by simp [Handover.shiftsTo, hc]
        target := fun _ => ⟨by simp [Handover.shifted_eq, Handover.shiftsTo], fun e =>
          away (Option.some_inj.1 (e.trans hc))⟩
        moving := fun e => by cases e
        carried := fun e => by simp [Handover.shiftsTo, fits.holder_eq_none (by simp [stored])] at e
        doubted := fun d hd => by simp [Handover.shiftsTo, fits.doubt_eq_none (by simp [stored])] at hd
        follower := fits.follower }
    · rcases he with hs | hi
      · exact .inl ((Handover.standsIn_of_stored (x := x.entry) stored).2 ((Handover.standsIn_of_shifting shifting).1 hs))
      · obtain rfl : t = e := Option.some_inj.1 ((Handover.inboundTo_of_shifting shifting).1 hi)
        exact .inr (.inr (by rw [book]; exact takes.place))
    · obtain rfl : t = e := Option.some_inj.1 ((Handover.inboundTo_of_shifting shifting).1 he)
      exact .inl (by rw [book]; exact takes.not_fenced)
    · subst hh
      obtain ⟨hd, suits⟩ := left.column_of_wait hi (x := x.entry) hL
      refine ⟨hd, ?_⟩
      unfold Claim.suits at suits ⊢
      split at suits <;> simp_all
  · rw [show (cl.given (.shift k)).record = k from rfl, hL]
    rfl
  · exact ⟨(x.shiftsTo t).entry, by simp [show (cl.given (.shift k)).record = k from rfl], hc, by
      simp [Grant.suits, Claim.given, lift]⟩
  · intro _
    rw [Ledger.book_setHand, Ledger.stack_insert, hLdef, Ledger.book_shed, if_pos rfl]
    exact top
  · exact fun _ => ⟨z.entry, by
      have claim : (cl.given (.shift k)).claim.handover = cl.handover := rfl
      rw [claim, Ledger.hand_setHand, if_neg ne.symm]
      exact State.ledger_hand hz, hzc, zStored⟩

/-! ### The grant of a chosen claim -/

theorem Handover.granted_of_coming {f : Handover → Handover} (hx : x.state = .booked ∨ x.state = .moving)
    (same : f x = { x with state := .landing, bookingTimer := none }) : x.Granted (f x) := by
  have coming : x.Coming := hx.elim .inl fun e => .inr (.inr e)
  have new : (f x).Coming := .inr (.inl (by rw [same]))
  have calm : x.state ≠ .closing ∧ x.state ≠ .doubt := by rcases hx with e | e <;> simp [e]
  refine ⟨fun fits => ?_, by rw [same], by rw [same], by rw [same], fun e => iff_of_false (new.standsIn e) (coming.standsIn e),
    fun e => ?_, calm, .inl (by rw [same])⟩
  · rw [same]
    exact {
      doubt := by simp [fits.doubt_eq_none calm.2]
      closing := by simp [fits.closing_eq_none calm.1]
      booking := by simp
      column := by simpa using Option.isSome_iff_exists.2 (fits.column_isSome calm.1)
      target := fun e => by simp [fits.target_eq_none coming.shifted] at e
      moving := fun e => by cases e
      carried := fun _ => .inr (.inl rfl)
      doubted := fun d hd => by simp [fits.doubt_eq_none calm.2] at hd
      follower := fits.follower }
  · rw [new.inboundTo, coming.inboundTo, same]

theorem Handover.granted_of_stored (hx : x.state = .stored) : x.Granted { x with state := .lifting } := by
  refine ⟨fun fits => ?_, rfl, rfl, rfl, fun e => ?_, fun e => ?_, by simp [hx], .inr (.inl rfl)⟩
  · exact {
      doubt := by simp [fits.doubt_eq_none (by simp [hx])]
      closing := by simp [fits.closing_eq_none (by simp [hx])]
      booking := by simp [fits.timer_eq_none (by simp [hx])]
      column := by simpa using Option.isSome_iff_exists.2 (fits.column_isSome (by simp [hx]))
      target := fun e => by simp [fits.target_eq_none (by simp [Handover.shifted_eq, hx])] at e
      moving := fun e => by cases e
      carried := fun e => by simp [fits.holder_eq_none (by simp [hx])] at e
      doubted := fun d hd => by simp [fits.doubt_eq_none (by simp [hx])] at hd
      follower := fits.follower }
  · simp [Handover.standsIn, Handover.stacked_eq, hx]
  · simp [Handover.inboundTo, Handover.awaited_eq, Handover.shifted_eq, hx]

/-- At a column without a grant no record is being shifted. -/
theorem State.stored_of_lift {s : State} (ok : s.ledger.Ok q noColumn noRecord) (free : (s.ledger.book c).grant = none)
    (hx : s.hand h = some x) (hc : x.column = some c) (suits : x.state = .stored ∨ x.state = .shifting) :
    x.state = .stored := by
  rcases suits with e | e
  · exact e
  · obtain ⟨d, hd, g, hg, -⟩ := ok.granted h id x.entry (State.ledger_hand hx) (.inr (.inr e))
    obtain rfl : d = c := Option.some_inj.1 (hd.symm.trans hc)
    simp [free] at hg

/-- A claim that waits at an OPEN column, and whose bin can be reached, is granted (R77). -/
theorem Work.grantTo_ok (ok : w.st.ledger.Ok q noColumn noRecord) (opened : (w.st.col c).state = .opened)
    (hcl : cl ∈ (w.st.col c).waitList) (reach : cl.kind = .lift → w.st.reachable c cl = true) :
    (w.grantTo c cl).st.ledger.Ok q noColumn noRecord := by
  obtain ⟨x, hx, hc, suits⟩ := State.record_of_wait ok hcl
  have hL := State.ledger_hand hx
  have free := ok.free_of_opened (c := c) opened
  have idle (hs : x.state = .booked ∨ x.state = .moving) : w.st.ledger.Idle cl.handover :=
    ok.idle_of_state hL (by rcases hs with e | e <;> simp [e])
  unfold Work.grantTo
  split
  next kind =>
    have booked : x.state = .booked := by simpa [Claim.suits, kind] using suits
    have holder : x.holder = none := (ok.fits_hand (e := none) hx).holder_eq_none (by simp [booked])
    exact Work.award_inPlace ok opened hcl hx hc rfl (Handover.granted_of_coming
      (f := fun r => { r with state := .landing, bookingTimer := none }) (.inl booked) rfl) (idle (.inl booked))
      (by simp [Grant.suits, Claim.given, kind, holder]) fun e => by simp [kind] at e
  next kind =>
    have moving : x.state = .moving ∧ x.holder = some cl.robot := by simpa [Claim.suits, kind] using suits
    have timer : x.bookingTimer = none := (ok.fits_hand (e := none) hx).timer_eq_none (by simp [moving])
    exact Work.award_inPlace ok opened hcl hx hc rfl
      (Handover.granted_of_coming (f := fun r => { r with state := .landing }) (.inr moving.1) (by simp [timer]))
      (idle (.inr moving.1)) (by simp [Grant.suits, Claim.given, kind, moving]) fun e => by simp [kind] at e
  next kind =>
    have stored : x.state = .stored := State.stored_of_lift ok free hx hc (by simpa [Claim.suits, kind] using suits)
    split
    next top =>
      exact Work.award_inPlace ok opened hcl hx hc rfl (Handover.granted_of_stored stored) (ok.idle_of_stored hL stored hc free)
        (by simp [Grant.suits, Claim.given, kind]) fun _ => by simpa [State.onTop] using top
    next top =>
      split
      · exact ok
      next k hk =>
        split
        · exact ok
        next r hr =>
          split
          · exact ok
          next t ht =>
            have dig : w.st.digPossible c cl.robot.port = true := by simpa [State.reachable, top] using reach kind
            have stored : r.state = .stored := by
              simp only [State.digPossible, hk, hr, Bool.and_eq_true, beq_iff_eq] at dig
              exact dig.1
            have ne : k ≠ cl.handover := fun e => top (by simp [State.onTop, hk, e])
            exact Work.award_shift ok opened hcl kind hk ne hr stored ht

/-! ### The selections -/

theorem State.ledger_mark (s : State) (c : ColIx) :
    (s.modCol c fun k => { k with waitList := k.waitList.map (s.mark c) }).ledger = s.ledger :=
  State.ledger_modCol_same (by
    have same (k : Claim) : (s.mark c k).entry = k.entry := by
      unfold State.mark
      split <;> rfl
    simp [Column.books, Function.comp_def, same])

/-- The marks do not change which bins can be reached. -/
theorem State.reachable_marked (s : State) (c : ColIx) (l : List Claim) (cl : Claim) :
    (s.modCol c fun k => { k with waitList := l }).reachable c cl = s.reachable c cl := by
  have dig (p t : Region) : (s.modCol c fun k => { k with waitList := l }).digSet p t c = s.digSet p t c :=
    State.digSet_congr fun e he => by rw [State.col_modCol, if_neg he]
  have stack : ((s.modCol c fun k => { k with waitList := l }).col c).stack = (s.col c).stack := by
    rw [State.col_modCol, if_pos rfl]
  simp only [State.reachable, State.onTop, State.digPossible, dig, stack, State.hand_modCol]

/-- A selection keeps the account (R74, R75). -/
theorem Work.select_ok (ok : w.st.ledger.Ok q noColumn noRecord) (c : ColIx) :
    (w.select c).st.ledger.Ok q noColumn noRecord := by
  unfold Work.select
  extract_lets col marked chosen w₁
  split
  next open_ =>
    have ledger₁ : w₁.st.ledger = w.st.ledger := w.st.ledger_mark c
    cases hcl : chosen with
    | some cl =>
      have mem := (List.mem_filter.1 (State.mem_of_choose hcl))
      refine Work.grantTo_ok (ledger₁ ▸ ok) (by simpa [w₁] using open_.1) (by simpa [w₁, marked] using mem.1) fun kind => ?_
      rw [show w₁.st = w.st.modCol c fun k => { k with waitList := marked } from rfl, State.reachable_marked]
      have eligible := mem.2
      simp only [State.eligible, kind, Bool.and_eq_true] at eligible
      exact eligible.2
    | none => exact ledger₁ ▸ ok
  next => exact ok

theorem Work.round_ok (ok : w.st.ledger.Ok q noColumn noRecord) : w.round.st.ledger.Ok q noColumn noRecord := by
  unfold Work.round
  refine foldl_invariant (Q := fun v : Work => v.st.ledger.Ok q noColumn noRecord) (fun v c hv => ?_) _ ok
  split
  · exact Work.select_ok hv c
  · exact hv

theorem Work.rounds_ok : ∀ (n : Nat) {w : Work}, w.st.ledger.Ok q noColumn noRecord →
    (Work.rounds n w).st.ledger.Ok q noColumn noRecord
  | 0, _, ok => ok
  | n + 1, w, ok => by
    unfold Work.rounds
    split
    · exact ok
    · exact Work.rounds_ok n (Work.round_ok ok)

/-- The end of a step keeps the account. -/
theorem Work.finish_ok (ok : w.st.ledger.Ok q noColumn noRecord) : w.finish.ledger.Ok q noColumn noRecord :=
  Work.rounds_ok 9 ok

end Sys2Proof.Machine
end

