-- ==== Sys2Proof/Proofs/AccountOfBookings.lean ====
section
/-! BOOK, CANCEL, CLAIM and REGION RESTART keep the account (O57). -/
namespace Sys2Proof.Machine

variable {q : Claim → Bool} {fencing : ColIx → Prop} {loose loose' : HNum → Prop} {L L' L₁ : Ledger} {h : HNum}
  {x y : Handover} {c d : ColIx} {g : Grant} {cl : Claim} {w : Work} {s : State} {r : Region} {body : List Byte}

/-! ### BOOK (R42) -/

/-- A record in a state of its own has a bin that no other record in use holds. -/
theorem State.bin_free {bin : BinNo} (none_ : s.binHolder bin = none) {i : HNum} {z : Handover} (hz : z ∈ s.ledger.hand i)
    (inUse : z.state ≠ .closing) : z.bin ≠ bin := by
  obtain ⟨z, stands, rfl⟩ := State.mem_ledger_hand.1 hz
  have stands : s.hand i = some z := stands
  rintro rfl
  have := List.find?_eq_none.1 none_ i (HNum.mem_all i)
  simp only [stands] at this
  simp [show z.state ≠ .closing from inUse] at this

/-- A FREE record becomes a record in use that comes to a column which takes it. -/
theorem Ledger.Ok.arrive (ok : L.Ok q noColumn noRecord) (hx : L.hand h = none) (fits : y.Fits)
    (booked : y.state = .booked) (hc : y.column = some c) (takes : L.Takes c)
    (bins : ∀ i, ∀ z ∈ L.hand i, z.state ≠ .closing → z.bin ≠ y.bin) : 
    ((L.insert c h).setHand h (some y)).Ok q noColumn noRecord := by
  have coming : y.Coming := .inl booked
  have unclaimed := ok.unclaimed_of_free hx
  have idle := ok.idle_of_free hx
  have holder : y.holder = none := fits.holder_eq_none (by simp [booked])
  have p : L.Puts h (some y) ((L.insert c h).setHand h (some y)) := by
    refine (((ok.moves h).insert c).setHand _).puts (by simp) (fun e => ?_) fun e => ?_
    · rw [Ledger.book_setHand, Ledger.stack_insert]
      simp [ok.not_mem_stack_of_free hx, coming.standsIn e]
    · rw [Ledger.book_setHand, Ledger.mem_insert]
      simp only [ok.not_mem_inbound_of_free hx, or_false, Option.mem_some_iff, exists_eq_left', coming.inboundTo, hc,
        Option.some_inj]
      exact eq_comm
  have there (e : ColIx) (he : y.standsIn e ∨ y.inboundTo e) : e = c := by
    have := coming.inboundTo.1 (he.resolve_left (coming.standsIn e))
    exact Option.some_inj.1 (this.symm.trans hc)
  refine p.ok ok (fun z hz => ?_) (fun _ _ => id) (fun z hz hd => ?_) (fun e k hk hh => (unclaimed e k hk hh).elim)
    fun e k hk hn => (hn.elim (idle e k hk).1 (idle e k hk).2).elim
  · cases hz
    refine ⟨fits, fun _ i _ z hz hzc e => bins i z hz hzc e.symm, fun e he => ?_, fun e he => ?_, fun e he _ hf => ?_,
      fun hd => by simp [booked] at hd, fun _ hg => by simp [booked] at hg, fun rb hf => ?_⟩
    · rw [there e he]; exact .inr (.inr takes.1)
    · rw [there e he]; exact takes.place.2
    · exact (takes.not_fenced (there e (.inr he) ▸ hf)).elim
    · simp [followedBy, fits.follower_eq_none holder] at hf
  · cases hz
    simp [booked] at hd

theorem State.bookedRecord_fits (s : State) (r : Region) (b : BookRequest) (c : ColIx) : (s.bookedRecord r b c).Fits := by
  constructor <;> simp [State.bookedRecord]

theorem bookOwner_ok (ok : s.ledger.Ok q noColumn noRecord) :
    (bookOwner r body s).work.st.ledger.Ok q noColumn noRecord := by
  unfold bookOwner
  dsimp only
  split
  · exact ok
  next b _ =>
    split
    · exact ok
    next none_ =>
      split
      · exact ok
      next h free =>
        split
        · exact ok
        · split
          · exact ok
          next c best =>
            split
            · exact ok
            · have hx : s.hand h = none := (State.lowestFree_eq_some.1 free).1
              rw [Work.ledger_handOccupancy, State.begin_st, State.ledger_joinInbound, State.ledger_setHand]
              exact ok.arrive (State.ledger_hand_none hx) ((Handover.fits_entry _).2 (s.bookedRecord_fits r b c)) rfl rfl
                (State.takes_of_bookingSet (State.mem_of_best best)) fun i z hz hzc => State.bin_free none_ hz hzc

/-! ### CANCEL (R47) -/

/-- A BOOKED record leaves its column with its claim, and is FREE. -/
theorem Work.unbook_ok (ok : w.st.ledger.Ok q noColumn noRecord) (hx : w.st.hand h = some x) (booked : x.state = .booked)
    (hc : x.column = some c) {o : Option Handover} (ended : ∀ y ∈ o, y.Ended) :
    (((w.st.ledger.shed c h).erase c h).setHand h o).Ok q noColumn noRecord :=
  have hL := State.ledger_hand hx
  (ok.shedHand c h).goOut hL (.inl booked) hc ended
    (ok.unclaimed_shed fun y hy => by obtain rfl := Option.mem_unique hL hy; exact hc)
    ((ok.idle_of_state hL (by simp [booked])).shed c h) fun _ _ => id

theorem cancelOwner_ok (ok : s.ledger.Ok q noColumn noRecord) :
    (cancelOwner r body s).work.st.ledger.Ok q noColumn noRecord := by
  unfold cancelOwner
  split
  · exact ok
  next h _ =>
    split
    · exact ok
    next x hx =>
      split
      · exact ok
      · split
        · exact ok
        next c booked hc =>
          rw [Work.ledger_handOccupancy, Work.up_st, State.ledger_setHand, Work.ledger_leaveInbound,
            Work.ledger_leaveHand]
          exact Work.unbook_ok (w := s.begin) ok hx booked hc (fun y hy => by cases hy)
        · exact ok

/-! ### CLAIM (R70, R71) -/

/-- A claim in the books is a claim at the column. -/
theorem State.claim_of_ledger (hcl : cl ∈ (s.ledger.book c).claims) :
    (∃ k ∈ (s.col c).waitList, k.entry = cl) ∨ ∃ g ∈ (s.col c).grant, g.claim.entry = cl := by
  rcases Ledger.mem_claims.1 hcl with hw | ⟨g, hg, rfl⟩
  · exact .inl (List.mem_map.1 hw)
  · obtain ⟨g, grant, rfl⟩ := Option.mem_map.1 hg
    exact .inr ⟨g, grant, rfl⟩

/-- A robot that is not busy has no claim and is no follower. -/
theorem State.count_robot {rb : Robot} (idle : s.robotBusy rb = false) (q : Claim → Bool) :
    s.ledger.count (fun k => q k && k.robot == rb) + s.ledger.followersOf rb = 0 := by
  have quiet := mt (State.robotBusy_iff (s := s) (rb := rb)).2 (by simp [idle])
  have claims : s.ledger.count (fun k => k.robot == rb) = 0 := by
    refine Ledger.count_eq_zero.2 fun c k hk => ?_
    rw [beq_eq_false_iff_ne]
    rintro rfl
    rcases State.claim_of_ledger hk with ⟨k, mem, rfl⟩ | ⟨g, mem, rfl⟩
    · exact quiet (.inl ⟨c, .inl ⟨k, mem, rfl⟩⟩)
    · exact quiet (.inl ⟨c, .inr ⟨g, mem, rfl⟩⟩)
  have followers : s.ledger.followersOf rb = 0 := by
    rw [State.followersOf_ledger, State.followersOf, List.length_eq_zero_iff, List.filter_eq_nil_iff]
    intro h _ follows
    cases hx : s.hand h with
    | none => simp [hx] at follows
    | some x =>
      cases hf : x.follower with
      | none => simp [hx, hf] at follows
      | some f => exact quiet (.inr ⟨h, x, hx, f, hf, by simpa [hx, hf] using follows⟩)
  have fewer := s.ledger.count_mono (p := fun k => q k && k.robot == rb) (r := fun k => k.robot == rb) (by simp)
  omega

theorem State.count_record (unclaimed : s.recordClaimed h = false) :
    s.ledger.count (fun k => k.handover == h) = 0 := by
  have quiet := mt (State.recordClaimed_iff (s := s) (h := h)).2 (by simp [unclaimed])
  refine Ledger.count_eq_zero.2 fun c k hk => ?_
  rw [beq_eq_false_iff_ne]
  rintro rfl
  rcases State.claim_of_ledger hk with ⟨k, mem, rfl⟩ | ⟨g, mem, rfl⟩
  · exact quiet ⟨c, .inl ⟨k, mem, rfl⟩⟩
  · exact quiet ⟨c, .inr ⟨g, mem, rfl⟩⟩

/-- What the tests of R70 leave of the record: stored for a lift, booked for a deposit. -/
theorem ClaimRequest.suits_of_recordTest {b : ClaimRequest} (h : b.recordTest r x = none) :
    (if b.lift then x.state = .stored else x.state = .booked) := by
  unfold ClaimRequest.recordTest at h
  split at h
  · cases h
  · split at h
    next lift =>
      rw [if_pos lift]
      split at h
      · cases h
      · split at h
        · cases h
        next stored => exact not_not.1 stored
    next lift =>
      rw [if_neg lift]
      split at h
      · cases h
      · split at h
        · cases h
        next booked => exact not_not.1 booked

/-- A DEPOSIT or LIFT claim of an idle robot joins for a record that no claim names. -/
theorem Work.claim_ok {rb : Robot} {kind : ClaimKind} (ok : s.ledger.Ok q noColumn noRecord) (hx : s.hand h = some x)
    (hc : x.column = some c) (suits : kind = .lift ∧ x.state = .stored ∨ kind = .deposit ∧ x.state = .booked)
    (idle : s.robotBusy rb = false) (unclaimed : s.recordClaimed h = false) (room : (s.col c).waitList.length < 6)
    (regions : (s.col c).regionClaims < 4) (state : (s.col c).state ≠ .fenced) :
    (s.begin.joinNew c rb kind h).st.ledger.Ok q noColumn noRecord := by
  have hL := State.ledger_hand hx
  rw [Work.ledger_joinNew]
  refine ok.join (by rw [State.ledger_waits_card]; exact room) (fun _ => ?_) ?_ (fun hf => (state hf).elim)
    ⟨x.entry, hL, hc, ?_⟩ (State.count_record unclaimed) fun _ => State.count_robot idle q
  · rw [State.ledger_regions]
    exact regions
  · rcases suits with ⟨-, stored⟩ | ⟨-, booked⟩
    · exact ok.served hL (.inl ((Handover.standsIn_of_stored (x := x.entry) stored).2 hc))
    · exact ok.served hL (.inr ((Handover.Coming.inboundTo (x := x.entry) (.inl booked)).2 hc))
  · rcases suits with ⟨rfl, state⟩ | ⟨rfl, state⟩ <;> simp [Claim.suits, state]

theorem claimOwner_ok (ok : s.ledger.Ok q noColumn noRecord) :
    (claimOwner r body s).work.st.ledger.Ok q noColumn noRecord := by
  unfold claimOwner
  split
  · exact ok
  next b _ =>
    split
    · exact ok
    next x hx =>
      split
      · exact ok
      · exact ok
      next c test hc =>
        extract_lets rb col w f
        split
        · exact ok
        next quiet =>
          split
          · exact ok
          next served =>
            split
            · exact ok
            next room =>
              obtain ⟨idle, unclaimed⟩ := by simpa only [Bool.or_eq_true, not_or, Bool.not_eq_true] using quiet
              obtain ⟨-, state⟩ := not_or.1 served
              obtain ⟨short, few⟩ := not_or.1 room
              have suits := ClaimRequest.suits_of_recordTest test
              refine Work.claim_ok ok hx hc ?_ idle unclaimed (not_le.1 short) (not_le.1 few) state
              unfold ClaimRequest.kind
              cases hl : b.lift <;> simp_all

end Sys2Proof.Machine
end

