-- ==== Sys2Proof/Proofs/AccountOfRemovals.lean ====
section
/-! REGION RESTART, the removal of notices, CONFIGURE COLUMN, FENCE, RESTORE and REINITIALIZE keep the account (O57). -/
namespace Sys2Proof.Machine

variable {q : Claim → Bool} {fencing : ColIx → Prop} {loose loose' : HNum → Prop} {L L' L₁ : Ledger} {h : HNum}
  {x y : Handover} {c d : ColIx} {g : Grant} {cl : Claim} {w : Work} {s : State} {r : Region} {body : List Byte}

/-! ### Records that let go -/

/-- A record changes nothing that its claims and grants ask for, and may lose its follower. -/
theorem Ledger.Ok.rewrite (ok : L.Ok q fencing loose) (hx : L.hand h = some x) (fits : y.Fits) (state : y.state = x.state)
    (column : y.column = x.column) (target : y.target = x.target) (holder : y.holder = x.holder)
    (doubt : y.doubt = x.doubt) (bin : y.bin = x.bin)
    (follower : ∀ rb, followedBy rb (some y) = true → followedBy rb (some x) = true) :
    (L.setHand h (some y)).Ok q fencing loose := by
  have stacked : y.stacked = x.stacked := by simp only [Handover.stacked_eq, state, doubt]
  have awaited : y.awaited = x.awaited := by simp only [Handover.awaited_eq, state, doubt]
  have shifted : y.shifted = x.shifted := by simp only [Handover.shifted_eq, state, doubt]
  have stands (e : ColIx) : y.standsIn e ↔ x.standsIn e := by simp only [Handover.standsIn, stacked, column]
  have inbound (e : ColIx) : y.inboundTo e ↔ x.inboundTo e := by
    simp only [Handover.inboundTo, awaited, shifted, column, target]
  have p := ok.puts_inPlace hx stands inbound
  refine p.ok ok (fun z hz => ?_) (fun _ _ => id) (fun z hz hd hs e he => ?_) (fun e k hk hh => ?_)
    fun e k hk _ => (ok.grant e k hk).recast hx p.self p.other column state holder rfl
  · cases hz
    refine ⟨fits, fun hc i hi z hz hzc e => ?_, fun e he => ?_, fun e he => ?_, fun e he hf hc => ?_, fun hd e he => ?_,
      fun hl hs => ?_, fun rb hf => .inl (by rw [hx]; exact follower rb hf)⟩
    · exact hi (ok.bins i h z hz x hx hzc (state ▸ hc) (e.symm.trans bin))
    · exact he.elim (fun hs => .inl ((ok.mem_stack hx).2 ((stands e).1 hs)))
        fun hi => .inr (.inl ((ok.mem_inbound hx).2 ((inbound e).1 hi)))
    · exact ok.served hx (he.imp (stands e).1 (inbound e).1)
    · exact state.trans (ok.fencedInbound e hf hc h ((ok.mem_inbound hx).2 ((inbound e).1 he)) x hx)
    · obtain ⟨fenced, -, alone⟩ := ok.doubt h x hx (state ▸ hd) e (column ▸ he)
      exact ⟨fenced, fun i hi z hz hzd hzc => hi (alone i z hz hzd hzc)⟩
    · rw [column]
      exact ok.granted h hl x hx (state ▸ hs)
  · cases hz
    exact (ok.doubt h x hx (state ▸ hd) e (column ▸ he)).2.1 (stacked ▸ hs)
  · subst hh
    obtain ⟨hd, suits⟩ := ok.column_of_wait hk hx
    exact ⟨y, rfl, column.trans hd, by unfold Claim.suits at suits ⊢; rwa [state, holder]⟩

/-- A CLOSING record goes FREE. -/
theorem Ledger.Ok.free (ok : L.Ok q fencing loose) (hx : L.hand h = some x) (closing : x.state = .closing) :
    (L.setHand h none).Ok q fencing loose := by
  have ended : x.Ended := ⟨closing, ok.fits h x hx⟩
  have p : L.Puts h none (L.setHand h none) :=
    ((ok.moves h).setHand none).puts (by simp)
      (fun e => by simp [ok.mem_stack hx, (ended.nowhere e).1]) fun e => by simp [ok.mem_inbound hx, (ended.nowhere e).2]
  refine ok.retire p (fun y hy => by cases hy) (fun e k hk hh => ?_) (ok.idle_of_state hx (by simp [closing])) fun _ _ => id
  subst hh
  have column := (ok.column_of_wait hk hx).1
  exact (ended.2.column.1 (by simp [column])) closing

/-! ### The removal of notices (R50, R152) -/

theorem State.releaseWaiting_ok (ok : s.ledger.Ok q noColumn noRecord) (r : Region) (h : HNum) :
    (s.releaseWaiting r h).ledger.Ok q noColumn noRecord := by
  unfold State.releaseWaiting
  split
  · exact ok
  next x hx =>
    split
    · exact ok
    next cl hcl =>
      have fits : x.Fits := ok.fits_hand (e := none) hx
      split
      · extract_lets left
        split
        · rw [State.ledger_setHand]
          exact ok.free (State.ledger_hand hx) (fits.closing.1 (by simp [hcl]))
        · rw [State.ledger_setHand_same hx (by simp [Handover.entry, hcl])]
          exact ok
      · exact ok

theorem State.noticeGone_ok (ok : s.ledger.Ok q noColumn noRecord) (p : Port) (n : Notice) :
    (s.noticeGone p n).ledger.Ok q noColumn noRecord := by
  unfold State.noticeGone
  split
  · rw [State.ledger_grantNoticed]; exact ok
  · exact State.releaseWaiting_ok ok _ _
  · exact State.releaseWaiting_ok ok _ _
  · exact State.releaseWaiting_ok ok _ _
  · exact ok

theorem State.removeItems_ok (ok : s.ledger.Ok q noColumn noRecord) (p : Port) (f : Notice → Bool) :
    (s.removeItems p f).ledger.Ok q noColumn noRecord :=
  foldl_invariant (Q := fun t : State => t.ledger.Ok q noColumn noRecord) (f := fun t n => t.noticeGone p n)
    (fun _ n ht => State.noticeGone_ok ht p n) _ (b := s.modPending p _) ok

theorem State.removeKind_ok (ok : s.ledger.Ok q noColumn noRecord) (k : NoticeKind) :
    (s.removeKind k).ledger.Ok q noColumn noRecord :=
  foldl_invariant (Q := fun t : State => t.ledger.Ok q noColumn noRecord)
    (f := fun t p => t.removeItems p fun n => n.kind == k) (fun _ p ht => State.removeItems_ok ht p _) _ ok

/-! ### REGION RESTART (R52) -/

theorem State.dropFollowers_ok (ok : s.ledger.Ok q noColumn noRecord) (r : Region) :
    (s.dropFollowers r).ledger.Ok q noColumn noRecord := by
  refine foldl_invariant (Q := fun t : State => t.ledger.Ok q noColumn noRecord) (fun t h ht => ?_) _ ok
  cases hx : t.hand h with
  | none => rw [State.modHand_of_none hx]; exact ht
  | some x =>
    rw [State.ledger_modHand hx]
    have hL := State.ledger_hand hx
    have fits : x.Fits := ht.fits_hand (e := none) hx
    have let_go : Ledger.Ok q noColumn noRecord (t.ledger.setHand h (some ({ x with follower := none } : Handover).entry)) :=
      ht.rewrite hL ((Handover.fits_entry _).2 { fits with follower := fun e => by cases e }) rfl rfl rfl rfl rfl rfl
        fun rb hf => by simp [followedBy, Handover.entry] at hf
    have stays : t.ledger.setHand h (some x.entry) = t.ledger := Ledger.setHand_self hL
    split
    · split
      · exact let_go
      · rw [stays]; exact ht
    · rw [stays]; exact ht

theorem restartOwner_ok (ok : s.ledger.Ok q noColumn noRecord) :
    (restartOwner r body s).work.st.ledger.Ok q noColumn noRecord := by
  unfold restartOwner
  extract_lets w₁ w₂ w₃
  have left : w₁.st.ledger.Ok q noColumn noRecord :=
    foldl_invariant (Q := fun w : Work => w.st.ledger.Ok q noColumn noRecord)
      (f := fun w c => w.leave c (regionClaimOf r)) (fun w c hw => by
        rw [w.ledger_leave c (p := regionClaimOf r) (e := regionClaimOf r) fun _ _ => rfl]
        exact hw.shed c (f := fun m => m.filter fun cl => regionClaimOf r cl = false) fun _ => Multiset.filter_le _ _)
      _ (b := s.begin) ok
  clear_value w₁
  have removed : w₂.st.ledger.Ok q noColumn noRecord :=
    State.removeItems_ok (s := w₁.st.dropFollowers r) (State.dropFollowers_ok left r) _ _
  clear_value w₂
  have released (l : List HNum) : (l.foldl (fun t h => t.releaseWaiting r h) w₂.st).ledger.Ok q noColumn noRecord :=
    foldl_invariant (Q := fun t : State => t.ledger.Ok q noColumn noRecord) (f := fun t h => t.releaseWaiting r h)
      (fun t h ht => State.releaseWaiting_ok ht r h) _ removed
  show w₃.st.ledger.Ok q noColumn noRecord
  rw [show w₃ = w₂.up (fun s => HNum.all.foldl (fun s h => s.releaseWaiting r h) s) from rfl, Work.up_st]
  exact released HNum.all

/-! ### FENCE, RESTORE and REINITIALIZE (R26, R114, R122) -/

theorem Ledger.Ok.no_grant (ok : L.Ok q fencing loose) (state : (L.book c).state ≠ .granted) : (L.book c).grant = none := by
  by_contra ne
  exact state (ok.granting c (Option.isSome_iff_ne_none.2 ne))

/-- A column that is not GRANTED enters FENCED. -/
theorem Work.fence_ok {cause : FenceCause} {who : Option (Robot × HNum)} (ok : w.st.ledger.Ok q noColumn noRecord)
    (ordered : w.st.ColumnsOrdered) (state : (w.st.col c).state ≠ .granted) :
    (w.enterFenced c cause who).st.ledger.Ok q noColumn noRecord :=
  have free := ok.no_grant (c := c) state
  Work.enterFenced_ok ordered (ok.toFence free) free

theorem fenceOwner_ok (ok : s.ledger.Ok q noColumn noRecord) (ordered : s.ColumnsOrdered) :
    (fenceOwner body s).work.st.ledger.Ok q noColumn noRecord := by
  unfold fenceOwner
  split
  · exact ok
  next c _ =>
    have fences (state : (s.col c).state ≠ .granted) :
        (s.begin.enterFenced c .supervisor none).st.ledger.Ok q noColumn noRecord :=
      Work.fence_ok (w := s.begin) ok ordered state
    split
    next h => exact fences (by simp [h])
    next h => exact fences (by simp [h])
    · rw [State.refuse_work, State.begin_st, State.ledger_modCol_same rfl]
      exact ok
    all_goals exact ok

theorem restoreOwner_ok (ok : s.ledger.Ok q noColumn noRecord) :
    (restoreOwner body s).work.st.ledger.Ok q noColumn noRecord := by
  unfold restoreOwner
  split
  · exact ok
  next c _ =>
    extract_lets k seen w
    split
    · exact ok
    next fenced =>
      split
      · exact ok
      next noDoubt =>
        split
        · exact ok
        · have ledger : w.st.ledger = s.ledger.turn c .opened := by
            show ((s.modCol c fun k => { k with state := .opened, cause := none }).postFence c).ledger = _
            rw [State.postFence, State.ledger_postAll]
            exact State.ledger_modCol rfl
          show w.st.ledger.Ok q noColumn noRecord
          rw [ledger]
          have fenced : (s.ledger.book c).state = .fenced := not_not.1 fenced
          refine ok.turn (fun _ _ h => h) (by simp) (by simp) (fun _ h x hx hd hc => ?_) (ok.no_grant (by simp [fenced]))
          obtain ⟨x, stands, rfl⟩ := State.mem_ledger_hand.1 hx
          have stands : s.hand h = some x := stands
          have none_ := List.find?_eq_none.1 noDoubt h (HNum.mem_all h)
          simp only [stands] at none_
          simp [show x.state = .doubt from hd, show x.column = some c from hc] at none_

/-- An account without records and claims. -/
theorem Ledger.Ok.blank (hand : ∀ h, L.hand h = none) (stack : ∀ c, (L.book c).stack = [])
    (inbound : ∀ c, (L.book c).inbound = ∅) (waits : ∀ c, (L.book c).waits = 0) (grant : ∀ c, (L.book c).grant = none) :
    L.Ok q fencing loose where
  fits h x hx := by simp [hand] at hx
  once c := by simp [stack]
  stack c h := by simp [stack, hand]
  inbound c h := by simp [inbound, hand]
  bins h i x hx := by simp [hand] at hx
  room c := by simp [stack, inbound]
  waits c := by simp [waits]
  regions c := by simp [waits]
  empty c _ := ⟨stack c, inbound c, waits c⟩
  fencedWaits c _ _ := waits c
  fencedInbound c _ _ h hh := by simp [inbound] at hh
  granting c hc := by simp [grant] at hc
  doubt h x hx := by simp [hand] at hx
  waiting c cl hcl := by simp [waits] at hcl
  grant c g hg := by simp [grant] at hg
  granted h _ x hx := by simp [hand] at hx
  record h := by
    rw [Ledger.count_eq_zero.2]
    · exact Nat.zero_le 1
    · intro c cl hcl
      simp [Books.claims, waits, grant] at hcl
  robots rb := by
    have none_ : L.count (fun cl => q cl && cl.robot == rb) = 0 := Ledger.count_eq_zero.2 fun c cl hcl => by
      simp [Books.claims, waits, grant] at hcl
    simp [none_, Ledger.followersOf, hand, followedBy]

theorem reinitializeOwner_ok : (reinitializeOwner body s).work.st.ledger.Ok q noColumn noRecord := by
  unfold reinitializeOwner
  rw [Work.ledger_handOccupancy]
  refine .blank (fun h => State.ledger_hand_none (by simp)) ?_ ?_ ?_ ?_ <;> intro c <;>
    simp [State.ledger, Column.books, Column.reinitialized]

theorem State.powered_ok (asserted : Bool) : (s.powered asserted).ledger.Ok q noColumn noRecord := by
  refine .blank (fun h => State.ledger_hand_none (by simp)) ?_ ?_ ?_ ?_ <;> intro c <;>
    simp [State.ledger, Column.books, Column.initial]

/-! ### CONFIGURE COLUMN (R2 to R6, R33) -/

/-- Nothing stands at the column. -/
theorem Ledger.Ok.no_doubt (ok : L.Ok q fencing loose) (stack : (L.book c).stack = []) (inbound : (L.book c).inbound = ∅)
    (hx : L.hand h = some x) (doubt : x.state = .doubt) : x.column ≠ some c := by
  intro hc
  obtain ⟨d, hd⟩ := Option.isSome_iff_exists.1 ((ok.fits h x hx).doubt.2 doubt)
  have stands : x.standsIn c ∨ x.inboundTo c := by
    simp only [Handover.standsIn, Handover.inboundTo, Handover.stacked_eq, Handover.awaited_eq, hc, doubt, hd]
    cases e : d.op <;> simp [e]
  rcases stands with hs | hi
  · simpa [stack] using (ok.mem_stack hx).2 hs
  · simpa [inbound] using (ok.mem_inbound hx).2 hi

theorem State.reconfigured_ok {new : ColumnConfig} (ok : s.ledger.Ok q noColumn noRecord) (controlled : s.ColumnsControlled)
    (allowed : s.changesAllowed c new = true) :
    (s.modCol c fun k => k.reconfigured new).ledger.Ok q noColumn noRecord := by
  have deep (st : ColState) (ok' : (s.ledger.turn c st).Ok q noColumn noRecord) :
      ((s.ledger.turn c st).modBook c fun b => { b with depth := new.depth }).Ok q noColumn noRecord := by
    refine ok'.deepen ?_
    have room := ok.room c
    have card : (s.ledger.book c).inbound.card ≤ (s.col c).inbound.length := List.toFinset_card_le _
    have depth : (s.ledger.book c).depth = (s.col c).cfg.depth := rfl
    have stack : (s.ledger.book c).stack = (s.col c).stack := rfl
    unfold State.changesAllowed at allowed
    simp only [Bool.and_eq_true, Bool.or_eq_true, beq_iff_eq, Column.height] at allowed
    have fitting := allowed.1.1.1.2.imp_right of_decide_eq_true
    simp only [Ledger.book_turn, if_true]
    rw [depth, stack] at room
    rw [stack]
    omega
  have same : s.ledger.turn c (s.ledger.book c).state = s.ledger := Ledger.modBook_self rfl
  by_cases off : (s.col c).cfg.enabled = true ∧ new.enabled = false
  · have books : ((s.col c).reconfigured new).books =
        { ({ (s.col c).books with state := .disabled } : Books) with depth := new.depth } := by
      rw [Column.reconfigured_eq, if_pos off]; rfl
    rw [State.ledger_modCol (g := fun b => { ({ b with state := .disabled } : Books) with depth := new.depth }) books,
      ← Ledger.modBook_modBook (f := fun b => { b with state := .disabled }) (g := fun b => { b with depth := new.depth })]
    refine deep .disabled ?_
    obtain ⟨height, waits⟩ : (s.col c).height = 0 ∧ (s.col c).waitList = [] := by
      unfold State.changesAllowed at allowed
      simp only [Bool.and_eq_true, Bool.or_eq_true, off.1, off.2, Bool.not_true, Bool.false_eq_true, false_or,
        beq_iff_eq, List.isEmpty_iff] at allowed
      exact ⟨allowed.1.1.1.1.1.2, allowed.1.1.1.1.2⟩
    have state := State.disabling_of_changesAllowed allowed off.2 off.1
    have stack : (s.ledger.book c).stack = [] := List.length_eq_zero_iff.1 (Nat.add_eq_zero_iff.1 height).1
    have inbound : (s.ledger.book c).inbound = ∅ :=
      (List.toFinset_eq_empty_iff _).2 (List.length_eq_zero_iff.1 (Nat.add_eq_zero_iff.1 height).2)
    refine ok.turn (fun _ _ h => h) (fun _ => ⟨stack, inbound, State.ledger_waits_eq_zero.2 waits⟩) (by simp)
      (fun _ h x hx hd => ok.no_doubt stack inbound hx hd) (ok.no_grant ?_)
    rcases state with e | e <;> simp [show (s.ledger.book c).state = _ from e]
  · by_cases on : (s.col c).cfg.enabled = false ∧ new.enabled = true
    · have books : ((s.col c).reconfigured new).books =
          { ({ (s.col c).books with state := .unknown } : Books) with depth := new.depth } := by
        rw [Column.reconfigured_eq, if_neg off, if_pos on]; rfl
      rw [State.ledger_modCol (g := fun b => { ({ b with state := .unknown } : Books) with depth := new.depth }) books,
        ← Ledger.modBook_modBook (f := fun b => { b with state := .unknown }) (g := fun b => { b with depth := new.depth })]
      refine deep .unknown ?_
      have state : (s.ledger.book c).state = .disabled := (controlled c).enabled.1 on.1
      have empty := ok.empty c (.inr state)
      exact ok.turn (fun _ _ h => h) (fun _ => empty) (by simp)
        (fun _ h x hx hd => ok.no_doubt empty.1 empty.2.1 hx hd) (ok.no_grant (by simp [state]))
    · have books : ((s.col c).reconfigured new).books = { (s.col c).books with depth := new.depth } := by
        rw [Column.reconfigured_eq, if_neg off, if_neg on]; rfl
      rw [State.ledger_modCol (g := fun b => { b with depth := new.depth }) books, ← same]
      exact deep _ (by rw [same]; exact ok)

end Sys2Proof.Machine
end

