-- ==== Sys2Proof/Proofs/AccountOfReports.lean ====
section
/-! What a completion report that is taken finds, on time or late, in the ledger without the grant it ends (O57). -/
namespace Sys2Proof.Machine

variable {q : Claim → Bool} {fencing : ColIx → Prop} {loose loose' : HNum → Prop} {L L' L₁ : Ledger} {h : HNum}
  {x y : Handover} {c d : ColIx} {g : Grant} {cl : Claim} {w : Work} {s : State} {r : Region} {body : List Byte}
  {rb : Robot} {op : OpKind} {m : Matched}

/-- What is asked of the robots' claims depends on their kind, and asks all of DEPOSIT and LIFT claims. -/
structure Claim.Sort (q : Claim → Bool) : Prop where
  region : ∀ cl : Claim, cl.isRegion = true → q cl = true
  kind : ∀ a b : Claim, a.kind = b.kind → q a = q b

/-- The robot has no claim that is judged with its HOLDING claims, and is no follower. -/
def Ledger.MayHold (q : Claim → Bool) (L : Ledger) (rb : Robot) : Prop := ∀ cl : Claim, cl.kind = .holding → q cl = true →
  L.count (fun k => q k && k.robot == rb) + L.followersOf rb = 0

/-- The robots of the records in DOUBT have not claimed since. -/
def State.DoubtsWait (q : Claim → Bool) (s : State) : Prop :=
  ∀ h, ∀ x ∈ s.hand h, ∀ d ∈ x.doubt, s.ledger.MayHold q d.robot

/-- The ledger once a grant of the operation `op` by `rb` at column `c` has ended, or its timeout has: record `h` is still as
the operation left it. -/
structure Ledger.Reported (q : Claim → Bool) (rb : Robot) (h : HNum) (x : Handover) (c : ColIx) (op : OpKind) (L : Ledger) :
    Prop where
  ok : L.Ok q noColumn (· = h)
  hand : L.hand h = some x.entry
  column : x.column = some c
  idle : L.Idle h
  free : (L.book c).grant = none
  state : x.state = .landing ∨ x.state = .lifting ∨ x.state = .shifting ∨ x.state = .doubt
  awaited : op = .deposit ∨ op = .holding → x.awaited = true
  lying : op = .lift ∨ op = .shift → x.stacked = true ∧ (L.book c).stack.getLast? = some h
  shifted : x.shifted = true ↔ op = .shift
  holder : x.holder = if op = .holding then some rb else none
  alone : ∀ i, i ≠ h → ∀ z ∈ L.hand i, z.state = .doubt → z.column ≠ some c
  unclaimed : op ≠ .shift → L.Unclaimed h
  robot : L.MayHold q rb

/-- The column whose grant a report ends. -/
def Matched.ended (m : Matched) : Option ColIx := m.grant.map fun _ => m.column

theorem Grant.suits_kind (suits : g.suits x = true) :
    (g.op.kind = .deposit → g.claim.kind = .deposit ∧ x.state = .landing ∧ x.holder = none) ∧
    (g.op.kind = .holding → g.claim.kind = .holding ∧ x.state = .landing ∧ x.holder = some g.claim.robot) ∧
    (g.op.kind = .lift → g.claim.kind = .lift ∧ x.state = .lifting) ∧
    (g.op.kind = .shift → g.claim.kind = .lift ∧ x.state = .shifting) := by
  unfold Grant.suits at suits
  split at suits <;> simp_all [Operation.kind]

theorem Grant.record_own (h : g.op.kind ≠ .shift) : g.record = g.claim.handover := by
  unfold Grant.record
  split
  next e => simp [e, Operation.kind] at h
  all_goals rfl

/-- A report on time. -/
theorem State.reported_on_time (sort : Claim.Sort q) (ok : s.ledger.Ok q noColumn noRecord)
    (hg : (s.ledger.book c).grant = some g) (hx : s.hand g.record = some x) :
    (s.ledger.without (some c)).Reported q g.claim.robot g.record x c g.op.kind := by
  have hL := State.ledger_hand hx
  obtain ⟨⟨y, hy, hc, suits⟩, top, -⟩ := ok.grant c g hg
  obtain rfl := Option.mem_unique hL hy
  obtain ⟨deposit, holding, lift, shift⟩ := Grant.suits_kind suits
  have fits : x.Fits := ok.fits_hand (e := none) hx
  have granted := ok.granting c (by simp [hg])
  have counts (p : Claim → Bool) := Ledger.count_ungrant hg p
  have state := Grant.state_of_suits suits
  have calm : x.state ≠ .doubt ∧ x.state ≠ .moving := by rcases state with e | e | e <;> simp [show x.state = _ from e]
  have away (hs : x.state = .lifting ∨ x.state = .shifting) : x.holder = none :=
    fits.holder_eq_none (by rcases hs with e | e <;> simp [e])
  refine ⟨(ok.ungrant hg).weaken (fun _ => id) fun i hi => hi.resolve_left id, by rw [Ledger.hand_without]; exact hL, hc,
    ok.idle_ungranted hg, by simp [Ledger.book_without], state.imp_right (Or.imp_right .inl), fun h => ?_, fun h => ?_, ?_, ?_,
    fun i _ z hz hd hzc => ?_, fun h => ?_, fun k hk hq => ?_⟩
  · have landing : x.state = .landing := h.elim (fun e => (deposit e).2.1) fun e => (holding e).2.1
    simp [Handover.awaited_eq, landing]
  · have lies : x.stacked = true := by
      rw [Handover.stacked_eq]
      rcases h with e | e
      · simp [show x.state = _ from (lift e).2]
      · simp [show x.state = _ from (shift e).2]
    exact ⟨lies, by rw [Ledger.stack_without]; exact top (h.elim (fun e => (lift e).1) fun e => (shift e).1)⟩
  · rw [Handover.shifted_eq]
    cases e : g.op.kind
    · simp [show x.state = _ from (deposit e).2.1]
    · simp [show x.state = _ from (lift e).2]
    · simp [show x.state = _ from (shift e).2]
    · simp [show x.state = _ from (holding e).2.1]
  · cases e : g.op.kind
    · simpa using (deposit e).2.2
    · simpa using away (.inl (lift e).2)
    · simpa using away (.inr (shift e).2)
    · simpa using (holding e).2.2
  · rw [Ledger.hand_without] at hz
    have fenced := (ok.doubt i z hz hd c hzc).1
    simp [granted] at fenced
  · have own := Grant.record_own h
    have one := ok.record g.record
    have less := counts fun k => k.handover == g.record
    rw [if_pos (by simp [own])] at less
    have zero : (s.ledger.without (some c)).count (fun k => k.handover == g.record) = 0 := by
      show (s.ledger.modBook c fun b => { b with grant := none }).count _ = 0
      omega
    intro e k hk hh
    have := Ledger.count_eq_zero.1 zero e k (Ledger.mem_claims.2 (.inl hk))
    simp [hh] at this
  · have judged : q g.claim = true := by
      by_cases region : g.claim.isRegion = true
      · exact sort.region _ region
      · rw [sort.kind g.claim k, hq]
        rw [hk]
        unfold Claim.isRegion at region
        split at region <;> simp_all
    have one := ok.robots g.claim.robot
    have less := counts fun k => q k && k.robot == g.claim.robot
    rw [if_pos (by simp [judged])] at less
    show (s.ledger.modBook c fun b => { b with grant := none }).count _ + s.ledger.followersOf _ = 0
    omega

/-- A late report. -/
theorem State.reported_late {t : Doubt} (ok : s.ledger.Ok q noColumn noRecord) (wait : s.ledger.MayHold q t.robot)
    (hx : s.hand h = some x) (doubt : x.state = .doubt) (ht : x.doubt = some t) (hc : x.column = some c) :
    (s.ledger.without none).Reported q t.robot h x c t.op := by
  have hL := State.ledger_hand hx
  have fits : x.Fits := ok.fits_hand (e := none) hx
  obtain ⟨fenced, top, alone⟩ := ok.doubt h x.entry hL doubt c hc
  refine ⟨ok.weaken (fun _ => id) fun _ hi => hi.elim, hL, hc, ok.idle_of_state hL (by simp [doubt]),
    ok.no_grant (by simp [fenced]), .inr (.inr (.inr doubt)), fun h => ?_, fun h => ?_, ?_, fits.doubted t ht,
    fun i hi z hz hd hzc => hi (alone i z hz hd hzc), fun _ e k hk hh => ?_, wait⟩
  · rw [Handover.awaited_eq]
    rcases h with e | e <;> simp [doubt, ht, e]
  · have lies : x.stacked = true := by
      rw [Handover.stacked_eq]
      rcases h with e | e <;> simp [doubt, ht, e]
    exact ⟨lies, top lies⟩
  · simp [Handover.shifted_eq, doubt, ht]
  · subst hh
    have := Claim.state_of_suits (ok.column_of_wait hk hL).2
    simp [doubt] at this

/-- A report that is taken. -/
theorem State.reported (sort : Claim.Sort q) (ok : s.ledger.Ok q noColumn noRecord) (wait : s.DoubtsWait q)
    (hx : s.hand h = some x) (hm : s.matchReport rb h x = some m) :
    (s.ledger.without m.ended).Reported q rb h x m.column m.op ∧
      (m.grant = none → (s.ledger.book m.column).state = .fenced) ∧
      ∀ g ∈ m.grant, (s.ledger.book m.column).state = .granted ∧ g.claim.robot = rb ∧ g.op.kind = m.op ∧ g.record = h ∧
        (s.ledger.book m.column).grant = some g.entry := by
  unfold State.matchReport at hm
  split at hm
  next c g hg =>
    cases hm
    obtain ⟨d, -, hd⟩ := List.exists_of_findSome?_eq_some hg
    split at hd
    next g' hg' =>
      split at hd
      next own =>
        cases hd
        have grant : (s.ledger.book c).grant = some g.entry := by
          show (s.col c).grant.map Grant.entry = _
          rw [hg']; rfl
        obtain ⟨rfl, rfl⟩ := own
        have reported := State.reported_on_time (g := g.entry) (c := c) (x := x) sort ok grant hx
        refine ⟨reported, fun e => (Option.some_ne_none _ e).elim, ?_⟩
        rintro _ ⟨⟩
        exact ⟨ok.granting c (by simp [grant]), rfl, rfl, rfl, grant⟩
      · cases hd
    · cases hd
  · split at hm
    next t c doubt ht hc =>
      split at hm
      next own =>
        cases hm
        subst own
        exact ⟨State.reported_late ok (wait h x hx t ht) hx doubt ht hc,
          fun _ => (ok.doubt h x.entry (State.ledger_hand hx) doubt c hc).1, fun g hg => by cases hg⟩
      · cases hm
    · cases hm

/-! ### The end of a report -/

/-- The column of a report leaves GRANTED when the report is on time. -/
theorem Work.endGrant_ok (ordered : w.st.ColumnsOrdered) (ok : (w.st.ledger.without m.ended).Ok q noColumn noRecord)
    (state : m.grant.isSome = true → (w.st.col m.column).state = .granted) :
    (w.endGrant m).st.ledger.Ok q noColumn noRecord := by
  unfold Work.endGrant
  cases hg : m.grant with
  | none =>
    rw [Matched.ended, hg] at ok
    exact ok
  | some g =>
    rw [Matched.ended, hg] at ok
    exact Work.completeGrant_ok ordered ok (by
      rw [show (w.st.ledger.book m.column).state = _ from state (by simp [hg])]
      simp)

/-- A part of a step leaves the state of a column, if it leaves its control fields. -/
theorem Work.state_of_calm (calm : ∀ {Q : State → Prop}, Calm Q → Q s → Q w.st) (c : ColIx) :
    (w.st.col c).state = (s.col c).state :=
  (Column.control_eq (calm (calm_control c (s.col c).control) rfl)).1

end Sys2Proof.Machine
end

