-- ==== Sys2Proof/Proofs/AccountOfLandings.lean ====
section
/-! LANDED and LIFTED on a lift, and what each does to the record it reports (O57). -/
namespace Sys2Proof.Machine

variable {q : Claim → Bool} {fencing : ColIx → Prop} {loose loose' : HNum → Prop} {L L' L₁ M : Ledger} {h : HNum}
  {x y : Handover} {c d : ColIx} {g : Grant} {cl : Claim} {w : Work} {s : State} {r : Region} {body : List Byte}
  {rb : Robot} {op : OpKind} {m : Matched} {e : Option ColIx}

namespace Ledger.Reported

variable (R : M.Reported q rb h x c op)
include R

theorem fits : x.Fits := x.fits_entry.1 (R.ok.fits h x.entry R.hand)

theorem inUse : x.state ≠ .closing ∧ x.state ≠ .booked ∧ x.state ≠ .moving ∧ x.state ≠ .stored := by
  rcases R.state with e | e | e | e <;> simp [e]

theorem not_shifted (ne : op ≠ .shift) : x.shifted = false := by
  rw [← Bool.not_eq_true, R.shifted]
  exact ne

/-- A deposit or a holding landing stands inbound at its column. -/
theorem coming (hop : op = .deposit ∨ op = .holding) :
    (∀ e, ¬ x.standsIn e) ∧ ∀ e, x.inboundTo e ↔ e = c := by
  have awaited := R.awaited hop
  have still := R.not_shifted (by rcases hop with e | e <;> simp [e])
  refine ⟨fun e => by simp [Handover.standsIn, Handover.not_stacked_of_awaited awaited], fun e => ?_⟩
  simp only [Handover.inboundTo, awaited, still, R.column, Option.some_inj, true_and, false_and, or_false,
    Bool.false_eq_true]
  exact eq_comm

/-- A lift or a shift stands on top of the stack of its column. -/
theorem lies (hop : op = .lift ∨ op = .shift) :
    (∀ e, x.standsIn e ↔ e = c) ∧ ∀ e, x.inboundTo e ↔ op = .shift ∧ x.target = some e := by
  have stacked := (R.lying hop).1
  have awaited : x.awaited = false := by
    by_contra ne
    simp [Handover.not_stacked_of_awaited (Bool.eq_true_of_not_eq_false ne)] at stacked
  refine ⟨fun e => ?_, fun e => by simp [Handover.inboundTo, awaited, R.shifted]⟩
  simp only [Handover.standsIn, stacked, R.column, Option.some_inj, true_and]
  exact eq_comm

theorem topFree : M.TopFree h c :=
  ⟨fun g hg => by simp [R.free] at hg, fun i hi z hz hd _ => R.alone i hi z hz hd⟩

/-- A claim for the record is a LIFT claim at its column. -/
theorem lift_of_wait (hcl : cl ∈ (M.book d).waits) (hh : cl.handover = h) : d = c ∧ cl.kind = .lift := by
  subst hh
  obtain ⟨hd, suits⟩ := R.ok.column_of_wait hcl R.hand
  refine ⟨Option.some_inj.1 (hd.symm.trans R.column), ?_⟩
  have inUse := R.inUse
  unfold Claim.suits at suits
  split at suits <;> simp_all

end Ledger.Reported

/-! ### LANDED (R81, R82) -/

/-- A record that has landed, its follower gone. -/
def Handover.landed (x : Handover) : Handover :=
  { x with state := .stored, doubt := none, holder := none, follower := none }

@[simp] theorem Handover.state_landed (x : Handover) : x.landed.state = .stored := rfl

/-- A record that is stored, with no target and no holder. -/
theorem Handover.Fits.stored (fits : x.Fits) (hs : x.state ≠ .closing ∧ x.state ≠ .booked) (state : y.state = .stored)
    (doubt : y.doubt = none) (closing : y.closing = x.closing) (timer : y.bookingTimer = x.bookingTimer)
    (column : y.column = x.column) (target : y.target = none) (holder : y.holder = none) (follower : y.follower = none) :
    y.Fits where
  doubt := by simp [doubt, state]
  closing := by simp [closing, fits.closing_eq_none hs.1, state]
  booking := by simp [timer, fits.timer_eq_none hs.2, state]
  column := by simp [column, state, fits.column.2 hs.1]
  target := by simp [target]
  moving := by simp [state]
  carried := by simp [holder]
  doubted := by simp [doubt]
  follower := by simp [follower]

theorem Ledger.Reported.landed_fits (R : M.Reported q rb h x c op) (hop : op = .deposit ∨ op = .holding) : x.landed.Fits :=
  R.fits.stored ⟨R.inUse.1, R.inUse.2.1⟩ rfl rfl rfl rfl rfl
    (R.fits.target_eq_none (R.not_shifted (by rcases hop with e | e <;> simp [e]))) rfl rfl

/-- A deposit or a holding landing lands. -/
theorem Ledger.Reported.land (R : M.Reported q rb h x c op) (hop : op = .deposit ∨ op = .holding) :
    (((M.erase c h).push c h).setHand h (some x.landed.entry)).Ok q noColumn noRecord := by
  obtain ⟨stands, inbound⟩ := R.coming hop
  have stored : x.landed.entry.state = .stored := rfl
  have onTop (e : ColIx) : x.landed.entry.standsIn e ↔ e = c := by
    rw [Handover.standsIn_of_stored stored]
    exact ⟨fun h => Option.some_inj.1 (h.symm.trans R.column), fun h => h ▸ R.column⟩
  have out (e : ColIx) : ¬ x.landed.entry.inboundTo e := Handover.not_inboundTo_of_stored stored
  have unclaimed := R.unclaimed (by rcases hop with e | e <;> simp [e])
  refine R.ok.proceed R.hand (R.ok.puts_landed R.hand R.topFree stands (fun e => (inbound e).1) onTop out)
    ⟨(Handover.fits_entry _).2 (R.landed_fits hop), R.inUse.1, rfl, fun rb hf => ?_, fun e he => ?_, fun e he _ => (out e he).elim,
      fun hd => by simp at hd, fun hs => by simp at hs⟩ (by simp) (fun i hi e => (hi e).elim)
    (fun e k hk hh => (unclaimed e k hk hh).elim) fun e k hk hn => (hn.elim (R.idle e k hk).1 (R.idle e k hk).2).elim
  · simp [followedBy, Handover.entry, Handover.landed] at hf
  · have := (onTop e).1 (he.resolve_right (out e))
    exact .inr (.inl ((inbound e).2 this))

/-- The follower of a landed record claims it, when the column has room. -/
theorem Ledger.Reported.follow (R : M.Reported q rb h x c op) (hop : op = .deposit ∨ op = .holding) {f : Follower}
    (hf : x.follower = some f) (fenced : (M.book c).state = .fenced → fencing c) (room : (M.book c).waits.card < 6)
    (regions : (M.book c).waits.countP (Claim.isRegion · = true) < 4) :
    ((((M.erase c h).push c h).setHand h (some x.landed.entry)).join c
      { robot := f.robot, kind := .lift, handover := h, stamp := 0, blocked := false }).Ok q fencing noRecord := by
  have landed := (R.land hop).weaken (fencing' := fencing) (fun _ h => h.elim) fun _ => id
  have book : (((M.erase c h).push c h).setHand h (some x.landed.entry)).book c =
      { M.book c with inbound := (M.book c).inbound.erase h, stack := (M.book c).stack ++ [h] } := by
    simp [Ledger.book_push, Ledger.book_erase]
  have unclaimed := R.unclaimed (by rcases hop with e | e <;> simp [e])
  refine landed.join (by rw [book]; exact room) (fun _ => by rw [book]; exact regions) ?_ (fun e => ?_)
    ⟨x.landed.entry, by simp, R.column, rfl⟩ ?_ fun _ => ?_
  · rw [book]
    exact R.ok.served R.hand (.inr (((R.coming hop).2 c).2 rfl))
  · rw [book] at e
    exact fenced e
  · simpa using Ledger.count_handover_eq_zero unclaimed R.idle
  · have sum := M.followersOf_setHand h (some x.landed.entry) f.robot
    have one := R.ok.robots f.robot
    rw [R.hand, if_pos (by simp [Handover.followedBy_entry, hf]),
      if_neg (by simp [followedBy, Handover.landed, Handover.entry])] at sum
    have same : (((M.erase c h).push c h).setHand h (some x.landed.entry)).followersOf f.robot =
        (M.setHand h (some x.landed.entry)).followersOf f.robot := rfl
    simp only [Ledger.count_setHand, Ledger.count_push, Ledger.count_erase]
    rw [same]
    omega

theorem State.ledger_landed (s : State) (c : ColIx) (h : HNum) : (s.land c h).ledger = (s.ledger.erase c h).push c h :=
  (s.ledger_land c h).trans (Ledger.modBook_modBook (f := fun b => { b with inbound := b.inbound.erase h })
    (g := fun b => { b with stack := b.stack ++ [h] })).symm

theorem landDeposit_ok (R : (s.ledger.without e).Reported q rb h x c .deposit) (hx : s.hand h = some x) :
    ((landDeposit s c h x).st.ledger.without e).Ok q noColumn noRecord := by
  have holder : x.holder = none := by simpa using R.holder
  have same : ({ x with state := .stored, doubt := none } : Handover).entry = x.landed.entry := by
    simp [Handover.entry, Handover.landed, holder, R.fits.follower_eq_none holder]
  have ledger : (landDeposit s c h x).st.ledger = ((s.ledger.erase c h).push c h).setHand h (some x.landed.entry) := by
    unfold landDeposit
    rw [Work.ledger_judgeCharging, Work.up_st, State.ledger_post, Work.up_st,
      State.ledger_modHand (x := x) (by simpa [State.land] using hx), Work.up_st, State.ledger_landed, same]
    rfl
  rw [ledger]
  simpa using R.land (.inl rfl)

/-- The follower of a record leaves it, and claims it at the column when there is room. -/
theorem Work.ledger_settleFollower (hy : w.st.hand h = some y) :
    (w.settleFollower c h).st.ledger = w.st.ledger.setHand h (some ({ y with follower := none } : Handover).entry) ∨
    ∃ f, y.follower = some f ∧ (w.st.ledger.book c).state ≠ .fenced ∧ (w.st.ledger.book c).waits.card < 6 ∧
      (w.st.ledger.book c).waits.countP (Claim.isRegion · = true) < 4 ∧ (w.settleFollower c h).st.ledger =
        (w.st.ledger.setHand h (some ({ y with follower := none } : Handover).entry)).join c
          { robot := f.robot, kind := .lift, handover := h, stamp := 0, blocked := false } := by
  unfold Work.settleFollower
  simp only [hy]
  cases hf : y.follower with
  | none =>
    left
    refine (Ledger.setHand_self ?_).symm
    rw [State.ledger_hand hy]
    simp [Handover.entry, hf]
  | some f =>
    have dismissed (cause : Byte) : ((w.up fun s => s.setHand h (some { y with follower := none })).up
        fun s => s.dismiss h f.robot cause).st.ledger =
          w.st.ledger.setHand h (some ({ y with follower := none } : Handover).entry) := by
      rw [Work.up_st, State.dismiss, State.ledger_post, Work.up_st, State.ledger_setHand]
      rfl
    dsimp only
    split
    · exact .inl (dismissed _)
    next state =>
      split
      · exact .inl (dismissed _)
      next room =>
        obtain ⟨short, few⟩ := not_or.1 room
        refine .inr ⟨f, rfl, state, ?_, ?_, ?_⟩
        · rw [State.ledger_waits_card]; exact not_le.1 short
        · rw [State.ledger_regions]; exact not_le.1 few
        · rw [Work.ledger_join, Work.up_st, State.ledger_setHand]
          rfl

theorem landHolding_ok (R : (s.ledger.without e).Reported q rb h x c .holding) (hx : s.hand h = some x) :
    ((landHolding s c h x).st.ledger.without e).Ok q noColumn noRecord := by
  unfold landHolding
  extract_lets w₁
  have hand₁ : w₁.st.hand h = some { x with state := .stored, doubt := none, holder := none } := by
    show ((s.land c h).modHand h _).hand h = _
    rw [State.modHand_of_some (r := x) (by simpa [State.land] using hx)]
    simp
  have ledger₁ : w₁.st.ledger = ((s.ledger.erase c h).push c h).setHand h
      (some ({ x with state := .stored, doubt := none, holder := none } : Handover).entry) := by
    show ((s.land c h).modHand h _).ledger = _
    rw [State.ledger_modHand (x := x) (by simpa [State.land] using hx), State.ledger_landed]
  clear_value w₁
  have twice (a : Option Handover) : (w₁.st.ledger.setHand h a) = ((s.ledger.erase c h).push c h).setHand h a := by
    rw [ledger₁]
    refine Ledger.ext (funext fun i => ?_) rfl
    simp only [Ledger.hand_setHand]
    split <;> rfl
  have posted : (w₁.up (·.post (.region x.dest) (.moved h))).st.ledger = w₁.st.ledger := State.ledger_post ..
  rw [Work.ledger_judgeCharging]
  rcases Work.ledger_settleFollower (w := w₁.up (·.post (.region x.dest) (.moved h))) (c := c)
    (by rw [Work.up_st, State.hand_post]; exact hand₁) with ledger | ⟨f, hf, state, room, few, ledger⟩
  · rw [ledger, posted, twice, Ledger.without_setHand, Ledger.without_push, Ledger.without_erase]
    exact R.land (.inr rfl)
  · have book : w₁.st.ledger.book c = { s.ledger.book c with
        inbound := (s.ledger.book c).inbound.erase h, stack := (s.ledger.book c).stack ++ [h] } := by
      rw [ledger₁]
      simp [Ledger.book_push, Ledger.book_erase]
    rw [posted, book] at state room few
    rw [ledger, posted, twice, Ledger.without_join, Ledger.without_setHand, Ledger.without_push, Ledger.without_erase]
    exact R.follow (.inr rfl) hf (fun e => (state (by simpa using e)).elim) (by simpa using room) (by simpa using few)

/-! ### LIFTED on a lift (R83) -/

theorem liftLift_ok (R : (s.ledger.without e).Reported q rb h x c .lift) (hx : s.hand h = some x) :
    ((liftLift s c h x).st.ledger.without e).Ok q noColumn noRecord := by
  unfold liftLift
  extract_lets w₁
  have ledger₁ : w₁.st.ledger = s.ledger.pop c := by
    show (s.begin.liftTop c).handOccupancy.st.ledger = _
    rw [Work.ledger_handOccupancy, Work.ledger_liftTop]
    rfl
  have hand₁ : w₁.st.hand h = some x := by
    show (s.begin.liftTop c).handOccupancy.st.hand h = _
    simpa [Work.liftTop, Work.startAll, Work.up] using hx
  clear_value w₁
  obtain ⟨o, ledger, ended⟩ := Work.ledger_close hand₁ .delivered (originSet x.origin) (.delivered h)
  rw [ledger, ledger₁, Ledger.without_setHand, Ledger.without_pop]
  obtain ⟨stands, inbound⟩ := R.lies (.inl rfl)
  have top := (R.lying (.inl rfl)).2
  have p : (s.ledger.without e).Puts h o (((s.ledger.without e).pop c).setHand h o) := by
    refine (((R.ok.moves h).pop top).setHand o).puts (by simp) (fun d => iff_of_false ?_ ?_) fun d => iff_of_false ?_ ?_
    · rw [Ledger.book_setHand, Ledger.pop_eq_pull (R.ok.once c) top, Ledger.mem_pull, R.ok.mem_stack R.hand]
      exact fun hd => hd.1 ((stands d).1 hd.2)
    · exact fun ⟨y, hy, hp⟩ => ((ended y hy).nowhere d).1 hp
    · rw [Ledger.book_setHand, Ledger.inbound_pop, R.ok.mem_inbound R.hand]
      exact fun hd => by simpa using (inbound d).1 hd
    · exact fun ⟨y, hy, hp⟩ => ((ended y hy).nowhere d).2 hp
  exact R.ok.retire p ended (R.unclaimed (by simp)) R.idle fun i hi e => (hi e).elim

end Sys2Proof.Machine
end

