-- ==== Sys2Proof/Proofs/AccountOfReleases.lean ====
section
/-! RELEASE, on time and late, and what it does to the record it reports (O57). -/
namespace Sys2Proof.Machine

variable {q : Claim → Bool} {fencing : ColIx → Prop} {loose loose' : HNum → Prop} {L L' L₁ M : Ledger} {h : HNum}
  {x y : Handover} {c d : ColIx} {g : Grant} {cl : Claim} {w : Work} {s : State} {r : Region} {body : List Byte}
  {rb : Robot} {op : OpKind} {m : Matched} {e : Option ColIx}

/-! ### A column that was FENCED before -/

/-- A re-placement at a FENCED column leaves it as it was, but for its record. -/
theorem Ledger.Ok.afterClear (ok : M.Ok q noColumn loose) (fenced : (M.book c).state = .fenced)
    (ok' : L'.Ok q (· = c) noRecord) (clears : L₁.Clears c (· = h) L')
    (waits : ∀ cl ∈ (L₁.book c).waits, cl ∈ (M.book c).waits ∨ cl.handover = h)
    (inbound : ∀ i, i ≠ h → i ∈ (L₁.book c).inbound → i ∈ (M.book c).inbound)
    (other : ∀ i, i ≠ h → L₁.hand i = M.hand i) : L'.Ok q noColumn noRecord :=
  { ok' with
    fencedWaits := fun d _ hd => by
      by_cases e : d = c
      · subst e
        refine Multiset.eq_zero_of_forall_notMem fun cl hcl => ?_
        obtain ⟨old, ne⟩ := (clears.waits cl).1 hcl
        have := (waits cl old).resolve_right ne
        simp [ok.fencedWaits d id fenced] at this
      · exact ok'.fencedWaits d e hd
    fencedInbound := fun d _ hd i hi z hz => by
      by_cases e : d = c
      · subst e
        obtain ⟨old, ne⟩ := (clears.inbound i).1 hi
        rw [clears.other i ne, other i ne] at hz
        exact ok.fencedInbound d id fenced i (inbound i ne old) z hz
      · exact ok'.fencedInbound d e hd i hi z hz }

/-! ### Back to BOOKED or MOVING (R86, R89) -/

theorem Ledger.Reported.turnBack (R : M.Reported q rb h x c op) (hop : op = .deposit ∨ op = .holding) (fits : y.Fits)
    (state : y.state = .booked ∨ y.state = .moving) (bin : y.bin = x.bin) (follower : y.follower = x.follower)
    (column : y.column = x.column) (fenced : (M.book c).state = .fenced → fencing c) :
    (M.setHand h (some y.entry)).Ok q fencing noRecord := by
  have coming : y.entry.Coming := state.elim .inl fun e => .inr (.inr e)
  obtain ⟨stands, inbound⟩ := R.coming hop
  have same (e : ColIx) : y.entry.inboundTo e ↔ e = c := by
    rw [coming.inboundTo, y.entry_column, column, R.column, Option.some_inj]
    exact eq_comm
  have unclaimed := R.unclaimed (by rcases hop with e | e <;> simp [e])
  refine (R.ok.weaken (fencing' := fencing) (fun _ h => h.elim) fun _ => id).restate R.hand (y.fits_entry.2 fits) R.inUse.1 bin
    (by simp [Handover.entry, follower]) (fun e => iff_of_false (coming.standsIn e) (stands e))
    (fun e => (same e).trans (inbound e).symm) ?_ (fun e he hf hc => ?_) (fun hs => ?_) (fun i hi e => (hi e).elim) R.idle
    fun e k hk hh => (unclaimed e k hk hh).elim
  · rcases state with e | e <;> simp [e]
  · rw [(same e).1 he] at hf hc
    exact hf (fenced hc)
  · rcases state with e | e <;> simp [e] at hs

/-- A released deposit. -/
def Handover.rebooked (x : Handover) (n : Nat) : Handover :=
  { x with state := .booked, doubt := none, bookingTimer := some n }

/-- A released holding landing. -/
def Handover.resumed (x : Handover) : Handover := { x with state := .moving, doubt := none }

theorem Ledger.Reported.rebooked_fits (R : M.Reported q rb h x c .deposit) (n : Nat) : (x.rebooked n).Fits where
  doubt := by simp [Handover.rebooked]
  closing := by simp [Handover.rebooked, R.fits.closing_eq_none R.inUse.1]
  booking := by simp [Handover.rebooked]
  column := by simp [Handover.rebooked, R.column]
  target := by simp [Handover.rebooked, R.fits.target_eq_none (R.not_shifted (by simp))]
  moving := by simp [Handover.rebooked]
  carried := by simp [Handover.rebooked, R.holder]
  doubted := by simp [Handover.rebooked]
  follower := by simp [Handover.rebooked, R.fits.follower_eq_none (by simpa using R.holder)]

theorem Ledger.Reported.resumed_fits (R : M.Reported q rb h x c .holding) : x.resumed.Fits where
  doubt := by simp [Handover.resumed]
  closing := by simp [Handover.resumed, R.fits.closing_eq_none R.inUse.1]
  booking := by simp [Handover.resumed, R.fits.timer_eq_none R.inUse.2.1]
  column := by simp [Handover.resumed, R.column]
  target := by simp [Handover.resumed, R.fits.target_eq_none (R.not_shifted (by simp))]
  moving := by simp [Handover.resumed, R.holder]
  carried := by simp [Handover.resumed]
  doubted := by simp [Handover.resumed]
  follower := by simp [Handover.resumed, R.holder]

theorem Work.ledger_rebook (hx : w.st.hand h = some x) :
    (w.rebook h).st.ledger = w.st.ledger.setHand h (some (x.rebooked w.st.limits.booking).entry) :=
  Work.ledger_change hx _

theorem Work.ledger_setMoving (hx : w.st.hand h = some x) :
    (w.setMoving h).st.ledger = w.st.ledger.setHand h (some x.resumed.entry) :=
  Work.ledger_change hx _

theorem rebook_ok (R : (s.ledger.without e).Reported q rb h x c .deposit) (hx : s.hand h = some x)
    (fenced : (s.ledger.book c).state = .fenced → fencing c) :
    ((s.begin.rebook h).st.ledger.without e).Ok q fencing noRecord := by
  rw [Work.ledger_rebook hx, Ledger.without_setHand]
  exact R.turnBack (.inl rfl) (R.rebooked_fits _) (.inl rfl) rfl rfl rfl (by simpa using fenced)

/-- A late RELEASE of a deposit books the record again and re-places it (R89, R32). -/
theorem rebook_late_ok (R : s.ledger.Reported q rb h x c .deposit) (hx : s.hand h = some x)
    (fenced : (s.ledger.book c).state = .fenced) :
    ((s.begin.rebook h).replaceBooked c h).st.ledger.Ok q noColumn noRecord := by
  have ok₁ : (s.begin.rebook h).st.ledger.Ok q (· = c) noRecord := rebook_ok (e := none) R hx fun _ => rfl
  have ledger₁ : (s.begin.rebook h).st.ledger = s.ledger.setHand h (some (x.rebooked s.limits.booking).entry) :=
    Work.ledger_rebook hx
  obtain ⟨z, hz, same⟩ : ∃ z, (s.begin.rebook h).st.hand h = some z ∧ z.entry = (x.rebooked s.limits.booking).entry :=
    State.mem_ledger_hand.1 (by rw [ledger₁]; simp)
  have booked : z.state = .booked := by rw [← z.entry_state, same]; rfl
  have column : z.column = some c := by rw [← z.entry_column, same]; exact R.column
  obtain ⟨ok₂, clears⟩ := Work.replaceBooked_ok ok₁ hz booked column (by rw [ledger₁]; exact fenced) (by
    intro d k hk
    rw [ledger₁] at hk
    exact R.unclaimed (by simp) d k hk)
  refine R.ok.afterClear fenced ok₂ clears ?_ ?_ ?_ <;> rw [ledger₁]
  · exact fun k hk => .inl hk
  · exact fun i _ hi => hi
  · exact fun i hi => by simp [hi]

/-! ### Back to STORED (R86, R89) -/

/-- A released lift or shift. -/
def Handover.restored (x : Handover) : Handover := { x with state := .stored, doubt := none, target := none }

@[simp] theorem Handover.state_restored (x : Handover) : x.restored.state = .stored := rfl

theorem Ledger.Reported.restored_stands (R : M.Reported q rb h x c op) (hop : op = .lift ∨ op = .shift) (d : ColIx) :
    x.restored.entry.standsIn d ↔ x.entry.standsIn d := by
  rw [Handover.standsIn_of_stored rfl, Handover.entry_standsIn, (R.lies hop).1, Handover.entry_column]
  show x.column = some d ↔ _
  rw [R.column, Option.some_inj]
  exact eq_comm

theorem Ledger.Reported.restore (R : M.Reported q rb h x c op) (hop : op = .lift ∨ op = .shift)
    (p : M.Puts h (some x.restored.entry) L') : L'.Ok q noColumn noRecord := by
  have holder : x.holder = none := by
    have := R.holder
    rcases hop with e | e <;> simpa [e] using this
  have out (e : ColIx) : ¬ x.restored.entry.inboundTo e := Handover.not_inboundTo_of_stored rfl
  have fits : x.restored.Fits := R.fits.stored ⟨R.inUse.1, R.inUse.2.1⟩ rfl rfl rfl rfl rfl rfl holder
    (R.fits.follower_eq_none holder)
  refine R.ok.proceed R.hand p ⟨(Handover.fits_entry _).2 fits, R.inUse.1, rfl, fun rb => id, fun e he => ?_,
    fun e he => (out e he).elim, fun hd => by simp at hd, fun hs => by simp at hs⟩ (by simp) (fun i hi e => (hi e).elim)
    (fun e k hk hh => ?_) fun e k hk hn => (hn.elim (R.idle e k hk).1 (R.idle e k hk).2).elim
  · exact .inl ((R.restored_stands hop e).1 (he.resolve_right (out e)))
  · obtain ⟨rfl, lift⟩ := R.lift_of_wait hk hh
    exact ⟨R.column, by simp [Claim.suits, lift]⟩

theorem putBack_ok (R : (s.ledger.without e).Reported q rb h x c op) (hop : op = .lift ∨ op = .shift)
    (hx : s.hand h = some x) : ((s.begin.putBack h).st.ledger.without e).Ok q noColumn noRecord := by
  have out (d : ColIx) : ¬ x.restored.entry.inboundTo d := Handover.not_inboundTo_of_stored rfl
  have into := (R.lies hop).2
  cases ht : x.target with
  | none =>
    have ledger : (s.begin.putBack h).st.ledger = s.ledger.setHand h (some x.restored.entry) := by
      rw [Work.putBack_of_none (w := s.begin) hx ht, Work.ledger_change (w := s.begin) hx]
      simp [Handover.restored, Handover.entry, ht]
    rw [ledger, Ledger.without_setHand]
    exact R.restore hop (R.ok.puts_inPlace R.hand (R.restored_stands hop) fun d =>
      iff_of_false (out d) fun hd => by simpa [ht] using ((into d).1 hd).2)
  | some t =>
    have ledger : (s.begin.putBack h).st.ledger = (s.ledger.erase t h).setHand h (some x.restored.entry) := by
      rw [Work.putBack_of_some (w := s.begin) hx ht,
        Work.ledger_change (x := x) (by simpa [Work.leaveInbound_eq] using hx), Work.ledger_leaveInbound]
      rfl
    rw [ledger, Ledger.without_setHand, Ledger.without_erase]
    refine R.restore hop (R.ok.puts_out R.hand (fun d => by simpa using R.restored_stands hop d) (fun d hd => ?_)
      fun y hy d => by cases hy; exact out d)
    exact Option.some_inj.1 (((into d).1 hd).2.symm.trans ht)

/-! ### A holding landing (R86, R89) -/

theorem Ledger.Reported.resume (R : M.Reported q rb h x c .holding) (fenced : (M.book c).state = .fenced → fencing c) :
    (M.setHand h (some x.resumed.entry)).Ok q fencing noRecord :=
  R.turnBack (.inr rfl) R.resumed_fits (.inr rfl) rfl rfl rfl fenced

/-- A record with the same follower is followed as before. -/
theorem Ledger.followersOf_same (hx : L.hand h = some x.entry) (follower : y.follower = x.follower) (rb : Robot) :
    (L.setHand h (some y.entry)).followersOf rb = L.followersOf rb :=
  Ledger.followersOf_setHand_same (by simp only [hx, Handover.followedBy_entry, follower])

/-- The HOLDING claim waits again at the record's column. -/
theorem Ledger.Reported.resumeHere (R : M.Reported q rb h x c .holding) (fenced : (M.book c).state = .fenced → fencing c)
    (room : (M.book c).waits.card < 6) (kind : cl.kind = .holding) (robot : cl.robot = rb) (hh : cl.handover = h) :
    ((M.setHand h (some x.resumed.entry)).join c cl).Ok q fencing noRecord := by
  subst hh robot
  have held : x.holder = some cl.robot := by simpa using R.holder
  refine (R.resume fenced).joinHolding (x := x.resumed.entry) kind (by simp) R.column rfl held room fenced
    (R.unclaimed (by simp)) fun hq => ?_
  rw [Ledger.followersOf_same (x := x) (y := x.resumed) R.hand rfl, Ledger.count_setHand]
  exact R.robot cl kind hq

/-- The record and its HOLDING claim go to another column. -/
theorem Ledger.Reported.resumeAcross (R : M.Reported q rb h x c .holding) (state : (M.book c).state ≠ .fenced)
    (takes : M.Takes d) (room : (M.book d).waits.card < 6) (kind : cl.kind = .holding) (robot : cl.robot = rb)
    (hh : cl.handover = h) : (((((M.setHand h (some x.resumed.entry)).erase c h).insert d h).setHand h
      (some (x.resumed.goneTo d).entry)).join d cl).Ok q noColumn noRecord := by
  subst hh robot
  have hand₁ : (M.setHand cl.handover (some x.resumed.entry)).hand cl.handover = some x.resumed.entry := by simp
  have waits (e : ColIx) : (((((M.setHand cl.handover (some x.resumed.entry)).erase c cl.handover).insert d
      cl.handover).setHand cl.handover (some (x.resumed.goneTo d).entry)).book e).waits = (M.book e).waits := by
    simp only [Ledger.book_setHand, Ledger.book_insert, Ledger.book_erase]
    split <;> split <;> rfl
  have unclaimed := R.unclaimed (by simp)
  have held : x.holder = some cl.robot := by simpa using R.holder
  have across := (R.resume (fencing := noColumn) fun e => (state e).elim).goAcross (x := x.resumed) hand₁ (.inr rfl) R.column
    (show (M.setHand _ _).Takes d from takes) unclaimed
  refine across.joinHolding (x := (x.resumed.goneTo d).entry) kind (by simp) rfl rfl held
    (by rw [waits]; exact room) (fun hf => ?_) (fun e k hk => unclaimed e k (by rwa [waits] at hk)) fun hq => ?_
  · simp only [Ledger.book_setHand, Ledger.book_insert, Ledger.book_erase] at hf
    refine (takes.not_fenced ?_).elim
    split at hf <;> split at hf <;> exact hf
  · have hand₂ : (((M.setHand cl.handover (some x.resumed.entry)).erase c cl.handover).insert d cl.handover).hand
        cl.handover = some x.resumed.entry := hand₁
    rw [Ledger.followersOf_same (x := x.resumed) (y := x.resumed.goneTo d) hand₂ rfl]
    simp only [Ledger.followersOf_insert, Ledger.followersOf_erase, Ledger.count_setHand, Ledger.count_insert,
      Ledger.count_erase, Ledger.followersOf_same (x := x) (y := x.resumed) R.hand rfl]
    exact R.robot cl kind hq

theorem releaseHolding_ok (R : (s.ledger.without e).Reported q rb h x c .holding) (hx : s.hand h = some x)
    (state : (s.ledger.book c).state = .granted) (landing : x.state = .landing) (kind : cl.kind = .holding)
    (robot : cl.robot = rb) (hh : cl.handover = h) :
    ((s.begin.releaseHolding c h x cl).st.ledger.without e).Ok q noColumn noRecord := by
  have ledger₁ : (s.begin.setMoving h).st.ledger = s.ledger.setHand h (some x.resumed.entry) := Work.ledger_setMoving hx
  unfold Work.releaseHolding
  split
  next room =>
    rw [Work.ledger_join, ledger₁]
    show (((s.ledger.setHand h _).join c _).without e).Ok q noColumn noRecord
    rw [Ledger.without_join, Ledger.without_setHand]
    refine R.resumeHere (cl := cl.entry) (by simp [state]) ?_ kind robot hh
    rw [Ledger.waits_without, State.ledger_waits_card]
    exact room
  next full =>
    cases best : s.begin.st.best x.due x.cls (s.begin.st.movingSet cl.robot.port x.dest) with
    | some d =>
      obtain ⟨takes, room⟩ := State.takes_of_movingSet (State.mem_of_best best)
      obtain ⟨z, hz, same⟩ : ∃ z, (s.begin.setMoving h).st.hand h = some z ∧ z.entry = x.resumed.entry :=
        State.mem_ledger_hand.1 (by rw [ledger₁]; simp)
      have goes : (z.goneTo d).entry = (x.resumed.goneTo d).entry := congrArg (fun y : Handover => y.goneTo d) same
      have ledger : ((((s.begin.setMoving h).leaveInbound c h).up (·.joinInbound d h)).change h fun r =>
          { r with column := some d }).st.ledger =
            (((s.ledger.setHand h (some x.resumed.entry)).erase c h).insert d h).setHand h
              (some (x.resumed.goneTo d).entry) := by
        rw [Work.ledger_change (x := z) (by simpa [State.joinInbound, Work.leaveInbound_eq] using hz), Work.up_st,
          State.ledger_joinInbound, Work.ledger_leaveInbound, ledger₁, ← goes]
        rfl
      dsimp only
      rw [Work.ledger_join, ledger]
      show ((((((s.ledger.setHand h _).erase c h).insert d h).setHand h _).join d _).without e).Ok q noColumn noRecord
      rw [Ledger.without_join, Ledger.without_setHand, Ledger.without_insert, Ledger.without_erase, Ledger.without_setHand]
      exact R.resumeAcross (cl := cl.entry) (by simp [state]) (takes.without e) (by simpa using room) kind robot hh
    | none =>
      obtain ⟨o, ledger, ended⟩ := Work.ledger_handBack (w := s.begin.leaveInbound c h) (x := x) (h := h)
        (by simpa [Work.leaveInbound_eq] using hx) c cl.robot
      dsimp only
      rw [ledger, Work.ledger_leaveInbound]
      show (((s.ledger.erase c h).setHand h o).without e).Ok q noColumn noRecord
      rw [Ledger.without_setHand, Ledger.without_erase]
      exact R.ok.goOut R.hand (.inr (.inl landing)) R.column ended (R.unclaimed (by simp)) R.idle fun i hi e => (hi e).elim

/-- A late RELEASE of a holding landing: the record is MOVING with a new claim, and is re-placed (R89, R32). -/
theorem lateReleaseHolding_ok (R : s.ledger.Reported q rb h x c .holding) (hx : s.hand h = some x)
    (fenced : (s.ledger.book c).state = .fenced) :
    (s.begin.lateReleaseHolding c h rb).st.ledger.Ok q noColumn noRecord := by
  have waits : (s.ledger.book c).waits = 0 := R.ok.fencedWaits c id fenced
  set cl : Claim := { robot := rb, kind := .holding, handover := h, stamp := 0, blocked := false } with hcl
  have ledger₁ : ((s.begin.setMoving h).joinNew c rb .holding h).st.ledger =
      (s.ledger.setHand h (some x.resumed.entry)).join c cl := by
    rw [Work.ledger_joinNew, Work.ledger_setMoving (w := s.begin) hx]
    rfl
  have ok₁ : ((s.begin.setMoving h).joinNew c rb .holding h).st.ledger.Ok q (· = c) noRecord := by
    rw [ledger₁]
    exact R.resumeHere (fun _ => rfl) (by simp [waits]) rfl rfl rfl
  obtain ⟨z, hz, same⟩ : ∃ z, ((s.begin.setMoving h).joinNew c rb .holding h).st.hand h = some z ∧
      z.entry = x.resumed.entry := State.mem_ledger_hand.1 (by rw [ledger₁]; simp)
  have moving : z.state = .moving := by rw [← z.entry_state, same]; rfl
  have column : z.column = some c := by rw [← z.entry_column, same]; exact R.column
  obtain ⟨ok₂, clears⟩ := Work.replaceMoving_ok (e := none) ok₁ hz moving column (by
    rw [ledger₁, Ledger.book_join, if_pos rfl]
    exact fenced)
  refine R.ok.afterClear fenced ok₂ clears ?_ ?_ ?_ <;> rw [Ledger.without_none, ledger₁]
  · intro k hk
    rw [Ledger.book_join, if_pos rfl] at hk
    exact (Multiset.mem_cons.1 hk).symm.imp_right fun e => by rw [e]
  · intro i _ hi
    rwa [Ledger.book_join, if_pos rfl] at hi
  · exact fun i hi => by simp [hi]

end Sys2Proof.Machine
end

