-- ==== Sys2Proof/Proofs/AccountOfShifts.lean ====
section
/-! LIFTED on a SHIFT, and what it does to the record it reports (O57). -/
namespace Sys2Proof.Machine

variable {q : Claim → Bool} {fencing : ColIx → Prop} {loose loose' : HNum → Prop} {L L' L₁ M : Ledger} {h : HNum}
  {x y : Handover} {c d : ColIx} {cl : Claim} {w : Work} {s : State} {rb : Robot} {e : Option ColIx} {f : Option Follower}

/-! ### The follower (R84, R92) -/

/-- A record with another follower, or none. -/
def Handover.trailed (x : Handover) (f : Option Follower) : Handover := { x with follower := f }

/-- A follower that a LIFT claim of the record has become. -/
def Ledger.Trails (M : Ledger) (c : ColIx) (h : HNum) (f : Option Follower) : Prop :=
  ∀ i ∈ f, ∃ cl ∈ (M.book c).waits, cl.handover = h ∧ cl.kind = .lift ∧ cl.robot = i.robot

theorem Ledger.Reported.unclaimed_shed (R : M.Reported q rb h x c .shift) : (M.shed c h).Unclaimed h :=
  R.ok.unclaimed_shed fun y hy => by obtain rfl := Option.mem_unique R.hand hy; exact R.column

/-- A state whose grant has ended. -/
theorem State.exists_without (s : State) (e : Option ColIx) :
    ∃ t : State, t.ledger = s.ledger.without e ∧ ∀ d, (t.col d).waitList = (s.col d).waitList := by
  cases e with
  | none => exact ⟨s, rfl, fun _ => rfl⟩
  | some c =>
    refine ⟨s.modCol c fun k => { k with grant := none }, State.ledger_modCol (g := fun b => { b with grant := none }) rfl, fun d => ?_⟩
    rw [State.col_modCol]
    split
    next same => rw [same]
    next => rfl

/-- The record has left the top of its source, and its claim is its follower. -/
theorem State.ledger_liftedOut (R : (s.ledger.without e).Reported q rb h x c .shift) (hx : s.hand h = some x) :
    ∃ f, (s.ledger.without e).Trails c h f ∧ (s.liftedOut c h).st.hand h = some (x.trailed f) ∧
      (s.liftedOut c h).st.ledger = ((s.ledger.shed c h).pop c).setHand h (some (x.trailed f).entry) := by
  set v := s.begin.liftTop c with hv
  have ledger₁ : v.st.ledger = s.ledger.pop c := Work.ledger_liftTop ..
  have hand₁ : v.st.hand h = some x := by simpa [hv, Work.liftTop, Work.startAll, Work.up] using hx
  have list₁ : (v.st.col c).waitList = (s.col c).waitList := by simp [hv, Work.liftTop, Work.startAll, Work.up, State.begin]
  have waits₁ (k : Claim) (hk : k ∈ (v.st.col c).waitList) : k.entry ∈ ((s.ledger.without e).book c).waits := by
    rw [list₁] at hk
    simpa using State.entry_mem_waits hk
  have pop_shed : (s.ledger.pop c).shed c h = (s.ledger.shed c h).pop c := by
    unfold Ledger.pop Ledger.shed
    rw [Ledger.modBook_modBook, Ledger.modBook_modBook]
  have lifts {k : Claim} (hk : k ∈ (v.st.col c).waitList) (hh : k.handover = h) : k.kind = .lift :=
    (R.lift_of_wait (waits₁ k hk) hh).2
  show ∃ f, _ ∧ (v.makeFollower c h).st.hand h = _ ∧ (v.makeFollower c h).st.ledger = _
  by_cases claimed : ∃ k ∈ (v.st.col c).waitList, k.handover = h
  · obtain ⟨k, hk, hh⟩ := claimed
    have lift := lifts hk hh
    have unique : ∀ a ∈ (v.st.col c).waitList, a.handover = k.handover → a = k := fun a ha same => by
      obtain ⟨t, ledger, lists⟩ := s.exists_without e
      rw [list₁, ← lists] at ha hk
      exact (ledger ▸ R.ok).wait_unique ha hk same
    have made : v.makeFollower c h = (v.leave c (· == k)).up (·.modHand h fun r =>
        { r with follower := some { robot := k.robot, stamp := k.stamp } }) := by
      have search : ((v.st.col c).waitList.find? fun cl => cl.handover == h && cl.kind == .lift) = some k := by
        refine find?_eq_some_of_unique hk (by simp [hh, lift]) fun a ha both => ?_
        simp only [Bool.and_eq_true, beq_iff_eq] at both
        exact unique a ha (both.1.trans hh.symm)
      simp only [Work.makeFollower, search]
    have left : (v.leave c (· == k)).st.hand h = some x := by simpa using hand₁
    rw [made]
    refine ⟨some { robot := k.robot, stamp := k.stamp }, ?_, ?_, ?_⟩
    · rintro i hi
      cases hi
      exact ⟨k.entry, waits₁ k hk, hh, lift, rfl⟩
    · rw [Work.up_st, State.modHand_of_some left]
      simp [Handover.trailed]
    · rw [Work.up_st, State.ledger_modHand left, Work.ledger_leaveClaim unique, hh, ledger₁, pop_shed]
      rfl
  · have none_ : x.follower = none := R.fits.follower_eq_none (by simpa using R.holder)
    have same : x.trailed none = x := by rw [← none_]; rfl
    have unclaimed : (s.ledger.without e).Unclaimed h := fun d k hk hh => by
      obtain ⟨rfl, -⟩ := R.lift_of_wait hk hh
      rw [Ledger.waits_without] at hk
      obtain ⟨a, ha, rfl⟩ := List.mem_map.1 (Multiset.mem_coe.1 hk)
      exact claimed ⟨a, list₁ ▸ ha, hh⟩
    have noShed : s.ledger.shed c h = s.ledger :=
      Ledger.shed_of_unclaimed fun d k hk => unclaimed d k (by rwa [Ledger.waits_without])
    rw [Work.makeFollower_of_none fun k hk _ hh => claimed ⟨k, hk, hh⟩]
    refine ⟨none, by simp [Ledger.Trails], by rw [same]; exact hand₁, ?_⟩
    rw [noShed, ledger₁, same, Ledger.setHand_self (L := s.ledger.pop c) (State.ledger_hand hx)]

/-! ### The receiving column (R85) -/

/-- A record that has been taken up and goes to a column. -/
def Handover.takenUp (x : Handover) (rb : Robot) (d : ColIx) : Handover :=
  { x with state := .moving, holder := some rb, doubt := none, column := some d, target := none }

/-- The HOLDING claim of a record that is taken up. -/
def Claim.holds (rb : Robot) (h : HNum) : Claim := { robot := rb, kind := .holding, handover := h, stamp := 0, blocked := false }

theorem Work.ledger_takeUp (hx : w.st.hand h = some x) (g : Option Grant) :
    (w.takeUp h rb g d).st.ledger = (w.st.ledger.setHand h (some (x.takenUp rb d).entry)).join d (.holds rb h) := by
  unfold Work.takeUp
  cases g with
  | some g => exact (Work.ledger_join ..).trans (congrArg (Ledger.join · d _) (Work.ledger_change hx _))
  | none => exact (Work.ledger_joinNew ..).trans (congrArg (Ledger.join · d _) (Work.ledger_change hx _))

theorem Ledger.Reported.takenUp_fits (R : M.Reported q rb h x c .shift) : ((x.trailed f).takenUp rb d).Fits where
  doubt := by simp [Handover.takenUp]
  closing := by simp [Handover.takenUp, Handover.trailed, R.fits.closing_eq_none R.inUse.1]
  booking := by simp [Handover.takenUp, Handover.trailed, R.fits.timer_eq_none R.inUse.2.1]
  column := by simp [Handover.takenUp]
  target := by simp [Handover.takenUp]
  moving := by simp [Handover.takenUp]
  carried := by simp [Handover.takenUp]
  doubted := by simp [Handover.takenUp]
  follower := by simp [Handover.takenUp]

/-- The record goes from the top of its source to a column that holds its place or takes it. -/
theorem Ledger.Reported.goOn (R : M.Reported q rb h x c .shift) (sort : Claim.Sort q) (trails : M.Trails c h f)
    (p : (M.shed c h).Puts h (some ((x.trailed f).takenUp rb d).entry) L₁) (place : x.target = some d ∨ M.Takes d)
    (fenced : (M.book d).state = .fenced → fencing d) : L₁.Ok q fencing noRecord := by
  have left := (R.ok.shedHand c h).weaken (fencing' := fencing) (loose' := (· = h)) (fun _ h => h.elim) fun _ => id
  have coming : ((x.trailed f).takenUp rb d).entry.Coming := .inr (.inr rfl)
  have at_ {i : ColIx} (hi : ((x.trailed f).takenUp rb d).entry.inboundTo i) : i = d :=
    Option.some_inj.1 (coming.inboundTo.1 hi).symm
  have hand : (M.shed c h).hand h = some x.entry := R.hand
  have inbound := (R.lies (.inr rfl)).2
  have still (i : ColIx) : ((M.shed c h).book i).state = (M.book i).state ∧
      ((M.shed c h).book i).stack = (M.book i).stack ∧ ((M.shed c h).book i).inbound = (M.book i).inbound ∧
      ((M.shed c h).book i).depth = (M.book i).depth := by
    rw [Ledger.book_shed]
    split <;> exact ⟨rfl, rfl, rfl, rfl⟩
  refine p.ok left (fun y hy => ?_) (fun i hi e => (hi e).elim) (fun y hy hd => ?_)
    (fun i k hk hh => (R.unclaimed_shed i k hk hh).elim)
    fun i k hk hn => (hn.elim (R.idle.shed c h i k hk).1 (R.idle.shed c h i k hk).2).elim
  · obtain rfl := Option.some.inj hy
    refine ⟨(Handover.fits_entry _).2 R.takenUp_fits, fun _ i hi z hz hzc e => hi (R.ok.bins i h z hz x.entry R.hand hzc R.inUse.1 e.symm),
      fun i hi => ?_, fun i hi => ?_, fun i hi hf hs => ?_, fun hd => by simp [Handover.takenUp] at hd,
      fun _ hs => by simp [Handover.takenUp] at hs, fun rb' hf => ?_⟩
    · obtain rfl := at_ (hi.resolve_left (coming.standsIn i))
      obtain ⟨-, hs, hn, hd⟩ := still i
      rw [hs, hn, hd]
      exact place.elim (fun ht => .inr (.inl ((R.ok.mem_inbound R.hand).2 ((inbound i).2 ⟨rfl, ht⟩)))) fun t => .inr (.inr t.place.1)
    · obtain rfl := at_ (hi.resolve_left (coming.standsIn i))
      rw [(still i).1]
      exact place.elim (fun ht => R.ok.served R.hand (.inr ((inbound i).2 ⟨rfl, ht⟩))) fun t => t.place.2
    · obtain rfl := at_ hi
      rw [(still i).1] at hs
      exact (hf (fenced hs)).elim
    · right
      rw [Handover.followedBy_entry] at hf
      obtain ⟨t, ht, same⟩ := (Option.any_eq_true _ _).1 hf
      obtain ⟨cl, hcl, hh, lift, robot⟩ := trails t ht
      have := R.ok.robot_of_shed hcl hh (sort.region cl (by simp [Claim.isRegion, lift]))
      rw [robot, beq_iff_eq.1 same] at this
      simpa using this
  · obtain rfl := Option.some.inj hy
    simp [Handover.takenUp] at hd

/-- Its robot holds it there. -/
theorem Ledger.Reported.hold (R : M.Reported q rb h x c .shift) (sort : Claim.Sort q) (trails : M.Trails c h f)
    (p : (M.shed c h).Puts h (some ((x.trailed f).takenUp rb d).entry) L₁) (place : x.target = some d ∨ M.Takes d)
    (fenced : (M.book d).state = .fenced → fencing d) (room : ((M.shed c h).book d).waits.card < 6) :
    (L₁.join d (.holds rb h)).Ok q fencing noRecord := by
  have hand : L₁.hand h = some ((x.trailed f).takenUp rb d).entry := p.self
  have state (i : ColIx) : (L₁.book i).state = (M.book i).state := by
    rw [p.state, Ledger.book_shed]
    split <;> rfl
  refine (R.goOn sort trails p place fenced).joinHolding (cl := .holds rb h) rfl hand rfl rfl rfl
    (by rwa [p.waits]) (by rwa [state]) (fun i k hk => R.unclaimed_shed i k (by rwa [p.waits] at hk))
    fun hq => ?_
  have none_ : M.count (fun k => q k && k.robot == rb) + M.followersOf rb = 0 := R.robot (.holds rb h) rfl hq
  have fewer : L₁.count (fun k => q k && k.robot == rb) ≤ M.count (fun k => q k && k.robot == rb) :=
    (p.count _).trans_le (M.count_shed_le c h _)
  have followers := (M.shed c h).followersOf_setHand h (some ((x.trailed f).takenUp rb d).entry) rb
  rw [← p.followersOf, Ledger.followersOf_shed] at followers
  have apart : followedBy rb (some ((x.trailed f).takenUp rb d).entry) = false := by
    rw [Handover.followedBy_entry, ← Bool.not_eq_true]
    intro hf
    obtain ⟨t, ht, same⟩ := (Option.any_eq_true _ _).1 hf
    obtain ⟨cl, hcl, hh, lift, robot⟩ := trails t ht
    have zero := Ledger.count_eq_zero.1 (show M.count (fun k => q k && k.robot == rb) = 0 by omega) c cl
      (Ledger.mem_claims.2 (.inl hcl))
    simp [robot, beq_iff_eq.1 same, sort.region cl (by simp [Claim.isRegion, lift])] at zero
  show L₁.count (fun k => q k && k.robot == rb) + L₁.followersOf rb = 0
  rw [apart] at followers
  simp only [Bool.false_eq_true, if_false] at followers
  omega

/-! ### The ways of a LIFTED on a SHIFT -/

section
variable (R : M.Reported q rb h x c .shift)
include R

theorem Ledger.Reported.moves_up : (M.shed c h).Moves h ((M.shed c h).pop c) :=
  ((R.ok.shedHand c h).moves h).pop (by rw [Ledger.book_shed, if_pos rfl]; exact (R.lying (.inr rfl)).2)

theorem Ledger.Reported.not_mem_popped (i : ColIx) : h ∉ (((M.shed c h).pop c).book i).stack := by
  have left := R.ok.shedHand c h
  have top : ((M.shed c h).book c).stack.getLast? = some h := by
    rw [Ledger.book_shed, if_pos rfl]
    exact (R.lying (.inr rfl)).2
  rw [Ledger.pop_eq_pull (left.once c) top, Ledger.mem_pull, left.mem_stack (h := h) R.hand]
  exact fun hi => hi.1 (((R.lies (.inr rfl)).1 i).1 hi.2)

theorem Ledger.Reported.mem_popped (i : ColIx) : h ∈ (((M.shed c h).pop c).book i).inbound ↔ x.target = some i := by
  rw [Ledger.inbound_pop, (R.ok.shedHand c h).mem_inbound (h := h) R.hand, Handover.entry_inboundTo, (R.lies (.inr rfl)).2]
  exact and_iff_right rfl

/-- The target holds the record's place. -/
theorem Ledger.Reported.puts_held (ht : x.target = some d) : (M.shed c h).Puts h (some ((x.trailed f).takenUp rb d).entry)
    (((M.shed c h).pop c).setHand h (some ((x.trailed f).takenUp rb d).entry)) := by
  have coming : ((x.trailed f).takenUp rb d).entry.Coming := .inr (.inr rfl)
  refine (R.moves_up.setHand _).puts (by simp) (fun i => iff_of_false (R.not_mem_popped i) ?_) fun i => ?_
  · exact fun ⟨y, hy, hp⟩ => coming.standsIn i (Option.some.inj hy ▸ hp)
  · rw [Ledger.book_setHand, R.mem_popped, ht]
    exact coming.inboundTo.symm.trans (by simp)

/-- The record takes a place elsewhere. -/
theorem Ledger.Reported.puts_fresh {t : ColIx} (ht : ∀ i, x.target = some i → i = t) :
    (M.shed c h).Puts h (some ((x.trailed f).takenUp rb d).entry)
      (((((M.shed c h).pop c).erase t h).insert d h).setHand h (some ((x.trailed f).takenUp rb d).entry)) := by
  have coming : ((x.trailed f).takenUp rb d).entry.Coming := .inr (.inr rfl)
  refine (((R.moves_up.erase t).insert d).setHand _).puts (by simp) (fun i => iff_of_false ?_ ?_) fun i => ?_
  · rw [Ledger.book_setHand, Ledger.stack_insert, Ledger.stack_erase]
    exact R.not_mem_popped i
  · exact fun ⟨y, hy, hp⟩ => coming.standsIn i (Option.some.inj hy ▸ hp)
  · rw [Ledger.book_setHand, Ledger.mem_insert, Ledger.mem_erase, R.mem_popped]
    have into : ((x.trailed f).takenUp rb d).entry.inboundTo i ↔ i = d :=
      coming.inboundTo.trans (Option.some_inj.trans eq_comm)
    simp only [Option.mem_def, Option.some.injEq, exists_eq_left', into]
    exact or_iff_left fun hi => hi.1 (ht i hi.2)

/-- The record ends. -/
theorem Ledger.Reported.puts_back {t : ColIx} {o : Option Handover} (ht : ∀ i, x.target = some i → i = t)
    (ended : ∀ y ∈ o, y.Ended) :
    (M.shed c h).Puts h o ((((M.shed c h).pop c).erase t h).setHand h o) := by
  refine ((R.moves_up.erase t).setHand _).puts (by simp) (fun i => iff_of_false ?_ ?_) fun i => iff_of_false ?_ ?_
  · rw [Ledger.book_setHand, Ledger.stack_erase]
    exact R.not_mem_popped i
  · exact fun ⟨y, hy, hp⟩ => ((ended y hy).nowhere i).1 hp
  · rw [Ledger.book_setHand, Ledger.mem_erase, R.mem_popped]
    exact fun hi => hi.1 (ht i hi.2)
  · exact fun ⟨y, hy, hp⟩ => ((ended y hy).nowhere i).2 hp

end

theorem Ledger.erase_of_not_mem (out : h ∉ (L.book c).inbound) : L.erase c h = L :=
  Ledger.modBook_self (by rw [Finset.erase_eq_of_notMem out])

/-- The place at a target is given up, if there is one. -/
theorem Work.ledger_unaimed (out : x.target = none → ∀ i, h ∉ (w.st.ledger.book i).inbound) :
    ∃ t, (∀ i, x.target = some i → i = t) ∧ (w.unaimed x h).st.ledger = w.st.ledger.erase t h := by
  unfold Work.unaimed
  split
  next t ht => exact ⟨t, fun i hi => (Option.some_inj.1 (ht.symm.trans hi)).symm, Work.ledger_leaveInbound ..⟩
  next ht => exact ⟨0, by simp [ht], (Ledger.erase_of_not_mem (out ht 0)).symm⟩

theorem Work.hand_unaimed (w : Work) (x : Handover) (h i : HNum) : (w.unaimed x h).st.hand i = w.st.hand i := by
  unfold Work.unaimed
  split
  · simp [Work.leaveInbound_eq]
  · rfl

theorem Ledger.setHand_setHand (L : Ledger) (h : HNum) (a b : Option Handover) :
    (L.setHand h a).setHand h b = L.setHand h b := by
  refine Ledger.ext (funext fun i => ?_) rfl
  simp only [Ledger.hand_setHand]
  split <;> rfl

/-- The record is taken up for a FENCED target, and is re-placed or handed back at once (R85). -/
theorem Ledger.Reported.replace (R : (s.ledger.without e).Reported q rb h x c .shift) (sort : Claim.Sort q)
    (trails : (s.ledger.without e).Trails c h f) {t : ColIx} (ht : x.target = some t)
    (fenced : ((s.ledger.without e).book t).state = .fenced)
    (ledger : w.st.ledger.without e = ((((s.ledger.without e).shed c h).pop c).setHand h
      (some ((x.trailed f).takenUp rb t).entry)).join t (.holds rb h)) :
    ((w.replaceMoving t h).st.ledger.without e).Ok q noColumn noRecord := by
  have empty : ((s.ledger.without e).book t).waits = 0 := R.ok.fencedWaits t id fenced
  have ok₁ : (w.st.ledger.without e).Ok q (· = t) noRecord := by
    rw [ledger]
    refine R.hold sort trails (R.puts_held ht) (.inl ht) (fun _ => rfl) ?_
    refine (Multiset.card_le_card (t := ((s.ledger.without e).book t).waits) ?_).trans_lt (by rw [empty]; simp)
    rw [Ledger.book_shed]
    split
    · exact Multiset.filter_le _ _
    · exact le_rfl
  obtain ⟨z, hz, same⟩ : ∃ z, w.st.hand h = some z ∧ z.entry = ((x.trailed f).takenUp rb t).entry :=
    State.mem_ledger_hand.1 (by rw [← Ledger.hand_without (L := w.st.ledger) e, ledger]; simp)
  have moving : z.state = .moving := by rw [← z.entry_state, same]; rfl
  have column : z.column = some t := by rw [← z.entry_column, same]; rfl
  have book (i : ColIx) : ((w.st.ledger.without e).book i).state = ((s.ledger.without e).book i).state ∧
      (∀ k ∈ ((w.st.ledger.without e).book i).waits, k ∈ ((s.ledger.without e).book i).waits ∨ k.handover = h) ∧
      ((w.st.ledger.without e).book i).inbound = ((s.ledger.without e).book i).inbound := by
    rw [ledger, Ledger.book_join, Ledger.book_setHand, Ledger.book_pop, Ledger.book_shed]
    split <;> split <;> simp +contextual [Claim.holds, or_imp]
  obtain ⟨ok₂, clears⟩ := Work.replaceMoving_ok ok₁ hz moving column (by
    show (w.st.ledger.book t).state = .fenced
    rw [← Ledger.state_without (L := w.st.ledger) e, (book t).1]
    exact fenced)
  refine R.ok.afterClear fenced ok₂ clears (book t).2.1 (fun i _ hi => (book t).2.2 ▸ hi) fun i hi => ?_
  rw [ledger]
  simp [hi]

theorem liftShift_ok {g : Option Grant} (sort : Claim.Sort q) (R : (s.ledger.without e).Reported q rb h x c .shift)
    (hx : s.hand h = some x) : ((liftShift s c h rb x g).st.ledger.without e).Ok q noColumn noRecord := by
  obtain ⟨f, trails, hand, ledger⟩ := State.ledger_liftedOut R hx
  have state (i : ColIx) : ((s.liftedOut c h).st.col i).state = ((s.ledger.without e).book i).state := by
    show ((s.liftedOut c h).st.ledger.book i).state = _
    rw [ledger, Ledger.state_without, Ledger.book_setHand, Ledger.book_pop, Ledger.book_shed]
    split <;> rfl
  have waits (i : ColIx) :
      ((s.liftedOut c h).st.col i).waitList.length = (((s.ledger.without e).shed c h).book i).waits.card := by
    rw [← State.ledger_waits_card, ledger, ← Ledger.without_shed, Ledger.waits_without, Ledger.book_setHand,
      Ledger.book_pop]
    split <;> rfl
  by_cases fenced : ∃ t, x.target = some t ∧ ((s.liftedOut c h).st.col t).state = .fenced
  · obtain ⟨t, ht, hf⟩ := fenced
    rw [liftShift_fenced ht hf, Work.ledger_handOccupancy]
    refine R.replace sort trails ht (by rwa [← state]) ?_
    rw [Work.ledger_takeUp hand, ledger, Ledger.setHand_setHand]
    simp only [Ledger.without_join, Ledger.without_setHand, Ledger.without_pop, Ledger.without_shed]
  by_cases held : ∃ t, x.target = some t ∧ ((s.liftedOut c h).st.col t).waitList.length < 6
  · obtain ⟨t, ht, room⟩ := held
    have open_ (hf : ((s.liftedOut c h).st.col t).state = .fenced) : False := fenced ⟨t, ht, hf⟩
    rw [liftShift_held ht room open_, Work.ledger_handOccupancy, Work.ledger_takeUp hand, ledger, Ledger.setHand_setHand]
    simp only [Ledger.without_join, Ledger.without_setHand, Ledger.without_pop, Ledger.without_shed]
    exact R.hold sort trails (R.puts_held ht) (.inl ht) (fun hf => (open_ (by rwa [state])).elim) (by rwa [← waits])
  have away : ∀ t ∈ x.target, 6 ≤ ((s.liftedOut c h).st.col t).waitList.length ∧
      ((s.liftedOut c h).st.col t).state ≠ .fenced :=
    fun t ht => ⟨Nat.not_lt.1 fun room => held ⟨t, ht, room⟩, fun hf => fenced ⟨t, ht, hf⟩⟩
  obtain ⟨t, only, ledger₁⟩ := Work.ledger_unaimed (w := s.liftedOut c h) (x := x) (h := h) fun none_ i hi => by
    rw [ledger, Ledger.book_setHand, ← Ledger.inbound_without _ e, Ledger.without_pop, Ledger.without_shed,
      R.mem_popped] at hi
    simp [none_] at hi
  have hand₁ : ((s.liftedOut c h).unaimed x h).st.hand h = some (x.trailed f) := (Work.hand_unaimed ..).trans hand
  cases dig : ((s.liftedOut c h).unaimed x h).st.digTarget x rb.port c with
  | none =>
    obtain ⟨o, back, ended⟩ := Work.ledger_handBack hand₁ c rb
    rw [liftShift_handsBack away dig, Work.ledger_handOccupancy, back, ledger₁, ledger]
    show (((((s.ledger.shed c h).pop c).erase t h).setHand h _ |>.setHand h o).without e).Ok q noColumn noRecord
    rw [Ledger.setHand_setHand]
    simp only [Ledger.without_erase, Ledger.without_setHand, Ledger.without_pop, Ledger.without_shed]
    exact (R.ok.shedHand c h).retire (R.puts_back only ended) ended R.unclaimed_shed (R.idle.shed c h)
      fun i hi e => (hi e).elim
  | some d =>
    obtain ⟨takes, room, ne⟩ := State.takes_of_digTarget dig
    rw [liftShift_fresh away dig, Work.ledger_handOccupancy,
      Work.ledger_takeUp (x := x.trailed f) (by simpa [State.joinInbound] using hand₁), Work.up_st,
      State.ledger_joinInbound, ledger₁, ledger]
    show ((((((s.ledger.shed c h).pop c).erase t h).insert d h).setHand h _ |>.setHand h _).join d _
      |>.without e).Ok q noColumn noRecord
    rw [Ledger.setHand_setHand]
    simp only [Ledger.without_join, Ledger.without_insert, Ledger.without_erase, Ledger.without_setHand, Ledger.without_pop,
      Ledger.without_shed]
    have state₁ : ((((s.liftedOut c h).unaimed x h).st.ledger.book d).state) = ((s.ledger.without e).book d).state := by
      rw [ledger₁, ledger, Ledger.state_without, Ledger.book_erase, Ledger.book_setHand, Ledger.book_pop, if_neg ne,
        Ledger.book_shed, if_neg ne]
      split <;> rfl
    refine R.hold sort trails (R.puts_fresh only) (or_iff_not_imp_left.2 fun other => ?_)
      (fun hf => (takes.not_fenced (state₁.trans hf)).elim) ?_
    · have out : h ∉ (s.ledger.book d).inbound := fun hi => other ((R.mem_popped d).1 (by
        rw [Ledger.inbound_pop, Ledger.book_shed, if_neg ne, Ledger.inbound_without]
        exact hi))
      have book : ((s.liftedOut c h).unaimed x h).st.ledger.book d = s.ledger.book d := by
        rw [ledger₁, ledger, Ledger.book_erase, Ledger.book_setHand, Ledger.book_pop, if_neg ne, Ledger.book_shed, if_neg ne,
          Finset.erase_eq_of_notMem out]
        split <;> rfl
      exact Ledger.Takes.without (by rwa [Ledger.Takes, book] at takes) e
    · rw [ledger₁, ledger] at room
      rw [Ledger.book_shed, if_neg ne, Ledger.waits_without]
      refine lt_of_eq_of_lt ?_ room
      rw [Ledger.book_erase, Ledger.book_setHand, Ledger.book_pop, if_neg ne, Ledger.book_shed, if_neg ne]
      split <;> rfl

end Sys2Proof.Machine
end

