-- ==== Sys2Proof/Proofs/AccountOfReportRules.lean ====
section
/-! LANDED, LIFTED and RELEASE keep the account (O57). -/
namespace Sys2Proof.Machine

variable {q : Claim → Bool} {h : HNum} {x : Handover} {w : Work} {s : State} {r : Region} {body : List Byte}
  {rb : Robot} {m : Matched} {d : List Byte}

/-- What a report that fits its operation starts from. -/
structure State.Taken (q : Claim → Bool) (rb : Robot) (h : HNum) (x : Handover) (m : Matched) (s : State) : Prop where
  sort : Claim.Sort q
  ok : s.ledger.Ok q noColumn noRecord
  ordered : s.ColumnsOrdered
  hand : s.hand h = some x
  reported : (s.ledger.without m.ended).Reported q rb h x m.column m.op
  late : m.grant = none → (s.ledger.book m.column).state = .fenced
  onTime : ∀ g ∈ m.grant, (s.ledger.book m.column).state = .granted ∧ g.claim.robot = rb ∧ g.op.kind = m.op ∧
    g.record = h ∧ (s.ledger.book m.column).grant = some g.entry

/-- A rule that leaves the control fields of the columns, and then the end of its grant. -/
theorem State.Taken.endGrant_ok (T : s.Taken q rb h x m) (ordered : s.ColumnsOrdered → w.st.ColumnsOrdered)
    (calm : ∀ {Q : State → Prop}, Calm Q → Q s → Q w.st)
    (ok : (w.st.ledger.without m.ended).Ok q noColumn noRecord) : (w.endGrant m).st.ledger.Ok q noColumn noRecord :=
  Work.endGrant_ok (ordered T.ordered) ok fun hg => by
    obtain ⟨g, e⟩ := Option.isSome_iff_exists.1 hg
    rw [Work.state_of_calm calm]
    exact (T.onTime g e).1

theorem applyLanded_ok (T : s.Taken q rb h x m) (e : applyLanded s r rb h x m = some (w, d)) :
    w.st.ledger.Ok q noColumn noRecord := by
  have F : Closed fun s t => s.ColumnsOrdered → t.ColumnsOrdered := closedStep_columnsOrdered.toClosed
  have R := T.reported
  unfold applyLanded at e
  split at e
  next op =>
    cases e
    exact T.endGrant_ok (F.landDeposit _ _ _ _) (fun G hs => G.landDeposit hs m.column h x) (landDeposit_ok (op ▸ R) T.hand)
  next op =>
    cases e
    exact T.endGrant_ok (F.landHolding _ _ _ _) (fun G hs => G.landHolding hs m.column h x) (landHolding_ok (op ▸ R) T.hand)
  · cases e
  · cases e

theorem applyLifted_ok (T : s.Taken q rb h x m) (e : applyLifted s r rb h x m = some (w, d)) :
    w.st.ledger.Ok q noColumn noRecord := by
  have F : Closed fun s t => s.ColumnsOrdered → t.ColumnsOrdered := closedStep_columnsOrdered.toClosed
  have R := T.reported
  unfold applyLifted at e
  dsimp only at e
  split at e
  next op =>
    cases e
    exact T.endGrant_ok (F.liftLift _ _ _ _) (fun G hs => G.liftLift hs m.column h x) (liftLift_ok (op ▸ R) T.hand)
  next op =>
    cases e
    exact T.endGrant_ok (F.liftShift _ _ _ _ _ _) (fun G hs => G.liftShift hs m.column h rb x m.grant)
      (liftShift_ok T.sort (op ▸ R) T.hand)
  · cases e
  · cases e

/-- The HOLDING claim of a grant on time, and the record it lands. -/
theorem State.Taken.holding {g : Grant} (T : s.Taken q rb h x m) (op : m.op = .holding) (hg : m.grant = some g) :
    x.state = .landing ∧ g.claim.kind = .holding ∧ g.claim.robot = rb ∧ g.claim.handover = h := by
  obtain ⟨-, robot, kind, record, grant⟩ := T.onTime g hg
  have holds : g.op.kind = .holding := kind.trans op
  obtain ⟨⟨y, hy, -, suits⟩, -, -⟩ := T.ok.grant m.column g.entry grant
  rw [Grant.entry_record, record] at hy
  obtain rfl := Option.mem_unique (State.ledger_hand T.hand) hy
  obtain ⟨claim, landing, -⟩ := (Grant.suits_kind suits).2.1 holds
  exact ⟨landing, claim, robot, (Grant.record_own (by simp [holds])).symm.trans record⟩

theorem applyRelease_ok (T : s.Taken q rb h x m) (e : applyRelease s r rb h x m = some (w, d)) :
    w.st.ledger.Ok q noColumn noRecord := by
  have F : Closed fun s t => s.ColumnsOrdered → t.ColumnsOrdered := closedStep_columnsOrdered.toClosed
  have R := T.reported
  have alone (hg : m.grant = none) : m.ended = none := by rw [Matched.ended, hg]; rfl
  unfold applyRelease at e
  dsimp only at e
  split at e
  next g op hg =>
    cases e
    refine T.endGrant_ok (F.rebook s.begin h) (fun G hs => G.rebook (w := s.begin) hs h) (rebook_ok (op ▸ R) T.hand fun hf => ?_)
    rw [(T.onTime g hg).1] at hf
    cases hf
  next op hg =>
    cases e
    rw [Work.ledger_handOccupancy]
    rw [op, alone hg] at R
    exact rebook_late_ok R T.hand (T.late hg)
  next op =>
    cases e
    exact T.endGrant_ok (F.putBack s.begin h) (fun G hs => G.putBack (w := s.begin) hs h) (putBack_ok R (.inl op) T.hand)
  next op =>
    cases e
    refine T.endGrant_ok (fun hs => F.handOccupancy _ (F.putBack s.begin h hs))
      (fun G hs => G.handOccupancy (G.putBack (w := s.begin) hs h)) ?_
    rw [Work.ledger_handOccupancy]
    exact putBack_ok R (.inr op) T.hand
  next g op hg =>
    cases e
    obtain ⟨landing, kind, robot, own⟩ := T.holding op hg
    refine T.endGrant_ok (fun hs => F.handOccupancy _ (F.releaseHolding s.begin _ h x _ hs))
      (fun G hs => G.handOccupancy (G.releaseHolding (w := s.begin) hs _ h x _)) ?_
    rw [Work.ledger_handOccupancy]
    exact releaseHolding_ok (op ▸ R) T.hand (T.onTime g hg).1 landing kind robot own
  next op hg =>
    cases e
    rw [Work.ledger_handOccupancy]
    rw [op, alone hg] at R
    exact lateReleaseHolding_ok R T.hand (T.late hg)

theorem reportOwner_ok {apply : State → Region → Robot → HNum → Handover → Matched → Option (Work × List Byte)}
    (rule : ∀ {rb h x m w d}, s.Taken q rb h x m → apply s r rb h x m = some (w, d) →
      w.st.ledger.Ok q noColumn noRecord) (sort : Claim.Sort q) (ok : s.ledger.Ok q noColumn noRecord)
    (ordered : s.ColumnsOrdered) (wait : s.DoubtsWait q) :
    (reportOwner apply r body s).work.st.ledger.Ok q noColumn noRecord := by
  have captured (k : ErrorKind) (rb : Robot) (h : HNum) : (s.captureReport k rb h).ledger = s.ledger :=
    State.ledger_capture ..
  unfold reportOwner
  dsimp only
  split
  · exact ok
  next h _ =>
    split
    · show (s.captureReport .staleReport _ h).ledger.Ok _ _ _
      rwa [captured]
    next x hx =>
      split
      · show (s.captureReport .staleReport _ h).ledger.Ok _ _ _
        rwa [captured]
      · split
        · show (s.captureReport .notGranted _ h).ledger.Ok _ _ _
          rwa [captured]
        next m hm =>
          split
          · exact ok
          next w d e =>
            obtain ⟨reported, late, onTime⟩ := State.reported sort ok wait hx hm
            exact rule ⟨sort, ok, ordered, hx, reported, late, onTime⟩ e

end Sys2Proof.Machine
end

