-- ==== Sys2Proof/Proofs/AccountOfConfiguration.lean ====
section
/-! Configuration, queries and captures keep the account (O57). -/
namespace Sys2Proof.Machine

variable {q : Claim → Bool} {w : Work} {s t : State} {r : Region} {body : List Byte} {c : ColIx} {p : Port}

/-! ### CONFIGURE COLUMN -/

/-- A part of a step whose state keeps the account, its columns' lists in order. -/
def State.Kept (q : Claim → Bool) (s : State) : Prop := s.ColumnsOrdered ∧ s.ledger.Ok q noColumn noRecord

theorem Work.kept_handOccupancy (k : w.st.Kept q) : w.handOccupancy.st.Kept q :=
  ⟨closedStep_columnsOrdered.toClosed.handOccupancy w k.1, by rw [Work.ledger_handOccupancy]; exact k.2⟩

theorem Column.ordered_reconfigured {k : Column} (h : k.Ordered) (new : ColumnConfig) : (k.reconfigured new).Ordered := by
  rw [Column.reconfigured_eq]
  split
  · exact ⟨h.waits, h.inbound⟩
  · split <;> exact ⟨h.waits, h.inbound⟩

theorem State.kept_reconfigured {new : ColumnConfig} (k : s.Kept q) (controlled : s.ColumnsControlled)
    (allowed : s.changesAllowed c new = true) : (s.modCol c fun k => k.reconfigured new).Kept q := by
  refine ⟨fun d => ?_, State.reconfigured_ok k.2 controlled allowed⟩
  rw [State.col_modCol]
  split
  · exact Column.ordered_reconfigured (k.1 c) new
  · exact k.1 d

theorem configureColumn_ok {new : ColumnConfig} (kept : s.Kept q) (controlled : s.ColumnsControlled)
    (allowed : s.changesAllowed c new = true) : (configureColumn s c new).st.ledger.Ok q noColumn noRecord := by
  unfold configureColumn
  extract_lets old w₁ w₂ w₃ w₄ k
  have configured : w₁.st.Kept q := State.kept_reconfigured kept controlled allowed
  clear_value w₁
  have deepened : w₂.st.Kept q := by
    simp only [w₂]
    split <;> exact configured
  clear_value w₂
  have reached : w₃.st.Kept q := by
    simp only [w₃]
    split <;> exact deepened
  clear_value w₃
  have handed : w₄.st.Kept q := by
    simp only [w₄]
    split
    · exact Work.kept_handOccupancy reached
    · exact reached
  split
  next check =>
    have opened : (w₄.st.col c).state = .opened := by
      simp only [Bool.and_eq_true, beq_iff_eq] at check
      exact check.1.2
    exact Work.fence_ok handed.2 handed.1 (by simp [opened])
  · exact handed.2

theorem configureColumnOwner_ok (kept : s.Kept q) (controlled : s.ColumnsControlled) :
    (configureColumnOwner body s).work.st.ledger.Ok q noColumn noRecord := by
  unfold configureColumnOwner
  split
  · exact kept.2
  · split
    · exact kept.2
    · split
      next allowed => exact configureColumn_ok kept controlled allowed
      · exact kept.2

/-! ### CONFIGURE NOTICES -/

theorem configureNoticesOwner_ok (ok : s.ledger.Ok q noColumn noRecord) :
    (configureNoticesOwner body s).work.st.ledger.Ok q noColumn noRecord := by
  unfold configureNoticesOwner
  split
  · exact ok
  · exact ok
  next k _ _ =>
    extract_lets level set
    have set_ok : set.ledger.Ok q noColumn noRecord := ok
    clear_value set
    split
    · dsimp only [State.refuse_work, State.begin_st]
      exact State.removeKind_ok set_ok k
    · exact set_ok

/-! ### Rules that the account does not see -/

theorem clearErrorsOwner_ledger : (clearErrorsOwner body s).work.st.ledger = s.ledger := by
  unfold clearErrorsOwner
  split <;> rfl

theorem configurePortOwner_ledger : (configurePortOwner body s).work.st.ledger = s.ledger := by
  unfold configurePortOwner
  split
  · rfl
  · split
    · rfl
    · split <;> rfl

theorem configureLimitsOwner_ledger : (configureLimitsOwner body s).work.st.ledger = s.ledger := by
  unfold configureLimitsOwner
  split <;> rfl

theorem configureLoadOwner_ledger : (configureLoadOwner body s).work.st.ledger = s.ledger := by
  unfold configureLoadOwner
  split
  · rfl
  · exact Work.ledger_setLoad ..

theorem setModeOwner_ledger : (setModeOwner body s).work.st.ledger = s.ledger := by
  unfold setModeOwner
  split
  · rfl
  · exact Work.ledger_setLoad ..

theorem forceOwner_ledger : (forceOwner body s).work.st.ledger = s.ledger := by
  unfold forceOwner
  dsimp only
  split
  · split
    · exact Work.ledger_setLoad ..
    · rfl
  · split
    · split
      · exact Work.ledger_setLoad ..
      · rfl
    · rfl

end Sys2Proof.Machine
end

