-- ==== Sys2Proof/Proofs/AccountOfTime.lean ====
section
/-! The timed events keep the account (O57). -/
namespace Sys2Proof.Machine

variable {q : Claim → Bool} {L M : Ledger} {w : Work} {s t : State} {c : ColIx} {h : HNum} {x : Handover} {rb : Robot}
  {op : OpKind}

/-! ### The clock (R55, R56) -/

theorem State.ledger_ext (hands : ∀ h, (t.hand h).map Handover.entry = (s.hand h).map Handover.entry)
    (books : ∀ c, (t.col c).books = (s.col c).books) : t.ledger = s.ledger :=
  Ledger.ext (funext hands) (funext books)

theorem Column.books_tick (k : Column) (steps : Nat) (g : Reading) : (k.tick steps g).books = k.books := by
  have sampled : (k.sampleGauge steps g).books = k.books := by
    unfold Column.sampleGauge
    split <;> rfl
  have timed : (k.grant.map fun g => { g with timer := g.timer.map (· - 1) }).map Grant.entry = k.grant.map Grant.entry := by
    rw [Option.map_map]; rfl
  rw [← sampled]
  unfold Column.tick Column.books
  rw [timed]
  unfold Column.sampleGauge
  split <;> rfl

theorem State.ledger_tick (s : State) (g : Vector Reading 8) : (s.tick g).ledger = s.ledger := by
  refine State.ledger_ext (fun h => by rw [State.hand_tick]) fun c => ?_
  rw [State.col_tick]
  split
  · rfl
  · exact Column.books_tick ..

theorem Handover.entry_advance (x : Handover) (now : Seconds) : (x.advance now).entry = x.entry := by
  unfold Handover.advance Handover.entry
  dsimp only
  split <;> simp [Option.map_map, Function.comp_def]

theorem State.ledger_advance (s : State) : s.advance.ledger = s.ledger := by
  refine State.ledger_ext (fun h => ?_) fun c => by rw [State.col_advance]
  rw [State.hand_advance]
  split
  · rw [Option.map_map]
    exact congrArg (Option.map · _) (funext fun x => x.entry_advance _)
  · rfl

/-! ### Gauges and settle timers (R24, R25, R109) -/

theorem State.kept_modCol {f : Column → Column} (k : s.Kept q) (books : (f (s.col c)).books = (s.col c).books)
    (waits : (f (s.col c)).waitList = (s.col c).waitList) (inbound : (f (s.col c)).inbound = (s.col c).inbound) :
    (s.modCol c f).Kept q := by
  refine ⟨fun d => ?_, by rw [State.ledger_modCol_same books]; exact k.2⟩
  rw [State.col_modCol]
  split
  · exact ⟨by rw [waits]; exact (k.1 c).waits, by rw [inbound]; exact (k.1 c).inbound⟩
  · exact k.1 d

theorem Work.ledger_reportReading (w : Work) (c : ColIx) (old new : Reading) :
    (w.reportReading c old new).st.ledger = w.st.ledger := by
  have posted (b : Bool) : (if b = true then w.up (·.post .ps (.gauge c)) else w).st.ledger = w.st.ledger := by
    cases b
    · rfl
    · exact State.ledger_post ..
  exact posted _

theorem Work.judgeReading_ok (k : w.st.Kept q) (c : ColIx) (new : Reading) :
    (w.judgeReading c new).st.ledger.Ok q noColumn noRecord := by
  unfold Work.judgeReading
  split
  next h => exact Work.fence_ok k.2 k.1 (by simp [h])
  next h =>
    split
    · exact Work.fence_ok k.2 k.1 (by simp [h])
    · exact k.2
  all_goals exact k.2

theorem State.readingChange_ok (kept : s.Kept q) (c : ColIx) : (s.readingChange c).ledger.Ok q noColumn noRecord := by
  unfold State.readingChange
  extract_lets k w read
  split
  · have changed : w.st.Kept q := State.kept_modCol kept rfl rfl rfl
    clear_value w
    refine Work.finish_ok ?_
    simp only [read]
    split
    · exact changed.2
    · rw [Work.ledger_reportReading]
      exact changed.2
    · exact Work.judgeReading_ok changed c _
  · exact kept.2

theorem State.settleExpiry_ok (kept : s.Kept q) (controlled : s.ColumnsControlled) (c : ColIx) :
    (s.settleExpiry c).ledger.Ok q noColumn noRecord := by
  unfold State.settleExpiry
  extract_lets k w opened matching judged
  split
  next due =>
    have settling : (s.col c).state = .settling := (controlled c).settle (by simp [k] at due; simp [due.1])
    have timed : w.st.Kept q := State.kept_modCol kept rfl rfl rfl
    have state : (w.st.col c).state = .settling := by
      show ((s.modCol c fun k => { k with settleTimer := none }).col c).state = _
      simpa using settling
    have opens : opened.st.ledger.Ok q noColumn noRecord := by
      have ledger : opened.st.ledger = w.st.ledger.turn c .opened := State.ledger_modCol rfl
      have still : (w.st.ledger.book c).state = .settling := state
      rw [ledger]
      exact timed.2.serve (by simp) (by simp [still]) (timed.2.no_grant (by simp [still]))
    clear_value w opened
    refine Work.finish_ok ?_
    simp only [judged]
    split
    · exact opens
    · split
      · exact opens
      · rw [Work.up_st, State.ledger_post]
        exact opens
    · split
      · exact opens
      · exact Work.fence_ok timed.2 timed.1 (by simp [state])
  · exact kept.2

/-! ### A grant timeout (R23, R87) -/

/-- A record in doubt of an operation of a robot. -/
def Handover.doubted (x : Handover) (op : OpKind) (rb : Robot) : Handover :=
  { x with state := .doubt, doubt := some { op := op, robot := rb } }

section
variable (R : M.Reported q rb h x c op)
include R

theorem Ledger.Reported.places : (x.doubted op rb).stacked = x.stacked ∧ (x.doubted op rb).awaited = x.awaited ∧
    (x.doubted op rb).shifted = x.shifted := by
  have apart (ha : x.awaited = true) := Handover.not_stacked_of_awaited ha
  have shifted := R.shifted
  rw [Handover.stacked_eq (x.doubted op rb), Handover.awaited_eq (x.doubted op rb), Handover.shifted_eq (x.doubted op rb)]
  cases op with
  | deposit =>
    have awaited := R.awaited (.inl rfl)
    simp_all [Handover.doubted]
  | holding =>
    have awaited := R.awaited (.inr rfl)
    simp_all [Handover.doubted]
  | lift =>
    have stacked := (R.lying (.inl rfl)).1
    simp_all [Handover.doubted]
  | shift =>
    have stacked := (R.lying (.inr rfl)).1
    simp_all [Handover.doubted]

theorem Ledger.Reported.doubted_fits : (x.doubted op rb).Fits where
  doubt := by simp [Handover.doubted]
  closing := by simp [Handover.doubted, R.fits.closing_eq_none R.inUse.1]
  booking := by simp [Handover.doubted, R.fits.timer_eq_none R.inUse.2.1]
  column := by simp [Handover.doubted, R.column]
  target ht := by
    rw [R.places.2.2]
    exact R.fits.target ht
  moving := by simp [Handover.doubted]
  carried := by simp [Handover.doubted]
  doubted d hd := by
    cases hd
    exact R.holder
  follower := R.fits.follower

end

/-- The column of a grant that has timed out is being fenced, its region claims gone. -/
theorem Ledger.Reported.fencing (R : M.Reported q rb h x c op) :
    ((M.turn c .fenced).dismiss c).Ok q (· = c) (· = h) :=
  (R.ok.turn (fencing' := (· = c)) (fun _ _ h => h.elim) (by simp) (fun _ h => (h rfl).elim) (fun h => (h rfl).elim) R.free).shed c
    (f := fun m => m.filter fun cl => cl.isRegion = false) fun _ => Multiset.filter_le _ _

theorem Ledger.Reported.leaveInDoubt (R : M.Reported q rb h x c op) :
    (((M.setHand h (some (x.doubted op rb).entry)).turn c .fenced).dismiss c).Ok q (· = c) noRecord := by
  show (((M.turn c .fenced).dismiss c).setHand h (some (x.doubted op rb).entry)).Ok q (· = c) noRecord
  obtain ⟨stacked, awaited, shifted⟩ := R.places
  have ok := R.fencing
  have hand : ((M.turn c .fenced).dismiss c).hand h = some x.entry := R.hand
  have state : (((M.turn c .fenced).dismiss c).book c).state = .fenced := by
    simp [Ledger.dismiss, Ledger.book_turn]
  have stack : (((M.turn c .fenced).dismiss c).book c).stack = (M.book c).stack := by
    simp [Ledger.dismiss, Ledger.book_turn]
  have idle : ((M.turn c .fenced).dismiss c).Idle h := fun d g hg => R.idle d g (by
    simp only [Ledger.dismiss, Ledger.book_modBook, Ledger.book_turn] at hg
    split at hg <;> exact hg)
  have unclaimed : ((M.turn c .fenced).dismiss c).Unclaimed h := fun d k hk hh => by
    simp only [Ledger.dismiss, Ledger.book_modBook, Ledger.book_turn] at hk
    split at hk
    next e =>
      obtain ⟨hk, region⟩ := Multiset.mem_filter.1 hk
      have := (R.lift_of_wait (d := d) hk hh).2
      simp [Claim.isRegion, this] at region
    next ne => exact ne (R.lift_of_wait hk hh).1
  have stands (d : ColIx) : (x.doubted op rb).entry.standsIn d ↔ x.entry.standsIn d := by
    simp only [Handover.standsIn, Handover.entry_stacked, stacked]
    exact .rfl
  have inbound (d : ColIx) : (x.doubted op rb).entry.inboundTo d ↔ x.entry.inboundTo d := by
    simp only [Handover.inboundTo, Handover.entry_awaited, Handover.entry_shifted, awaited, shifted]
    exact .rfl
  have column : (x.doubted op rb).entry.column = some c := R.column
  refine (ok.puts_inPlace hand stands inbound).ok ok (fun y hy => ?_) (fun i hi e => (hi e).elim)
    (fun y hy _ hs d hd => ?_) (fun d k hk hh => (unclaimed d k hk hh).elim)
    fun d g hg hn => (hn.elim (idle d g hg).1 (idle d g hg).2).elim
  · obtain rfl := Option.some.inj hy
    refine ⟨(Handover.fits_entry _).2 R.doubted_fits, fun _ i hi z hz hzc e => hi (ok.bins i h z hz x.entry hand hzc R.inUse.1 e.symm),
      fun d hd => ?_, fun d hd => ok.served hand (by rwa [stands, inbound] at hd), fun _ _ _ _ => rfl, fun _ d hd => ?_,
      fun _ hs => by simp [Handover.doubted] at hs, fun rb hf => .inl (by rw [hand]; exact hf)⟩
    · rw [stands, inbound] at hd
      exact hd.elim (fun hd => .inl ((ok.mem_stack hand).2 hd)) fun hd => .inr (.inl ((ok.mem_inbound hand).2 hd))
    · obtain rfl := Option.some.inj (column.symm.trans hd)
      exact ⟨state, R.alone⟩
  · obtain rfl := Option.some.inj hy
    obtain rfl := Option.some.inj (column.symm.trans hd)
    rw [Ledger.book_setHand, stack]
    have lies : op = .lift ∨ op = .shift := by
      rw [Handover.entry_stacked, stacked] at hs
      by_contra other
      have coming : op = .deposit ∨ op = .holding := by cases op <;> simp_all
      simp [Handover.not_stacked_of_awaited (R.awaited coming)] at hs
    exact (R.lying lies).2

theorem State.grantTimeout_ok (sort : Claim.Sort q) (kept : s.Kept q) (c : ColIx) :
    (s.grantTimeout c).ledger.Ok q noColumn noRecord := by
  have F : Closed fun s t => s.ColumnsOrdered → t.ColumnsOrdered := closedStep_columnsOrdered.toClosed
  unfold State.grantTimeout
  split
  · exact kept.2
  next g hg =>
    dsimp only
    split
    · have grant : (s.ledger.book c).grant = some g.entry := by
        show (s.col c).grant.map Grant.entry = _
        rw [hg]; rfl
      obtain ⟨⟨y, hy, -⟩, -, -⟩ := kept.2.grant c g.entry grant
      obtain ⟨x, hx, -⟩ := State.mem_ledger_hand.1 hy
      have R := State.reported_on_time (x := x) sort kept.2 grant hx
      have ledger : ((s.begin.up (·.modCol c fun k => { k with grant := none })).change g.record fun r =>
          { r with state := .doubt, doubt := some { op := g.op.kind, robot := g.claim.robot } }).st.ledger =
            (s.ledger.without (some c)).setHand g.record (some (x.doubted g.op.kind g.claim.robot).entry) := by
        rw [Work.ledger_change (x := x) (by simpa using hx), Work.up_st,
          State.ledger_modCol (g := fun b => { b with grant := none }) rfl]
        rfl
      refine Work.finish_ok (Work.enterFenced_dismissing_ok ?_ ?_ ?_)
      · refine F.change _ _ (.place fun _ => ⟨rfl, rfl, rfl, rfl, rfl, rfl, rfl⟩) ?_
        exact F.upCol s.begin c (fun k => { k with grant := none }) (.control fun _ => ⟨rfl, rfl, rfl⟩) kept.1
      · rw [ledger]
        exact R.leaveInDoubt
      · rw [ledger]
        exact R.free
    · exact kept.2

/-! ### Records (R45, R101, R102, R133) -/

theorem State.bookingExpiry_ok (ok : s.ledger.Ok q noColumn noRecord) (h : HNum) :
    (s.bookingExpiry h).ledger.Ok q noColumn noRecord := by
  unfold State.bookingExpiry
  split
  · exact ok
  next x hx =>
    split
    next c booked _ hc =>
      extract_lets w₁ w₂
      have hand : w₂.st.hand h = some x := by
        show ((s.begin.leave c fun cl => cl.handover == h).leaveInbound c h).handOccupancy.st.hand h = _
        simpa [Work.leaveInbound_eq] using hx
      have ledger : w₂.st.ledger = (s.ledger.shed c h).erase c h := by
        show ((s.begin.leave c fun cl => cl.handover == h).leaveInbound c h).handOccupancy.st.ledger = _
        rw [Work.ledger_handOccupancy, Work.ledger_leaveInbound, Work.ledger_leaveHand]
        rfl
      obtain ⟨o, withdrawn, ended⟩ := Work.ledger_withdraw hand withdrawnLimit
      refine Work.finish_ok ?_
      rw [withdrawn, ledger]
      exact Work.unbook_ok (w := s.begin) ok hx booked hc ended
    · exact ok

theorem State.exposureWarning_ok (ok : s.ledger.Ok q noColumn noRecord) (h : HNum) :
    (s.exposureWarning h).ledger.Ok q noColumn noRecord := by
  unfold State.exposureWarning
  split
  · exact ok
  · split
    · exact Work.finish_ok (by rw [Work.ledger_takeWarning]; exact ok)
    · exact ok

theorem State.exposureExpiry_ok (ok : s.ledger.Ok q noColumn noRecord) (h : HNum) :
    (s.exposureExpiry h).ledger.Ok q noColumn noRecord := by
  unfold State.exposureExpiry
  split
  · exact ok
  · dsimp only
    split
    · refine Work.finish_ok ?_
      rw [Work.up_st, State.ledger_postAll, State.ledger_capture, Work.ledger_raiseUrgency, Work.up_st,
        State.ledger_modHand_same (f := fun r => { r with budget := r.budget.map Budget.expiredNow }) (by intro; rfl)]
      exact ok
    · exact ok

theorem State.trendSample_ok (ok : s.ledger.Ok q noColumn noRecord) : s.trendSample.ledger.Ok q noColumn noRecord := by
  unfold State.trendSample
  split
  · exact Work.finish_ok (w := s.begin.setLoad _) (by rw [Work.ledger_setLoad]; exact ok)
  · exact ok

end Sys2Proof.Machine
end

