-- ==== Sys2Proof/Proofs/AccountOfOldStacks.lean ====
section
/-! AMEND and the account (O57): the records of the old stack (R118). -/
namespace Sys2Proof.Machine

variable {q : Claim → Bool} {fencing : ColIx → Prop} {L L' : Ledger} {w : Work} {s s' t : State} {c : ColIx} {h : HNum}
  {x : Handover} {es : List AmendEntry} {l : List HNum} {o : Option Handover}

/-! ### A record that stands in a stack without a grant -/

theorem Handover.Fits.holder_of_stacked (fits : x.Fits) (stacked : x.stacked = true) : x.holder = none := by
  rw [Handover.stacked_eq] at stacked
  cases hs : x.state
  case doubt =>
    obtain ⟨d, hd⟩ := Option.isSome_iff_exists.1 (fits.doubt.2 hs)
    have lies : d.op = .lift ∨ d.op = .shift := by simpa [hs, hd] using stacked
    rw [fits.doubted d hd, if_neg]
    rcases lies with e | e <;> simp [e]
  all_goals exact fits.holder_eq_none (by simp_all)

theorem Handover.Fits.inbound_of_stacked (stacked : x.stacked = true) {d : ColIx} (hd : x.inboundTo d) :
    x.target = some d := by
  rcases hd with ⟨awaited, -⟩ | ⟨-, target⟩
  · simp [Handover.not_stacked_of_awaited awaited] at stacked
  · exact target

section
variable (ok : L.Ok q fencing noRecord) (hx : L.hand h = some x.entry) (stands : x.standsIn c)
  (free : (L.book c).grant = none)
include ok hx stands free

theorem Ledger.Ok.stored_or_doubt : x.state = .stored ∨ x.state = .doubt := by
  have granted (hs : x.state = .landing ∨ x.state = .lifting ∨ x.state = .shifting) : False := by
    obtain ⟨d, hd, g, hg, -⟩ := ok.granted h id x.entry hx hs
    obtain rfl := Option.some.inj (stands.2.symm.trans hd)
    simp [free] at hg
  have stacked := stands.1
  rw [Handover.stacked_eq] at stacked
  cases hs : x.state <;> simp_all

theorem Ledger.Ok.idle_of_stands : L.Idle h := by
  rcases ok.stored_or_doubt hx stands free with hs | hs
  · exact ok.idle_of_stored hx hs stands.2 free
  · exact ok.idle_of_state hx (by simp [hs])

omit free in
theorem Ledger.Ok.unclaimed_of_stands (empty : (L.book c).waits = 0) : L.Unclaimed h := fun d k hk hh => by
  subst hh
  obtain rfl := Option.some.inj (stands.2.symm.trans (ok.column_of_wait hk hx).1)
  simp [empty] at hk

end

/-! ### A stack record under the list (R118) -/

theorem Work.ledger_dropTarget (c : ColIx) (hx : w.st.hand h = some x) (out : x.target = none → ∀ i, h ∉ (w.st.ledger.book i).inbound) :
    ∃ t, (∀ i, x.target = some i → i = t) ∧
      (w.dropTarget h).st.ledger = (w.st.ledger.erase t h).setHand h (some (x.aimed none).entry) := by
  cases ht : x.target with
  | some t =>
    refine ⟨t, fun i hi => (Option.some_inj.1 hi).symm, ?_⟩
    rw [Work.dropTarget_of_some hx ht, Work.up_st, State.ledger_modHand (x := x) (by simpa [Work.leaveInbound_eq] using hx),
      Work.ledger_leaveInbound]
    rfl
  | none =>
    have same : (x.aimed none).entry = x.entry := by rw [← ht]; rfl
    refine ⟨c, by simp, ?_⟩
    rw [Work.dropTarget_of_none hx ht, Ledger.erase_of_not_mem (out ht c), same,
      Ledger.setHand_self (State.ledger_hand hx)]

/-- The record leaves the place that it holds at a target, and its own place. -/
theorem Ledger.Ok.puts_removed {u : ColIx} (ok : L.Ok q fencing noRecord) (hx : L.hand h = some x.entry) (stands : x.standsIn c)
    (only : ∀ i, x.target = some i → i = u) (ended : ∀ y ∈ o, y.Ended) :
    L.Puts h o (((L.erase u h).pull c h).setHand h o) := by
  refine ((((ok.moves h).erase u).pull c).setHand o).puts (by simp) (fun i => iff_of_false ?_ ?_) fun i => iff_of_false ?_ ?_
  · rw [Ledger.book_setHand, Ledger.mem_pull, Ledger.stack_erase, ok.mem_stack hx]
    exact fun hi => hi.1 (Option.some.inj (hi.2.2.symm.trans stands.2))
  · exact fun ⟨y, hy, hp⟩ => ((ended y hy).nowhere i).1 hp
  · rw [Ledger.book_setHand, Ledger.inbound_pull, Ledger.mem_erase, ok.mem_inbound hx]
    exact fun hi => hi.1 (only i (Handover.Fits.inbound_of_stacked stands.1 hi.2))
  · exact fun ⟨y, hy, hp⟩ => ((ended y hy).nowhere i).2 hp

/-- A record of a list of entries: stored, its bin listed. -/
def Handover.Listed (es : List AmendEntry) (y : Handover) : Prop := y.state = .stored ∧ ∃ e ∈ es, e.bin = y.bin

theorem Work.amendStack_ok (ok : w.st.ledger.Ok q noColumn noRecord) (fenced : (w.st.ledger.book c).state = .fenced)
    (hx : w.st.hand h = some x) (stands : x.standsIn c) :
    ∃ o, w.st.ledger.Puts h o (w.amendStack c es h).st.ledger ∧ (w.amendStack c es h).st.ledger.Ok q noColumn noRecord ∧
      ∀ y ∈ o, (∀ d, ¬ y.inboundTo d) ∧ (∀ d, y.standsIn d → y.Listed es) ∧ ∀ rb, followedBy rb (some y) = false := by
  have hL := State.ledger_hand hx
  have fits : x.Fits := ok.fits_hand (e := none) hx
  have free : (w.st.ledger.book c).grant = none := ok.no_grant (by simp [fenced])
  have state := ok.stored_or_doubt hL stands free
  have idle := ok.idle_of_stands hL stands free
  have unclaimed := ok.unclaimed_of_stands hL stands (ok.fencedWaits c id fenced)
  have inUse : x.state ≠ .closing ∧ x.state ≠ .booked := by rcases state with e | e <;> simp [e]
  have inbound (i : ColIx) (hi : x.inboundTo i) := Handover.Fits.inbound_of_stacked stands.1 hi
  obtain ⟨u, only, dropped⟩ := Work.ledger_dropTarget (w := w) c hx fun none_ i hi => by
    have := inbound i ((ok.mem_inbound hL).1 hi)
    simp [none_] at this
  have hand := Work.dropTarget_hand hx
  cases he : es.find? fun e => e.bin == x.bin with
  | some e =>
    set y := (x.aimed none).restated c w.st.clock e with hy
    have follower : y.follower = none := fits.follower_eq_none (fits.holder_of_stacked stands.1)
    have fits' : y.Fits := fits.stored inUse rfl rfl rfl (by simp [hy, Handover.restated, fits.timer_eq_none inUse.2])
      stands.2.symm rfl rfl follower
    have out (i : ColIx) : ¬ y.entry.inboundTo i := Handover.not_inboundTo_of_stored rfl
    have same (i : ColIx) : y.entry.standsIn i ↔ x.entry.standsIn i := by
      rw [Handover.standsIn_of_stored (x := y.entry) rfl]
      exact ⟨fun hi => by obtain rfl := Option.some.inj hi; exact stands, fun hi => stands.2.symm.trans hi.2⟩
    have ledger : (w.amendStack c es h).st.ledger = (w.st.ledger.erase u h).setHand h (some y.entry) := by
      rw [Work.amendStack_listed hx he, Work.up_st, State.ledger_setHand, dropped, Ledger.setHand_setHand]
      rfl
    have p : w.st.ledger.Puts h (some y.entry) ((w.st.ledger.erase u h).setHand h (some y.entry)) :=
      ok.puts_out hL (fun i => by simpa using same i) (fun i hi => only i (inbound i hi)) fun z hz i => by
        obtain rfl := Option.some.inj hz
        exact out i
    have quiet (rb : Robot) : followedBy rb (some y.entry) = false := by rw [Handover.followedBy_entry, follower]; rfl
    refine ⟨some y.entry, ledger ▸ p, ?_, fun z hz => ?_⟩
    · rw [ledger]
      refine ok.proceed hL p ⟨(Handover.fits_entry _).2 fits', inUse.1, rfl, fun rb hf => by simp [quiet] at hf,
        fun i hi => .inl ((same i).1 (hi.resolve_right (out i))), fun i hi => (out i hi).elim, fun hd => ?_, fun hs => ?_⟩
        ?_ (fun i hi e => e) (fun i k hk hh => (unclaimed i k hk hh).elim)
        fun i g hg hn => (hn.elim (idle i g hg).1 (idle i g hg).2).elim
      · cases show HandState.stored = .doubt from hd
      · rcases hs with e | e | e <;> cases e
      · exact fun e => by cases show HandState.stored = .doubt from e
    · obtain rfl := Option.some.inj hz
      have bin : e.bin = x.bin := beq_iff_eq.1 (List.find?_some (p := fun e : AmendEntry => e.bin == x.bin) he)
      exact ⟨out, fun d _ => ⟨rfl, e, List.mem_of_find?_eq_some he, bin⟩, quiet⟩
  | none =>
    obtain ⟨o, closed, ended⟩ := Work.ledger_close (w := { 
      st := (w.dropTarget h).st.modCol c fun k => { k with stack := k.stack.filter fun i => i != h }
      sel := ColIx.all ++ (w.dropTarget h).sel }) (h := h) (by simpa using hand) .removed (RegionSet.single x.dest)
      (.withdrawn h x.bin 2)
    have ledger : (w.amendStack c es h).st.ledger = ((w.st.ledger.erase u h).pull c h).setHand h o := by
      rw [Work.amendStack_unlisted hx he, closed]
      dsimp only
      rw [State.ledger_modCol (g := fun b => { b with stack := b.stack.filter (· != h) }) rfl, dropped]
      exact Ledger.setHand_setHand ((w.st.ledger.erase u h).pull c h) h _ o
    have p := ok.puts_removed hL stands only ended
    refine ⟨o, ledger ▸ p, ledger ▸ ok.retire p ended unclaimed idle fun i hi e => e, fun y hy => ?_⟩
    exact ⟨fun d => ((ended y hy).nowhere d).2, fun d hd => (((ended y hy).nowhere d).1 hd).elim, (ended y hy).not_followed⟩

/-! ### The old stack, record by record -/

/-- In the middle of the settling of the old stack of column `c` of `t`: the records of the list `todo` are still to be
settled. -/
structure State.Amending (q : Claim → Bool) (c : ColIx) (es : List AmendEntry) (s t : State) (todo : List HNum) : Prop where
  ok : s.ledger.Ok q noColumn noRecord
  fenced : (s.ledger.book c).state = .fenced
  distinct : todo.Nodup
  stand : ∀ h ∈ todo, h ∈ (s.ledger.book c).stack
  listed : ∀ h ∈ (s.ledger.book c).stack, h ∉ todo → ∃ x ∈ s.ledger.hand h, x.Listed es
  inbound : (s.ledger.book c).inbound = (t.ledger.book c).inbound
  depth : (s.ledger.book c).depth = (t.ledger.book c).depth
  hands : ∀ h ∈ (t.ledger.book c).inbound, s.hand h = t.hand h
  mayHold : ∀ rb, t.ledger.MayHold q rb → s.ledger.MayHold q rb

theorem Ledger.Puts.mayHold {rb : Robot} (p : L.Puts h o L') (quiet : ∀ y ∈ o, followedBy rb (some y) = false)
    (may : L.MayHold q rb) : L'.MayHold q rb := fun cl kind hq => by
  have sum := L.followersOf_setHand h o rb
  have none_ : followedBy rb o = false := by
    cases o with
    | none => rfl
    | some y => exact quiet y rfl
  have old := may cl kind hq
  rw [none_, ← p.followersOf] at sum
  rw [p.count]
  simp only [Bool.false_eq_true, if_false] at sum
  omega

theorem State.Amending.step (k : s.Amending q c es t (h :: l)) (p : s.ledger.Puts h o s'.ledger)
    (ok : s'.ledger.Ok q noColumn noRecord) (others : State.OthersStand h s s')
    (new : ∀ y ∈ o, (∀ d, ¬ y.inboundTo d) ∧ (∀ d, y.standsIn d → y.Listed es) ∧ ∀ rb, followedBy rb (some y) = false) :
    s'.Amending q c es t l := by
  obtain ⟨fresh, distinct⟩ := List.nodup_cons.1 k.distinct
  have stands : h ∈ (s.ledger.book c).stack := k.stand h (List.mem_cons_self ..)
  have apart : h ∉ (s.ledger.book c).inbound := fun hi => by
    obtain ⟨x, hx, hp⟩ := (k.ok.stack c h).1 stands
    exact (k.ok.fits h x hx).apart hp ((k.ok.mem_inbound hx).1 hi)
  have inbound : (s'.ledger.book c).inbound = (s.ledger.book c).inbound := by
    ext i
    rw [p.inbound]
    constructor
    · rintro (⟨-, hi⟩ | ⟨rfl, y, hy, hp⟩)
      · exact hi
      · exact ((new y hy).1 c hp).elim
    · exact fun hi => .inl ⟨fun e => apart (e ▸ hi), hi⟩
  refine ⟨ok, (p.state c).trans k.fenced, distinct, fun i hi => ?_, fun i hi out => ?_, inbound.trans k.inbound,
    (p.depth c).trans k.depth, fun i hi => ?_, fun rb may => p.mayHold (fun y hy => (new y hy).2.2 rb) (k.mayHold rb may)⟩
  · exact (p.stack c i).2 (.inl ⟨fun e => fresh (e ▸ hi), k.stand i (List.mem_cons_of_mem _ hi)⟩)
  · rcases (p.stack c i).1 hi with ⟨ne, old⟩ | ⟨rfl, y, hy, hp⟩
    · rw [p.other i ne]
      exact k.listed i old fun mem => (List.mem_cons.1 mem).elim ne out
    · exact ⟨y, p.self.trans hy, (new y hy).2.1 c hp⟩
  · rw [others i fun e => apart (e ▸ k.inbound ▸ hi)]
    exact k.hands i hi

theorem State.Amending.all : ∀ {l : List HNum} {w : Work}, w.st.Amending q c es t l →
    (l.foldl (fun w h => w.amendStack c es h) w).st.Amending q c es t []
  | [], _, k => k
  | h :: l, w, k => by
    obtain ⟨z, hz, hp⟩ := (k.ok.stack c h).1 (k.stand h (List.mem_cons_self ..))
    obtain ⟨x, hx, rfl⟩ := State.mem_ledger_hand.1 hz
    obtain ⟨o, p, ok, new⟩ := Work.amendStack_ok (es := es) k.ok k.fenced hx hp
    exact State.Amending.all (l := l) (w := w.amendStack c es h) (k.step p ok (Work.othersStand_amendStack w h) new)

/-- The records of the old stack are settled (R118). -/
theorem State.amendSettled_ok (ok : t.ledger.Ok q noColumn noRecord) (fenced : (t.ledger.book c).state = .fenced) :
    (t.amendSettled c es).st.Amending q c es t [] := by
  unfold State.amendSettled
  exact State.Amending.all (w := t.begin) (l := (t.col c).stack) ⟨ok, fenced, ok.once c, fun _ => id, fun _ hi out => (out hi).elim, rfl, rfl,
    fun _ _ => rfl, fun _ => id⟩

end Sys2Proof.Machine
end

