-- ==== Sys2Proof/Proofs/AccountOfAmendedDoubts.lean ====
section
/-! AMEND and the account (O57): the inbound record in DOUBT (R119). After it the account holds of the column as it will
stand in service, with the records that the list has so far as its stack. -/
namespace Sys2Proof.Machine

variable {q : Claim → Bool} {fencing : ColIx → Prop} {L L' : Ledger} {w : Work} {s t : State} {c : ColIx} {h : HNum}
  {x y : Handover} {es : List AmendEntry} {σ : List HNum} {d : Doubt}

/-! ### The column as it will stand -/

/-- The column in service, with the records of `σ` as its stack. -/
def Ledger.reopened (L : Ledger) (c : ColIx) (σ : List HNum) : Ledger :=
  L.modBook c fun b => { b with state := .opened, stack := σ }

theorem Ledger.turn_eq_reopened (L : Ledger) (c : ColIx) : L.turn c .opened = L.reopened c (L.book c).stack := by
  refine Ledger.ext rfl (funext fun d => ?_)
  rw [Ledger.book_turn, Ledger.reopened, Ledger.book_modBook]
  split
  next e => rw [e]
  next => rfl

theorem Ledger.turn_push_eq_reopened (L : Ledger) (c : ColIx) (h : HNum) :
    (L.push c h).turn c .opened = L.reopened c ((L.book c).stack ++ [h]) := by
  refine Ledger.ext rfl (funext fun d => ?_)
  rw [Ledger.book_turn, Ledger.book_push, Ledger.reopened, Ledger.book_modBook]
  split
  next e => rw [e]
  next => rfl

/-- A column of which no record is in doubt returns to service. -/
theorem Ledger.Ok.reopen (ok : L.Ok q fencing noRecord) (others : ∀ d, d ≠ c → ¬ fencing d)
    (calm : ∀ h, ∀ x ∈ L.hand h, x.state = .doubt → x.column ≠ some c) (free : (L.book c).grant = none) :
    (L.turn c .opened).Ok q noColumn noRecord :=
  ok.turn (fun d hd hf => others d hd hf) (by simp) (by simp) (fun _ => calm) free

/-- In the middle of an AMEND by the list `es`: the account holds of the column as it will stand with the stack `σ`. -/
structure Ledger.Stocked (q : Claim → Bool) (c : ColIx) (es : List AmendEntry) (σ : List HNum) (L : Ledger) : Prop where
  ok : (L.reopened c σ).Ok q noColumn noRecord
  listed : ∀ h ∈ σ, ∃ x ∈ L.hand h, ∃ e ∈ es, e.bin = x.bin
  coming : ∀ h ∈ (L.book c).inbound, ∀ x ∈ L.hand h, x.column = some c → ∀ e ∈ es, e.bin ≠ x.bin
  room : es.length + (L.book c).inbound.card ≤ (L.book c).depth

/-! ### The records in DOUBT of a column -/

/-- A record in use stands in a stack or is awaited at its column. -/
theorem Handover.Fits.stacked_or_awaited (fits : x.Fits) (inUse : x.state ≠ .closing) : x.stacked = true ∨ x.awaited = true := by
  rw [Handover.stacked_eq, Handover.awaited_eq]
  cases hs : x.state
  case doubt =>
    obtain ⟨d, hd⟩ := Option.isSome_iff_exists.1 (fits.doubt.2 hs)
    cases hop : d.op <;> simp [hd, hop]
  case closing => exact (inUse hs).elim
  all_goals simp

theorem State.mem_inboundDoubts : h ∈ t.inboundDoubts c ↔
    h ∈ (t.ledger.book c).inbound ∧ ∃ x, t.hand h = some x ∧ x.state = .doubt ∧ x.column = some c := by
  rw [State.inboundDoubts_eq, List.mem_filter, ← State.mem_ledger_inbound]
  cases t.hand h <;> simp

theorem State.inboundDoubts_cases (ok : t.ledger.Ok q noColumn noRecord) (ordered : t.ColumnsOrdered) :
    t.inboundDoubts c = [] ∨ ∃ h, t.inboundDoubts c = [h] := by
  have nodup : (t.inboundDoubts c).Nodup :=
    (show (t.col c).inbound.Nodup from (ordered c).inbound.imp fun h => ne_of_lt h).filter _
  match hl : t.inboundDoubts c with
  | [] => exact .inl rfl
  | [h] => exact .inr ⟨h, rfl⟩
  | a :: b :: l =>
    obtain ⟨-, x, hx, hd, hc⟩ := State.mem_inboundDoubts.1 (show a ∈ t.inboundDoubts c by simp [hl])
    obtain ⟨-, y, hy, hd', hc'⟩ := State.mem_inboundDoubts.1 (show b ∈ t.inboundDoubts c by simp [hl])
    have same := (ok.doubt a x.entry (State.ledger_hand hx) hd c hc).2.2 b y.entry (State.ledger_hand hy) hd' hc'
    rw [hl] at nodup
    simp [same] at nodup

/-- A record in DOUBT of the column, once the old stack is settled, is one that is awaited there. -/
theorem State.Amending.doubt_awaited (k : s.Amending q c es t []) {z : Handover} (hz : s.ledger.hand h = some z)
    (doubt : z.state = .doubt) (column : z.column = some c) : h ∈ t.inboundDoubts c ∧ z.awaited = true := by
  rcases (k.ok.fits h z hz).stacked_or_awaited (by simp [doubt]) with stacked | awaited
  · obtain ⟨y, hy, stored, -⟩ := k.listed h ((k.ok.mem_stack hz).2 ⟨stacked, column⟩) (by simp)
    obtain rfl := Option.mem_unique hz hy
    simp [doubt] at stored
  · have mem : h ∈ (t.ledger.book c).inbound := k.inbound ▸ (k.ok.mem_inbound hz).2 (.inl ⟨awaited, column⟩)
    obtain ⟨x, hx, rfl⟩ := State.mem_ledger_hand.1 hz
    exact ⟨State.mem_inboundDoubts.2 ⟨mem, x, (k.hands h mem).symm.trans hx, doubt, column⟩, awaited⟩

/-- What stays inbound to the column is counted (R117). -/
theorem State.inbound_card_le (ok : t.ledger.Ok q noColumn noRecord) (fenced : (t.ledger.book c).state = .fenced)
    {I : Finset HNum} (part : ∀ i ∈ I, i ∈ (t.ledger.book c).inbound ∧ (i ∈ t.inboundDoubts c → t.isListed es i = false)) :
    I.card ≤ t.remaining c es := by
  set others := HNum.all.filter fun h =>
    match t.hand h with
    | some r => r.state == .doubt && r.target == some c && r.column != some c
    | none => false
  have sub : I ⊆ (((t.inboundDoubts c).filter fun h => !t.isListed es h) ++ others).toFinset := fun i hi => by
    obtain ⟨mem, unlisted⟩ := part i hi
    obtain ⟨z, hz, hp⟩ := (ok.inbound c i).1 mem
    have doubt := ok.fencedInbound c id fenced i mem z hz
    obtain ⟨x, hx, rfl⟩ := State.mem_ledger_hand.1 hz
    rw [List.mem_toFinset, List.mem_append]
    by_cases column : x.column = some c
    · have own : i ∈ t.inboundDoubts c := State.mem_inboundDoubts.2 ⟨mem, x, hx, doubt, column⟩
      exact .inl (List.mem_filter.2 ⟨own, by simp [unlisted own]⟩)
    · have target : x.target = some c := hp.elim (fun hp => (column hp.2).elim) And.right
      have found : t.hand i = some x := hx
      refine .inr (List.mem_filter.2 ⟨by simp [HNum.all_eq], ?_⟩)
      simp only [found]
      simp [show x.state = .doubt from doubt, target, column]
  calc I.card ≤ _ := Finset.card_le_card sub
    _ ≤ _ := List.toFinset_card_le _
    _ = t.remaining c es := List.length_append

/-! ### The three ways of the list (R119) -/

/-- No record of the column is in doubt: its stack is as the list has it, and nothing was inbound. -/
theorem State.Amending.stocked_of_none (k : s.Amending q c es t []) (ok : t.ledger.Ok q noColumn noRecord)
    (none_ : t.inboundDoubts c = []) (fenced : (t.ledger.book c).state = .fenced)
    (room : es.length + t.remaining c es ≤ (t.ledger.book c).depth) :
    s.ledger.Stocked q c es (s.ledger.book c).stack := by
  have out (h : HNum) : h ∉ t.inboundDoubts c := by simp [none_]
  refine ⟨?_, fun h hh => ?_, fun h hh z hz column => ?_, ?_⟩
  · rw [← Ledger.turn_eq_reopened]
    exact k.ok.reopen (fun _ _ => id) (fun h z hz hd hc => out h (k.doubt_awaited hz hd hc).1)
      (k.ok.no_grant (by simp [k.fenced]))
  · obtain ⟨z, hz, -, e⟩ := k.listed h hh (by simp)
    exact ⟨z, hz, e⟩
  · exact (out h (k.doubt_awaited hz (k.ok.fencedInbound c id k.fenced h hh z hz) column).1).elim
  · rw [k.depth, k.inbound]
    exact (Nat.add_le_add_left (State.inbound_card_le ok fenced fun i hi => ⟨hi, fun mem => (out i mem).elim⟩) _).trans room

section
variable (k : s.Amending q c es t []) (ok : t.ledger.Ok q noColumn noRecord) (wait : t.DoubtsWait q)
  (one : t.inboundDoubts c = [h]) (hx : t.hand h = some x)
include k ok wait one hx

/-- The one record in DOUBT, as a late report would find it. -/
theorem State.Amending.reported : ∃ d, x.doubt = some d ∧ (d.op = .deposit ∨ d.op = .holding) ∧ s.hand h = some x ∧
    s.ledger.Reported q d.robot h x c d.op := by
  obtain ⟨mem, y, hy, doubt, column⟩ := State.mem_inboundDoubts.1 (show h ∈ t.inboundDoubts c by simp [one])
  obtain rfl := Option.mem_unique hx hy
  have hand : s.hand h = some x := (k.hands h mem).trans hx
  have fits : x.Fits := ok.fits_hand (e := none) hx
  obtain ⟨d, hd⟩ := Option.isSome_iff_exists.1 (fits.doubt.2 doubt)
  have awaited : x.awaited = true := (k.doubt_awaited (State.ledger_hand hand) doubt column).2
  refine ⟨d, hd, ?_, hand, State.reported_late k.ok (k.mayHold _ (wait h x hx d hd)) hand doubt hd column⟩
  rw [Handover.awaited_eq] at awaited
  simpa [doubt, hd] using awaited

end

/-- With no other record in doubt, a column whose one doubt is decided returns to service. -/
theorem State.Amending.reopen (k : s.Amending q c es t []) (one : t.inboundDoubts c = [h]) (ok : L'.Ok q (· = c) noRecord)
    (others : ∀ i, i ≠ h → L'.hand i = s.ledger.hand i) (calm : ∀ z ∈ L'.hand h, z.state ≠ .doubt)
    (state : (L'.book c).state = .fenced) : (L'.turn c .opened).Ok q noColumn noRecord := by
  refine ok.reopen (fun d ne e => ne e) (fun i z hz hd hc => ?_) (ok.no_grant (by simp [state]))
  by_cases e : i = h
  · subst e
    exact calm z hz hd
  · rw [others i e] at hz
    have := (k.doubt_awaited hz hd hc).1
    rw [one] at this
    exact e (List.mem_singleton.1 this)

/-- What is inbound to the column, but for its own doubt, is no record of its own. -/
theorem State.Amending.foreign (k : s.Amending q c es t []) (one : t.inboundDoubts c = [h]) {i : HNum} (ne : i ≠ h)
    (mem : i ∈ (s.ledger.book c).inbound) {z : Handover} (hz : s.ledger.hand i = some z) : z.column ≠ some c := fun column => by
  have := (k.doubt_awaited hz (k.ok.fencedInbound c id k.fenced i mem z hz) column).1
  rw [one] at this
  exact ne (List.mem_singleton.1 this)

/-! ### The doubted record is listed -/

theorem Work.ledger_amendInbound_listed {e : AmendEntry} (hx : w.st.hand h = some x)
    (he : es.find? (fun e => e.bin == x.bin) = some e) (timer : x.bookingTimer = none) (column : x.column = some c) :
    (w.amendInbound c es h).st.ledger = (w.st.ledger.erase c h).setHand h (some x.landed.entry) ∨
    ∃ f, x.follower = some f ∧ (w.amendInbound c es h).st.ledger =
      ((w.st.ledger.erase c h).setHand h (some x.landed.entry)).join c
        { robot := f.robot, kind := .lift, handover := h, stamp := 0, blocked := false } := by
  have erased : (w.st.modCol c fun k => { k with inbound := k.inbound.filter fun i => i != h }).ledger =
      w.st.ledger.erase c h := Work.ledger_leaveInbound w c h
  have same : ({ x.restated c w.st.clock e with follower := none } : Handover).entry = x.landed.entry := by
    simp [Handover.restated, Handover.landed, Handover.entry, timer, column]
  rw [Work.amendInbound_listed hx he]
  set v : Work := {
    st := (w.st.modCol c fun k => { k with inbound := k.inbound.filter fun i => i != h }).setHand h
      (some (x.restated c w.st.clock e))
    sel := w.sel } with hv
  have hand : v.st.hand h = some (x.restated c w.st.clock e) := State.hand_setHand_same ..
  have base : v.st.ledger = (w.st.ledger.erase c h).setHand h (some (x.restated c w.st.clock e).entry) := by
    rw [hv, State.ledger_setHand, erased]
    rfl
  cases hf : x.follower with
  | none =>
    left
    rw [Work.amendFollower_none hand hf, base, ← same]
    simp [Handover.restated, Handover.entry, hf]
  | some f =>
    have rest : (v.up fun s => s.setHand h (some { x.restated c w.st.clock e with follower := none })).st.ledger =
        (w.st.ledger.erase c h).setHand h (some x.landed.entry) := by
      rw [Work.up_st, State.ledger_setHand, base, Ledger.setHand_setHand, Option.map_some, same]
    by_cases port : f.robot.port = (x.restated c w.st.clock e).dest
    · right
      refine ⟨f, rfl, ?_⟩
      rw [Work.amendFollower_joins hand hf port, Work.ledger_join, rest]
      rfl
    · left
      rw [Work.amendFollower_dismissed hand hf port, Work.up_st, State.ledger_post, rest]

end Sys2Proof.Machine
end

