-- ==== Sys2Proof/Proofs/AccountOfAmendedColumns.lean ====
section
/-! AMEND and the account (O57): the column once its old records are settled (R118, R119). -/
namespace Sys2Proof.Machine

variable {q : Claim → Bool} {L L' : Ledger} {w : Work} {s t : State} {c : ColIx} {h : HNum}
  {x y : Handover} {es : List AmendEntry} {σ : List HNum} {d : Doubt}

section
variable (k : s.Amending q c es t []) (one : t.inboundDoubts c = [h]) (hx : t.hand h = some x)
include k one hx

theorem State.Amending.own : h ∈ (s.ledger.book c).inbound ∧ h ∉ (s.ledger.book c).stack ∧ s.ledger.hand h = some x.entry := by
  have mem : h ∈ (t.ledger.book c).inbound := (State.mem_inboundDoubts.1 (show h ∈ t.inboundDoubts c by simp [one])).1
  have hand : s.ledger.hand h = some x.entry := State.ledger_hand ((k.hands h mem).trans hx)
  refine ⟨k.inbound ▸ mem, fun hs => ?_, hand⟩
  exact (k.ok.fits h x.entry hand).apart ((k.ok.mem_stack hand).1 hs) ((k.ok.mem_inbound hand).1 (k.inbound ▸ mem))

variable (ok : t.ledger.Ok q noColumn noRecord) (fenced : (t.ledger.book c).state = .fenced)
  (room : es.length + t.remaining c es ≤ (t.ledger.book c).depth)
  (others : ∀ i, i ≠ h → L'.hand i = s.ledger.hand i)
  (state : (L'.book c).state = (s.ledger.book c).state) (depth : (L'.book c).depth = (s.ledger.book c).depth)
  (stack : (L'.book c).stack = (s.ledger.book c).stack)
include ok fenced room others state depth stack

/-- The listed record is on the list's stack. -/
theorem State.Amending.stocked_of_listed {e : AmendEntry} (he : e ∈ es) (bin : e.bin = x.bin)
    (hand : L'.hand h = some x.landed.entry) (inbound : (L'.book c).inbound = (s.ledger.book c).inbound.erase h)
    (ok' : (L'.push c h).Ok q (· = c) noRecord) : L'.Stocked q c es ((L'.book c).stack ++ [h]) := by
  obtain ⟨mem, out, -⟩ := k.own one hx
  refine ⟨?_, fun i hi => ?_, fun i hi z hz column => ?_, ?_⟩
  · rw [← Ledger.turn_push_eq_reopened]
    refine k.reopen one ok' others (fun z hz => ?_) ?_
    · obtain rfl := Option.mem_unique (show L'.hand h = some z from hz) hand
      exact fun e => by cases show HandState.stored = .doubt from e
    · rw [Ledger.book_push, if_pos rfl]
      exact state.trans k.fenced
  · rw [stack] at hi
    rcases List.mem_append.1 hi with hi | hi
    · rw [others i fun e => out (e ▸ hi)]
      obtain ⟨z, hz, -, listed⟩ := k.listed i hi (by simp)
      exact ⟨z, hz, listed⟩
    · obtain rfl := List.mem_singleton.1 hi
      exact ⟨_, hand, e, he, bin⟩
  · rw [inbound] at hi
    obtain ⟨ne, hi⟩ := Finset.mem_erase.1 hi
    exact (k.foreign one ne hi ((others i ne).symm.trans hz) column).elim
  · rw [inbound, depth, k.depth, k.inbound]
    refine (Nat.add_le_add_left (State.inbound_card_le ok fenced fun i hi => ?_) _).trans room
    obtain ⟨ne, hi⟩ := Finset.mem_erase.1 hi
    exact ⟨hi, fun own => by rw [one] at own; exact (ne (List.mem_singleton.1 own)).elim⟩

/-- The record that is not listed stays inbound, in doubt no longer. -/
theorem State.Amending.stocked_of_unlisted (unlisted : ∀ e ∈ es, e.bin ≠ x.bin) {y : Handover}
    (hand : L'.hand h = some y.entry) (bin : y.bin = x.bin) (calm : y.state ≠ .doubt)
    (inbound : (L'.book c).inbound = (s.ledger.book c).inbound) (ok' : L'.Ok q (· = c) noRecord) :
    L'.Stocked q c es (L'.book c).stack := by
  obtain ⟨mem, out, -⟩ := k.own one hx
  refine ⟨?_, fun i hi => ?_, fun i hi z hz column => ?_, ?_⟩
  · rw [← Ledger.turn_eq_reopened]
    refine k.reopen one ok' others (fun z hz => ?_) (state.trans k.fenced)
    obtain rfl := Option.mem_unique hz hand
    exact calm
  · rw [stack] at hi
    rw [others i fun e => out (e ▸ hi)]
    obtain ⟨z, hz, -, listed⟩ := k.listed i hi (by simp)
    exact ⟨z, hz, listed⟩
  · rw [inbound] at hi
    by_cases ne : i = h
    · subst ne
      obtain rfl := Option.mem_unique hz hand
      exact fun e he => bin ▸ unlisted e he
    · exact (k.foreign one ne hi ((others i ne).symm.trans hz) column).elim
  · rw [inbound, depth, k.depth, k.inbound]
    refine (Nat.add_le_add_left (State.inbound_card_le ok fenced fun i hi => ⟨hi, fun own => ?_⟩) _).trans room
    rw [one] at own
    obtain rfl := List.mem_singleton.1 own
    rw [State.isListed_eq, hx]
    simpa using unlisted

end

theorem Ledger.push_join (L : Ledger) (c : ColIx) (h : HNum) (cl : Claim) :
    (L.join c cl).push c h = (L.push c h).join c cl :=
  Ledger.modBook_comm (f := fun b => { b with waits := cl ::ₘ b.waits }) (g := fun b => { b with stack := b.stack ++ [h] })
    fun _ => rfl

/-- The doubted record is decided (R119). -/
theorem State.Amending.freed (k : w.st.Amending q c es t []) (ok : t.ledger.Ok q noColumn noRecord) (wait : t.DoubtsWait q)
    (fenced : (t.ledger.book c).state = .fenced) (room : es.length + t.remaining c es ≤ (t.ledger.book c).depth)
    (one : t.inboundDoubts c = [h]) : ∃ σ, (w.amendInbound c es h).st.ledger.Stocked q c es σ := by
  obtain ⟨-, x, hx, doubt, column⟩ := State.mem_inboundDoubts.1 (show h ∈ t.inboundDoubts c by simp [one])
  obtain ⟨d, hd, hop, hand, R⟩ := k.reported ok wait one hx
  have empty : (w.st.ledger.book c).waits = 0 := k.ok.fencedWaits c id k.fenced
  have room₆ : (w.st.ledger.book c).waits.card < 6 := by simp [empty]
  cases he : es.find? fun e => e.bin == x.bin with
  | some e =>
    have mem := List.mem_of_find?_eq_some he
    have bin : e.bin = x.bin := beq_iff_eq.1 (List.find?_some (p := fun e : AmendEntry => e.bin == x.bin) he)
    rcases Work.ledger_amendInbound_listed (c := c) hand he (R.fits.timer_eq_none R.inUse.2.1) column with ledger | ⟨f, hf, ledger⟩
    · refine ⟨_, k.stocked_of_listed one hx ok fenced room (fun i hi => ?_) ?_ ?_ ?_ mem bin ?_ ?_ ?_⟩ <;> rw [ledger]
      · simp [hi]
      · simp [Ledger.book_erase]
      · simp [Ledger.book_erase]
      · simp [Ledger.book_erase]
      · simp
      · simp [Ledger.book_erase]
      · exact (R.land hop).weaken (fun _ h => h.elim) fun _ => id
    · refine ⟨_, k.stocked_of_listed one hx ok fenced room (fun i hi => ?_) ?_ ?_ ?_ mem bin ?_ ?_ ?_⟩ <;> rw [ledger]
      · simp [hi]
      · simp [Ledger.book_erase, Ledger.book_join]
      · simp [Ledger.book_erase, Ledger.book_join]
      · simp [Ledger.book_erase, Ledger.book_join]
      · simp
      · simp [Ledger.book_erase, Ledger.book_join]
      · have followed := R.follow hop hf (fencing := (· = c)) (fun _ => rfl) room₆ (by simp [empty])
        rw [Ledger.push_join]
        exact followed
  | none =>
    have unlisted := unlisted_of_find? he
    rcases hop with op | op
    · have ledger : (w.amendInbound c es h).st.ledger =
          w.st.ledger.setHand h (some (x.rebooked w.st.limits.booking).entry) := by
        rw [Work.amendInbound_booked hand he hd op, Work.up_st, State.ledger_post, Work.ledger_judgeCharging,
          State.ledger_setHand]
        rfl
      refine ⟨_, k.stocked_of_unlisted one hx ok fenced room (fun i hi => ?_) ?_ ?_ ?_ unlisted
        (y := x.rebooked w.st.limits.booking) ?_ rfl (by simp [Handover.rebooked]) ?_ ?_⟩ <;> rw [ledger]
      · simp [hi]
      · rfl
      · rfl
      · rfl
      · simp
      · rfl
      · rw [op] at R
        exact R.turnBack (.inl rfl) (R.rebooked_fits _) (.inl rfl) rfl rfl rfl fun _ => rfl
    · rw [op] at R
      have holder : x.holder = some d.robot := by simpa using R.holder
      have ledger : (w.amendInbound c es h).st.ledger =
          (w.st.ledger.setHand h (some x.resumed.entry)).join c (.holds d.robot h) := by
        rw [Work.amendInbound_moving hand he hd op holder, Work.ledger_joinNew, Work.ledger_judgeCharging,
          State.ledger_setHand]
        rfl
      refine ⟨_, k.stocked_of_unlisted one hx ok fenced room (fun i hi => ?_) ?_ ?_ ?_ unlisted (y := x.resumed) ?_ rfl
        (by simp [Handover.resumed]) ?_ ?_⟩ <;> rw [ledger]
      · simp [hi]
      · simp [Ledger.book_join]
      · simp [Ledger.book_join]
      · simp [Ledger.book_join]
      · simp
      · simp [Ledger.book_join]
      · exact R.resumeHere (fun _ => rfl) room₆ rfl rfl rfl

/-- The column is ready for the records of the list (R118, R119). -/
theorem State.amendFreed_stocked (ok : t.ledger.Ok q noColumn noRecord) (ordered : t.ColumnsOrdered) (wait : t.DoubtsWait q)
    (served : (t.col c).state = .unknown ∨ (t.col c).state = .fenced)
    (room : es.length + t.remaining c es ≤ (t.col c).cfg.depth) :
    ∃ σ, (t.amendFreed c es).st.ledger.Stocked q c es σ := by
  rcases served with unknown | fenced
  · obtain ⟨stack, inbound, -⟩ := ok.empty c (.inl unknown)
    have noStack : (t.col c).stack = [] := stack
    have noInbound : (t.col c).inbound = [] := (List.toFinset_eq_empty_iff _).1 inbound
    have same : t.amendFreed c es = t.begin := by
      simp only [State.amendFreed, State.amendSettled, State.inboundDoubts, noStack, noInbound, List.filter_nil,
        List.foldl_nil]
    rw [same]
    refine ⟨(t.ledger.book c).stack, ?_, by simp [stack], by simp [State.begin_st, inbound], ?_⟩
    · rw [State.begin_st, ← Ledger.turn_eq_reopened]
      refine ok.reopen (fun _ _ => id) (fun h z hz hd hc => ?_)
        (ok.no_grant (by simp [show (t.ledger.book c).state = _ from unknown]))
      have fenced := (ok.doubt h z hz hd c hc).1
      simp [show (t.ledger.book c).state = _ from unknown] at fenced
    · rw [State.begin_st, inbound]
      exact (Nat.add_le_add_left (Nat.zero_le _) _).trans room
  · have k := State.amendSettled_ok (c := c) (es := es) ok fenced
    rcases State.inboundDoubts_cases (c := c) ok ordered with none_ | ⟨h, one⟩
    · rw [State.amendFreed, none_]
      exact ⟨_, k.stocked_of_none ok none_ fenced room⟩
    · rw [State.amendFreed, one]
      exact k.freed ok wait fenced room one

end Sys2Proof.Machine
end

