-- ==== Sys2Proof/Proofs/AccountOfAmendedStacks.lean ====
section
/-! AMEND and the account (O57): the new records and the new stack (R120). -/
namespace Sys2Proof.Machine

variable {q : Claim → Bool} {fencing : ColIx → Prop} {loose : HNum → Prop} {L L' : Ledger} {w : Work} {s t : State}
  {c : ColIx} {h : HNum} {x y : Handover} {es l : List AmendEntry} {σ τ : List HNum} {e : AmendEntry}

/-! ### A record that is made (R120, step 1) -/

section
variable (L c σ)

@[simp] theorem Ledger.state_reopened : ((L.reopened c σ).book c).state = .opened := by simp [Ledger.reopened]
@[simp] theorem Ledger.stack_reopened : ((L.reopened c σ).book c).stack = σ := by simp [Ledger.reopened]
@[simp] theorem Ledger.inbound_reopened : ((L.reopened c σ).book c).inbound = (L.book c).inbound := by simp [Ledger.reopened]
@[simp] theorem Ledger.depth_reopened : ((L.reopened c σ).book c).depth = (L.book c).depth := by simp [Ledger.reopened]

end

section
variable (k : L.Stocked q c es σ)
include k

theorem Ledger.Stocked.free : ((L.reopened c σ).book c).grant = none := k.ok.no_grant (by simp)

theorem Ledger.Stocked.calm {z : Handover} (hz : L.hand h = some z) (doubt : z.state = .doubt) : z.column ≠ some c := fun hc => by
  have fenced := (k.ok.doubt h z hz doubt c hc).1
  simp at fenced

theorem Ledger.Stocked.topFree (h : HNum) : (L.reopened c σ).TopFree h c :=
  ⟨fun g hg => by simp [k.free] at hg, fun _ _ _ hz hd _ => k.calm hz hd⟩

/-- A record of the stack. -/
theorem Ledger.Stocked.member (hh : h ∈ σ) : ∃ x ∈ L.hand h, x.standsIn c ∧ x.state ≠ .closing ∧ ∃ e ∈ es, e.bin = x.bin := by
  obtain ⟨x, hx, listed⟩ := k.listed h hh
  have stands := (k.ok.mem_stack (h := h) (c := c) hx).1 (by simpa using hh)
  refine ⟨x, hx, stands, fun closing => ?_, listed⟩
  have := stands.1
  rw [Handover.stacked_eq] at this
  simp [closing] at this

/-- Each record of the stack has a bin of the list; while a bin of the list has no record, the stack is shorter than it. -/
theorem Ledger.Stocked.length_lt (he : e ∈ es) (unheld : ∀ i, ∀ z ∈ L.hand i, z.state ≠ .closing → z.bin ≠ e.bin) :
    σ.length < es.length := by
  set f : HNum → BinNo := fun i => ((L.hand i).map Handover.bin).getD 0
  have bins : Set.MapsTo f σ.toFinset ((es.map AmendEntry.bin).toFinset.erase e.bin) := fun i hi => by
    obtain ⟨x, hx, -, inUse, e', he', bin⟩ := k.member (List.mem_toFinset.1 hi)
    have value : f i = x.bin := by simp [f, Option.mem_def.1 hx]
    simp only [value, Finset.coe_erase, Set.mem_sdiff, Set.mem_singleton_iff, Finset.mem_coe, List.mem_toFinset, List.mem_map]
    exact ⟨⟨e', he', bin⟩, unheld i x hx inUse⟩
  have distinct : Set.InjOn f σ.toFinset := fun i hi j hj same => by
    obtain ⟨x, hx, -, usedx, -⟩ := k.member (List.mem_toFinset.1 hi)
    obtain ⟨y, hy, -, usedy, -⟩ := k.member (List.mem_toFinset.1 hj)
    have same : x.bin = y.bin := by simpa [f, Option.mem_def.1 hx, Option.mem_def.1 hy] using same
    exact k.ok.bins i j x hx y hy usedx usedy same
  have nodup : σ.Nodup := by simpa using k.ok.once c
  calc σ.length = σ.toFinset.card := (List.toFinset_card_of_nodup nodup).symm
    _ ≤ ((es.map AmendEntry.bin).toFinset.erase e.bin).card := Finset.card_le_card_of_injOn f bins distinct
    _ < (es.map AmendEntry.bin).toFinset.card :=
      Finset.card_erase_lt_of_mem (List.mem_toFinset.2 (List.mem_map_of_mem he))
    _ ≤ es.length := (List.toFinset_card_le _).trans_eq (List.length_map _)

end

theorem AmendEntry.newRecord_fits (e : AmendEntry) (c : ColIx) (now : Seconds) : (e.newRecord c now).Fits := by
  constructor <;> simp [AmendEntry.newRecord]

theorem Ledger.push_reopened (L : Ledger) (c : ColIx) (σ : List HNum) (h : HNum) :
    (L.reopened c σ).push c h = L.reopened c (σ ++ [h]) :=
  Ledger.modBook_modBook (f := fun b => { b with state := .opened, stack := σ })
    (g := fun b => { b with stack := b.stack ++ [h] })

/-- A FREE record becomes a record of the list. -/
theorem Ledger.Stocked.make (k : L.Stocked q c es σ) (he : e ∈ es) (free : L.hand h = none)
    (unheld : ∀ i, ∀ z ∈ L.hand i, z.state ≠ .closing → z.bin ≠ e.bin) (now : Seconds) :
    (L.setHand h (some (e.newRecord c now).entry)).Stocked q c es (σ ++ [h]) := by
  set y := (e.newRecord c now).entry with hy
  have stored : y.state = .stored := rfl
  have out (d : ColIx) : ¬ y.inboundTo d := Handover.not_inboundTo_of_stored stored
  have stands (d : ColIx) : y.standsIn d ↔ d = c := by
    rw [Handover.standsIn_of_stored stored]
    exact Option.some_inj.trans eq_comm
  have shorter := k.length_lt he unheld
  have room : σ.length + (L.book c).inbound.card < (L.book c).depth := (Nat.add_lt_add_right shorter _).trans_le k.room
  have fresh : (L.reopened c σ).hand h = none := free
  have nowhere := k.ok.not_mem_stack_of_free fresh
  have p : (L.reopened c σ).Puts h (some y) (((L.reopened c σ).push c h).setHand h (some y)) := by
    refine (((k.ok.moves h).push (nowhere c) (k.topFree h)).setHand _).puts (by simp) (fun d => ?_) fun d => ?_
    · rw [Ledger.book_setHand, Ledger.mem_push, or_iff_left (nowhere d)]
      simpa using (stands d).symm
    · rw [Ledger.book_setHand, Ledger.inbound_push]
      exact iff_of_false (k.ok.not_mem_inbound_of_free fresh d) fun ⟨z, hz, hp⟩ => by
        obtain rfl := Option.some.inj hz
        exact out d hp
  have apart (i : HNum) (hi : i ∈ σ ∨ i ∈ (L.book c).inbound) : i ≠ h := fun same => by
    subst same
    rcases hi with hi | hi
    · exact nowhere c (by simpa using hi)
    · exact k.ok.not_mem_inbound_of_free fresh c (by simpa using hi)
  refine ⟨?_, fun i hi => ?_, fun i hi z hz column => ?_, k.room⟩
  · show ((L.reopened c (σ ++ [h])).setHand h (some y)).Ok q noColumn noRecord
    rw [← Ledger.push_reopened]
    refine p.ok k.ok (fun z hz => ?_) (fun i hi => id) (fun z hz hd => ?_)
      (fun d cl hcl hh => (k.ok.unclaimed_of_free fresh d cl hcl hh).elim)
      fun d g hg hn => (hn.elim (k.ok.idle_of_free fresh d g hg).1 (k.ok.idle_of_free fresh d g hg).2).elim
    · obtain rfl := Option.some.inj hz
      refine ⟨(Handover.fits_entry _).2 (e.newRecord_fits c now), fun _ i hi z hz used same => unheld i z hz used same.symm,
        fun d hd => ?_, fun d hd => ?_, fun d hd => (out d hd).elim, fun hd => ?_, fun _ hs => ?_, fun rb hf => ?_⟩
      · obtain rfl := (stands d).1 (hd.resolve_right (out d))
        simpa using .inr (.inr room)
      · obtain rfl := (stands d).1 (hd.resolve_right (out d))
        simp
      · cases stored.symm.trans hd
      · rcases hs with e | e | e <;> cases stored.symm.trans e
      · rw [hy, Handover.followedBy_entry] at hf
        cases hf
    · obtain rfl := Option.some.inj hz
      cases stored.symm.trans hd
  · rcases List.mem_append.1 hi with hi | hi
    · rw [Ledger.hand_setHand, if_neg (apart i (.inl hi))]
      exact k.listed i hi
    · obtain rfl := List.mem_singleton.1 hi
      exact ⟨y, by simp, e, he, rfl⟩
  · rw [Ledger.hand_setHand, if_neg (apart i (.inr hi))] at hz
    exact k.coming i hi z hz column

theorem State.amendCreate_stocked (k : s.ledger.Stocked q c es σ) (owns : s.Owns c es) (he : e ∈ es) :
    (s.amendCreate c e).Owns c es ∧ ∃ σ', (s.amendCreate c e).ledger.Stocked q c es σ' := by
  cases own : s.ownHolder c e.bin with
  | some h =>
    rw [State.amendCreate_known own]
    exact ⟨owns, σ, k⟩
  | none =>
    cases lowest : s.lowestFree with
    | none =>
      have same : s.amendCreate c e = s := by simp only [State.amendCreate, own, lowest]
      rw [same]
      exact ⟨owns, σ, k⟩
    | some h =>
      have free := (State.lowestFree_eq_some.1 lowest).1
      rw [State.amendCreate_new own lowest, State.ledger_setHand]
      refine ⟨fun i y hy used listed => ?_, σ ++ [h], k.make he (State.ledger_hand_none free) (fun i z hz used same => ?_) s.clock⟩
      · rw [State.hand_setHand] at hy
        split at hy
        · cases hy; rfl
        · exact owns i y hy used listed
      · obtain ⟨x, hx, rfl⟩ := State.mem_ledger_hand.1 hz
        exact (owns.ownHolder_ne_none he).2 ⟨i, x, hx, used, same⟩ own

theorem State.amendCreates_stocked : ∀ {l : List AmendEntry} {s : State} {σ : List HNum}, (∀ e ∈ l, e ∈ es) →
    s.ledger.Stocked q c es σ → s.Owns c es →
    ∃ σ', (l.foldl (State.amendCreate · c) s).ledger.Stocked q c es σ'
  | [], _, σ, _, k, _ => ⟨σ, k⟩
  | e :: l, s, σ, members, k, owns => by
    obtain ⟨he, members⟩ := List.forall_mem_cons.1 members
    obtain ⟨owns', σ', k'⟩ := State.amendCreate_stocked k owns he
    exact State.amendCreates_stocked (l := l) members k' owns'

end Sys2Proof.Machine
end

