-- ==== Sys2Proof/Proofs/AccountOfAmends.lean ====
section
/-! AMEND keeps the account (O57). -/
namespace Sys2Proof.Machine

variable {q : Claim → Bool} {fencing : ColIx → Prop} {loose : HNum → Prop} {L L' : Ledger} {w : Work} {s t : State}
  {c : ColIx} {h : HNum} {x y : Handover} {es l : List AmendEntry} {σ τ : List HNum} {e : AmendEntry} {body : List Byte}

/-! ### The stack in the order of the list (R120, step 2) -/

/-- The books of a column in service are the same with another stack, but for the stack. -/
theorem Ledger.book_reopened (L : Ledger) (c d : ColIx) (σ τ : List HNum) : (L.reopened c τ).book d =
    { (L.reopened c σ).book d with stack := if d = c then τ else ((L.reopened c σ).book d).stack } := by
  simp only [Ledger.reopened, Ledger.book_modBook]
  split <;> rfl

theorem Ledger.count_reopened (L : Ledger) (c : ColIx) (σ : List HNum) (p : Claim → Bool) :
    (L.reopened c σ).count p = L.count p := Ledger.count_modBook_same (by intro; rfl) p

/-- The records of a stack in another order. -/
theorem Ledger.Stocked.restack (k : L.Stocked q c es σ) (same : ∀ h, h ∈ τ ↔ h ∈ σ) (nodup : τ.Nodup) :
    (L.reopened c τ).Ok q noColumn noRecord := by
  have ok := k.ok
  have once : σ.Nodup := by simpa using ok.once c
  have length : τ.length = σ.length := ((List.perm_ext_iff_of_nodup nodup once).2 same).length_eq
  have book (d : ColIx) := L.book_reopened c d σ τ
  have stack (d : ColIx) (ne : d ≠ c) : ((L.reopened c τ).book d).stack = ((L.reopened c σ).book d).stack := by
    rw [book, if_neg ne]
  have claims (p : Claim → Bool) : (L.reopened c τ).count p = (L.reopened c σ).count p := by
    rw [Ledger.count_reopened, Ledger.count_reopened]
  constructor
  case fits => exact ok.fits
  case once =>
    intro d
    by_cases e : d = c
    · subst e; simpa using nodup
    · rw [stack d e]; exact ok.once d
  case stack =>
    intro d h
    by_cases e : d = c
    · subst e
      rw [Ledger.stack_reopened, same, ← Ledger.stack_reopened L d σ]
      exact ok.stack d h
    · rw [stack d e]; exact ok.stack d h
  case inbound => intro d h; rw [book]; exact ok.inbound d h
  case bins => exact ok.bins
  case room =>
    intro d
    by_cases e : d = c
    · subst e
      have room := ok.room d
      rw [Ledger.stack_reopened] at room ⊢
      rw [length, book]
      exact room
    · rw [stack d e, book]; exact ok.room d
  case waits => intro d; rw [book]; exact ok.waits d
  case regions => intro d; rw [book]; exact ok.regions d
  case empty =>
    intro d hd
    by_cases e : d = c
    · subst e; simp at hd
    · rw [stack d e]
      rw [book] at hd ⊢
      exact ok.empty d hd
  case fencedWaits => intro d hf hd; rw [book] at hd ⊢; exact ok.fencedWaits d hf hd
  case fencedInbound => intro d hf hd; rw [book] at hd ⊢; exact ok.fencedInbound d hf hd
  case granting => intro d hd; rw [book] at hd ⊢; exact ok.granting d hd
  case doubt =>
    intro h z hz hd d hc
    have ne : d ≠ c := fun e => k.calm hz hd (e ▸ hc)
    obtain ⟨fenced, top, alone⟩ := ok.doubt h z hz hd d hc
    refine ⟨by rw [book]; exact fenced, fun hs => by rw [stack d ne]; exact top hs, alone⟩
  case waiting => intro d cl hcl; rw [book] at hcl; exact ok.waiting d cl hcl
  case grant =>
    intro d g hg
    have old : g ∈ ((L.reopened c σ).book d).grant := by rw [book] at hg; exact hg
    have ne : d ≠ c := fun e => by subst e; simp [k.free] at old
    obtain ⟨record, top, claimed⟩ := ok.grant d g old
    exact ⟨record, fun hk => by rw [stack d ne]; exact top hk, claimed⟩
  case granted =>
    intro h hl z hz hs
    obtain ⟨d, hd, hg⟩ := ok.granted h hl z hz hs
    exact ⟨d, hd, by rw [book]; exact hg⟩
  case record => intro h; rw [claims]; exact ok.record h
  case robots => intro rb; rw [claims]; exact ok.robots rb

/-- The stack of the list is that of the column's records. -/
theorem Ledger.Stocked.mem_listStack (k : s.ledger.Stocked q c es σ) : h ∈ s.listStack c es ↔ h ∈ σ := by
  have holds {i : HNum} {bin : BinNo} : s.holdsBin i bin ↔ ∃ z ∈ s.ledger.hand i, z.state ≠ .closing ∧ z.bin = bin :=
    (State.exists_entry (p := fun z => z.state ≠ .closing ∧ z.bin = bin)).symm
  rw [State.listStack, List.mem_filterMap]
  constructor
  · rintro ⟨e, he, own⟩
    obtain ⟨held, -, x, hx, column⟩ := State.ownHolder_eq_some.1 own
    obtain ⟨z, hz, inUse, bin⟩ := holds.1 held
    obtain rfl := Option.mem_unique hz (State.ledger_hand hx)
    rcases (k.ok.fits h x.entry hz).stacked_or_awaited inUse with stacked | awaited
    · have mem := (k.ok.mem_stack (h := h) (c := c) hz).2 ⟨stacked, column⟩
      simpa using mem
    · have mem := (k.ok.mem_inbound (h := h) (c := c) hz).2 (.inl ⟨awaited, column⟩)
      exact (k.coming h (by simpa using mem) x.entry hz column e he bin.symm).elim
  · intro hh
    obtain ⟨z, hz, stands, inUse, e, he, bin⟩ := k.member hh
    obtain ⟨x, hx, rfl⟩ := State.mem_ledger_hand.1 hz
    refine ⟨e, he, State.ownHolder_eq_some.2 ⟨holds.2 ⟨x.entry, hz, inUse, bin.symm⟩, fun i lt held => ?_, x, hx, stands.2⟩⟩
    obtain ⟨y, hy, used, same⟩ := holds.1 held
    exact (ne_of_lt lt) (k.ok.bins i h y hy x.entry hz used inUse (same.trans bin))

theorem State.nodup_listStack (distinct : es.Pairwise fun a b => a.bin ≠ b.bin) : (s.listStack c es).Nodup := by
  refine List.Pairwise.filterMap _ (fun a a' ne h hh h' hh' same => ?_) distinct
  subst same
  obtain ⟨⟨x, hx, -, bin⟩, -⟩ := State.ownHolder_eq_some.1 hh
  obtain ⟨⟨y, hy, -, bin'⟩, -⟩ := State.ownHolder_eq_some.1 hh'
  obtain rfl := Option.mem_unique hx hy
  exact ne (bin.symm.trans bin')

/-! ### An AMEND that passes its tests -/

theorem State.ledger_postReady (s : State) (h : HNum) : (s.postReady h).ledger = s.ledger := by
  unfold State.postReady
  split
  · exact State.ledger_post ..
  · rfl

theorem amendApply_ok (ok : t.ledger.Ok q noColumn noRecord) (ordered : t.ColumnsOrdered) (wait : t.DoubtsWait q)
    (served : (t.col c).state = .unknown ∨ (t.col c).state = .fenced) (distinct : es.Pairwise fun a b => a.bin ≠ b.bin)
    (owns : t.Owns c es) (room : es.length + t.remaining c es ≤ (t.col c).cfg.depth) :
    (amendApply t c es).st.ledger.Ok q noColumn noRecord := by
  obtain ⟨σ₀, freed⟩ := State.amendFreed_stocked (es := es) ok ordered wait served room
  have sound : ∀ h, ∀ x ∈ t.hand h, x.doubt ≠ none → x.state ≠ .closing := fun h x hx hd closing => by
    have fits : x.Fits := ok.fits_hand (e := none) hx
    exact hd (fits.doubt_eq_none (by simp [closing]))
  obtain ⟨σ, made⟩ := State.amendCreates_stocked (c := c) (l := es) (fun _ => id) freed
    ((State.settled_amendFreed (es := es) t).owns sound owns)
  rw [← State.st_amendMade] at made
  have stack := made.restack (fun h => made.mem_listStack) (State.nodup_listStack distinct)
  unfold amendApply
  extract_lets wasFenced w₁ w₂ w₃ τ w₄ w₅ w₆ w₇ w₈
  have ledger₄ : w₄.st.ledger = (t.amendMade c es).st.ledger.modBook c fun b => { b with stack := τ } := by
    show ((t.amendMade c es).st.modCol c fun k => { k with stack := τ, cause := none }).ledger = _
    exact State.ledger_modCol rfl
  have ledger₅ : w₅.st.ledger = w₄.st.ledger :=
    foldl_keeps (fun w : Work => w.st.ledger) (fun w h => w.judgeCharging h) (fun w h => w.ledger_judgeCharging h) τ w₄
  have ok₆ : w₆.st.ledger.Ok q noColumn noRecord := by
    have opened : w₄.st.ledger.turn c .opened = (t.amendMade c es).st.ledger.reopened c τ := by
      rw [ledger₄]
      exact Ledger.modBook_modBook (f := fun b => { b with stack := τ }) (g := fun b => { b with state := .opened })
    rcases Work.ledger_settleOrOpen w₅ c with ledger | ledger
    · have settling : w₄.st.ledger.turn c .settling = ((t.amendMade c es).st.ledger.reopened c τ).turn c .settling := by
        rw [← opened]
        exact (Ledger.modBook_modBook (f := fun b => { b with state := .opened })
          (g := fun b => { b with state := .settling })).symm
      show (w₅.settleOrOpen c).st.ledger.Ok _ _ _
      rw [ledger, ledger₅, settling]
      exact stack.serve (by simp) (by simp) (stack.no_grant (by simp))
    · show (w₅.settleOrOpen c).st.ledger.Ok _ _ _
      rw [ledger, ledger₅, opened]
      exact stack
  clear_value w₆
  have ledger₇ : w₇.st.ledger = w₆.st.ledger := by
    simp only [w₇]
    split
    · exact State.ledger_postAll ..
    · rfl
  clear_value w₇
  have ledger₈ : w₈.st.ledger = w₇.st.ledger :=
    foldl_keeps State.ledger State.postReady State.ledger_postReady τ w₇.st
  rw [Work.startAll_st, Work.ledger_handOccupancy, ledger₈, ledger₇]
  exact ok₆

/-! ### The tests of R117 -/

theorem pairwise_of_repeatedAt_none (none_ : repeatedAt es = none) : es.Pairwise fun a b => a.bin ≠ b.bin := by
  rw [List.pairwise_iff_getElem]
  intro i j hi hj lt same
  have test := List.find?_eq_none.1 none_ j (List.mem_range.2 hj)
  rw [List.getElem?_eq_getElem hj] at test
  exact test (any_take_iff.2 ⟨i, es[i], lt, List.getElem?_eq_getElem hi, same⟩)

theorem State.otherHolder_of_heldElsewhere_none (none_ : s.heldElsewhere c es = none) (he : e ∈ es) :
    s.otherHolder c e.bin = none := by
  obtain ⟨i, hi⟩ := List.mem_iff_getElem?.1 he
  have test := List.findSome?_eq_none_iff.1 none_ i (List.mem_range.2 (getElem?_lt hi))
  rw [hi] at test
  simpa using test

theorem State.owns_of_heldElsewhere_none (ok : s.ledger.Ok q noColumn noRecord) (none_ : s.heldElsewhere c es = none) :
    s.Owns c es := by
  rintro h x hx used ⟨e, he, bin⟩
  rcases s.ownHolder_cases c e.bin with ⟨hb, -⟩ | ⟨i, y, hb, hy, ⟨column, -⟩ | ⟨-, -, other, -⟩⟩
  · exact absurd (State.holdsBin_iff.2 ⟨x, hx, used, bin.symm⟩) (List.find?_eq_none.1 hb h (HNum.mem_all h))
  · obtain ⟨⟨z, hz, inUse, same⟩, -⟩ := State.binHolder_eq_some.1 hb
    obtain rfl := Option.mem_unique hz hy
    obtain rfl := ok.bins h i x.entry (State.ledger_hand hx) z.entry (State.ledger_hand hz) used inUse (bin.symm.trans same.symm)
    obtain rfl := Option.mem_unique hx hz
    exact column
  · rw [State.otherHolder_of_heldElsewhere_none none_ he] at other
    cases other

theorem State.tests_of_amendDuplicate_none (none_ : s.amendDuplicate c es = none) :
    repeatedAt es = none ∧ s.heldElsewhere c es = none := by
  unfold State.amendDuplicate at none_
  split at none_ <;> simp only [Option.or_eq_none_iff, Option.map_eq_none_iff] at none_
  · exact none_
  · exact none_.symm

theorem amendJudged_ok (ok : s.ledger.Ok q noColumn noRecord) (ordered : s.ColumnsOrdered) (wait : s.DoubtsWait q) :
    (amendJudged s c es).work.st.ledger.Ok q noColumn noRecord := by
  unfold amendJudged
  extract_lets k
  split
  · exact ok
  next served =>
    split
    · exact ok
    next none_ =>
      split
      · exact ok
      · split
        · exact ok
        next room =>
          obtain ⟨repeated, held⟩ := State.tests_of_amendDuplicate_none none_
          refine amendApply_ok ok ordered wait ?_ (pairwise_of_repeatedAt_none repeated)
            (State.owns_of_heldElsewhere_none ok held) (not_lt.1 room)
          by_contra other
          exact served (not_or.1 other)

theorem amendOwner_ok (ok : s.ledger.Ok q noColumn noRecord) (ordered : s.ColumnsOrdered) (wait : s.DoubtsWait q) :
    (amendOwner body s).work.st.ledger.Ok q noColumn noRecord := by
  unfold amendOwner
  extract_lets count
  split
  · exact ok
  · split
    · exact ok
    · split
      · exact ok
      · split
        · exact ok
        · exact amendJudged_ok ok ordered wait

end Sys2Proof.Machine
end

