-- ==== Sys2Proof/Proofs/AccountOfSteps.lean ====
section
/-! Every step keeps the account of records, columns and claims (O57). -/
namespace Sys2Proof.Machine

variable {q : Claim → Bool} {s t : State} {p : Port} {L : Ledger} {body : List Byte}

/-! ### What a step starts from -/

/-- The account, and what its steps need beside it: the laws of the columns, and doubts whose robots wait. -/
structure State.Sound (q : Claim → Bool) (s : State) : Prop where
  kept : s.Kept q
  controlled : s.ColumnsControlled
  wait : s.DoubtsWait q

/-- The account alone. -/
def State.Balanced (q : Claim → Bool) (s : State) : Prop := s.ledger.Ok q noColumn noRecord

theorem letsGo_ledger (L : Ledger) (p : Port) : LetsGo (fun t => t.ledger = L) p where
  link _ h := h
  drop _ h := h

theorem letsGo_balanced (q : Claim → Bool) (p : Port) : LetsGo (State.Balanced q) p where
  link _ h := h
  drop _ h := h

/-! ### The edges of a link -/

theorem State.ledger_byteEdge (s : State) (p : Port) (b : Byte) (e : Bool) : (s.byteEdge p b e).ledger = s.ledger := by
  unfold State.byteEdge State.received
  dsimp only
  split
  · exact State.ledger_capture ..
  · rfl

theorem State.ledger_heldEdge (s : State) (p : Port) : (s.heldEdge p).ledger = s.ledger :=
  (letsGo_ledger s.ledger p).heldEdge rfl

theorem State.ledger_fillEdge (s : State) (p : Port) : (s.fillEdge p).ledger = s.ledger := by
  unfold State.fillEdge
  split
  · rfl
  · split
    · exact s.ledger_byteEdge p 0 false
    · exact s.ledger_heldEdge p

theorem State.ledger_awaitPace (s : State) (p : Port) (n : Nat) : (s.awaitPace p n).ledger = s.ledger :=
  SteadyPart.awaitPace (letsGo_ledger s.ledger p) n rfl

theorem State.ledger_awaitTurn (p : Port) : ∀ (n : Nat) (s : State), (s.awaitTurn p n).ledger = s.ledger
  | 0, _ => rfl
  | n + 1, s => by
    unfold State.awaitTurn
    split
    · rfl
    · exact (State.ledger_awaitTurn p n _).trans (s.ledger_fillEdge p)

theorem State.ledger_presentByte {b : Byte} {e : Bool} (h : s.presentByte p b e = some t) : t.ledger = s.ledger := by
  simp only [State.presentByte, Option.ite_none_right_eq_some, Option.some.injEq] at h
  rw [← h.2, State.ledger_byteEdge, State.ledger_awaitPace]

theorem State.ledger_takeBytes (p : Port) : ∀ (bs : List BusByte) (s : State), (State.takeBytes p bs s).ledger = s.ledger
  | [], _ => rfl
  | (b, e) :: bs, s => by
    unfold State.takeBytes
    split
    next t h => exact (State.ledger_takeBytes p bs t).trans (State.ledger_presentByte h)
    · rfl

/-! ### Requests -/

/-- The owner of every request. -/
theorem RequestKind.owner_balanced (sort : Claim.Sort q) (S : s.Sound q) (k : RequestKind) (body : List Byte) :
    (k.owner p body s).work.st.Balanced q := by
  obtain ⟨kept, controlled, wait⟩ := S
  have region {owner : Region → List Byte → State → Reply} (own : ∀ r, (owner r body s).work.st.Balanced q) :
      (regionOwner p owner body s).work.st.Balanced q := by
    unfold regionOwner
    split
    · exact own _
    · exact kept.2
  have same {u : State} (e : u.ledger = s.ledger) : u.Balanced q := by
    rw [State.Balanced, e]
    exact kept.2
  cases k with
  | book => exact region fun _ => bookOwner_ok kept.2
  | cancel => exact region fun _ => cancelOwner_ok kept.2
  | claim => exact region fun _ => claimOwner_ok kept.2
  | landed => exact region fun _ => reportOwner_ok applyLanded_ok sort kept.2 kept.1 wait
  | lifted => exact region fun _ => reportOwner_ok applyLifted_ok sort kept.2 kept.1 wait
  | release => exact region fun _ => reportOwner_ok applyRelease_ok sort kept.2 kept.1 wait
  | regionRestart => exact region fun _ => restartOwner_ok kept.2
  | queryHandover => exact same (by rw [RequestKind.owner, Closed.queryHandoverOwner_st, State.begin_st])
  | queryColumn => exact same (by rw [RequestKind.owner, Closed.queryColumnOwner_st, State.begin_st])
  | queryStatus => exact same rfl
  | queryError => exact same (by rw [RequestKind.owner, Closed.queryErrorOwner_st, State.begin_st])
  | clearErrors => exact same clearErrorsOwner_ledger
  | configureColumn => exact configureColumnOwner_ok kept controlled
  | configurePort => exact same configurePortOwner_ledger
  | configureLimits => exact same configureLimitsOwner_ledger
  | configureLoad => exact same configureLoadOwner_ledger
  | configureNotices => exact configureNoticesOwner_ok kept.2
  | setMode => exact same setModeOwner_ledger
  | force => exact same forceOwner_ledger
  | fence => exact fenceOwner_ok kept.2 kept.1
  | restore => exact restoreOwner_ok kept.2
  | amend => exact amendOwner_ok kept.2 kept.1 wait
  | reinitialize => exact reinitializeOwner_ok (body := body)

theorem Reply.answer_balanced {y : Reply} (hy : y.work.st.Balanced q) (p : Port) (f : Frame) : (y.answer p f).Balanced q :=
  Work.finish_ok hy

theorem State.takeRequest_balanced (sort : Claim.Sort q) (S : s.Sound q) (k : RequestKind) (p : Port) :
    (s.takeRequest k p (k.owner p)).Balanced q := by
  have taken : (s.dropRequest p).Sound q := ⟨S.kept, S.controlled, S.wait⟩
  rcases s.takeRequest_cases k p with h | ⟨f, -, -, h⟩
  · rw [h]
    exact S.kept.2
  · rw [h]
    refine Reply.answer_balanced ?_ p f
    unfold State.judgeRequest
    split
    · show ((s.dropRequest p).captureLink p .badLength).ledger.Ok _ _ _
      rw [show ((s.dropRequest p).captureLink p .badLength).ledger = _ from State.ledger_capture ..]
      exact taken.kept.2
    · split
      · exact taken.kept.2
      · split
        · exact taken.kept.2
        · exact RequestKind.owner_balanced sort taken k f.body

/-! ### The commands of a link -/

theorem sendAnswer_balanced (b : s.Balanced q) (h : exec (.sendAnswer p) s = .next t) : t.Balanced q := by
  simp only [exec, execSendAnswer] at h
  injection h with h
  subst h
  split
  · exact (letsGo_balanced q p).link _ (by rw [State.Balanced, State.ledger_awaitTurn]; exact b)
  · exact b

theorem sendNotice_balanced (b : s.Balanced q) (h : exec (.sendNotice p) s = .next t) : t.Balanced q := by
  simp only [exec, execSendNotice] at h
  injection h with h
  subst h
  have awaited : (s.awaitTurn p 2).Balanced q := by rw [State.Balanced, State.ledger_awaitTurn]; exact b
  have G := letsGo_balanced q p
  split
  · split
    · exact G.heldEdge awaited
    · exact G.link _ (State.noticeGone_ok (G.drop _ awaited) _ _)
  · exact b

theorem unknownKind_balanced (b : s.Balanced q) (h : exec (.requestOfUnknownKind p) s = .next t) : t.Balanced q := by
  simp only [exec, execRequestOfUnknownKind] at h
  injection h with h
  subst h
  split
  · exact b
  · split
    · exact b
    · refine Reply.answer_balanced ?_ p _
      show ((s.dropRequest p).captureLink p _).ledger.Ok _ _ _
      rw [show ((s.dropRequest p).captureLink p .unknownKind).ledger = _ from State.ledger_capture ..]
      exact b

theorem portCommand_balanced (sort : Claim.Sort q) {c : Sys2Proof.Instr} (hc : commandPort c = some p) (S : s.Sound q)
    (h : exec c s = .next t) : t.Balanced q := by
  have same {u : State} (e : u.ledger = s.ledger) : u.Balanced q := by
    rw [State.Balanced, e]
    exact S.kept.2
  rcases portCommand_cases hc with ⟨k, rfl⟩ | ⟨b, e, rfl⟩ | ⟨bytes, rfl⟩ | rfl | rfl | rfl | rfl
  · rw [exec_command] at h
    cases h
    exact State.takeRequest_balanced sort S k p
  · cases h
    split
    · cases hb : s.presentByte p b e with
      | none => exact S.kept.2
      | some u => exact same (State.ledger_presentByte hb)
    · exact S.kept.2
  · cases h
    exact same (State.ledger_takeBytes p bytes s)
  · exact SteadyPart.turnFalls (letsGo_balanced q p) S.kept.2 h
  · exact sendAnswer_balanced S.kept.2 h
  · exact sendNotice_balanced S.kept.2 h
  · exact unknownKind_balanced S.kept.2 h

/-! ### Every command and every step -/

theorem eventCommand_balanced (sort : Claim.Sort q) {c : Sys2Proof.Instr} (hc : commandPort c = none) (S : s.Sound q)
    (h : exec c s = .next t) : t.Balanced q := by
  obtain ⟨kept, controlled, -⟩ := S
  have same {u : State} (e : u.ledger = s.ledger) : u.Balanced q := by
    rw [State.Balanced, e]
    exact kept.2
  cases c <;> simp only [commandPort, reduceCtorEq] at hc
  case powerOn => exact takes_of_exec_eq (R := fun _ t => t.Balanced q) (exec_powerOn s) h (State.powered_ok false)
  case resetInput => exact takes_of_exec_eq (R := fun _ t => t.Balanced q) (exec_resetInput s) h (State.powered_ok true)
  case resetRelease => cases h; exact kept.2
  case interchangeTick g => cases h; exact same (s.ledger_tick g)
  case gaugeReadingChange d => cases h; exact State.readingChange_ok kept d
  case grantTimeout d => cases h; exact State.grantTimeout_ok sort kept d
  case settleExpiry d => cases h; exact State.settleExpiry_ok kept controlled d
  case secondsAdvance => cases h; exact same s.ledger_advance
  case bookingExpiry i => cases h; exact State.bookingExpiry_ok kept.2 i
  case exposureWarning i => cases h; exact State.exposureWarning_ok kept.2 i
  case exposureExpiry i => cases h; exact State.exposureExpiry_ok kept.2 i
  case trendSample => cases h; exact State.trendSample_ok kept.2

theorem step_balanced (sort : Claim.Sort q) (S : s.Sound q) (h : step s = .next t) : t.Balanced q := by
  unfold step at h
  split at h
  · cases h
    unfold State.lclkEdge
    split
    · exact S.kept.2
    · refine foldl_invariant (Q := State.Balanced q) (fun u p hu => ?_) _ S.kept.2
      rw [State.Balanced, State.ledger_fillEdge]
      exact hu
  next c rest hp =>
    have queued : State.Sound q { s with pending := rest } := ⟨S.kept, S.controlled, S.wait⟩
    cases hc : commandPort c with
    | none => exact eventCommand_balanced sort hc queued h
    | some p => exact portCommand_balanced sort hc queued h

theorem Claim.sort_isRegion : Claim.Sort Claim.isRegion where
  region _ h := h
  kind a b h := by simp only [Claim.isRegion, h]

theorem Claim.sort_all : Claim.Sort fun _ => true where
  region _ _ := rfl
  kind _ _ _ := rfl

/-- HOLDING claims are no region claims. -/
theorem State.doubtsWait_region (s : State) : s.DoubtsWait Claim.isRegion := fun _ _ _ _ _ cl kind region => by
  simp [Claim.isRegion, kind] at region

theorem State.DoubtedRobotsWait.doubtsWait (wait : s.DoubtedRobotsWait) : s.DoubtsWait fun _ => true :=
  fun h x hx d hd _ _ _ => State.count_robot (wait h x hx d hd).1 _

/-- Settles O57: the account of a state is that of its ledger of records, books and claims, and every command takes the
ledger from one that is in order to another. -/
theorem recordsStandWhereTheyBelong : Obligations.RecordsStandWhereTheyBelong := by
  obtain ⟨controlled, ordered⟩ := columnsKeepTheirLaws
  refine ⟨fun s t acc h => ?_, fun s t acc wait once h => ?_⟩
  · exact State.accounted_of_ok (controlled s t acc.controlled h) (ordered s t acc.ordered h)
      (step_balanced Claim.sort_isRegion ⟨⟨acc.ordered, acc.ok_region⟩, acc.controlled, s.doubtsWait_region⟩ h)
  · exact State.robotsClaimOnce_of_ok
      (step_balanced Claim.sort_all ⟨⟨acc.ordered, once.ok acc⟩, acc.controlled, wait.doubtsWait⟩ h)

end Sys2Proof.Machine
end
